-- ==== Sys2Proof/Word.lean ====
section
/-!
DEFINITION. The word types of the machine (R2, R8, R163): a 64-bit register word, a 32-bit instruction word and a byte.
-/

namespace Sys2Proof

/-- A scalar register word (R159). -/
abbrev Word := BitVec 64

/-- An instruction word (R163). -/
abbrev IWord := BitVec 32

/-- One byte of memory. -/
abbrev Byte := BitVec 8

/-- A number of a scalar register, x0 to x31 (R159). -/
abbrev XReg := BitVec 5

/-- A number of a vector register, v0 to v15 (R159). -/
abbrev VReg := BitVec 4

/-- A number of an accumulator tile, t0 to t3 (R159). -/
abbrev TReg := BitVec 2

end Sys2Proof
end

