-- ==== Sys2Proof/Syntax.lean ====
section
/-!
DEFINITION. The instructions and events of the machine: one constructor of `Instr` for each row of the opcode table.
Operands are the fields of the encodings (R164 to R175), already checked for reserved values; the rows that have no
encoding are the operations of the host, the links and the engines, with what the outside world hands the device.
-/

namespace Sys2Proof

/-- The s2 operand of the RK and B formats: x0 to x31 or a constant K0 to K63 (R167). -/
inductive S2 where
  | reg (r : XReg)
  | con (k : BitVec 6)
  deriving DecidableEq, Repr

/-- The s2 operand of the V format: a vector register, a broadcast scalar register or a constant (R167, R273). -/
inductive VS2 where
  | vec (v : VReg)
  | reg (r : XReg)
  | con (k : BitVec 6)
  deriving DecidableEq, Repr

/-- Scopes that an instruction can name, in the order of their codes 1 to 5 (R99, R173). -/
inductive Scope where
  | core | cl | die | pkg | grp
  deriving DecidableEq, Repr

/-- Fence kinds, codes 1 to 3 (R224). -/
inductive FenceKind where
  | acq | rel | full
  deriving DecidableEq, Repr

/-- Scopes of `ev.chain`: 0 unchain, 3 die, 4 package, 5 group (R231). -/
inductive ChainScope where
  | none | die | pkg | grp
  deriving DecidableEq, Repr

/-- The two forms of `tlbi` (R207): one page, or every translation of the ASID. -/
inductive TlbiKind where
  | page (rs1 : XReg)
  | all
  deriving DecidableEq, Repr

/-- Conditions of `vcmp`, funct6 0x10 to 0x15 (R283). -/
inductive VCond where
  | eq | ne | lt | ge | ltu | geu
  deriving DecidableEq, Repr

/-- Conditions of `vfcmp`, funct6 0x10 to 0x13 (R283). -/
inductive VFCond where
  | eq | lt | le | ne
  deriving DecidableEq, Repr

/-- Widths of vector memory, fmt 0 to 3 (R277). -/
inductive VMemFmt where
  | w | d | h | b
  deriving DecidableEq, Repr

/-- Formats of vector floating arithmetic, fmt 0 to 2 (R281). -/
inductive VFmt where
  | f32 | f64 | bf16
  deriving DecidableEq, Repr

/-- Output formats of `tst`, TFL 0 to 2 (R302). -/
inductive TstFmt where
  | f32 | bf16 | nf8
  deriving DecidableEq, Repr

/-- A Jalic packet: the header of R333, the payload, and the tail of R336. -/
structure Packet where
  dend : BitVec 12
  addr : BitVec 56
  tag : BitVec 14
  len : BitVec 8
  prio : BitVec 2
  ten : BitVec 6
  sinc : BitVec 12
  spkg : BitVec 4
  dpkg : BitVec 4
  kind : BitVec 6
  payload : List (BitVec 8)
  seq : BitVec 24
  ack : BitVec 24
  ackv : Bool
  poison : Bool
  crc : BitVec 32
  deriving DecidableEq, Repr

/-- A device register that a host write reaches (R344, R348, R354, R368). The physical function's registers to which the
spec gives no offset have a constructor of their own. -/
inductive HostReg where
  /-- a register of the function's BAR0 by its offset (R344, R348, R354, R368) -/
  | bar0 (off : BitVec 16)
  /-- CQUOTA.LIMIT of a tenant on an own caldera die (R98) -/
  | cquota (ca : Bool) (ten : BitVec 6)
  /-- SLCTL of an L2 slice (R89) -/
  | slctl (n : Nat)
  /-- PLCCTL of a die's PLC (R89) -/
  | plcctl (d : BitVec 2)
  /-- one of the eight doublewords of a flow-table entry (R143) -/
  | flow (ca : Bool) (i : BitVec 12) (dw : BitVec 3)
  /-- the size of a function's MSI-X table (R347) -/
  | msix (fn : Nat)
  /-- the Mask bit, bit 0, of a vector of the function's own MSI-X table (R347) -/
  | msixMask (vec : BitVec 11)
  /-- the Function Mask bit, bit 14, of the Message Control register of the function's own MSI-X capability (R347) -/
  | msixControl
  /-- a multicast table entry (R340) -/
  | mcast (ca : Bool) (i : BitVec 8)
  /-- a stage-2 entry of a function: the 32 MiB guest-physical block and the physical block it maps to (R94) -/
  | stage2 (fn : BitVec 7) (block : BitVec 23)
  deriving DecidableEq, Repr

/-- One aperture access (R343): a read of `len` bytes or a write of bytes, at an offset of BAR4. -/
inductive Aperture where
  | read (off : BitVec 34) (len : Nat)
  | write (off : BitVec 34) (bytes : List (BitVec 8))
  deriving DecidableEq, Repr

/-- What a device reset fixes (R17, R19): the presence block, the package number and the number of packages. -/
structure Presence where
  clpres : BitVec 1024
  chpres : BitVec 384
  lkpres : BitVec 36
  chnode : List (BitVec 10)
  pkg : BitVec 4
  group : Nat
  deriving DecidableEq, Repr

/-- What a patrol read finds in a unit (R384, R399). -/
inductive PatrolResult where
  | good | corrected | uncorrectable
  deriving DecidableEq, Repr

/-- The instructions and events of the opcode table. -/
inductive Instr where
  /-- R188: ADD. -/
  | add (rd rs1 : XReg) (s2 : S2)
  /-- R188: SUB. -/
  | sub (rd rs1 : XReg) (s2 : S2)
  /-- R188: AND. -/
  | and (rd rs1 : XReg) (s2 : S2)
  /-- R188: OR. -/
  | or (rd rs1 : XReg) (s2 : S2)
  /-- R188: XOR. -/
  | xor (rd rs1 : XReg) (s2 : S2)
  /-- R188: ANDN. -/
  | andn (rd rs1 : XReg) (s2 : S2)
  /-- R188: SLL. -/
  | sll (rd rs1 : XReg) (s2 : S2)
  /-- R188: SRL. -/
  | srl (rd rs1 : XReg) (s2 : S2)
  /-- R188: SRA. -/
  | sra (rd rs1 : XReg) (s2 : S2)
  /-- R188: SLT. -/
  | slt (rd rs1 : XReg) (s2 : S2)
  /-- R188: SLTU. -/
  | sltu (rd rs1 : XReg) (s2 : S2)
  /-- R188: MIN. -/
  | min (rd rs1 : XReg) (s2 : S2)
  /-- R188: MAX. -/
  | max (rd rs1 : XReg) (s2 : S2)
  /-- R188: MINU. -/
  | minu (rd rs1 : XReg) (s2 : S2)
  /-- R188: MAXU. -/
  | maxu (rd rs1 : XReg) (s2 : S2)
  /-- R191: SEL. -/
  | sel (rd rs1 : XReg) (s2 : S2)
  /-- R188: MUL. -/
  | mul (rd rs1 : XReg) (s2 : S2)
  /-- R188: MULH. -/
  | mulh (rd rs1 : XReg) (s2 : S2)
  /-- R188: MULHU. -/
  | mulhu (rd rs1 : XReg) (s2 : S2)
  /-- R189: QUO. -/
  | quo (rd rs1 : XReg) (s2 : S2)
  /-- R189: QUOU. -/
  | quou (rd rs1 : XReg) (s2 : S2)
  /-- R189: MOD. -/
  | mod (rd rs1 : XReg) (s2 : S2)
  /-- R189: MODU. -/
  | modu (rd rs1 : XReg) (s2 : S2)
  /-- R190: CLZ. -/
  | clz (rd rs1 : XReg)
  /-- R190: CTZ. -/
  | ctz (rd rs1 : XReg)
  /-- R190: POPC. -/
  | popc (rd rs1 : XReg)
  /-- R190: BSWAP. -/
  | bswap (rd rs1 : XReg)
  /-- R190: EXT. -/
  | ext (rd rs1 : XReg) (s2 : S2)
  /-- R190: INS. -/
  | ins (rd rs1 : XReg) (s2 : S2)
  /-- R192: LEA. -/
  | lea (n : BitVec 2) (rd rs1 : XReg) (s2 : S2)
  /-- R193: ADDW. -/
  | addw (rd rs1 : XReg) (s2 : S2)
  /-- R193: SUBW. -/
  | subw (rd rs1 : XReg) (s2 : S2)
  /-- R193: SLLW. -/
  | sllw (rd rs1 : XReg) (s2 : S2)
  /-- R193: SRLW. -/
  | srlw (rd rs1 : XReg) (s2 : S2)
  /-- R193: SRAW. -/
  | sraw (rd rs1 : XReg) (s2 : S2)
  /-- R193: MULW. -/
  | mulw (rd rs1 : XReg) (s2 : S2)
  /-- R194: ADDI. -/
  | addi (rd rs1 : XReg) (imm : BitVec 12)
  /-- R194: ANDI. -/
  | andi (rd rs1 : XReg) (imm : BitVec 12)
  /-- R194: ORI. -/
  | ori (rd rs1 : XReg) (imm : BitVec 12)
  /-- R194: XORI. -/
  | xori (rd rs1 : XReg) (imm : BitVec 12)
  /-- R194: SLLI. -/
  | slli (rd rs1 : XReg) (sh : BitVec 6)
  /-- R194: SRLI. -/
  | srli (rd rs1 : XReg) (sh : BitVec 6)
  /-- R194: SRAI. -/
  | srai (rd rs1 : XReg) (sh : BitVec 6)
  /-- R194: SLTI. -/
  | slti (rd rs1 : XReg) (imm : BitVec 12)
  /-- R194: SLTIU. -/
  | sltiu (rd rs1 : XReg) (imm : BitVec 12)
  /-- R195: LUI. -/
  | lui (rd : XReg) (imm : BitVec 20)
  /-- R195: AUIPC. -/
  | auipc (rd : XReg) (imm : BitVec 20)
  /-- R196: BEQ. -/
  | beq (annul : Bool) (rs1 : XReg) (s2 : S2) (off : BitVec 9)
  /-- R196: BNE. -/
  | bne (annul : Bool) (rs1 : XReg) (s2 : S2) (off : BitVec 9)
  /-- R196: BLT. -/
  | blt (annul : Bool) (rs1 : XReg) (s2 : S2) (off : BitVec 9)
  /-- R196: BGE. -/
  | bge (annul : Bool) (rs1 : XReg) (s2 : S2) (off : BitVec 9)
  /-- R196: BLTU. -/
  | bltu (annul : Bool) (rs1 : XReg) (s2 : S2) (off : BitVec 9)
  /-- R196: BGEU. -/
  | bgeu (annul : Bool) (rs1 : XReg) (s2 : S2) (off : BitVec 9)
  /-- R197: JAL. -/
  | jal (rd : XReg) (imm : BitVec 20)
  /-- R197: JALR. -/
  | jalr (rd rs1 : XReg) (imm : BitVec 12)
  /-- R216: LB. -/
  | lb (rd rs1 : XReg) (off : BitVec 8) (nu : BitVec 4)
  /-- R216: LH. -/
  | lh (rd rs1 : XReg) (off : BitVec 8) (nu : BitVec 4)
  /-- R216: LW. -/
  | lw (rd rs1 : XReg) (off : BitVec 8) (nu : BitVec 4)
  /-- R216: LD. -/
  | ld (rd rs1 : XReg) (off : BitVec 8) (nu : BitVec 4)
  /-- R216: LBU. -/
  | lbu (rd rs1 : XReg) (off : BitVec 8) (nu : BitVec 4)
  /-- R216: LHU. -/
  | lhu (rd rs1 : XReg) (off : BitVec 8) (nu : BitVec 4)
  /-- R216: LWU. -/
  | lwu (rd rs1 : XReg) (off : BitVec 8) (nu : BitVec 4)
  /-- R217: SB. -/
  | sb (rs rs1 : XReg) (off : BitVec 8) (nu : BitVec 4)
  /-- R217: SH. -/
  | sh (rs rs1 : XReg) (off : BitVec 8) (nu : BitVec 4)
  /-- R217: SW. -/
  | sw (rs rs1 : XReg) (off : BitVec 8) (nu : BitVec 4)
  /-- R217: SD. -/
  | sd (rs rs1 : XReg) (off : BitVec 8) (nu : BitVec 4)
  /-- R218: LDV. -/
  | ldv (scope : Scope) (rd rs1 : XReg) (s2 : S2)
  /-- R219: STV. -/
  | stv (scope : Scope) (rs rs1 : XReg) (s2 : S2)
  /-- R220: RCLM. -/
  | rclm (rs rs1 : XReg) (s2 : S2)
  /-- R221: AMO_ADD. -/
  | amoAdd (w : Bool) (ord : BitVec 4) (rd rs1 rs2 : XReg)
  /-- R221: AMO_MIN. -/
  | amoMin (w : Bool) (ord : BitVec 4) (rd rs1 rs2 : XReg)
  /-- R221: AMO_MAX. -/
  | amoMax (w : Bool) (ord : BitVec 4) (rd rs1 rs2 : XReg)
  /-- R221: AMO_MINU. -/
  | amoMinu (w : Bool) (ord : BitVec 4) (rd rs1 rs2 : XReg)
  /-- R221: AMO_MAXU. -/
  | amoMaxu (w : Bool) (ord : BitVec 4) (rd rs1 rs2 : XReg)
  /-- R221: AMO_AND. -/
  | amoAnd (w : Bool) (ord : BitVec 4) (rd rs1 rs2 : XReg)
  /-- R221: AMO_OR. -/
  | amoOr (w : Bool) (ord : BitVec 4) (rd rs1 rs2 : XReg)
  /-- R221: AMO_XOR. -/
  | amoXor (w : Bool) (ord : BitVec 4) (rd rs1 rs2 : XReg)
  /-- R221: AMO_SWAP. -/
  | amoSwap (w : Bool) (ord : BitVec 4) (rd rs1 rs2 : XReg)
  /-- R221: AMO_CAS. -/
  | amoCas (w : Bool) (ord : BitVec 4) (rd rs1 rs2 : XReg)
  /-- R221: AMO_FADD. -/
  | amoFadd (w : Bool) (ord : BitVec 4) (rd rs1 rs2 : XReg)
  /-- R223: RED_ADD. -/
  | redAdd (w : Bool) (rs1 rs2 : XReg)
  /-- R223: RED_FADD. -/
  | redFadd (w : Bool) (rs1 rs2 : XReg)
  /-- R223: RED_MIN. -/
  | redMin (uns w : Bool) (rs1 rs2 : XReg)
  /-- R223: RED_MAX. -/
  | redMax (uns w : Bool) (rs1 rs2 : XReg)
  /-- R223: RED_OR. -/
  | redOr (w : Bool) (rs1 rs2 : XReg)
  /-- R224: FENCE. -/
  | fence (kind : FenceKind) (scope : Scope)
  /-- R225: CWB. -/
  | cwb (rs1 : XReg) (imm : BitVec 12)
  /-- R225: CINV. -/
  | cinv (rs1 : XReg) (imm : BitVec 12)
  /-- R226: CPF. -/
  | cpf (rs1 : XReg) (imm : BitVec 12) (nu : BitVec 4)
  /-- R227: SMAP. -/
  | smap (rs1 : XReg) (f : BitVec 5)
  /-- R228: SUNMAP. -/
  | sunmap (f : BitVec 5)
  /-- R230: EV_ARRIVE. -/
  | evArrive (b : BitVec 2)
  /-- R230: EV_WAIT. -/
  | evWait (b : BitVec 2)
  /-- R232: EV_WAIT_E. -/
  | evWaitE (l : BitVec 4)
  /-- R232: EV_SIGNAL. -/
  | evSignal (l : BitVec 4)
  /-- R233: EV_LOCK. -/
  | evLock (m : BitVec 3)
  /-- R233: EV_UNLOCK. -/
  | evUnlock (m : BitVec 3)
  /-- R231: EV_CHAIN. -/
  | evChain (scope : ChainScope) (b : BitVec 2)
  /-- R235: MSEND. -/
  | msend (rs1 : XReg) (s2 : S2)
  /-- R236: MRECV. -/
  | mrecv (rd rs1 : XReg)
  /-- R236: MPOLL. -/
  | mpoll (rd : XReg)
  /-- R239: CQ_POP. -/
  | cqPop (rd : XReg)
  /-- R242: POST. -/
  | post (rs1 : XReg) (imm : BitVec 12)
  /-- R243: TASK_END. -/
  | taskEnd
  /-- R244: SS_END. -/
  | ssEnd
  /-- R245: HSTART. -/
  | hstart (rd rs1 : XReg) (imm : BitVec 12)
  /-- R246: HJOIN. -/
  | hjoin (mask : BitVec 10)
  /-- R247: HEXIT. -/
  | hexit
  /-- R249: FUT_NEW. -/
  | futNew (rd : XReg)
  /-- R250: FUT_SET. -/
  | futSet (rs1 : XReg) (s2 : S2)
  /-- R251: FUT_GET. -/
  | futGet (rd rs1 : XReg)
  /-- R251: FUT_CHK. -/
  | futChk (rd rs1 : XReg)
  /-- R252: FUT_FREE. -/
  | futFree (rs1 : XReg)
  /-- R254: PLOAD. -/
  | pload (rs1 : XReg)
  /-- R255: PPUT. -/
  | pput (rd rs1 : XReg) (s2 : S2)
  /-- R256: PCLOSE. -/
  | pclose (rd rs1 : XReg)
  /-- R257: PGET. -/
  | pget (rs1 : XReg) (s2 : S2)
  /-- R258: PREL. -/
  | prel (rs1 : XReg) (s2 : S2)
  /-- R259: PSTAT. -/
  | pstat (rd rs1 : XReg)
  /-- R261: CM_ALLOC. -/
  | cmAlloc (rd rs1 : XReg) (s2 : S2)
  /-- R262: CM_FREE. -/
  | cmFree (rs1 : XReg) (s2 : S2)
  /-- R263: CM_QUERY. -/
  | cmQuery (rd : XReg) (s2 : S2)
  /-- R198: CSRR. -/
  | csrr (rd : XReg) (csr : BitVec 12)
  /-- R198: CSRW. -/
  | csrw (rd rs1 : XReg) (csr : BitVec 12)
  /-- R198: CSRS. -/
  | csrs (rd rs1 : XReg) (csr : BitVec 12)
  /-- R198: CSRC. -/
  | csrc (rd rs1 : XReg) (csr : BitVec 12)
  /-- R202: ECALL. -/
  | ecall
  /-- R202: BRK. -/
  | brk
  /-- R203: XRET. -/
  | xret
  /-- R205: PARK. -/
  | park
  /-- R206: FENCE_I. -/
  | fenceI
  /-- R207: TLBI. -/
  | tlbi (kind : TlbiKind)
  /-- R208: HNOTIFY. -/
  | hnotify (rs1 : XReg)
  /-- R211: CTXRD. -/
  | ctxrd (rd rs1 : XReg) (sel : BitVec 12)
  /-- R211: CTXWR. -/
  | ctxwr (rd rs1 : XReg) (sel : BitVec 12)
  /-- R212: CTXRES. -/
  | ctxres (rs1 : XReg)
  /-- R210: CTXKILL. -/
  | ctxkill (rs1 : XReg)
  /-- R271: VSETVL. -/
  | vsetvl (d : Bool) (rd : XReg) (s2 : S2)
  /-- R277: VLD. -/
  | vld (fmt : VMemFmt) (nu : BitVec 4) (v : VReg) (rs1 : XReg)
  /-- R277: VLDS. -/
  | vlds (fmt : VMemFmt) (nu : BitVec 4) (v : VReg) (rs1 : XReg) (s2 : S2)
  /-- R277: VLDX. -/
  | vldx (fmt : VMemFmt) (nu : BitVec 4) (v : VReg) (rs1 : XReg) (vi : VReg)
  /-- R277: VST. -/
  | vst (fmt : VMemFmt) (nu : BitVec 4) (v : VReg) (rs1 : XReg)
  /-- R277: VSTS. -/
  | vsts (fmt : VMemFmt) (nu : BitVec 4) (v : VReg) (rs1 : XReg) (s2 : S2)
  /-- R277: VSTX. -/
  | vstx (fmt : VMemFmt) (nu : BitVec 4) (v : VReg) (rs1 : XReg) (vi : VReg)
  /-- R280: VADD. -/
  | vadd (d : Bool) (vd vs1 : VReg) (s2 : VS2)
  /-- R280: VSUB. -/
  | vsub (d : Bool) (vd vs1 : VReg) (s2 : VS2)
  /-- R280: VMUL. -/
  | vmul (d : Bool) (vd vs1 : VReg) (s2 : VS2)
  /-- R280: VAND. -/
  | vand (d : Bool) (vd vs1 : VReg) (s2 : VS2)
  /-- R280: VOR. -/
  | vor (d : Bool) (vd vs1 : VReg) (s2 : VS2)
  /-- R280: VXOR. -/
  | vxor (d : Bool) (vd vs1 : VReg) (s2 : VS2)
  /-- R280: VSLL. -/
  | vsll (d : Bool) (vd vs1 : VReg) (s2 : VS2)
  /-- R280: VSRL. -/
  | vsrl (d : Bool) (vd vs1 : VReg) (s2 : VS2)
  /-- R280: VSRA. -/
  | vsra (d : Bool) (vd vs1 : VReg) (s2 : VS2)
  /-- R280: VMIN. -/
  | vmin (d : Bool) (vd vs1 : VReg) (s2 : VS2)
  /-- R280: VMAX. -/
  | vmax (d : Bool) (vd vs1 : VReg) (s2 : VS2)
  /-- R283: VCMP. -/
  | vcmp (cc : VCond) (d : Bool) (vd vs1 : VReg) (s2 : VS2)
  /-- R284: VSEL. -/
  | vsel (d : Bool) (vd vs1 : VReg) (s2 : VS2)
  /-- R284: VMAND. -/
  | vmand (vd vs1 vs2 : VReg)
  /-- R284: VMOR. -/
  | vmor (vd vs1 vs2 : VReg)
  /-- R284: VMNOT. -/
  | vmnot (vd vs2 : VReg)
  /-- R287: VSLIDE. -/
  | vslide (d : Bool) (vd vs1 : VReg) (s2 : S2)
  /-- R287: VBCAST. -/
  | vbcast (d : Bool) (vd vs1 : VReg) (s2 : S2)
  /-- R287: VMVXS. -/
  | vmvxs (d : Bool) (rd : XReg) (vs1 : VReg)
  /-- R287: VMVSX. -/
  | vmvsx (d : Bool) (vd : VReg) (rs1 : XReg)
  /-- R286: VREDSUM. -/
  | vredsum (d : Bool) (vd vs1 : VReg) (s2 : VS2)
  /-- R286: VREDMAX. -/
  | vredmax (d : Bool) (vd vs1 : VReg) (s2 : VS2)
  /-- R286: VREDMIN. -/
  | vredmin (d : Bool) (vd vs1 : VReg) (s2 : VS2)
  /-- R281: VFADD. -/
  | vfadd (fmt : VFmt) (vd vs1 : VReg) (s2 : VS2)
  /-- R281: VFSUB. -/
  | vfsub (fmt : VFmt) (vd vs1 : VReg) (s2 : VS2)
  /-- R281: VFMUL. -/
  | vfmul (fmt : VFmt) (vd vs1 : VReg) (s2 : VS2)
  /-- R282: VFDIV. -/
  | vfdiv (fmt : VFmt) (vd vs1 : VReg) (s2 : VS2)
  /-- R282: VFSQRT. -/
  | vfsqrt (fmt : VFmt) (vd : VReg) (s2 : VS2)
  /-- R282: VFMIN. -/
  | vfmin (fmt : VFmt) (vd vs1 : VReg) (s2 : VS2)
  /-- R282: VFMAX. -/
  | vfmax (fmt : VFmt) (vd vs1 : VReg) (s2 : VS2)
  /-- R282: VFABS. -/
  | vfabs (fmt : VFmt) (vd : VReg) (s2 : VS2)
  /-- R282: VFNEG. -/
  | vfneg (fmt : VFmt) (vd : VReg) (s2 : VS2)
  /-- R281: VFMA. -/
  | vfma (fmt : VFmt) (vd vs1 : VReg) (s2 : VS2)
  /-- R281: VFMS. -/
  | vfms (fmt : VFmt) (vd vs1 : VReg) (s2 : VS2)
  /-- R281: VFNMA. -/
  | vfnma (fmt : VFmt) (vd vs1 : VReg) (s2 : VS2)
  /-- R283: VFCMP. -/
  | vfcmp (cc : VFCond) (fmt : VFmt) (vd vs1 : VReg) (s2 : VS2)
  /-- R286: VFREDSUM. -/
  | vfredsum (fmt : VFmt) (vd vs1 : VReg) (s2 : VS2)
  /-- R285: VCVT. -/
  | vcvt (dst src : BitVec 3) (rtz : Bool) (vd vs1 : VReg)
  /-- R300: TZERO. -/
  | tzero (td : TReg)
  /-- R301: TMMA. -/
  | tmma (td : TReg) (rs1 rs2 : XReg)
  /-- R301: TMMAT. -/
  | tmmat (td : TReg) (rs1 rs2 : XReg)
  /-- R300: TADD. -/
  | tadd (td ts : TReg)
  /-- R300: TSCL. -/
  | tscl (td : TReg) (rs2 : XReg)
  /-- R300: TTR. -/
  | ttr (td ts : TReg)
  /-- R300: TMOV. -/
  | tmov (td ts : TReg)
  /-- R302: TLD. -/
  | tld (nu : BitVec 4) (td : TReg) (rs1 : XReg)
  /-- R302: TBLD. -/
  | tbld (nu : BitVec 4) (rs1 rs2 : XReg)
  /-- R302: TST. -/
  | tst (nu : BitVec 4) (fmt : TstFmt) (td : TReg) (rs1 rs2 : XReg)
  /-- R306: RWLOAD. -/
  | rwload (rs1 : XReg)
  /-- R307: RWFLUSH. -/
  | rwflush
  /-- R310: VENT_PUSH. -/
  | ventPush (nu : BitVec 4) (nocq : Bool) (rs1 rs2 : XReg)
  /-- R309: VENT_PUSH_DEC. -/
  | ventPushDec (nu : BitVec 4) (nocq : Bool) (rs1 rs2 : XReg)
  /-- R309: VENT_PULL. -/
  | ventPull (nu : BitVec 4) (nocq : Bool) (rs1 rs2 : XReg)
  /-- R309: VENT_GATH. -/
  | ventGath (nu : BitVec 4) (nocq : Bool) (rs1 rs2 : XReg)
  /-- R309: VENT_SCAT. -/
  | ventScat (nu : BitVec 4) (nocq : Bool) (rs1 rs2 : XReg)
  /-- R311: VENT_WAIT. -/
  | ventWait (rs1 rs2 : XReg)
  /-- R312: VENT_NOTE. -/
  | ventNote (rs1 rs2 : XReg)
  /-- R139: LAUNCH. -/
  | launch (fn : Nat)
  /-- R345: DRAIN. -/
  | drain (fn : Nat)
  /-- R47: RESUME. -/
  | resume (fn : Nat)
  /-- R345: DISCARD. -/
  | discard (fn : Nat)
  /-- R25: SPLIT. -/
  | split (fn : Nat)
  /-- R25: MERGE. -/
  | merge (fn : Nat)
  /-- R26: RELEASE. -/
  | release (fn : Nat)
  /-- R345: LOADLM. -/
  | loadlm (fn : Nat)
  /-- R345: LOADCSR. -/
  | loadcsr (fn : Nat)
  /-- R155: SETSLICE. -/
  | setslice (fn : Nat)
  /-- R151: SETPRIO. -/
  | setprio (fn : Nat)
  /-- R395: SETRDCTL. -/
  | setrdctl (fn : Nat)
  /-- R345: INTERRUPT. -/
  | interrupt (fn : Nat)
  /-- R348: ASSIGN. -/
  | assign (fn : Nat)
  /-- R26: RECLAIM. -/
  | reclaim (fn : Nat)
  /-- R122: PORTSET. -/
  | portset (fn : Nat)
  /-- R372: VFPAUSE. -/
  | vfpause (fn : Nat)
  /-- R372: VFRESUME. -/
  | vfresume (fn : Nat)
  /-- R140: POST_WINDOW_WRITE. -/
  | postWindowWrite (fn off len : Nat) (rec : BitVec 512)
  /-- R354: ATTCMD_GO. -/
  | attcmdGo (fn : Nat)
  /-- R354: ATTESTATION_REPORT_DONE. -/
  | attestationReportDone (fn : Nat)
  /-- R344: CMDSTAT_LOST_CLEAR. -/
  | cmdstatLostClear (fn : Nat)
  /-- R344: HNDROP_CLEAR. -/
  | hndropClear (fn : Nat)
  /-- R400: S2FAULT_CLEAR. -/
  | s2faultClear
  /-- R370: WDLIM_WRITE. -/
  | wdlimWrite (t : Nat) (v : BitVec 64)
  /-- R341: MULTICAST_ENTRY_WRITE. -/
  | multicastEntryWrite (ca : Bool) (i : BitVec 8) (v : BitVec 64)
  /-- R344: REGISTER_WRITE. -/
  | registerWrite (fn : Nat) (reg : HostReg) (v : BitVec 64)
  /-- R343: HOST_APERTURE_ACCESS. -/
  | hostApertureAccess (fn : Nat) (acc : Aperture)
  /-- R413: DEVICE_RESET. -/
  | deviceReset (pres : Presence)
  /-- R422: FUNCTION_LEVEL_RESET. -/
  | functionLevelReset (t : Nat)
  /-- R413: LINK_TRAINING_COMPLETE. -/
  | linkTrainingComplete (port peer : Nat) (incarn : BitVec 12)
  /-- R334: LINK_CONTROL. -/
  | linkControl (port : Nat) (p : Packet)
  /-- R334: LINE_READ_REQUEST. -/
  | lineReadRequest (port : Nat) (p : Packet)
  /-- R334: LINE_DATA_RESPONSE. -/
  | lineDataResponse (port : Nat) (p : Packet)
  /-- R334: LINE_WRITE_BACK. -/
  | lineWriteBack (port : Nat) (p : Packet)
  /-- R334: WRITE_ACKNOWLEDGEMENT. -/
  | writeAcknowledgement (port : Nat) (p : Packet)
  /-- R334: PROBE. -/
  | probe (port : Nat) (p : Packet)
  /-- R334: PROBE_RESPONSE. -/
  | probeResponse (port : Nat) (p : Packet)
  /-- R334: FAR_ATOMIC. -/
  | farAtomic (port : Nat) (p : Packet)
  /-- R334: ATOMIC_RESPONSE. -/
  | atomicResponse (port : Nat) (p : Packet)
  /-- R339: CALDERA_ACCESS. -/
  | calderaAccess (port : Nat) (p : Packet)
  /-- R339: CALDERA_RESPONSE. -/
  | calderaResponse (port : Nat) (p : Packet)
  /-- R231: GROUP_BARRIER. -/
  | groupBarrier (port : Nat) (p : Packet)
  /-- R207: TRANSLATION_INVALIDATION. -/
  | translationInvalidation (port : Nat) (p : Packet)
  /-- R334: TRANSLATION_INVALIDATION_ACK. -/
  | translationInvalidationAck (port : Nat) (p : Packet)
  /-- R95: SCRUB_INVALIDATION. -/
  | scrubInvalidation (port : Nat) (p : Packet)
  /-- R340: MULTICAST_REPLICATION. -/
  | multicastReplication (ca : Bool) (p : Packet)
  /-- R409: LINK_REPLAY_TIMEOUT. -/
  | linkReplayTimeout (port : Nat)
  /-- R410: LINK_PORT_DOWN. -/
  | linkPortDown (port : Nat)
  /-- R412: PEER_LOST. -/
  | peerLost (peer : Nat)
  /-- R417: CALDERA_DIE_LOST. -/
  | calderaDieLost (pkg : Nat) (ca : Bool)
  /-- R144: INTAKE_FRAME. -/
  | intakeFrame (ca fcsGood : Bool) (frame : List (BitVec 8))
  /-- R355: THERMAL_SHUTDOWN. -/
  | thermalShutdown
  /-- R155: SLICE_TIMER_EXPIRY. -/
  | sliceTimerExpiry (pnode : Nat)
  /-- R151: ENERGY_METER_UPDATE. -/
  | energyMeterUpdate (pnode : Nat)
  /-- R151: ENERGY_BUDGET_EXHAUSTED. -/
  | energyBudgetExhausted (pnode : Nat)
  /-- R370: WATCHDOG_EXPIRY. -/
  | watchdogExpiry (pnode : Nat)
  /-- R89: MPC_HALVING. -/
  | mpcHalving (cache : Nat)
  /-- R348: PWRMEAS_REFRESH. -/
  | pwrmeasRefresh
  /-- R399: PATROL_SCRUB. -/
  | patrolScrub (loc : Nat) (found : PatrolResult)
  /-- R321: DWELL_FLUSH. -/
  | dwellFlush (core : Nat)
  /-- R147: DISPATCH. -/
  | dispatch (core : Nat)
  /-- R150: VENT_DISPATCH. -/
  | ventDispatch (core : Nat)
  /-- R47: SUPERSTEP_BOUNDARY. -/
  | superstepBoundary (pnode : Nat)
  /-- R48: QUIESCENCE_DETECTED. -/
  | quiescenceDetected (pnode : Nat)
  /-- R130: PORT_PUBLISH. -/
  | portPublish (port : Nat)
  /-- R310: VENT_OP_COMPLETE. -/
  | ventOpComplete (op : Nat)
  /-- R235: MESSAGE_DELIVERY. -/
  | messageDelivery (ctx : Nat)
  /-- R357: MAILBOX_POST. -/
  | mailboxPost (pnode : Nat)
  /-- R43: INTERRUPT_TAKEN. -/
  | interruptTaken (core : Nat)
  /-- R294: TILE_START. -/
  | tileStart (core : Nat)
  /-- R294: TILE_RETIRE. -/
  | tileRetire (core : Nat)
  /-- R275: VECTOR_RETIRE. -/
  | vectorRetire (core : Nat)
  /-- R95: SCRUB_COMPLETE. -/
  | scrubComplete (id : Nat)
  /-- R80: DIRECTORY_RECALL. -/
  | directoryRecall (line holder : Nat)
  /-- R429: RESERVED_ENCODING. -/
  | reservedEncoding (word : BitVec 32)
  /-- R361: FETCH_FAULT. -/
  | fetchFault
  /-- R95: STAGE_2_UNMAPPING. -/
  | stage2Unmapping (t : Nat) (block : Nat)
  /-- R409: BAD_CRC_PACKET. -/
  | badCrcPacket (port : Nat)
  deriving DecidableEq, Repr

end Sys2Proof
end

