-- ==== Sys2Proof/WellFormed.lean ====
section
/-!
DEFINITION. Which instructions are well formed beyond what their operand types already say: CSR numbers of R161, selectors of
R211, distinct formats of `vcvt` (R285), and the number ranges of the events' operands.
-/

namespace Sys2Proof

/-- The CSR numbers R161 lists. -/
def csrListed (n : BitVec 12) : Bool :=
  let k := n.toNat
  k == 0x001 || k == 0x002 || k == 0x004 || k == 0x005 ||
  (0x010 ≤ k && k ≤ 0x014) || (0x400 ≤ k && k ≤ 0x407) || (0x410 ≤ k && k ≤ 0x412) ||
  (0x800 ≤ k && k ≤ 0x808) || (0x810 ≤ k && k ≤ 0x81F) || (0xC00 ≤ k && k ≤ 0xC07)

/-- The selectors of `ctxrd` and `ctxwr` that R211 lists. -/
def ctxSelListed (sel : BitVec 12) : Bool :=
  let k := sel.toNat
  (k < 32) || (0x40 ≤ k && k < 0x50) || (0x80 ≤ k && k ≤ 0x84)

/-- A function number: a tenant's virtual function 0 to 63, or 64, the physical function (R18, R342). -/
def fnOk (fn : Nat) : Bool := fn ≤ 64

/-- A core number: compute core 0 to 4,095, or 4,096 + n for vent core n (R10). -/
def coreOk (c : Nat) : Bool := c < 4096 + 384

/-- A partition node number (R22). -/
def pnodeOk (p : Nat) : Bool := 1 ≤ p && p ≤ 2047

/-- A packet carries as many beats as LEN says (R333). -/
def Packet.wf (p : Packet) : Bool := p.payload.length == 32 * p.len.toNat && p.len.toNat ≤ 128

/-- A presence block names a node for each vent core, on the core's own die (R16, R19), and a package of its group (R17). -/
def Presence.wf (p : Presence) : Bool :=
  p.chnode.length == 384 && ((List.range 384).zip p.chnode).all (fun e => e.2.toNat / 256 == e.1 / 96) &&
  1 ≤ p.group && p.group ≤ 16 && p.pkg.toNat < p.group

/-- The well-formedness of an instruction or event. -/
def Instr.wellFormed : Instr → Bool
  | .csrr _ c => csrListed c
  | .csrw _ _ c | .csrs _ _ c | .csrc _ _ c => csrListed c
  | .ctxrd _ _ k | .ctxwr _ _ k => ctxSelListed k
  | .vcvt dst src _ _ _ => dst != src
  | .launch fn | .drain fn | .resume fn | .discard fn | .split fn | .merge fn | .release fn | .loadlm fn
  | .loadcsr fn | .setslice fn | .setprio fn | .setrdctl fn | .interrupt fn | .assign fn | .reclaim fn
  | .portset fn | .vfpause fn | .vfresume fn | .attcmdGo fn | .attestationReportDone fn
  | .cmdstatLostClear fn | .hndropClear fn => fnOk fn
  | .postWindowWrite fn _ _ _ => fnOk fn
  | .registerWrite fn _ _ => fnOk fn
  | .hostApertureAccess fn _ => fnOk fn
  | .wdlimWrite t _ => t < 64
  | .functionLevelReset t => t < 64
  | .stage2Unmapping t b => t < 64 && b < 2 ^ 23
  | .deviceReset p => p.wf
  | .linkTrainingComplete port peer _ => port < 36 && peer < 16
  | .linkControl port p | .lineReadRequest port p | .lineDataResponse port p | .lineWriteBack port p
  | .writeAcknowledgement port p | .probe port p | .probeResponse port p | .farAtomic port p
  | .atomicResponse port p | .calderaAccess port p | .calderaResponse port p | .groupBarrier port p
  | .translationInvalidation port p | .translationInvalidationAck port p | .scrubInvalidation port p =>
    port < 36 && p.wf
  | .multicastReplication _ p => p.wf && p.dend == 0xFFF#12
  | .linkReplayTimeout port | .linkPortDown port | .badCrcPacket port => port < 36
  | .peerLost p => p < 16
  | .calderaDieLost p _ => p < 16
  | .sliceTimerExpiry p | .energyMeterUpdate p | .energyBudgetExhausted p | .watchdogExpiry p
  | .superstepBoundary p | .quiescenceDetected p | .mailboxPost p => pnodeOk p
  | .mpcHalving c => c < 388
  | .dwellFlush c | .dispatch c | .interruptTaken c | .tileStart c | .tileRetire c | .vectorRetire c => coreOk c
  | .ventDispatch c => 4096 ≤ c && coreOk c
  | .portPublish p => p < 1024
  | .add .. | .sub .. | .and .. | .or .. | .xor .. | .andn .. | .sll .. | .srl .. | .sra .. | .slt ..
  | .sltu .. | .min .. | .max .. | .minu .. | .maxu .. | .sel .. | .mul .. | .mulh .. | .mulhu .. | .quo ..
  | .quou .. | .mod .. | .modu .. | .clz .. | .ctz .. | .popc .. | .bswap .. | .ext .. | .ins .. | .lea ..
  | .addw .. | .subw .. | .sllw .. | .srlw .. | .sraw .. | .mulw .. | .addi .. | .andi .. | .ori .. | .xori ..
  | .slli .. | .srli .. | .srai .. | .slti .. | .sltiu .. | .lui .. | .auipc .. | .beq .. | .bne .. | .blt ..
  | .bge .. | .bltu .. | .bgeu .. | .jal .. | .jalr .. | .lb .. | .lh .. | .lw .. | .ld .. | .lbu .. | .lhu ..
  | .lwu .. | .sb .. | .sh .. | .sw .. | .sd .. | .ldv .. | .stv .. | .rclm .. | .amoAdd .. | .amoMin ..
  | .amoMax .. | .amoMinu .. | .amoMaxu .. | .amoAnd .. | .amoOr .. | .amoXor .. | .amoSwap .. | .amoCas ..
  | .amoFadd .. | .redAdd .. | .redFadd .. | .redMin .. | .redMax .. | .redOr .. | .fence .. | .cwb ..
  | .cinv .. | .cpf .. | .smap .. | .sunmap .. | .evArrive .. | .evWait .. | .evWaitE .. | .evSignal ..
  | .evLock .. | .evUnlock .. | .evChain .. | .msend .. | .mrecv .. | .mpoll .. | .cqPop .. | .post ..
  | .taskEnd .. | .ssEnd .. | .hstart .. | .hjoin .. | .hexit .. | .futNew .. | .futSet .. | .futGet ..
  | .futChk .. | .futFree .. | .pload .. | .pput .. | .pclose .. | .pget .. | .prel .. | .pstat ..
  | .cmAlloc .. | .cmFree .. | .cmQuery .. | .ecall .. | .brk .. | .xret .. | .park .. | .fenceI .. | .tlbi ..
  | .hnotify .. | .ctxres .. | .ctxkill .. | .vsetvl .. | .vld .. | .vlds .. | .vldx .. | .vst .. | .vsts ..
  | .vstx .. | .vadd .. | .vsub .. | .vmul .. | .vand .. | .vor .. | .vxor .. | .vsll .. | .vsrl .. | .vsra ..
  | .vmin .. | .vmax .. | .vcmp .. | .vsel .. | .vmand .. | .vmor .. | .vmnot .. | .vslide .. | .vbcast ..
  | .vmvxs .. | .vmvsx .. | .vredsum .. | .vredmax .. | .vredmin .. | .vfadd .. | .vfsub .. | .vfmul ..
  | .vfdiv .. | .vfsqrt .. | .vfmin .. | .vfmax .. | .vfabs .. | .vfneg .. | .vfma .. | .vfms .. | .vfnma ..
  | .vfcmp .. | .vfredsum .. | .tzero .. | .tmma .. | .tmmat .. | .tadd .. | .tscl .. | .ttr .. | .tmov ..
  | .tld .. | .tbld .. | .tst .. | .rwload .. | .rwflush .. | .ventPush .. | .ventPushDec .. | .ventPull ..
  | .ventGath .. | .ventScat .. | .ventWait .. | .ventNote .. | .s2faultClear .. | .multicastEntryWrite ..
  | .intakeFrame .. | .thermalShutdown .. | .pwrmeasRefresh .. | .patrolScrub .. | .ventOpComplete ..
  | .messageDelivery .. | .scrubComplete .. | .directoryRecall .. | .reservedEncoding .. | .fetchFault => true

end Sys2Proof
end

