-- ==== Sys2Proof/Decode.lean ====
section
/-!
DEFINITION. Decoding an instruction word (R163 to R175, R429) and, after it, the encoder written from the same encoding tables.
The decoder is total: a word is an instruction or is rejected by the name of the field that is reserved.
-/

namespace Sys2Proof

/-- Why a word is not an instruction (R429). -/
inductive Reject where
  | opcode | selector | field | s2 | vreg | csr
  deriving DecidableEq, Repr

namespace Dec

abbrev D := Except Reject Instr

def op (w : IWord) : BitVec 7 := w.extractLsb' 0 7
def rd (w : IWord) : BitVec 5 := w.extractLsb' 7 5
def rs1 (w : IWord) : BitVec 5 := w.extractLsb' 12 5
def s2 (w : IWord) : BitVec 7 := w.extractLsb' 17 7
def f8 (w : IWord) : BitVec 8 := w.extractLsb' 24 8
def rs2 (w : IWord) : BitVec 5 := w.extractLsb' 17 5
def bit22 (w : IWord) : BitVec 1 := w.extractLsb' 22 1
def bitW (w : IWord) : BitVec 1 := w.extractLsb' 23 1
def f3 (w : IWord) : BitVec 3 := w.extractLsb' 29 3
def imm12 (w : IWord) : BitVec 12 := w.extractLsb' 17 12
def imm20 (w : IWord) : BitVec 20 := w.extractLsb' 12 20
def reuseM (w : IWord) : BitVec 4 := w.extractLsb' 20 4
def size (w : IWord) : BitVec 3 := w.extractLsb' 17 3
def off9 (w : IWord) : BitVec 9 := w.extractLsb' 23 9
def bS2 (w : IWord) : BitVec 7 := w.extractLsb' 16 7
def bRs1 (w : IWord) : BitVec 5 := w.extractLsb' 11 5
def annul (w : IWord) : BitVec 1 := w.extractLsb' 10 1
def cond (w : IWord) : BitVec 3 := w.extractLsb' 7 3
def f6 (w : IWord) : BitVec 6 := w.extractLsb' 26 6
def fmt (w : IWord) : BitVec 2 := w.extractLsb' 24 2
def func (w : IWord) : BitVec 4 := w.extractLsb' 28 4
def reuseT (w : IWord) : BitVec 4 := w.extractLsb' 24 4
def td (w : IWord) : BitVec 2 := w.extractLsb' 22 2
def ts (w : IWord) : BitVec 2 := w.extractLsb' 20 2
def tfl (w : IWord) : BitVec 3 := w.extractLsb' 17 3
def tRs2 (w : IWord) : BitVec 5 := w.extractLsb' 12 5
def tRs1 (w : IWord) : BitVec 5 := w.extractLsb' 7 5

/-- A field marked 0 that is not 0 is reserved (R166). -/
def need (b : Bool) (k : D) : D := if b then k else .error .field

/-- A one-bit field as a truth value. -/
def tb (b : BitVec 1) : Bool := b == 1#1

/-- The s2 field of the RK and B formats (R167). -/
def s2of (v : BitVec 7) (k : S2 → D) : D :=
  if v.extractLsb' 6 1 = 1#1 then k (.con (v.extractLsb' 0 6))
  else if v.extractLsb' 5 1 = 0#1 then k (.reg (v.extractLsb' 0 5)) else .error .s2

/-- The s2 field of the V format (R167, R273). -/
def vs2of (v : BitVec 7) (k : VS2 → D) : D :=
  if v.extractLsb' 6 1 = 1#1 then k (.con (v.extractLsb' 0 6))
  else if v.extractLsb' 5 1 = 1#1 then k (.reg (v.extractLsb' 0 5))
  else if v.extractLsb' 4 1 = 0#1 then k (.vec (v.extractLsb' 0 4)) else .error .s2

/-- A V-format s2 that must be a vector register (R289). -/
def vecOnly (v : BitVec 7) (k : VReg → D) : D :=
  vs2of v fun | .vec r => k r | _ => .error .s2

/-- A V-format s2 that must be a scalar register or a constant (R289). -/
def scalarOnly (v : BitVec 7) (k : S2 → D) : D :=
  vs2of v fun | .reg r => k (.reg r) | .con c => k (.con c) | .vec _ => .error .s2

/-- A five-bit field that names a vector register (R166). -/
def vr (v : BitVec 5) (k : VReg → D) : D :=
  if v.extractLsb' 4 1 = 0#1 then k (v.extractLsb' 0 4) else .error .vreg

/-- SCOPE codes 1 to 5 (R173). -/
def scopeOf (v : BitVec 3) (k : Scope → D) : D :=
  match v.toNat with
  | 1 => k .core | 2 => k .cl | 3 => k .die | 4 => k .pkg | 5 => k .grp | _ => .error .field

/-- RK with rd, rs1 and s2. -/
def rk3 (w : IWord) (c : XReg → XReg → S2 → Instr) : D :=
  s2of (s2 w) fun b => .ok (c (rd w) (rs1 w) b)

/-- RK whose s2 is marked 0: rd and rs1. -/
def rk2 (w : IWord) (c : XReg → XReg → Instr) : D :=
  need (s2 w == 0) (.ok (c (rd w) (rs1 w)))

/-- RK whose rd is marked 0: rs1 and s2. -/
def rk1s (w : IWord) (c : XReg → S2 → Instr) : D :=
  need (rd w == 0) (s2of (s2 w) fun b => .ok (c (rs1 w) b))

/-- RK with rs1 alone. -/
def rk1 (w : IWord) (c : XReg → Instr) : D :=
  need (rd w == 0 && s2 w == 0) (.ok (c (rs1 w)))

/-- RK with rd alone. -/
def rkd (w : IWord) (c : XReg → Instr) : D :=
  need (rs1 w == 0 && s2 w == 0) (.ok (c (rd w)))

def decOp (w : IWord) : D :=
  match (f8 w).toNat with
  | 0x00 => rk3 w .add | 0x01 => rk3 w .sub | 0x02 => rk3 w .and | 0x03 => rk3 w .or
  | 0x04 => rk3 w .xor | 0x05 => rk3 w .andn | 0x06 => rk3 w .sll | 0x07 => rk3 w .srl
  | 0x08 => rk3 w .sra | 0x09 => rk3 w .slt | 0x0A => rk3 w .sltu | 0x0B => rk3 w .min
  | 0x0C => rk3 w .max | 0x0D => rk3 w .minu | 0x0E => rk3 w .maxu | 0x0F => rk3 w .sel
  | 0x10 => rk3 w .mul | 0x11 => rk3 w .mulh | 0x12 => rk3 w .mulhu | 0x13 => rk3 w .quo
  | 0x14 => rk3 w .quou | 0x15 => rk3 w .mod | 0x16 => rk3 w .modu
  | 0x20 => rk2 w .clz | 0x21 => rk2 w .ctz | 0x22 => rk2 w .popc | 0x23 => rk2 w .bswap
  | 0x24 => rk3 w .ext | 0x25 => rk3 w .ins
  | 0x28 => rk3 w (.lea 0) | 0x29 => rk3 w (.lea 1) | 0x2A => rk3 w (.lea 2) | 0x2B => rk3 w (.lea 3)
  | _ => .error .selector

def decOpw (w : IWord) : D :=
  match (f8 w).toNat with
  | 0x00 => rk3 w .addw | 0x01 => rk3 w .subw | 0x06 => rk3 w .sllw | 0x07 => rk3 w .srlw
  | 0x08 => rk3 w .sraw | 0x10 => rk3 w .mulw
  | _ => .error .selector

def decOpi (w : IWord) : D :=
  let i (c : XReg → XReg → BitVec 12 → Instr) : D := .ok (c (rd w) (rs1 w) (imm12 w))
  let sh (c : XReg → XReg → BitVec 6 → Instr) : D := .ok (c (rd w) (rs1 w) (w.extractLsb' 17 6))
  match (f3 w).toNat with
  | 0 => i .addi | 1 => i .andi | 2 => i .ori | 3 => i .xori | 5 => i .slti | 6 => i .sltiu
  | 4 =>
    need (w.extractLsb' 25 4 == 0#4) (match (w.extractLsb' 23 2).toNat with
      | 0 => sh .slli | 1 => sh .srli | 2 => sh .srai | _ => .error .selector)
  | _ => .error .selector

def decBranch (w : IWord) : D :=
  let b (c : Bool → XReg → S2 → BitVec 9 → Instr) : D :=
    s2of (bS2 w) fun b => .ok (c (tb (annul w)) (bRs1 w) b (off9 w))
  match (cond w).toNat with
  | 0 => b .beq | 1 => b .bne | 2 => b .blt | 3 => b .bge | 4 => b .bltu | 5 => b .bgeu
  | _ => .error .selector

/-- The M format (R164). -/
def m (w : IWord) (c : XReg → XReg → BitVec 8 → BitVec 4 → Instr) : D :=
  .ok (c (rd w) (rs1 w) (f8 w) (reuseM w))

def decLoad (w : IWord) : D :=
  match (size w).toNat with
  | 0 => m w .lb | 1 => m w .lh | 2 => m w .lw | 3 => m w .ld | 4 => m w .lbu | 5 => m w .lhu | 6 => m w .lwu
  | _ => .error .selector

def decStore (w : IWord) : D :=
  match (size w).toNat with
  | 0 => m w .sb | 1 => m w .sh | 2 => m w .sw | 3 => m w .sd
  | _ => .error .selector

def decVersion (w : IWord) : D :=
  let sc := w.extractLsb' 27 3
  need (w.extractLsb' 30 2 == 0#2) (match (w.extractLsb' 24 3).toNat with
    | 0 => scopeOf sc fun s => rk3 w (.ldv s)
    | 1 => scopeOf sc fun s => rk3 w (.stv s)
    | 2 => need (sc == 0#3) (rk3 w .rclm)
    | _ => .error .selector)

def decAmo (w : IWord) : D :=
  let a (c : Bool → BitVec 4 → XReg → XReg → XReg → Instr) : D :=
    need (bit22 w == 0#1) (.ok (c (tb (bitW w)) (w.extractLsb' 24 4) (rd w) (rs1 w) (rs2 w)))
  match (w.extractLsb' 28 4).toNat with
  | 0 => a .amoAdd | 1 => a .amoMin | 2 => a .amoMax | 3 => a .amoMinu | 4 => a .amoMaxu | 5 => a .amoAnd
  | 6 => a .amoOr | 7 => a .amoXor | 8 => a .amoSwap | 9 => a .amoCas | 10 => a .amoFadd
  | _ => .error .selector

def decRed (w : IWord) : D :=
  let u := w.extractLsb' 24 1
  let a (c : Bool → XReg → XReg → Instr) : D :=
    need (u == 0#1) (.ok (c (tb (bitW w)) (rs1 w) (rs2 w)))
  let m (c : Bool → Bool → XReg → XReg → Instr) : D := .ok (c (tb u) (tb (bitW w)) (rs1 w) (rs2 w))
  need (bit22 w == 0#1 && rd w == 0#5 && w.extractLsb' 25 3 == 0#3) (match (w.extractLsb' 28 4).toNat with
    | 0 => a .redAdd | 1 => a .redFadd | 2 => m .redMin | 3 => m .redMax | 4 => a .redOr
    | _ => .error .selector)

def decFence (w : IWord) : D :=
  match (f3 w).toNat with
  | 0 => need (w.extractLsb' 22 7 == 0#7 && rs1 w == 0#5 && rd w == 0#5)
      (scopeOf (w.extractLsb' 19 3) fun s => match (w.extractLsb' 17 2).toNat with
        | 1 => .ok (.fence .acq s) | 2 => .ok (.fence .rel s) | 3 => .ok (.fence .full s) | _ => .error .field)
  | 1 => need (rd w == 0#5) (.ok (.cwb (rs1 w) (imm12 w)))
  | 2 => need (rd w == 0#5) (.ok (.cinv (rs1 w) (imm12 w)))
  | 3 => need (w.extractLsb' 11 1 == 0#1) (.ok (.cpf (rs1 w) (imm12 w) (w.extractLsb' 7 4)))
  | _ => .error .selector

def decStash (w : IWord) : D :=
  match (f3 w).toNat with
  | 0 => need (w.extractLsb' 22 7 == 0#7 && rd w == 0#5) (.ok (.smap (rs1 w) (w.extractLsb' 17 5)))
  | 1 => need (w.extractLsb' 22 7 == 0#7 && rd w == 0#5 && rs1 w == 0#5) (.ok (.sunmap (w.extractLsb' 17 5)))
  | _ => .error .selector

def decEvent (w : IWord) : D :=
  let z (hi : Nat) (k : D) : D := need (w.extractLsb' (17 + hi) (12 - hi) == 0 && rs1 w == 0#5 && rd w == 0#5) k
  match (f3 w).toNat with
  | 0 => z 2 (.ok (.evArrive (w.extractLsb' 17 2)))
  | 1 => if w.extractLsb' 21 1 = 1#1
         then z 5 (.ok (.evWaitE (w.extractLsb' 17 4)))
         else z 2 (.ok (.evWait (w.extractLsb' 17 2)))
  | 2 => z 4 (.ok (.evSignal (w.extractLsb' 17 4)))
  | 3 => z 3 (.ok (.evLock (w.extractLsb' 17 3)))
  | 4 => z 3 (.ok (.evUnlock (w.extractLsb' 17 3)))
  | 5 => z 8 (need (w.extractLsb' 19 3 == 0#3) (match (w.extractLsb' 22 3).toNat with
      | 0 => .ok (.evChain .none (w.extractLsb' 17 2)) | 3 => .ok (.evChain .die (w.extractLsb' 17 2))
      | 4 => .ok (.evChain .pkg (w.extractLsb' 17 2)) | 5 => .ok (.evChain .grp (w.extractLsb' 17 2))
      | _ => .error .field))
  | _ => .error .selector

def decMsg (w : IWord) : D :=
  match (f8 w).toNat with
  | 0 => rk1s w .msend | 1 => rk2 w .mrecv | 2 => rkd w .mpoll | 3 => rkd w .cqPop
  | _ => .error .selector

def decTask (w : IWord) : D :=
  let z (k : Instr) : D := need (imm12 w == 0#12 && rs1 w == 0#5 && rd w == 0#5) (.ok k)
  match (f3 w).toNat with
  | 0 => need (rd w == 0#5) (.ok (.post (rs1 w) (imm12 w)))
  | 1 => z .taskEnd
  | 2 => z .ssEnd
  | 3 => .ok (.hstart (rd w) (rs1 w) (imm12 w))
  | 4 => need (w.extractLsb' 28 1 == 0#1 && w.extractLsb' 17 1 == 0#1 && rs1 w == 0#5 && rd w == 0#5)
      (.ok (.hjoin (w.extractLsb' 18 10)))
  | 5 => z .hexit
  | _ => .error .selector

def decFuture (w : IWord) : D :=
  match (f8 w).toNat with
  | 0 => rkd w .futNew | 1 => rk1s w .futSet | 2 => rk2 w .futGet | 3 => rk2 w .futChk | 4 => rk1 w .futFree
  | _ => .error .selector

def decPort (w : IWord) : D :=
  match (f8 w).toNat with
  | 0 => rk1 w .pload | 1 => rk3 w .pput | 2 => rk2 w .pclose | 3 => rk1s w .pget | 4 => rk1s w .prel
  | 5 => rk2 w .pstat
  | _ => .error .selector

def decCaldera (w : IWord) : D :=
  match (f8 w).toNat with
  | 0 => rk3 w .cmAlloc
  | 1 => rk1s w .cmFree
  | 2 => need (rs1 w == 0#5) (s2of (s2 w) fun b => .ok (.cmQuery (rd w) b))
  | _ => .error .selector

def decSystem (w : IWord) : D :=
  let csr (k : BitVec 12 → Instr) : D := if csrListed (imm12 w) then .ok (k (imm12 w)) else .error .csr
  let z (k : Instr) : D := need (rs1 w == 0#5 && rd w == 0#5) (.ok k)
  let r (k : XReg → Instr) : D := need (rd w == 0#5) (.ok (k (rs1 w)))
  let c (k : BitVec 12 → Instr) : D := if ctxSelListed (imm12 w) then .ok (k (imm12 w)) else .error .selector
  match (f3 w).toNat with
  | 0 => need (rs1 w == 0#5) (csr (.csrr (rd w)))
  | 1 => csr (.csrw (rd w) (rs1 w))
  | 2 => csr (.csrs (rd w) (rs1 w))
  | 3 => csr (.csrc (rd w) (rs1 w))
  | 4 => match (imm12 w).toNat with
    | 0 => z .ecall | 1 => z .brk | 2 => z .xret | 3 => z .park | 4 => z .fenceI
    | 5 => match (rd w).toNat with
      | 0 => .ok (.tlbi (.page (rs1 w)))
      | 1 => need (rs1 w == 0#5) (.ok (.tlbi .all))
      | _ => .error .field
    | 6 => r .hnotify
    | _ => .error .selector
  | 5 => c (.ctxrd (rd w) (rs1 w))
  | 6 => c (.ctxwr (rd w) (rs1 w))
  | _ => match (imm12 w).toNat with
    | 0 => r .ctxres | 1 => r .ctxkill | _ => .error .selector

def decVcfg (w : IWord) : D :=
  need (f6 w == 0#6 && w.extractLsb' 25 1 == 0#1 && rs1 w == 0#5)
    (scalarOnly (s2 w) fun b => .ok (.vsetvl (tb (w.extractLsb' 24 1)) (rd w) b))

/-- Widths of vector memory by fmt (R277). -/
def vmemFmt (v : BitVec 2) : VMemFmt :=
  match v.toNat with | 0 => .w | 1 => .d | 2 => .h | _ => .b

def decVmem (w : IWord) (c0 : VMemFmt → BitVec 4 → VReg → XReg → Instr)
    (c1 : VMemFmt → BitVec 4 → VReg → XReg → S2 → Instr)
    (c2 : VMemFmt → BitVec 4 → VReg → XReg → VReg → Instr) : D :=
  vr (rd w) fun v => match (w.extractLsb' 26 2).toNat with
    | 0 => need (s2 w == 0#7) (.ok (c0 (vmemFmt (fmt w)) (func w) v (rs1 w)))
    | 1 => scalarOnly (s2 w) fun b => .ok (c1 (vmemFmt (fmt w)) (func w) v (rs1 w) b)
    | 2 => vecOnly (s2 w) fun b => .ok (c2 (vmemFmt (fmt w)) (func w) v (rs1 w) b)
    | _ => .error .selector

def decVint (w : IWord) : D :=
  let d := tb (w.extractLsb' 24 1)
  let e (c : Bool → VReg → VReg → VS2 → Instr) : D :=
    vr (rd w) fun vd => vr (rs1 w) fun v1 => vs2of (s2 w) fun b => .ok (c d vd v1 b)
  let s (c : Bool → VReg → VReg → S2 → Instr) : D :=
    vr (rd w) fun vd => vr (rs1 w) fun v1 => scalarOnly (s2 w) fun b => .ok (c d vd v1 b)
  let k (c : VReg → VReg → VReg → Instr) : D :=
    need (!d) (vr (rd w) fun vd => vr (rs1 w) fun v1 => vecOnly (s2 w) fun b => .ok (c vd v1 b))
  need (w.extractLsb' 25 1 == 0#1) (match (f6 w).toNat with
    | 0x00 => e .vadd | 0x01 => e .vsub | 0x02 => e .vmul | 0x03 => e .vand | 0x04 => e .vor | 0x05 => e .vxor
    | 0x06 => e .vsll | 0x07 => e .vsrl | 0x08 => e .vsra | 0x09 => e .vmin | 0x0A => e .vmax
    | 0x10 => e (.vcmp .eq) | 0x11 => e (.vcmp .ne) | 0x12 => e (.vcmp .lt) | 0x13 => e (.vcmp .ge)
    | 0x14 => e (.vcmp .ltu) | 0x15 => e (.vcmp .geu)
    | 0x18 => e .vsel | 0x19 => k .vmand | 0x1A => k .vmor
    | 0x1B => need (!d && rs1 w == 0#5) (vr (rd w) fun vd => vecOnly (s2 w) fun b => .ok (.vmnot vd b))
    | 0x20 => s .vslide | 0x21 => s .vbcast
    | 0x22 => need (s2 w == 0#7) (vr (rs1 w) fun v1 => .ok (.vmvxs d (rd w) v1))
    | 0x23 => need (s2 w == 0#7) (vr (rd w) fun vd => .ok (.vmvsx d vd (rs1 w)))
    | 0x28 => e .vredsum | 0x29 => e .vredmax | 0x2A => e .vredmin
    | _ => .error .selector)

def decVflt (w : IWord) : D :=
  let g (k : VFmt → D) : D :=
    match (fmt w).toNat with | 0 => k .f32 | 1 => k .f64 | 2 => k .bf16 | _ => .error .field
  let e (c : VFmt → VReg → VReg → VS2 → Instr) : D :=
    g fun f => vr (rd w) fun vd => vr (rs1 w) fun v1 => vs2of (s2 w) fun b => .ok (c f vd v1 b)
  let u (c : VFmt → VReg → VS2 → Instr) : D :=
    need (rs1 w == 0#5) (g fun f => vr (rd w) fun vd => vs2of (s2 w) fun b => .ok (c f vd b))
  match (f6 w).toNat with
  | 0x00 => e .vfadd | 0x01 => e .vfsub | 0x02 => e .vfmul | 0x03 => e .vfdiv | 0x04 => u .vfsqrt
  | 0x05 => e .vfmin | 0x06 => e .vfmax | 0x07 => u .vfabs | 0x08 => u .vfneg
  | 0x09 => e .vfma | 0x0A => e .vfms | 0x0B => e .vfnma
  | 0x10 => e (.vfcmp .eq) | 0x11 => e (.vfcmp .lt) | 0x12 => e (.vfcmp .le) | 0x13 => e (.vfcmp .ne)
  | 0x28 => e .vfredsum
  | _ => .error .selector

def decVcvt (w : IWord) : D :=
  let dst := w.extractLsb' 29 3
  let src := w.extractLsb' 26 3
  need (w.extractLsb' 25 1 == 0#1 && s2 w == 0#7 && dst != src)
    (vr (rd w) fun vd => vr (rs1 w) fun v1 => .ok (.vcvt dst src (tb (w.extractLsb' 24 1)) vd v1))

def decTarith (w : IWord) : D :=
  need (tfl w == 0#3 && reuseT w == 0#4) (match (func w).toNat with
    | 0 => need (ts w == 0#2 && tRs2 w == 0#5 && tRs1 w == 0#5) (.ok (.tzero (td w)))
    | 1 => need (ts w == 0#2) (.ok (.tmma (td w) (tRs1 w) (tRs2 w)))
    | 2 => need (ts w == 0#2) (.ok (.tmmat (td w) (tRs1 w) (tRs2 w)))
    | 3 => need (tRs2 w == 0#5 && tRs1 w == 0#5) (.ok (.tadd (td w) (ts w)))
    | 4 => need (ts w == 0#2 && tRs1 w == 0#5) (.ok (.tscl (td w) (tRs2 w)))
    | 5 => need (tRs2 w == 0#5 && tRs1 w == 0#5) (.ok (.ttr (td w) (ts w)))
    | 6 => need (tRs2 w == 0#5 && tRs1 w == 0#5) (.ok (.tmov (td w) (ts w)))
    | _ => .error .selector)

def decTmem (w : IWord) : D :=
  need (ts w == 0#2) (match (func w).toNat with
    | 0 => need (tfl w == 0#3 && tRs2 w == 0#5) (.ok (.tld (reuseT w) (td w) (tRs1 w)))
    | 1 => need (tfl w == 0#3 && td w == 0#2) (.ok (.tbld (reuseT w) (tRs1 w) (tRs2 w)))
    | 2 => match (tfl w).toNat with
      | 0 => .ok (.tst (reuseT w) .f32 (td w) (tRs1 w) (tRs2 w))
      | 1 => .ok (.tst (reuseT w) .bf16 (td w) (tRs1 w) (tRs2 w))
      | 2 => .ok (.tst (reuseT w) .nf8 (td w) (tRs1 w) (tRs2 w))
      | _ => .error .field
    | _ => .error .selector)

def decRewrite (w : IWord) : D :=
  need (reuseT w == 0#4 && td w == 0#2 && ts w == 0#2 && tfl w == 0#3 && tRs2 w == 0#5) (match (func w).toNat with
    | 0 => .ok (.rwload (tRs1 w))
    | 1 => need (tRs1 w == 0#5) (.ok .rwflush)
    | _ => .error .selector)

def decVent (w : IWord) : D :=
  let nocq := tb (w.extractLsb' 18 1)
  let dec := tb (w.extractLsb' 17 1)
  let t (c : BitVec 4 → Bool → XReg → XReg → Instr) : D := .ok (c (reuseT w) nocq (tRs1 w) (tRs2 w))
  need (td w == 0#2 && ts w == 0#2 && w.extractLsb' 19 1 == 0#1) (match (func w).toNat with
    | 0 => if dec then t .ventPushDec else t .ventPush
    | 1 => need (!dec) (t .ventPull)
    | 2 => need (!dec) (t .ventGath)
    | 3 => need (!dec) (t .ventScat)
    | 4 => need (!dec && !nocq && reuseT w == 0#4) (.ok (.ventWait (tRs1 w) (tRs2 w)))
    | 5 => need (!dec && !nocq && reuseT w == 0#4) (.ok (.ventNote (tRs1 w) (tRs2 w)))
    | _ => .error .selector)

end Dec

/-- Decoding of one word (R170 to R175, R429). -/
def decode (w : IWord) : Except Reject Instr :=
  match (Dec.op w).toNat with
  | 0x01 => Dec.decOp w | 0x02 => Dec.decOpw w | 0x03 => Dec.decOpi w
  | 0x04 => .ok (.lui (Dec.rd w) (Dec.imm20 w)) | 0x05 => .ok (.auipc (Dec.rd w) (Dec.imm20 w))
  | 0x06 => Dec.decBranch w | 0x07 => .ok (.jal (Dec.rd w) (Dec.imm20 w))
  | 0x08 => Dec.need (Dec.f3 w == 0#3) (.ok (.jalr (Dec.rd w) (Dec.rs1 w) (Dec.imm12 w)))
  | 0x09 => Dec.decLoad w | 0x0A => Dec.decStore w | 0x0B => Dec.decVersion w | 0x0C => Dec.decAmo w
  | 0x0D => Dec.decRed w | 0x0E => Dec.decFence w | 0x0F => Dec.decStash w
  | 0x10 => Dec.decEvent w | 0x11 => Dec.decMsg w | 0x12 => Dec.decTask w | 0x13 => Dec.decFuture w
  | 0x14 => Dec.decPort w | 0x15 => Dec.decCaldera w | 0x16 => Dec.decSystem w
  | 0x20 => Dec.decVcfg w | 0x21 => Dec.decVmem w .vld .vlds .vldx | 0x22 => Dec.decVmem w .vst .vsts .vstx
  | 0x23 => Dec.decVint w | 0x24 => Dec.decVflt w | 0x25 => Dec.decVcvt w
  | 0x30 => Dec.decTarith w | 0x31 => Dec.decTmem w | 0x34 => Dec.decRewrite w | 0x38 => Dec.decVent w
  | _ => .error .opcode

/-- Decoding of the bytes at an address: one word of four little-endian bytes (R2, R163), with the bytes left over. -/
def decodeBytes : List Byte → Except Reject (Instr × List Byte)
  | b0 :: b1 :: b2 :: b3 :: rest =>
    match decode (b3 ++ b2 ++ b1 ++ b0) with
    | .ok i => .ok (i, rest)
    | .error e => .error e
  | _ => .error .opcode

/-- The instruction the decoder reads from a word numbered as the opcode table numbers it. Every instruction is one word. -/
def decodeTableWord (nbits w : Nat) : Option Instr :=
  let v := BitVec.ofNat 32 (w % 2 ^ nbits)
  match decodeBytes [v.extractLsb' 0 8, v.extractLsb' 8 8, v.extractLsb' 16 8, v.extractLsb' 24 8] with
  | .ok (i, _) => some i
  | .error _ => none

namespace Enc

def s2 : S2 → BitVec 7
  | .reg r => 0#2 ++ r
  | .con k => 1#1 ++ k

def vs2 : VS2 → BitVec 7
  | .vec v => 0#3 ++ v
  | .reg r => 1#2 ++ r
  | .con k => 1#1 ++ k

/-- An s2 of the V format that is a scalar register or a constant. -/
def ss2 : S2 → BitVec 7
  | .reg r => vs2 (.reg r)
  | .con k => vs2 (.con k)

def v5 (v : VReg) : BitVec 5 := 0#1 ++ v
def b1 (b : Bool) : BitVec 1 := if b then 1#1 else 0#1

def scope : Scope → BitVec 3
  | .core => 1 | .cl => 2 | .die => 3 | .pkg => 4 | .grp => 5

def kind : FenceKind → BitVec 2
  | .acq => 1 | .rel => 2 | .full => 3

def chain : ChainScope → BitVec 3
  | .none => 0 | .die => 3 | .pkg => 4 | .grp => 5

def vcond : VCond → BitVec 3
  | .eq => 0 | .ne => 1 | .lt => 2 | .ge => 3 | .ltu => 4 | .geu => 5

def vfcond : VFCond → BitVec 2
  | .eq => 0 | .lt => 1 | .le => 2 | .ne => 3

def vmem : VMemFmt → BitVec 2
  | .w => 0 | .d => 1 | .h => 2 | .b => 3

def vfmt : VFmt → BitVec 2
  | .f32 => 0 | .f64 => 1 | .bf16 => 2

def tst : TstFmt → BitVec 3
  | .f32 => 0 | .bf16 => 1 | .nf8 => 2

/-- The formats of R164, from the high bit to the low bit. -/
def rk (f8 : BitVec 8) (s2 : BitVec 7) (rs1 rd : BitVec 5) (op : BitVec 7) : IWord := f8 ++ s2 ++ rs1 ++ rd ++ op
def rka (f8 : BitVec 8) (w : Bool) (rs2 rs1 rd : BitVec 5) (op : BitVec 7) : IWord :=
  f8 ++ b1 w ++ 0#1 ++ rs2 ++ rs1 ++ rd ++ op
def i (f3 : BitVec 3) (imm : BitVec 12) (rs1 rd : BitVec 5) (op : BitVec 7) : IWord := f3 ++ imm ++ rs1 ++ rd ++ op
def u (imm : BitVec 20) (rd : BitVec 5) (op : BitVec 7) : IWord := imm ++ rd ++ op
def m (off : BitVec 8) (nu : BitVec 4) (size : BitVec 3) (rs1 rd : BitVec 5) (op : BitVec 7) : IWord :=
  off ++ nu ++ size ++ rs1 ++ rd ++ op
def b (off : BitVec 9) (s2 : BitVec 7) (rs1 : BitVec 5) (an : Bool) (cond : BitVec 3) : IWord :=
  off ++ s2 ++ rs1 ++ b1 an ++ cond ++ 0x06#7
def v (f6 : BitVec 6) (fmt : BitVec 2) (s2 : BitVec 7) (vs1 vd : BitVec 5) (op : BitVec 7) : IWord :=
  f6 ++ fmt ++ s2 ++ vs1 ++ vd ++ op
def t (func nu : BitVec 4) (td ts : BitVec 2) (tfl : BitVec 3) (rs2 rs1 : BitVec 5) (op : BitVec 7) : IWord :=
  func ++ nu ++ td ++ ts ++ tfl ++ rs2 ++ rs1 ++ op

def opf (f : BitVec 8) (rd rs1 : XReg) (b : S2) : IWord := rk f (s2 b) rs1 rd 0x01
def opwf (f : BitVec 8) (rd rs1 : XReg) (b : S2) : IWord := rk f (s2 b) rs1 rd 0x02
def opi (f : BitVec 3) (rd rs1 : XReg) (imm : BitVec 12) : IWord := i f imm rs1 rd 0x03
def amo (op : BitVec 4) (w : Bool) (ord : BitVec 4) (rd rs1 rs2 : XReg) : IWord := rka (op ++ ord) w rs2 rs1 rd 0x0C
def red (op : BitVec 4) (uns w : Bool) (rs1 rs2 : XReg) : IWord := rka (op ++ 0#3 ++ b1 uns) w rs2 rs1 0 0x0D
def ev (f : BitVec 3) (imm : BitVec 12) : IWord := i f imm 0 0 0x10
def sys (imm : BitVec 12) (rs1 rd : XReg) : IWord := i 4 imm rs1 rd 0x16
def vi (f : BitVec 6) (d : Bool) (vd v1 : VReg) (b : VS2) : IWord := v f (0#1 ++ b1 d) (vs2 b) (v5 v1) (v5 vd) 0x23
def vf (f : BitVec 6) (fm : VFmt) (vd v1 : VReg) (b : VS2) : IWord := v f (vfmt fm) (vs2 b) (v5 v1) (v5 vd) 0x24
def vent (func nu : BitVec 4) (nocq dec : Bool) (rs1 rs2 : XReg) : IWord :=
  t func nu 0 0 (0#1 ++ b1 nocq ++ b1 dec) rs2 rs1 0x38

end Enc

open Enc in
/-- The word of an instruction; the rows that have no encoding have none (R170 to R175). -/
def encode : Instr → Option IWord
  | .add rd r b => some (opf 0x00 rd r b) | .sub rd r b => some (opf 0x01 rd r b) | .and rd r b => some (opf 0x02 rd r b)
  | .or rd r b => some (opf 0x03 rd r b) | .xor rd r b => some (opf 0x04 rd r b) | .andn rd r b => some (opf 0x05 rd r b)
  | .sll rd r b => some (opf 0x06 rd r b) | .srl rd r b => some (opf 0x07 rd r b) | .sra rd r b => some (opf 0x08 rd r b)
  | .slt rd r b => some (opf 0x09 rd r b) | .sltu rd r b => some (opf 0x0A rd r b) | .min rd r b => some (opf 0x0B rd r b)
  | .max rd r b => some (opf 0x0C rd r b) | .minu rd r b => some (opf 0x0D rd r b) | .maxu rd r b => some (opf 0x0E rd r b)
  | .sel rd r b => some (opf 0x0F rd r b) | .mul rd r b => some (opf 0x10 rd r b) | .mulh rd r b => some (opf 0x11 rd r b)
  | .mulhu rd r b => some (opf 0x12 rd r b) | .quo rd r b => some (opf 0x13 rd r b) | .quou rd r b => some (opf 0x14 rd r b)
  | .mod rd r b => some (opf 0x15 rd r b) | .modu rd r b => some (opf 0x16 rd r b)
  | .clz rd r => some (rk 0x20 0 r rd 0x01) | .ctz rd r => some (rk 0x21 0 r rd 0x01)
  | .popc rd r => some (rk 0x22 0 r rd 0x01) | .bswap rd r => some (rk 0x23 0 r rd 0x01)
  | .ext rd r b => some (opf 0x24 rd r b) | .ins rd r b => some (opf 0x25 rd r b)
  | .lea n rd r b => some (opf (0x0A#6 ++ n) rd r b)
  | .addw rd r b => some (opwf 0x00 rd r b) | .subw rd r b => some (opwf 0x01 rd r b) | .sllw rd r b => some (opwf 0x06 rd r b)
  | .srlw rd r b => some (opwf 0x07 rd r b) | .sraw rd r b => some (opwf 0x08 rd r b) | .mulw rd r b => some (opwf 0x10 rd r b)
  | .addi rd r k => some (opi 0 rd r k) | .andi rd r k => some (opi 1 rd r k) | .ori rd r k => some (opi 2 rd r k)
  | .xori rd r k => some (opi 3 rd r k) | .slti rd r k => some (opi 5 rd r k) | .sltiu rd r k => some (opi 6 rd r k)
  | .slli rd r h => some (opi 4 rd r (0#6 ++ h)) | .srli rd r h => some (opi 4 rd r (1#6 ++ h))
  | .srai rd r h => some (opi 4 rd r (2#6 ++ h))
  | .lui rd k => some (u k rd 0x04) | .auipc rd k => some (u k rd 0x05)
  | .beq a r c o => some (b o (s2 c) r a 0) | .bne a r c o => some (b o (s2 c) r a 1) | .blt a r c o => some (b o (s2 c) r a 2)
  | .bge a r c o => some (b o (s2 c) r a 3) | .bltu a r c o => some (b o (s2 c) r a 4) | .bgeu a r c o => some (b o (s2 c) r a 5)
  | .jal rd k => some (u k rd 0x07) | .jalr rd r k => some (i 0 k r rd 0x08)
  | .lb rd r o n => some (m o n 0 r rd 0x09) | .lh rd r o n => some (m o n 1 r rd 0x09) | .lw rd r o n => some (m o n 2 r rd 0x09)
  | .ld rd r o n => some (m o n 3 r rd 0x09) | .lbu rd r o n => some (m o n 4 r rd 0x09) | .lhu rd r o n => some (m o n 5 r rd 0x09)
  | .lwu rd r o n => some (m o n 6 r rd 0x09)
  | .sb rs r o n => some (m o n 0 r rs 0x0A) | .sh rs r o n => some (m o n 1 r rs 0x0A) | .sw rs r o n => some (m o n 2 r rs 0x0A)
  | .sd rs r o n => some (m o n 3 r rs 0x0A)
  | .ldv s rd r b => some (rk (0#2 ++ scope s ++ 0#3) (s2 b) r rd 0x0B)
  | .stv s rs r b => some (rk (0#2 ++ scope s ++ 1#3) (s2 b) r rs 0x0B)
  | .rclm rs r b => some (rk 0x02 (s2 b) r rs 0x0B)
  | .amoAdd w o rd r b => some (amo 0 w o rd r b) | .amoMin w o rd r b => some (amo 1 w o rd r b)
  | .amoMax w o rd r b => some (amo 2 w o rd r b) | .amoMinu w o rd r b => some (amo 3 w o rd r b)
  | .amoMaxu w o rd r b => some (amo 4 w o rd r b) | .amoAnd w o rd r b => some (amo 5 w o rd r b)
  | .amoOr w o rd r b => some (amo 6 w o rd r b) | .amoXor w o rd r b => some (amo 7 w o rd r b)
  | .amoSwap w o rd r b => some (amo 8 w o rd r b) | .amoCas w o rd r b => some (amo 9 w o rd r b)
  | .amoFadd w o rd r b => some (amo 10 w o rd r b)
  | .redAdd w r b => some (red 0 false w r b) | .redFadd w r b => some (red 1 false w r b) | .redMin u w r b => some (red 2 u w r b)
  | .redMax u w r b => some (red 3 u w r b) | .redOr w r b => some (red 4 false w r b)
  | .fence k s => some (i 0 (0#7 ++ scope s ++ kind k) 0 0 0x0E)
  | .cwb r k => some (i 1 k r 0 0x0E) | .cinv r k => some (i 2 k r 0 0x0E) | .cpf r k n => some (i 3 k r (0#1 ++ n) 0x0E)
  | .smap r f => some (i 0 (0#7 ++ f) r 0 0x0F) | .sunmap f => some (i 1 (0#7 ++ f) 0 0 0x0F)
  | .evArrive b => some (ev 0 (0#10 ++ b)) | .evWait b => some (ev 1 (0#10 ++ b)) | .evWaitE l => some (ev 1 (1#8 ++ l))
  | .evSignal l => some (ev 2 (0#8 ++ l)) | .evLock k => some (ev 3 (0#9 ++ k)) | .evUnlock k => some (ev 4 (0#9 ++ k))
  | .evChain s b => some (ev 5 (0#4 ++ chain s ++ 0#3 ++ b))
  | .msend r b => some (rk 0 (s2 b) r 0 0x11) | .mrecv rd r => some (rk 1 0 r rd 0x11)
  | .mpoll rd => some (rk 2 0 0 rd 0x11) | .cqPop rd => some (rk 3 0 0 rd 0x11)
  | .post r k => some (i 0 k r 0 0x12) | .taskEnd => some (i 1 0 0 0 0x12) | .ssEnd => some (i 2 0 0 0 0x12)
  | .hstart rd r k => some (i 3 k r rd 0x12) | .hjoin k => some (i 4 (0#1 ++ k ++ 0#1) 0 0 0x12) | .hexit => some (i 5 0 0 0 0x12)
  | .futNew rd => some (rk 0 0 0 rd 0x13) | .futSet r b => some (rk 1 (s2 b) r 0 0x13) | .futGet rd r => some (rk 2 0 r rd 0x13)
  | .futChk rd r => some (rk 3 0 r rd 0x13) | .futFree r => some (rk 4 0 r 0 0x13)
  | .pload r => some (rk 0 0 r 0 0x14) | .pput rd r b => some (rk 1 (s2 b) r rd 0x14) | .pclose rd r => some (rk 2 0 r rd 0x14)
  | .pget r b => some (rk 3 (s2 b) r 0 0x14) | .prel r b => some (rk 4 (s2 b) r 0 0x14) | .pstat rd r => some (rk 5 0 r rd 0x14)
  | .cmAlloc rd r b => some (rk 0 (s2 b) r rd 0x15) | .cmFree r b => some (rk 1 (s2 b) r 0 0x15)
  | .cmQuery rd b => some (rk 2 (s2 b) 0 rd 0x15)
  | .csrr rd c => some (i 0 c 0 rd 0x16) | .csrw rd r c => some (i 1 c r rd 0x16) | .csrs rd r c => some (i 2 c r rd 0x16)
  | .csrc rd r c => some (i 3 c r rd 0x16)
  | .ecall => some (sys 0 0 0) | .brk => some (sys 1 0 0) | .xret => some (sys 2 0 0) | .park => some (sys 3 0 0)
  | .fenceI => some (sys 4 0 0) | .tlbi (.page r) => some (sys 5 r 0) | .tlbi .all => some (sys 5 0 1)
  | .hnotify r => some (sys 6 r 0) | .ctxrd rd r s => some (i 5 s r rd 0x16) | .ctxwr rd r s => some (i 6 s r rd 0x16)
  | .ctxres r => some (i 7 0 r 0 0x16) | .ctxkill r => some (i 7 1 r 0 0x16)
  | .vsetvl d rd b => some (v 0 (0#1 ++ b1 d) (ss2 b) 0 rd 0x20)
  | .vld f n vd r => some (v (n ++ 0#2) (vmem f) 0 r (v5 vd) 0x21) | .vlds f n vd r b => some (v (n ++ 1#2) (vmem f) (ss2 b) r (v5 vd) 0x21)
  | .vldx f n vd r b => some (v (n ++ 2#2) (vmem f) (vs2 (.vec b)) r (v5 vd) 0x21)
  | .vst f n vd r => some (v (n ++ 0#2) (vmem f) 0 r (v5 vd) 0x22) | .vsts f n vd r b => some (v (n ++ 1#2) (vmem f) (ss2 b) r (v5 vd) 0x22)
  | .vstx f n vd r b => some (v (n ++ 2#2) (vmem f) (vs2 (.vec b)) r (v5 vd) 0x22)
  | .vadd d vd a b => some (vi 0x00 d vd a b) | .vsub d vd a b => some (vi 0x01 d vd a b) | .vmul d vd a b => some (vi 0x02 d vd a b)
  | .vand d vd a b => some (vi 0x03 d vd a b) | .vor d vd a b => some (vi 0x04 d vd a b) | .vxor d vd a b => some (vi 0x05 d vd a b)
  | .vsll d vd a b => some (vi 0x06 d vd a b) | .vsrl d vd a b => some (vi 0x07 d vd a b) | .vsra d vd a b => some (vi 0x08 d vd a b)
  | .vmin d vd a b => some (vi 0x09 d vd a b) | .vmax d vd a b => some (vi 0x0A d vd a b)
  | .vcmp c d vd a b => some (vi (2#3 ++ vcond c) d vd a b) | .vsel d vd a b => some (vi 0x18 d vd a b)
  | .vmand vd a b => some (vi 0x19 false vd a (.vec b)) | .vmor vd a b => some (vi 0x1A false vd a (.vec b))
  | .vmnot vd b => some (vi 0x1B false vd 0 (.vec b))
  | .vslide d vd a b => some (v 0x20 (0#1 ++ b1 d) (ss2 b) (v5 a) (v5 vd) 0x23)
  | .vbcast d vd a b => some (v 0x21 (0#1 ++ b1 d) (ss2 b) (v5 a) (v5 vd) 0x23)
  | .vmvxs d rd a => some (v 0x22 (0#1 ++ b1 d) 0 (v5 a) rd 0x23) | .vmvsx d vd r => some (v 0x23 (0#1 ++ b1 d) 0 r (v5 vd) 0x23)
  | .vredsum d vd a b => some (vi 0x28 d vd a b) | .vredmax d vd a b => some (vi 0x29 d vd a b) | .vredmin d vd a b => some (vi 0x2A d vd a b)
  | .vfadd f vd a b => some (vf 0x00 f vd a b) | .vfsub f vd a b => some (vf 0x01 f vd a b) | .vfmul f vd a b => some (vf 0x02 f vd a b)
  | .vfdiv f vd a b => some (vf 0x03 f vd a b) | .vfsqrt f vd b => some (vf 0x04 f vd 0 b) | .vfmin f vd a b => some (vf 0x05 f vd a b)
  | .vfmax f vd a b => some (vf 0x06 f vd a b) | .vfabs f vd b => some (vf 0x07 f vd 0 b) | .vfneg f vd b => some (vf 0x08 f vd 0 b)
  | .vfma f vd a b => some (vf 0x09 f vd a b) | .vfms f vd a b => some (vf 0x0A f vd a b) | .vfnma f vd a b => some (vf 0x0B f vd a b)
  | .vfcmp c f vd a b => some (vf (4#4 ++ vfcond c) f vd a b) | .vfredsum f vd a b => some (vf 0x28 f vd a b)
  | .vcvt x y r vd a => some (v (x ++ y) (0#1 ++ b1 r) 0 (v5 a) (v5 vd) 0x25)
  | .tzero d => some (t 0 0 d 0 0 0 0 0x30) | .tmma d a b => some (t 1 0 d 0 0 b a 0x30) | .tmmat d a b => some (t 2 0 d 0 0 b a 0x30)
  | .tadd d s => some (t 3 0 d s 0 0 0 0x30) | .tscl d b => some (t 4 0 d 0 0 b 0 0x30) | .ttr d s => some (t 5 0 d s 0 0 0 0x30)
  | .tmov d s => some (t 6 0 d s 0 0 0 0x30)
  | .tld n d a => some (t 0 n d 0 0 0 a 0x31) | .tbld n a b => some (t 1 n 0 0 0 b a 0x31) | .tst n f d a b => some (t 2 n d 0 (tst f) b a 0x31)
  | .rwload a => some (t 0 0 0 0 0 0 a 0x34) | .rwflush => some (t 1 0 0 0 0 0 0 0x34)
  | .ventPush n q a b => some (vent 0 n q false a b) | .ventPushDec n q a b => some (vent 0 n q true a b)
  | .ventPull n q a b => some (vent 1 n q false a b) | .ventGath n q a b => some (vent 2 n q false a b)
  | .ventScat n q a b => some (vent 3 n q false a b)
  | .ventWait a b => some (vent 4 0 false false a b) | .ventNote a b => some (vent 5 0 false false a b)
  | .launch .. | .drain .. | .resume .. | .discard .. | .split .. | .merge .. | .release .. | .loadlm ..
  | .loadcsr .. | .setslice .. | .setprio .. | .setrdctl .. | .interrupt .. | .assign .. | .reclaim ..
  | .portset .. | .vfpause .. | .vfresume .. | .postWindowWrite .. | .attcmdGo .. | .attestationReportDone ..
  | .cmdstatLostClear .. | .hndropClear .. | .s2faultClear | .wdlimWrite .. | .multicastEntryWrite ..
  | .registerWrite .. | .hostApertureAccess .. | .deviceReset .. | .functionLevelReset ..
  | .linkTrainingComplete .. | .linkControl .. | .lineReadRequest .. | .lineDataResponse .. | .lineWriteBack ..
  | .writeAcknowledgement .. | .probe .. | .probeResponse .. | .farAtomic .. | .atomicResponse ..
  | .calderaAccess .. | .calderaResponse .. | .groupBarrier .. | .translationInvalidation ..
  | .translationInvalidationAck .. | .scrubInvalidation .. | .multicastReplication .. | .linkReplayTimeout ..
  | .linkPortDown .. | .peerLost .. | .calderaDieLost .. | .intakeFrame .. | .thermalShutdown
  | .sliceTimerExpiry .. | .energyMeterUpdate .. | .energyBudgetExhausted .. | .watchdogExpiry ..
  | .mpcHalving .. | .pwrmeasRefresh | .patrolScrub .. | .dwellFlush .. | .dispatch .. | .ventDispatch ..
  | .superstepBoundary .. | .quiescenceDetected .. | .portPublish .. | .ventOpComplete .. | .messageDelivery ..
  | .mailboxPost .. | .interruptTaken .. | .tileStart .. | .tileRetire .. | .vectorRetire ..
  | .scrubComplete .. | .directoryRecall .. | .reservedEncoding .. | .fetchFault | .stage2Unmapping ..
  | .badCrcPacket .. => none

end Sys2Proof
end

