-- ==== Sys2Proof/Config.lean ====
section
/-!
DEFINITION. What the spec leaves open: constants without a body, of which nothing can be proved (assumption log 7, 10 and 11),
applied to the operands they depend on or to the plain counter `State.freeIx`; and the counts of blocks of R9 to R13.
-/

namespace Sys2Proof.Config

/-- The TASKID a task gets (R31: only its uniqueness is stated). The model skips values in use. -/
opaque taskId : Nat → BitVec 32

/-- Which free waiter-pool slot a record takes (R137 leaves it open). -/
opaque poolPick : Nat → Nat

/-- Which run of granules a caldera die chooses (R261). -/
opaque granPick : Nat → Nat

/-- The channel that homes a line: die, present channels and line number (R94: not architected). -/
opaque channelHash : Nat → BitVec 384 → Nat → Nat

/-- The channel that homes a line at another package: package, tenant and line of the guest-physical address (R94, R335). -/
opaque peerHash : Nat → Nat → Nat → Nat

/-- Whether a residency probe hits an L2 tag (R149: nominal), by counter and line. -/
opaque l2Probe : Nat → Nat → Bool

/-- Which elements of a vector store that meets a cause had been performed (R427: nominal), by counter and element. -/
opaque vecDone : Nat → Nat → Bool

/-- The cost in µJ a meter update charges (R151: costs are nominal). -/
opaque energyCost : Nat → Nat

/-- The input power in mW (R348: nominal). -/
opaque pwrMeas : Nat → BitVec 32

/-- The SHA-384 digest of the two identity public keys, as 48 bytes (R354). -/
opaque deviceIdentity : Nat → BitVec 8

/-- The firmware version word of a report (R354). -/
opaque firmwareVersion : BitVec 64

/-- The number of images measured, less one, and their measurements (R354). -/
opaque imageCount : BitVec 4
opaque imageMeasure : Nat → Nat → BitVec 8

/-- The two signature bytes over a report body, by byte index (R352, R354). -/
opaque rsaSignature : List (BitVec 8) → Nat → BitVec 8
opaque slhSignature : List (BitVec 8) → Nat → BitVec 8

/-- Which bytes of a write in flight to a lost caldera die had been performed is gone with the die (R418); what a read
of host memory outside this model holds is the host's. The extra latency classes are not modelled. -/
def cores : Nat := 4096
def ventCores : Nat := 384
def clusters : Nat := 1024
def channels : Nat := 384
def ports : Nat := 1024
def jalicPorts : Nat := 36

/-- Bytes of local memory of a compute core and of a vent core (R11, R75), and the base of the reserved area (R41). -/
def lmBytes : Nat := 0x30000
def ventLmBytes : Nat := 0x10000
def lmReserved : Nat := 0x2F000
def ventLmReserved : Nat := 0xF000

/-- Rows of the accumulation store of a port unit, in bytes (R9, R127). -/
def accStoreBytes : Nat := 8 * 1024 * 1024

end Sys2Proof.Config
end

