-- ==== Sys2Proof/Machine/State.lean ====
section
/-!
DEFINITION. The state of the machine, as plain data: everything the spec gives the package, and the plain data that says who
moves next. A context is named by 16 times its core number plus its context number; vent core n is core 4,096 + n.
-/

namespace Sys2Proof.Machine

/-- A map from numbers in one canonical form: keys strictly rising, no entry equal to what an unlisted key reads as.
The lookup, the update and the form are in Machine/Store.lean. -/
abbrev SMap (α : Type) := List (Nat × α)

/-- Context states (R37, R209). -/
inductive Run where
  | idle | free | ready | parked | stopped
  deriving DecidableEq, Repr

/-- What a parked context waits on (R37, R48, R135). `reply` waits for the answer to a translation request, `fault` for the
answer to a parking-class cause, `link` for the answer of another package, `room` for room in the rewrite window; `fget` a
`fut.get` on entry i of partition p; a wait in a port instruction names the port, and its wait record of R135 is read from
the port's state. -/
inductive WaitClass where
  | event | version | future | message | helper | reply | fault | link | room
  | fget (p i : Nat)
  | pget (p n : Nat) | pclose (p : Nat) | pput (p : Nat)
  deriving DecidableEq, Repr

/-- The kinds of mailbox messages (R358). -/
inductive MsgKind where
  | translate | permit | migrating | fault | deadlock | handler
  deriving DecidableEq, Repr

/-- The translation request a context waits on: kind, address and access kind (R93, R449). -/
structure XReq where
  kind : MsgKind
  va : Word
  akind : BitVec 3
  deriving DecidableEq, Repr

/-- A message in a receive queue, a send slot or a mailbox: 32 bytes and the sender's CTXID value (R235, R237). -/
structure Msg where
  payload : List Byte
  sender : Word
  poison : List Nat
  deriving DecidableEq, Repr

/-- A reply of the service core (R359). -/
structure Reply where
  action : BitVec 8
  code : BitVec 8
  value : Word
  deriving DecidableEq, Repr

/-- The wait of a parked context: its class, the order in which it began, whether the instruction has already acted
(R449's remaining wait: the interval of a `pclose`, the ticket of a `stv`), the request it has posted, the parking instruction and
its address, and the message with its destination that a waiting `msend` has read (R235). While it is noted, `got` is a reply latched for
it, and `regs` the scalar registers it was left with. -/
structure Wait where
  cls : WaitClass
  seq : Nat
  acted : Option Nat
  req : Option XReq
  ins : Option Instr := none
  pc : Word := 0
  msg : Option (Msg × Nat) := none
  got : Option Reply := none
  regs : SMap Word := []
  deriving DecidableEq, Repr

/-- An exposed local load that has not landed: destination, value and instructions still to execute (R39). -/
structure Pend where
  rd : XReg
  val : Word
  left : Nat
  deriving DecidableEq, Repr

/-- A cause to be taken in front of the next instruction (R377): code, XVAL and the address reported; `reply` when the firmware has chosen
it by a DELIVER reply (R359), `vec` when a queued vector instruction has met it. -/
structure Due where
  code : BitVec 8
  val : Word
  xpc0 : Word
  reply : Bool := false
  vec : Bool := false
  deriving DecidableEq, Repr

/-- A hardware context (R36, R40, R159, R161). `saved` holds the waits of instructions that traps have interrupted and that go on
when their instruction does, newest first (R449), `later` a vector cause that another trap has overtaken, to be taken after its
`xret` (R297, R377), `held` the run state a context stopped by VFPAUSE returns to (R372), `ask` the address whose translation
a message spill waits for (R45). -/
structure Ctx where
  x : SMap Word
  pc : Word
  q1 : Word
  q2 : Word
  a1 : Bool
  a2 : Bool
  sup : Bool
  run : Run
  wait : Option Wait
  pwait : Bool
  saved : List Wait
  pend : List Pend
  sb : BitVec 32
  xpois : BitVec 32
  cpois : List Nat
  csr : SMap Word
  recvq : List Msg
  slot : Option (Msg × Nat)
  spilled : Nat
  latch : Option Reply
  due : Option Due
  later : Option Due
  held : Option Run
  ask : Option Word
  deriving DecidableEq, Repr

/-- The running task of a core (R29, R31): tenant, partition, effective class, and whether it runs on a vent core. -/
structure Task where
  ten : Nat
  pnode : Nat
  prio : Nat
  vent : Bool
  deriving DecidableEq, Repr

/-- A QUEUED record on a deque: partition and pool slot, class, affinity, home die, DATA and bypass count (R145 to R149). -/
structure DqRec where
  pnode : Nat
  slot : Nat
  cls : Nat
  aff : Nat
  die : Nat
  data : Word
  bypass : Nat
  deriving DecidableEq, Repr

/-- A line of an L1, or a sector of the stash (R77, R84, R87): VA line, leaf, location, CODE, DUE and TASK. -/
structure Line where
  va : Nat
  leaf : Word
  loc : Nat
  code : Nat
  due : Nat
  task : Nat
  deriving DecidableEq, Repr

/-- An entry of a range-lock table (R115): B-store or local memory, range, ALL or WRITE, and the operation that holds it. -/
structure Lock where
  bstore : Bool
  base : Nat
  len : Nat
  all : Bool
  op : Nat
  deriving DecidableEq, Repr

/-- A tile instruction with its captures and its address, and the number of its decode, which tells originals apart (R293, R315). -/
structure TOp where
  word : IWord
  opa : Word
  opb : Word
  pc : Word
  num : Nat
  deriving DecidableEq, Repr

/-- What a started tile instruction does at retirement (R294): a tile to write with its elements, and flags. -/
structure TRes where
  td : Option TReg
  els : SMap (BitVec 40)
  flags : BitVec 5
  deriving DecidableEq, Repr

/-- States of a window entry (R315): held, committed, or started with its result. -/
inductive TSt where
  | held | committed | started (r : TRes)
  deriving DecidableEq, Repr

/-- Bytes of local memory or of the B-store that a tile instruction has read ahead of a later store of its context (R104): their offset, the
poisoned words among them, and the parts that a range lock covered when they were read (R117). -/
structure Early where
  slot : Bool
  base : Nat
  bytes : List Byte
  bad : List Nat
  locks : List (Nat × Nat)
  deriving DecidableEq, Repr

/-- An entry of the rewrite window (R315, R316): the instruction, its originals, rewrite count, FRESH record, the rule and
group it comes from, the mode it was decoded in, the XPC0 a replayed instruction reports (R305), whether its group has passed
the class S check (R322), what it has read ahead (R104), whether it has met a cause while its context is STOPPED, the originals that have
left it to run as themselves, and the tiles as they were before the first entry ran that stands for an original of it (R322). -/
structure TEnt where
  op : TOp
  origs : List TOp
  count : Nat
  fresh : BitVec 4
  rule : Option Nat
  group : Nat
  sup : Bool
  st : TSt
  replay : Option Word
  checked : Bool := false
  early : List Early := []
  stuck : Bool := false
  ran : List Nat := []
  base : Option (SMap (BitVec 40)) := none
  deriving DecidableEq, Repr

/-- What has become of the scalar register that a queued `vmvxs` writes: nothing yet, a later instruction has written it, or a later exposed
load is to write it (R275, R287). -/
inductive Dest where
  | ahead | passed | loading
  deriving DecidableEq, Repr

/-- An instruction in a core's vector queue (R153, R275): the context that issued it, its address, what it captured at
issue (VL, FRM, scalar operand), its passes (R276), and the addresses of its elements with the leaf each was resolved by. -/
structure VEnt where
  ctx : Nat
  instr : Instr
  pc : Word
  vl : Nat
  frm : BitVec 2
  s2v : Word
  passes : Nat
  els : List (Word × Word)
  dest : Dest := .ahead
  deriving DecidableEq, Repr

/-- A core (R11, R13, R161). -/
structure Core where
  csr : SMap Word
  cpois : List Nat
  vpois : BitVec 16
  tpois : BitVec 4
  v : SMap (BitVec 2048)
  t : SMap (BitVec 40)
  vq : List VEnt
  win : List TEnt
  fresh : BitVec 4
  rules : List (BitVec 512)
  dwell : Nat
  task : Option Task
  cq : List Word
  locks : List Lock
  stash : SMap Word
  sect : SMap Line
  deque : List DqRec
  sliceInt : Bool
  hostInt : Bool
  pmap : List (BitVec 128)
  l1 : SMap Line
  asid : Option (Nat × Nat)
  last : Nat
  deriving DecidableEq, Repr

/-- A barrier of an event unit (R229 to R231). -/
structure Bar where
  pmask : BitVec 4
  arr : BitVec 4
  gen : BitVec 32
  chain : BitVec 3
  chainReq : Option (BitVec 3)
  join : SMap (BitVec 32)
  deriving DecidableEq, Repr

/-- The event unit and the vector arbiter of a cluster (R12, R154, R229): `lanes` gives for each lane group the cycles for which it is
still reserved, `bound` for each core whose queue head is bound the cycles it still takes. -/
structure Cluster where
  bars : SMap Bar
  lines : BitVec 16
  mutex : SMap Nat
  intv : BitVec 32
  pass : SMap Nat
  hadHead : BitVec 4
  lanes : List Nat
  bound : SMap Nat
  deriving DecidableEq, Repr

/-- Partition states (R24). -/
inductive PState where
  | unowned | idle | running | draining | saved
  deriving DecidableEq, Repr

/-- A VENT record whose placement waits for a translation (R366): the placing core, its slot, and whether TRANSLATE is posted. -/
structure Placing where
  core : Nat
  slot : Nat
  posted : Bool
  deriving DecidableEq, Repr

/-- A partition with the component bound to it (R23, R24, R28, R46, R119, R155, R237, R395). `meter` counts the TIME units since the last
meter update (R151), `wd` the eligible cycles (R370); `dead` says that its coupling set has been reported and not left quiescence (R369). -/
structure Part where
  st : PState
  ten : Option Nat
  ebudget : Nat
  erem : Nat
  meter : Nat
  futlog : Nat
  futbase : Word
  pool : List Nat
  armed : Bool
  held : List Nat
  placing : List Placing
  mailbox : List Msg
  mbq : List Msg
  intv : BitVec 32
  rdctl : BitVec 3
  raceLog : Word
  raceSeq : BitVec 32
  slice : Nat
  sliceLeft : Nat
  wd : Nat
  dead : Bool
  deriving DecidableEq, Repr

/-- A vent operation (R308 to R312, R373): issuing context, descriptor, tag, the leaves it resolved by 512 KiB block, the directory
entry it read, its STATUS once it has moved its bytes, and its record once it has finished; `moved` is its resume offset, the count of
bytes written so far, and `sofar` the STATUS they have given. -/
structure VOp where
  id : Nat
  ctx : Nat
  ten : Nat
  pnode : Nat
  func : BitVec 4
  dec : Bool
  nocq : Bool
  nu : BitVec 4
  desc : BitVec 512
  tag : BitVec 32
  core : Nat
  pages : SMap Word
  dir : Word
  dirBad : Bool
  status : Option (BitVec 8)
  done : Option Word
  moved : Nat := 0
  sofar : BitVec 8 := 0
  deriving DecidableEq, Repr

/-- What VFPAUSE sets aside of a vent core that ran a task of the tenant (R372, R373): the core, its contexts, its local memory with
poison marks, and the operations its contexts had issued. -/
structure Aside where
  core : Nat
  kor : Core
  ctxs : List (Nat × Ctx)
  lm : List Host.Cell
  pois : List Nat
  ops : List VOp
  deriving DecidableEq, Repr

/-- What a write has come too late for: a command or a report while one was in progress, or a record while the window was full (R344, R354,
R366). -/
inductive Late where
  | cmd | report | record
  deriving DecidableEq, Repr

/-- An access of the host that has arrived in a queue of a function (R349): an aperture access by its offset in BAR4, which APSEL completes
when it is performed (R343), a write to the post window or to a register, or one that came too late when it arrived. -/
inductive HostOp where
  | late (what : Late)
  | read (off len : Nat)
  | write (off : Nat) (bytes : List Byte)
  | record (off len : Nat) (r : BitVec 512)
  | reg (r : HostReg) (v : Word)
  deriving DecidableEq, Repr

/-- A function of the host interface (R342 to R348, R354, R368): number 0 to 63 a tenant's, 64 the physical one. `arrived` holds the
accesses not yet performed, in the order of arrival; `unmasked` and `pending` are the vectors whose Mask bit is clear and whose Pending
bit is set, and `fmask` is the Function Mask bit (R347; log 46). -/
structure Vf where
  cmd : Option (BitVec 19)
  arg0 : Word
  arg1 : Word
  lost : Bool
  result : BitVec 8
  pwin : List (BitVec 512)
  psel : BitVec 11
  apsel : BitVec 14
  hndrop : BitVec 32
  msix : Nat
  nonce : SMap Word
  attbuf : Word
  attLen : BitVec 16
  attRes : BitVec 8
  att : Option (List Word)
  toff : Word
  save : Word
  res : Word
  paused : Bool
  wdlim : BitVec 32
  wdcount : BitVec 32
  wdpnode : BitVec 11
  pwref : BitVec 32
  s2 : SMap Nat
  aside : List Aside
  arrived : List HostOp
  unmasked : List Nat
  pending : List Nat
  fmask : Bool
  deriving DecidableEq, Repr

/-- A loaded port (R123, R128): its record, the partition it translates in, its slice table as loaded, and its state; the request it waits
for, and whether it has a reclaim of its buffer still to carry out (R132). -/
structure PortLd where
  image : BitVec 1024
  pnode : Nat
  sl : List Word
  nextv : Nat
  rel : Nat
  acc : SMap Word
  accPois : List Nat
  dt : SMap Word
  cl : List Nat
  rl : SMap Nat
  pflags : BitVec 5
  seeded : Bool
  asked : Option Word
  owes : Bool
  seeding : Bool := false
  deriving DecidableEq, Repr

/-- An entry of the port table (R122). -/
structure Port where
  ten : Option Nat
  ld : Option PortLd
  deriving DecidableEq, Repr

/-- The versions of one word (R96): live versions, newest first, HIGH, and the live versions that are poisoned (R386). -/
structure VWord where
  live : List (Nat × Word)
  high : Option Nat
  bad : List Nat
  deriving DecidableEq, Repr

/-- A shadow entry of the race detector (R120), with the partition in which it was written (R119). -/
structure Shadow where
  core : Nat
  ctx : Nat
  mask : BitVec 32
  cluster : Bool
  intv : BitVec 32
  pnode : Nat
  deriving DecidableEq, Repr

/-- The operation and type of a U partial (R81): kind (0 add, 1 fadd, 2 min, 3 max, 4 or), unsigned, 64-bit. -/
structure RedTag where
  kind : Nat
  uns : Bool
  w : Bool
  deriving DecidableEq, Repr

/-- A partial of one word, with a poison mark (R81, R389). -/
structure Partial where
  off : Nat
  tag : RedTag
  val : Word
  pois : Bool
  deriving DecidableEq, Repr

/-- The state of a line in one holder (R80). -/
inductive LSt where
  | s | e | m | u (parts : List Partial)
  deriving DecidableEq, Repr

/-- A line of an L2 slice or a PLC (R88, R89); `dirty` tells that a slice's line has been written since it was filled (R385). -/
structure CLine where
  tag : Nat
  code : Nat
  due : Nat
  ten : Nat
  slot : Nat
  dirty : Bool := false
  deriving DecidableEq, Repr

/-- An L2 slice, 0 to 383, or a PLC, 384 to 387 (R77, R88, R89): lines by way, SCLK and the halvings done, MPC and
demotion of each tenant, control. -/
structure Cache where
  lines : SMap CLine
  sclk : Nat
  halved : Nat
  mpc : SMap Nat
  dem : List Nat
  ctl : Word
  deriving DecidableEq, Repr

/-- An allocated granule: its tenant, the package that asked for it, and whether it is versioned (R97, R98, R422). -/
structure Gran where
  ten : Nat
  pkg : Nat
  vers : Bool
  deriving DecidableEq, Repr

/-- A caldera die of the package (R97, R98, R340, R143, R351, R408). A granule being scrubbed is listed until its scrub completes;
`frames` are the frames that have arrived and are not yet written, `fcs` counts those with a bad FCS. -/
structure Cal where
  lost : Bool
  gran : SMap Gran
  limit : SMap Nat
  mc : SMap Word
  flow : SMap (BitVec 512)
  frames : List (List Byte)
  fcs : BitVec 32
  unmatched : BitVec 32
  noxlate : BitVec 32
  deriving DecidableEq, Repr

/-- A scrub in progress (R95, R391): a physical block, or a granule of a die. -/
inductive ScrubOf where
  | block (phys : Nat)
  | gran (ca : Bool) (g : Nat)
  deriving DecidableEq, Repr

structure Scrub where
  id : Nat
  of : ScrubOf
  deriving DecidableEq, Repr

/-- A cached translation of a network interface (R93): interface, ASID, VA and log of the range its entry serves, leaf. -/
structure TlbEnt where
  ni : Nat
  ten : Nat
  pnode : Nat
  va : Nat
  lg : Nat
  leaf : Word
  deriving DecidableEq, Repr

/-- Who waits for an answer of another package: a context, a core's vector queue, a vent operation, a port, a `stv` that has joined a
queue or a prefetch, by its ticket, or another engine:
the dispatcher of core n, and for partition node p engine 10,000 + p, for function f engine 20,000 + f, for the intake of caldera
die k engine 30,000 + k, for the packet with tag t of package q engine 40,000 + t + 16,384 q, for the directories engine 390,000, for the
fetches of context c engine 400,000 + c, for a reclaim of port p engine 900,000 + p,
and for function f the engines 910,000 + f (its aperture), 911,000 + f (its post window) and 912,000 + f (its reports). `left` is nobody any
more: a request that its requester has given up, or one that nobody waits for, keeps its tag until it is answered or lost (R333). -/
inductive Who where
  | ctx (id : Nat) | vec (core : Nat) | vop (id : Nat) | port (p : Nat) | stv (ticket : Nat) | pf (ticket : Nat) | eng (n : Nat) | left
  deriving DecidableEq, Repr

/-- An outstanding request to another package (R333, R334): who waits, which access of it, the packet, the answer with its poison mark
and the low bits of its ADDR, and the shadow entry against which its load was found racing when it was sent (R121). -/
structure Req where
  who : Who
  ord : Nat
  pkt : Packet
  ans : Option (List Byte)
  lost : Bool
  pois : Bool
  flag : Nat
  trap : Option Shadow
  deriving DecidableEq, Repr

/-- A `stv` that waits at its word for a slot, in the order in which it began to wait (R219): of a context of the package, or the request
of another one; `far` when the word is homed in another package. `leaf` is the leaf that resolved it and `node` its partition (R416). `res`
is 0 once its version is created, or its cause. -/
structure StvWait where
  ticket : Nat
  loc : Nat
  ver : Nat
  val : Word
  leaf : Word := 0
  node : Nat := 2048
  va : Word
  far : Bool := false
  pkt : Option Packet := none
  res : Option (BitVec 8) := none
  deriving DecidableEq, Repr

/-- A line that a `cpf` has asked for and that another package must send or give up first (R226): the context that asked, the address, its
leaf and its code. -/
structure Prefetch where
  ticket : Nat
  ctx : Nat
  va : Nat
  leaf : Word
  code : Nat
  deriving DecidableEq, Repr

/-- A Jalic port (R333, R336, R409 to R411). While `barred`, packets that have moved to it are not yet acknowledged, and new ones for
their peer wait in `unsent`; `grants` counts the packets that have left `unsent` (R152). -/
structure Jalic where
  peer : Option Nat
  up : Bool
  down : Bool
  seqOut : BitVec 24
  seqIn : BitVec 24
  lastAck : BitVec 24
  unacked : List Packet
  replays : Nat
  retry : BitVec 32
  crcerr : BitVec 16
  barred : Bool
  unsent : List Packet
  grants : Nat
  deriving DecidableEq, Repr

/-- A peer package (R338, R411, R412), whether its caldera die CA1 is lost (R417), and whether it has left the group for good
(R414). -/
structure Peer where
  incarn : Option (BitVec 12)
  lost : Bool
  ca1 : Bool
  gone : Bool
  deriving DecidableEq, Repr

/-- What the device has sent to the host: MSI-X messages, read completions with their EP bit, Unsupported Requests, and
module resets the host sees (R208, R347, R355, R424). -/
inductive Out where
  | msix (fn vec : Nat)
  | readData (fn : Nat) (bytes : List Byte) (ep : Bool)
  | unsupported (fn : Nat)
  | reset
  deriving DecidableEq, Repr

/-- Where an uncorrectable error of R384 arises: in a code word of memory by location (HBM, local memory, B-store, caldera bank, or a
peer line in the only PLC that holds it), in word w of the copy of a line that an L1, the stash or an L2 slice holds, in a word that the
PLC of a die holds, in a word of a port's accumulation store or in a directory entry; in one live version of a word (R96); or in a register
(R390). -/
inductive Upset where
  | word (loc : Nat)
  | version (loc ver : Nat)
  | l1 (core key w : Nat)
  | sector (core key w : Nat)
  | l2 (cache key w : Nat)
  | plc (die loc : Nat)
  | acc (port cell : Nat)
  | dir (line : Nat)
  | scalar (ctx : Nat) (r : XReg)
  | ctxCsr (ctx n : Nat)
  | coreCsr (core n : Nat)
  | vector (core : Nat) (r : VReg)
  | tile (core : Nat) (t : TReg)
  deriving DecidableEq, Repr

/-- Who moves next, besides the default order of Machine/Sched.lean: a context issues, or an event happens; or an outside
choice: a network interface drops a cached translation or an L1 drops a line (R93), an uncorrectable error arises or an error is
corrected (R384, R390), a peer has left the group for good (R414). -/
inductive Turn where
  | issue (ctx : Nat)
  | event (i : Instr)
  | dropTlb (ni : Nat)
  | dropL1 (core key : Nat)
  | upset (u : Upset)
  | corrected (u : Upset)
  | leaves (pkg : Nat)
  deriving DecidableEq, Repr

/-- The physical function's records (R338, R348, R400, R411) and the rest of the package; `inq` holds the packets that have been
received and not yet served, `word` the word that a fetch has found, `pwrAge` the TIME units since PWRMEAS was refreshed, `stvq` the
queues of waiting `stv` (R219), `cpfs` the lines that `cpf` has asked for (R226), `via` the lines whose packets go by caldera die CA1 (R92, R337),
`grants` the packets that the package's queues have served (R152), `stalls` the tenants and addresses of the stage-2 misses at which accesses
wait that no context makes, each signalled once (R383). -/
structure Dev where
  agenda : List Turn
  cur : Nat
  ins : Option Instr
  word : Option IWord
  seq : Nat
  freeIx : Nat
  ord : Nat
  incarn : BitVec 12
  pwr : BitVec 32
  pwrAge : Nat
  ce : SMap (BitVec 32)
  ue : SMap (BitVec 32)
  s2fault : Option (Nat × Nat)
  mcdrop : BitVec 32
  ca1lost : Bool
  roots : SMap Nat
  tlb : List TlbEnt
  dir : SMap (List (Nat × LSt))
  vops : List VOp
  scrubs : List Scrub
  links : SMap Jalic
  peers : SMap Peer
  reqs : List Req
  acks : List (Nat × Nat)
  gbar : SMap Nat
  inq : List Packet
  stvq : List StvWait
  cpfs : List Prefetch
  via : List Nat
  grants : Nat
  stalls : List (Nat × Nat)
  out : List Out
  stopped : Bool
  deriving DecidableEq, Repr

/-- The state of the machine. -/
structure State where
  mem : List Host.Cell
  pois : List Nat
  vers : SMap VWord
  shadow : SMap Shadow
  ctxs : SMap Ctx
  cores : SMap Core
  clusters : SMap Cluster
  parts : SMap Part
  vfs : SMap Vf
  ports : SMap Port
  caches : SMap Cache
  cals : SMap Cal
  dev : Dev
  pres : Presence
  cycle : Word
  ref : Word
  refPh : Nat
  deriving DecidableEq, Repr

/-- Why a step stops without a next state. -/
inductive Fault where
  /-- Raised by `step` when the agenda lets a context issue that the package does not have (a core number beyond R10 or a
  context number beyond R36, R75). Safe: no rule of the spec describes such a context, and no run of the device names it. -/
  | noSuchContext
  deriving DecidableEq, Repr

/-- Why an instruction has no meaning. -/
inductive Refusal where
  /-- Raised by an arm of `exec` whose instruction has no meaning yet. Safe: the model stops where the device goes on. -/
  | notModelled (mnemonic : String)
  deriving DecidableEq, Repr

/-- The result of a step. -/
abbrev Outcome := Host.Outcome State Fault Refusal

/-- Whether a core number is a vent core's. -/
def isVent (c : Nat) : Bool := 4096 ≤ c

/-- Core and context number of a context. -/
def coreOf (id : Nat) : Nat := id / 16
def ctxOf (id : Nat) : Nat := id % 16
def ctxId (core x : Nat) : Nat := core * 16 + x

/-- A context after reset (log 5): the control context IDLE, the helpers FREE (R37). -/
def Ctx.reset (id : Nat) : Ctx where
  x := []
  pc := 0
  q1 := 0
  q2 := 0
  a1 := false
  a2 := false
  sup := false
  run := if ctxOf id = 0 then .idle else .free
  wait := none
  pwait := false
  saved := []
  pend := []
  sb := 0
  xpois := 0
  cpois := []
  csr := []
  recvq := []
  slot := none
  spilled := 0
  latch := none
  due := none
  later := none
  held := none
  ask := none

/-- A core after reset: every CSR at its reset value, every store empty (R26, R47, R317). -/
def Core.reset : Core where
  csr := []
  cpois := []
  vpois := 0
  tpois := 0
  v := []
  t := []
  vq := []
  win := []
  fresh := 0
  rules := []
  dwell := 0
  task := none
  cq := []
  locks := []
  stash := []
  sect := []
  deque := []
  sliceInt := false
  hostInt := false
  pmap := []
  l1 := []
  asid := none
  last := 0

/-- A barrier after reset (R229, R230). -/
def Bar.reset : Bar where
  pmask := 0xF
  arr := 0
  gen := 0
  chain := 0
  chainReq := none
  join := []

/-- An event unit after reset (R26, R154, R229). -/
def Cluster.reset : Cluster where
  bars := []
  lines := 0
  mutex := []
  intv := 0
  pass := []
  hadHead := 0
  lanes := [0, 0, 0, 0]
  bound := []

/-- A partition no tenant owns and no component is bound to (R24, R119, R155, R395). -/
def Part.reset : Part where
  st := .unowned
  ten := none
  ebudget := 0
  erem := 0
  meter := 0
  futlog := 0
  futbase := 0
  pool := []
  armed := false
  held := []
  placing := []
  mailbox := []
  mbq := []
  intv := 0
  rdctl := 0
  raceLog := 0
  raceSeq := 0
  slice := 0
  sliceLeft := 0
  wd := 0
  dead := false

/-- A function's registers after reset (R344, R347, R354, R368); every vector of its table is masked (log 46). -/
def Vf.reset : Vf where
  cmd := none
  arg0 := 0
  arg1 := 0
  lost := false
  result := 0
  pwin := []
  psel := 0
  apsel := 0
  hndrop := 0
  msix := 1
  nonce := []
  attbuf := 0
  attLen := 0
  attRes := 0
  att := none
  toff := 0
  save := 0
  res := 0
  paused := false
  wdlim := 0
  wdcount := 0
  wdpnode := 0
  pwref := 0
  s2 := []
  aside := []
  arrived := []
  unmasked := []
  pending := []
  fmask := false

/-- A port number that is assigned to nobody (R122). -/
def Port.reset : Port where
  ten := none
  ld := none

/-- A versioned word before its first version (R96). -/
def VWord.reset : VWord where
  live := []
  high := none
  bad := []

/-- An L2 slice or PLC after reset (R89): SLCTL of slices 0 to 383, PLCCTL of PLCs 384 to 387. -/
def Cache.reset (n : Nat) : Cache where
  lines := []
  sclk := 0
  halved := 0
  mpc := []
  dem := []
  ctl := if n < 384 then 0x0400_2A00_0000_8000 else 0x0400_2A00_0020_0000

/-- A caldera die after reset (R98, R143, R340, R408, R413). -/
def Cal.reset : Cal where
  lost := false
  gran := []
  limit := []
  mc := []
  flow := []
  frames := []
  fcs := 0
  unmatched := 0
  noxlate := 0

/-- A Jalic port before training (R333, R411, R413). -/
def Jalic.reset : Jalic where
  peer := none
  up := false
  down := false
  seqOut := 0
  seqIn := 0
  lastAck := 0
  unacked := []
  replays := 0
  retry := 0
  crcerr := 0
  barred := false
  unsent := []
  grants := 0

/-- A peer package that has not trained (R338). -/
def Peer.reset : Peer where
  incarn := none
  lost := false
  ca1 := false
  gone := false

/-- The device-wide records after reset (R338, R348, R400, R411). -/
def Dev.reset : Dev where
  agenda := []
  cur := 0
  ins := none
  word := none
  seq := 0
  freeIx := 0
  ord := 0
  incarn := 0
  pwr := 0
  pwrAge := 0
  ce := []
  ue := []
  s2fault := none
  mcdrop := 0
  ca1lost := false
  roots := []
  tlb := []
  dir := []
  vops := []
  scrubs := []
  links := []
  peers := []
  reqs := []
  acks := []
  gbar := []
  inq := []
  stvq := []
  cpfs := []
  via := []
  grants := 0
  stalls := []
  out := []
  stopped := false

/-- The presence block after reset (R19; log 6): every block present, vent core n on a node of its own die, a group of one. -/
def presReset : Presence where
  clpres := BitVec.allOnes 1024
  chpres := BitVec.allOnes 384
  lkpres := BitVec.allOnes 36
  chnode := (List.range 384).map fun n => BitVec.ofNat 10 (n / 96 * 256 + n % 96)
  pkg := 0
  group := 1

/-- The machine right after reset (R5, R24, R413): memory lists nothing, partition node 1 is UNOWNED, nothing runs. -/
def State.reset : State where
  mem := []
  pois := []
  vers := []
  shadow := []
  ctxs := []
  cores := []
  clusters := []
  parts := [(1, Part.reset)]
  vfs := []
  ports := []
  caches := []
  cals := []
  dev := Dev.reset
  pres := presReset
  cycle := 0
  ref := 0
  refPh := 0

end Sys2Proof.Machine
end

