-- ==== Sys2Proof/Machine/Store.lean ====
section
/-!
DEFINITION. The one form of every map of the state: lookup with a default, update that keeps the keys rising and lists no entry
equal to the default; memory bytes, poison marks and little-endian values over it (R2, R386).
-/

namespace Sys2Proof.Machine

/-- The value at a key, or the default of that key. -/
def SMap.get {α : Type} (d : Nat → α) : SMap α → Nat → α
  | [], k => d k
  | (j, v) :: m, k => if j = k then v else SMap.get d m k

/-- The value listed at a key. -/
def SMap.find {α : Type} : SMap α → Nat → Option α
  | [], _ => none
  | (j, v) :: m, k => if j = k then some v else SMap.find m k

/-- The map without a key. -/
def SMap.erase {α : Type} (m : SMap α) (k : Nat) : SMap α := m.filter fun e => e.1 != k

/-- An entry put in front of the first greater key. -/
def SMap.insert {α : Type} (k : Nat) (v : α) : SMap α → SMap α
  | [] => [(k, v)]
  | (j, w) :: m => if k < j then (k, v) :: (j, w) :: m else (j, w) :: SMap.insert k v m

/-- A value listed at a key, whatever it is. -/
def SMap.put {α : Type} (m : SMap α) (k : Nat) (v : α) : SMap α := SMap.insert k v (m.erase k)

/-- A value at a key; the default's value lists nothing. -/
def SMap.set {α : Type} [DecidableEq α] (d : Nat → α) (m : SMap α) (k : Nat) (v : α) : SMap α :=
  if v = d k then m.erase k else m.put k v

/-- Keys strictly rising, from a lower bound on. -/
def SMap.rising {α : Type} : Nat → SMap α → Bool
  | _, [] => true
  | lo, (k, _) :: m => decide (lo ≤ k) && SMap.rising (k + 1) m

/-- No entry equal to its default. -/
def SMap.proper {α : Type} [DecidableEq α] (d : Nat → α) : SMap α → Bool
  | [] => true
  | (k, v) :: m => decide (v ≠ d k) && SMap.proper d m

/-- The map without the keys from `lo` to `hi - 1`. -/
def SMap.eraseRange {α : Type} (m : SMap α) (lo hi : Nat) : SMap α := m.filter fun e => e.1 < lo || hi ≤ e.1

/-- What a byte of memory that nothing has written reads as (log 1). -/
def memDefault (_ : Nat) : Byte := 0

/-- The canonical form of memory. -/
def Memory.wf (m : List Host.Cell) : Bool := SMap.rising 0 m && SMap.proper memDefault m

/-- One byte of memory. -/
def Memory.read (m : List Host.Cell) (a : Nat) : Byte := SMap.get memDefault m a

/-- One byte written. -/
def Memory.write (m : List Host.Cell) (a : Nat) (b : Byte) : List Host.Cell := SMap.set memDefault m a b

/-- Bytes written from an address upward. -/
def Memory.writes (m : List Host.Cell) : Nat → List Byte → List Host.Cell
  | _, [] => m
  | a, b :: bs => Memory.writes (Memory.write m a b) (a + 1) bs

/-- The bytes from an address upward. -/
def Memory.reads (m : List Host.Cell) : Nat → Nat → List Byte
  | _, 0 => []
  | a, n + 1 => Memory.read m a :: Memory.reads m (a + 1) n

/-- The number that little-endian bytes stand for (R2). -/
def leNat : List Byte → Nat
  | [] => 0
  | b :: bs => b.toNat + 256 * leNat bs

/-- The n low bytes of a number, little-endian. -/
def leBytes : Nat → Nat → List Byte
  | 0, _ => []
  | n + 1, v => BitVec.ofNat 8 v :: leBytes n (v / 256)

/-- One byte of CRC-32C, reflected, and the function over bytes in ascending address order (R317, R336). -/
def crcByte (crc : Nat) (b : Byte) : Nat :=
  (List.range 8).foldl (fun c _ => if c % 2 = 1 then c / 2 ^^^ 0x82F63B78 else c / 2) (crc ^^^ b.toNat)

def crc32c (bs : List Byte) : Nat := bs.foldl crcByte 0xFFFFFFFF ^^^ 0xFFFFFFFF

/-- Bits [lo + len - 1 : lo] of a number. -/
def bitsOf (v lo len : Nat) : Nat := v / 2 ^ lo % 2 ^ len

/-- Sign extension of the low n bits to 64 (R8). -/
def sext (n : Nat) (v : Nat) : Word := (BitVec.ofNat n v).signExtend 64

/-- The aligned 8-byte words that the bytes from `a` to `a + n - 1` touch. -/
def wordsOf (a n : Nat) : List Nat :=
  if n = 0 then [] else (List.range ((a + n - 1) / 8 - a / 8 + 1)).map fun k => (a / 8 + k) * 8

/-- The aligned 8-byte words those bytes cover whole (R386). -/
def wordsCovered (a n : Nat) : List Nat :=
  (wordsOf a n).filter fun w => a ≤ w && w + 8 ≤ a + n

/-- A set of numbers kept in rising order. -/
def nsInsert (k : Nat) : List Nat → List Nat
  | [] => [k]
  | j :: m => if k < j then k :: j :: m else if k = j then j :: m else j :: nsInsert k m

def nsErase (m : List Nat) (k : Nat) : List Nat := m.filter fun j => j != k

/-- Spaces of memory, laid out in one range of numbers: own HBM, own host memory per tenant, local memories, B-stores,
own caldera dies, and copies of peer lines in the PLCs. -/
inductive Space where
  | hbm | host (ten : Nat) | lm (core : Nat) | bstore (core : Nat) | cal (ca : Bool) | plc (pkg ten : Nat)
  deriving DecidableEq, Repr

/-- The location of a byte of a space. -/
def Space.loc : Space → Nat → Nat
  | .hbm, a => a
  | .host t, a => 2 ^ 60 + t * 2 ^ 48 + a
  | .lm c, a => 2 * 2 ^ 60 + c * 2 ^ 18 + a
  | .bstore c, a => 3 * 2 ^ 60 + c * 2 ^ 21 + a
  | .cal ca, a => 4 * 2 ^ 60 + (if ca then 2 ^ 31 else 0) + a
  | .plc p t, a => 5 * 2 ^ 60 + (p + 16 * t) * 2 ^ 48 + a

/-- The reset value of a CSR held per context (R55, R74, R75, R162, R200). -/
def ctxCsrReset (vent : Bool) (n : Nat) : Word :=
  if n = 0x404 then (if vent then 0xE000_F000_0000_0000 else 0xE002_F000_0000_0000)
  else if vent then 0
  else if n = 0x405 then 0xE810_0000_0000_0000
  else if n = 0x406 then 0xF001_0000_0000_0000
  else 0

/-- The reset value of a CSR held per core (R149, R153, R162, R299). -/
def coreCsrReset (n : Nat) : Word :=
  if n = 0x004 then 8
  else if n = 0x011 then 0x180_0000_0000
  else if n = 0x012 then 0x80
  else if n = 0x013 then 0x80
  else if n = 0x402 then 4
  else if n = 0x403 then 0x710
  else 0

namespace State

def ctx (s : State) (id : Nat) : Ctx := SMap.get Ctx.reset s.ctxs id
def core (s : State) (c : Nat) : Core := SMap.get (fun _ => Core.reset) s.cores c
def cluster (s : State) (k : Nat) : Cluster := SMap.get (fun _ => Cluster.reset) s.clusters k
def part (s : State) (p : Nat) : Part := SMap.get (fun _ => Part.reset) s.parts p
def part? (s : State) (p : Nat) : Option Part := SMap.find s.parts p
def vf (s : State) (t : Nat) : Vf := SMap.get (fun _ => Vf.reset) s.vfs t
def port (s : State) (p : Nat) : Port := SMap.get (fun _ => Port.reset) s.ports p
def cache (s : State) (n : Nat) : Cache := SMap.get Cache.reset s.caches n
def cal (s : State) (ca : Bool) : Cal := SMap.get (fun _ => Cal.reset) s.cals ca.toNat
def vword (s : State) (w : Nat) : VWord := SMap.get (fun _ => VWord.reset) s.vers w

def setCtx (s : State) (id : Nat) (c : Ctx) : State := { s with ctxs := SMap.set Ctx.reset s.ctxs id c }
def setCore (s : State) (n : Nat) (c : Core) : State := { s with cores := SMap.set (fun _ => Core.reset) s.cores n c }
def setCluster (s : State) (k : Nat) (c : Cluster) : State :=
  { s with clusters := SMap.set (fun _ => Cluster.reset) s.clusters k c }
def setVf (s : State) (t : Nat) (v : Vf) : State := { s with vfs := SMap.set (fun _ => Vf.reset) s.vfs t v }
def setPort (s : State) (p : Nat) (v : Port) : State := { s with ports := SMap.set (fun _ => Port.reset) s.ports p v }
def setCache (s : State) (n : Nat) (v : Cache) : State := { s with caches := SMap.set Cache.reset s.caches n v }
def setCal (s : State) (ca : Bool) (v : Cal) : State :=
  { s with cals := SMap.set (fun _ => Cal.reset) s.cals ca.toNat v }

/-- A partition changed; a node that is no partition of the cover stays none (R23). -/
def setPart (s : State) (p : Nat) (f : Part → Part) : State :=
  { s with parts := s.parts.map fun e => if e.1 = p then (p, f e.2) else e }

/-- One byte of memory by location. -/
def byte (s : State) (a : Nat) : Byte := Memory.read s.mem a

/-- The number n little-endian bytes at a location stand for. -/
def peek (s : State) (a n : Nat) : Nat := leNat (Memory.reads s.mem a n)

/-- Whether any word under the bytes is poisoned (R384, R387). -/
def poisoned (s : State) (a n : Nat) : Bool := (wordsOf a n).any fun w => s.pois.contains w

end State

/-- A scalar register: x0 reads zero (R157). -/
def Ctx.rd (c : Ctx) (r : XReg) : Word := if r = 0 then 0 else SMap.get (fun _ => 0) c.x r.toNat

/-- A scalar register written, its poison mark cleared; a write to x0 is discarded (R157, R390). -/
def Ctx.wr (c : Ctx) (r : XReg) (v : Word) : Ctx :=
  if r = 0 then c
  else { c with x := SMap.set (fun _ => 0) c.x r.toNat v, xpois := c.xpois &&& ~~~(1#32 <<< r.toNat) }

/-- A per-context CSR by number. The context number says whether the core is a vent core. -/
def Ctx.csrGet (vent : Bool) (c : Ctx) (n : Nat) : Word := SMap.get (ctxCsrReset vent) c.csr n

/-- A per-context CSR set whole, its poison mark cleared (R390). -/
def Ctx.csrSet (vent : Bool) (c : Ctx) (n : Nat) (v : Word) : Ctx :=
  { c with csr := SMap.set (ctxCsrReset vent) c.csr n v, cpois := nsErase c.cpois n }

/-- A per-context CSR that hardware changes in part: no full write, so a poison mark stays (R390). -/
def Ctx.csrBump (vent : Bool) (c : Ctx) (n : Nat) (v : Word) : Ctx := { c with csr := SMap.set (ctxCsrReset vent) c.csr n v }

/-- A per-core CSR by number. -/
def Core.csrGet (c : Core) (n : Nat) : Word := SMap.get coreCsrReset c.csr n

/-- A per-core CSR set whole, its poison mark cleared (R390). -/
def Core.csrSet (c : Core) (n : Nat) (v : Word) : Core :=
  { c with csr := SMap.set coreCsrReset c.csr n v, cpois := nsErase c.cpois n }

/-- A per-core CSR that hardware changes in part. -/
def Core.csrBump (c : Core) (n : Nat) (v : Word) : Core := { c with csr := SMap.set coreCsrReset c.csr n v }

/-- Numbers of the CSRs the machine itself reads and writes (R161). -/
def cFFLAGS : Nat := 0x001
def cFRM : Nat := 0x002
def cRDEF : Nat := 0x004
def cSTASHCFG : Nat := 0x005
def cMFMT : Nat := 0x010
def cMSCA : Nat := 0x011
def cMSCB : Nat := 0x012
def cMCODE : Nat := 0x013
def cRWPERM : Nat := 0x014
def cTRC : Nat := 0x400
def cPRIO : Nat := 0x401
def cVSHARE : Nat := 0x402
def cRESBYPASS : Nat := 0x403
def cLGUARD : Nat := 0x404
def cPORTBASE : Nat := 0x410
def cFUTBASE : Nat := 0x411
def cMBOXBASE : Nat := 0x412
def cXCAUSE : Nat := 0x800
def cXVAL : Nat := 0x801
def cXPC0 : Nat := 0x802
def cXPC1 : Nat := 0x803
def cXPC2 : Nat := 0x804
def cXSTAT : Nat := 0x805
def cXRESUME : Nat := 0x806
def cXTVEC : Nat := 0x807
def cXSCRATCH : Nat := 0x808
def cTRB : Nat := 0x810
def cTASKID : Nat := 0xC01
def cSSNUM : Nat := 0xC02
def cENERGY : Nat := 0xC03
def cVL : Nat := 0xC06
def cRWSTAT : Nat := 0xC07

end Sys2Proof.Machine
end

