-- ==== Sys2Proof/Machine/Flags.lean ====
section
/-!
DEFINITION. Number formats, rounding and every flag computation (R50 to R62): exact values, Round with its flags, arithmetic with
the special cases of R56 and R282, conversions of R57, block scales and NarrowBlock.
-/

namespace Sys2Proof.Machine

/-- The flags of FFLAGS (R55). -/
abbrev Flags := BitVec 5
def fNX : Flags := 1
def fUF : Flags := 2
def fOF : Flags := 4
def fNV : Flags := 8
def fSAT : Flags := 16

/-- Rounding modes by their code in FRM (R55). -/
inductive RMode where
  | rne | rtz | rup | rdn
  deriving DecidableEq, Repr

def RMode.of (v : BitVec 2) : RMode :=
  match v.toNat with | 0 => .rne | 1 => .rtz | 2 => .rup | _ => .rdn

/-- A floating-point format (R50): exponent bits, fraction bits M, bias; NF8 saturates and has no infinity. -/
structure Fmt where
  eb : Nat
  m : Nat
  bias : Nat
  nf8 : Bool := false
  deriving DecidableEq, Repr

def fNF8 : Fmt := ⟨4, 3, 7, true⟩
def fBF16 : Fmt := ⟨8, 7, 127, false⟩
def fFP32 : Fmt := ⟨8, 23, 127, false⟩
def fFP64 : Fmt := ⟨11, 52, 1023, false⟩
def fA40 : Fmt := ⟨10, 29, 511, false⟩

namespace Fmt

def emin (f : Fmt) : Int := 1 - f.bias
def signBit (f : Fmt) : Nat := 2 ^ (f.eb + f.m)
def expMax (f : Fmt) : Nat := 2 ^ f.eb - 1

/-- The canonical NaN (R56); 0x7F in NF8 (R54). -/
def canonNaN (f : Fmt) : Nat := if f.nf8 then 0x7F else f.expMax * 2 ^ f.m + 2 ^ (f.m - 1)

/-- An infinity; in NF8 the largest magnitude (R53). -/
def inf (f : Fmt) (neg : Bool) : Nat :=
  (if neg then f.signBit else 0) + (if f.nf8 then 0x7E else f.expMax * 2 ^ f.m)

/-- The largest finite magnitude (R50). -/
def maxf (f : Fmt) (neg : Bool) : Nat :=
  (if neg then f.signBit else 0) + (if f.nf8 then 0x7E else f.expMax * 2 ^ f.m - 1)

def zero (f : Fmt) (neg : Bool) : Nat := if neg then f.signBit else 0

end Fmt

/-- A value read from a code: a NaN, signalling or quiet, an infinity, or the number m * 2^e with a sign. -/
inductive FVal where
  | nan (sig : Bool)
  | inf (neg : Bool)
  | fin (neg : Bool) (m : Nat) (e : Int)
  deriving DecidableEq, Repr

/-- The value of a code (R51, R52). The reserved NF8 code never reaches here as a number (R52, R375). -/
def Fmt.val (f : Fmt) (code : Nat) : FVal :=
  let neg := code.testBit (f.eb + f.m)
  let e := bitsOf code f.m f.eb
  let fr := bitsOf code 0 f.m
  if e = f.expMax ∧ f.nf8 = false then
    if fr = 0 then .inf neg else .nan (!fr.testBit (f.m - 1))
  else if e = 0 then .fin neg fr (f.emin - f.m)
  else .fin neg (2 ^ f.m + fr) ((e : Int) - f.bias - f.m)

/-- An exact result before rounding: a NaN and whether its operation was invalid (R53), an infinity, a ratio
n / d * 2^e with a sign, or the square root of m * 2^e. -/
inductive Exact where
  | nan (inv : Bool)
  | inf (neg : Bool)
  | rat (neg : Bool) (n d : Nat) (e : Int)
  | root (m : Nat) (e : Int)
  deriving DecidableEq, Repr

/-- The exact value of a code's value, for conversions: a signalling NaN is invalid (R53, R56). -/
def FVal.exact : FVal → Exact
  | .nan sig => .nan sig
  | .inf neg => .inf neg
  | .fin neg m e => .rat neg m 1 e

/-- 2 to an integer power split into a numerator and a denominator. -/
def pow2n (e : Int) : Nat := 2 ^ e.toNat
def pow2d (e : Int) : Nat := 2 ^ (-e).toNat

/-- The integer square root, bit by bit from bit k down. -/
def isqrtFrom (n : Nat) : Nat → Nat → Nat
  | 0, r => if (r + 1) * (r + 1) ≤ n then r + 1 else r
  | k + 1, r => isqrtFrom n k (if (r + 2 ^ (k + 1)) * (r + 2 ^ (k + 1)) ≤ n then r + 2 ^ (k + 1) else r)

def isqrt (n : Nat) : Nat := isqrtFrom n (Nat.log2 n / 2 + 1) 0

/-- Floor of the binary logarithm of n / d * 2^e, for n > 0. -/
def log2Rat (n d : Nat) (e : Int) : Int :=
  let l : Int := (Nat.log2 n : Int) - Nat.log2 d
  let l := if n * pow2d l < d * pow2n l then l - 1 else l
  l + e

/-- A magnitude measured in units of 2^q: the floor, and twice the rest compared with one unit: 0 exact, 1 below half,
2 half, 3 above half. -/
structure Meas where
  fl : Nat
  rest : Nat
  deriving DecidableEq, Repr

def restOf (rem den : Nat) : Nat :=
  if rem = 0 then 0 else if 2 * rem < den then 1 else if 2 * rem = den then 2 else 3

def measRat (n d : Nat) (e q : Int) : Meas :=
  let a := n * pow2n (e - q)
  let b := d * pow2d (e - q)
  ⟨a / b, restOf (a % b) b⟩

/-- The same for the square root of m * 2^e: the square of the result in units of 2^(2q) is a / b. -/
def measRoot (m : Nat) (e q : Int) : Meas :=
  let a := m * pow2n (e - 2 * q)
  let b := pow2d (e - 2 * q)
  let r := isqrt (a / b)
  let rest := if r * r * b = a then 0
    else if 4 * a < (2 * r + 1) * (2 * r + 1) * b then 1
    else if 4 * a = (2 * r + 1) * (2 * r + 1) * b then 2 else 3
  ⟨r, rest⟩

/-- Whether the magnitude rounds up (R53). -/
def roundsUp (mode : RMode) (neg : Bool) (m : Meas) : Bool :=
  if m.rest = 0 then false
  else match mode with
    | .rne => m.rest = 3 || (m.rest = 2 && m.fl % 2 = 1)
    | .rtz => false
    | .rup => !neg
    | .rdn => neg

/-- A magnitude k * 2^(e - M) with its sign, encoded; `e` is the exponent it was measured at (R53). -/
def Fmt.encode (f : Fmt) (neg : Bool) (k : Nat) (e : Int) : Nat :=
  let s := if neg then f.signBit else 0
  if k < 2 ^ f.m then s + k
  else if k = 2 ^ (f.m + 1) then s + (e + 1 + f.bias).toNat * 2 ^ f.m
  else s + (e + f.bias).toNat * 2 ^ f.m + (k - 2 ^ f.m)

/-- Round (R53) of a measured magnitude: `e` is max (floor (log2 a), EMIN), `tiny` that a is below 2^EMIN. -/
def Fmt.finish (f : Fmt) (mode : RMode) (neg : Bool) (e : Int) (tiny : Bool) (m : Meas) : Nat × Flags :=
  let k := if roundsUp mode neg m then m.fl + 1 else m.fl
  let fl := if m.rest = 0 then 0 else if tiny then fNX ||| fUF else fNX
  -- y = k * 2^(e - M) beyond MAXF
  let e' := if k = 2 ^ (f.m + 1) then e + 1 else e
  let beyond := if f.nf8 then decide (8 < e') || (decide (e' = 8) && decide (k = 15)) else decide ((f.bias : Int) < e')
  if beyond then
    if f.nf8 then (f.maxf neg, fl ||| fNX ||| fSAT)
    else
      let toInf := match mode with | .rne => true | .rup => !neg | .rdn => neg | .rtz => false
      (if toInf then f.inf neg else f.maxf neg, fl ||| fNX ||| fOF)
  else (f.encode neg k e, fl)

/-- Round(x, fmt, mode): the code and the flags (R53, R54). -/
def Fmt.round (f : Fmt) (mode : RMode) (x : Exact) : Nat × Flags :=
  let mode := if f.nf8 then .rne else mode
  match x with
  | .nan inv => (f.canonNaN, if f.nf8 || inv then fNV else 0)
  | .inf neg => (f.inf neg, if f.nf8 then fOF ||| fSAT else 0)
  | .rat neg n d ex =>
    if n = 0 then (f.zero neg, 0)
    else
      let lg := log2Rat n d ex
      let e := max lg f.emin
      f.finish mode neg e (decide (lg < f.emin)) (measRat n d ex (e - f.m))
  | .root m ex =>
    if m = 0 then (f.zero false, 0)
    else
      let lg := (log2Rat m 1 ex) / 2
      let e := max lg f.emin
      f.finish mode false e (decide (lg < f.emin)) (measRoot m ex (e - f.m))

/-! ### Exact arithmetic (R56, R282) -/

def FVal.isNaN : FVal → Bool | .nan _ => true | _ => false
def FVal.isSig : FVal → Bool | .nan s => s | _ => false
def FVal.neg : FVal → FVal
  | .nan s => .nan s | .inf n => .inf (!n) | .fin n m e => .fin (!n) m e
def FVal.isNeg : FVal → Bool | .nan _ => false | .inf n => n | .fin n _ _ => n
def FVal.isZero : FVal → Bool | .fin _ m _ => m == 0 | _ => false

/-- A signed number m * 2^e at a smaller exponent. -/
def atExp (neg : Bool) (m : Nat) (e q : Int) : Int :=
  let v : Int := (m * 2 ^ (e - q).toNat : Nat)
  if neg then -v else v

/-- The exact sum of two values; an exact zero of operands with opposite signs is -0 only under RDN (R56). -/
def FVal.add (mode : RMode) (a b : FVal) : Exact :=
  match a, b with
  | .nan s, y => .nan (s || y.isSig)
  | x, .nan s => .nan (s || x.isSig)
  | .inf n, .inf k => if n = k then .inf n else .nan true
  | .inf n, .fin .. => .inf n
  | .fin .., .inf n => .inf n
  | .fin na ma ea, .fin nb mb eb =>
    let q := min ea eb
    let v := atExp na ma ea q + atExp nb mb eb q
    if v = 0 then .rat (if ma = 0 ∧ mb = 0 ∧ na = nb then na else decide (mode = .rdn)) 0 1 q
    else .rat (decide (v < 0)) v.natAbs 1 q

/-- The exact product of two values as a value; 0 times infinity is a signalling NaN here, so that it stays invalid. -/
def FVal.mul (a b : FVal) : FVal :=
  match a, b with
  | .nan s, y => .nan (s || y.isSig)
  | x, .nan s => .nan (s || x.isSig)
  | .inf n, .inf k => .inf (n != k)
  | .inf n, .fin k m _ => if m = 0 then .nan true else .inf (n != k)
  | .fin k m _, .inf n => if m = 0 then .nan true else .inf (n != k)
  | .fin na ma ea, .fin nb mb eb => .fin (na != nb) (ma * mb) (ea + eb)

/-- The exact quotient (R282). -/
def FVal.div (a b : FVal) : Exact :=
  match a, b with
  | .nan s, y => .nan (s || y.isSig)
  | x, .nan s => .nan (s || x.isSig)
  | .inf _, .inf _ => .nan true
  | .inf n, .fin k _ _ => .inf (n != k)
  | .fin k _ _, .inf n => .rat (n != k) 0 1 0
  | .fin na ma ea, .fin nb mb eb =>
    if mb = 0 then (if ma = 0 then .nan true else .inf (na != nb))
    else .rat (na != nb) ma mb (ea - eb)

/-- The exact square root (R282). -/
def FVal.sqrt : FVal → Exact
  | .nan s => .nan s
  | .inf false => .inf false
  | .inf true => .nan true
  | .fin n m e => if m = 0 then .rat n 0 1 0 else if n then .nan true else .root m e

/-- Order of two values that are no NaN: the sign of a - b. -/
def FVal.cmp (a b : FVal) : Int :=
  match a, b with
  | .inf na, .inf nb => if na = nb then 0 else if na then -1 else 1
  | .inf na, _ => if na then -1 else 1
  | _, .inf nb => if nb then 1 else -1
  | .fin na ma ea, .fin nb mb eb =>
    let q := min ea eb
    let v := atExp na ma ea q - atExp nb mb eb q
    if v < 0 then -1 else if v = 0 then 0 else 1
  | _, _ => 0

/-- `vfmin` and `vfmax` (R282): the code chosen and the flags. -/
def Fmt.minmax (f : Fmt) (isMax : Bool) (a b : Nat) : Nat × Flags :=
  let x := f.val a
  let y := f.val b
  let fl := if x.isSig || y.isSig then fNV else 0
  if x.isNaN && y.isNaN then (f.canonNaN, fl)
  else if x.isNaN then (b, fl)
  else if y.isNaN then (a, fl)
  else
    let c := x.cmp y
    let aLess := if c = 0 then x.isNeg && !y.isNeg else decide (c < 0)
    let bLess := if c = 0 then y.isNeg && !x.isNeg else decide (0 < c)
    (if isMax then (if aLess then b else a) else (if bLess then b else a), fl)

/-- The IEEE 754 compares of `vfcmp` (R283): whether the condition holds, and the flags. -/
def Fmt.compare (f : Fmt) (cc : VFCond) (a b : Nat) : Bool × Flags :=
  let x := f.val a
  let y := f.val b
  let nan := x.isNaN || y.isNaN
  let sig := x.isSig || y.isSig
  let c := x.cmp y
  match cc with
  | .eq => (!nan && c == 0, if sig then fNV else 0)
  | .ne => (nan || c != 0, if sig then fNV else 0)
  | .lt => (!nan && decide (c < 0), if nan then fNV else 0)
  | .le => (!nan && decide (c ≤ 0), if nan then fNV else 0)

/-! ### Integer conversions (R57, R285) -/

/-- The integer a value rounds to. -/
def roundInt (mode : RMode) (neg : Bool) (n d : Nat) (e : Int) : Int × Bool :=
  let m := measRat n d e 0
  let k : Int := ((if roundsUp mode neg m then m.fl + 1 else m.fl : Nat) : Int)
  (if neg then -k else k, m.rest ≠ 0)

/-- The range of an integer format of n bits. -/
def intRange (uns : Bool) (n : Nat) : Int × Int :=
  if uns then (0, (2 ^ n : Nat) - 1) else (-(2 ^ (n - 1) : Nat), (2 ^ (n - 1) : Nat) - 1)

/-- Float to integer (R57): the code of n bits and the flags. -/
def FVal.toInt (mode : RMode) (uns : Bool) (n : Nat) (x : FVal) : Nat × Flags :=
  let (lo, hi) := intRange uns n
  let code := fun (v : Int) => (BitVec.ofInt n v).toNat
  match x with
  | .nan _ => (0, fNV)
  | .inf neg => (code (if neg then lo else hi), fNV)
  | .fin neg m e =>
    let (v, inexact) := roundInt mode neg m 1 e
    if v < lo then (code lo, fNV)
    else if hi < v then (code hi, fNV)
    else (code v, if inexact then fNX else 0)

/-- An integer limited to a format's range (R285). -/
def limitInt (uns : Bool) (n : Nat) (v : Int) : Nat × Flags :=
  let (lo, hi) := intRange uns n
  let code := fun (v : Int) => (BitVec.ofInt n v).toNat
  if v < lo then (code lo, fNV) else if hi < v then (code hi, fNV) else (code v, 0)

/-- An integer as an exact value. -/
def exactInt (v : Int) : Exact := .rat (decide (v < 0)) v.natAbs 1 0

/-! ### Block scales (R58, R62) -/

/-- The value of an E6M2 code: (4 + F) * 2^(E - 34). -/
def e6m2 (c : Nat) : Nat × Int := (4 + c % 4, (c / 4 : Nat) - (34 : Int))

def FVal.scale (c : Nat) : FVal := let (m, e) := e6m2 c; .fin false m e

/-- Whether E6M2(c) is at least m * 2^e / 448. -/
def scaleCovers (c m : Nat) (e : Int) : Bool :=
  let (sm, se) := e6m2 c
  decide (m * pow2n (e - se) ≤ 448 * sm * pow2d (e - se))

/-- The largest of finite magnitudes m * 2^e, and whether an infinity is among the values (R62). -/
def blockMax : List FVal → Bool × (Nat × Int)
  | [] => (false, (0, 0))
  | v :: vs =>
    let (i, (m, e)) := blockMax vs
    match v with
    | .nan _ => (i, (m, e))
    | .inf _ => (true, (m, e))
    | .fin _ k x => if m * pow2n (e - x) < k * pow2d (e - x) then (i, (k, x)) else (i, (m, e))

/-- A value divided by a scale and rounded to NF8 (R62, R302). -/
def narrow1 (c : Nat) (v : FVal) : Nat × Flags := fNF8.round .rne (v.div (FVal.scale c))

/-- NarrowBlock (R62): the code, the NF8 codes and the flags. -/
def narrowBlock (vs : List FVal) : Nat × List Nat × Flags :=
  let (isInf, (m, e)) := blockMax vs
  let c := if isInf then 0xFF else ((List.range 256).find? fun c => scaleCovers c m e).getD 0xFF
  let rs := vs.map (narrow1 c)
  (c, rs.map (·.1), rs.foldl (fun f r => f ||| r.2) 0)

/-- Elements narrowed with a fixed scale (R302, MCODE.FIX). -/
def narrowFixed (c : Nat) (vs : List FVal) : List Nat × Flags :=
  let rs := vs.map (narrow1 c)
  (rs.map (·.1), rs.foldl (fun f r => f ||| r.2) 0)

/-! ### Matrix arithmetic (R61) -/

/-- The exact sum of the finite values of a list. -/
def finSum : List FVal → FVal
  | [] => .fin false 0 0
  | .fin np mp ep :: r =>
    match finSum r with
    | .fin ns ms es =>
      let q := min es ep
      let v := atExp ns ms es q + atExp np mp ep q
      .fin (decide (v < 0)) v.natAbs q
    | x => x
  | _ :: r => finSum r

/-- Whether a list holds an infinity of a sign, or a NaN with its invalidity. -/
def hasInf (n : Bool) (ps : List FVal) : Bool := ps.any fun p => match p with | .inf k => k == n | _ => false
def hasNan (inv : Bool) (ps : List FVal) : Bool := ps.any fun p => match p with | .nan k => k == inv | _ => false

/-- The exact sum of a block's products, whatever their order (R61): a NaN among them passes through, and is invalid when a product is;
without one, opposite infinities are an invalid operation (R56). -/
def dotExact (l : List (FVal × FVal)) : FVal :=
  let ps := l.map fun e => e.1.mul e.2
  if hasNan true ps then .nan true
  else if hasNan false ps then .nan false
  else if hasInf true ps && hasInf false ps then .nan true
  else if hasInf true ps then .inf true
  else if hasInf false ps then .inf false
  else finSum ps

/-- The code of a FP32 factor as a value, and a code of A40. -/
def vFP32 (v : Nat) : FVal := fFP32.val v
def vA40 (v : Nat) : FVal := fA40.val v

/-- One block step of R61 on an element: two roundings. -/
def blockStep (acc : Nat) (ps : List (FVal × FVal)) (sA sB : FVal) : Nat × Flags :=
  let s := dotExact ps
  let (u, f1) := fA40.round .rne ((s.mul sA).mul sB).exact
  let (r, f2) := fA40.round .rne (FVal.add .rne (vA40 acc) (vA40 u))
  (r, f1 ||| f2)

end Sys2Proof.Machine
end

