-- ==== Sys2Proof/Machine/Ops.lean ====
section
/-!
DEFINITION. How meanings act: a closed set of primitive updates of the state, a program over them that may give up and roll back
(R426: a cause changes nothing), the retirement of an instruction (R39, R40), taking an exception (R42, R201, R356, R357),
returning from one (R203), parking (R37, R449), and ending a context (R211).
-/

namespace Sys2Proof.Machine

/-- The primitive updates of the state. Every change a meaning makes is one of these. -/
inductive Upd where
  | ctx (id : Nat) (f : Ctx → Ctx)
  | core (c : Nat) (f : Core → Core)
  | cluster (k : Nat) (f : Cluster → Cluster)
  | part (p : Nat) (f : Part → Part)
  | splitPart (p : Nat)
  | mergePart (p : Nat)
  | vf (t : Nat) (f : Vf → Vf)
  | port (p : Nat) (f : Port → Port)
  | cache (n : Nat) (f : Cache → Cache)
  | cal (ca : Bool) (f : Cal → Cal)
  | dev (f : Dev → Dev)
  /-- bytes written at a location; words written whole lose their poison mark (R386) -/
  | poke (a : Nat) (bs : List Byte)
  /-- bytes from `lo` to `hi - 1` scrubbed: zero, no poison, no version, no shadow entry (R95, R391) -/
  | scrub (lo hi : Nat)
  | poison (w : Nat)
  | version (w v : Nat) (x : Word) (bad : Bool)
  | retire (w v : Nat)
  /-- live versions of a word poisoned: one of them, or every one (R384) -/
  | tarnish (w : Nat) (v : Option Nat)
  | shadow (k : Nat) (e : Option Shadow)
  /-- a device reset: the state after reset, with the presence set, package number and incarnation it fixes (R19, R423); the
  host's memory is the host's -/
  | reset (p : Presence)

/-- The live versions of a word below `v` retired, but for the newest (R96). -/
def VWord.reclaim (x : VWord) (v : Nat) : VWord :=
  match x.live with
  | [] => x
  | n :: rest => { x with live := n :: rest.filter fun e => v ≤ e.1, bad := x.bad.filter fun b => b = n.1 || v ≤ b }

/-- Live versions of a word poisoned: that of a number, or all. -/
def VWord.tarnish (x : VWord) (v : Option Nat) : VWord :=
  { x with bad := (x.live.map (·.1)).filter fun n => x.bad.contains n || v.isNone || v == some n }

/-- A version created: it must exceed HIGH, and fewer than four may be live; otherwise nothing changes (R96, R219; log 44 for the
word of a port's buffer). -/
def VWord.create (x : VWord) (v : Nat) (val : Word) (bad : Bool) : VWord :=
  let fresh := match x.high with | none => true | some h => decide (h < v)
  if fresh && decide (x.live.length < 4) then
    { live := (v, val) :: x.live, high := some v, bad := if bad then v :: x.bad else x.bad }
  else x

/-- A node splits into its two children, each in the parent's state and with its tenant (R25). Leaves do not split. Both children keep
the parent's slice value, detector control, interval and log pointer; the left one keeps its messages (log 16). -/
def splitParts (m : SMap Part) (p : Nat) : SMap Part :=
  match SMap.find m p with
  | some a => if p < 1024 then SMap.put (SMap.put (m.erase p) (2 * p) a) (2 * p + 1) { a with mailbox := [], mbq := [] } else m
  | none => m

/-- What the parent keeps of two siblings that merge, which clears nothing (R26): the messages of both mailboxes, as far as they have
room, and every posted message; otherwise what the left child had (log 16). -/
def Part.joined (a b : Part) : Part :=
  let box := a.mailbox ++ b.mailbox
  { a with mailbox := box.take 64, mbq := box.drop 64 ++ a.mbq ++ b.mbq }

/-- Two sibling partitions merge into their parent (R25, R26). -/
def mergeParts (m : SMap Part) (p : Nat) : SMap Part :=
  match SMap.find m (2 * p), SMap.find m (2 * p + 1) with
  | some a, some b => SMap.put ((m.erase (2 * p)).erase (2 * p + 1)) p (a.joined b)
  | _, _ => m

/-- The depth of a node and the first cluster and the number of clusters it covers (R22). -/
def nodeDepth (p : Nat) : Nat := Nat.log2 p
def nodeSize (p : Nat) : Nat := 2 ^ (10 - nodeDepth p)
def nodeFirst (p : Nat) : Nat := (p - 2 ^ nodeDepth p) * nodeSize p

/-- The partition of a shadow entry after a split: the child that covers the core that wrote it, the left one for a vent core; and after a
merge (R25, R119; log 16). -/
def Shadow.splitAt (p : Nat) (e : Shadow) : Shadow :=
  if e.pnode ≠ p then e
  else { e with pnode := if !isVent e.core && decide (nodeFirst (2 * p + 1) ≤ e.core / 4) then 2 * p + 1 else 2 * p }
def Shadow.mergeAt (p : Nat) (e : Shadow) : Shadow := if e.pnode / 2 = p then { e with pnode := p } else e

/-- The shadow entries of a node that splits, or of two that merge, follow it. -/
def splitShadow (m : SMap Part) (p : Nat) (sh : SMap Shadow) : SMap Shadow :=
  if p < 1024 && (SMap.find m p).isSome then sh.map fun e => (e.1, e.2.splitAt p) else sh
def mergeShadow (m : SMap Part) (p : Nat) (sh : SMap Shadow) : SMap Shadow :=
  if (SMap.find m (2 * p)).isSome && (SMap.find m (2 * p + 1)).isSome then sh.map fun e => (e.1, e.2.mergeAt p) else sh

/-- Whether a location is memory of the host (APT 3). -/
def hostLoc (a : Nat) : Bool := 2 ^ 60 ≤ a && a < 2 * 2 ^ 60

/-- A primitive update performed. -/
def Upd.apply : Upd → State → State
  | .ctx id f, s => s.setCtx id (f (s.ctx id))
  | .core c f, s => s.setCore c (f (s.core c))
  | .cluster k f, s => s.setCluster k (f (s.cluster k))
  | .part p f, s => s.setPart p f
  | .splitPart p, s => { s with parts := splitParts s.parts p, shadow := splitShadow s.parts p s.shadow }
  | .mergePart p, s => { s with parts := mergeParts s.parts p, shadow := mergeShadow s.parts p s.shadow }
  | .vf t f, s => s.setVf t (f (s.vf t))
  | .port p f, s => s.setPort p (f (s.port p))
  | .cache n f, s => s.setCache n (f (s.cache n))
  | .cal ca f, s => s.setCal ca (f (s.cal ca))
  | .dev f, s => { s with dev := f s.dev }
  | .poke a bs, s =>
    { s with mem := Memory.writes s.mem a bs,
             pois := s.pois.filter fun w => !(wordsCovered a bs.length).contains w }
  | .scrub lo hi, s =>
    { s with mem := SMap.eraseRange s.mem lo hi, pois := s.pois.filter fun w => w < lo || hi ≤ w,
             vers := SMap.eraseRange s.vers lo hi, shadow := SMap.eraseRange s.shadow (lo / 32) (hi / 32) }
  | .poison w, s => { s with pois := nsInsert (w / 8 * 8) s.pois }
  | .version w v x bad, s =>
    { s with vers := SMap.set (fun _ => VWord.reset) s.vers w ((s.vword w).create v x bad) }
  | .retire w v, s =>
    { s with vers := SMap.set (fun _ => VWord.reset) s.vers w ((s.vword w).reclaim v) }
  | .tarnish w v, s =>
    { s with vers := SMap.set (fun _ => VWord.reset) s.vers w ((s.vword w).tarnish v) }
  | .shadow k none, s => { s with shadow := s.shadow.erase k }
  | .shadow k (some e), s => { s with shadow := s.shadow.put k e }
  | .reset p, s =>
    let d := { Dev.reset with incarn := s.dev.incarn + 1, freeIx := s.dev.freeIx, agenda := s.dev.agenda }
    { State.reset with pres := p, dev := d,
                       mem := s.mem.filter fun e => hostLoc e.1, pois := s.pois.filter hostLoc }

/-- A program over the primitive updates: done, one update, a look at the state, or giving up, which drops every update
made so far and goes on from the state the program began with. -/
inductive P where
  | done
  | upd (u : Upd) (k : P)
  | get (k : State → P)
  | abort (k : P)

/-- The state a program leaves; `s0` is the state it began with. -/
def P.run (s0 : State) : P → State → State
  | .done, s => s
  | .upd u k, s => P.run s0 k (u.apply s)
  | .get k, s => P.run s0 (k s) s
  | .abort k, _ => P.run s0 k s0

/-- A meaning under construction: what to do with its result is a program. -/
abbrev M (α : Type) := ContT P Id α

namespace M

/-- The state as it stands. -/
def get : M State := fun k => .get k

/-- One primitive update. -/
def upd (u : Upd) : M Unit := fun k => .upd u (k ())

/-- Drop everything done so far and end with this program. -/
def stop {α : Type} (p : M Unit) : M α := fun _ => .abort (p fun _ => .done)

/-- Nothing happens: an interlock, to be tried again (R39), or an event that is not enabled. -/
def stall {α : Type} : M α := fun _ => .abort .done

/-- End here, keeping what has been done. -/
def halt {α : Type} : M α := fun _ => .done

/-- The first arm when the condition holds. -/
def orStall (b : Bool) : M Unit := if b then pure () else stall

/-- A program for each element of a list, in order. -/
def each {α : Type} (f : α → M Unit) : List α → M Unit
  | [] => pure ()
  | a :: as => do f a; each f as

/-- The results of a program for each element of a list, in order. -/
def mapL {α β : Type} (f : α → M β) : List α → M (List β)
  | [] => pure []
  | a :: as => do let b ← f a; let bs ← mapL f as; pure (b :: bs)

end M

open M

/-- The number of the executing context. -/
def meId : M Nat := do return (← get).dev.cur

/-- The number of the executing core. -/
def meCore : M Nat := do return coreOf (← get).dev.cur

/-- The executing context and core. -/
def me : M Ctx := do let s ← get; return s.ctx s.dev.cur
def myCore : M Core := do let s ← get; return s.core (coreOf s.dev.cur)

/-- Updates of the executing context and core. -/
def updMe (f : Ctx → Ctx) : M Unit := do upd (.ctx (← meId) f)
def updMyCore (f : Core → Core) : M Unit := do upd (.core (← meCore) f)

/-- The next arrival number (R219, R232). -/
def nextSeq : M Nat := do
  let s ← get
  upd (.dev fun d => { d with seq := d.seq + 1 })
  return s.dev.seq

/-- The next index of a free value (log 7). -/
def freeIx : M Nat := do
  let s ← get
  upd (.dev fun d => { d with freeIx := d.freeIx + 1 })
  return s.dev.freeIx

/-- Flags ORed into a context's FFLAGS (R55). -/
def Ctx.orFlags (vent : Bool) (c : Ctx) (fl : BitVec 5) : Ctx :=
  if fl = 0 then c
  else { c with csr := SMap.set (ctxCsrReset vent) c.csr cFFLAGS (c.csrGet vent cFFLAGS ||| fl.setWidth 64) }

def orFlags (id : Nat) (fl : BitVec 5) : M Unit := upd (.ctx id fun c => c.orFlags (isVent (coreOf id)) fl)

/-! ### Retirement (R39, R40) -/

/-- Every exposed load that has come due, or every one of them, written in program order (R39, R42). -/
def Ctx.land (c : Ctx) : List Pend → Ctx
  | [] => c
  | p :: ps => Ctx.land (c.wr p.rd p.val) ps

/-- All exposed loads completed (R42). -/
def Ctx.landAll (c : Ctx) : Ctx := { c.land c.pend with pend := [] }

/-- One instruction of the context has executed or been annulled: loads two instructions old land (R39). -/
def Ctx.tick (c : Ctx) : Ctx :=
  let ps := c.pend.map fun p => { p with left := p.left - 1 }
  { c.land (ps.filter fun p => p.left == 0) with pend := ps.filter fun p => p.left != 0 }

/-- One move of the program counter queue (R40): whether an annulled entry has reached pc, and the context after. -/
def Ctx.advance (c : Ctx) (n : Word) : Bool × Ctx :=
  (c.a1, { c with pc := c.q1, q1 := c.q2, q2 := n, a1 := c.a2, a2 := false })

/-- The annulled entries in front of the queue retired (R40); at most two annul bits are set. -/
def Ctx.skipAnnulled : Nat → Bool → Ctx → Ctx
  | 0, _, c => c
  | _, false, c => c
  | f + 1, true, c => let (a, c') := (c.advance (c.q2 + 4)); Ctx.skipAnnulled f a c'.tick

/-- How an instruction ends its step: a taken target, or an annulling branch that is not taken (R40); whether it advances TRC (R86);
whether it has made another original the oldest held one, from which dwell counts (R321). -/
structure Fin where
  target : Option Word := none
  annul : Bool := false
  trc : Bool := false
  entered : Bool := false
  deriving DecidableEq, Repr

/-- The step of R40 after an instruction, with the landing of loads (R39). The context is READY and waits on nothing; a reply
latched for a wait that a trap has interrupted stays (R449). -/
def Ctx.retire (f : Fin) (c : Ctx) : Ctx :=
  let n := f.target.getD (c.q2 + 4)
  let an := f.annul && f.target.isNone
  let c := { c with a1 := c.a1 || an, a2 := c.a2 || an, run := .ready, wait := none, pwait := false,
                    latch := if c.saved.any (fun w : Wait => w.cls == WaitClass.reply) then c.latch else none }
  let (a, c) := c.advance n
  Ctx.skipAnnulled 2 a c.tick

/-- The annulled entries one step retires, for the counts of R39 and R321. -/
def Ctx.annulled (f : Fin) (c : Ctx) : Nat :=
  let an := f.annul && f.target.isNone
  if c.a1 || an then (if c.a2 || an then 2 else 1) else 0

/-- The per-core side of a retirement: TRC (R86) and the dwell count of the rewrite window (R321). -/
def Core.retire (f : Fin) (steps : Nat) (control : Bool) (c : Core) : Core :=
  let c := if f.trc then c.csrBump cTRC (c.csrGet cTRC + 1) else c
  if control && c.win.any (fun e => e.st == .held) then { c with dwell := c.dwell + steps - f.entered.toNat } else c

/-- The requests of requesters that have finished or given up are forgotten; one that is not answered keeps its tag (R333). -/
def Dev.forget (f : Who → Bool) (d : Dev) : Dev :=
  { d with reqs := d.reqs.filterMap fun r =>
      if !f r.who || r.who == .left then some r else if r.ans.isSome || r.lost then none else some { r with who := .left } }

/-- The end of an instruction's step. -/
def retireM (f : Fin) : M Unit := do
  let s ← get
  let id := s.dev.cur
  upd (.core (coreOf id) (Core.retire f (1 + (s.ctx id).annulled f) (ctxOf id == 0)))
  upd (.dev fun d => { d.forget (· == .ctx id) with ord := 0 })
  upd (.ctx id (Ctx.retire f))

/-- The meaning of an instruction: its effect, then its retirement. -/
def instr (m : M Fin) (s : State) : Outcome :=
  .next (P.run s (m fun f => retireM f fun _ => .done) s)

/-- The meaning of an event: its effect alone. -/
def event (m : M Unit) (s : State) : Outcome :=
  .next (P.run s (m fun _ => .done) s)

/-! ### Partition geometry (R10, R22, R27) -/

/-- The torus node (x, y) of a cluster: bits [9:0] interleave y and x from y4 x4 down to y0 x0 (R10); and the die it lies on. -/
def clusterNode (c : Nat) : Nat × Nat :=
  let pick := fun (o : Nat) => ((List.range 5).map fun i => bitsOf c (2 * i + o) 1 * 2 ^ i).sum
  (pick 0, pick 1)
def clusterDie (c : Nat) : Nat := c / 256

/-- The stack and the die of a channel, and its number in the stack (R10). -/
def channelPlace (n : Nat) : Nat × Nat × Nat := (n / 96, n / 32 % 3, n % 32)

/-- The clusters and cores of a node that are present, ascending (R10, R19). -/
def State.clPresent (s : State) (k : Nat) : Bool := s.pres.clpres.getLsbD k
def State.nodeClusters (s : State) (p : Nat) : List Nat :=
  ((List.range (nodeSize p)).map (nodeFirst p + ·)).filter s.clPresent
def State.nodeCores (s : State) (p : Nat) : List Nat :=
  (s.nodeClusters p).flatMap fun k => [4 * k, 4 * k + 1, 4 * k + 2, 4 * k + 3]

/-- The first present cluster from `k` on, looking at `n` clusters. -/
def State.firstPresent (s : State) : Nat → Nat → Option Nat
  | _, 0 => none
  | k, n + 1 => if s.clPresent k then some k else State.firstPresent s (k + 1) n

/-- The service core of a partition: its lowest-numbered present compute core (R27). -/
def State.serviceCore (s : State) (p : Nat) : Option Nat :=
  (s.firstPresent (nodeFirst p) (nodeSize p)).map (4 * ·)

/-- The partition that covers a cluster (R23). -/
def State.partOfCluster (s : State) (k : Nat) : Option Nat :=
  (s.parts.find? fun e => nodeFirst e.1 ≤ k && k < nodeFirst e.1 + nodeSize e.1).map (·.1)

/-- The partition a core's contexts run in: that of its task, else the one that covers its cluster (R241). -/
def State.pnodeOf (s : State) (c : Nat) : Nat :=
  match (s.core c).task with
  | some t => t.pnode
  | none => if isVent c then 0 else (s.partOfCluster (c / 4)).getD 0

/-- The tenant a core's contexts run for. -/
def State.tenOf (s : State) (c : Nat) : Nat :=
  match (s.core c).task with
  | some t => t.ten
  | none => ((s.part (s.pnodeOf c)).ten).getD 0

/-- Whether a tenant is paused (R372). -/
def State.pausedTen (s : State) (t : Nat) : Bool := (s.vf t).paused

/-- The TASKID a message reports: that of the core's task, or 0 (R358). -/
def State.taskNo (s : State) (core : Nat) : Word := if (s.core core).task.isSome then (s.core core).csrGet cTASKID else 0

/-- Whether a context is the control context of the service core of the partition it runs for (R27, R237, R360). -/
def State.isService (s : State) (id : Nat) : Bool :=
  ctxOf id == 0 && s.serviceCore (s.pnodeOf (coreOf id)) == some (coreOf id)

/-- The CTXID value of a context (R162). -/
def State.ctxIdVal (s : State) (id : Nat) : Word :=
  BitVec.ofNat 64 (s.pres.pkg.toNat * 2 ^ 17 + ctxOf id * 2 ^ 13 + (if isVent (coreOf id) then 2 ^ 12 else 0)
    + (if isVent (coreOf id) then coreOf id - 4096 else coreOf id))

/-- The sender of a message posted on behalf of no context (R358). -/
def State.nobody (s : State) (core : Nat) : Word :=
  BitVec.ofNat 64 (s.pres.pkg.toNat * 2 ^ 17 + 15 * 2 ^ 13 + core % 4096)

/-- The number of contexts of a core (R36, R29). -/
def ctxCount (c : Nat) : Nat := if isVent c then 4 else 11

/-! ### Mailbox messages (R358) -/

/-- The fields of a mailbox message. -/
structure Mail where
  kind : MsgKind
  code : Nat := 0
  akind : Nat := 0
  tile : Bool := false
  rwr : Bool := false
  rule : Nat := 0
  taskid : Word := 0
  addr : Word := 0
  pc : Word := 0
  aux : Word := 0

def MsgKind.code : MsgKind → Nat
  | .translate => 1 | .permit => 2 | .migrating => 3 | .fault => 4 | .deadlock => 5 | .handler => 6

/-- The 32 bytes of a mailbox message (R358). -/
def Mail.bytes (m : Mail) : List Byte :=
  leBytes 32 (m.kind.code + m.code * 2 ^ 8 + m.rule * 2 ^ 22 + m.rwr.toNat * 2 ^ 27 + m.tile.toNat * 2 ^ 28
    + m.akind * 2 ^ 29 + m.taskid.toNat % 2 ^ 32 * 2 ^ 32 + m.addr.toNat * 2 ^ 64 + m.pc.toNat * 2 ^ 128
    + m.aux.toNat * 2 ^ 192)

/-- A message posted towards the mailbox of a partition's service core; it enters as MAILBOX_POST gives (R357). -/
def postMail (p : Nat) (sender : Word) (m : Mail) : M Unit :=
  upd (.part p fun q => { q with mbq := q.mbq ++ [⟨m.bytes, sender, []⟩] })

/-! ### Taking a cause (R42, R201, R356, R357, R360) -/

/-- What trap entry reports beyond the queue: the cause, its ISRC, XVAL, XPC0, and the tile fields of XSTAT (R200, R303). -/
structure TrapInfo where
  code : BitVec 8
  isrc : BitVec 4 := 0
  val : Word := 0
  xpc0 : Option Word := none
  rwr : Bool := false
  rule : Nat := 0
  trn : Nat := 0
  idle : Bool := false
  deriving DecidableEq, Repr

/-- XSTAT as trap entry writes it (R200). -/
def TrapInfo.xstat (i : TrapInfo) (c : Ctx) (pwait : Bool) : Word :=
  BitVec.ofNat 64 (c.a1.toNat + 2 * c.a2.toNat + 4 * c.sup.toNat + 8 * i.idle.toNat + 2 ^ 8 * i.rwr.toNat
    + 2 ^ 9 * i.rule + 2 ^ 14 * pwait.toNat + 2 ^ 15 * i.trn)

/-- Whether the parked instruction has acted and only waits (R449). -/
def Ctx.hasActed (c : Ctx) : Bool := match c.wait with | some w => w.acted.isSome | none => false

/-- The waits that stay noted when a context leaves one for a handler: an acted one, or one for a translation reply, before those noted
already (R449). An instruction that waits for a reply again replaces its own note. An acted one keeps the registers it is left with, by
which the restore of a context finds it again (R212). -/
def Ctx.noted (c : Ctx) : List Wait :=
  match c.wait with
  | some w =>
    if w.acted.isSome then { w with regs := c.landAll.x } :: c.saved
    else if w.cls == .reply then w :: c.saved.filter fun x => !(x.cls == .reply && x.pc == w.pc)
    else c.saved
  | none => c.saved

/-- A reply latched for a noted wait stays with that wait while another wait begins; a reply that no noted wait needs is discarded (R449). -/
def Ctx.tuck (c : Ctx) : Ctx :=
  let rec go (r : Reply) : List Wait → List Wait
    | [] => []
    | w :: ws => if w.cls == .reply then { w with got := some r } :: ws else w :: go r ws
  { c with latch := none, saved := match c.latch with | some r => go r c.saved | none => c.saved }

/-- A cause that waits in front of the next instruction is overtaken by another trap: it arises again after `xret`, but for that of a
removed vector instruction, which is kept for then (R297, R377; log 44). -/
def Ctx.overtaken (c : Ctx) : Ctx :=
  { c with due := none, later := match c.due with | some d => if d.vec then some d else c.later | none => c.later }

/-- The trap CSRs written and every pending exposed load completed (R42 steps 1 to 4, R201, R449). -/
def Ctx.writeTrap (vent : Bool) (i : TrapInfo) (c : Ctx) : Ctx :=
  let pw := c.hasActed
  let st := i.xstat c pw
  let set := fun (n : Nat) (v : Word) (c : Ctx) => c.csrSet vent n v
  { (set cXCAUSE (i.code.setWidth 64 ||| (i.isrc.setWidth 64 <<< 8)) (set cXVAL i.val
      (set cXPC0 (i.xpc0.getD c.pc) (set cXPC1 c.q1 (set cXPC2 c.q2 (set cXRESUME c.pc (set cXSTAT st c.overtaken.landAll))))))) with
    saved := c.noted }

/-- Supervisor mode with the queue at XTVEC and both annul bits clear (R42 step 5). -/
def Ctx.enterHandler (vent : Bool) (c : Ctx) : Ctx :=
  let t := c.csrGet vent cXTVEC
  { c.overtaken with sup := true, pc := t, q1 := t + 4, q2 := t + 8, a1 := false, a2 := false, run := .ready, wait := none,
                     pwait := false }

/-- Trap entry (R42). -/
def Ctx.trap (vent : Bool) (i : TrapInfo) (c : Ctx) : Ctx := (c.writeTrap vent i).enterHandler vent

/-- Whether a cause code is of the parking class (R425). -/
def parkingClass (code : BitVec 8) : Bool :=
  [0x07#8, 0x08#8, 0x0B#8, 0x0C#8, 0x0D#8, 0x13#8, 0x14#8, 0x15#8, 0x16#8, 0x17#8].contains code

/-- A cause delivered to a context, by its class (R356, R357, R360). The accesses an aborted instruction made are gone. -/
def deliver (id : Nat) (i : TrapInfo) (tile : Bool := false) : M Unit := do
  let s ← get
  let vent := isVent (coreOf id)
  let c := s.ctx id
  let park := !s.isService id && (parkingClass i.code || c.csrGet vent cXTVEC == 0)
  if park then do
    let q ← nextSeq
    let c' := c.writeTrap vent i
    upd (.ctx id fun c => { (c.writeTrap vent i).tuck with run := .parked, wait := some { cls := .fault, seq := q, acted := none, req := none } })
    postMail (s.pnodeOf (coreOf id)) (s.ctxIdVal id)
      { kind := if parkingClass i.code then .fault else .handler, code := i.code.toNat, tile := tile, rwr := i.rwr,
        rule := i.rule, taskid := s.taskNo (coreOf id), addr := i.val, pc := c'.csrGet vent cXPC0,
        aux := c'.csrGet vent cXPC1 }
  else upd (.ctx id (Ctx.trap vent i))
  upd (.dev fun d => { d.forget (· == .ctx id) with ord := 0 })

/-- Whether the window of a core holds a tile instruction that has not retired (R297). -/
def Core.tilesPending (c : Core) : Bool := !c.win.isEmpty

/-- The held entries committed (R321), the flush counted in RWSTAT.FLUSH or RWSTAT.DWELL (R323). -/
def Core.flush (dwell : Bool) (c : Core) : Core :=
  if c.win.any (fun e => e.st == .held) then
    let w := c.csrGet cRWSTAT
    let sh := if dwell then 16 else 0
    let n := (bitsOf w.toNat sh 16 + 1) % 2 ^ 16
    let w' := BitVec.ofNat 64 (w.toNat - bitsOf w.toNat sh 16 * 2 ^ sh + n * 2 ^ sh)
    { c.csrBump cRWSTAT w' with
      win := c.win.map fun e => if e.st == .held then { e with st := .committed } else e, dwell := 0 }
  else c

/-- Flush the rewrite window when the control context of a compute core meets a flush point (R321). -/
def flushWindow : M Unit := do
  let s ← get
  let id := s.dev.cur
  if ctxOf id == 0 && !isVent (coreOf id) && (s.core (coreOf id)).win.any (fun e => e.st == .held) then updMyCore (Core.flush false)
  else pure ()

/-- Wait until every tile instruction of the control context has retired: the window is flushed and the instruction is
tried again (R295, R297). -/
def drainTiles : M Unit := do
  let s ← get
  let id := s.dev.cur
  if ctxOf id == 0 && (s.core (coreOf id)).tilesPending then stop flushWindow else pure ()

/-- The executing context takes a cause: a wait its instruction was in has ended, but for a reply still to come (R449). -/
def takeCause (i : TrapInfo) : M Unit := do
  let id ← meId
  updMe fun c => { c with wait := c.wait.filter fun w => w.cls == .reply }
  deliver id i

/-- The executing instruction takes a cause: nothing of it remains (R426), earlier tile instructions finish first (R297). -/
def raiseInfo {α : Type} (i : TrapInfo) : M α := do
  drainTiles
  stop (takeCause i)

/-- A cause that leaves part of an effect (R427). -/
def raiseAfter {α : Type} (keep : M Unit) (code : BitVec 8) (val : Word) : M α := do
  drainTiles
  stop (do keep; takeCause { code := code, val := val })

/-- A cause with its XVAL (R425). -/
def raise {α : Type} (code : BitVec 8) (val : Word) : M α := raiseInfo { code := code, val := val }

/-- Names of the cause codes (R425). -/
def ILLEGAL_INSN : BitVec 8 := 0x01
def ILLEGAL_OPERAND : BitVec 8 := 0x02
def PRIVILEGE : BitVec 8 := 0x03
def MISALIGNED : BitVec 8 := 0x04
def LOCAL_GUARD : BitVec 8 := 0x05
def PEER_ABSENT : BitVec 8 := 0x06
def RANGE_LOCK : BitVec 8 := 0x07
def FORMAT_RESERVED : BitVec 8 := 0x08
def FORMAT_MALFORMED : BitVec 8 := 0x09
def SCALE_STEP : BitVec 8 := 0x0A
def VERSION : BitVec 8 := 0x0B
def RACE : BitVec 8 := 0x0C
def POISON : BitVec 8 := 0x0D
def BREAK : BitVec 8 := 0x0F
def ECALL : BitVec 8 := 0x10
def INTERRUPT : BitVec 8 := 0x11
def DEADLOCK : BitVec 8 := 0x12
def PORT : BitVec 8 := 0x13
def CALDERA_LOST : BitVec 8 := 0x14
def QUOTA : BitVec 8 := 0x15
def FUTURE_STALE : BitVec 8 := 0x16
def STASH : BitVec 8 := 0x17

/-- ILLEGAL_INSN of an instruction that its agent may not issue; XVAL is its word (R425, R428 step 2). -/
def illegal {α : Type} (w : Option IWord) : M α := raise ILLEGAL_INSN ((w.getD 0).setWidth 64)

/-! ### Parking (R37, R38, R449) -/

/-- The answers other packages have given to the executing instruction are forgotten. -/
def forgetMine : M Unit := do
  let id ← meId
  upd (.dev (Dev.forget (· == .ctx id)))

/-- The executing context parks on a wait, before its instruction has had any effect; parking flushes the window (R321). -/
def park {α : Type} (cls : WaitClass) (req : Option XReq := none) (post : M Unit := pure ()) : M α :=
  stop (do
    let q ← nextSeq
    let i := (← get).dev.ins
    flushWindow
    if cls = .link || cls = .version then pure () else forgetMine
    post
    updMe fun c => { c with run := .parked, wait := some { cls := cls, seq := q, acted := none, req := req, ins := i, pc := c.pc } })

/-- The executing context parks although its instruction has acted; what it has done stays (R449). -/
def parkActed {α : Type} (cls : WaitClass) (v : Nat) : M α := do
  let q ← nextSeq
  let i := (← get).dev.ins
  flushWindow
  updMe fun c => { c with run := .parked, wait := some { cls := cls, seq := q, acted := some v, req := none, ins := i, pc := c.pc } }
  halt

/-! ### Return from a trap (R203) and the actions of a reply (R359) -/

/-- The first noted wait that a test picks, and the others. -/
def takeWait (f : Wait → Bool) : List Wait → Option Wait × List Wait
  | [] => (none, [])
  | w :: ws => if f w then (some w, ws) else let (r, l) := takeWait f ws; (r, w :: l)

/-- The noted wait with which the instruction at `pc` goes on, and the others: an acted one of several is that whose registers the context
has again (R212; log 44). -/
def Ctx.notedWait (pw : Bool) (c : Ctx) : Option Wait × List Wait :=
  let at' := fun (w : Wait) => w.pc == c.pc && (if pw then w.acted.isSome else w.cls == .reply)
  if pw && c.saved.any fun w => at' w && w.regs == c.x then takeWait (fun w => at' w && w.regs == c.x) c.saved
  else takeWait at' c.saved

/-- The instruction at `pc` goes on (R449): with PWAIT its context waits on, as noted when it was interrupted; otherwise it executes
again, with its wait for a translation reply still noted and the reply latched for it. A PWAIT with no wait noted leaves nothing to wait
for. -/
def Ctx.goOn (pw : Bool) (q : Nat) (c : Ctx) : Ctx :=
  let (w, ws) := c.notedWait pw
  let c := { c with pwait := false, saved := ws }
  if pw then
    { c with run := .parked,
             wait := some (w.getD { cls := .version, seq := q, acted := some q, req := none, pc := c.pc }) }
  else
    { c with run := .ready, wait := w.map fun w => { w with got := none },
             latch := match w.bind (·.got) with | some r => some r | none => c.latch }

/-- The queue, annul bits and mode that `xret` restores from the trap CSRs (R203), and the wait it goes on with (R449). A vector cause
that the trap has overtaken is taken next. A context that goes to IDLE has an empty receive queue (R235); a helper goes to IDLE itself
(log 45). -/
def Ctx.resume (vent : Bool) (q : Nat) (c : Ctx) : Ctx :=
  let st := (c.csrGet vent cXSTAT).toNat
  let c := { c with sup := st.testBit 2, due := if c.due.isSome then c.due else c.later, later := none }
  if st.testBit 3 then { c with run := .idle, wait := none, pwait := false, recvq := [], spilled := 0 }
  else
    Ctx.goOn (st.testBit 14) q { c with
      pc := c.csrGet vent cXRESUME, q1 := c.csrGet vent cXPC1, q2 := c.csrGet vent cXPC2, a1 := st.testBit 0, a2 := st.testBit 1 }

/-- The replay entries that TRN and the TRB registers name, numbered from 8 times q on (R304, R305). -/
def Core.replays (c : Core) (q n : Nat) (sup : Bool) (xpc0 : Word) : List TEnt :=
  (List.range n).map fun m =>
    let lo := c.csrGet (cTRB + 2 * m)
    let o : TOp := ⟨lo.setWidth 32, c.csrGet (cTRB + 2 * m + 1), BitVec.ofNat 64 (lo.toNat / 2 ^ 32), xpc0, 8 * q + m⟩
    { op := o, origs := [o], count := 0, fresh := 0, rule := none, group := 0, sup := sup, st := .committed, replay := some xpc0 }

/-- A context resumes as `xret` would from its trap CSRs, replaying the tile buffer when TRN > 0 (R203, R305, R359). Tile instructions
the window still holds precede the replayed ones (log 43). A helper replays nothing and keeps its TRN (log 45). -/
def resumeTrap (id : Nat) : M Unit := do
  let s ← get
  let c := s.ctx id
  let vent := isVent (coreOf id)
  let trn := bitsOf (c.csrGet vent cXSTAT).toNat 15 5
  if trn > 0 && ctxOf id == 0 && !vent then do
    let n := if 16 < trn then 8 else trn / 2
    upd (.core (coreOf id) (Core.flush false))
    let q ← nextSeq
    upd (.core (coreOf id) fun k => { k with win := k.win ++ k.replays q n ((c.csrGet vent cXSTAT).getLsbD 2) (c.csrGet vent cXPC0) })
    upd (.ctx id fun c => c.csrBump vent cXSTAT (c.csrGet vent cXSTAT &&& ~~~(0x1F#64 <<< 15)))
  else pure ()
  let q ← nextSeq
  upd (.ctx id (Ctx.resume vent q))

/-! ### Ending contexts (R211, R235, R243) -/

/-- A context that becomes FREE or IDLE: its receive queue is emptied and its wait is over. An acted wait of a context that was stopped
or interrupted stays noted, for a context restored with the same values goes on with it (R212, R449). -/
def Ctx.ended (run : Run) (c : Ctx) : Ctx :=
  { c with run := run, wait := none, pwait := false, recvq := [], spilled := 0, latch := none, due := none, later := none,
           pend := [], sb := 0, held := none, ask := none }

/-- The control context's task ended at once, with every helper (R211). -/
def endTask (core : Nat) : M Unit := do
  let ids := (List.range (ctxCount core)).map (ctxId core)
  each (fun id => upd (.ctx id fun c =>
    if ctxOf id == 0 then Ctx.ended .idle c else if c.run == .free then c else Ctx.ended .free c)) ids
  upd (.core core fun k => { k with task := none, vq := [], dwell := 0,
                                    win := k.win.filter fun e => match e.st with | .started _ => true | _ => false })
  upd (.dev (Dev.forget fun w => match w with | .ctx id => coreOf id == core | .vec c => c == core | _ => false))

/-- A context ended as a `ctxwr` of its STATE ends it (R211, R359). -/
def endContext (id : Nat) : M Unit :=
  if ctxOf id == 0 then endTask (coreOf id)
  else do
    upd (.ctx id (Ctx.ended .free))
    upd (.core (coreOf id) fun k => { k with vq := k.vq.filter fun e => e.ctx != id })
    upd (.dev (Dev.forget (· == .ctx id)))

/-- Trap entry by a DELIVER reply: the cause and value the firmware chose; with XTVEC 0 it acts as END (R359). The entry waits, in
front of the instruction, for tile instructions that have not retired (R297). -/
def deliverReply (id : Nat) (code : BitVec 8) (val : Word) (already : Bool) : M Unit := do
  let s ← get
  let vent := isVent (coreOf id)
  if (s.ctx id).csrGet vent cXTVEC == 0 then endContext id
  else if already then
    upd (.ctx id fun c => ((c.csrSet vent cXCAUSE (code.setWidth 64)).csrSet vent cXVAL val).enterHandler vent)
  else if ctxOf id == 0 && (s.core (coreOf id)).tilesPending then
    upd (.ctx id fun c => { c.overtaken with run := .ready, wait := none, due := some { code := code, val := val, xpc0 := c.pc, reply := true } })
  else upd (.ctx id (Ctx.trap vent { code := code, val := val }))

/-- A reply acts on a context parked on a mailbox reply (R359). -/
def actReply (id : Nat) (fault : Bool) (r : Reply) : M Unit :=
  if r.action = 0 then
    if fault then resumeTrap id
    else upd (.ctx id fun c => { c with run := .ready, wait := none, latch := none })
  else if r.action = 1 then do
    upd (.ctx id fun c => { c with wait := none, latch := none })
    deliverReply id r.code r.value fault
  else endContext id

end Sys2Proof.Machine
end

