-- ==== Sys2Proof/Machine/Operands.lean ====
section
/-!
DEFINITION. Every operand form of the scalar and vector formats: scalar registers with the scoreboard and the poison marks, the
s2 operand, the constant table (R167 to R169), immediates (R165), and the CSRs by number (R160 to R162).
-/

namespace Sys2Proof.Machine

open M

/-- A register that a queued `vmvxs` has still to write is waited for (R275); a poisoned one is not read (R390). -/
def Ctx.busy (c : Ctx) (r : XReg) : Bool := r != 0 && c.sb.getLsbD r.toNat
def Ctx.bad (c : Ctx) (r : XReg) : Bool := r != 0 && c.xpois.getLsbD r.toNat

/-- A scalar register read as an operand. -/
def rx (r : XReg) : M Word := do
  let c ← me
  if c.busy r then stall
  else if c.bad r then raise POISON 0
  else return c.rd r

/-- The `vmvxs` of a context that are queued for a scalar register no longer come last: a later instruction writes it (R287). -/
def Core.overtake (ctx : Nat) (r : XReg) (d : Dest) (c : Core) : Core :=
  { c with vq := c.vq.map fun e => match e.instr with
      | .vmvxs _ rd _ => if e.ctx == ctx && rd == r && e.dest != .passed then { e with dest := d } else e
      | _ => e }

/-- A register written behind queued `vmvxs` that were to write it: the later write prevails, and the scoreboard releases it (R287;
DESIGN CHOICE, log 47). -/
def Ctx.wrOver (r : XReg) (v : Word) (c : Ctx) : Ctx := { c.wr r v with sb := c.sb &&& ~~~(1#32 <<< r.toNat) }

/-- A scalar register written at the end of an instruction (R187). -/
def wx (r : XReg) (v : Word) : M Unit := do
  let c ← me
  if c.busy r then do
    let id ← meId
    updMyCore (Core.overtake id r .passed)
    updMe (Ctx.wrOver r v)
  else updMe fun c => c.wr r v

/-- The integer view of a constant (R168). -/
def kInt (k : BitVec 6) : Word :=
  let n := k.toNat
  if n ≤ 16 then BitVec.ofNat 64 n
  else if n < 24 then [32#64, 64, 128, 256, 512, 1024, 4096].getD (n - 17) 0
  else if n < 32 then -([1#64, 2, 3, 4, 8, 16, 32, 64].getD (n - 24) 0)
  else if n < 48 then
    [0xFF#64, 0xFFFF, 0xFFFFFFFF, 0x7FFFFFFF, 0x80000000, 0xF, 0x1F, 0x3F, 0x7F, 0x3FF, 0xFFF, 0xFFFFF,
     0x8000000000000000, 0x7FFFFFFFFFFFFFFF, 0x5555555555555555, 0x0101010101010101].getD (n - 32) 0
  else BitVec.ofNat 64 (2 ^ (n - 32))

/-- The floating view of a constant, held as FP64 (R168, R169). -/
def kF64 (k : BitVec 6) : Nat :=
  let n := k.toNat
  if n < 32 then (fFP64.round .rne (exactInt (kInt k).toInt)).1
  else if n < 48 then (fFP64.round .rne (.rat false 1 1 (31 - (n : Int)))).1
  else
    [0x3FD5555555555555, 0x3FE5555555555555, 0x3FC5555555555555, 0x3FB999999999999A, 
     0x3F847AE147AE147B, 0x3F50624DD2F1A9FC, 0x400921FB54442D18, 0x401921FB54442D18, 
     0x3FF921FB54442D18, 0x3FD45F306DC9C883, 0x4005BF0A8B145769, 0x3FE62E42FEFA39EF, 
     0x3FF71547652B82FE, 0x3FF6A09E667F3BCD, 0x3FE6A09E667F3BCD, 0x4071126666666666].getD (n - 48) 0

/-- The floating view of a constant in a format: the FP64 value rounded with RNE, setting no flag (R169). -/
def kFloat (f : Fmt) (k : BitVec 6) : Nat :=
  if f = fFP64 then kF64 k else (f.round .rne (fFP64.val (kF64 k)).exact).1

/-- S2Value (R167). -/
def s2Val : S2 → M Word
  | .reg r => rx r
  | .con k => return kInt k

/-- S2Float in FP64 (R167, R255). -/
def s2F64 : S2 → M Word
  | .reg r => rx r
  | .con k => return BitVec.ofNat 64 (kF64 k)

/-- SExt of an immediate to 64 bits (R165). -/
def immS {n : Nat} (v : BitVec n) : Word := v.signExtend 64

/-- imm20 of the U format (R165). -/
def immU (v : BitVec 20) : Word := (v ++ 0#12).signExtend 64

/-- A branch or jump target: PC + 4 * offset (R165). -/
def target {n : Nat} (pc : Word) (off : BitVec n) : Word := pc + 4 * off.signExtend 64

/-! ### CSRs by number (R160 to R162) -/

inductive CsrClass where
  | user | guarded | supervisor | readOnly
  deriving DecidableEq, Repr

/-- The class of a listed CSR (R161). -/
def csrClass (n : Nat) : CsrClass :=
  if n < 0x400 then .user
  else if n < 0x800 then .guarded
  else if n < 0xC00 then .supervisor
  else .readOnly

/-- Whether a CSR is held per context (R161). -/
def csrPerCtx (n : Nat) : Bool :=
  n == 0x001 || n == 0x002 || (0x404 ≤ n && n ≤ 0x407) || (0x800 ≤ n && n ≤ 0x808) || n == 0xC00 || n == 0xC06

/-- The numbers that are reserved on a vent core (R161). -/
def csrVentReserved (n : Nat) : Bool :=
  (0x010 ≤ n && n ≤ 0x014) || n == 0x402 || (0x810 ≤ n && n ≤ 0x81F) || n == 0xC06 || n == 0xC07

/-- The bits of a CSR that a write changes (R55, R74, R83, R149 to R153, R162, R200, R299, R304). -/
def csrMask (n : Nat) : Word :=
  if n = 0x001 then 0x1F
  else if n = 0x002 then 0x3
  else if n = 0x004 then 0xF
  else if n = 0x005 then 0x3F
  else if n = 0x010 then 0xF
  else if n = 0x011 then 0x1FF_0003_FFE0
  else if n = 0x012 || n = 0x013 then 0x1FF
  else if n = 0x014 then 0x3
  else if n = 0x401 then 0x3
  else if n = 0x402 then 0xF
  else if n = 0x403 then 0x1_0FFF
  else if 0x404 ≤ n && n ≤ 0x407 then 0xF81F_FFFF_001F_FFFF
  else if n = 0x410 then 0xF_FFFF_FFFF_FF80
  else if n = 0x411 then 0xF_FFFF_FFFF_FFE0
  else if n = 0x412 then 0xF_FFFF_FFFF_FFC0
  else if n = 0x800 then 0xFFF
  else if n = 0x805 then 0xF_FF0F
  else if n = 0x807 then 0xFFFF_FFFF_FFFF_FFFC
  else 0xFFFF_FFFF_FFFF_FFFF

/-- A value written under a CSR's field map: RO and reserved bits keep what they held (R6, R160). -/
def csrMerge (n : Nat) (old v : Word) : Word := (old &&& ~~~csrMask n) ||| (v &&& csrMask n)

/-- The guest TIME of a tenant (R350). -/
def State.time (s : State) (t : Nat) : Word :=
  let v := s.vf t
  if v.paused then v.save else s.ref + v.toff

/-- The value of a CSR of a context (R161, R162); TIME, CYCLE and CTXID are computed. -/
def State.csr (s : State) (id n : Nat) : Word :=
  let vent := isVent (coreOf id)
  if n = 0xC00 then s.ctxIdVal id
  else if n = 0xC04 then s.time (s.tenOf (coreOf id))
  else if n = 0xC05 then s.cycle
  else if vent && n = 0x005 then 0
  else if csrPerCtx n then (s.ctx id).csrGet vent n
  else (s.core (coreOf id)).csrGet n

/-- Whether a CSR of a context is poisoned (R390). -/
def State.csrBad (s : State) (id n : Nat) : Bool :=
  if csrPerCtx n then (s.ctx id).cpois.contains n else (s.core (coreOf id)).cpois.contains n

/-- An instruction that reads a CSR for its own meaning takes POISON when the CSR is marked (R390). -/
def useCsr (n : Nat) : M Unit := do
  let s ← get
  if s.csrBad s.dev.cur n then raise POISON 0 else pure ()

/-- A CSR read by the machine for the executing context. -/
def csrOf (n : Nat) : M Word := do
  let s ← get
  return s.csr s.dev.cur n

/-- A CSR set whole for the executing context. -/
def setCsr (n : Nat) (v : Word) : M Unit := do
  let c ← meCore
  if csrPerCtx n then updMe fun x => x.csrSet (isVent c) n v
  else updMyCore fun k => k.csrSet n v

end Sys2Proof.Machine
end

