-- ==== Sys2Proof/Machine/Directory.lean ====
section
/-!
DEFINITION. The directory of a line (R79 to R82): its holders, the reductions they hold and their collection; and the counts of lines
that leave an L2 slice or a peer line cache (R89).
-/

namespace Sys2Proof.Machine

open M

/-! ### Reductions as arithmetic (R81, R82, R223) -/

/-- The low bytes of a result as the width has it. -/
def widthBits (w : Bool) : Nat := if w then 64 else 32
def widthBytes (w : Bool) : Nat := if w then 8 else 4
def redFmt (w : Bool) : Fmt := if w then fFP64 else fFP32

/-- One application of a reduction to a word of its width: `p` op `b`. -/
def RedTag.apply (t : RedTag) (p b : Nat) : Nat :=
  let n := widthBits t.w
  let sp := (BitVec.ofNat n p).toInt
  let sb := (BitVec.ofNat n b).toInt
  if t.kind = 0 then (p + b) % 2 ^ n
  else if t.kind = 1 then ((redFmt t.w).round .rne (FVal.add .rne ((redFmt t.w).val p) ((redFmt t.w).val b))).1
  else if t.kind = 2 then (if t.uns then (if b < p then b else p) else if sb < sp then b else p)
  else if t.kind = 3 then (if t.uns then (if p < b then b else p) else if sp < sb then b else p)
  else p ||| b

/-- The identity a partial starts at (R81). -/
def RedTag.ident (t : RedTag) : Nat :=
  let n := widthBits t.w
  if t.kind = 0 then 0
  else if t.kind = 1 then (redFmt t.w).zero true
  else if t.kind = 2 then (if t.uns then 2 ^ n - 1 else 2 ^ (n - 1) - 1)
  else if t.kind = 3 then (if t.uns then 0 else 2 ^ (n - 1))
  else 0

/-! ### Lines that leave an L2 slice or a peer line cache (R89) -/

/-- Fields of SLCTL and PLCCTL (R89). -/
def ctlMpthr (w : Word) : Nat := bitsOf w.toNat 48 16
def ctlDem (w : Word) : Nat := bitsOf w.toNat 44 4
def ctlNear (w : Word) : Nat := bitsOf w.toNat 40 4
def ctlOcc (w : Word) : Nat := bitsOf w.toNat 0 24

/-- A tenant's miss-predictions changed, and whether the slice is demoting it then: from MPTHR on, until they fall below MPTHR/2, taken
exactly (R89). -/
def Cache.setMpc (c : Cache) (ten n : Nat) : Cache :=
  let n := min n 0xFFFF
  let dem := if c.dem.contains ten then decide (ctlMpthr c.ctl ≤ 2 * n) else decide (ctlMpthr c.ctl ≤ n)
  { c with mpc := SMap.set (fun _ => 0) c.mpc ten n, dem := if dem then nsInsert ten c.dem else nsErase c.dem ten }

/-- The control register written: every tenant is judged by the new threshold (R89). -/
def Cache.setCtl (c : Cache) (w : Word) : Cache :=
  (List.range 64).foldl (fun c t => c.setMpc t (SMap.get (fun _ => 0) c.mpc t)) { c with ctl := w }

/-- A line leaves the cache: near codes count as miss-predictions against its tenant (R89). The code is the one the line was filled or
last hit with, as read while demoting (log 44). -/
def Cache.leave (c : Cache) (key : Nat) : Cache :=
  match SMap.find c.lines key with
  | none => c
  | some l =>
    let c := { c with lines := c.lines.erase key }
    if 1 ≤ l.code && l.code ≤ ctlNear c.ctl then c.setMpc l.ten (SMap.get (fun _ => 0) c.mpc l.ten + 1) else c

/-- Every line that a test picks leaves the cache, however it leaves (R89). -/
def Cache.leaveAll (p : CLine → Bool) (c : Cache) : Cache :=
  c.lines.foldl (fun c e => if p e.2 then c.leave e.1 else c) c

/-- A line that a slice holds has been written (R385). -/
def Cache.soil (tag : Nat) (c : Cache) : Cache :=
  { c with lines := c.lines.map fun e => if e.2.tag = tag then (e.1, { e.2 with dirty := true }) else e }

/-! ### The home of a line of HBM (R10, R20, R94) -/

/-- The present channels of a die, ascending (R10, R19). -/
def State.dieChannels (s : State) (die : Nat) : List Nat :=
  ((List.range 96).map (96 * die + ·)).filter fun n => s.pres.chpres.getLsbD n

/-- The die of a block of HBM, and whether the die has it: each present channel holds 2 GiB, that is 64 blocks (R20; log 12). -/
def blockDie (b : Nat) : Nat := b / 6144
def State.blockPresent (s : State) (b : Nat) : Bool := decide (b % 6144 < 64 * (s.dieChannels (blockDie b)).length)

/-- The channel that homes a line of HBM: one of the present channels of its die, by the die's hash (R20, R94). -/
def State.channel (s : State) (phys : Nat) : Nat :=
  let die := blockDie (phys / 2 ^ 25)
  let cs := s.dieChannels die
  (cs[Config.channelHash die s.pres.chpres (phys % 2 ^ 25 / 64) % cs.length]?).getD (96 * die)

/-- The slice of a line of HBM takes what a holder has written. -/
def soilHome (line : Nat) : M Unit := do
  let s ← get
  if line * 64 < 2 ^ 60 then upd (.cache (s.channel (line * 64)) (Cache.soil line)) else pure ()

/-! ### The directory (R79 to R82) -/

/-- Holder ids of R79. -/
def State.coreHolder (s : State) (core : Nat) : Nat := s.pres.pkg.toNat * 8192 + core
def State.plcHolder (s : State) (die : Nat) : Nat := s.pres.pkg.toNat * 8192 + 4096 + die
def State.isOwn (s : State) (h : Nat) : Bool := h / 8192 == s.pres.pkg.toNat

/-- The holders of a line, by its number; and a change of them. -/
def State.holders (s : State) (line : Nat) : List (Nat × LSt) := SMap.get (fun _ => []) s.dev.dir line

def setHolders (line : Nat) (f : List (Nat × LSt) → List (Nat × LSt)) : M Unit :=
  upd (.dev fun d => { d with dir := SMap.set (fun _ => []) d.dir line (f (SMap.get (fun _ => []) d.dir line)) })

def State.stateIn (s : State) (line h : Nat) : Option LSt := SMap.find (s.holders line) h

/-- A holder's state of a line; none is state I. -/
def setHolder (line h : Nat) (st : Option LSt) : M Unit :=
  setHolders line fun m => match st with | some x => SMap.put m h x | none => SMap.erase m h

/-- The copies a holder of this package has of a line are gone: L1 lines, stash sectors, a PLC line. -/
def dropCopies (h line : Nat) : M Unit := do
  let s ← get
  if !s.isOwn h then pure ()
  else if h % 8192 < 4096 then upd (.core (h % 8192) fun c =>
    { c with l1 := c.l1.filter fun e => e.2.loc / 64 != line, sect := c.sect.filter fun e => e.2.loc / 64 != line })
  else upd (.cache (384 + (h % 8192 - 4096)) (Cache.leaveAll fun l => l.tag == line))

/-- A line taken from a holder, its partials combined into the home value when it held any (R82). -/
def combine1 (loc : Nat) (p : Partial) : M Unit := do
  let s ← get
  let n := widthBytes p.tag.w
  let a := loc + p.off
  let bad := p.pois || s.poisoned a n
  upd (.poke a (leBytes n (p.tag.apply (s.peek a n) p.val.toNat)))
  if bad then upd (.poison a) else pure ()

/-- One holder leaves a line: early for a U copy (R82), without effect on values otherwise. -/
def leaveLine (h line : Nat) : M Unit := do
  let s ← get
  match s.stateIn line h with
  | some (.u ps) => do
    each (combine1 (line * 64)) ps
    soilHome line
  | some .m => soilHome line
  | _ => pure ()
  dropCopies h line
  setHolder line h none

/-- Collect (R82): word by word, the holders in ascending id; then every U holder is in I. -/
def collect (line : Nat) : M Unit := do
  let s ← get
  let us := (s.holders line).filterMap fun e => match e.2 with | .u ps => some (e.1, ps) | _ => none
  each (fun w => each (fun (e : Nat × List Partial) =>
    each (combine1 (line * 64)) (e.2.filter fun p => p.off / 8 == w)) us) (List.range 8)
  if us.isEmpty then pure () else soilHome line
  each (fun (e : Nat × List Partial) => do dropCopies e.1 line; setHolder line e.1 none) us

def State.hasU (s : State) (line : Nat) : Bool :=
  (s.holders line).any fun e => match e.2 with | .u _ => true | _ => false

end Sys2Proof.Machine
end

