-- ==== Sys2Proof/Machine/Xlate.lean ====
section
/-!
DEFINITION. Translation (R90 to R94, R381, R383): page-table walks, the translation caches of the network interfaces, the
requests a context makes of its service core (R93, R359, R449), and the resolution of caldera addresses (R97, R339).
-/

namespace Sys2Proof.Machine

open M

/-- Access kinds of R358, in the order of their AKIND codes. -/
inductive AKind where
  | load | store | fetch | amo | red | vread | vwrite | place
  deriving DecidableEq, Repr

def AKind.code : AKind → Nat
  | .load => 0 | .store => 1 | .fetch => 2 | .amo => 3 | .red => 4 | .vread => 5 | .vwrite => 6 | .place => 7

/-- Fields of a leaf entry (R90). -/
def lfV (l : Word) : Bool := l.getLsbD 0
def lfR (l : Word) : Bool := l.getLsbD 1
def lfW (l : Word) : Bool := l.getLsbD 2
def lfX (l : Word) : Bool := l.getLsbD 3
def lfU (l : Word) : Bool := l.getLsbD 4
def lfCM (l : Word) : Bool := l.getLsbD 5
def lfVER (l : Word) : Bool := l.getLsbD 6
def lfRD (l : Word) : Bool := l.getLsbD 7
def lfRAP (l : Word) : Bool := l.getLsbD 8
def lfMIG (l : Word) : Bool := l.getLsbD 9
def lfAPT (l : Word) : Nat := bitsOf l.toNat 10 2
def lfPKG (l : Word) : Nat := bitsOf l.toNat 12 4
def lfSZ (l : Word) : Nat := bitsOf l.toNat 16 2
def lfFRAME (l : Word) : Nat := bitsOf l.toNat 19 29

/-- Log of the page size a leaf at a level maps, and of the range that its own entry serves: companion entries are not compared, so each
address translates by its own entry (R90, R381). -/
def lfLog (l : Word) : Nat := if lfSZ l = 2 then 31 else if lfSZ l = 1 then 25 else 19
def entLog (l : Word) : Nat := if lfSZ l = 2 then 30 else 19

/-- Whether two addresses lie in one page of a leaf. -/
def samePage (l : Word) (a b : Nat) : Bool := a / 2 ^ lfLog l == b / 2 ^ lfLog l

/-- Whether a leaf at a level keeps R90 and R91 (R381). -/
def leafOk (level : Nat) (l : Word) : Bool :=
  let sz := lfSZ l
  let apt := lfAPT l
  bitsOf l.toNat 48 16 == 0 && !l.getLsbD 18 &&
  ((level == 2 && sz == 2) || (level == 3 && (sz == 0 || sz == 1))) &&
  !(lfCM l && (apt == 2 || apt == 3)) && !(lfVER l && (apt == 1 || apt == 3)) &&
  lfFRAME l % 2 ^ (lfLog l - 19) == 0 && (apt == 1 || lfPKG l == 0)

/-- Whether an entry points to a next-level table, and whether it may. -/
def isPointer (e : Word) : Bool := lfV e && !lfR e && !lfW e && !lfX e
def pointerOk (e : Word) : Bool := bitsOf e.toNat 48 16 == 0 && !e.getLsbD 18 && lfSZ e != 3 && (lfAPT e == 1 || lfPKG e == 0)

/-- The physical HBM address of a guest-physical address of a tenant (R94); none is a stage-2 miss. -/
def State.stage2 (s : State) (t gpa : Nat) : Option Nat :=
  (SMap.find (s.vf t).s2 (gpa / 2 ^ 25)).map fun b => b * 2 ^ 25 + gpa % 2 ^ 25

/-- What a walk finds. -/
inductive Walk where
  | leaf (l : Word)
  | absent (e : Word)
  | poison
  | miss (gpa : Nat)
  deriving DecidableEq, Repr

/-- A walk from a level's table on: 1 at the root, 3 the last (R90). -/
def State.walkFrom (s : State) (t va : Nat) : Nat → Nat → Nat → Walk
  | 0, _, _ => .absent 0
  | fuel + 1, level, table =>
    let g := table + 8 * bitsOf va (63 - 11 * (level + 1)) 11
    match s.stage2 t g with
    | none => .miss g
    | some a =>
      if s.poisoned (Space.hbm.loc a) 8 then .poison
      else
        let e := BitVec.ofNat 64 (s.peek (Space.hbm.loc a) 8)
        if !lfV e then .absent 0
        else if isPointer e then
          if level < 3 && pointerOk e then State.walkFrom s t va fuel (level + 1) (lfFRAME e * 2 ^ 19) else .absent e
        else if leafOk level e then .leaf e else .absent e

/-- The entries on the path of a walk collected, for a walk reads them (R82). -/
def readyWalkFrom (t va : Nat) : Nat → Nat → Nat → M Unit
  | 0, _, _ => pure ()
  | fuel + 1, level, table => do
    let s ← get
    match s.stage2 t (table + 8 * bitsOf va (63 - 11 * (level + 1)) 11) with
    | none => pure ()
    | some a => do
      if s.hasU (Space.hbm.loc a / 64) then collect (Space.hbm.loc a / 64) else pure ()
      let s ← get
      let e := BitVec.ofNat 64 (s.peek (Space.hbm.loc a) 8)
      if lfV e && isPointer e && pointerOk e && decide (level < 3) then readyWalkFrom t va fuel (level + 1) (lfFRAME e * 2 ^ 19) else pure ()

/-- The key of an address space (R78). -/
def asidKey (t p : Nat) : Nat := t * 2048 + p

/-- The walk of a virtual address in an address space; without a root nothing is mapped. -/
def State.walk (s : State) (t p va : Nat) : Walk :=
  match SMap.find s.dev.roots (asidKey t p) with
  | none => .absent 0
  | some r => s.walkFrom t va 3 1 r

/-- The die of a core (R10). -/
def dieOf (c : Nat) : Nat := if isVent c then (c - 4096) / 96 else c / 1024

/-- The placement-map entry that governs an address (R92). -/
def placement (m : List (BitVec 128)) (va : Nat) : Option (BitVec 128) :=
  m.find? fun e => e.getLsbD 0 && bitsOf e.toNat 62 27 ≤ bitsOf va 25 27 && bitsOf va 25 27 < bitsOf e.toNat 89 27

/-- The network interface that translates an address for a core: dies 0 to 3, caldera dies 4 and 5, and the route to
package p by caldera die k 8 + 2 p + k (R92, R93). DESIGN CHOICE (log 47): an enabled entry of KIND 3, to which the spec gives no effect,
leaves the translation to the core's own die, as if no entry covered the address; so does the map of a vent core, which no launch loads
(R139) and which is always empty. -/
def interfaceOf (m : List (BitVec 128)) (core va : Nat) : Nat :=
  match placement m va with
  | none => dieOf core
  | some e =>
    let k := bitsOf e.toNat 1 2
    let ca := bitsOf e.toNat 5 1
    if k = 0 then bitsOf e.toNat 3 2
    else if k = 1 then 4 + ca
    else if k = 2 then 8 + 2 * bitsOf e.toNat 8 4 + ca
    else dieOf core

/-- The cached translation of an interface for an address. -/
def State.cached (s : State) (ni t p va : Nat) : Option TlbEnt :=
  s.dev.tlb.find? fun e => e.ni == ni && e.ten == t && e.pnode == p && va / 2 ^ e.lg == e.va

/-- Whether a cached translation is of the page that contains an address (R207). -/
def TlbEnt.inPage (e : TlbEnt) (va : Nat) : Bool := samePage e.leaf (e.va * 2 ^ e.lg) va

/-- Whether a leaf gives the permission an access needs (R90, R222). -/
def permits (k : AKind) (user : Bool) (l : Word) : Bool :=
  (!user || lfU l) &&
  match k with
  | .load | .vread => lfR l
  | .store | .vwrite => lfW l
  | .fetch => lfX l
  | .amo | .red => lfR l && lfW l
  | .place => true

/-- The request a leaf that translates still calls for: MIGRATING before PERMIT (R91, R310). -/
def holdUp (k : AKind) (l : Word) : Option MsgKind :=
  match k with
  | .store | .vwrite => if lfMIG l then some .migrating else none
  | .amo | .red =>
    if lfMIG l then some .migrating
    else if lfAPT l == 1 && !lfRAP l then some .permit
    else none
  | _ => none

/-- What a translation answers: a leaf, a request with the entry found, or a failure. -/
inductive XRes where
  | ok (leaf : Word)
  | need (kind : MsgKind) (aux : Word)
  | poison
  | miss (gpa : Nat)
  deriving DecidableEq, Repr

/-- How a leaf serves an access. -/
def judge (k : AKind) (user : Bool) (l : Word) : XRes :=
  if !permits k user l then .need .translate l
  else match holdUp k l with
    | some m => .need m l
    | none => .ok l

/-- Stage 1 of an access of a core in an address space (R93): the cached leaf when it serves, else the walk. -/
def State.stage1 (s : State) (core t p va : Nat) (k : AKind) (user : Bool) : XRes :=
  let ni := interfaceOf (s.core core).pmap core va
  let walk := match s.walk t p va with
    | .leaf l => judge k user l
    | .absent e => .need .translate e
    | .poison => .poison
    | .miss g => .miss g
  match s.cached ni t p va with
  | some e => match judge k user e.leaf with
    | .ok l => .ok l
    | _ => walk
  | none => walk

/-- What a walk for an access reads made ready, when the interface's cached leaf does not serve (R82, R93). -/
def readyWalk (core t p va : Nat) (k : AKind) (user : Bool) : M Unit := do
  let s ← get
  let served := match s.cached (interfaceOf (s.core core).pmap core va) t p va with
    | some e => (match judge k user e.leaf with | .ok _ => true | _ => false)
    | none => false
  match served, SMap.find s.dev.roots (asidKey t p) with
  | false, some r => readyWalkFrom t va 3 1 r
  | _, _ => pure ()

/-- The interface keeps the translation. -/
def keepLeaf (core t p va : Nat) (l : Word) : M Unit := do
  let s ← get
  let ni := interfaceOf (s.core core).pmap core va
  let lg := entLog l
  let e : TlbEnt := ⟨ni, t, p, va / 2 ^ lg, lg, l⟩
  if s.dev.tlb.contains e then pure ()
  else upd (.dev fun d => { d with tlb := e :: d.tlb.filter fun x =>
    !(x.ni == ni && x.ten == t && x.pnode == p && va / 2 ^ x.lg == x.va) })

/-- MSI-X vector v of a function is signalled (R347); 64 is the physical function. A vector beyond the table sends nothing, and one
that its Mask bit or the Function Mask bit masks becomes pending. -/
def sendMsix (fn v : Nat) : M Unit := do
  let s ← get
  if (s.vf fn).msix ≤ v then pure ()
  else if (s.vf fn).unmasked.contains v && !(s.vf fn).fmask then upd (.dev fun d => { d with out := d.out ++ [.msix fn v] })
  else upd (.vf fn fun f => { f with pending := nsInsert v f.pending })

/-- The Mask bit of a vector written; a vector that was pending is sent once it is unmasked (R347). -/
def maskVector (fn v : Nat) (mask : Bool) : M Unit := do
  let s ← get
  let f := s.vf fn
  if f.msix ≤ v then pure ()
  else do
    upd (.vf fn fun f => { f with unmasked := if mask then nsErase f.unmasked v else nsInsert v f.unmasked })
    if !mask && !f.fmask && f.pending.contains v then do
      upd (.vf fn fun f => { f with pending := nsErase f.pending v })
      sendMsix fn v
    else pure ()

/-- The Function Mask bit written: once it is clear, every pending vector whose own Mask bit is clear is sent, in ascending order (R347). -/
def maskFunction (fn : Nat) (mask : Bool) : M Unit := do
  upd (.vf fn fun f => { f with fmask := mask })
  let s ← get
  let f := s.vf fn
  if mask then pure ()
  else each (fun v => do
    upd (.vf fn fun f => { f with pending := nsErase f.pending v })
    sendMsix fn v) (f.pending.filter f.unmasked.contains)

/-- A stage-2 miss recorded and signalled (R383, R400); the record holds while V is 1. -/
def noteMiss (t gpa : Nat) : M Unit := do
  upd (.dev fun d => { d with s2fault := some (d.s2fault.getD (t, gpa)) })
  sendMsix 64 1

/-- A stage-2 miss at which an access waits, recorded and signalled unless it has been since its block was last mapped. -/
def noteOnce (t gpa : Nat) : M Unit := do
  let s ← get
  if s.dev.stalls.contains (t, gpa) then pure ()
  else do
    upd (.dev fun d => { d with stalls := d.stalls ++ [(t, gpa)] })
    noteMiss t gpa

/-- The misses of a tenant that a test picks are forgotten: their block is mapped, or what waited there is gone. -/
def forgetStalls (t : Nat) (f : Nat → Bool) : M Unit :=
  upd (.dev fun d => { d with stalls := d.stalls.filter fun e => !(e.1 == t && f e.2) })

/-- An access on behalf of no context waits at a stage-2 miss; the miss is recorded and signalled once (R383; log 44). -/
def noteStall {α : Type} (t gpa : Nat) : M α := stop (noteOnce t gpa)

/-- The executing context takes POISON at a stage-2 miss (R383); the controller's record stays. -/
def raiseMiss {α : Type} (t gpa : Nat) (va : Word) : M α := raiseAfter (noteMiss t gpa) POISON va

/-- A translation request of the executing context (R93, R359, R360, R449): a reply latched for the same request is taken,
an outstanding one is waited for, and otherwise the message is posted. -/
def request {α : Type} (kind : MsgKind) (k : AKind) (va aux : Word) : M α := do
  let s ← get
  let id := s.dev.cur
  let c := s.ctx id
  let core := coreOf id
  let req : XReq := ⟨kind, va, BitVec.ofNat 3 k.code⟩
  let post : M Unit := postMail (s.pnodeOf core) (s.ctxIdVal id)
    { kind := kind, akind := k.code, taskid := s.taskNo core, addr := va, pc := c.pc, aux := aux }
  let same := match c.wait with | some w => w.cls == .reply && w.req == some req | none => false
  let waited := c.wait.any fun w => w.cls == .reply
  let fresh : M Unit := do
    updMe fun c => if waited = true then { c with latch := none } else c.tuck
    post
  match same, c.latch with
  | true, some r =>
    if r.action = 0 then park .reply (some req) (do updMe fun c => { c with latch := none }; post)
    else stop (do
      flushWindow
      updMe fun c => { c with latch := none }
      actReply id false r)
  | true, none => park .reply (some req)
  | false, _ => park .reply (some req) fresh

/-- The leaf for an access of the executing context; the cached copy is kept in its interface. -/
def xlate (k : AKind) (va : Word) : M Word := do
  let s ← get
  let id := s.dev.cur
  let core := coreOf id
  let t := s.tenOf core
  let p := s.pnodeOf core
  readyWalk core t p va.toNat k (!(s.ctx id).sup)
  let s ← get
  match s.stage1 core t p va.toNat k (!(s.ctx id).sup) with
  | .ok l => do keepLeaf core t p va.toNat l; return l
  | .need kind aux => request kind k va aux
  | .poison => raise POISON va
  | .miss g => raiseMiss t g va

/-- The offset of an address within the whole space its leaf maps: GPA, or window offset for APT 2. -/
def gpaOf (l : Word) (va : Nat) : Nat := lfFRAME l * 2 ^ 19 + va % 2 ^ lfLog l

/-- Where an access goes (R73, R91, R97). `cal` is a bank of the package or of another; a versioned granule or page is marked. -/
inductive Tgt where
  | lm (core off : Nat)
  | event (off : Nat)
  | device (off : Nat)
  | hbm (phys : Nat)
  | host (ten addr : Nat)
  | peer (pkg gpa : Nat)
  | cal (pkg : Nat) (ca : Bool) (off : Nat)
  deriving DecidableEq, Repr

/-- A resolved access: where it goes, the leaf that resolved it (0 without translation), whether its word is versioned,
and whether it goes through a stash frame or an L1 line. -/
structure Acc where
  va : Word
  tgt : Tgt
  leaf : Word
  ver : Bool
  deriving DecidableEq, Repr

/-- Whether caldera memory named by package and die is a die of this package that answers (R417). -/
def State.calHere (s : State) (pkg : Nat) (ca : Bool) : Bool := pkg == s.pres.pkg.toNat && !(s.cal ca).lost

/-- The location of a target's first byte; none for registers, for memory of another package and for a lost die. -/
def State.locOf (s : State) : Tgt → Option Nat
  | .lm c o => some ((Space.lm c).loc o)
  | .hbm a => some (Space.hbm.loc a)
  | .host t a => some ((Space.host t).loc a)
  | .cal p ca o => if s.calHere p ca then some ((Space.cal ca).loc o) else none
  | .peer .. | .event _ | .device _ => none

/-- Fields of a caldera window offset (R97). -/
def calPkg (o : Nat) : Nat := bitsOf o 36 4
def calCa (o : Nat) : Bool := bitsOf o 35 1 == 1
def calOk (o : Nat) : Bool := bitsOf o 31 4 == 0 && o < 2 ^ 40
def calOff (o : Nat) : Nat := o % 2 ^ 31

/-- Whether a caldera die of a package of the group no longer answers: lost, or its package lost or gone (R412, R414, R417). -/
def State.calLost (s : State) (pkg : Nat) (ca : Bool) : Bool :=
  if pkg = s.pres.pkg.toNat then (s.cal ca).lost
  else
    let q := SMap.get (fun _ => Peer.reset) s.dev.peers pkg
    decide (pkg < s.pres.group) && (q.lost || (ca && q.ca1))

/-- A caldera access judged: the target and whether its granule is versioned, or the cause (R97, R381). The granule of another package is
checked there, for a tenant; no granule is the physical function's. A die that is lost has none: its CALDERA_LOST comes when the access is
made, after every address step (R418, R428). -/
def State.caldera (s : State) (t o : Nat) : Except (BitVec 8) (Tgt × Bool) :=
  if !calOk o || s.pres.group ≤ calPkg o || 64 ≤ t then .error ILLEGAL_OPERAND
  else if s.calLost (calPkg o) (calCa o) then .ok (.cal (calPkg o) (calCa o) (calOff o), false)
  else if calPkg o = s.pres.pkg.toNat then
    match SMap.find (s.cal (calCa o)).gran (calOff o / 65536) with
    | some g =>
      if g.ten = t && !s.dev.scrubs.any (fun x => match x.of with
          | .gran ca g => ca == calCa o && g == calOff o / 65536
          | .block _ => false) then .ok (.cal (calPkg o) (calCa o) (calOff o), g.vers)
      else .error ILLEGAL_OPERAND
    | none => .error ILLEGAL_OPERAND
  else .ok (.cal (calPkg o) (calCa o) (calOff o), false)

/-- The target of a translated access, or the cause; none is a stage-2 miss at that GPA. -/
def State.route (s : State) (t : Nat) (l : Word) (va : Nat) : Except (BitVec 8 × Option Nat) (Tgt × Bool) :=
  let g := gpaOf l va
  match lfAPT l with
  | 0 => match s.stage2 t g with
    | some a => .ok (.hbm a, lfVER l)
    | none => .error (POISON, some g)
  | 1 => .ok (.peer (lfPKG l) g, false)
  | 2 => match s.caldera t g with
    | .ok (x, v) => .ok (x, v || lfVER l)
    | .error e => .error (e, none)
  | _ => .ok (.host t g, false)

/-- The caldera window (R97) and the global window (R73). -/
def inCaldera (va : Nat) : Bool := va / 2 ^ 40 == 0xFFF
def inGlobal (va : Nat) : Bool := va < 2 ^ 52

end Sys2Proof.Machine
end

