-- ==== Sys2Proof/Machine/Fabric.lean ====
section
/-!
DEFINITION. Requests to other packages: packets and their ports (R333 to R337), outstanding requests by tag, and the payloads of
far atomics and caldera accesses, whose layout the spec leaves open (log 12). The answer to an access of an instruction is
awaited with the instruction parked; it then executes again and finds the answer.
-/

namespace Sys2Proof.Machine

open M

/-- What a far atomic or a caldera access asks for, the die of the agent that asks, and whether the leaf that resolved the access makes its
words versioned (R91; log 12). -/
structure ROp where
  op : Nat
  sub : Nat := 0
  w : Bool := false
  uns : Bool := false
  len : Nat := 0
  a : Word := 0
  b : Word := 0
  data : List Byte := []
  die : Nat := 0
  ver : Bool := false
  deriving DecidableEq, Repr

def roRead : Nat := 0
def roWrite : Nat := 1
def roAmo : Nat := 2
def roRed : Nat := 3
def roLdv : Nat := 4
def roStv : Nat := 5
def roRclm : Nat := 6
def roCheck : Nat := 7
def roAlloc : Nat := 8
def roFree : Nat := 9
def roQuery : Nat := 10
def roPub : Nat := 11
def roFreeAll : Nat := 12

/-- Bytes filled with zeros to whole 32-byte beats. -/
def toBeats (bs : List Byte) : List Byte := bs ++ List.replicate ((32 - bs.length % 32) % 32) 0

/-- A request's payload: one beat of fields, then data. -/
def ROp.bytes (r : ROp) : List Byte :=
  leBytes 8 (r.op + 2 ^ 8 * r.sub + 2 ^ 16 * r.w.toNat + 2 ^ 17 * r.uns.toNat + 2 ^ 18 * r.die + 2 ^ 20 * r.ver.toNat + 2 ^ 32 * r.len) ++
    leBytes 8 r.a.toNat ++ leBytes 8 r.b.toNat ++ leBytes 8 0 ++ toBeats r.data

def ROp.parse (bs : List Byte) : ROp :=
  let h := leNat (bs.take 8)
  let len := bitsOf h 32 32
  { op := bitsOf h 0 8, sub := bitsOf h 8 8, w := h.testBit 16, uns := h.testBit 17, len := len, die := bitsOf h 18 2, ver := h.testBit 20,
    a := BitVec.ofNat 64 (leNat ((bs.drop 8).take 8)), b := BitVec.ofNat 64 (leNat ((bs.drop 16).take 8)),
    data := (bs.drop 32).take len }

/-- An answer: 0 or a cause code, flags, a value, data. -/
structure RAns where
  status : BitVec 8 := 0
  flags : BitVec 8 := 0
  value : Word := 0
  data : List Byte := []
  deriving DecidableEq, Repr

def RAns.bytes (r : RAns) : List Byte :=
  leBytes 8 (r.status.toNat + 2 ^ 8 * r.flags.toNat) ++ leBytes 8 r.value.toNat ++ leBytes 16 0 ++ toBeats r.data

def RAns.parse (bs : List Byte) : RAns :=
  { status := BitVec.ofNat 8 (leNat (bs.take 1)), flags := BitVec.ofNat 8 (leNat ((bs.drop 1).take 1)),
    value := BitVec.ofNat 64 (leNat ((bs.drop 8).take 8)), data := bs.drop 32 }

/-- The state of a Jalic port and of a peer. -/
def State.link (s : State) (i : Nat) : Jalic := SMap.get (fun _ => Jalic.reset) s.dev.links i
def State.peer (s : State) (p : Nat) : Peer := SMap.get (fun _ => Peer.reset) s.dev.peers p

def updLink (i : Nat) (f : Jalic → Jalic) : M Unit :=
  upd (.dev fun d => { d with links := SMap.set (fun _ => Jalic.reset) d.links i (f (SMap.get (fun _ => Jalic.reset) d.links i)) })

def updPeer (p : Nat) (f : Peer → Peer) : M Unit :=
  upd (.dev fun d => { d with peers := SMap.set (fun _ => Peer.reset) d.peers p (f (SMap.get (fun _ => Peer.reset) d.peers p)) })

/-- The ports that a caldera die bonds to a peer, ascending (R17, R337); a package outside the group, or this one, has none. -/
def bondedPorts (v : Presence) (ca : Bool) (pkg : Nat) : List Nat :=
  if v.group ≤ pkg || pkg == v.pkg.toNat then []
  else
    let b := 18 / (v.group - 1)
    let q := if pkg < v.pkg.toNat then pkg else pkg - 1
    (List.range b).map fun k => (if ca then 18 else 0) + q * b + k

/-- Whether a port serves a peer; a port left over serves none and stays idle (R17). -/
def portServes (v : Presence) (i pkg : Nat) : Bool := (bondedPorts v (decide (18 ≤ i)) pkg).contains i

/-- The ports of a caldera die that serve a peer and are in service, ascending (R17, R337, R410). -/
def State.portsTo (s : State) (ca : Bool) (pkg : Nat) : List Nat :=
  (bondedPorts s.pres ca pkg).filter fun i => s.pres.lkpres.getLsbD i && (s.link i).up && !(s.link i).down

/-- Whether no port of either caldera die reaches a package (R412). -/
def State.unreachable (s : State) (pkg : Nat) : Bool := (s.portsTo false pkg).isEmpty && (s.portsTo true pkg).isEmpty

/-- The other packages of the group. -/
def State.peers (s : State) : List Nat := (List.range s.pres.group).filter fun q => q != s.pres.pkg.toNat

/-- The port of a packet: its die's own survivors first, else the other die's (R20, R337, R410). -/
def State.portFor (s : State) (ca : Bool) (p : Packet) : Option Nat :=
  let ps := let own := s.portsTo ca p.dpkg.toNat
            if own.isEmpty then s.portsTo (!ca) p.dpkg.toNat else own
  let h := if p.kind = 0x09#6 then p.dend.toNat % 64 else p.addr.toNat / 64
  ps[h % ps.length]?

/-- The 128 bits of a packet's header (R333), and bits [95:0] of its tail (R336). -/
def packetHeader (p : Packet) : BitVec 128 :=
  0#4 ++ p.dend ++ p.addr ++ p.tag ++ p.len ++ p.prio ++ p.ten ++ p.sinc ++ p.spkg ++ p.dpkg ++ p.kind
def packetTail (p : Packet) : BitVec 96 :=
  p.seq ++ p.ack ++ 0#6 ++ BitVec.ofBool p.poison ++ BitVec.ofBool p.ackv ++ 0#40

/-- The CRC of a packet: header, payload and tail bits [95:0] (R336). -/
def packetCrc (p : Packet) : BitVec 32 :=
  BitVec.ofNat 32 (crc32c (leBytes 16 (packetHeader p).toNat ++ p.payload ++ leBytes 12 (packetTail p).toNat))

/-- A packet with the tail its port gives it (R336). -/
def sealPacket (p : Packet) (l : Jalic) : Packet :=
  let q := { p with seq := l.seqOut, ack := l.seqIn, ackv := true }
  { q with crc := packetCrc q }

/-- A packet takes the next SEQ of its port and is kept until it is acknowledged (R336, R409). -/
def Jalic.transmit (l : Jalic) (p : Packet) : Jalic :=
  { l with seqOut := l.seqOut + 1, unacked := l.unacked ++ [sealPacket p l] }

/-- A packet on its port; behind moved packets that are not yet acknowledged it waits (R410). Without a port it is lost. -/
def sendPacket (ca : Bool) (p : Packet) : M Unit := do
  let s ← get
  match s.portFor ca p with
  | none => pure ()
  | some i => updLink i fun l => if l.barred then { l with unsent := l.unsent ++ [p] } else l.transmit p

/-- The places of a list of packets in the order in which a resource serves them: the lowest class first and the oldest first within a
class, or with `oldest` by age alone (R152). -/
def classOrder (oldest : Bool) (ps : List Packet) : List Nat :=
  if oldest then List.range ps.length
  else (List.range 4).flatMap fun k => (List.range ps.length).filter fun i => (ps[i]?).any fun p => p.prio.toNat == k

/-- What the order of R97, R102 and R337 is kept for: a caldera bank, or a line. -/
def orderKey (p : Packet) : Nat := if p.kind = 0x09#6 then 2 ^ 60 + p.dend.toNat else p.addr.toNat / 64

/-- The packets that have waited at a port sent by class, each after the earlier ones for its line or bank; every 64th grant goes to the
oldest (R152, R410). -/
def Jalic.drain : Nat → Jalic → Jalic
  | 0, l => l
  | f + 1, l =>
    let first := fun (i : Nat) => match l.unsent[i]? with
      | some p => !(l.unsent.take i).any fun x => orderKey x == orderKey p
      | none => false
    match (classOrder (l.grants % 64 == 63) l.unsent).find? first with
    | none => l
    | some i => match l.unsent[i]? with
      | none => l
      | some p => Jalic.drain f { l.transmit p with unsent := l.unsent.eraseIdx i, grants := l.grants + 1 }

/-- A port on which every moved packet has been acknowledged sends what has waited (R410). -/
def Jalic.release (l : Jalic) : Jalic := Jalic.drain l.unsent.length { l with barred := false }

/-- The effective class a core's requests carry (R152): that of its task, as it was when its record was queued, and 3 for a core that
runs no task (log 44). -/
def State.prioOf (s : State) (core : Nat) : Nat := ((s.core core).task.map (·.prio)).getD 3

/-- PRIO.CLASS of a partition, as its service core has it. -/
def State.classOf (s : State) (p : Nat) : Nat := ((s.core ((s.serviceCore p).getD 0)).csrGet cPRIO).toNat % 4

/-- The class of a port's unit: PRIO.CLASS of its sender, SPNODE of the record it loaded, here as the service core of that partition has
it (R152; log 44). -/
def State.portPrio (s : State) (p : Nat) : Nat :=
  ((s.port p).ld.map fun q => s.classOf (bitsOf q.image.toNat 512 11)).getD 3

/-- The context whose `stv` holds a ticket. -/
def State.stvCtx (s : State) (ticket : Nat) : Option Nat :=
  (s.ctxs.find? fun e => (e.2.wait.toList ++ e.2.saved).any fun w => w.cls == .version && w.acted == some ticket).map (·.1)

/-- The class of a requester (R152): a prefetch and a `stv` that waits carry that of their context, a fetch or a dispatcher that of its core,
a partition's engine that of its partition; what is done for a packet carries the packet's. The host functions (commands, aperture, post
window, reports), the Ethernet intake and the recalls of a directory, to which no class is given, carry 3 (DESIGN CHOICE, log 44). -/
def State.prioWho (s : State) : Who → Nat
  | .ctx id => s.prioOf (coreOf id)
  | .vec c => s.prioOf c
  | .vop id => ((s.dev.vops.find? fun o => o.id == id).map fun o => s.prioOf (coreOf o.ctx)).getD 3
  | .port p => s.portPrio p
  | .stv k => ((s.stvCtx k).map fun id => s.prioOf (coreOf id)).getD 3
  | .pf k => ((s.dev.cpfs.find? fun x => x.ticket == k).map fun x => s.prioOf (coreOf x.ctx)).getD 3
  | .eng n =>
    if n < 10000 then s.prioOf n
    else if n < 20000 then s.classOf (n - 10000)
    else if 400000 ≤ n && n < 900000 then s.prioOf (coreOf (n - 400000))
    else if 900000 ≤ n && n < 910000 then s.portPrio (n - 900000)
    else ((s.dev.inq.find? fun p => 40000 + p.tag.toNat + 16384 * p.spkg.toNat == n).map fun p => p.prio.toNat).getD 3
  | .left => 3

/-- A packet from this package. -/
def State.packet (s : State) (kind : Nat) (dpkg dend addr tag ten prio : Nat) (payload : List Byte) : Packet where
  dend := BitVec.ofNat 12 dend
  addr := BitVec.ofNat 56 addr
  tag := BitVec.ofNat 14 tag
  len := BitVec.ofNat 8 (payload.length / 32)
  prio := BitVec.ofNat 2 prio
  ten := BitVec.ofNat 6 ten
  sinc := s.dev.incarn
  spkg := s.pres.pkg
  dpkg := BitVec.ofNat 4 dpkg
  kind := BitVec.ofNat 6 kind
  payload := payload
  seq := 0
  ack := 0
  ackv := false
  poison := false
  crc := 0

/-- Whether every tag is carried by an outstanding request or an awaited acknowledgement. -/
def State.tagsFull (s : State) : Bool := decide (16384 ≤ s.dev.reqs.length + s.dev.acks.length)

/-- The lowest tag that no outstanding request and no awaited acknowledgement carries. -/
def State.freeTag (s : State) : Nat :=
  ((List.range 16384).find? fun t =>
    !(s.dev.reqs.any fun r => r.pkt.tag.toNat == t) && !s.dev.acks.any fun a => a.2 / 16 == t).getD 0

/-- Wait for something that arrives as an event: an instruction parks, an engine tries again. -/
def await {α : Type} (cls : WaitClass) (who : Who) (post : M Unit) : M α :=
  match who with
  | .ctx _ => park cls none post
  | _ => stop post

/-- What came back for a request: its payload, whether it is poisoned, and the low bits of the answer's ADDR. -/
inductive Got where
  | data (bs : List Byte) (pois : Bool) (flag : Nat)
  | lost
  deriving DecidableEq, Repr

/-- The request that a requester has made for an access, at or behind a place of its order: it goes to the same agent for the same address.
An access that is no longer made, to a peer lost meanwhile, leaves no place for another to take (R412). -/
def State.asked? (s : State) (who : Who) (n kind dpkg addr : Nat) : Option Req :=
  s.dev.reqs.find? fun r => r.who == who && decide (n ≤ r.ord) && r.pkt.kind.toNat == kind && r.pkt.dpkg.toNat == dpkg &&
    r.pkt.addr == BitVec.ofNat 56 addr

/-- A request to another package by an instruction or an engine: sent once a tag is free, its answer found when the access is made
again (R333, R412). An instruction waits in the given class; `also` happens in the step that sends it. -/
def remoteAs (cls : WaitClass) (who : Who) (ca : Bool) (kind dpkg dend addr ten prio : Nat) (payload : List Byte)
    (pois : Bool := false) (also : M Unit := pure ()) : M Got := do
  let s ← get
  let n := s.dev.ord
  let r := s.asked? who n kind dpkg addr
  upd (.dev fun d => { d with ord := (r.map (·.ord)).getD n + 1 })
  match r with
  | some r => match r.lost, r.ans with
    | true, _ => return .lost
    | false, some bs => return .data bs r.pois r.flag
    | false, none => await cls who (pure ())
  | none =>
    if (s.peer dpkg).lost || s.unreachable dpkg then return .lost
    else if s.tagsFull then stall
    else await cls who (do
      let p := { s.packet kind dpkg dend addr s.freeTag ten prio payload with poison := pois }
      upd (.dev fun d => { d with reqs := d.reqs ++ [⟨who, n, p, none, false, false, 0, none⟩] })
      sendPacket ca p
      also)

/-- A request whose answer nobody waits for; a peer that is not reached gets none. -/
def post (ca : Bool) (p : Packet) : M Unit := do
  let s ← get
  if (s.peer p.dpkg.toNat).lost || s.unreachable p.dpkg.toNat then pure ()
  else do
    let p := { p with tag := BitVec.ofNat 14 s.freeTag }
    upd (.dev fun d => { d with reqs := d.reqs ++ [⟨.left, 0, p, none, false, false, 0, none⟩] })
    sendPacket ca p

def remote (who : Who) (ca : Bool) (kind dpkg dend addr ten prio : Nat) (payload : List Byte) : M Got :=
  remoteAs .link who ca kind dpkg dend addr ten prio payload

/-- The requests of a requester that has finished or given up are forgotten. -/
def forget (who : Who) : M Unit :=
  upd (.dev fun d => { d.forget (· == who) with ord := 0 })

/-- The channel of a line at another package, whose present channels this package does not see (R94, R335). -/
def peerChannel (pkg ten gpa : Nat) : Nat := Config.peerHash pkg ten (gpa / 64) % 384

/-- The caldera die through which a core reaches a peer for an address: that of the governing entry of KIND 2, else CA0 (R92). -/
def State.caFor (s : State) (core va : Nat) : Bool :=
  match placement (s.core core).pmap va with
  | some e => bitsOf e.toNat 1 2 == 2 && e.getLsbD 5
  | none => false

/-- The key of a line shared with a package: one homed there, or one homed here that the package has asked for. -/
def viaKey (home : Bool) (pkg ten gpa : Nat) : Nat := 2 * ((pkg + 16 * ten) * 2 ^ 42 + gpa / 64) + home.toNat

/-- Whether the packets of a line go by CA1: as its last request did (R92, R337). -/
def State.viaCa1 (s : State) (key : Nat) : Bool := s.dev.via.contains key

def setVia (key : Nat) (ca : Bool) : M Unit :=
  upd (.dev fun d => { d with via := if ca then nsInsert key d.via else nsErase d.via key })

end Sys2Proof.Machine
end

