-- ==== Sys2Proof/Machine/Caches.lean ====
section
/-!
DEFINITION. The caches as the spec gives them: L1 lines and their next-use replacement (R77, R85 to R87), L2 slices and peer line
caches (R88, R89), the directory with its holders and the reductions they hold (R79 to R82), stash sectors (R83, R84). Memory
values stand at their home in this model (log 3); a holder has a line's state, its translation and its partials.
-/

namespace Sys2Proof.Machine

open M

/-! ### Reuse codes and the L1 (R85 to R87) -/

/-- The effective code of an access with code d (R85). -/
def State.effCode (s : State) (core d : Nat) : Nat :=
  let c := if d = 0 then bitsOf ((s.core core).csrGet cRDEF).toNat 0 4 else d
  if c = 0 then 8 else c

/-- The L1 line of an address: its key and the line (R77). Ways of a set have keys 16 * set + way. -/
def Core.l1Find (c : Core) (va : Nat) : Option (Nat × Line) :=
  c.l1.find? fun e => e.1 / 16 == bitsOf va 6 11 && e.2.va == va / 64

/-- The class of a line in the victim choice (R87). -/
def lineClass (trc task : Nat) (l : Line) : Nat :=
  if l.code = 15 then 0
  else if l.task = task && l.due + 2 ^ l.code < trc then 1
  else if l.task ≠ task then 2
  else 3

/-- The way a class rule chooses: the lowest way of the lowest class, and in the last class the largest DUE (R87, R88). -/
def chooseWay (cands : List (Nat × Nat × Nat)) : Nat :=
  let best := cands.foldl (fun (b : Nat × Nat × Nat) e =>
    if e.2.1 < b.2.1 || (e.2.1 = 3 && b.2.1 = 3 && b.2.2 < e.2.2) then e else b) (cands.headD (0, 9, 0))
  best.1

/-- ChooseVictimL1 (R87); no line of this model is busy. -/
def Core.victimL1 (c : Core) (set trc task : Nat) : Nat :=
  let ways := List.range 12
  match ways.find? fun w => (SMap.find c.l1 (16 * set + w)).isNone with
  | some w => w
  | none => chooseWay (ways.map fun w =>
    match SMap.find c.l1 (16 * set + w) with
    | some l => (w, lineClass trc task l, l.due)
    | none => (w, 9, 0))

/-! ### L2 slices and peer line caches (R88, R89) -/

/-- The owner slot of a context (R75, R88). -/
def slotOf (id : Nat) : Nat := if isVent (coreOf id) then 11 + ctxOf id else ctxOf id

/-- The victim of a set for an owner (R88). DESIGN CHOICE (log 44): the lowest invalid way comes first for an owner at OCCLIM too; R88 does not
say whether its restriction to the owner's lines comes before. -/
def Cache.victim (c : Cache) (set ten slot : Nat) : Nat :=
  let ways := List.range 16
  match ways.find? fun w => (SMap.find c.lines (16 * set + w)).isNone with
  | some w => w
  | none =>
    let mine := fun (l : CLine) => l.ten == ten && l.slot == slot
    let own := (c.lines.filter fun e => mine e.2).length
    let inSet := ways.filter fun w => match SMap.find c.lines (16 * set + w) with | some l => mine l | none => false
    let cands := if ctlOcc c.ctl ≤ own && !inSet.isEmpty then inSet else ways
    chooseWay (cands.map fun w =>
      match SMap.find c.lines (16 * set + w) with
      | some l => (w, if l.code = 15 then 0 else if l.due + 2 ^ l.code < c.sclk then 1 else 3, l.due)
      | none => (w, 9, 0))

/-- One tag lookup for a line by an owner, with a fill on a miss (R88, R89); `sets` is the cache's number of sets. A set is named by the
low bits of the line's number, and a lookup reads SCLK after its own tick (log 44). -/
def Cache.touch (c : Cache) (sets tag code ten slot : Nat) (wr : Bool := false) : Cache :=
  let c := { c with sclk := c.sclk + 1 }
  let code := if 1 ≤ code && code ≤ 14 && c.dem.contains ten then min (code + ctlDem c.ctl) 14 else code
  let set := tag % sets
  let was := c.lines.any fun e => e.2.tag == tag && e.2.dirty
  let line : CLine := ⟨tag, code, c.sclk + 2 ^ code, ten, slot, wr || was⟩
  match (List.range 16).find? fun w => match SMap.find c.lines (16 * set + w) with
      | some l => l.tag == tag
      | none => false with
  | some w => { c with lines := SMap.put c.lines (16 * set + w) line }
  | none =>
    let w := c.victim set ten slot
    let c := c.leave (16 * set + w)
    { c with lines := SMap.put c.lines (16 * set + w) line }

/-- The owner slot of the port units and the block decoders (R88). -/
def unitSlot : Nat := 15

/-- An access to a line of HBM looks its slice's tags up. -/
def touchL2 (phys code ten slot : Nat) (wr : Bool := false) : M Unit := do
  let s ← get
  upd (.cache (s.channel phys) fun c => c.touch 2048 (phys / 64) code ten slot wr)

/-- The tenant and the guest-physical address of a line of HBM, for probes to other packages. -/
def State.gpaOfPhys (s : State) (phys : Nat) : Option (Nat × Nat) :=
  (List.range 64).findSome? fun t => ((s.vf t).s2.find? fun e => e.2 == phys / 2 ^ 25).map fun e =>
    (t, e.1 * 2 ^ 25 + phys % 2 ^ 25)

/-- A holder in a package that is lost leaves the directory: a line that it held in M or U is poisoned at its home, and so is one in E,
which may have moved silently to M (R80, R412; log 12). -/
def loseHolder (line h : Nat) : M Unit := do
  let s ← get
  setHolder line h none
  match s.stateIn line h with
  | some .e | some .m | some (.u _) => each (fun k => upd (.poison (line * 64 + 8 * k))) (List.range 8)
  | _ => pure ()

/-- A probe of a line that another package's PLC holds, and its answer (R80, R334): 0 share, 1 invalidate, 2 collect. It goes by the
caldera die of the line's packets (R337), in the requester's class (R152). -/
def probePeer (who : Who) (line h mode : Nat) : M Unit := do
  let s ← get
  match s.gpaOfPhys (line * 64) with
  | none => setHolder line h none
  | some (t, g) =>
    let ca := s.viaCa1 (viaKey true (h / 8192) t g)
    match ← remote who ca 0x05 (h / 8192) (0x200 + h % 4) (g / 64 * 64 + mode) t (s.prioWho who) [] with
    | .lost => loseHolder line h
    | .data bs pois _ => do
      if bs.length = 64 then do
        upd (.poke (line * 64) bs)
        if pois then each (fun k => upd (.poison (line * 64 + 8 * k))) (List.range 8) else pure ()
      else pure ()
      setHolder line h (if mode = 0 then some .s else none)

/-- A PLC of this package: it never holds a line homed here, and is no L1 below itself. -/
def State.isOwnPlc (s : State) (h : Nat) : Bool := s.isOwn h && 4096 ≤ h % 8192

/-- The home makes ready for a read of a line: U copies are collected, exclusive copies elsewhere become shared (R80, R82). -/
def homeRead (who : Who) (line : Nat) (me : Option Nat) : M Unit := do
  let s ← get
  if s.hasU line then collect line else pure ()
  let s ← get
  each (fun (e : Nat × LSt) =>
    if some e.1 = me || s.isOwnPlc e.1 then pure ()
    else match e.2 with
      | .e | .m => if s.isOwn e.1 then setHolder line e.1 (some .s) else probePeer who line e.1 0
      | _ => pure ()) (s.holders line)

/-- The home makes ready for a write of a line: every other copy is invalidated (R80). -/
def homeWrite (who : Who) (line : Nat) (me : Option Nat) : M Unit := do
  let s ← get
  if s.hasU line then collect line else pure ()
  let s ← get
  each (fun (e : Nat × LSt) =>
    if some e.1 = me || s.isOwnPlc e.1 then pure ()
    else if s.isOwn e.1 then leaveLine e.1 line else probePeer who line e.1 1) (s.holders line)

/-- A line put into the L1 of a core, its victim leaving first (R87). -/
def fillL1 (core va loc : Nat) (leaf : Word) (code : Nat) : M Unit := do
  let s ← get
  let c := s.core core
  let trc := (c.csrGet cTRC).toNat
  let task := (c.csrGet cTASKID).toNat
  let line : Line := ⟨va / 64, leaf, loc / 64 * 64, code, trc + 2 ^ code, task⟩
  match c.l1Find va with
  | some (k, _) => upd (.core core fun c => { c with l1 := SMap.put c.l1 k line })
  | none =>
    let set := bitsOf va 6 11
    let k := 16 * set + c.victimL1 set trc task
    match SMap.find c.l1 k with
    | some v => leaveLine (s.coreHolder core) (v.loc / 64)
    | none => pure ()
    upd (.core core fun c => { c with l1 := SMap.put c.l1 k line })

/-- The holder has read or written a line of its own package's HBM, or the copy its PLC holds: its state. A reader gets E when the line
has no other holder, and no more than the PLC that feeds it has (R80). -/
def holdRead (core line : Nat) : M Unit := do
  let s ← get
  let h := s.coreHolder core
  match s.stateIn line h with
  | some _ => pure ()
  | none =>
    let shared := (s.holders line).any fun e => !s.isOwnPlc e.1 || e.2 == .s
    setHolder line h (some (if shared then .s else .e))

def holdWrite (core line : Nat) : M Unit := do
  let s ← get
  setHolder line (s.coreHolder core) (some .m)

/-! ### Peer line caches (R77, R79, R80) -/

/-- Package, tenant and guest-physical address of a location of a PLC copy; equal GPAs of two tenants are two lines (log 12). -/
def plcPkg (loc : Nat) : Nat := loc % 2 ^ 60 / 2 ^ 48 % 16
def plcTen (loc : Nat) : Nat := loc % 2 ^ 60 / 2 ^ 52
def plcGpa (loc : Nat) : Nat := loc % 2 ^ 48

/-- Bytes at a location, and whether any word of them is poisoned. -/
def State.bytesAt (s : State) (loc n : Nat) : List Byte := Memory.reads s.mem loc n

/-- A write-back of a peer's line by the PLC of a die to its home (R334), by the caldera die of the line's packets (R337); bit 41 of the
tail marks poison (R336). -/
def writeBack (die line ten prio : Nat) : M Unit := do
  let s ← get
  let loc := line * 64
  let pkg := plcPkg loc
  let gpa := plcGpa loc
  let p := s.packet 0x03 pkg (peerChannel pkg ten gpa) (gpa + 4 * die) 0 ten prio (s.bytesAt loc 64)
  post (s.viaCa1 (viaKey false pkg ten gpa)) { p with poison := s.poisoned loc 64 }

/-- A line leaves a PLC for a requester of a class: the copies it feeds go, and an M line is written back. -/
def leavePlc (die line ten prio : Nat) : M Unit := do
  let s ← get
  each (fun (e : Nat × LSt) =>
    if s.isOwn e.1 && e.1 % 8192 < 4096 && dieOf (e.1 % 8192) == die then leaveLine e.1 line else pure ()) (s.holders line)
  if s.stateIn line (s.plcHolder die) = some .m then writeBack die line ten prio else pure ()
  setHolder line (s.plcHolder die) none

/-- An access to a peer's line looks the tags of the die's peer line cache up; the victim leaves. The share that an absent channel takes of
its die's PLC (R19) is not given: the PLC keeps its 131,072 sets (log 45). -/
def touchPlc (die loc code ten slot prio : Nat) : M Unit := do
  let s ← get
  let c := s.cache (384 + die)
  let c' := c.touch 131072 (loc / 64) code ten slot
  each (fun (e : Nat × CLine) =>
    if (SMap.find c'.lines e.1).map (·.tag) == some e.2.tag then pure () else leavePlc die e.2.tag e.2.ten prio) c.lines
  upd (.cache (384 + die) fun c => c.touch 131072 (loc / 64) code ten slot)

/-! ### Stash (R83, R84, R398) -/

/-- The number of stash frames of a core, and the local offsets they take (R83). -/
def Core.nfr (c : Core) : Nat := bitsOf (c.csrGet cSTASHCFG).toNat 0 6
def Core.stashBase (c : Core) : Nat := 0x2F000 - 4096 * c.nfr

/-- Whether local bytes of a core are stash. -/
def Core.isStash (c : Core) (off n : Nat) : Bool := c.stashBase < 0x2F000 && c.stashBase < off + n && off < 0x2F000

/-- The frame that maps an address. -/
def Core.frameOf (c : Core) (va : Nat) : Option Nat :=
  (c.stash.find? fun e => e.2.toNat / 4096 == va / 4096).map (·.1)

/-- Whether a page can be stashed (R227, R398). -/
def stashable (l : Word) : Bool := lfCM l && lfAPT l ≤ 1 && !lfVER l && !lfRD l

/-- A stash sector of a frame by its key. -/
def sectKey (f va : Nat) : Nat := 64 * f + va / 64 % 64

/-- A line taken to I as `sunmap` or `cinv` takes it: a U line is collected from every holder (R82, R84). -/
def expelLine (h line : Nat) : M Unit := do
  let s ← get
  match s.stateIn line h with
  | some (.u _) => collect line
  | _ => leaveLine h line

/-- Every sector of a frame taken to I (R84, R228). -/
def flushFrame (core f : Nat) : M Unit := do
  let s ← get
  each (fun (e : Nat × Line) =>
    if e.1 / 64 == f then expelLine (s.coreHolder core) (e.2.loc / 64) else pure ()) (s.core core).sect
  upd (.core core fun c => { c with sect := c.sect.filter fun e => e.1 / 64 != f })

/-- Every L1 line of a core that a test picks, and with `sectors` every stash sector, written back and invalidated (R84, R207). -/
def flushLines (core : Nat) (p : Line → Bool) (sectors : Bool) : M Unit := do
  let s ← get
  let c := s.core core
  let out := fun (e : Nat × Line) => if p e.2 then leaveLine (s.coreHolder core) (e.2.loc / 64) else pure ()
  each out c.l1
  upd (.core core fun c => { c with l1 := c.l1.filter fun e => !p e.2 })
  if sectors then do
    each out c.sect
    upd (.core core fun c => { c with sect := c.sect.filter fun e => !p e.2 })
  else pure ()

end Sys2Proof.Machine
end

