-- ==== Sys2Proof/Machine/Access.lean ====
section
/-!
DEFINITION. Accesses to memory: the windows and what they accept (R73 to R76, R214), the local guard (R74), range locks (R117,
R394), resolution of global and caldera addresses (R93, R97, R84, R398), and loads and stores performed with poison (R387),
versions (R96, R392) and the race detector (R119 to R121, R395 to R397), in the order of R213.
-/

namespace Sys2Proof.Machine

open M

/-- How R214 groups the instructions that access memory. -/
inductive Use where
  | load | store | amo | red | ver | verW | vload | vstore
  deriving DecidableEq, Repr

def Use.reads : Use → Bool | .load | .amo | .red | .vload => true | _ => false
def Use.writes : Use → Bool | .store | .amo | .red | .vstore => true | _ => false

def Use.akind : Use → AKind
  | .load | .vload | .ver => .load
  | .store | .vstore | .verW => .store
  | .amo => .amo
  | .red => .red

/-- Whether one guard covers bytes of a window with the permission an access needs (R74, R75). -/
def Ctx.guarded (vent : Bool) (c : Ctx) (win off n : Nat) (rd wr : Bool) : Bool :=
  (List.range 4).any fun k =>
    let g := c.csrGet vent (cLGUARD + k)
    g.getLsbD 63 && (!wr || g.getLsbD 62) && (!rd || g.getLsbD 61) && bitsOf g.toNat 59 2 == win &&
    decide (bitsOf g.toNat 0 21 ≤ off) && decide (off + n ≤ bitsOf g.toNat 32 21) && !(vent && win != 0)

/-- Whether local bytes lie in the reserved area (R41, R75). -/
def reservedArea (vent : Bool) (off n : Nat) : Bool :=
  if vent then decide (Config.ventLmReserved < off + n) else decide (Config.lmReserved < off + n)

/-- Whether an access to a window that is not translated reads a marked register: a local guard, or STASHCFG of the core whose local bytes it
names (R390; log 45). -/
def State.windowBad (s : State) (id va : Nat) : Bool :=
  let core := coreOf id
  let off := va % 2 ^ 52
  let c := s.ctx id
  let owner := if off < 0x100000 then core else core / 4 * 4 + (off - 0x100000) / 0x40000
  va / 2 ^ 52 == 0xFFF &&
  ((!c.sup && decide (off < 0x210000) && (List.range 4).any fun k => c.cpois.contains (cLGUARD + k)) ||
   (!isVent core && decide (off < 0x200000) && (s.core owner).cpois.contains cSTASHCFG))

/-- The registers of the EVENT window (R229). -/
def eventReg (off : Nat) : Bool := (off % 8 == 0 && off < 0x20) || off == 0x40 || off == 0x48 || off == 0x50

/-- Steps 2 and 3 of R213 for a window that is not translated; none is a global or a caldera address. DEVICE takes `ld` (R76), and a vector
load of doublewords as such a load (R278). -/
def State.window (s : State) (id : Nat) (use : Use) (va n : Nat) : Except (BitVec 8) (Option Tgt) :=
  let core := coreOf id
  let vent := isVent core
  let c := s.ctx id
  let off := va % 2 ^ 52
  let user := !c.sup
  let guard := fun (win o : Nat) => !user || c.guarded vent win o n use.reads use.writes
  if va / 2 ^ 52 = 0 then .ok none
  else if va / 2 ^ 52 ≠ 0xFFF || use == .ver || use == .verW then .error ILLEGAL_OPERAND
  else if off + n ≤ (if vent then Config.ventLmBytes else Config.lmBytes) then
    if !vent && (s.core core).isStash off n then .error ILLEGAL_OPERAND
    else if user && reservedArea vent off n then .error LOCAL_GUARD
    else if guard 0 off then .ok (some (.lm core off)) else .error LOCAL_GUARD
  else if vent then .error ILLEGAL_OPERAND
  else if 0x100000 ≤ off && off + n ≤ 0x200000 then
    let o := off % 0x40000
    let peer := core / 4 * 4 + (off - 0x100000) / 0x40000
    if Config.lmBytes < o + n then .error ILLEGAL_OPERAND
    else if !s.clPresent (peer / 4) then .error PEER_ABSENT
    else if (s.core peer).isStash o n then .error ILLEGAL_OPERAND
    else if user && reservedArea false o n then .error LOCAL_GUARD
    else if guard 1 (off - 0x100000) then .ok (some (.lm peer o)) else .error LOCAL_GUARD
  else if 0x200000 ≤ off && off < 0x210000 then
    if (use == .load || use == .store) && n == 8 && eventReg (off - 0x200000) then
      if guard 2 (off - 0x200000) then .ok (some (.event (off - 0x200000))) else .error LOCAL_GUARD
    else .error ILLEGAL_OPERAND
  else if 0x1000000 ≤ off && off < 0x1100000 then
    if (use == .load || use == .vload) && n == 8 && !user then .ok (some (.device (off - 0x1000000))) else .error ILLEGAL_OPERAND
  else .error ILLEGAL_OPERAND

/-- The lowest byte of a local or B-store range that an entry of the owner's table locks against an access (R117, R394). -/
def Core.locked (c : Core) (bstore : Bool) (base n : Nat) (wr : Bool) : Option Nat :=
  ((c.locks.filter fun l => l.bstore == bstore && (l.all || wr) && decide (base < l.base + l.len) &&
      decide (l.base < base + n)).map fun l => max base l.base).min?

/-- The lock check of a local access (R117). -/
def lockCheck (core off n : Nat) (wr : Bool) (va : Word) : M Unit := do
  let s ← get
  match (s.core core).locked false off n wr with
  | some b => raise RANGE_LOCK (va + BitVec.ofNat 64 (b - off))
  | none => pure ()

/-- Whether a queued vector instruction accesses memory. -/
def isVmem : Instr → Bool
  | .vld .. | .vlds .. | .vldx .. | .vst .. | .vsts .. | .vstx .. => true
  | _ => false

/-- The local byte ranges of a tile instruction (R296, R301, R302). -/
def Core.tileRange (c : Core) (o : TOp) : List (Nat × Nat) :=
  let off := (o.opa - 0xFFF0_0000_0000_0000).toNat
  let afmt := bitsOf (c.csrGet cMFMT).toNat 0 2
  let msca := (c.csrGet cMSCA).toNat
  let mma := (off, if afmt = 0 then 1024 else 2048) ::
    (if afmt = 0 && !msca.testBit 40 then [(bitsOf msca 5 13 * 32, 32)] else [])
  match decode o.word with
  | .ok (.tmma ..) | .ok (.tmmat ..) => mma
  | .ok (.tld ..) => [(off, 4096)]
  | .ok (.tbld ..) => [(off, 2048)]
  | .ok (.tst _ f ..) => [(off, match f with | .f32 => 4096 | .bf16 => 2048 | .nf8 => 1056)]
  | _ => []

/-- The bytes that a tile instruction reads: in the B-store or in local memory, offset and length. -/
def Core.tileReadRange (c : Core) (o : TOp) : List (Bool × Nat × Nat) :=
  let slot := (true, o.opb.toNat % 2 ^ 10 * 2048, 2048)
  match decode o.word with
  | .ok (.tmma ..) | .ok (.tmmat ..) => slot :: (c.tileRange o).map fun r => (false, r)
  | .ok (.tld ..) => (c.tileRange o).map fun r => (false, r)
  | .ok (.tbld ..) => [slot]
  | _ => []

/-- The location of a byte that tile instructions of a core access. -/
def tileLoc (core : Nat) (slot : Bool) (a : Nat) : Nat := if slot then (Space.bstore core).loc a else (Space.lm core).loc a

/-- Whether bytes read ahead cover a range; the bytes, the first poisoned word and the first locked byte of the range. -/
def Early.covers (r : Early) (slot : Bool) (a n : Nat) : Bool := r.slot == slot && decide (r.base ≤ a) && decide (a + n ≤ r.base + r.bytes.length)
def Early.get (r : Early) (a n : Nat) : List Byte := (r.bytes.drop (a - r.base)).take n
def Early.poisoned (r : Early) (a n : Nat) : Option Nat := r.bad.find? fun w => a < w + 8 && w < a + n
def Early.locked (r : Early) (a n : Nat) : Option Nat :=
  ((r.locks.filter fun l => a < l.2 && l.1 < a + n).map fun l => max a l.1).min?

/-- Bytes of a tile instruction as they are now, with the marks and the locks on them (R104, R117). -/
def State.readNow (s : State) (core : Nat) (q : Bool × Nat × Nat) : Early :=
  let l := tileLoc core q.1 q.2.1
  { slot := q.1, base := q.2.1, bytes := Memory.reads s.mem l q.2.2,
    bad := ((wordsOf l q.2.2).filter s.pois.contains).map fun w => q.2.1 + w - l
    locks := ((s.core core).locks.filter fun k => k.bstore == q.1 && k.all).map fun k => (k.base, k.base + k.len) }

/-- What an unstarted tile instruction, or one of its originals, reads and has not read ahead. -/
def TEnt.unread (c : Core) (e : TEnt) : List (Bool × Nat × Nat) :=
  match e.st with
  | .started _ => []
  | _ => (((e.op :: e.origs).flatMap c.tileReadRange).filter fun q => !e.early.any fun r => r.covers q.1 q.2.1 q.2.2).dedup

/-- A store of the control context waits until the committed tile instructions before it have started and read (R104, R296). What the window
still holds starts no earlier for a store (R320, R321): its bytes are read, in a step of its own, before the store is made, since a local
store ends only once performed (R117) and none may become visible before an earlier read (R104). Whatever such a read may return, it may
return now: what happens before the instruction has happened, but for the stores of tile instructions between, which are passed on when they
are made. Queued vector accesses come first (R102, R296; DEDUCED, log 3). -/
def readAhead : M Unit := do
  let s ← get
  let id := s.dev.cur
  let core := coreOf id
  let c := s.core core
  let late := c.win.filter fun e => !(e.unread c).isEmpty
  if ctxOf id == 0 && !late.isEmpty then
    if (late.any fun e => e.st != .held) || c.vq.any fun e => e.ctx == id && isVmem e.instr then stall
    else stop (upd (.core core fun k => { k with win := k.win.map fun e => { e with early := e.early ++ (e.unread c).map (s.readNow core) } }))
  else pure ()

/-- Whether local bytes overlap the range of a tile instruction that has not retired (R296). -/
def Core.tileOverlaps (c : Core) (off n : Nat) : Bool :=
  c.win.any fun e => (c.tileRange e.op).any fun r => r.1 < off + n && off < r.1 + r.2

/-- An access of the control context that overlaps an unretired tile instruction's range waits for it (R296). -/
def tileOrder (owner off n : Nat) : M Unit := do
  let s ← get
  let id := s.dev.cur
  if ctxOf id == 0 && owner == coreOf id && (s.core owner).tileOverlaps off n then drainTiles else pure ()

/-- Wait until every queued vector memory instruction of the context has retired. -/
def drainVec : M Unit := do
  let s ← get
  let id := s.dev.cur
  if (s.core (coreOf id)).vq.any fun e => e.ctx == id && isVmem e.instr then stall else pure ()

/-- A scalar access waits for the queued vector accesses of its context, so that each sees the earlier ones (R102, R279). -/
def vecOrder (use : Use) : M Unit := if use == .vload || use == .vstore then pure () else drainVec

/-! ### Resolution (R93) -/

/-- The leaf of a cached copy of an address that serves an access: a stash sector or an L1 line (R84, R93). -/
def State.heldLeaf (s : State) (core va : Nat) (k : AKind) (user : Bool) : Option Line :=
  let c := s.core core
  let l : Option Line := match c.frameOf va with
    | some f => SMap.find c.sect (sectKey f va)
    | none => (c.l1Find va).map (·.2)
  l.filter fun l => match judge k user l.leaf with | .ok _ => true | _ => false

/-- The target of a leaf for the executing context. -/
def routeMe (l : Word) (va : Word) : M Acc := do
  let s ← get
  let t := s.tenOf (coreOf s.dev.cur)
  match s.route t l va.toNat with
  | .ok (x, v) => return ⟨va, x, l, v⟩
  | .error (_, some g) => raiseMiss t g va
  | .error (e, none) => raise e va

/-- A held copy's target is where it was filled from. -/
def Line.tgt (l : Line) (va : Nat) : Tgt :=
  let a := l.loc + va % 64
  if a < 2 ^ 60 then .hbm a else .peer (plcPkg a) (plcGpa a)

/-- Whether an access lies in a mapped frame although its page is not one that can be stashed (R398). -/
def State.unstashable (s : State) (core : Nat) (a : Acc) : Bool :=
  let va := a.va.toNat
  inGlobal va && !inCaldera va && ((s.core core).frameOf va).isSome && !stashable a.leaf

/-- The check of the fill of a stash sector (R398); it comes after every address step and the data read (R428 step 8). -/
def stashCheck (a : Acc) : M Unit := do
  let s ← get
  if s.unstashable (coreOf s.dev.cur) a then raise STASH a.va else pure ()

/-- A global or caldera address resolved for an access of the executing context (R93). -/
def resolve (k : AKind) (va : Word) : M Acc := do
  let s ← get
  let core := coreOf s.dev.cur
  let user := !(s.ctx s.dev.cur).sup
  if inCaldera va.toNat then
    match s.caldera (s.tenOf core) (va.toNat % 2 ^ 40) with
    | .ok (x, v) => return ⟨va, x, 0, v⟩
    | .error e => raise e va
  else match s.heldLeaf core va.toNat k user with
    | some l => return ⟨va, l.tgt va.toNat, l.leaf, false⟩
    | none => do
      let l ← xlate k va
      routeMe l va

/-- Steps 2 to 5 of R213 for one access; vector accesses check locks when they are performed (R117, R278). -/
def locate (use : Use) (va : Word) (n : Nat) : M Acc := do
  vecOrder use
  if use.writes || use == .verW then readAhead else pure ()
  let s ← get
  if s.windowBad s.dev.cur va.toNat then raise POISON 0 else pure ()
  match s.window s.dev.cur use va.toNat n with
  | .error e => raise e va
  | .ok (some t) => do
    match t with
    | .lm c o => do
      tileOrder c o n
      if use == .vload || use == .vstore then pure () else lockCheck c o n use.writes va
    | _ => pure ()
    return ⟨va, t, 0, false⟩
  | .ok none => do
    let a ← resolve use.akind va
    match use, a.tgt with
    | .amo, .host .. | .red, .host .. | .ver, .host .. | .verW, .host .. => raise ILLEGAL_OPERAND va
    | _, _ => return a

/-- Step 1 of R213. -/
def aligned (va : Word) (n : Nat) : M Unit := if va.toNat % n = 0 then pure () else raise MISALIGNED va

/-! ### Registers of the EVENT and DEVICE windows (R76, R229) -/

/-- A barrier, and its register. -/
def Cluster.bar (k : Cluster) (b : Nat) : Bar := SMap.get (fun _ => Bar.reset) k.bars b
def Cluster.setBar (k : Cluster) (b : Nat) (f : Bar → Bar) : Cluster :=
  { k with bars := SMap.set (fun _ => Bar.reset) k.bars b (f (k.bar b)) }

def Bar.reg (b : Bar) : Word := b.gen ++ 0#21 ++ b.chain ++ b.arr ++ b.pmask

def Cluster.reg (k : Cluster) (off : Nat) : Word :=
  if off < 0x20 then (k.bar (off / 8)).reg
  else if off = 0x40 then k.lines.setWidth 64
  else if off = 0x48 then BitVec.ofNat 64 (k.mutex.foldl (fun n e => n ||| 2 ^ e.1) 0)
  else k.intv.setWidth 64

/-- A store to the EVENT window: only PMASK is writable, and not while ARR is not 0 (R229, R435). -/
def Cluster.setReg (k : Cluster) (off : Nat) (v : Word) : Cluster :=
  if off < 0x20 then k.setBar (off / 8) fun b => if b.arr = 0 then { b with pmask := v.setWidth 4 } else b else k

/-- The torus node to which vent core n attaches (R16, R19); at reset a node of its own die (log 6). -/
def State.chNode (s : State) (n : Nat) : Nat := ((s.pres.chnode[n]?).getD 0).toNat

/-- Eight bytes of the presence block at an offset from 0x2000 (R19, R348). -/
def State.presReg (s : State) (off : Nat) : Word :=
  if off < 0x80 then (s.pres.clpres >>> (8 * off)).setWidth 64
  else if off < 0xB0 then (s.pres.chpres >>> (8 * (off - 0x80))).setWidth 64
  else if off = 0xB0 then s.pres.lkpres.setWidth 64
  else if 0x800 ≤ off && off < 0xB00 then
    BitVec.ofNat 64 (((List.range 4).map fun k =>
      s.chNode ((off - 0x800) / 2 + k) * 2 ^ (16 * k)).sum)
  else 0

/-- A flow-table entry (R143). -/
def State.flowEntry (s : State) (ca : Bool) (i : Nat) : BitVec 512 := SMap.get (fun _ => 0) (s.cal ca).flow i

/-- A register of the DEVICE window (R76). -/
def State.deviceReg (s : State) (core off : Nat) : Word :=
  let p := s.part (s.pnodeOf core)
  if 0x2000 ≤ off && off < 0x2B00 then s.presReg (off - 0x2000)
  else if 0x10000 ≤ off && off < 0x10C00 then (s.cache ((off - 0x10000) / 8)).ctl
  else if 0x10C00 ≤ off && off < 0x10C20 then (s.cache (384 + (off - 0x10C00) / 8)).ctl
  else if off = 0x10D00 then p.rdctl.setWidth 64
  else if off = 0x10D08 then p.raceLog
  else if 0x80000 ≤ off && off < 0x100000 then
    let ca := decide (0xC0000 ≤ off)
    let o := off % 0x40000
    let e := s.flowEntry ca (o / 64)
    if bitsOf e.toNat 318 6 = s.tenOf core then (e >>> (8 * (o % 64))).setWidth 64 else 0
  else 0

/-! ### The race detector (R119 to R121, R395 to R397) -/

/-- The shadow entry an access reports against (R121). Partition scope is judged by the interval of the accessing core's partition, and
the report follows that partition's RDCTL (log 24). -/
def State.raced (s : State) (core x loc n : Nat) : Option Shadow :=
  match SMap.find s.shadow (loc / 32) with
  | none => none
  | some e =>
    let cur := if e.cluster then (s.cluster (e.core / 4)).intv else (s.part (s.pnodeOf core)).intv
    let b := BitVec.ofNat 32 ((2 ^ n - 1) * 2 ^ (loc % 32))
    if cur = e.intv && (e.core, e.ctx) ≠ (core, x) && e.mask &&& b ≠ 0 then some e else none

/-- The shadow entry after a store (R121). A vent core belongs to no cluster and records partition scope. -/
def State.shadowed (s : State) (core x loc n : Nat) : Shadow :=
  let p := s.part (s.pnodeOf core)
  let b := BitVec.ofNat 32 ((2 ^ n - 1) * 2 ^ (loc % 32))
  let cl := p.rdctl.getLsbD 2 && !isVent core
  let fresh : Shadow := ⟨core, x, b, cl, if cl then (s.cluster (core / 4)).intv else p.intv, s.pnodeOf core⟩
  match SMap.find s.shadow (loc / 32) with
  | none => fresh
  | some e =>
    let cur := if e.cluster then (s.cluster (e.core / 4)).intv else p.intv
    if cur = e.intv && (e.core, e.ctx) = (core, x) then { e with mask := e.mask ||| b } else fresh

/-- A race record (R396). -/
def raceRecord (seq : BitVec 32) (e : Shadow) (store : Bool) (core x : Nat) (va pc : Word) : List Byte :=
  leBytes 32 (seq.toNat * 2 ^ 224 + e.intv.toNat * 2 ^ 192 + e.mask.toNat * 2 ^ 160 + e.core % 4096 * 2 ^ 148
    + e.ctx * 2 ^ 144 + (if e.cluster then 2 ^ 143 else 0) + (if store then 2 ^ 142 else 0) + core % 4096 * 2 ^ 130
    + x * 2 ^ 126 + va.toNat % 2 ^ 52 * 2 ^ 68 + pc.toNat % 2 ^ 52 * 2 ^ 16)

/-- The record written by the accessing core, or dropped; SEQ advances either way (R395, R397). -/
def logRace (core x : Nat) (e : Shadow) (store : Bool) (va pc : Word) : M Unit := do
  let s ← get
  let p := s.pnodeOf core
  let t := s.tenOf core
  let q := s.part p
  let a := bitsOf q.raceLog.toNat 13 39 * 2 ^ 13 + 32 * (q.raceSeq.toNat % 256)
  upd (.part p fun q => { q with raceSeq := q.raceSeq + 1 })
  if q.raceLog.getLsbD 0 then
    match s.cached (interfaceOf (s.core core).pmap core a) t p a with
    | some le =>
      if lfW le.leaf && lfAPT le.leaf == 0 && !lfRD le.leaf then
        match s.stage2 t (gpaOf le.leaf a) with
        | some ph => do
          homeWrite (.ctx (ctxId core x)) (ph / 64) none
          upd (.poke (Space.hbm.loc ph) (raceRecord q.raceSeq e store core x va pc))
        | none => noteMiss t (gpaOf le.leaf a)
      else pure ()
    | none => pure ()
  else pure ()

/-- RaceStep (R121) of a plain access of the executing context that does not trap. -/
def raceStep (core x : Nat) (loc n : Nat) (store : Bool) (va pc : Word) : M Unit := do
  let s ← get
  match s.raced core x loc n with
  | some e => if (s.part (s.pnodeOf core)).rdctl.toNat % 4 = 1 then logRace core x e store va pc else pure ()
  | none => pure ()
  if store then do
    let s ← get
    upd (.shadow (loc / 32) (some (s.shadowed core x loc n)))
  else pure ()

/-! ### Peer memory (R80, R91, R334) -/

/-- A line of a peer asked for (R334): the low bits of ADDR are 1 an exclusive copy, 2 no copy, and bits [3:2] the die that asks; in the
answer, 1 that the home does not map it, 2 that the copy is the only one (log 12). The line's packets go by the caldera die that the
placement map names for the address (R92, R337). -/
def askLine (who : Who) (core t pkg gpa va mode : Nat) (also : M Unit := pure ()) : M Got := do
  let s ← get
  let ca := s.caFor core va
  let r ← remoteAs .link who ca 0x01 pkg (peerChannel pkg t gpa) (gpa / 64 * 64 + mode + 4 * dieOf core) t (s.prioWho who) [] false also
  setVia (viaKey false pkg t gpa) ca
  return r

/-- A peer's line in the PLC of a die: fetched when the PLC does not hold it as the access needs; whether it is lost, or its home
does not have it (log 12). An access that the core's own copy serves looks no tags up (R88). -/
def plcFetch (who : Who) (core t pkg gpa va code slot : Nat) (excl hit : Bool) : M Bool := do
  let s ← get
  let die := dieOf core
  let loc := (Space.plc pkg t).loc (gpa / 64 * 64)
  let line := loc / 64
  let h := s.plcHolder die
  let st := s.stateIn line h
  let enough := match st with | some .m | some .e => true | some .s => !excl | _ => false
  if enough && hit then pure () else touchPlc die loc code t slot (s.prioWho who)
  if enough then
    if excl then setHolder line h (some .m) else pure ()
    return false
  else
    match ← askLine who core t pkg gpa va excl.toNat with
    | .lost => return true
    | .data bs pois flag =>
      if flag.testBit 0 || bs.length < 64 then return true
      else do
        upd (.poke loc (bs.take 64))
        if pois then each (fun k => upd (.poison (loc + 8 * k))) (List.range 8) else pure ()
        setHolder line h (some (if excl then .m else if flag.testBit 1 then .e else .s))
        return false

/-- The pieces of at most 16 bytes in which bytes are written at a peer's home: offset and bytes. -/
def farPieces : Nat → Nat → List Byte → List (Nat × List Byte)
  | 0, _, _ => []
  | f + 1, o, bs => if bs.isEmpty then [] else (o, bs.take 16) :: farPieces f (o + 16) (bs.drop 16)

/-- The answer to a request at a home or a bank, as an access sees it. -/
def Got.answer : Got → Option RAns
  | .lost => none
  | .data bs pois _ => some (let a := RAns.parse bs; if pois then { a with status := POISON } else a)

/-- A far atomic: one beat each way (R334); `also` happens when it is sent. -/
def askFar (who : Who) (core t pkg gpa va : Nat) (r : ROp) (also : M Unit := pure ()) : M (Option RAns) := do
  let s ← get
  let g ← remoteAs .link who (s.caFor core va) 0x07 pkg (peerChannel pkg t gpa) gpa t (s.prioWho who) { r with die := dieOf core }.bytes false also
  return g.answer

/-- The pieces of a write carried out in turn; the first that fails ends it. -/
def farWrites (who : Who) (core t pkg gpa va : Nat) (also : M Unit) : List (Nat × List Byte) → M (Option RAns)
  | [] => return some {}
  | (o, bs) :: r => do
    let n := leNat bs
    match ← askFar who core t pkg (gpa + o) va
        { op := roWrite, len := bs.length, a := BitVec.ofNat 64 n, b := BitVec.ofNat 64 (n / 2 ^ 64) } also with
    | some a => if a.status = 0 then farWrites who core t pkg gpa va (pure ()) r else return some a
    | none => return none

/-- A request carried out at a peer's home: a read of one line without a copy, a write in pieces of a beat, or an atomic (R334; log 12). -/
def askPeer (who : Who) (core t pkg gpa va : Nat) (r : ROp) (also : M Unit := pure ()) : M (Option RAns) :=
  if r.op = roRead then do
    match ← askLine who core t pkg gpa va 2 also with
    | .lost => return none
    | .data bs pois flag =>
      return some { status := if pois || flag.testBit 0 then POISON else 0, data := (bs.drop (gpa % 64)).take r.len }
  else if r.op = roWrite then farWrites who core t pkg gpa va also (farPieces (r.len / 16 + 1) 0 (r.data.take r.len))
  else askFar who core t pkg gpa va r

/-- Whether a request to a bank carries poisoned data: words of a write named in its mask, or a published word (R336). -/
def ROp.poisoned (r : ROp) : Bool := (r.op == roWrite && r.sub != 0) || (r.op == roPub && r.uns)

/-- A request to a bank of another package (R97, R339); `also` happens when it is sent. A lost die gives no answer (R418). -/
def askBankAs (cls : WaitClass) (who : Who) (core t pkg : Nat) (ca : Bool) (off : Nat) (r : ROp) (also : M Unit := pure ()) : M (Option RAns) := do
  let s ← get
  let addr := pkg * 2 ^ 36 + ca.toNat * 2 ^ 35 + off
  if s.calLost pkg ca then return none else pure ()
  let g ← remoteAs cls who ca 0x09 pkg (0x400 + off / 65536 % 64) addr t (s.prioWho who) { r with die := dieOf core }.bytes r.poisoned also
  return g.answer

def askBank (who : Who) (core t pkg : Nat) (ca : Bool) (off : Nat) (r : ROp) (also : M Unit := pure ()) : M (Option RAns) :=
  askBankAs .link who core t pkg ca off r also

/-- An answer with a status is a cause; none is a loss (R412, R418). -/
def answered (va : Word) (lost : BitVec 8) : Option RAns → M RAns
  | none => raise lost va
  | some a => if a.status = 0 then return a else raise a.status va

/-! ### Loads and stores performed -/

/-- The newest live version of a word, or 0 (R96). -/
def State.newest (s : State) (loc : Nat) : Word := ((s.vword loc).live.head?.map (·.2)).getD 0

/-- The bytes of the newest live versions from a location on (R96). -/
def State.newestBytes (s : State) (loc : Nat) : Nat → Nat
  | 0 => 0
  | n + 1 => (s.newest (loc / 8 * 8)).toNat / 2 ^ (8 * (loc % 8)) % 256 + 256 * State.newestBytes s (loc + 1) n

/-- Whether the newest live version of a word under the bytes is poisoned (R386, R387). -/
def State.newestBad (s : State) (loc n : Nat) : Bool :=
  (wordsOf loc n).any fun w => match (s.vword w).live with
    | e :: _ => (s.vword w).bad.contains e.1
    | [] => false

/-- The pieces of a range that lie in one granule of the race detector each (R120). -/
def granules (loc n : Nat) : List (Nat × Nat) :=
  (List.range ((loc + n - 1) / 32 - loc / 32 + 1)).map fun k =>
    let lo := max loc ((loc / 32 + k) * 32)
    (lo, min (loc + n) ((loc / 32 + k + 1) * 32) - lo)

/-- Who performs an access, for its core: the context, and the engine that waits for answers. -/
structure By where
  who : Who
  id : Nat
  pc : Word
  deriving DecidableEq, Repr

def byMe : M By := do
  let s ← get
  return ⟨.ctx s.dev.cur, s.dev.cur, (s.ctx s.dev.cur).pc⟩

/-- Whether the core's own stash sector or L1 line holds an address of a line that no reduction holds. -/
def State.hits (s : State) (core va line : Nat) : Bool :=
  let c := s.core core
  let held := match c.frameOf va with
    | some f => (SMap.find c.sect (sectKey f va)).isSome
    | none => (c.l1Find va).isSome
  held && !s.hasU line

/-- A cacheable line of the package, or a copy its PLC holds, goes through the core's stash frame or L1 (R84, R87). -/
def touchCore (b : By) (va : Nat) (leaf : Word) (loc code : Nat) (wr : Bool) (below : M Unit) : M Unit := do
  let s ← get
  let core := coreOf b.id
  let line := loc / 64
  let h := s.coreHolder core
  if s.hits core va line then pure () else below
  if wr then homeWrite b.who line (some h) else homeRead b.who line (some h)
  if wr then holdWrite core line else holdRead core line
  match (s.core core).frameOf va with
  | some f => upd (.core core fun c => { c with sect := SMap.put c.sect (sectKey f va) ⟨va / 64, leaf, line * 64, code, 0, 0⟩ })
  | none => fillL1 core va (line * 64) leaf code

/-- Whether an address of HBM is cached by the accessing core (R75, R80, R120). -/
def cacheable (core : Nat) (leaf : Word) : Bool := lfCM leaf && !lfVER leaf && !lfRD leaf && !isVent core

/-- The home made ready and the caches stepped for an access to HBM. With CM 0, and on an RD page, it looks no tags up; nor do a fetch and an
access to a VER page (log 44). -/
def touchHbm (b : By) (a : Acc) (phys d : Nat) (wr : Bool) : M Unit := do
  let s ← get
  let core := coreOf b.id
  let code := s.effCode core d
  let l2 := touchL2 phys code (s.tenOf core) (slotOf b.id)
  if cacheable core a.leaf then touchCore b a.va.toNat a.leaf (Space.hbm.loc phys) code wr l2
  else do
    if lfCM a.leaf && isVent core then touchL2 phys code (s.tenOf core) (slotOf b.id) wr else pure ()
    if wr then homeWrite b.who (phys / 64) none else homeRead b.who (phys / 64) none

/-- How a performed access reports a cause: an instruction raises it, an engine keeps it. -/
abbrev Fail := M Unit → BitVec 8 → Word → M Nat

def failMe : Fail := fun keep code va => raiseAfter keep code va

/-- Whether a page of a peer is cached for a core: vent cores perform such an access at the home (R75, R91, R120). -/
def peerCached (core : Nat) (leaf : Word) : Bool := lfCM leaf && !lfRD leaf && !isVent core

/-- The check of a sector's fill, as an access reports it (R398). -/
def stashFail (b : By) (fail : Fail) (a : Acc) : M Unit := do
  let s ← get
  if s.unstashable (coreOf b.id) a then do let _ ← fail (pure ()) STASH a.va else pure ()

/-- What the home or the bank of another package finds first when a stash frame is to turn an access away (R398, R428): requests that change
nothing there, of which a check of the granule refuses a versioned one. -/
def farFirst (b : By) (fail : Fail) (a : Acc) (rs : List ROp) : M Unit := do
  let s ← get
  let core := coreOf b.id
  let t := s.tenOf core
  let judge := fun (r : ROp) (x : Option RAns) => do
    match x with
    | none => pure ()
    | some x =>
      let c := if r.op = roCheck && x.status = 0 && x.flags.getLsbD 0 then VERSION else x.status
      if c = 0 || c = CALDERA_LOST then pure () else do let _ ← fail (pure ()) c a.va
  if !s.unstashable core a then pure ()
  else match a.tgt with
    | .cal pkg ca off =>
      if s.calHere pkg ca then pure ()
      else each (fun (r : ROp) => do judge r (← askBank b.who core t pkg ca off { r with ver := a.ver })) rs
    | .peer pkg gpa => each (fun (r : ROp) => do judge r (← askPeer b.who core t pkg gpa a.va.toNat r)) (rs.filter fun r => r.op == roRead)
    | _ => pure ()

/-- The bytes of a plain load (R213 steps 6 and 8, R387, R96); `also` happens in the step that sends it to another package. -/
def loadPlain (b : By) (fail : Fail) (a : Acc) (n d : Nat) (also : M Unit := pure ()) : M Nat := do
  let s ← get
  let core := coreOf b.id
  let t := s.tenOf core
  let here := fun (keep : M Unit) (loc : Nat) => do
    let s ← get
    if a.ver then (if s.newestBad loc n then fail keep POISON a.va else return s.newestBytes loc n)
    else if s.poisoned loc n then fail keep POISON a.va
    else return s.peek loc n
  let answer := fun (lost : BitVec 8) (r : Option RAns) =>
    match r with
    | none => do
      if lost = CALDERA_LOST then stashFail b fail a else pure ()
      fail (pure ()) lost a.va
    | some r => if r.status = 0 then pure (leNat (r.data.take n)) else fail (pure ()) r.status a.va
  match a.tgt with
  | .event off => return ((s.cluster (core / 4)).reg off).toNat
  | .device off => return (s.deviceReg core off).toNat
  | .lm c off => here (pure ()) ((Space.lm c).loc off)
  | .host u x => here (pure ()) ((Space.host u).loc x)
  | .cal pkg ca off =>
    if s.calHere pkg ca then here (pure ()) ((Space.cal ca).loc off)
    else answer CALDERA_LOST (← askBank b.who core t pkg ca off { op := roRead, len := n, ver := a.ver } also)
  | .hbm phys =>
    let loc := Space.hbm.loc phys
    if a.ver then here (pure ()) loc
    else do
      let ready := touchHbm b a phys d false
      ready
      here ready loc
  | .peer pkg gpa =>
    if peerCached core a.leaf then
      let loc := (Space.plc pkg t).loc gpa
      let code := s.effCode core d
      let lost ← plcFetch b.who core t pkg gpa a.va.toNat code (slotOf b.id) false (s.hits core a.va.toNat (loc / 64))
      if lost then fail (pure ()) POISON a.va
      else do
        touchCore b a.va.toNat a.leaf loc code false (pure ())
        here (pure ()) loc
    else answer POISON (← askPeer b.who core t pkg gpa a.va.toNat { op := roRead, len := n } also)

/-- The location by which the race detector knows the target of an access to an RD page, in whichever memory the page lies (R91, R121):
a page of another package is known to the accessing package by its address there (log 24). -/
def State.raceLoc (s : State) (t : Nat) (a : Acc) : Option Nat :=
  if a.ver || !lfRD a.leaf then none
  else match a.tgt with
    | .peer pkg gpa => some ((Space.plc pkg t).loc gpa)
    | .cal pkg ca off =>
      if pkg = s.pres.pkg.toNat then some ((Space.cal ca).loc off) else some ((Space.plc pkg 64).loc (ca.toNat * 2 ^ 31 + off))
    | .hbm _ | .host .. => s.locOf a.tgt
    | _ => none

/-- RaceStep of a plain access of n bytes (R121): in trap mode the entry it reports against, and otherwise what follows the access. -/
def raceOf (b : By) (a : Acc) (n : Nat) (store : Bool) : M (Option Shadow × M Unit) := do
  let s ← get
  let core := coreOf b.id
  let x := ctxOf b.id
  match s.raceLoc (s.tenOf core) a with
  | none => return (none, pure ())
  | some loc =>
    let gs := granules loc n
    let trap := if (s.part (s.pnodeOf core)).rdctl.toNat % 4 = 2 then gs.findSome? fun g => s.raced core x g.1 g.2 else none
    return (trap, each (fun g => raceStep core x g.1 g.2 store a.va b.pc) gs)

/-- Whether an access takes its reuse code from an RDEF that is marked (R85, R390). -/
def State.codeBad (s : State) (core : Nat) (a : Acc) (d : Nat) : Bool :=
  match a.tgt with
  | .hbm _ => d == 0 && !a.ver && lfCM a.leaf && (s.core core).cpois.contains cRDEF
  | .peer .. => d == 0 && peerCached core a.leaf && (s.core core).cpois.contains cRDEF
  | _ => false

def codeFail (b : By) (fail : Fail) (a : Acc) (d : Nat) : M Unit := do
  let s ← get
  if s.codeBad (coreOf b.id) a d then do let _ ← fail (pure ()) POISON 0 else pure ()

/-- Whether a plain access is made at another package: no copy of the line comes here. -/
def State.away (s : State) (core : Nat) (a : Acc) : Bool :=
  match a.tgt with
  | .cal pkg ca _ => !s.calHere pkg ca
  | .peer .. => !peerCached core a.leaf
  | _ => false

/-- The requests of the access that a requester makes now, when it has sent it or a part of it. -/
def State.mySent (s : State) (who : Who) : List Req := s.dev.reqs.filter fun r => r.who == who && decide (s.dev.ord ≤ r.ord)
def State.sent (s : State) (who : Who) : Bool := !(s.mySent who).isEmpty

/-- The access just sent is noted as racing with a shadow entry: its trap comes once its data have (R121, R428). -/
def noteTrap (e : Shadow) : M Unit :=
  upd (.dev fun d => { d with reqs := d.reqs.dropLast ++ (d.reqs.getLast?.map fun r => { r with trap := some e }).toList })

/-- A load that RaceStep traps takes RACE (R121, R396). -/
def raceFail (b : By) (fail : Fail) (a : Acc) (e : Shadow) (store : Bool) : M Unit := do
  let _ ← fail (logRace (coreOf b.id) (ctxOf b.id) e store a.va b.pc) RACE a.va

/-- What a load checks once it has its data: the fill of a stash sector, and RaceStep (R121, R398, R428 step 8). -/
def loadChecks (b : By) (fail : Fail) (a : Acc) (n : Nat) : M Unit := do
  stashFail b fail a
  match ← raceOf b a n false with
  | (some e, _) => raceFail b fail a e false
  | (none, step) => step

/-- A plain load of n bytes of one line at a resolved target, with the race detector's step (R121, R213). The step of a load from another
package is made when the load is sent (log 24). -/
def loadNat (b : By) (fail : Fail) (a : Acc) (n d : Nat) : M Nat := do
  codeFail b fail a d
  let s ← get
  if s.away (coreOf b.id) a then do
    let old := s.mySent b.who
    let also ← (if old.isEmpty then do
        match ← raceOf b a n false with
        | (some e, _) => pure (noteTrap e)
        | (none, step) => pure step
      else pure (pure ()))
    let v ← loadPlain b fail a n d also
    stashFail b fail a
    match old.head?.bind (·.trap) with
    | some e => raceFail b fail a e false
    | none => pure ()
    return v
  else do
    let v ← loadPlain b fail a n d
    loadChecks b fail a n
    return v

/-- The same for at most 8 bytes, zero-extended. -/
def loadAt (b : By) (fail : Fail) (a : Acc) (n d : Nat) : M Word := do
  let v ← loadNat b fail a n d
  return BitVec.ofNat 64 v

/-- The bytes of a plain store (R217, R392); `also` happens in the step that sends it to another package. -/
def storePlain (b : By) (fail : Fail) (a : Acc) (n d : Nat) (v : Word) (also : M Unit := pure ()) : M Unit := do
  let s ← get
  let core := coreOf b.id
  let t := s.tenOf core
  let bytes := leBytes n v.toNat
  match a.tgt with
  | .event off => upd (.cluster (core / 4) fun k => k.setReg off v)
  | .device _ => pure ()
  | .lm c off => upd (.poke ((Space.lm c).loc off) bytes)
  | .host u x => upd (.poke ((Space.host u).loc x) bytes)
  | .cal pkg ca off =>
    if s.calHere pkg ca then upd (.poke ((Space.cal ca).loc off) bytes)
    else
      match ← askBank b.who core t pkg ca off { op := roWrite, len := n, data := bytes } also with
      | none => do let _ ← fail (pure ()) CALDERA_LOST a.va
      | some r => if r.status = 0 then pure () else do let _ ← fail (pure ()) r.status a.va
  | .hbm phys => do
    touchHbm b a phys d true
    upd (.poke (Space.hbm.loc phys) bytes)
  | .peer pkg gpa =>
    if peerCached core a.leaf then
      let loc := (Space.plc pkg t).loc gpa
      let code := s.effCode core d
      let lost ← plcFetch b.who core t pkg gpa a.va.toNat code (slotOf b.id) true (s.hits core a.va.toNat (loc / 64))
      if lost then do let _ ← fail (pure ()) POISON a.va
      else do
        touchCore b a.va.toNat a.leaf loc code true (pure ())
        let s ← get
        setHolder (loc / 64) (s.plcHolder (dieOf core)) (some .m)
        upd (.poke loc bytes)
    else
      match ← askPeer b.who core t pkg gpa a.va.toNat { op := roWrite, len := n, data := bytes } also with
      | none => pure ()
      | some r => if r.status = 0 then pure () else do let _ ← fail (pure ()) r.status a.va

/-- A plain store of n bytes at a resolved target, with the race detector's step (R121, R217). A versioned word takes none (R392). The step
of a store to another package is made when the store is sent, and not again (log 24). -/
def storeAt (b : By) (fail : Fail) (a : Acc) (n d : Nat) (v : Word) : M Unit := do
  if a.ver then do let _ ← fail (pure ()) VERSION a.va
  else do
    codeFail b fail a d
    farFirst b fail a [{ op := roCheck, len := n }]
    stashFail b fail a
    let s ← get
    let away := s.away (coreOf b.id) a
    if away && s.sent b.who then storePlain b fail a n d v
    else
      match ← raceOf b a n true with
      | (some e, _) => raceFail b fail a e true
      | (none, step) =>
        if away then storePlain b fail a n d v step
        else do
          storePlain b fail a n d v
          step

end Sys2Proof.Machine
end

