-- ==== Sys2Proof/Machine/System.lean ====
section
/-!
DEFINITION. CSR access (R198, R199), traps and their return (R200 to R203), waiting, fetch and translation control (R205 to R208),
and context control (R209 to R212, R44, R45, R449).
-/

namespace Sys2Proof.Machine

open M

/-! ### Checks of agent and mode (R428, R430, R431) -/

/-- The word of an instruction, as XVAL holds it (R425). -/
def wordOf (i : Instr) : Word := ((encode i).getD 0).setWidth 64

/-- ILLEGAL_INSN unless the executing agent may issue the instruction. -/
def agent (i : Instr) (ok : Nat → Bool) : M Unit := do
  let id ← meId
  if ok id then pure () else raise ILLEGAL_INSN (wordOf i)

/-- PRIVILEGE unless the mode may issue the instruction. -/
def privilege (i : Instr) (ok : Bool → Bool) : M Unit := do
  let c ← me
  if ok c.sup then pure () else raise PRIVILEGE (wordOf i)

def onCompute (id : Nat) : Bool := !isVent (coreOf id)
def onVent (id : Nat) : Bool := isVent (coreOf id)
def isControl (id : Nat) : Bool := ctxOf id == 0

/-! ### Waiting for earlier accesses (R107, R199) -/

/-- The accesses before a fence have been performed (R107, R296, R321). -/
def fenceAll : M Unit := do
  flushWindow
  drainTiles
  drainVec

/-! ### CSR access -/

/-- The CSR instructions' checks: listed on this core, the class for a read or a write (R160, R161, R431). -/
def csrCheck (i : Instr) (n : Nat) (write : Bool) : M Unit := do
  let s ← get
  let vent := isVent (coreOf s.dev.cur)
  if vent && csrVentReserved n then raise ILLEGAL_INSN (wordOf i)
  else privilege i fun sup =>
    match csrClass n with
    | .user => true
    | .guarded => !write || sup
    | .supervisor => sup
    | .readOnly => !write

/-- The value a CSR instruction reads; FFLAGS waits for the context's queued vector instructions (R199, R390). -/
def csrRead (n : Nat) : M Word := do
  let s ← get
  let id := s.dev.cur
  if n = cFFLAGS && (s.core (coreOf id)).vq.any (fun e => e.ctx == id) then stall
  else if s.csrBad id n then raise POISON 0
  else return s.csr id n

/-- The CSRs whose write flushes the window and waits for earlier tile instructions (R295, R321). -/
def csrFlushes (n : Nat) : Bool := n == cMFMT || n == cMSCA || n == cMSCB || n == cMCODE || n == cRWPERM

/-- A write of STASHCFG: ignored while a frame is mapped or above 32; bytes that change hands are cleared (R83). One that leaves NFR as it is
is a write all the same (R390). -/
def writeStash (v : Word) : M Unit := do
  let core ← meCore
  let s ← get
  let c := s.core core
  let old := c.nfr
  let new := bitsOf v.toNat 0 6
  if isVent core || 32 < new then pure ()
  else if new = old then setCsr cSTASHCFG (BitVec.ofNat 64 new)
  else if !c.stash.isEmpty then pure ()
  else do
    let lo := 0x2F000 - 4096 * max old new
    let hi := 0x2F000 - 4096 * min old new
    upd (.scrub ((Space.lm core).loc lo) ((Space.lm core).loc hi))
    setCsr cSTASHCFG (BitVec.ofNat 64 new)

/-- A CSR written under its field map (R6, R160). -/
def csrWrite (n : Nat) (v : Word) : M Unit := do
  if csrFlushes n then drainTiles else pure ()
  if n = cSTASHCFG then writeStash v
  else do
    let old ← csrOf n
    setCsr n (csrMerge n old v)

def execCsrr (rd : XReg) (csr : BitVec 12) : State → Outcome := instr (do
  let n := csr.toNat
  csrCheck (.csrr rd csr) n false
  let v ← csrRead n
  wx rd v
  return {})

/-- With rd 0 the old value goes nowhere, and a poisoned CSR is not read (log 13). -/
def execCsrw (rd rs1 : XReg) (csr : BitVec 12) : State → Outcome := instr (do
  let n := csr.toNat
  csrCheck (.csrw rd rs1 csr) n true
  let v ← rx rs1
  let old ← if rd = 0 then pure 0 else do
    let s ← get
    if s.csrBad s.dev.cur n then raise POISON 0 else pure (s.csr s.dev.cur n)
  csrWrite n v
  wx rd old
  return {})

/-- `csrs` and `csrc`: no write when the rs1 field is 0 (R198). -/
def csrModify (i : Instr) (f : Word → Word → Word) (rd rs1 : XReg) (csr : BitVec 12) : M Fin := do
  let n := csr.toNat
  csrCheck i n (rs1 != 0)
  let v ← rx rs1
  let old ← csrRead n
  if rs1 = 0 then pure () else csrWrite n (f old v)
  wx rd old
  return {}

def execCsrs (rd rs1 : XReg) (csr : BitVec 12) : State → Outcome :=
  instr (csrModify (.csrs rd rs1 csr) (fun old v => old ||| v) rd rs1 csr)
def execCsrc (rd rs1 : XReg) (csr : BitVec 12) : State → Outcome :=
  instr (csrModify (.csrc rd rs1 csr) (fun old v => old &&& ~~~v) rd rs1 csr)

/-! ### Traps -/

/-- `ecall` and `brk` complete one step, then take their trap in front of the next instruction (R202). -/
def trapAfter (code : BitVec 8) : M Fin := do
  flushWindow
  drainTiles
  retireM {}
  let id ← meId
  deliver id { code := code }
  halt

def execEcall : State → Outcome := instr (trapAfter ECALL)
def execBrk : State → Outcome := instr (trapAfter BREAK)

/-- The CSRs from which a return replays the tile buffer: XPC0 and the TRB registers that TRN names (R304, R305). -/
def State.replayCsrs (s : State) (id : Nat) : List Nat :=
  let trn := bitsOf ((s.ctx id).csrGet (isVent (coreOf id)) cXSTAT).toNat 15 5
  if trn = 0 || ctxOf id ≠ 0 || isVent (coreOf id) then []
  else cXPC0 :: (List.range (2 * (if 16 < trn then 8 else trn / 2))).map (cTRB + ·)

/-- R203. The step counts as one instruction of the context (R39), and the queue is taken from the trap CSRs. -/
def execXret : State → Outcome := instr (do
  privilege .xret id
  let s ← get
  let id := s.dev.cur
  if ([cXSTAT, cXRESUME, cXPC1, cXPC2] ++ s.replayCsrs id).any fun n => s.csrBad id n then raise POISON 0
  else do
    updMe Ctx.tick
    upd (.core (coreOf id) (Core.retire {} 1 (isControl id)))
    forgetMine
    resumeTrap id
    halt)

/-! ### Waiting, fetch, translation and notification -/

/-- R205. -/
def execPark : State → Outcome := instr (do
  let c ← me
  if c.recvq.isEmpty then park .message else return {})

/-- Whether a tile instruction that has not retired stores to local memory. -/
def Core.tileStores (c : Core) : Bool :=
  c.win.any fun e => match decode e.op.word with | .ok (.tst ..) | .ok (.tbld ..) => true | _ => false

/-- R206: the stores of the context have been performed; this model then fetches each word when its turn comes, from memory as it
stands. -/
def execFenceI : State → Outcome := instr (do
  drainVec
  let c ← myCore
  if c.tileStores then drainTiles else pure ()
  return {})

/-- The partition on whose behalf a request has been made. -/
def State.partOfWho (s : State) : Who → Option Nat
  | .ctx id => some (s.pnodeOf (coreOf id))
  | .vec c => some (s.pnodeOf c)
  | .vop id => (s.dev.vops.find? fun o => o.id == id).map (·.pnode)
  | .port p => (s.port p).ld.map (·.pnode)
  | .pf k => (s.dev.cpfs.find? fun x => x.ticket == k).map fun x => s.pnodeOf (coreOf x.ctx)
  | .stv k => (s.stvCtx k).map fun id => s.pnodeOf (coreOf id)
  | .eng n =>
    if n < 10000 then some (s.pnodeOf n)
    else if n < 20000 then some (n - 10000)
    else if 400000 ≤ n && n < 900000 then some (s.pnodeOf (coreOf (n - 400000)))
    else if 900000 ≤ n && n < 910000 then (s.port (n - 900000)).ld.map (·.pnode)
    else none
  | .left => none

/-- Whether a request of an instruction to another package waits there for a version, and has used no translation yet. -/
def Req.waitsThere (r : Req) : Bool := r.pkt.kind.toNat == 9 && (ROp.parse r.pkt.payload).op == roLdv

/-- Whether a `stv` still waits at its word, here or at another package. -/
def StvWait.waits (e : StvWait) (rs : List Req) : Bool :=
  if e.far then rs.any fun r => r.who == .stv e.ticket && r.ans.isNone && !r.lost else e.res.isNone

/-- Whether an access in progress uses a translation that a test picks: a vent operation, a queued vector instruction or a waiting `stv` of
the address space, or a far atomic, a caldera access or another access that waits at another package, those of its ports included (R207,
R310, R416). -/
def State.inUse (s : State) (t p : Nat) (f : Nat → Word → Bool) : Bool :=
  (s.dev.vops.any fun o => o.ten == t && o.pnode == p && o.done.isNone && o.pages.any fun e => f e.1 e.2) ||
  ((s.nodeCores p).any fun c => (s.core c).vq.any fun e =>
    e.els.any fun x => inGlobal x.1.toNat && !inCaldera x.1.toNat && f x.1.toNat x.2) ||
  (s.dev.stvq.any fun e => e.node == p && e.waits s.dev.reqs && inGlobal e.va.toNat && !inCaldera e.va.toNat && f e.va.toNat e.leaf) ||
  s.dev.reqs.any fun r => s.partOfWho r.who == some p && r.who != .ctx s.dev.cur && !r.waitsThere

/-- The invalidation of another package's interfaces, acknowledged or lost (R207, R334, R412). -/
def invalidatePeers (t p va : Nat) (all : Bool) : M Unit := do
  let s ← get
  each (fun q =>
    if q = s.pres.pkg.toNat then pure ()
    else do
      let a := va / 2 ^ 19 + p * 2 ^ 40 + all.toNat * 2 ^ 55
      let _ ← remote (.ctx s.dev.cur) false 0x0C q 0x200 a t (s.prioOf (coreOf s.dev.cur)) []
      pure ()) (List.range s.pres.group)

/-- The steps of R207 for the pages a test picks. -/
def invalidate (all : Bool) (va : Nat) : M Fin := do
  fenceAll
  let s ← get
  let core := coreOf s.dev.cur
  let t := s.tenOf core
  let p := s.pnodeOf core
  let hit := fun (a : Nat) (l : Word) => all || samePage l a va
  if s.inUse t p hit then stall
  else do
    invalidatePeers t p va all
    upd (.dev fun d => { d with tlb := d.tlb.filter fun e => !(e.ten == t && e.pnode == p && (all || e.inPage va)) })
    upd (.dev fun d => { d with cpfs := d.cpfs.filter fun x => !(s.pnodeOf (coreOf x.ctx) == p && hit x.va x.leaf) })
    each (fun c => flushLines c (fun l => hit (l.va * 64) l.leaf) true) (s.nodeCores p)
    return {}

def execTlbi (kind : TlbiKind) : State → Outcome := instr (do
  privilege (.tlbi kind) id
  match kind with
  | .page r => do
    let v ← rx r
    invalidate false v.toNat
  | .all => invalidate true 0)

/-- R208, R347: a vector at or beyond the table's size sends nothing and is counted. -/
def execHnotify (rs1 : XReg) : State → Outcome := instr (do
  let v ← rx rs1
  fenceAll
  let s ← get
  let t := s.tenOf (coreOf s.dev.cur)
  let n := v.toNat % 2048
  if n < (s.vf t).msix then sendMsix t n
  else upd (.vf t fun f => { f with hndrop := f.hndrop + 1 })
  return {})

/-! ### Context control -/

/-- The target of a context-control instruction: another context of the core (R432). -/
def ctxTarget (rs1 : XReg) : M Nat := do
  let v ← rx rs1
  let id ← meId
  let x := v.toNat % 16
  if ctxCount (coreOf id) ≤ x || x = ctxOf id then raise ILLEGAL_OPERAND (BitVec.ofNat 64 x)
  else return ctxId (coreOf id) x

/-- The CSR a selector of KIND 1 names (R211). -/
def selCsr (k : Nat) : Nat :=
  [0x001, 0x002, 0x404, 0x405, 0x406, 0x407, 0x800, 0x801, 0x802, 0x803, 0x804, 0x805, 0x806, 0x807, 0x808, 0xC06].getD k 0

/-- The FLAGS item (R211). -/
def Ctx.flagsItem (c : Ctx) : Word :=
  BitVec.ofNat 64 (c.a1.toNat + 2 * c.a2.toNat + 4 * c.sup.toNat + 8 * c.pwait.toNat)

/-- A selector that only a compute core has: VL (R211). -/
def selOk (i : Instr) (sel : BitVec 12) : M Unit := agent i fun id => onCompute id || sel != 0x4F#12

/-- The checks of `ctxrd` and `ctxwr`: mode, selector, target, and that the target is STOPPED (R211, R432). -/
def ctxItem (i : Instr) (rs1 : XReg) (sel : BitVec 12) : M Nat := do
  selOk i sel
  privilege i id
  let t ← ctxTarget rs1
  let s ← get
  if (s.ctx t).run = .stopped then return t else raise ILLEGAL_OPERAND (BitVec.ofNat 64 (ctxOf t))

/-- FFLAGS waits for the target's queued vector instructions and, of a control context, for the tile instructions it still holds, whose flags
it is to hold (R199, R212); one that has met a cause while its context is STOPPED holds nothing back. -/
def execCtxrd (rd rs1 : XReg) (sel : BitVec 12) : State → Outcome := instr (do
  let t ← ctxItem (.ctxrd rd rs1 sel) rs1 sel
  let s ← get
  let c := s.ctx t
  let k := sel.toNat
  let vent := isVent (coreOf t)
  let v ← (if k < 32 then
      let r : XReg := BitVec.ofNat 5 k
      if c.busy r then stall else if c.bad r then raise POISON 0 else pure (c.rd r)
    else if k < 0x50 then
      let n := selCsr (k - 0x40)
      let k := s.core (coreOf t)
      if n = cFFLAGS && (k.vq.any (fun e => e.ctx == t) || (ctxOf t == 0 && k.tilesPending && !k.win.any (·.stuck))) then stall
      else if c.cpois.contains n then raise POISON 0 else pure (c.csrGet vent n)
    else if k = 0x80 then pure c.pc
    else if k = 0x81 then pure c.q1
    else if k = 0x82 then pure c.q2
    else if k = 0x83 then pure c.flagsItem
    else pure 4)
  wx rd v
  return {})

/-- A CSR item written by its field map; VL takes its seven bits (R211). -/
def Ctx.csrItem (vent : Bool) (n : Nat) (v : Word) (c : Ctx) : Ctx :=
  if n = cVL then c.csrSet vent n v else c.csrSet vent n (csrMerge n (c.csrGet vent n) v)

def execCtxwr (rd rs1 : XReg) (sel : BitVec 12) : State → Outcome := instr (do
  let t ← ctxItem (.ctxwr rd rs1 sel) rs1 sel
  let v ← rx rd
  let k := sel.toNat
  let vent := isVent (coreOf t)
  let word := fun (f : Ctx → Ctx) => if v.toNat % 4 = 0 then upd (.ctx t f) else raise ILLEGAL_OPERAND v
  if k < 32 then do
    let s ← get
    let r : XReg := BitVec.ofNat 5 k
    if (s.ctx t).busy r then do
      upd (.core (coreOf t) (Core.overtake t r .passed))
      upd (.ctx t (Ctx.wrOver r v))
    else upd (.ctx t fun c => c.wr r v)
  else if k < 0x50 then
    let n := selCsr (k - 0x40)
    if n = cVL && 64 < v.toNat then raise ILLEGAL_OPERAND v else upd (.ctx t (Ctx.csrItem vent n v))
  else if k = 0x80 then word fun c => { c with pc := v }
  else if k = 0x81 then word fun c => { c with q1 := v }
  else if k = 0x82 then word fun c => { c with q2 := v }
  else if k = 0x83 then upd (.ctx t fun c =>
    { c with a1 := v.getLsbD 0, a2 := v.getLsbD 1, sup := v.getLsbD 2, pwait := v.getLsbD 3 })
  else if v = (if ctxOf t = 0 then 0 else 1) then do
    retireM {}
    endContext t
    halt
  else raise ILLEGAL_OPERAND v
  return {})

/-- The context buffer of a context at MBOXBASE (R45). -/
def State.bufferVA (s : State) (id : Nat) : Word :=
  let core := coreOf id
  let i := core - 4 * nodeFirst (s.pnodeOf core)
  (s.core core).csrGet cMBOXBASE + BitVec.ofNat 64 (16384 * i + 1024 * ctxOf id)

/-- A message as the buffer holds it (R45). -/
def Msg.slotBytes (m : Msg) : List Byte := m.payload ++ leBytes 8 m.sender.toNat ++ leBytes 24 0

/-- The 1,024 bytes of a context buffer that holds messages (R45). -/
def bufferBytes (ms : List Msg) : List Byte :=
  let bs := leBytes 64 ms.length ++ ms.flatMap Msg.slotBytes
  bs ++ List.replicate (1024 - bs.length) 0

/-- A translation on behalf of no context in the ASID of a core's partition; what to do when it fails. -/
def nobodyXlate (core va : Nat) (k : AKind) (ask : Word → M Nat) : M Nat := do
  let s ← get
  let t := s.tenOf core
  readyWalk core t (s.pnodeOf core) va k false
  let s ← get
  match s.stage1 core t (s.pnodeOf core) va k false with
  | .ok l => do
    keepLeaf core t (s.pnodeOf core) va l
    match s.stage2 t (gpaOf l va) with
    | some a => return a
    | none => noteStall t (gpaOf l va)
  | .need _ aux => ask aux
  | .miss g => noteStall t g
  | .poison => stall

/-- The undelivered messages of a stopped context spilled to its buffer (R44, R45). A translation miss is asked for once, and
the executing instruction waits; `keep` is what it has done before. -/
def spill (keep : M Unit) (id : Nat) : M Unit := do
  keep
  let s ← get
  let c := s.ctx id
  if c.recvq.isEmpty || isVent (coreOf id) then pure ()
  else do
    let core := coreOf id
    useCsr cMBOXBASE
    let va := s.bufferVA id
    let bs := bufferBytes c.recvq
    each (fun i => do
      let x := va + BitVec.ofNat 64 (64 * i)
      let a ← nobodyXlate core x.toNat .store fun aux =>
        if c.ask.isSome then stop keep
        else stop (do
          keep
          upd (.ctx id fun c => { c with ask := some x })
          postMail (s.pnodeOf core) (s.nobody core)
            { kind := .translate, akind := 1, addr := x, aux := aux })
      homeWrite (.ctx s.dev.cur) (Space.hbm.loc a / 64) none
      upd (.poke (Space.hbm.loc a) ((bs.drop (64 * i)).take 64))
      match if i = 0 then none else c.recvq[i - 1]? with
      | some m => each (fun k => upd (.poison (Space.hbm.loc a + k))) m.poison
      | none => pure ()) (List.range 16)
    upd (.ctx id fun c => { c with spilled := c.recvq.length, recvq := [], ask := none })

/-- The spilled messages refill the receive queue in order, ahead of any new arrival (R44, R212). -/
def refill (id : Nat) : M Unit := do
  let s ← get
  let c := s.ctx id
  if c.spilled = 0 then pure ()
  else do
    let core := coreOf id
    useCsr cMBOXBASE
    let va := s.bufferVA id
    let ms ← mapL (fun m => do
      let x := va + BitVec.ofNat 64 (64 + 64 * m)
      let a ← nobodyXlate core x.toNat .load fun aux =>
        if c.ask.isSome then stall
        else stop (do
          upd (.ctx id fun c => { c with ask := some x })
          postMail (s.pnodeOf core) (s.nobody core)
            { kind := .translate, akind := 0, addr := x, aux := aux })
      homeRead (.ctx s.dev.cur) (Space.hbm.loc a / 64) none
      let s ← get
      let l := Space.hbm.loc a
      return (⟨s.bytesAt l 32, BitVec.ofNat 64 (s.peek (l + 32) 8),
        (List.range 4).filterMap fun k => if s.poisoned (l + 8 * k) 8 then some (8 * k) else none⟩ : Msg)) (List.range c.spilled)
    upd (.ctx id fun c => { c with recvq := ms ++ c.recvq, spilled := 0, ask := none })

/-- A context stopped (R209, R210): loads are completed; a wait for a mailbox reply is kept, and one that has acted stays noted
(R449). -/
def Ctx.stopped (c : Ctx) : Ctx :=
  { c.landAll with run := .stopped, wait := c.wait.filter (fun w => w.cls == .reply || w.cls == .fault), pwait := c.hasActed,
                   saved := if c.hasActed then c.noted else c.saved }

/-- Whether a context is in the middle of an access to another package, which completes first (R210). -/
def Ctx.midAccess (c : Ctx) : Bool := match c.wait with | some w => w.cls == .link | none => false

def execCtxkill (rs1 : XReg) : State → Outcome := instr (do
  privilege (.ctxkill rs1) id
  let t ← ctxTarget rs1
  let s ← get
  match (s.ctx t).run with
  | .free | .idle => return {}
  | .stopped => do
    spill (upd (.ctx t fun c => { c with held := none })) t
    return {}
  | _ =>
    if (s.ctx t).midAccess then stall
    else do
      spill (do
        upd (.ctx t Ctx.stopped)
        upd (.dev (Dev.forget (· == .ctx t)))
        if ctxOf t = 0 then upd (.core (coreOf t) (Core.flush false)) else pure ()) t
      return {})

/-- A stopped context goes on: with PWAIT it waits on, with a mailbox reply it waits or takes the latched one (R212, R433). -/
def Ctx.restored (q : Nat) (c : Ctx) : Ctx :=
  if c.pwait then Ctx.goOn true q c
  else match c.wait with
    | some w => if w.cls == .reply || w.cls == .fault then { c with run := .parked } else { c with run := .ready, wait := none }
    | none => { c with run := .ready }

def takeLatched (id : Nat) : M Unit := do
  let s ← get
  let c := s.ctx id
  match c.run, c.wait, c.latch with
  | .parked, some w, some r =>
    if w.cls == .reply || w.cls == .fault then do
      upd (.ctx id fun c => { c with latch := none })
      actReply id (w.cls == .fault) r
    else pure ()
  | _, _, _ => pure ()

/-- Whether an access that a stopped context issued before its stop has not been performed: a queued vector access, or a tile
instruction but one that has met a cause (R107, R210). -/
def State.issuedBefore (s : State) (t : Nat) : Bool :=
  let c := s.core (coreOf t)
  (c.vq.any fun e => e.ctx == t && isVmem e.instr) || (ctxOf t == 0 && (match c.win with | e :: _ => !e.stuck | [] => false))

def execCtxres (rs1 : XReg) : State → Outcome := instr (do
  privilege (.ctxres rs1) id
  let t ← ctxTarget rs1
  let s ← get
  if (s.ctx t).run ≠ .stopped then return {}
  else if s.issuedBefore t then stall
  else if !(s.ctx t).recvq.isEmpty && (s.ctx t).ask.isSome then stall
  else do
    refill t
    let q ← nextSeq
    upd (.ctx t (Ctx.restored q))
    takeLatched t
    return {})

end Sys2Proof.Machine
end

