-- ==== Sys2Proof/Machine/Engine.lean ====
section
/-!
DEFINITION. Accesses by the machine's own engines, on behalf of no context or of an instruction that names no address of its own:
table walks of futures and records, ports, the intake, launches. They translate in an address space as supervisor accesses
of no context, keep homes coherent, and answer why they cannot be performed (R45, R93, R383, R387).
-/

namespace Sys2Proof.Machine

open M

/-- Why an engine's access is not performed. -/
inductive EFail where
  | need (kind : MsgKind) (aux : Word)
  | poison
  | miss (gpa : Nat)
  | cause (code : BitVec 8)
  deriving DecidableEq, Repr

/-- The target of an engine's access in an address space, through the placement map of a core. -/
def engineTgt (core t p va : Nat) (k : AKind) : M (Except EFail (Tgt × Bool)) := do
  let s ← get
  if 2 ^ 52 ≤ va then return .error (.cause ILLEGAL_OPERAND)
  else if inCaldera va then
    match s.caldera t (va % 2 ^ 40) with
    | .ok r => return .ok r
    | .error e => return .error (.cause e)
  else do
  readyWalk core t p va k false
  let s ← get
  match s.stage1 core t p va k false with
  | .ok l => do
    keepLeaf core t p va l
    match s.route t l va with
    | .ok r => return .ok r
    | .error (_, some g) => return .error (.miss g)
    | .error (e, none) => return .error (.cause e)
  | .need kind aux => return .error (.need kind aux)
  | .poison => return .error .poison
  | .miss g => return .error (.miss g)

/-- The lines a range of locations touches. -/
def linesOf (loc n : Nat) : List Nat := (List.range ((loc + n - 1) / 64 - loc / 64 + 1)).map (loc / 64 + ·)

/-- The plain value of bytes at a location; none when a word of them is poisoned. -/
def State.plain (s : State) (loc n : Nat) (ver : Bool) : Option Nat :=
  if ver then (if s.newestBad loc n then none else some (s.newestBytes loc n)) else if s.poisoned loc n then none else some (s.peek loc n)

/-- An answer of another package to an engine; a loss gives a cause (R412, R418). -/
def engineAns (lost : BitVec 8) : Option RAns → Except EFail RAns
  | none => .error (.cause lost)
  | some r => if r.status = 0 then .ok r else .error (.cause r.status)

/-- A port unit's access to HBM looks the tags of its slice up, as owner 15 and with the default code (R88; log 44). -/
def touchUnit (who : Who) (t a : Nat) (wr : Bool) : M Unit :=
  match who with
  | .port _ => touchL2 a 8 t unitSlot wr
  | _ => pure ()

/-- Bytes read by an engine at a target, which an address of a core names. -/
def readTgt (who : Who) (core t va : Nat) (x : Tgt) (ver : Bool) (n : Nat) : M (Except EFail Nat) := do
  let s ← get
  let here := fun (loc : Nat) => do
    let s ← get
    match s.plain loc n ver with
    | some v => return Except.ok v
    | none => return .error .poison
  match x with
  | .hbm a => do
    touchUnit who t a false
    each (fun l => homeRead who l none) (linesOf (Space.hbm.loc a) n)
    here (Space.hbm.loc a)
  | .peer pkg g => do
    let r ← askPeer who core t pkg g va { op := roRead, len := n }
    return (engineAns POISON r).map fun r => leNat (r.data.take n)
  | .cal pkg ca off =>
    if s.calHere pkg ca then here ((Space.cal ca).loc off)
    else do
      let r ← askBank who core t pkg ca off { op := roRead, len := n, ver := ver }
      return (engineAns CALDERA_LOST r).map fun r => leNat (r.data.take n)
  | .lm c o => here ((Space.lm c).loc o)
  | .host u a => here ((Space.host u).loc a)
  | .event _ | .device _ => return .error (.cause ILLEGAL_OPERAND)

/-- Bytes written by an engine at a target; a versioned word takes no plain store (R392). -/
def writeTgt (who : Who) (core t va : Nat) (x : Tgt) (ver : Bool) (bs : List Byte) : M (Except EFail Unit) := do
  let s ← get
  if ver then return .error (.cause VERSION)
  else match x with
  | .hbm a => do
    touchUnit who t a true
    each (fun l => homeWrite who l none) (linesOf (Space.hbm.loc a) bs.length)
    upd (.poke (Space.hbm.loc a) bs)
    return .ok ()
  | .peer pkg g => do
    let r ← askPeer who core t pkg g va { op := roWrite, len := bs.length, data := bs }
    return (engineAns POISON r).map fun _ => ()
  | .cal pkg ca off =>
    if s.calHere pkg ca then do
      upd (.poke ((Space.cal ca).loc off) bs)
      return .ok ()
    else do
      let r ← askBank who core t pkg ca off { op := roWrite, len := bs.length, data := bs }
      return (engineAns CALDERA_LOST r).map fun _ => ()
  | .lm c o => do
    upd (.poke ((Space.lm c).loc o) bs)
    return .ok ()
  | .host u a => do
    upd (.poke ((Space.host u).loc a) bs)
    return .ok ()
  | .event _ | .device _ => return .error (.cause ILLEGAL_OPERAND)

/-- Bytes read by an engine at an address; the range lies in one page. -/
def engineRead (who : Who) (core t p va n : Nat) : M (Except EFail Nat) := do
  match ← engineTgt core t p va .load with
  | .error e => return .error e
  | .ok (x, ver) => readTgt who core t va x ver n

/-- Bytes written by an engine at an address; the range lies in one page. -/
def engineWrite (who : Who) (core t p va : Nat) (bs : List Byte) : M (Except EFail Unit) := do
  match ← engineTgt core t p va .store with
  | .error e => return .error e
  | .ok (x, ver) => writeTgt who core t va x ver bs

/-- The pieces of a range that lie in one line each. -/
def lineSpans : Nat → Nat → Nat → List (Nat × Nat)
  | 0, _, _ => []
  | f + 1, a, n =>
    if n = 0 then []
    else
      let m := min n (64 - a % 64)
      (a, m) :: lineSpans f (a + m) (n - m)

def spansOf (a n : Nat) : List (Nat × Nat) := lineSpans (n / 64 + 2) a n

/-- A longer range read line by line; the first failure ends it. -/
def engineBytes (who : Who) (core t p : Nat) : List (Nat × Nat) → M (Except EFail (List Byte))
  | [] => return .ok []
  | (a, n) :: r => do
    match ← engineRead who core t p a n with
    | .error e => return .error e
    | .ok v => do
      match ← engineBytes who core t p r with
      | .error e => return .error e
      | .ok bs => return .ok (leBytes n v ++ bs)

/-- A longer range written line by line. -/
def engineStore (who : Who) (core t p : Nat) : List (Nat × Nat) → List Byte → M (Except EFail Unit)
  | [], _ => return .ok ()
  | (a, n) :: r, bs => do
    match ← engineWrite who core t p a (bs.take n) with
    | .error e => return .error e
    | .ok _ => engineStore who core t p r (bs.drop n)

/-- The service core of a partition, through whose placement map its engines go (R27). -/
def State.serviceOf (s : State) (p : Nat) : Nat := (s.serviceCore p).getD 0

end Sys2Proof.Machine
end

