-- ==== Sys2Proof/Machine/Memory.lean ====
section
/-!
DEFINITION. Loads and stores (R216, R217), versioned words (R218 to R220, R392, R393), atomics (R221, R222, R388), reductions
(R223, R81, R389), fences and cache control (R224 to R226), and stash mapping (R227, R228, R398).
-/

namespace Sys2Proof.Machine

open M

/-- The effective address of an M-format access (R213). -/
def addrM (base : Word) (off : BitVec 8) (n : Nat) : Word := base + off.signExtend 64 * BitVec.ofNat 64 n

/-- Whether an access reaches the context's own LOCAL window, whose loads are exposed (R39, R73). -/
def exposed (va : Word) : Bool := va.toNat / 2 ^ 52 == 0xFFF && va.toNat % 2 ^ 52 < 0x100000

/-- A load's result: exposed from the LOCAL window, interlocked from every other (R216). The write of an exposed load lands
when two further instructions of the context have executed. -/
def loadInto (rd : XReg) (va v : Word) : M Unit := do
  let c ← me
  if exposed va then
    if c.busy rd then do
      let id ← meId
      updMyCore (Core.overtake id rd .loading)
    else pure ()
    if rd = 0 then pure ()
    else updMe fun c => { c with pend := c.pend ++ [⟨rd, v, 3⟩] }
  else wx rd v

/-- A load of n bytes, extended by `ext` (R216). -/
def loadOp (n : Nat) (ext : Word → Word) (rd rs1 : XReg) (off : BitVec 8) (nu : BitVec 4) : M Fin := do
  let base ← rx rs1
  let va := addrM base off n
  aligned va n
  let a ← locate .load va n
  let v ← loadAt (← byMe) failMe a n nu.toNat
  loadInto rd va (ext v)
  return { trc := true }

def execLb (rd rs1 : XReg) (off : BitVec 8) (nu : BitVec 4) : State → Outcome :=
  instr (loadOp 1 (fun v => sext 8 v.toNat) rd rs1 off nu)
def execLh (rd rs1 : XReg) (off : BitVec 8) (nu : BitVec 4) : State → Outcome :=
  instr (loadOp 2 (fun v => sext 16 v.toNat) rd rs1 off nu)
def execLw (rd rs1 : XReg) (off : BitVec 8) (nu : BitVec 4) : State → Outcome :=
  instr (loadOp 4 (fun v => sext 32 v.toNat) rd rs1 off nu)
def execLd (rd rs1 : XReg) (off : BitVec 8) (nu : BitVec 4) : State → Outcome := instr (loadOp 8 id rd rs1 off nu)
def execLbu (rd rs1 : XReg) (off : BitVec 8) (nu : BitVec 4) : State → Outcome := instr (loadOp 1 id rd rs1 off nu)
def execLhu (rd rs1 : XReg) (off : BitVec 8) (nu : BitVec 4) : State → Outcome := instr (loadOp 2 id rd rs1 off nu)
def execLwu (rd rs1 : XReg) (off : BitVec 8) (nu : BitVec 4) : State → Outcome := instr (loadOp 4 id rd rs1 off nu)

/-- A store of the low n bytes of a register (R217). -/
def storeOp (n : Nat) (rs rs1 : XReg) (off : BitVec 8) (nu : BitVec 4) : M Fin := do
  let base ← rx rs1
  let v ← rx rs
  let va := addrM base off n
  aligned va n
  let a ← locate .store va n
  storeAt (← byMe) failMe a n nu.toNat v
  return { trc := true }

def execSb (rs rs1 : XReg) (off : BitVec 8) (nu : BitVec 4) : State → Outcome := instr (storeOp 1 rs rs1 off nu)
def execSh (rs rs1 : XReg) (off : BitVec 8) (nu : BitVec 4) : State → Outcome := instr (storeOp 2 rs rs1 off nu)
def execSw (rs rs1 : XReg) (off : BitVec 8) (nu : BitVec 4) : State → Outcome := instr (storeOp 4 rs rs1 off nu)
def execSd (rs rs1 : XReg) (off : BitVec 8) (nu : BitVec 4) : State → Outcome := instr (storeOp 8 rs rs1 off nu)

/-! ### Versioned words -/

/-- Whether a version is live, and its value; whether it is gone (R218). -/
def VWord.value (x : VWord) (v : Nat) : Option Word := SMap.find x.live v
def VWord.gone (x : VWord) (v : Nat) : Bool :=
  match x.high with | some h => decide (v ≤ h) && (x.value v).isNone | none => false

/-- A granule of another package is asked at its bank; everything else must be versioned (R392). -/
def verTarget (a : Acc) : M (Option (Nat × Bool × Nat)) := do
  let s ← get
  match a.tgt with
  | .cal pkg ca off => if s.calHere pkg ca then (if a.ver then return none else raise VERSION a.va) else return some (pkg, ca, off)
  | _ => if a.ver then return none else raise VERSION a.va

/-- The location of an own versioned word. -/
def State.verLoc (s : State) (a : Acc) : Nat := (s.locOf a.tgt).getD 0

def execLdv (_scope : Scope) (rd rs1 : XReg) (s2 : S2) : State → Outcome := instr (do
  let va ← rx rs1
  let v := (← s2Val s2).toNat % 2 ^ 32
  flushWindow
  aligned va 8
  let a ← locate .ver va 8
  let b ← byMe
  match ← verTarget a with
  | some (pkg, ca, off) => do
    let s ← get
    let core := coreOf b.id
    farFirst b failMe a [{ op := roLdv, a := BitVec.ofNat 64 v, uns := true }]
    stashCheck a
    let r ← answered va CALDERA_LOST
      (← askBankAs .version b.who core (s.tenOf core) pkg ca off { op := roLdv, a := BitVec.ofNat 64 v, ver := a.ver })
    wx rd r.value
  | none => do
    let s ← get
    let x := s.vword (s.verLoc a)
    match x.value v with
    | some y => if x.bad.contains v then raise POISON va else do stashCheck a; wx rd y
    | none => if x.gone v then raise VERSION va else do stashCheck a; park .version
  return { trc := true })

/-- Whether a `stv` to a word would wait: four versions are live, or another `stv` waits in front of it (R219). -/
def State.stvWaits (s : State) (l : Nat) : Bool :=
  decide (4 ≤ (s.vword l).live.length) || s.dev.stvq.any fun e => !e.far && e.loc == l && e.res.isNone

/-- A `stv` joins the queue of its word, behind those that wait already. -/
def joinStv (e : StvWait) : M Unit := upd (.dev fun d => { d with stvq := d.stvq ++ [e] })

/-- A `stv` leaves the queue, and its request is forgotten. -/
def leaveStv (ticket : Nat) : M Unit :=
  upd (.dev fun d => { d.forget (· == .stv ticket) with stvq := d.stvq.filter fun e => e.ticket != ticket })

/-- What has become of a waiting `stv`: nothing yet, or 0 or its cause. -/
def State.stvResult (s : State) (e : StvWait) : Option (BitVec 8) :=
  if e.far then
    match s.dev.reqs.find? fun r => r.who == .stv e.ticket with
    | some r => match r.lost, r.ans with
      | true, _ => some CALDERA_LOST
      | false, some bs => some (if r.pois then POISON else (RAns.parse bs).status)
      | false, none => none
    | none => some CALDERA_LOST
  else e.res

/-- A `stv` that has begun to wait goes on (R449): it retires, or takes its cause, once its turn has come. A ticket that names no place
leaves nothing to wait for. -/
def stvGoesOn (ticket : Nat) : M Fin := do
  let s ← get
  match s.dev.stvq.find? fun e => e.ticket == ticket with
  | none => return { trc := true }
  | some e =>
    match s.stvResult e with
    | none => stall
    | some c =>
      if c = 0 then do
        leaveStv ticket
        return { trc := true }
      else raiseAfter (leaveStv ticket) c e.va

/-- Whether a waiting `stv` of a word of this package may be served: its word has a free slot, or its answer is due. -/
def State.stvReady (s : State) (e : StvWait) : Bool :=
  !e.far && (match e.res with
    | none => decide ((s.vword e.loc).live.length < 4)
    | some _ => e.pkt.isSome)

/-- The first `stv` that waits at a word with a free slot: its version is created, or it takes VERSION (R219); `answer` tells another
package. -/
def serveStv (answer : Packet → BitVec 8 → M Unit) : M Unit := do
  let s ← get
  match s.dev.stvq.find? s.stvReady with
  | none => pure ()
  | some e => do
    let bad := (s.vword e.loc).high.any fun h => decide (e.ver ≤ h)
    if bad || e.res.isSome then pure () else upd (.version e.loc e.ver e.val (e.pkt.any (·.poison)))
    let c := e.res.getD (if bad then VERSION else 0)
    match e.pkt with
    | some p => do
      leaveStv e.ticket
      answer p c
    | none => upd (.dev fun d => { d with stvq := d.stvq.map fun x => if x.ticket = e.ticket then { x with res := some c } else x })

/-- R219: a release (R110). One that has to wait joins its word's queue and has then acted (R449); one to another package has, once its
request is sent. -/
def execStv (_scope : Scope) (rs rs1 : XReg) (s2 : S2) : State → Outcome := instr (do
  let c ← me
  match c.wait.bind fun w => if w.cls == .version then w.acted else none with
  | some q => stvGoesOn q
  | none => do
    let va ← rx rs1
    let v := (← s2Val s2).toNat % 2 ^ 32
    let y ← rx rs
    fenceAll
    aligned va 8
    let a ← locate .verW va 8
    match ← verTarget a with
    | some (pkg, ca, off) => do
      let s ← get
      let core := coreOf s.dev.cur
      let t := s.tenOf core
      farFirst (← byMe) failMe a [{ op := roStv, a := BitVec.ofNat 64 v, uns := true }]
      stashCheck a
      if s.calLost pkg ca || s.unreachable pkg then raise CALDERA_LOST va
      else if s.tagsFull then stall
      else do
        let q ← nextSeq
        joinStv { ticket := q, loc := 0, ver := v, val := y, va := va, far := true, leaf := a.leaf, node := s.pnodeOf core }
        let o : ROp := { op := roStv, a := BitVec.ofNat 64 v, b := y, die := dieOf core, ver := a.ver }
        let p := s.packet 0x09 pkg (0x400 + off / 65536 % 64) (pkg * 2 ^ 36 + ca.toNat * 2 ^ 35 + off) s.freeTag t (s.prioOf core) o.bytes
        upd (.dev fun d => { d with reqs := d.reqs ++ [⟨.stv q, 0, p, none, false, false, 0, none⟩] })
        sendPacket ca p
        parkActed .version q
    | none => do
      let s ← get
      let l := s.verLoc a
      if s.stvWaits l then do
        stashCheck a
        let q ← nextSeq
        joinStv { ticket := q, loc := l, ver := v, val := y, va := va, leaf := a.leaf, node := s.pnodeOf (coreOf s.dev.cur) }
        parkActed .version q
      else if (s.vword l).high.any fun h => decide (v ≤ h) then raise VERSION va
      else do
        stashCheck a
        upd (.version l v y false)
        return { trc := true })

/-- The pieces of a range that lie in one 64 KiB block each: address and length. -/
def pieces : Nat → Nat → Nat → List (Nat × Nat)
  | 0, _, _ => []
  | f + 1, a, n =>
    if n = 0 then []
    else
      let m := min n (65536 - a % 65536)
      (a, m) :: pieces f (a + m) (n - m)

/-- The number of 64 KiB blocks a range can touch. -/
def pieceCount (n : Nat) : Nat := n / 65536 + 2

/-- Whether the words of a piece of a range are versioned; a granule of another package is checked and asked at its bank (R97, R392), and none
is a bank that does not answer. -/
def versionedAt (b : By) (core t : Nat) (a : Acc) (n : Nat) : M (Option Bool) := do
  let s ← get
  match a.tgt with
  | .cal pkg ca off =>
    if s.calHere pkg ca then return some a.ver
    else
      match ← askBank b.who core t pkg ca off { op := roCheck, len := n, ver := a.ver } with
      | none => return none
      | some r =>
        if r.status = 0 then return some (r.flags.getLsbD 0)
        else if r.status = CALDERA_LOST then return none
        else raise r.status a.va
  | _ => return some a.ver

/-- The address steps of every piece come first, then the object states in the order of R428. -/
def execRclm (rs rs1 : XReg) (s2 : S2) : State → Outcome := instr (do
  let len ← rx rs
  flushWindow
  if len = 0 then return { trc := true }
  else do
    let va ← rx rs1
    let v := (← s2Val s2).toNat % 2 ^ 32
    aligned va 8
    if len.toNat % 8 = 0 then pure () else raise MISALIGNED va
    let b ← byMe
    let s ← get
    let core := coreOf b.id
    let t := s.tenOf core
    let ps := pieces (pieceCount len.toNat) va.toNat len.toNat
    let as ← mapL (fun (p : Nat × Nat) => do
      let a ← locate .verW (BitVec.ofNat 64 p.1) 8
      let v ← versionedAt b core t a p.2
      return (a, p.2, v)) ps
    each (fun (e : Acc × Nat × Option Bool) => if e.2.2 = some false then raise VERSION e.1.va else pure ()) as
    each (fun (e : Acc × Nat × Option Bool) => stashCheck e.1) as
    each (fun (e : Acc × Nat × Option Bool) => if e.2.2.isNone then raise CALDERA_LOST e.1.va else pure ()) as
    each (fun (e : Acc × Nat × Option Bool) => do
      match ← verTarget e.1 with
      | some (pkg, ca, off) => do
        let _ ← answered e.1.va CALDERA_LOST
          (← askBank b.who core t pkg ca off { op := roRclm, a := BitVec.ofNat 64 v, len := e.2.1, ver := e.1.ver })
      | none => do
        let s ← get
        let l := s.verLoc e.1
        each (fun (w : Nat × VWord) => if l ≤ w.1 && w.1 < l + e.2.1 then upd (.retire w.1 v) else pure ()) s.vers) as
    return { trc := true })

/-! ### Atomics -/

/-- The new value of an atomic and the flags of `fadd` (R221); none writes nothing. -/
def amoNew (op : Nat) (w : Bool) (rm : RMode) (old b e : Nat) : Option Nat × Flags :=
  let n := widthBits w
  let so := (BitVec.ofNat n old).toInt
  let sb := (BitVec.ofNat n b).toInt
  if op = 0 then (some ((old + b) % 2 ^ n), 0)
  else if op = 1 then (some (if sb < so then b else old), 0)
  else if op = 2 then (some (if so < sb then b else old), 0)
  else if op = 3 then (some (if b < old then b else old), 0)
  else if op = 4 then (some (if old < b then b else old), 0)
  else if op = 5 then (some (old &&& b), 0)
  else if op = 6 then (some (old ||| b), 0)
  else if op = 7 then (some (old ^^^ b), 0)
  else if op = 8 then (some b, 0)
  else if op = 9 then (if old = e then some b else none, 0)
  else
    let r := (redFmt w).round rm (FVal.add rm ((redFmt w).val old) ((redFmt w).val b))
    (some r.1, r.2)

/-- An atomic on bytes of this package, as one step: the old value; poison is settled there (R388). -/
def amoHere (keep : M Unit) (op : Nat) (w : Bool) (rm : RMode) (a : Acc) (loc : Nat) (b e : Nat) : M (Nat × Flags) := do
  let s ← get
  let n := widthBytes w
  if s.poisoned loc n then raiseAfter keep POISON a.va
  else do
    stashCheck a
    let old := s.peek loc n
    let (new, fl) := amoNew op w rm old b e
    match new with
    | some x => upd (.poke loc (leBytes n x))
    | none => pure ()
    return (old, fl)

/-- FRM as an instruction reads it (R55, R390). -/
def readFrm : M RMode := do
  let c ← me
  let vent := isVent (← meCore)
  if c.cpois.contains cFRM then raise POISON 0 else return RMode.of ((c.csrGet vent cFRM).setWidth 2)

/-- Whether ORD carries an acquire or a release (R173). Either way this model performs every earlier access first (R108). -/
def ordFences (ord : BitVec 4) : Bool := ord != 0

/-- `amo.*` (R221, R222): performed where its location lives. -/
def amoOp (op : Nat) (w : Bool) (ord : BitVec 4) (rd rs1 rs2 : XReg) : M Fin := do
  let va ← rx rs1
  let b := (← rx rs2).toNat % 2 ^ widthBits w
  let e ← if op = 9 then rx rd else pure 0
  let e := e.toNat % 2 ^ widthBits w
  let n := widthBytes w
  if ordFences ord then fenceAll else pure ()
  let rm ← if op = 10 then readFrm else pure .rne
  aligned va n
  let a ← locate .amo va n
  let by' ← byMe
  codeFail by' failMe a 0
  let s ← get
  let core := coreOf by'.id
  let t := s.tenOf core
  let req : ROp := { op := roAmo, sub := op, w := w, len := match rm with | .rne => 0 | .rtz => 1 | .rup => 2 | .rdn => 3,
                     a := BitVec.ofNat 64 b, b := BitVec.ofNat 64 e }
  let (old, fl) ← (
    if a.ver then raise VERSION va
    else match a.tgt with
    | .lm c off => amoHere (pure ()) op w rm a ((Space.lm c).loc off) b e
    | .hbm phys => do
      let ready := do
        touchL2 phys (s.effCode core 0) t (slotOf by'.id) true
        homeWrite by'.who (phys / 64) none
      ready
      amoHere ready op w rm a (Space.hbm.loc phys) b e
    | .cal pkg ca off =>
      if s.calHere pkg ca then amoHere (pure ()) op w rm a ((Space.cal ca).loc off) b e
      else do
        farFirst by' failMe a [{ op := roCheck, len := n }, { op := roRead, len := n }]
        stashCheck a
        let r ← answered va CALDERA_LOST (← askBank by'.who core t pkg ca off req)
        pure (r.value.toNat, r.flags.setWidth 5)
    | .peer pkg gpa => do
      farFirst by' failMe a [{ op := roRead, len := n }]
      stashCheck a
      let r ← answered va POISON (← askPeer by'.who core t pkg gpa va.toNat req)
      pure (r.value.toNat, r.flags.setWidth 5)
    | _ => raise ILLEGAL_OPERAND va)
  orFlags by'.id fl
  wx rd (sext (widthBits w) old)
  return { trc := true }

def execAmoAdd (w : Bool) (ord : BitVec 4) (rd rs1 rs2 : XReg) : State → Outcome := instr (amoOp 0 w ord rd rs1 rs2)
def execAmoMin (w : Bool) (ord : BitVec 4) (rd rs1 rs2 : XReg) : State → Outcome := instr (amoOp 1 w ord rd rs1 rs2)
def execAmoMax (w : Bool) (ord : BitVec 4) (rd rs1 rs2 : XReg) : State → Outcome := instr (amoOp 2 w ord rd rs1 rs2)
def execAmoMinu (w : Bool) (ord : BitVec 4) (rd rs1 rs2 : XReg) : State → Outcome := instr (amoOp 3 w ord rd rs1 rs2)
def execAmoMaxu (w : Bool) (ord : BitVec 4) (rd rs1 rs2 : XReg) : State → Outcome := instr (amoOp 4 w ord rd rs1 rs2)
def execAmoAnd (w : Bool) (ord : BitVec 4) (rd rs1 rs2 : XReg) : State → Outcome := instr (amoOp 5 w ord rd rs1 rs2)
def execAmoOr (w : Bool) (ord : BitVec 4) (rd rs1 rs2 : XReg) : State → Outcome := instr (amoOp 6 w ord rd rs1 rs2)
def execAmoXor (w : Bool) (ord : BitVec 4) (rd rs1 rs2 : XReg) : State → Outcome := instr (amoOp 7 w ord rd rs1 rs2)
def execAmoSwap (w : Bool) (ord : BitVec 4) (rd rs1 rs2 : XReg) : State → Outcome := instr (amoOp 8 w ord rd rs1 rs2)
def execAmoCas (w : Bool) (ord : BitVec 4) (rd rs1 rs2 : XReg) : State → Outcome := instr (amoOp 9 w ord rd rs1 rs2)
def execAmoFadd (w : Bool) (ord : BitVec 4) (rd rs1 rs2 : XReg) : State → Outcome := instr (amoOp 10 w ord rd rs1 rs2)

/-! ### Reductions -/

/-- A reduction applied in place; on a poisoned word it is dropped and no agent is told (R389). -/
def redHere (g : RedTag) (loc b : Nat) : M Unit := do
  let s ← get
  let n := widthBytes g.w
  if s.poisoned loc n then pure () else upd (.poke loc (leBytes n (g.apply (s.peek loc n) b)))

/-- A reduction applied to a holder's partials (R81). -/
def applyPartial (g : RedTag) (off b : Nat) (ps : List Partial) : List Partial :=
  match ps.find? fun p => p.off == off with
  | some p => ps.map fun q => if q.off == off then { p with val := BitVec.ofNat 64 (g.apply p.val.toNat b) } else q
  | none => ps ++ [⟨off, g, BitVec.ofNat 64 (g.apply g.ident b), false⟩]

/-- Whether a holder's word is tagged with another kind or type (R81). -/
def tagClash (g : RedTag) (off : Nat) (ps : List Partial) : Bool := ps.any fun p => p.off / 8 == off / 8 && p.tag != g

/-- A reduction by the U-state protocol in the core's L1 or stash (R80, R81, R84). Neither the home's grant of U nor a write-back or a
collection that arrives at the home is a tag lookup of its slice, and SCLK does not count them (DESIGN CHOICE, log 44). -/
def redU (b : By) (va : Word) (leaf : Word) (phys : Nat) (g : RedTag) (v : Nat) : M Unit := do
  let s ← get
  let core := coreOf b.id
  let line := phys / 64
  let h := s.coreHolder core
  let off := phys % 64
  let clash := match s.stateIn line h with | some (.u ps) => tagClash g off ps | _ => false
  if clash then collect line else pure ()
  let s ← get
  each (fun (e : Nat × LSt) => match e.2 with
    | .u _ => pure ()
    | _ => if s.isOwn e.1 then leaveLine e.1 line else probePeer b.who line e.1 1) (s.holders line)
  let s ← get
  let ps := match s.stateIn line h with | some (.u ps) => ps | _ => []
  let code := s.effCode core 0
  match (s.core core).frameOf va.toNat with
  | some f => upd (.core core fun c =>
      { c with sect := SMap.put c.sect (sectKey f va.toNat) ⟨va.toNat / 64, leaf, line * 64, code, 0, 0⟩ })
  | none => fillL1 core va.toNat (line * 64) leaf code
  setHolder line h (some (.u (applyPartial g off v ps)))

/-- `red.*` (R223): returns nothing and sets no flag. One whose home is a lost package is dropped: no agent waits for it (R389, R412). -/
def redOp (kind : Nat) (uns w : Bool) (rs1 rs2 : XReg) : M Fin := do
  let va ← rx rs1
  let v := (← rx rs2).toNat % 2 ^ widthBits w
  let n := widthBytes w
  let g : RedTag := ⟨kind, uns, w⟩
  aligned va n
  let a ← locate .red va n
  let b ← byMe
  codeFail b failMe a 0
  let s ← get
  let core := coreOf b.id
  let t := s.tenOf core
  let req : ROp := { op := roRed, sub := kind, w := w, uns := uns, a := BitVec.ofNat 64 v }
  if a.ver then raise VERSION va
  else do
    farFirst b failMe a [{ op := roCheck, len := n }]
    stashCheck a
  match a.tgt with
  | .lm c off => redHere g ((Space.lm c).loc off) v
  | .hbm phys =>
    if cacheable core a.leaf then redU b va a.leaf phys g v
    else do
      touchL2 phys (s.effCode core 0) t (slotOf b.id) true
      homeWrite b.who (phys / 64) none
      redHere g (Space.hbm.loc phys) v
  | .cal pkg ca off =>
    if s.calHere pkg ca then redHere g ((Space.cal ca).loc off) v
    else do let _ ← answered va CALDERA_LOST (← askBank b.who core t pkg ca off req)
  | .peer pkg gpa => do
    match ← askPeer b.who core t pkg gpa va.toNat req with
    | none => pure ()
    | some r => do let _ ← answered va POISON (some r)
  | _ => raise ILLEGAL_OPERAND va
  return { trc := true }

def execRedAdd (w : Bool) (rs1 rs2 : XReg) : State → Outcome := instr (redOp 0 false w rs1 rs2)
def execRedFadd (w : Bool) (rs1 rs2 : XReg) : State → Outcome := instr (redOp 1 false w rs1 rs2)
def execRedMin (uns w : Bool) (rs1 rs2 : XReg) : State → Outcome := instr (redOp 2 uns w rs1 rs2)
def execRedMax (uns w : Bool) (rs1 rs2 : XReg) : State → Outcome := instr (redOp 3 uns w rs1 rs2)
def execRedOr (w : Bool) (rs1 rs2 : XReg) : State → Outcome := instr (redOp 4 false w rs1 rs2)

/-! ### Fences and cache control -/

/-- R224, R107: every earlier access has been performed; this model performs one access after another. -/
def execFence (_kind : FenceKind) (_scope : Scope) : State → Outcome := instr (do
  fenceAll
  return {})

/-- The executing core's copy of the line of an address: in its stash or its L1 (R225). -/
def State.ownCopy (s : State) (core va : Nat) : Option Line :=
  let c := s.core core
  match c.frameOf va with
  | some f => SMap.find c.sect (sectKey f va)
  | none => (c.l1Find va).map (·.2)

/-- A modified line of a peer written back by the PLC of a die, which keeps it (R225, R334); the home answers once it has it. Whether the line
is still as it was sent: one that has been stored to meanwhile stays modified. -/
def writeHome (who : Who) (core line ten : Nat) : M Bool := do
  let s ← get
  let loc := line * 64
  let pkg := plcPkg loc
  let gpa := plcGpa loc
  let die := dieOf core
  let n := s.dev.ord
  let _ ← remoteAs .link who (s.viaCa1 (viaKey false pkg ten gpa)) 0x03 pkg (peerChannel pkg ten gpa) (gpa + 1 + 4 * die) ten (s.prioWho who)
    (s.bytesAt loc 64) (s.poisoned loc 64)
  let same := s.dev.reqs.all fun r => r.who != who || decide (r.ord < n) || r.pkt.payload == s.bytesAt loc 64
  if same && s.stateIn line (s.plcHolder die) == some .m then setHolder line (s.plcHolder die) (some .e) else pure ()
  return same

/-- `cwb` and `cinv`: after the context's earlier stores; neither translates nor checks permissions (R225). -/
def cacheOp (inv : Bool) (rs1 : XReg) (imm : BitVec 12) : M Fin := do
  let base ← rx rs1
  let va := (base + immS imm).toNat
  drainVec
  let s ← get
  let core := coreOf s.dev.cur
  match if inGlobal va then s.ownCopy core va else none with
  | none => pure ()
  | some l =>
    let line := l.loc / 64
    let h := s.coreHolder core
    match s.stateIn line h with
    | some (.u _) => collect line
    | some .m => do
      let clean ← if l.loc < 2 ^ 60 then (do soilHome line; return true) else writeHome (.ctx s.dev.cur) core line (s.tenOf core)
      if inv then leaveLine h line else if clean then setHolder line h (some .e) else pure ()
    | _ => if inv then leaveLine h line else pure ()
  return {}

def execCwb (rs1 : XReg) (imm : BitVec 12) : State → Outcome := instr (cacheOp false rs1 imm)
def execCinv (rs1 : XReg) (imm : BitVec 12) : State → Outcome := instr (cacheOp true rs1 imm)

/-- A line brought into the core's L1 or stash, when its leaf still lets it (R226). -/
def prefetchLine (b : By) (x : Prefetch) : M Unit := do
  let s ← get
  let core := coreOf x.ctx
  let t := s.tenOf core
  let slot := slotOf x.ctx
  match s.route t x.leaf x.va with
  | .ok (.peer pkg gpa, _) => do
    let loc := (Space.plc pkg t).loc gpa
    let lost ← plcFetch b.who core t pkg gpa x.va x.code slot false (s.hits core x.va (loc / 64))
    if lost then pure () else touchCore b x.va x.leaf loc x.code false (pure ())
  | .ok (.hbm phys, _) => touchCore b x.va x.leaf (Space.hbm.loc phys) x.code false (touchL2 phys x.code t slot)
  | _ => pure ()

/-- A prefetch goes on until its line has arrived. -/
def prefetchStep (x : Prefetch) : M Unit := do
  prefetchLine ⟨.pf x.ticket, x.ctx, 0⟩ x
  upd (.dev fun d => { d with cpfs := d.cpfs.filter fun y => y.ticket != x.ticket })
  forget (.pf x.ticket)

/-- Whether a line must be sent, or given up, by another package before the core can have it. -/
def State.farLine (s : State) (core t : Nat) (leaf : Word) (va : Nat) : Bool :=
  match s.route t leaf va with
  | .ok (.peer pkg gpa, _) => (s.stateIn ((Space.plc pkg t).loc gpa / 64) (s.plcHolder (dieOf core))).isNone
  | .ok (.hbm phys, _) => (s.holders (phys / 64)).any fun h => !s.isOwn h.1
  | _ => false

/-- R226: dropped unless the interface holds a readable, cacheable translation. It never waits: a line that another package must send is
asked for, and arrives when it comes. -/
def execCpf (rs1 : XReg) (imm : BitVec 12) (nu : BitVec 4) : State → Outcome := instr (do
  let base ← rx rs1
  let va := (base + immS imm).toNat
  let s ← get
  let core := coreOf s.dev.cur
  let t := s.tenOf core
  if !inGlobal va || inCaldera va then pure ()
  else match s.cached (interfaceOf (s.core core).pmap core va) t (s.pnodeOf core) va with
  | none => pure ()
  | some e =>
    if !(lfR e.leaf && cacheable core e.leaf) then pure ()
    else do
      let q ← nextSeq
      let x : Prefetch := ⟨q, s.dev.cur, va, e.leaf, s.effCode core nu.toNat⟩
      if s.farLine core t e.leaf va then upd (.dev fun d => { d with cpfs := d.cpfs ++ [x] })
      else prefetchLine (← byMe) x
  return {})

/-! ### Stash mapping -/

def execSmap (rs1 : XReg) (f : BitVec 5) : State → Outcome := instr (do
  let v ← rx rs1
  useCsr cSTASHCFG
  let s ← get
  let core := coreOf s.dev.cur
  let c := s.core core
  let nfr := if isVent core then 0 else c.nfr
  let fx := BitVec.ofNat 64 f.toNat
  if nfr ≤ f.toNat || v.toNat % 4096 ≠ 0 || !inGlobal v.toNat ||
      (c.stash.any fun e => e.1 != f.toNat && e.2 == v) then raise STASH fx
  else do
    flushFrame core f.toNat
    flushLines core (fun l => l.va * 64 / 4096 == v.toNat / 4096) false
    upd (.core core fun c => { c with stash := SMap.put c.stash f.toNat v })
    return { trc := true })

def execSunmap (f : BitVec 5) : State → Outcome := instr (do
  useCsr cSTASHCFG
  let s ← get
  let core := coreOf s.dev.cur
  let nfr := if isVent core then 0 else (s.core core).nfr
  if nfr ≤ f.toNat then raise STASH (BitVec.ofNat 64 f.toNat)
  else do
    flushFrame core f.toNat
    upd (.core core fun c => { c with stash := c.stash.erase f.toNat })
    return { trc := true })

end Sys2Proof.Machine
end

