-- ==== Sys2Proof/Machine/Caldera.lean ====
section
/-!
DEFINITION. Allocation of caldera memory (R97, R98, R261 to R263, R414, R418, R420) and the scrubs that free granules and blocks
(R95, R391).
-/

namespace Sys2Proof.Machine

open M

/-- Granules of the window of a die, and of its storage (R97, R98). -/
def calGranules : Nat := 32768

/-- What a granule counts against quota and storage. -/
def granCost (vers : Bool) : Nat := if vers then 6 else 1

/-- USED of a tenant, and the storage in use by all of them. -/
def Cal.usedBy (c : Cal) (ten : Nat) : Nat := (c.gran.map fun e => if e.2.ten = ten then granCost e.2.vers else 0).sum
def Cal.inUse (c : Cal) : Nat := (c.gran.map fun e => granCost e.2.vers).sum
def Cal.limitOf (c : Cal) (ten : Nat) : Nat := SMap.get (fun _ => 0) c.limit ten

/-- CQUOTA (R98). -/
def Cal.quota (c : Cal) (ten : Nat) : Word := BitVec.ofNat 64 (c.usedBy ten * 2 ^ 32 + c.limitOf ten)

/-- The runs of granules that nobody holds: first granule and length. -/
def freeRuns : Nat → SMap Gran → List (Nat × Nat)
  | lo, [] => [(lo, calGranules - lo)]
  | lo, (k, _) :: m => (lo, k - lo) :: freeRuns (k + 1) m

/-- The n-th place at which c granules fit. -/
def nthStart (c : Nat) : Nat → List (Nat × Nat) → Option Nat
  | _, [] => none
  | n, (lo, len) :: m =>
    let k := len + 1 - c
    if n < k then some (lo + n) else nthStart c (n - k) m

/-- `cm.alloc` at a die: the first granule, none without room, or the cost that QUOTA reports (R261, R420). -/
def Cal.alloc (c : Cal) (ten pkg n : Nat) (vers : Bool) (pick : Nat) : Except Nat (Option (Nat × Cal)) :=
  let cost := n * granCost vers
  if c.limitOf ten < c.usedBy ten + cost then .error cost
  else
    let runs := freeRuns 0 c.gran
    let places := (runs.map fun r => r.2 + 1 - n).sum
    if places = 0 || calGranules < c.inUse + cost then .ok none
    else match nthStart n (pick % places) runs with
      | none => .ok none
      | some g =>
        .ok (some (g, { c with gran := (List.range n).foldl (fun m k => SMap.put m (g + k) ⟨ten, pkg, vers⟩) c.gran }))

/-- The address of a granule (R97, R261). -/
def granVA (pkg : Nat) (ca : Bool) (g : Nat) : Word :=
  BitVec.ofNat 64 (0xF_FF00_0000_0000 + pkg * 2 ^ 36 + ca.toNat * 2 ^ 35 + g * 2 ^ 16)

/-- The allocation performed at a die of this package; the answer is the base, or 0. -/
def allocHere (ca : Bool) (ten pkg n : Nat) (vers : Bool) : M (Except Nat Word) := do
  let k ← freeIx
  let s ← get
  match (s.cal ca).alloc ten pkg n vers (Config.granPick k) with
  | .error cost => return .error cost
  | .ok none => return .ok 0
  | .ok (some (g, c)) => do
    upd (.cal ca fun _ => c)
    return .ok (granVA s.pres.pkg.toNat ca g)

/-- Whether a tenant holds a run of granules of a die, none of them being scrubbed. -/
def State.holds (s : State) (ca : Bool) (ten g n : Nat) : Bool :=
  decide (g + n ≤ calGranules) && (List.range n).all fun k =>
    match SMap.find (s.cal ca).gran (g + k) with
    | some x => x.ten == ten && !s.dev.scrubs.any fun x => match x.of with
      | .gran c h => c == ca && h == g + k
      | .block _ => false
    | none => false

/-- Whether a location lies in what is being scrubbed. -/
def ScrubOf.covers (x : ScrubOf) (loc : Nat) : Bool :=
  match x with
  | .gran ca g => (Space.cal ca).loc (g * 65536) ≤ loc && loc < (Space.cal ca).loc ((g + 1) * 65536)
  | .block b => loc / 2 ^ 25 == b

/-- A scrub begins, under a number of its own (R95); a `stv` that waits there takes a cause: at a granule that of an access to one that is not
held, and at a block that of a stage-2 miss (R391; log 22). -/
def beginScrub (x : ScrubOf) (cause : BitVec 8) : M Nat := do
  let q ← nextSeq
  upd (.dev fun d => { d with scrubs := d.scrubs ++ [⟨q, x⟩]
                              stvq := d.stvq.map fun e => if !e.far && x.covers e.loc && e.res.isNone
                                then { e with res := some cause } else e })
  return q

/-- Every other package that can be reached is told what is released, and scrubs wait for its acknowledgement (R95, R412; log 12). -/
def tellScrub (ids : List Nat) (t addr : Nat) : M Unit := do
  let s ← get
  each (fun q => do
    let s ← get
    if (s.peer q).lost || s.unreachable q then pure ()
    else do
      let tag := s.freeTag
      upd (.dev fun d => { d with acks := d.acks ++ ids.map fun id => (id, tag * 16 + q) })
      sendPacket false (s.packet 0x0E q 0x200 addr tag t 3 [])) s.peers

/-- Whether a cached translation is of a page over window offsets from `lo` to `hi - 1`. -/
def TlbEnt.overWindow (lo hi : Nat) (e : TlbEnt) : Bool :=
  lfAPT e.leaf == 2 && decide (lfFRAME e.leaf * 2 ^ 19 < hi) && decide (lo < lfFRAME e.leaf * 2 ^ 19 + 2 ^ lfLog e.leaf)

/-- Every translation of window offsets gone from the interfaces (R95). -/
def dropWindow (lo hi : Nat) : M Unit := upd (.dev fun d => { d with tlb := d.tlb.filter fun e => !e.overWindow lo hi })

/-- A run of granules of a die of this package released (R95). -/
def releaseRun (ca : Bool) (t g n : Nat) : M Unit := do
  let s ← get
  let lo := s.pres.pkg.toNat * 2 ^ 36 + ca.toNat * 2 ^ 35 + g * 2 ^ 16
  dropWindow lo (lo + n * 2 ^ 16)
  let ids ← mapL (fun k => beginScrub (.gran ca (g + k)) ILLEGAL_OPERAND) (List.range n)
  tellScrub ids t (2 ^ 55 + lo + (n - 1))

/-- The runs of an ascending list: first number and length. -/
def runsOf : List Nat → List (Nat × Nat)
  | [] => []
  | g :: gs => match runsOf gs with
    | (h, n) :: r => if h = g + 1 then (g, n + 1) :: r else (g, 1) :: (h, n) :: r
    | [] => [(g, 1)]

/-- The free performed at a die of this package; whether every granule was the tenant's (R262). -/
def freeHere (ca : Bool) (ten g n : Nat) : M Bool := do
  let s ← get
  if s.holds ca ten g n then do
    releaseRun ca ten g n
    return true
  else return false

/-- Every granule of a die that a tenant holds and that a package has allocated freed (R422). -/
def freeAll (ca : Bool) (t pkg : Nat) : M Unit := do
  let s ← get
  each (fun (r : Nat × Nat) => releaseRun ca t r.1 r.2) (runsOf (((s.cal ca).gran.filter fun e =>
    e.2.ten == t && e.2.pkg == pkg && s.holds ca t e.1 1).map (·.1)))

/-- The die a selector names: package, die and VERS; checked. A package that has left the group for good is none of it (R260, R414). -/
def selector (v : Word) (versOk : Bool) (xval : Word) : M (Nat × Bool × Bool) := do
  let s ← get
  let n := v.toNat
  let pkg := bitsOf n 1 4
  let gone := pkg ≠ s.pres.pkg.toNat && (SMap.get (fun _ => Peer.reset) s.dev.peers pkg).gone
  if 2 ^ 9 ≤ n || bitsOf n 5 3 ≠ 0 || s.pres.group ≤ pkg || gone || (n.testBit 8 && !versOk) then raise ILLEGAL_OPERAND v
  else if s.calLost pkg (n.testBit 0) then raise CALDERA_LOST xval
  else return (pkg, n.testBit 0, n.testBit 8)

def execCmAlloc (rd rs1 : XReg) (s2 : S2) : State → Outcome := instr (do
  let c := (← rx rs1).toNat
  let (pkg, ca, vers) ← selector (← s2Val s2) true 0
  let s ← get
  let id := s.dev.cur
  let t := s.tenOf (coreOf id)
  let v ← (if c = 0 || 32768 < c then pure (0 : Word)
    else if pkg = s.pres.pkg.toNat then do
      match ← allocHere ca t pkg c vers with
      | .ok v => return v
      | .error cost => raise QUOTA (BitVec.ofNat 64 cost)
    else do
      match ← askBank (.ctx id) (coreOf id) t pkg ca 0 { op := roAlloc, uns := vers, a := BitVec.ofNat 64 c } with
      | none => raise CALDERA_LOST 0
      | some r =>
        if r.status = 0 then return r.value
        else raise r.status (if r.status = QUOTA then BitVec.ofNat 64 (c * granCost vers) else 0))
  wx rd v
  return {})

def execCmFree (rs1 : XReg) (s2 : S2) : State → Outcome := instr (do
  let base ← rx rs1
  let c := (← s2Val s2).toNat
  fenceAll
  let s ← get
  let id := s.dev.cur
  let t := s.tenOf (coreOf id)
  let o := base.toNat % 2 ^ 40
  let pkg := calPkg o
  if c = 0 then return {}
  else if !inCaldera base.toNat || !calOk o || o % 2 ^ 16 ≠ 0 || s.pres.group ≤ pkg then raise ILLEGAL_OPERAND base
  else if s.calLost pkg (calCa o) then raise CALDERA_LOST base
  else if pkg = s.pres.pkg.toNat then do
    if ← freeHere (calCa o) t (calOff o / 65536) c then return {} else raise ILLEGAL_OPERAND base
  else do
    let n := BitVec.ofNat 64 (min c (2 ^ 32))
    let _ ← answered base CALDERA_LOST (← askBank (.ctx id) (coreOf id) t pkg (calCa o) (calOff o) { op := roFree, a := n })
    return {})

def execCmQuery (rd : XReg) (s2 : S2) : State → Outcome := instr (do
  let (pkg, ca, _) ← selector (← s2Val s2) false 0
  let s ← get
  let id := s.dev.cur
  let t := s.tenOf (coreOf id)
  let v ← (if pkg = s.pres.pkg.toNat then pure ((s.cal ca).quota t)
    else do
      let r ← answered 0 CALDERA_LOST (← askBank (.ctx id) (coreOf id) t pkg ca 0 { op := roQuery })
      return r.value)
  wx rd v
  return {})

/-! ### Scrubs (R95, R98, R391) -/

/-- Every copy of the lines of a range of locations is gone from this package and its directory, without write-back (R391). -/
def dropRange (lo hi : Nat) : M Unit :=  do
  let s ← get
  let within := fun (line : Nat) => lo / 64 ≤ line && line < hi / 64
  each (fun (e : Nat × Core) => upd (.core e.1 fun c =>
    { c with l1 := c.l1.filter fun l => !within (l.2.loc / 64), sect := c.sect.filter fun l => !within (l.2.loc / 64) })) s.cores
  each (fun (e : Nat × Cache) => if 384 ≤ e.1 then upd (.cache e.1 (Cache.leaveAll fun l => within l.tag)) else pure ()) s.caches
  upd (.dev fun d => { d with dir := d.dir.filter fun e => !within e.1 })

/-- The lines of a physical block are gone from the L2 slices (R95). -/
def dropL2 (lo hi : Nat) : M Unit := do
  let s ← get
  each (fun (e : Nat × Cache) => if e.1 < 384 then upd (.cache e.1 (Cache.leaveAll fun l => lo / 64 ≤ l.tag && decide (l.tag < hi / 64)))
    else pure ()) s.caches

/-- SCRUB_COMPLETE: the block or granule holds zeros, no poison, no version and no shadow entry, and is free, once the other packages have
acknowledged (R95, R391, R412). -/
def execScrubComplete (id : Nat) : State → Outcome := event (do
  let s ← get
  match s.dev.scrubs.find? fun x => x.id == id with
  | none => stall
  | some x =>
    if s.dev.acks.any fun a => a.1 == id then stall
    else do
      match x.of with
      | .gran ca g => do
        upd (.scrub ((Space.cal ca).loc (g * 65536)) ((Space.cal ca).loc ((g + 1) * 65536)))
        upd (.cal ca fun c => { c with gran := c.gran.erase g })
      | .block phys => do
        let lo := Space.hbm.loc (phys * 2 ^ 25)
        dropRange lo (lo + 2 ^ 25)
        dropL2 lo (lo + 2 ^ 25)
        upd (.scrub lo (lo + 2 ^ 25))
      upd (.dev fun d => { d with scrubs := d.scrubs.filter fun y => y.id != id }))

end Sys2Proof.Machine
end

