-- ==== Sys2Proof/Machine/Event.lean ====
section
/-!
DEFINITION. The event instructions (R230 to R234, R435): barriers and their chains, event lines and mutexes. The group barrier
packets have a layout of this model's own (log 12).
-/

namespace Sys2Proof.Machine

open M

/-- The position of the executing core in its cluster, and its cluster. -/
def evSetup (i : Instr) : M (Nat × Nat × Cluster) := do
  agent i onCompute
  flushWindow
  let s ← get
  let core := coreOf s.dev.cur
  return (core / 4, core % 4, s.cluster (core / 4))

/-- JOIN of a position (R230). -/
def Bar.joined (b : Bar) (c : Nat) : BitVec 32 := SMap.get (fun _ => 0xFFFF_FFFF) b.join c

/-- Complete of one cluster's barrier (R230, R120). -/
def completeBar (b k : Nat) : M Unit :=
  upd (.cluster k fun c => { c.setBar b (fun x => { x with gen := x.gen + 1, arr := 0 }) with intv := c.intv + 1 })

/-- The members of a chained barrier in this package (R231). -/
def State.chainMembers (s : State) (k b : Nat) : List Nat :=
  let c := ((s.cluster k).bar b).chain
  let p := (s.partOfCluster k).getD 0
  (s.nodeClusters p).filter fun j => ((s.cluster j).bar b).chain == c && (c != 3 || j / 256 == k / 256)

/-- Whether every listed cluster's positions have arrived. -/
def State.allArrived (s : State) (b : Nat) (ks : List Nat) : Bool :=
  ks.all fun k => ((s.cluster k).bar b).arr == ((s.cluster k).bar b).pmask

/-! ### Barriers chained over the group (R231, R334, R412; log 12) -/

/-- What this package knows of package q for barrier b of partition p: 0 no member, 1 + n a member with n arrivals pending. For
this package itself 1 says that its arrival has been sent. -/
def gKey (p b q : Nat) : Nat := (p * 4 + b) * 16 + q
def State.gbarOf (s : State) (p b q : Nat) : Nat := SMap.get (fun _ => 0) s.dev.gbar (gKey p b q)
def setGbar (p b q n : Nat) : M Unit := upd (.dev fun d => { d with gbar := SMap.set (fun _ => 0) d.gbar (gKey p b q) n })

/-- A group barrier packet to every peer that is not lost; `flags` 0 an arrival, 1 joining, 2 leaving. -/
def tellGroup (p b flags : Nat) : M Unit := do
  let s ← get
  let t := ((s.part p).ten).getD 0
  each (fun q =>
    if (s.peer q).lost then pure ()
    else sendPacket false (s.packet 0x0B q 0x800 (p + b * 2 ^ 11 + flags * 2 ^ 13) 0 t (s.classOf p) [])) s.peers

/-- The clusters of a partition whose barrier is chained over the group. -/
def State.groupMembers (s : State) (p b : Nat) : List Nat :=
  (s.nodeClusters p).filter fun j => ((s.cluster j).bar b).chain == 5

/-- A group barrier completes in this package when its arrival has been sent and every member package that is not lost has
one pending (R231, R412). -/
def groupCheck (p b : Nat) : M Unit := do
  let s ← get
  let ks := s.groupMembers p b
  let live := s.peers.filter fun q => s.gbarOf p b q != 0 && !(s.peer q).lost
  if s.gbarOf p b s.pres.pkg.toNat = 1 && live.all fun q => decide (2 ≤ s.gbarOf p b q) then do
    each (fun q => setGbar p b q (s.gbarOf p b q - 1)) live
    setGbar p b s.pres.pkg.toNat 0
    each (completeBar b) ks
  else pure ()

/-- A barrier that may have become complete (R230, R231). -/
def barrierCheck (k b : Nat) : M Unit := do
  let s ← get
  let x := (s.cluster k).bar b
  if x.arr ≠ x.pmask || x.arr = 0 then pure ()
  else if x.chain = 0 then completeBar b k
  else
    let ks := s.chainMembers k b
    if !s.allArrived b ks then pure ()
    else if x.chain ≠ 5 then each (completeBar b) ks
    else do
      let p := (s.partOfCluster k).getD 0
      if s.gbarOf p b s.pres.pkg.toNat = 0 then do
        tellGroup p b 0
        setGbar p b s.pres.pkg.toNat 1
      else pure ()
      groupCheck p b

/-! ### The instructions -/

def execEvArrive (b : BitVec 2) : State → Outcome := instr (do
  let (k, c, u) ← evSetup (.evArrive b)
  let x := u.bar b.toNat
  if !x.pmask.getLsbD c then raise ILLEGAL_OPERAND (b.setWidth 64)
  else if x.arr.getLsbD c then park .event
  else do
    fenceAll
    upd (.cluster k fun u => u.setBar b.toNat fun x =>
      { x with arr := x.arr ||| (1#4 <<< c), join := SMap.set (fun _ => 0xFFFF_FFFF) x.join c x.gen })
    barrierCheck k b.toNat
    return {})

def execEvWait (b : BitVec 2) : State → Outcome := instr (do
  let (_, c, u) ← evSetup (.evWait b)
  let x := u.bar b.toNat
  if x.gen = x.joined c then park .event else return {})

/-- R232; the order of waiters is the order of their wait records. -/
def execEvWaitE (l : BitVec 4) : State → Outcome := instr (do
  let (k, _, u) ← evSetup (.evWaitE l)
  if u.lines.getLsbD l.toNat then do
    upd (.cluster k fun u => { u with lines := u.lines &&& ~~~(1#16 <<< l.toNat) })
    return {}
  else park .event)

def execEvSignal (l : BitVec 4) : State → Outcome := instr (do
  let (k, _, _) ← evSetup (.evSignal l)
  fenceAll
  upd (.cluster k fun u => { u with lines := u.lines ||| (1#16 <<< l.toNat) })
  return {})

def execEvLock (m : BitVec 3) : State → Outcome := instr (do
  let (k, _, u) ← evSetup (.evLock m)
  let id ← meId
  match SMap.find u.mutex m.toNat with
  | some h => if h = id then raise ILLEGAL_OPERAND (m.setWidth 64) else park .event
  | none => do
    upd (.cluster k fun u => { u with mutex := SMap.put u.mutex m.toNat id })
    return {})

def execEvUnlock (m : BitVec 3) : State → Outcome := instr (do
  let (k, _, u) ← evSetup (.evUnlock m)
  let id ← meId
  if SMap.find u.mutex m.toNat = some id then do
    fenceAll
    upd (.cluster k fun u => { u with mutex := u.mutex.erase m.toNat })
    return {}
  else raise ILLEGAL_OPERAND (m.setWidth 64))

/-- The code of a chain scope (R231). -/
def chainCode : ChainScope → BitVec 3
  | .none => 0
  | .die => 3
  | .pkg => 4
  | .grp => 5

def execEvChain (scope : ChainScope) (b : BitVec 2) : State → Outcome := instr (do
  let (k, _, _) ← evSetup (.evChain scope b)
  upd (.cluster k fun u => u.setBar b.toNat fun x => { x with chainReq := some (chainCode scope) })
  return {})

/-- The chain requests of a cluster take effect at a superstep boundary (R231, R47). -/
def applyChains (p : Nat) : M Unit := do
  let s ← get
  let ks := s.nodeClusters p
  each (fun b => do
    let before := !(s.groupMembers p b).isEmpty
    each (fun k => upd (.cluster k fun u => u.setBar b fun x =>
      match x.chainReq with
      | some c => { x with chain := c, chainReq := none }
      | none => x)) ks
    let s' ← get
    let after := !(s'.groupMembers p b).isEmpty
    if after && !before then tellGroup p b 1
    else if before && !after then do
      tellGroup p b 2
      each (fun q => setGbar p b q 0) (List.range 16)
    else pure ()
    each (fun k => barrierCheck k b) ks) (List.range 4)

end Sys2Proof.Machine
end

