-- ==== Sys2Proof/Machine/Records.lean ====
section
/-!
DEFINITION. Continuation records and futures (R30 to R35, R137): the future table with its waiter pool and link array in memory,
the checks of a record (R242, R366), its acceptance, the choice of a deque (R145, R146), the release of waiters (R364),
dispatch (R147 to R150) and the start of a task (R31).
-/

namespace Sys2Proof.Machine

open M

/-! ### Records (R30) -/

def rcEntry (r : Nat) : Nat := bitsOf r 0 64
def rcData (r : Nat) : Nat := bitsOf r 64 64
def rcArg (r k : Nat) : Nat := bitsOf r (128 + 64 * k) 64
def rcWait (r k : Nat) : Nat := bitsOf r (384 + 32 * k) 32
def rcPrio (r : Nat) : Nat := bitsOf r 448 2
def rcNext (r : Nat) : Bool := r.testBit 450
def rcVent (r : Nat) : Bool := r.testBit 451
def rcAff (r : Nat) : Nat := bitsOf r 452 2
def rcCore (r : Nat) : Nat := bitsOf r 456 12
def rcTen (r : Nat) : Nat := bitsOf r 472 6
def rcPnode (r : Nat) : Nat := bitsOf r 478 11
def rcRes (r : Nat) : Nat := bitsOf r 489 23 + bitsOf r 468 4 + bitsOf r 454 2

/-- Index and generation of a handle (R33). -/
def hIndex (h : Nat) : Nat := h % 2 ^ 20
def hGen (h : Nat) : Nat := h / 2 ^ 20 % 4096

/-- The checks of R242 and R366 but for GEN, in a partition. -/
def State.recordOk (s : State) (t p r : Nat) : Bool :=
  rcTen r == t && rcPnode r == p && rcRes r == 0 && rcAff r != 3 && rcEntry r % 4 == 0 &&
  (rcAff r != 1 || decide (rcCore r < (s.nodeCores p).length))

/-! ### The table in memory (R33, R34) -/

/-- A partition's future table as an instruction or an engine reaches it: the core it goes through, the address space, the
table's address and its size. -/
structure Tab where
  who : Who
  core : Nat
  t : Nat
  p : Nat
  base : Nat
  log : Nat
  onCtx : Bool

/-- The table of the executing task: FUTBASE of a compute core; a vent core takes the partition's (R33). -/
def myTab : M Tab := do
  let s ← get
  let id := s.dev.cur
  let core := coreOf id
  let p := s.pnodeOf core
  if isVent core then pure () else useCsr cFUTBASE
  let base := if isVent core then (s.part p).futbase else (s.core core).csrGet cFUTBASE
  return ⟨.ctx id, core, s.tenOf core, p, base.toNat, (s.part p).futlog, true⟩

/-- The table of a partition for an engine, which goes through the partition's service core. -/
def State.tabOf (s : State) (who : Who) (p : Nat) : Tab :=
  ⟨who, s.serviceOf p, ((s.part p).ten).getD 0, p, (s.part p).futbase.toNat, (s.part p).futlog, false⟩

/-- A table access that cannot be performed: the instruction takes the cause, an engine tries again. -/
def tabFail {α : Type} (tb : Tab) (va : Nat) (e : EFail) : M α :=
  let v := BitVec.ofNat 64 va
  if tb.onCtx then
    match e with
    | .need kind aux => request kind .store v aux
    | .poison => raise POISON v
    | .miss g => raiseMiss tb.t g v
    | .cause c => raise c v
  else
    match e with
    | .miss g => noteStall tb.t g
    | _ => stall

/-- The location of a word of the table. DESIGN CHOICE (log 47): the access is a supervisor store to the leaf's permissions and in its AKIND, for
`fut.get` and `fut.chk` too; R248 does not name its kind. -/
def tabLoc (tb : Tab) (va : Nat) : M Nat := do
  match ← engineTgt tb.core tb.t tb.p va .store with
  | .error e => tabFail tb va e
  | .ok (x, ver) => do
    let s ← get
    match s.locOf x, ver with
    | some l, false => return l
    | _, _ => tabFail tb va (.cause ILLEGAL_OPERAND)

/-- Bytes of the table, and whether a word of them is poisoned. -/
def tabPeek (tb : Tab) (va n : Nat) : M (Nat × Bool) := do
  let l ← tabLoc tb va
  if l < 2 ^ 60 then each (fun k => homeRead tb.who k none) (linesOf l n) else pure ()
  let s ← get
  return (s.peek l n, s.poisoned l n)

def tabPoke (tb : Tab) (va : Nat) (bs : List Byte) : M Unit := do
  let l ← tabLoc tb va
  if l < 2 ^ 60 then each (fun k => homeWrite tb.who k none) (linesOf l bs.length) else pure ()
  upd (.poke l bs)

/-- Addresses of an entry, a pool slot and its link. -/
def Tab.entryVA (tb : Tab) (i : Nat) : Nat := tb.base + 32 * i
def Tab.slotVA (tb : Tab) (j : Nat) : Nat := tb.base + 32 * 2 ^ tb.log + 64 * j
def Tab.linkVA (tb : Tab) (j : Nat) : Nat := tb.base + 96 * 2 ^ tb.log + 8 * j
def Tab.slotOf (tb : Tab) (va : Nat) : Nat := (va - (tb.base + 32 * 2 ^ tb.log)) / 64

/-- A future entry (R34). -/
structure FEnt where
  val : Word
  st : Nat
  gen : Nat
  head : Nat
  tail : Nat
  deriving DecidableEq, Repr

def FEnt.of (v : Nat) : FEnt := ⟨BitVec.ofNat 64 v, bitsOf v 64 2, bitsOf v 80 12, bitsOf v 128 64, bitsOf v 192 64⟩

def FEnt.bytes (e : FEnt) : List Byte :=
  leBytes 32 (e.val.toNat + e.st * 2 ^ 64 + e.gen * 2 ^ 80 + e.head * 2 ^ 128 + e.tail * 2 ^ 192)

/-- An entry read; an instruction takes POISON on a poisoned one. -/
def readEntry (tb : Tab) (i : Nat) : M FEnt := do
  let (v, bad) ← tabPeek tb (tb.entryVA i) 32
  if bad && tb.onCtx then tabFail tb (tb.entryVA i) .poison else return FEnt.of v

def writeEntry (tb : Tab) (i : Nat) (e : FEnt) : M Unit := tabPoke tb (tb.entryVA i) e.bytes

/-- The 64 bytes of a pool slot, in halves that lie in one line each, and whether a word of them is poisoned. -/
def readSlot (tb : Tab) (j : Nat) : M (Nat × Bool) := do
  let (lo, b0) ← tabPeek tb (tb.slotVA j) 32
  let (hi, b1) ← tabPeek tb (tb.slotVA j + 32) 32
  return (lo + hi * 2 ^ 256, b0 || b1)

def writeSlot (tb : Tab) (j r : Nat) : M Unit := do
  tabPoke tb (tb.slotVA j) (leBytes 32 r)
  tabPoke tb (tb.slotVA j + 32) (leBytes 32 (r / 2 ^ 256))

/-! ### The waiter pool (R137) -/

/-- Whether a partition's pool has no free slot (R365). -/
def State.poolFull (s : State) (p : Nat) : Bool := decide (2 ^ (s.part p).futlog ≤ (s.part p).pool.length)

/-- The first free slot from `i` on, wrapping. -/
def freeFrom (used : List Nat) (size : Nat) : Nat → Nat → Nat
  | 0, i => i % size
  | f + 1, i => if used.contains (i % size) then freeFrom used size f (i + 1) else i % size

/-- A free slot taken; which one is open (R137, log 7). -/
def takeSlot (tb : Tab) : M Nat := do
  let k ← freeIx
  let s ← get
  let used := (s.part tb.p).pool
  let j := freeFrom used (2 ^ tb.log) used.length (Config.poolPick k)
  upd (.part tb.p fun q => { q with pool := nsInsert j q.pool })
  return j

/-- A record retired unrun, or whose task starts: its slot is free. -/
def freeSlot (p j : Nat) : M Unit := upd (.part p fun q => { q with pool := nsErase q.pool j })

/-- A message on behalf of no context (R358). -/
def tellNobody (p core : Nat) (m : Mail) : M Unit := do
  let s ← get
  postMail p (s.nobody core) m

/-! ### Choosing a deque (R145, R146) -/

/-- Hash(DATA, n) (R145). -/
def recHash (data n : Nat) : Nat := data / 64 * 0x9E3779B97F4A7C15 % 2 ^ 64 / 2 ^ 32 * n / 2 ^ 32

/-- The die the placement map gives for an address; none for KIND 1 to 3 or an uncovered one. -/
def homeDie (m : List (BitVec 128)) (va : Nat) : Option Nat :=
  match placement m va with
  | some e => if bitsOf e.toNat 1 2 = 0 then some (bitsOf e.toNat 3 2) else none
  | none => none

/-- The core a record of a partition goes to (R145), when it does not go to a vent core. -/
def State.dequeOf (s : State) (p r : Nat) : Nat :=
  let all := s.nodeCores p
  if rcAff r = 1 then (all[rcCore r]?).getD 0
  else
    let near := match homeDie (s.core (s.serviceOf p)).pmap (rcData r) with
      | some d => all.filter fun c => c / 1024 == d
      | none => []
    let cands := if rcAff r = 0 && !near.isEmpty then near else all
    (cands[recHash (rcData r) cands.length]?).getD 0

/-- A record enters the sub-deque of its effective class at the newest end (R146). -/
def enqueue (core p j r : Nat) : M Unit :=
  upd (.core core fun c => { c with deque := c.deque ++
    [⟨p, j, max (rcPrio r) ((c.csrGet cPRIO).toNat % 4), rcAff r, dieOf core, BitVec.ofNat 64 (rcData r), 0⟩] })

/-- A record that cannot be placed (R366). -/
def rejectPlaced (tb : Tab) (j r : Nat) : M Unit := do
  freeSlot tb.p j
  tellNobody tb.p tb.core { kind := .fault, code := 0x02, addr := BitVec.ofNat 64 (rcData r), pc := BitVec.ofNat 64 (rcEntry r) }

/-- A record becomes QUEUED: placed on a deque, or held while the translation of a VENT record's DATA is asked for (R366). -/
def placeRec (tb : Tab) (j r : Nat) : M Unit := do
  let s ← get
  if rcVent r then do
    match ← engineTgt tb.core tb.t tb.p (rcData r) .place with
    | .ok (.hbm a, _) => enqueue (4096 + s.channel a) tb.p j r
    | .error (.need _ aux) => do
      upd (.part tb.p fun q => { q with placing := q.placing ++ [⟨tb.core, j, true⟩] })
      tellNobody tb.p tb.core { kind := .translate, akind := 7, addr := BitVec.ofNat 64 (rcData r), aux := aux }
    | .error (.miss g) => do
      noteMiss tb.t g
      rejectPlaced tb j r
    | _ => rejectPlaced tb j r
  else enqueue (s.dequeOf tb.p r) tb.p j r

/-- A ready record: HELD when NEXT is set or the partition is SAVED, otherwise QUEUED (R32, R46, R140). -/
def readyRec (tb : Tab) (j r : Nat) : M Unit := do
  let s ← get
  let saved := (s.part tb.p).st == .saved
  if rcNext r || saved then
    upd (.part tb.p fun q => { q with held := q.held ++ [j], armed := true })
  else placeRec tb j r

/-- A record joins the waiter list of an entry at WTAIL (R35). -/
def appendWaiter (tb : Tab) (i : Nat) (e : FEnt) (j : Nat) : M Unit := do
  tabPoke tb (tb.linkVA j) (leBytes 8 0)
  if e.head = 0 then writeEntry tb i { e with head := tb.slotVA j, tail := tb.slotVA j }
  else do
    tabPoke tb (tb.linkVA (tb.slotOf e.tail)) (leBytes 8 (tb.slotVA j))
    writeEntry tb i { e with tail := tb.slotVA j }

/-- A record waits on WAIT1, or becomes ready; a stale or FREE WAIT1 retires it unrun (R364). -/
def waitSecond (tb : Tab) (j r : Nat) : M Unit := do
  let h := rcWait r 1
  if hIndex h = 0 then readyRec tb j r
  else do
    let e ← readEntry tb (hIndex h)
    if e.st = 0 || e.gen ≠ hGen h then do
      freeSlot tb.p j
      tellNobody tb.p tb.core { kind := .fault, code := 0x16, addr := BitVec.ofNat 64 h,
                                pc := BitVec.ofNat 64 (rcEntry r), aux := BitVec.ofNat 64 (rcData r) }
    else if e.st = 1 then appendWaiter tb (hIndex h) e j
    else readyRec tb j r

/-- A record waits on WAIT0, then on WAIT1 (R32). -/
def waitFirst (tb : Tab) (j r : Nat) : M Unit := do
  let h := rcWait r 0
  if hIndex h = 0 then waitSecond tb j r
  else do
    let e ← readEntry tb (hIndex h)
    if e.st = 1 then appendWaiter tb (hIndex h) e j else waitSecond tb j r

/-- A checked record is accepted into a pool with room (R137, R242). -/
def acceptRec (tb : Tab) (r : Nat) : M Unit := do
  let j ← takeSlot tb
  writeSlot tb j r
  waitFirst tb j r

/-- The handles a record names that its partition's table does not have, or has as FREE or with another GEN (R363, R436). -/
inductive HandleBad where
  | beyond
  | stale (h : Nat)
  deriving DecidableEq, Repr

def checkHandles (tb : Tab) : List Nat → M (Option HandleBad)
  | [] => return none
  | h :: hs => do
    if hIndex h = 0 then checkHandles tb hs
    else if 2 ^ tb.log ≤ hIndex h then return some .beyond
    else do
      let e ← readEntry tb (hIndex h)
      if e.st = 0 || e.gen ≠ hGen h then do
        match ← checkHandles tb hs with
        | some .beyond => return some .beyond
        | _ => return some (.stale h)
      else checkHandles tb hs

/-- The slots of a waiter list from an address on. -/
def waiters (tb : Tab) : Nat → Nat → M (List Nat)
  | 0, _ => return []
  | f + 1, va => do
    if va = 0 then return []
    else do
      let j := tb.slotOf va
      let (n, _) ← tabPeek tb (tb.linkVA j) 8
      let r ← waiters tb f n
      return j :: r

/-- Every waiter of an entry that has become FULL goes on, in list order (R35, R250); index `i` tells which wait it was. -/
def releaseWaiters (tb : Tab) (i head : Nat) : M Unit := do
  let s ← get
  let js ← waiters tb (s.part tb.p).pool.length head
  each (fun j => do
    let (r, _) ← readSlot tb j
    if hIndex (rcWait r 0) = i then waitSecond tb j r else readyRec tb j r) js

/-! ### Interrupts that keep a dispatcher from running (R43, R147, R204) -/

/-- The lowest pending interrupt source of a compute core's control context (R200, R204, R237). -/
def State.irq (s : State) (core : Nat) : Option (BitVec 4) :=
  if isVent core then none
  else if s.serviceCore (s.pnodeOf core) == some core && !(s.part (s.pnodeOf core)).mailbox.isEmpty then some 1
  else if (s.core core).sliceInt then some 2
  else if (s.core core).hostInt then some 3
  else none

/-- Whether a control context can take an interrupt now (R43, R204, R449); no core runs a SAVED partition (R24), and a cause that waits
in front of the next instruction of a READY context comes first (R404, R418). -/
def State.irqReady (s : State) (core : Nat) : Bool :=
  let c := s.ctx (ctxId core 0)
  (s.irq core).isSome && (c.due.isNone || c.run == .parked) && c.csrGet false cXTVEC != 0 && (s.part (s.pnodeOf core)).st != .saved &&
  match c.run with
  | .idle => c.held.isNone
  | .ready => !c.sup && c.pend.isEmpty
  | .parked => !c.sup && (match c.wait with | some w => w.cls != .fault && w.cls != .link | none => true)
  | _ => false

/-! ### Dispatch (R147 to R150) -/

/-- Whether the dispatcher of a compute core runs (R147). -/
def State.dispatching (s : State) (core : Nat) : Bool :=
  let p := s.part (s.pnodeOf core)
  !isVent core && s.clPresent (core / 4) && (s.ctx (ctxId core 0)).run == .idle && (s.core core).task.isNone &&
  (p.st == .running || p.st == .draining) && !s.pausedTen (p.ten.getD 0) && (s.irq core).isNone

/-- The other cores of a core's partition in the order of R148. -/
def State.victims (s : State) (core : Nat) : List Nat :=
  let all := s.nodeCores (s.pnodeOf core)
  let mates := (List.range 3).map fun k => core / 4 * 4 + (core + 1 + k) % 4
  let rest := all.filter fun c => c / 4 != core / 4
  (mates.filter all.contains) ++ (rest.filter fun c => core < c) ++ (rest.filter fun c => c < core)

/-- The newest and the oldest record of a class. -/
def newestOf (k : Nat) (q : List DqRec) : Option DqRec := (q.filter fun r => r.cls == k).getLast?
def oldestOf (k : Nat) (q : List DqRec) : Option DqRec := q.find? fun r => r.cls == k

/-- The first result over the four classes. -/
def firstClass {α : Type} (f : Nat → Option α) : Option α := (List.range 4).findSome? f

/-- The record a dispatcher would take from its own deque without residency order. -/
def ownerTakes (q : List DqRec) : Option DqRec := firstClass fun k => newestOf k q

/-- Whether a thief may take a record (R147). -/
def mayTake (thief : Nat) (r : DqRec) : Bool := r.aff == 2 || (r.aff == 0 && r.die == dieOf thief)

/-- The list ResidencyPick works on: oldest first, class by class (R149). -/
def byClass (q : List DqRec) : List DqRec := (List.range 4).flatMap fun k => q.filter fun r => r.cls == k

/-- Whether the DATA line of a record hits an L2 tag probe: nominal, and a miss without a cached translation (R149, log 7). -/
def State.probes (s : State) (core k : Nat) (r : DqRec) : Bool :=
  let va := r.data.toNat
  (s.cached (interfaceOf (s.core core).pmap core va) (s.tenOf core) (s.pnodeOf core) va).isSome && Config.l2Probe k (va / 64)

/-- ResidencyPick (R149): the record taken, and those passed over. -/
def State.residency (s : State) (core k : Nat) : Option DqRec × List DqRec :=
  let w := (s.core core).csrGet cRESBYPASS
  let l := (byClass (s.core core).deque).take (bitsOf w.toNat 8 4 + 1)
  match l with
  | [] => (none, [])
  | q0 :: _ =>
    let r := if bitsOf w.toNat 0 8 ≤ q0.bypass then q0 else (l.find? fun r => s.probes core k r).getD q0
    (some r, l.takeWhile fun q => q != r)

/-- The record that the dispatcher of a core takes from its own deque, in residency order when RESBYPASS.EN is set (R147, R149). -/
def State.ownPick (s : State) (core : Nat) : Option DqRec :=
  if !s.dispatching core then none
  else if (s.core core).csrGet cRESBYPASS &&& 0x10000 != 0 then (s.residency core s.dev.freeIx).1
  else ownerTakes (s.core core).deque

/-- The record a core steals, and its victim; in one cycle an owner's removal comes first. -/
def State.steal (s : State) (core : Nat) : Option (Nat × DqRec) :=
  (s.victims core).findSome? fun v =>
    let q := (s.core v).deque
    let own := s.ownPick v
    (firstClass fun k => q.find? fun r => r.cls == k && mayTake core r && some r != own).map fun r => (v, r)

/-- The number a task gets, not in use in its partition (R31, log 7). -/
def freshId (used : List Nat) : Nat → Nat → Nat
  | 0, i => i
  | f + 1, i => if used.contains i then freshId used f ((i + 1) % 2 ^ 32) else i

def State.taskIds (s : State) (p : Nat) : List Nat :=
  s.cores.filterMap fun e => match e.2.task with
    | some t => if t.pnode = p then some (e.2.csrGet cTASKID).toNat else none
    | none => none

/-- The control context at the start of a task (R31, R270). -/
def Ctx.start (vent : Bool) (r : Nat) (c : Ctx) : Ctx :=
  let w := fun (n : Nat) => BitVec.ofNat 64 n
  let e := w (rcEntry r)
  let regs : List (Nat × Word) :=
    [(1, w (rcData r)), (2, w (rcArg r 0)), (3, w (rcArg r 1)), (4, w (rcArg r 2)), (5, w (rcArg r 3)),
     (6, w (rcPnode r + 2048 * rcTen r))]
  let c := (c.csrSet vent cFFLAGS 0).csrSet vent cFRM 0
  { c.csrSet vent cVL 0 with
    x := regs.filter (fun e => e.2 != 0), xpois := 0, pc := e, q1 := e + 4, q2 := e + 8, a1 := false, a2 := false, sup := false,
    run := .ready, wait := none, pwait := false, saved := [], pend := [], sb := 0, latch := none, due := none, later := none }

/-- A core takes a record: its slot is freed, and its task starts (R31, R137); a poisoned slot retires it unrun (R387). A core
that runs another address space than before gives its L1 lines up (R78). -/
def startTask (core : Nat) (q : DqRec) : M Unit := do
  let s ← get
  let tb := { s.tabOf (.eng core) q.pnode with core := core }
  let (r, bad) ← readSlot tb q.slot
  freeSlot q.pnode q.slot
  if bad then
    tellNobody q.pnode core { kind := .fault, code := 0x0D, addr := BitVec.ofNat 64 (tb.slotVA q.slot) }
  else do
    let k ← freeIx
    let s ← get
    let used := s.taskIds q.pnode
    let tid := freshId used used.length (Config.taskId k).toNat
    if (s.core core).asid.any (fun a => a != (tb.t, q.pnode)) then flushLines core (fun _ => true) true else pure ()
    upd (.core core fun c =>
      { (c.csrSet cTASKID (BitVec.ofNat 64 tid)).csrSet cTRC 0 with
        task := some ⟨tb.t, q.pnode, q.cls, isVent core⟩, asid := if isVent core then none else some (tb.t, q.pnode) })
    upd (.ctx (ctxId core 0) (Ctx.start (isVent core) r))

/-- DISPATCH: a dispatcher that runs takes a record (R147). -/
def execDispatch (core : Nat) : State → Outcome := event (do
  let s ← get
  if !s.dispatching core then stall
  else if (s.core core).csrGet cRESBYPASS &&& 0x10000 != 0 && !(s.core core).deque.isEmpty then do
    let k ← freeIx
    match s.residency core k with
    | (none, _) => stall
    | (some r, passed) => do
      let older := fun (q : DqRec) => if passed.contains q then { q with bypass := q.bypass + 1 } else q
      upd (.core core fun c => { c with deque := (c.deque.filter fun q => q != r).map older })
      startTask core r
  else match ownerTakes (s.core core).deque with
  | some r => do
    upd (.core core fun c => { c with deque := c.deque.filter fun q => q != r })
    startTask core r
  | none =>
    match s.steal core with
    | some (v, r) => do
      upd (.core v fun c => { c with deque := c.deque.filter fun q => q != r })
      startTask core r
    | none => stall)

/-- VENT_DISPATCH: an IDLE vent core takes the oldest record of the best class (R150). -/
def execVentDispatch (core : Nat) : State → Outcome := event (do
  let s ← get
  let c := s.core core
  let ok := fun (r : DqRec) => !s.pausedTen (((s.part r.pnode).ten).getD 0) &&
    ((s.part r.pnode).st == .running || (s.part r.pnode).st == .draining)
  match firstClass fun k => oldestOf k (c.deque.filter ok) with
  | some r =>
    if !isVent core || (s.ctx (ctxId core 0)).run ≠ .idle || c.task.isSome then stall
    else do
      upd (.core core fun c => { c with deque := c.deque.filter fun q => q != r })
      startTask core r
  | none => stall)

end Sys2Proof.Machine
end

