-- ==== Sys2Proof/Machine/Port.lean ====
section
/-!
DEFINITION. Field ports (R122 to R136, R253 to R259, R401 to R407): the port record and its tables, loading, deposits, closes,
publications, releases, status, breaking and freeing.
-/

namespace Sys2Proof.Machine

open M

/-! ### The record (R124) and its sizes (R127, R131) -/

def pSEED (v : Nat) : Bool := v.testBit 11
def pDEPTH (v : Nat) : Nat := bitsOf v 12 2 + 1
def pSTYPE (v : Nat) : Nat := bitsOf v 4 2
def pRTYPE (v : Nat) : Nat := bitsOf v 8 2
def pNSSL (v : Nat) : Nat := bitsOf v 32 5 + 1
def pNRSL (v : Nat) : Nat := bitsOf v 37 5 + 1
def pNS (v : Nat) : Nat := bitsOf v 64 21
def pNR (v : Nat) : Nat := bitsOf v 85 21
def pWTAB (v : Nat) : Nat := bitsOf v 128 64
def pSLTAB (v : Nat) : Nat := bitsOf v 192 64
def pRBUF (v : Nat) : Nat := bitsOf v 256 64
def pSEEDP (v : Nat) : Nat := bitsOf v 320 64
def pCONVA (v : Nat) : Nat := bitsOf v 384 64
def pCONVB (v : Nat) : Nat := bitsOf v 448 64
def pSPNODE (v : Nat) : Nat := bitsOf v 512 11
def pRPNODE (v : Nat) : Nat := bitsOf v 523 11
def pTEN (v : Nat) : Nat := bitsOf v 534 6
def pRes (v : Nat) : Nat :=
  bitsOf v 0 4 + bitsOf v 6 2 + bitsOf v 10 1 + bitsOf v 14 18 + bitsOf v 42 6 + bitsOf v 106 22 + bitsOf v 540 484

def PortLd.img (q : PortLd) : Nat := q.image.toNat

def ceilDiv (a b : Nat) : Nat := (a + b - 1) / b

/-- BYTES of a version (R131). -/
def pBYTES (v : Nat) : Nat :=
  if pRTYPE v = 0 then 8 * ceilDiv (pNR v) 2
  else if pRTYPE v = 1 then 8 * ceilDiv (pNR v) 4
  else 32 * ceilDiv (pNR v) 32 + 8 * ceilDiv (ceilDiv (pNR v) 32) 8

/-- Bytes of the accumulation store (R127). -/
def pNEED (v : Nat) : Nat := ceilDiv (8 * pNS v + 256) 4096 * 4096

/-- Fields of a slice entry (R125). -/
def slCORE (e : Nat) : Nat := bitsOf e 52 12
def slSIDE (e : Nat) : Nat := bitsOf e 51 1
def slCOUNT (e : Nat) : Nat := bitsOf e 21 21
def slFIRST (e : Nat) : Nat := bitsOf e 0 21
def slRes (e : Nat) : Nat := bitsOf e 42 9

/-- LIVE (R128). -/
def PortLd.live (q : PortLd) : Nat := q.nextv - q.rel

/-- XVAL of a port cause (R401). -/
def portXval (p reason index : Nat) : Word := BitVec.ofNat 64 (index % 2 ^ 32 * 2 ^ 32 + reason * 2 ^ 24 + p)

def portFault {α : Type} (p reason index : Nat) : M α := raise PORT (portXval p reason index)

/-! ### Tables (R125, R126) -/

/-- Insertion by first cell. -/
def insertFirst (e : Nat × Nat) : List (Nat × Nat) → List (Nat × Nat)
  | [] => [e]
  | f :: r => if slFIRST e.2 < slFIRST f.2 then e :: f :: r else f :: insertFirst e r

/-- The entry at which an exact cover from a cell on breaks. -/
def coverFault (n last : Nat) : Nat → List (Nat × Nat) → Option Nat
  | pos, [] => if pos = n then none else some last
  | pos, e :: r => if slFIRST e.2 = pos then coverFault n e.1 (pos + slCOUNT e.2) r else some e.1

/-- The first slice entry of a side that breaks R125 (REASON 0x04); entries carry their index. -/
def sliceFault (side n : Nat) (es : List (Nat × Nat)) : Option Nat :=
  match es.find? fun e => slSIDE e.2 ≠ side || slRes e.2 ≠ 0 || slCOUNT e.2 = 0 ||
      es.any fun f => f.1 < e.1 && slCORE f.2 == slCORE e.2 with
  | some e => some e.1
  | none => coverFault n 0 0 (es.foldl (fun l e => insertFirst e l) [])

/-- The tables of a port as read: slice entries, rows of (column, area), declared areas. -/
structure PTables where
  sl : List Nat
  rows : List (List (Nat × Nat))
  nnz : Nat

/-- Words of an array of 4-byte elements. -/
def readArr (rd : Nat → Nat → M Nat) (base n : Nat) : M (List Nat) := mapL (fun i => rd (base + 4 * i) 4) (List.range n)

def up32 (n : Nat) : Nat := ceilDiv n 32 * 32

/-- Entries cut into rows by the row pointers. -/
def cutRows : List Nat → List (Nat × Nat) → List (List (Nat × Nat))
  | a :: b :: r, es => es.take (b - a) :: cutRows (b :: r) (es.drop (b - a))
  | _, _ => []

/-- The first entry of a row that breaks R126, counted from the entry's number on (REASON 0x07). -/
def rowFault (ns : Nat) : Nat → Option Nat → List (Nat × Nat) → Option Nat
  | _, _, [] => none
  | j, prev, e :: r =>
    if ns ≤ e.1 || prev.any (fun c => decide (e.1 ≤ c)) || e.2 = 0 then some j else rowFault ns (j + 1) (some e.1) r

def rowsFault (ns : Nat) : Nat → List (List (Nat × Nat)) → Option Nat
  | _, [] => none
  | j, r :: rs => match rowFault ns j none r with
    | some x => some x
    | none => rowsFault ns (j + r.length) rs

/-- The weight table's address of DAREA (R126). -/
def dareaVA (v nnz : Nat) : Nat := pWTAB v + 32 + up32 (4 * (pNR v + 1)) + 2 * up32 (4 * nnz)

/-- The slice and weight tables read and checked as at `pload` and at every publication (REASON 0x04 to 0x07). -/
def readTables (rd : Nat → Nat → M Nat) (bad : Nat → Nat → M Unit) (v : Nat) : M PTables := do
  let nss := pNSSL v
  let es ← mapL (fun i => rd (pSLTAB v + 8 * i) 8) (List.range (nss + pNRSL v))
  let ix := (List.range es.length).zip es
  let check := fun (o : Option Nat) (reason : Nat) => match o with | some i => bad reason i | none => pure ()
  check (sliceFault 0 (pNS v) (ix.take nss)) 0x04
  check (sliceFault 1 (pNR v) (ix.drop nss)) 0x04
  let h ← rd (pWTAB v) 32
  let nnz := bitsOf h 128 32
  if bitsOf h 0 16 ≠ 0x3E71 || bitsOf h 16 48 ≠ 0 || bitsOf h 160 96 ≠ 0 || bitsOf h 64 32 ≠ pNR v || bitsOf h 96 32 ≠ pNS v ||
      nnz = 0 || 2 ^ 26 < nnz then bad 0x05 0 else pure ()
  let gap := fun (base n : Nat) => do
    let g ← readArr rd (base + 4 * n) ((up32 (4 * n) - 4 * n) / 4)
    if g.any fun x => x != 0 then bad 0x05 0 else pure ()
  let b0 := pWTAB v + 32
  let b1 := b0 + up32 (4 * (pNR v + 1))
  let b2 := b1 + up32 (4 * nnz)
  gap b0 (pNR v + 1)
  gap b1 nnz
  gap b2 nnz
  let rp ← readArr rd b0 (pNR v + 1)
  if rp.headD 0 ≠ 0 then bad 0x06 0 else pure ()
  check (((List.range (pNR v)).find? fun r => (rp[r + 1]?).getD 0 ≤ (rp[r]?).getD 0)) 0x06
  if (rp[pNR v]?).getD 0 ≠ nnz then bad 0x06 (pNR v) else pure ()
  let cols ← readArr rd b1 nnz
  let areas ← readArr rd b2 nnz
  let rows := cutRows rp (cols.zip areas)
  check (rowsFault (pNS v) 0 rows) 0x07
  return ⟨es, rows, nnz⟩

/-- The conservation checks of `pload` (R127; REASON 0x08, 0x09). -/
def checkAreas (rd : Nat → Nat → M Nat) (bad : Nat → Nat → M Unit) (v : Nat) (t : PTables) : M Unit := do
  let flat := t.rows.flatten
  let as := fun (s : Nat) => (flat.filterMap fun e => if e.1 = s then some e.2 else none).sum
  each (fun s => do
    let d ← rd (dareaVA v t.nnz + 8 * s) 8
    if as s = d then pure () else bad 0x08 s) (List.range (pNS v))
  each (fun (e : Nat × List (Nat × Nat)) => if 2 ^ 52 ≤ (e.2.map (·.2)).sum then bad 0x09 e.1 else pure ())
    ((List.range t.rows.length).zip t.rows)
  each (fun s => if 2 ^ 52 ≤ as s then bad 0x09 s else pure ()) (List.range (pNS v))

/-- The pages of 512 KiB that a range touches, by an address in each. -/
def pagesOf (a n : Nat) : List Nat :=
  (List.range ((a + n - 1) / 2 ^ 19 - a / 2 ^ 19 + 1)).map fun k => max a ((a / 2 ^ 19 + k) * 2 ^ 19)

/-- Whether the receiver buffer lies on VER pages of HBM or caldera memory (R131; REASON 0x0A). -/
def checkBuffer (leafAt : Nat → M Word) (bad : Nat → Nat → M Unit) (v : Nat) : M Unit := do
  if pSEED v && pSEEDP v = 0 then bad 0x0A 0 else pure ()
  each (fun a =>
    if 0xFFF0000000000 ≤ a then bad 0x0A 0
    else do
      let l ← leafAt a
      if lfVER l && (lfAPT l = 0 || lfAPT l = 2) then pure () else bad 0x0A 0) (pagesOf (pRBUF v) (pBYTES v))

/-! ### Loading (R123, R253, R254) -/

/-- Whether a seed of a tenant's ports is being copied: no port operation comes between (R136). -/
def State.seeding (s : State) (t : Nat) : Bool := s.ports.any fun e => e.2.ld.any fun q => q.seeding && pTEN q.img == t

/-- The port number of an instruction: below 1,024 and assigned to the issuer's tenant. -/
def portNum (rs1 : XReg) : M Nat := do
  let v ← rx rs1
  flushWindow
  let s ← get
  let t := s.tenOf (coreOf s.dev.cur)
  if s.seeding t then stall
  else if v.toNat < 1024 && (s.port v.toNat).ten == some t then return v.toNat else raise ILLEGAL_OPERAND v

/-- An engine's failure met by the executing instruction. -/
def ctxFail {α : Type} (k : AKind) (va : Nat) : EFail → M α
  | .need kind aux => request kind k (BitVec.ofNat 64 va) aux
  | .poison => raise POISON (BitVec.ofNat 64 va)
  | .miss g => do
    let s ← get
    raiseMiss (s.tenOf (coreOf s.dev.cur)) g (BitVec.ofNat 64 va)
  | .cause c => raise c (BitVec.ofNat 64 va)

/-- The tags of a line of HBM that the port unit reads or writes, looked up as owner 15 (R88). -/
def portTouch (t : Nat) (x : Tgt) (wr : Bool) : M Unit :=
  match x with
  | .hbm a => touchL2 a 8 t unitSlot wr
  | _ => pure ()

/-- Bytes that the port unit reads for the executing `pload`. -/
def ctxRead (va n : Nat) : M Nat := do
  let s ← get
  let id := s.dev.cur
  let core := coreOf id
  let t := s.tenOf core
  match ← engineTgt core t (s.pnodeOf core) va .load with
  | .error e => ctxFail .load va e
  | .ok (x, ver) => do
    portTouch t x false
    match ← readTgt (.ctx id) core t va x ver n with
    | .ok v => return v
    | .error e => ctxFail .load va e

/-- A leaf that the port unit finds for the executing `pload`. -/
def ctxLeaf (k : AKind) (va : Nat) : M Word := do
  let s ← get
  let core := coreOf s.dev.cur
  readyWalk core (s.tenOf core) (s.pnodeOf core) va k false
  let s ← get
  match s.stage1 core (s.tenOf core) (s.pnodeOf core) va k false with
  | .ok l => do
    keepLeaf core (s.tenOf core) (s.pnodeOf core) va l
    return l
  | .need kind aux => ctxFail k va (.need kind aux)
  | .poison => ctxFail k va .poison
  | .miss g => ctxFail k va (.miss g)

/-- The seed field's pages translated at `pload` (R123, R403); its words are read at resolution (R136). -/
def seedLeaves (v : Nat) : M Unit :=
  if pSEED v then each (fun a => if inGlobal a && !inCaldera a then (do let _ ← ctxLeaf .load a) else pure ()) (pagesOf (pSEEDP v) (pBYTES v))
  else pure ()

/-- R254, R402. A SEEDP that is not zero beside SEED 0 has no REASON, and the port is loaded (log 44). -/
def execPload (rs1 : XReg) : State → Outcome := instr (do
  let p ← portNum rs1
  useCsr cPORTBASE
  fenceAll
  let s ← get
  let core := coreOf s.dev.cur
  let t := s.tenOf core
  let pn := s.pnodeOf core
  let base := (s.core core).csrGet cPORTBASE
  let a := (base + BitVec.ofNat 64 (128 * p)).toNat
  let lo ← ctxRead a 64
  let hi ← ctxRead (a + 64) 64
  let v := lo + hi * 2 ^ 512
  let bad := fun (reason index : Nat) => portFault p reason index
  let mine := fun (q : Nat) => match s.part? q with | some x => x.ten == some t | none => false
  if bitsOf v 48 16 ≠ 0x6C3E || pRes v ≠ 0 || pSTYPE v = 3 || pRTYPE v = 3 || pWTAB v % 32 ≠ 0 || pSLTAB v % 8 ≠ 0 ||
      pRBUF v % 8 ≠ 0 || pSEEDP v % 8 ≠ 0 then bad 0x01 0 else pure ()
  if pTEN v ≠ t || !mine (pSPNODE v) || !mine (pRPNODE v) || (pn ≠ pSPNODE v && pn ≠ pRPNODE v) then bad 0x02 0 else pure ()
  if pNS v = 0 || 2 ^ 20 < pNS v || pNR v = 0 || 2 ^ 20 < pNR v then bad 0x03 0 else pure ()
  match (s.port p).ld with
  | some q => if q.img = v then return {} else portFault p 0x0C 0
  | none => do
    let tb ← readTables ctxRead bad v
    checkAreas ctxRead bad v tb
    checkBuffer (ctxLeaf .store) bad v
    seedLeaves v
    let used := (s.ports.filterMap fun e => if e.1 / 256 = p / 256 then e.2.ld.map fun q => pNEED q.img else none).sum
    if Config.accStoreBytes < used + pNEED v then bad 0x0B (pNEED v / 1024) else pure ()
    let new : PortLd :=
      { image := BitVec.ofNat 1024 v, pnode := pn, sl := tb.sl.map (BitVec.ofNat 64), nextv := 0, rel := 0, acc := [], accPois := [],
        dt := [], cl := [], rl := [], pflags := 0, seeded := false, asked := none, owes := false }
    upd (.port p fun q => { q with ld := some new })
    return {})

/-! ### Slices (R253) -/

/-- The loaded port of an instruction, with its number. -/
def portLoaded (rs1 : XReg) : M (Nat × PortLd) := do
  let p ← portNum rs1
  let s ← get
  match (s.port p).ld with
  | some q => return (p, q)
  | none => portFault p 0x14 0

/-- The slice of the issuing core on a side: its number on that side and its entry. -/
def mySlice (p : Nat) (q : PortLd) (side : Nat) : M (Nat × Nat) := do
  let s ← get
  let core := coreOf s.dev.cur
  let pn := s.pnodeOf core
  let v := q.img
  let want := if side = 0 then pSPNODE v else pRPNODE v
  let es := if side = 0 then q.sl.take (pNSSL v) else q.sl.drop (pNSSL v)
  let ix := (s.nodeCores pn).idxOf? core
  let found := ((List.range es.length).zip es).find? fun e => pn == want && some (slCORE e.2.toNat) == ix
  match found with
  | some e => return (e.1, e.2.toNat)
  | none => raise ILLEGAL_OPERAND (BitVec.ofNat 64 p)

def updLd (p : Nat) (f : PortLd → PortLd) : M Unit := upd (.port p fun q => { q with ld := q.ld.map f })

/-! ### Deposits (R129, R255) -/

/-- Size and format of a sender cell. -/
def stSize (v : Nat) : Nat := if pSTYPE v = 0 then 4 else if pSTYPE v = 1 then 8 else 2
def stFmt (v : Nat) : Fmt := if pSTYPE v = 0 then fFP32 else if pSTYPE v = 1 then fFP64 else fBF16

/-- FP64 values as words. -/
def f64 (w : Word) : FVal := fFP64.val w.toNat
def r64 (x : Exact) : Word × Flags := let r := fFP64.round .rne x; (BitVec.ofNat 64 r.1, r.2)

/-- Terms added to cells from a cell on, one rounding each (R129). -/
def deposit (dt : FVal) : Nat → List FVal → PortLd → PortLd
  | _, [], q => q
  | s, x :: xs, q =>
    let r := r64 (FVal.add .rne (f64 (SMap.get (fun _ => 0) q.acc s)) (dt.mul x))
    deposit dt (s + 1) xs { q with acc := SMap.set (fun _ => 0) q.acc s r.1, pflags := q.pflags ||| r.2 }

def PortLd.addDt (k : Nat) (dt : FVal) (q : PortLd) : PortLd :=
  let r := r64 (FVal.add .rne (f64 (SMap.get (fun _ => 0) q.dt k)) dt)
  { q with dt := SMap.set (fun _ => 0) q.dt k r.1, pflags := q.pflags ||| r.2 }

/-- dt must be positive and finite. -/
def dtOk (w : Word) : Bool := match f64 w with | .fin false m _ => m != 0 | _ => false

/-- The address steps of a cell (R213, R255). -/
def cellAt (n : Nat) (va : Word) : M Acc := do
  let top := va.toNat / 2 ^ 52
  if top = 0xFFF && 0x200000 ≤ va.toNat % 2 ^ 52 then raise ILLEGAL_OPERAND va else locate .load va n

/-- A cell whose address steps are made: its access, and whether its words are versioned, none at a bank that does not answer. -/
abbrev Cell := Acc × Option Bool

/-- The cells read as loads of the context (R255), whose causes come in the order of R428: poison, then the state of each cell. -/
def readCells (b : By) (n : Nat) (cs : List Cell) : M (List Nat) := do
  each (fun (c : Cell) => codeFail b failMe c.1 0) cs
  let xs ← mapL (fun (c : Cell) => if c.2.isNone then return 0 else loadPlain b failMe c.1 n 0) cs
  each (fun (c : Cell) => if c.2 = some true then raise VERSION c.1.va else pure ()) cs
  each (fun (c : Cell) => stashCheck c.1) cs
  each (fun (c : Cell) => if c.2.isNone then raise CALDERA_LOST c.1.va else pure ()) cs
  let rs ← mapL (fun (c : Cell) => do
    let r ← raceOf b c.1 n false
    return (c.1.va, r)) cs
  match rs.find? fun r => r.2.1.isSome with
  | some (va, some e, _) => raiseAfter (logRace (coreOf b.id) (ctxOf b.id) e false va b.pc) RACE va
  | _ => each (fun (r : Word × (Option Shadow × M Unit)) => r.2.2) rs
  return xs

def execPput (rd rs1 : XReg) (s2 : S2) : State → Outcome := instr (do
  let dt ← s2F64 s2
  let base ← rx rd
  let p ← portNum rs1
  if dtOk dt then pure () else raise ILLEGAL_OPERAND dt
  let (p, q) ← (do
    let s ← get
    match (s.port p).ld with
    | some q => pure (p, q)
    | none => portFault p 0x14 0)
  let (k, e) ← mySlice p q 0
  if q.cl.contains k then park (.pput p)
  else do
    let n := stSize q.img
    aligned base n
    let b ← byMe
    readAhead
    let s ← get
    let core := coreOf b.id
    let cs ← mapL (fun i => do
      let a ← cellAt n (base + BitVec.ofNat 64 (n * i))
      let v ← versionedAt b core (s.tenOf core) a n
      return (a, v)) (List.range (slCOUNT e))
    let xs ← readCells b n cs
    updLd p fun q => (deposit (f64 dt) (slFIRST e) (xs.map (stFmt q.img).val) q).addDt k (f64 dt)
    return {})

/-! ### Closes, reads and releases (R256 to R259) -/

/-- The version that held a close made at version v: a seed published meanwhile moves it on by one (R136). -/
def PortLd.closedAs (q : PortLd) (v : Nat) : Nat := if q.seeded && v = 0 then 1 else v

/-- A `pclose` that has closed its slice at version v waits until that version is published (R130, R256). -/
def closeWait (p v : Nat) (rd : XReg) (q : PortLd) : M Fin := do
  if q.nextv ≤ q.closedAs v then parkActed (.pclose p) v
  else do
    wx rd (BitVec.ofNat 64 (q.closedAs v))
    return {}

/-- R256. A wait that has acted goes on with the version at which its slice was closed (R449); one of which nothing is noted, as a
restored context may have, goes on with the interval that is open while the slice is closed, else with the last one. -/
def execPclose (rd rs1 : XReg) : State → Outcome := instr (do
  let c ← me
  let p ← portNum rs1
  let s ← get
  let acted := match c.wait with | some w => w.acted.map fun v => (w.cls, v) | none => none
  match acted, (s.port p).ld with
  | some (_, v), none => portFault p 0x13 v
  | none, none => portFault p 0x14 0
  | some (cls, v), some q => do
    let (k, _) ← mySlice p q 0
    closeWait p (if cls == .pclose p then v else if q.cl.contains k then q.nextv else q.nextv - 1) rd q
  | none, some q => do
    let (k, _) ← mySlice p q 0
    if q.cl.contains k then park (.pclose p)
    else if SMap.get (fun _ => 0) q.dt k = 0 then portFault p 0x10 k
    else if 2 ^ 32 ≤ q.nextv then portFault p 0x12 0
    else do
      fenceAll
      updLd p fun q => { q with cl := nsInsert k q.cl }
      parkActed (.pclose p) q.nextv)

def execPget (rs1 : XReg) (s2 : S2) : State → Outcome := instr (do
  let n := (← s2Val s2).toNat % 2 ^ 32
  let (p, q) ← portLoaded rs1
  let _ ← mySlice p q 1
  if n < q.nextv then return {} else park (.pget p n))

/-- Every listed word of a range of the package retires below a version (R96, R132). -/
def retireRange (loc n rel : Nat) : M Unit := do
  let s ← get
  each (fun (w : Nat × VWord) => if loc ≤ w.1 && w.1 < loc + n then upd (.retire w.1 rel) else pure ()) s.vers

/-- The port unit retires the versions of a range; it looks the tags of the lines up that hold versions (R88, R132; log 44). -/
def reclaimRange (t : Nat) (x : Tgt) (loc n rel : Nat) : M Unit := do
  let s ← get
  match x with
  | .hbm _ => each (fun l => touchL2 (64 * l) 8 t unitSlot true) (
      (s.vers.filterMap fun w => if loc ≤ w.1 && w.1 < loc + n then some (w.1 / 64) else none).dedup)
  | _ => pure ()
  retireRange loc n rel

/-- The pieces of a port's receiver buffer. -/
def PortLd.bufferPieces (q : PortLd) : List (Nat × Nat) := pieces (pieceCount (pBYTES q.img)) (pRBUF q.img) (pBYTES q.img)

/-- `rclm` of REL over the receiver buffer by the port unit (R132), as far as it needs no translation request and no other package;
whether it is done. `prel` never waits (R258). -/
def reclaimNow (q : PortLd) (rel : Nat) : List (Nat × Nat) → M Bool
  | [] => return true
  | e :: r => do
    let s ← get
    match ← engineTgt (s.serviceOf q.pnode) (pTEN q.img) q.pnode e.1 .store with
    | .error _ => return false
    | .ok (x, ver) => do
      let s ← get
      match s.locOf x with
      | none => return false
      | some l => do
        if ver then reclaimRange (pTEN q.img) x l e.2 rel else pure ()
        reclaimNow q rel r

/-- The minimum of RL over the receiver slices. -/
def PortLd.minRl (q : PortLd) : Nat :=
  ((List.range (pNRSL q.img)).map fun k => SMap.get (fun _ => 0) q.rl k).min?.getD 0

def execPrel (rs1 : XReg) (s2 : S2) : State → Outcome := instr (do
  let n := (← s2Val s2).toNat % 2 ^ 32
  let (p, q) ← portLoaded rs1
  let (k, _) ← mySlice p q 1
  if q.nextv ≤ n then portFault p 0x11 n
  else do
    fenceAll
    let q' := { q with rl := SMap.set (fun _ => 0) q.rl k (max (SMap.get (fun _ => 0) q.rl k) (n + 1)) }
    let rel := q'.minRl
    let done ← if q.rel < rel then reclaimNow q rel q.bufferPieces else pure true
    updLd p fun _ => { q' with rel := max q.rel rel, owes := q.owes || !done }
    return {})

/-- The layout of R128. -/
def PortLd.stat (q : PortLd) : Word :=
  BitVec.ofNat 64 (q.nextv % 2 ^ 32 * 2 ^ 32 + q.cl.length % 64 * 2 ^ 26 + q.live % 8 * 2 ^ 23 + q.seeded.toNat * 2 ^ 7 + 2 ^ 6
    + q.pflags.toNat)

/-- R259. R436 gives it no cause beyond the port number's, so an issuer in neither partition of the record reads the same (log 44). -/
def execPstat (rd rs1 : XReg) : State → Outcome := instr (do
  let p ← portNum rs1
  let s ← get
  wx rd (((s.port p).ld.map PortLd.stat).getD 0)
  return {})

/-! ### Breaking and freeing (R123, R404) -/

/-- Whether a wait is on a port. -/
def WaitClass.onPort (p : Nat) : WaitClass → Bool
  | .pget a _ => a == p
  | .pclose a => a == p
  | .pput a => a == p
  | _ => false

/-- A parked context takes a cause in front of its instruction: at once, or once its tile instructions have retired (R297). -/
def breakWait (id : Nat) (code : BitVec 8) (val : Word) : M Unit := do
  upd (.ctx id fun c => { c with run := .ready, wait := none, pwait := false })
  let s ← get
  if ctxOf id == 0 && (s.core (coreOf id)).tilesPending then
    upd (.ctx id fun c => { c.overtaken with due := some { code := code, val := val, xpc0 := c.pc } })
  else deliver id { code := code, val := val }

/-- The requests of a port's unit are forgotten. -/
def forgetPort (p : Nat) : M Unit := do
  forget (.port p)
  forget (.eng (900000 + p))

/-- A port breaks: it publishes nothing, its entry is freed, and every context parked on it takes PORT (R404), in ascending order (R440). -/
def breakPort (p : Nat) : M Unit := do
  let s ← get
  match (s.port p).ld with
  | none => pure ()
  | some q => do
    each (fun (e : Nat × Ctx) =>
      if e.2.run == .parked && (match e.2.wait with | some w => w.cls.onPort p | none => false)
      then breakWait e.1 PORT (portXval p 0x13 q.nextv) else pure ()) s.ctxs
    upd (.port p fun x => { x with ld := none })
    forgetPort p

/-- Loaded ports whose two partitions hold no component are freed (R123). -/
def freeIdlePorts : M Unit := do
  let s ← get
  let idle := fun (n : Nat) => match s.part? n with
    | some x => x.st == .idle || x.st == .unowned
    | none => true
  each (fun (e : Nat × Port) => match e.2.ld with
    | some q => if idle (pSPNODE q.img) && idle (pRPNODE q.img) then do
        upd (.port e.1 fun x => { x with ld := none })
        forgetPort e.1
      else pure ()
    | none => pure ()) s.ports

/-! ### Publication (R130, R133, R404, R406) -/

/-- The averages of the sender cells, the flags of their roundings, and the poisoned cells. -/
def averages (q : PortLd) (sl : List Nat) : List (Word × Bool) × Flags :=
  let v := q.img
  let send := (List.range (pNSSL v)).zip (sl.take (pNSSL v))
  let one := fun (s : Nat) =>
    let k := ((send.find? fun e => slFIRST e.2 ≤ s && s < slFIRST e.2 + slCOUNT e.2).map (·.1)).getD 0
    let r := r64 (FVal.div (f64 (SMap.get (fun _ => 0) q.acc s)) (f64 (SMap.get (fun _ => 0) q.dt k)))
    ((r.1, q.accPois.contains s), r.2)
  let rs := (List.range (pNS v)).map one
  (rs.map (·.1), rs.foldl (fun f r => f ||| r.2) 0)

/-- One row: the remapped, converted cell, its flags, and whether poison reaches it. -/
def remapRow (v : Nat) (xbar : List (Word × Bool)) (row : List (Nat × Nat)) : (Word × Bool) × Flags :=
  let x := fun (c : Nat) => (xbar[c]?).getD (0, false)
  let step := fun (a : Word × Flags) (e : Nat × Nat) =>
    let r := r64 (FVal.add .rne (f64 a.1) ((FVal.fin false e.2 0).mul (f64 (x e.1).1)))
    (r.1, a.2 ||| r.2)
  let s := row.foldl step (0, 0)
  let y := r64 (FVal.div (f64 s.1) (.fin false (row.map (·.2)).sum 0))
  let z := r64 (FVal.add .rne (fFP64.val (pCONVB v)) ((fFP64.val (pCONVA v)).mul (f64 y.1)))
  ((z.1, row.any fun e => (x e.1).2), s.2 ||| y.2 ||| z.2)

/-- Chunks of n elements. -/
def chunks {α : Type} (n : Nat) : Nat → List α → List (List α)
  | 0, _ => []
  | f + 1, l => if l.isEmpty then [] else l.take n :: chunks n f (l.drop n)

/-- A version's bytes with a poison mark each, and the flags (R130, R131). -/
def versionBytes (v : Nat) (z : List (Word × Bool)) : List (Byte × Bool) × Flags :=
  if pRTYPE v = 2 then
    let bs := (chunks 32 z.length z).map fun b =>
      let r := narrowBlock (b.map fun e => f64 e.1)
      (r.1, (r.2.1 ++ List.replicate (32 - b.length) 0), b.any (·.2), r.2.2)
    let codes := bs.flatMap fun b => b.2.1.map fun c => (BitVec.ofNat 8 c, b.2.2.1)
    let scales := bs.map fun b => (BitVec.ofNat 8 b.1, b.2.2.1)
    let pad := List.replicate (pBYTES v - codes.length - scales.length) ((0 : Byte), false)
    (codes ++ scales ++ pad, bs.foldl (fun f b => f ||| b.2.2.2) 0)
  else
    let fmt := if pRTYPE v = 0 then fFP32 else fBF16
    let w := if pRTYPE v = 0 then 4 else 2
    let rs := z.map fun e => (fmt.round .rne (f64 e.1).exact, e.2)
    let bytes := rs.flatMap fun r => (leBytes w r.1.1).map fun b => (b, r.2)
    let pad := List.replicate (pBYTES v - bytes.length) ((0 : Byte), false)
    (bytes ++ pad, rs.foldl (fun f r => f ||| r.1.2) 0)

/-- The words of a version: value and poison (R406). -/
def versionWords (bs : List (Byte × Bool)) : List (Word × Bool) :=
  (chunks 8 bs.length bs).map fun c => (BitVec.ofNat 64 (leNat (c.map (·.1))), c.any (·.2))

/-- Who reads for a port, on behalf of no context: a missing translation is asked for once, every other failure breaks the
port (R404, R418). -/
def portFail {α : Type} (p : Nat) (q : PortLd) (akind va : Nat) : EFail → M α
  | .need kind aux => stop (do
    let s ← get
    let a := BitVec.ofNat 64 va
    updLd p fun q => { q with asked := some a }
    forgetPort p
    tellNobody q.pnode (s.serviceOf q.pnode) { kind := kind, akind := akind, addr := a, aux := aux })
  | .miss g => stop (do
    noteMiss (pTEN q.img) g
    breakPort p)
  | _ => stop (breakPort p)

def portRead (p : Nat) (q : PortLd) (va n : Nat) : M Nat := do
  let s ← get
  match ← engineRead (.port p) (s.serviceOf q.pnode) (pTEN q.img) q.pnode va n with
  | .ok v => return v
  | .error e => portFail p q 0 va e

def portLeaf (p : Nat) (q : PortLd) (va : Nat) : M Word := do
  let s ← get
  readyWalk (s.serviceOf q.pnode) (pTEN q.img) q.pnode va .store false
  let s ← get
  match s.stage1 (s.serviceOf q.pnode) (pTEN q.img) q.pnode va .store false with
  | .ok l => return l
  | .need kind aux => portFail p q 1 va (.need kind aux)
  | .poison => portFail p q 1 va .poison
  | .miss g => portFail p q 1 va (.miss g)

/-- A reclaim that a `prel` could not finish is carried out by the port unit: it asks the service core of the port's partition for a
missing translation (R123), and another package's bank for its part. A reclaim that meets a DELIVER or END reply, a stage-2 miss, poison
or a lost die breaks the port, as a publication does (R404, R418; log 45). -/
def portReclaim (p : Nat) : M Unit := do
  let s ← get
  match (s.port p).ld with
  | none => stall
  | some q =>
    if !q.owes || q.asked.isSome || s.pausedTen (pTEN q.img) || s.seeding (pTEN q.img) then stall
    else do
      let core := s.serviceOf q.pnode
      let t := pTEN q.img
      let who : Who := .eng (900000 + p)
      each (fun (e : Nat × Nat) => do
        match ← engineTgt core t q.pnode e.1 .store with
        | .error x => portFail p q 1 e.1 x
        | .ok (x, ver) => do
          let s ← get
          match x, s.locOf x with
          | _, some l => if ver then reclaimRange t x l e.2 q.rel else pure ()
          | .cal pkg ca off, none => do
            match engineAns CALDERA_LOST (← askBank who core t pkg ca off { op := roRclm, a := BitVec.ofNat 64 q.rel, len := e.2, ver := ver }) with
            | .ok _ => pure ()
            | .error x => portFail p q 1 e.1 x
          | _, none => pure ()) q.bufferPieces
      updLd p fun q => { q with owes := false }
      forget who

/-- One step at a word's home: every version below REL retired and the new one created; none below REL stays beside it (R133). A word
whose HIGH has already passed the version, in a buffer used before, keeps what it has, and the publication completes (log 44). -/
def publishWord (l ver rel : Nat) (w : Word × Bool) : M Unit := do
  upd (.retire l rel)
  upd (.version l ver w.1 w.2)
  upd (.retire l rel)

/-- StoreVersion of one word: every version below REL is retired as the new one is created (R130, R133). -/
def storeVersion (p : Nat) (q : PortLd) (ver va : Nat) (w : Word × Bool) : M Unit := do
  let s ← get
  let core := s.serviceOf q.pnode
  let t := pTEN q.img
  match ← engineTgt core t q.pnode va .store with
  | .error e => portFail p q 1 va e
  | .ok (x, v) => do
    let s ← get
    match x, s.locOf x with
    | _, some l => do
      portTouch t x true
      publishWord l ver q.rel w
    | .cal pkg ca off, none => do
      let r ← askBank (.port p) core t pkg ca off
        { op := roPub, uns := w.2, a := BitVec.ofNat 64 ver, b := w.1, data := leBytes 8 q.rel, len := 8, ver := v }
      match engineAns CALDERA_LOST r with
      | .ok _ => pure ()
      | .error e => portFail p q 1 va e
    | _, none => portFail p q 1 va (.cause ILLEGAL_OPERAND)

/-- Whether a publication of a port can begin (R130, R133). -/
def PortLd.ready (q : PortLd) : Bool :=
  q.cl.length == pNSSL q.img && decide (q.live < pDEPTH q.img) && q.asked.isNone && !q.owes

/-- PORT_PUBLISH (R130): one operation of the port unit. -/
def execPortPublish (p : Nat) : State → Outcome := event (do
  let s ← get
  match (s.port p).ld with
  | none => stall
  | some q =>
    if !q.ready || s.pausedTen (pTEN q.img) || s.seeding (pTEN q.img) then stall
    else do
      let v := q.img
      let rd := portRead p q
      let bad := fun (_ _ : Nat) => stop (breakPort p)
      let tb ← readTables rd bad v
      checkBuffer (portLeaf p q) bad v
      let (xbar, f1) := averages q tb.sl
      let rows := tb.rows.map (remapRow v xbar)
      let f2 := rows.foldl (fun f r => f ||| r.2) 0
      let (bytes, f3) := versionBytes v (rows.map (·.1))
      let ws := versionWords bytes
      each (fun (e : Nat × (Word × Bool)) => storeVersion p q q.nextv (pRBUF v + 8 * e.1) e.2) ((List.range ws.length).zip ws)
      updLd p fun q => { q with nextv := q.nextv + 1, acc := [], accPois := [], dt := [], cl := [],
                                pflags := q.pflags ||| f1 ||| f2 ||| f3 }
      forget (.port p))

/-- The seed field published as version 0, exactly (R136); a poisoned word is copied with its mark (R405). -/
def publishSeed (p : Nat) (q : PortLd) : M Unit := do
  let v := q.img
  each (fun i => do
    let s ← get
    let core := s.serviceOf q.pnode
    let va := pSEEDP v + 8 * i
    match ← engineRead (.port p) core (pTEN v) q.pnode va 8 with
    | .ok w => storeVersion p q 0 (pRBUF v + 8 * i) (BitVec.ofNat 64 w, false)
    | .error .poison => storeVersion p q 0 (pRBUF v + 8 * i) (0, true)
    | .error e =>
      if e = .cause POISON then storeVersion p q 0 (pRBUF v + 8 * i) (0, true) else portFail p q 0 va e) (List.range (pBYTES v / 8))
  updLd p fun q => { q with nextv := 1, seeded := true, seeding := false }
  forget (.port p)

/-- Whether a port's seed field or its buffer lies in memory of another package, so that the copy takes several steps. -/
def State.seedFar (s : State) (q : PortLd) : Bool :=
  let v := q.img
  let t := pTEN v
  let tgt := fun (va : Nat) =>
    if inCaldera va then (s.caldera t (va % 2 ^ 40)).toOption
    else match s.stage1 (s.serviceOf q.pnode) t q.pnode va .load false with
      | .ok l => (s.route t l va).toOption
      | _ => none
  ([pSEEDP v, pRBUF v].flatMap fun a => pieces (pieceCount (pBYTES v)) a (pBYTES v)).any fun e => match tgt e.1 with
    | some (.cal pkg ca _, _) => !s.calHere pkg ca
    | some (.peer .., _) => true
    | _ => false

/-- A seed that goes to or comes from another package is copied on until version 0 is there (R136). -/
def seedStep (p : Nat) : M Unit := do
  let s ← get
  match (s.port p).ld with
  | some q => if !q.seeding || q.asked.isSome || s.pausedTen (pTEN q.img) then stall else publishSeed p q
  | none => stall

end Sys2Proof.Machine
end

