-- ==== Sys2Proof/Machine/Message.lean ====
section
/-!
DEFINITION. Messages between contexts, the partition mailbox and its replies (R235 to R239, R357 to R360, R433), and the completion
queue of vent operations (R239).
-/

namespace Sys2Proof.Machine

open M

/-- A message buffer: 32 aligned bytes of the LOCAL window (R213, R214). -/
def msgBuffer (use : Use) (va : Word) : M Nat := do
  aligned va 32
  if exposed va then pure () else raise ILLEGAL_OPERAND va
  let a ← locate use va 32
  match a.tgt with
  | .lm c off => return (Space.lm c).loc off
  | _ => raise ILLEGAL_OPERAND va

/-- The context that a destination operand names, in the layout of CTXID (R162, R235). -/
def destCtx (d : Word) : Nat :=
  let core := bitsOf d.toNat 0 12 + 4096 * bitsOf d.toNat 12 1
  ctxId core (bitsOf d.toNat 13 4)

/-- The destination checks of R235. -/
def State.destOk (s : State) (p : Nat) (d : Word) : Bool :=
  bitsOf d.toNat 17 4 == s.pres.pkg.toNat && bitsOf d.toNat 12 1 == 0 && bitsOf d.toNat 13 4 ≤ 10 &&
  (s.nodeCores p).contains (bitsOf d.toNat 0 12)

/-- Accepts(d) of R235; the refill of spilled messages comes ahead of any new arrival (R44). -/
def State.accepts (s : State) (d : Nat) : Bool :=
  let c := s.ctx d
  (c.run == .ready || c.run == .parked) && decide (c.recvq.length < 8) && c.spilled == 0

/-! ### Replies (R237, R359, R360, R433, R449) -/

/-- How a supervisor-mode `msend` to a context is taken. -/
inductive Taken where
  | reply (fault : Bool)
  | latch
  | message
  deriving DecidableEq, Repr

/-- A wait for a mailbox reply, and whether it is for a cause. -/
def Wait.forReply (w : Wait) : Bool := w.cls == .reply || w.cls == .fault

def State.taken (s : State) (d : Nat) : Taken :=
  let c := s.ctx d
  let noted := ctxOf d == 0 && c.saved.any fun w => w.cls == .reply
  match c.run, c.wait with
  | .parked, some w => if w.forReply then .reply (w.cls == .fault) else if noted then .latch else .message
  | .stopped, some w => if w.forReply || noted then .latch else .message
  | _, some w => if noted || (ctxOf d == 0 && w.cls == .reply) then .latch else .message
  | _, none => if noted then .latch else .message

/-- The reply that a payload holds (R359); poisoned words of a payload count as they stand (log 45). -/
def replyOf (bs : List Byte) : Reply :=
  ⟨BitVec.ofNat 8 (leNat (bs.take 1)), BitVec.ofNat 8 (leNat ((bs.drop 1).take 1)), BitVec.ofNat 64 (leNat ((bs.drop 8).take 8))⟩

/-- A context's spill or refill that waits for a translation is answered: it is made again, or its messages are lost (R45, log 14). -/
def replySpill (id : Nat) (retry : Bool) : M Unit :=
  upd (.ctx id fun c => if retry then { c with ask := none }
    else if c.spilled = 0 then { c with ask := none, recvq := [] } else { c with ask := none, spilled := 0 })

/-- A port's request is answered: the port tries again, or breaks (R404). -/
def replyPort (p : Nat) (retry : Bool) : M Unit :=
  if retry then updLd p fun q => { q with asked := none } else breakPort p

/-- A placement's request is answered: the record is placed again, or retired unrun (R366). -/
def replyPlacing (who : Who) (p : Nat) (e : Placing) (retry : Bool) : M Unit := do
  let s ← get
  let tb := { s.tabOf who p with core := e.core }
  let (r, _) ← readSlot tb e.slot
  upd (.part p fun q => { q with placing := q.placing.filter fun x => x != e })
  if retry then placeRec tb e.slot r else rejectPlaced tb e.slot r

/-- Who has asked on behalf of no context, through a core. -/
inductive Asked where
  | place (e : Placing)
  | spill (id : Nat)
  | port (p : Nat)
  deriving DecidableEq, Repr

/-- The oldest request that a core of a partition has made on behalf of no context (R358, log 14). -/
def State.asked (s : State) (p core : Nat) : Option Asked :=
  let spills := (List.range 11).filter fun x => (s.ctx (ctxId core x)).ask.isSome
  let ports := s.ports.find? fun e => match e.2.ld with
    | some q => q.asked.isSome && q.pnode == p && s.serviceOf p == core
    | none => false
  match (s.part p).placing.find? (fun e => e.core % 4096 == core), spills, ports with
  | some e, _, _ => some (.place e)
  | none, x :: _, _ => if (s.nodeCores p).contains core then some (.spill (ctxId core x)) else none
  | none, [], some e => some (.port e.1)
  | none, [], none => none

/-- A reply to CTX 15 of a core answers that request. -/
def replyNobody (p : Nat) (r : Reply) : Asked → M Unit
  | .place e => do replyPlacing (.ctx (← meId)) p e (r.action == 0)
  | .spill id => replySpill id (r.action == 0)
  | .port n => replyPort n (r.action == 0)

/-! ### Sending -/

/-- A message of the context to a destination that has passed the checks: appended, or held in the send slot. -/
def sendMessage (d : Nat) (m : Msg) : M Unit := do
  let s ← get
  if s.accepts d then upd (.ctx d fun c => { c with recvq := c.recvq ++ [m] })
  else updMe fun c => { c with slot := some (m, d) }

/-- A `msend` waits for its send slot with the message it has read (R235). -/
def parkMsend (m : Msg) (d : Nat) : M Fin :=
  stop (do
    let q ← nextSeq
    let i := (← get).dev.ins
    flushWindow
    updMe fun c => { c with run := .parked, wait := some { cls := .message, seq := q, acted := none, req := none, ins := i, pc := c.pc, msg := some (m, d) } })

/-- A reply acts on a context; one that ends the executing context's own task ends the instruction with it (R211, R359). -/
def replyTo (d : Nat) (fault : Bool) (r : Reply) : M Unit := do
  let s ← get
  actReply d fault r
  let t ← get
  let run := (t.ctx s.dev.cur).run
  if run ≠ (s.ctx s.dev.cur).run && (run == .free || run == .idle) then halt else pure ()

def execMsend (rs1 : XReg) (s2 : S2) : State → Outcome := instr (do
  let c ← me
  match c.wait.bind (·.msg) with
  | some (m, d) => do
    if c.slot.isSome then stall else sendMessage d m
    return {}
  | none => do
  let va ← rx rs1
  let dw ← s2Val s2
  flushWindow
  readAhead
  let s ← get
  let id := s.dev.cur
  let p := s.pnodeOf (coreOf id)
  let d := destCtx dw
  let sup := (s.ctx id).sup
  let inPart := bitsOf dw.toNat 17 4 == s.pres.pkg.toNat && s.pnodeOf (coreOf d) == p && ctxOf d < ctxCount (coreOf d)
  let how := if sup && inPart then s.taken d else .message
  let nobody := sup && bitsOf dw.toNat 17 4 == s.pres.pkg.toNat && bitsOf dw.toNat 12 5 == 30
  let read : M Msg := do
    let l ← msgBuffer .load va
    let s ← get
    return ⟨s.bytesAt l 32, s.ctxIdVal id, (List.range 4).filterMap fun k => if s.poisoned (l + 8 * k) 8 then some (8 * k) else none⟩
  match how with
  | .reply fault => do
    let m ← read
    replyTo d fault (replyOf m.payload)
  | .latch => do
    let m ← read
    upd (.ctx d fun c => { c with latch := some (replyOf m.payload) })
  | .message => do
    match if nobody then s.asked p (bitsOf dw.toNat 0 12) else none with
    | some a => do
      let m ← read
      replyNobody p (replyOf m.payload) a
    | none => do
      if s.destOk p dw then pure () else raise ILLEGAL_OPERAND dw
      let m ← read
      if (s.ctx id).slot.isSome then (do let _ ← parkMsend m d; pure ()) else sendMessage d m
  return {})

/-- A held message enters its destination's queue once the destination accepts (R235, R38). -/
def deliverHeld (id : Nat) : M Unit := do
  let s ← get
  match (s.ctx id).slot with
  | none => stall
  | some (m, d) =>
    if s.accepts d then do
      upd (.ctx d fun c => { c with recvq := c.recvq ++ [m] })
      upd (.ctx id fun c => { c with slot := none })
    else stall

/-- MESSAGE_DELIVERY. -/
def execMessageDelivery (ctx : Nat) : State → Outcome := event (deliverHeld ctx)

/-! ### Receiving -/

/-- Whether the executing context addresses the partition mailbox (R237). -/
def State.onMailbox (s : State) (id : Nat) : Bool := s.isService id && (s.ctx id).sup

/-- The queue that `mrecv` and `mpoll` address. -/
def State.inbox (s : State) (id : Nat) : List Msg :=
  if s.onMailbox id then (s.part (s.pnodeOf (coreOf id))).mailbox else (s.ctx id).recvq

def execMrecv (rd rs1 : XReg) : State → Outcome := instr (do
  let va ← rx rs1
  flushWindow
  let l ← msgBuffer .store va
  let s ← get
  let id := s.dev.cur
  let pop : M Unit :=
    if s.onMailbox id then upd (.part (s.pnodeOf (coreOf id)) fun q => { q with mailbox := q.mailbox.tail })
    else updMe fun c => { c with recvq := c.recvq.tail }
  match s.inbox id with
  | [] => park .message
  | m :: _ =>
    if !m.poison.isEmpty then raiseAfter pop POISON va
    else do
      pop
      upd (.poke l m.payload)
      wx rd m.sender
      return {})

def execMpoll (rd : XReg) : State → Outcome := instr (do
  let s ← get
  wx rd (BitVec.ofNat 64 (s.inbox s.dev.cur).length)
  return {})

/-- MAILBOX_POST: the oldest posted message enters a mailbox that has room (R357). -/
def execMailboxPost (pnode : Nat) : State → Outcome := event (do
  let s ← get
  let q := s.part pnode
  match q.mbq with
  | [] => stall
  | m :: rest =>
    if q.mailbox.length < 64 then upd (.part pnode fun q => { q with mailbox := q.mailbox ++ [m], mbq := rest })
    else stall)

/-! ### The completion queue (R239) -/

/-- R239; waiters are served in the order of their wait records. -/
def execCqPop (rd : XReg) : State → Outcome := instr (do
  agent (.cqPop rd) onCompute
  flushWindow
  let c ← myCore
  match c.cq with
  | [] => park .message
  | w :: _ => do
    updMyCore fun c => { c with cq := c.cq.tail }
    wx rd w
    return {})

end Sys2Proof.Machine
end

