-- ==== Sys2Proof/Machine/Decoder.lean ====
section
/-!
DEFINITION. The block decoder (R63 to R72, R378): CRC, code tables, the exponent stream and DecodeTile, over bytes that carry
a poison mark.
-/

namespace Sys2Proof.Machine

/-- A byte and whether its word is poisoned. -/
abbrev PByte := Byte × Bool

/-- One bit of CRC-16, polynomial 0x1021 (R65). -/
def crc16Bit (c : Nat) : Nat := if c.testBit 15 then (2 * c % 2 ^ 16) ^^^ 0x1021 else 2 * c % 2 ^ 16

/-- HCRC's function (R65). -/
def crc16 (bs : List Byte) : Nat :=
  bs.foldl (fun c b => (List.range 8).foldl (fun c _ => crc16Bit c) (c ^^^ (b.toNat * 2 ^ 8))) 0xFFFF

/-! ### Code tables (R68, R69) -/

/-- The length of a symbol's code. -/
def codeLen (table s : Nat) : Nat := bitsOf table (4 * s) 4

/-- A table is well formed (R68): the sum of 2^-L in units of 2^-8. -/
def tableOk (table : Nat) : Bool :=
  let ls := (List.range 16).map (codeLen table)
  ls.all (fun l => decide (l ≤ 8)) && ls.any (fun l => l != 0) &&
    decide ((ls.map fun l => if l = 0 then 0 else 2 ^ (8 - l)).sum ≤ 256)

/-- The symbols of one length get consecutive codes (R69): length, code and symbol. -/
def codesAt (table L : Nat) : Nat → List Nat → List (Nat × Nat × Nat)
  | _, [] => []
  | c, s :: m => if codeLen table s = L then (L, c, s) :: codesAt table L (c + 1) m else codesAt table L c m

/-- Lengths from L on; `c` is the first code of length L. -/
def codesFrom (table : Nat) : Nat → Nat → Nat → List (Nat × Nat × Nat)
  | 0, _, _ => []
  | f + 1, L, c =>
    let l := codesAt table L c (List.range 16)
    l ++ codesFrom table f (L + 1) ((c + l.length) * 2)

/-- BuildCode (R69). -/
def buildCode (table : Nat) : List (Nat × Nat × Nat) := codesFrom table 8 1 0

/-! ### The stream (R66, R67) -/

/-- Bits of a byte from bit 0 up; a poisoned byte has none to read. -/
def bitsOfByte (b : PByte) : List (Option Bool) :=
  (List.range 8).map fun k => if b.2 then none else some (b.1.getLsbD k)

/-- The nibbles of a byte, low first. -/
def nibbles (b : PByte) : List (Option Nat) :=
  if b.2 then [none, none] else [some (b.1.toNat % 16), some (b.1.toNat / 16)]

/-- A decode in progress: the stream from the position on, the bits up to ELEN, and the nibbles from the element on. -/
structure DSt where
  bits : List (Option Bool)
  left : Nat
  plane : List (Option Nat)

/-- A token of a coded stream: its symbol, its length, and the stream behind it. -/
def readCode (codes : List (Nat × Nat × Nat)) : Nat → Nat → Nat → List (Option Bool) →
    Except (BitVec 8) (Nat × Nat × List (Option Bool))
  | 0, _, _, _ => .error FORMAT_MALFORMED
  | _, _, _, [] => .error FORMAT_MALFORMED
  | _, _, _, none :: _ => .error POISON
  | f + 1, c, L, some b :: r =>
    let c := 2 * c + b.toNat
    match codes.find? fun e => e.1 == L + 1 && e.2.1 == c with
    | some e => .ok (e.2.2, L + 1, r)
    | none => readCode codes f c (L + 1) r

/-- A raw token: four bits, the lowest first. -/
def readRaw : List (Option Bool) → Except (BitVec 8) (Nat × Nat × List (Option Bool))
  | some a :: some b :: some c :: some d :: r => .ok (a.toNat + 2 * b.toNat + 4 * c.toNat + 8 * d.toNat, 4, r)
  | _ :: _ :: _ :: _ :: _ => .error POISON
  | _ => .error FORMAT_MALFORMED

/-- One element: token, nibble, code; RES ends the decode (R71). -/
def decElem (codes : Option (List (Nat × Nat × Nat))) (st : DSt) : Except (BitVec 8) (Byte × DSt) := do
  let (e, n, r) ← match codes with
    | some c => readCode c 8 0 0 st.bits
    | none => readRaw st.bits
  if st.left < n then .error FORMAT_MALFORMED
  else match st.plane with
  | some p :: m =>
    let b := p / 8 * 128 + e * 8 + p % 8
    if b % 128 = 0x7F then .error FORMAT_RESERVED else .ok (BitVec.ofNat 8 b, ⟨r, st.left - n, m⟩)
  | _ => .error POISON

/-- n elements of a column. -/
def decColumn (codes : Option (List (Nat × Nat × Nat))) : Nat → DSt → Except (BitVec 8) (List Byte × DSt)
  | 0, st => .ok ([], st)
  | n + 1, st => do
    let (b, st) ← decElem codes st
    let (bs, st) ← decColumn codes n st
    return (b :: bs, st)

/-- The scale of column j, its tag checked (R70). -/
def decScale (seq j : Nat) : List PByte → Except (BitVec 8) Byte
  | (sc, p) :: (tag, q) :: _ =>
    if p || q then .error POISON else if tag.toNat = (seq * 32 + j) % 256 then .ok sc else .error SCALE_STEP
  | _ => .error FORMAT_MALFORMED

/-- The columns from j on: STATUS, and the columns written with their scales (R71, R378). -/
def decColumns (codes : Option (List (Nat × Nat × Nat))) (seq : Nat) :
    Nat → Nat → List PByte → DSt → BitVec 8 × List (List Byte × Byte)
  | 0, _, _, st =>
    if st.left ≠ 0 then (FORMAT_MALFORMED, [])
    else if st.bits.any fun b => b == none then (POISON, [])
    else if st.bits.all fun b => b == some false then (0, [])
    else (FORMAT_MALFORMED, [])
  | n + 1, j, scales, st =>
    match decColumn codes 32 st with
    | .error e => (e, [])
    | .ok (col, st) =>
      match decScale seq j scales with
      | .error e => (e, [])
      | .ok sc =>
        let r := decColumns codes seq n (j + 1) (scales.drop 2) st
        (r.1, (col, sc) :: r.2)

/-- DecodeTile (R71) of a directory entry, the image it names (32 * Min(LEN, 64) bytes, R310), the 128 bytes of the code-table block and the
tile's 64 bytes of scale records. An entry whose LEN is 0 names no image. -/
def decodeTile (dir : Nat) (img table scales : List PByte) : BitVec 8 × List (List Byte × Byte) :=
  let hb := img.take 32
  let h := leNat (hb.map (·.1))
  let seq := bitsOf h 16 24
  let elen := bitsOf h 48 14
  let mode := h.testBit 44
  let ctab := bitsOf h 40 4
  let tb := (table.drop (8 * ctab)).take 8
  let t := leNat (tb.map (·.1))
  if bitsOf dir 40 8 = 0 then (FORMAT_MALFORMED, [])
  else if hb.any (·.2) then (POISON, [])
  else if bitsOf h 0 16 ≠ 0x7A4B || crc16 ((hb.take 30).map (·.1)) ≠ bitsOf h 240 16 then (FORMAT_MALFORMED, [])
  else if bitsOf h 62 178 ≠ 0 || bitsOf h 45 3 ≠ 0 || seq % 2 ^ 16 ≠ bitsOf dir 48 16 then (FORMAT_MALFORMED, [])
  else if bitsOf dir 40 8 ≠ 17 + (elen + 255) / 256 then (FORMAT_MALFORMED, [])
  else if mode && (elen ≠ 4096 || ctab ≠ 0) then (FORMAT_MALFORMED, [])
  else if !mode && tb.any (·.2) then (POISON, [])
  else if !mode && !tableOk t then (FORMAT_MALFORMED, [])
  else
    let st : DSt := ⟨(img.drop 544).flatMap bitsOfByte, elen, ((img.drop 32).take 512).flatMap nibbles⟩
    decColumns (if mode then none else some (buildCode t)) seq 32 0 scales st

end Sys2Proof.Machine
end

