-- ==== Sys2Proof/Machine/Vent.lean ====
section
/-!
DEFINITION. The vent instructions (R308 to R314, R439): descriptors, resolution, range locks (R115, R116), the transfers with
their poison marks (R379) and loss (R418), completion records (R239), `vent.wait` and `vent.note`.
-/

namespace Sys2Proof.Machine

open M

/-! ### Descriptors (R308, R309) -/

def vdGA (d : Nat) : Nat := bitsOf d 448 64
def vdDIR (d : Nat) : Nat := bitsOf d 384 64
def vdTAB (d : Nat) : Nat := bitsOf d 320 64
def vdSCL (d : Nat) : Nat := bitsOf d 256 64
def vdTILE (d : Nat) : Nat := bitsOf d 224 32
def vdLEN (d : Nat) : Nat := bitsOf d 192 32
def vdROWS (d : Nat) : Nat := bitsOf d 180 12 + 1
def vdCORE (d : Nat) : Nat := bitsOf d 52 12
def vdSPACE (d : Nat) : Bool := d.testBit 51
def vdOFF (d : Nat) : Nat := bitsOf d 30 21
def vdRes (d : Nat) : Nat := bitsOf d 64 116 + bitsOf d 0 30

/-- Whether a FUNC moves rows, and whether it writes the near side: a gather does and a scatter does not, as the table of R309 has it and
not the words of R116 (log 45). -/
def vRowed (func : Nat) : Bool := func == 2 || func == 3
def vIn (func : Nat) : Bool := func == 0 || func == 2

/-- Bytes of the near side. -/
def vdBytes (func : Nat) (dec : Bool) (d : Nat) : Nat :=
  if dec then 1056 else if vRowed func then vdLEN d * vdROWS d else vdLEN d

/-- The rows of a transfer: global address, near offset and length. -/
def vdRows (func d : Nat) : List (Nat × Nat × Nat) :=
  (List.range (if vRowed func then vdROWS d else 1)).map fun r =>
    ((vdGA d + (if vRowed func then vdDIR d * r else 0)) % 2 ^ 64, vdOFF d + vdLEN d * r, vdLEN d)

/-- The bytes of a list of near-side ranges. -/
def srcLen (l : List (Nat × Nat)) : Nat := (l.map (·.2)).sum

/-- The rows as ranges of the global side, with the near-side ranges that they take, in ascending order. Rows that continue one another,
upward or downward, are one range: a word that two of them cover is written whole (R386). -/
def joinRows : List (Nat × Nat × Nat) → List (Nat × List (Nat × Nat))
  | [] => []
  | (g, o, n) :: m => match joinRows m with
    | (h, l) :: r =>
      if g + n = h then (g, (o, n) :: l) :: r
      else if h + srcLen l = g then (h, l ++ [(o, n)]) :: r
      else (g, [(o, n)]) :: (h, l) :: r
    | [] => [(g, [(o, n)])]

/-- The near-side ranges of n bytes from place k on. -/
def srcSlice : List (Nat × Nat) → Nat → Nat → List (Nat × Nat)
  | [], _, _ => []
  | (o, l) :: m, k, n =>
    if l ≤ k then srcSlice m (k - l) n
    else if n ≤ l - k then [(o + k, n)]
    else (o + k, l - k) :: srcSlice m 0 (n - (l - k))

/-- The beat of the global side that follows k bytes written: its address, its length of at most 32 bytes and what it takes (R373). -/
def beatAt : List (Nat × List (Nat × Nat)) → Nat → Option (Nat × Nat × List (Nat × Nat))
  | [], _ => none
  | (g, l) :: m, k =>
    if srcLen l ≤ k then beatAt m (k - srcLen l)
    else
      let n := min (32 - (g + k) % 32) (srcLen l - k)
      some (g + k, n, srcSlice l k n)

/-- The limits of R309 that the descriptor alone and the near side decide. DESIGN CHOICE (log 47): a decoding push whose GA, DIR, TAB or SCL is
off the 32-byte boundary of R63 is accepted and decodes from there, since R309 and R439 state no cause for it. -/
def State.descOk (s : State) (p func : Nat) (dec : Bool) (d : Nat) : Bool :=
  let n := vdBytes func dec d
  let core := vdCORE d
  vdRes d == 0 && vdGA d % 4 == 0 &&
  (if dec then vdLEN d == 0 && vdROWS d == 1 && vdOFF d % (if vdSPACE d then 2048 else 32) == 0
   else vdTAB d == 0 && vdSCL d == 0 && vdTILE d == 0 && 4 ≤ vdLEN d && vdLEN d % 4 == 0 && vdOFF d % 4 == 0 &&
     (if vRowed func then vdDIR d % 4 == 0 else vdDIR d == 0 && vdROWS d == 1) && (vIn func || !vdSPACE d)) &&
  (s.nodeCores p).contains core &&
  (if vdSPACE d then decide (vdOFF d + n ≤ 2 ^ 21) else decide (vdOFF d + n ≤ Config.lmReserved) && !(s.core core).isStash (vdOFF d) n)

/-! ### Resolution (R310 step 3) -/

/-- The address steps of one piece of the global side: the page found and checked; `da` is the descriptor's address. -/
def ventPage (da : Word) (k : AKind) (m : SMap Word) (a : Nat) : M (SMap Word) := do
  let s ← get
  let t := s.tenOf (coreOf s.dev.cur)
  let va := BitVec.ofNat 64 a
  let block := a / 2 ^ 19 * 2 ^ 19
  let judged := fun (l : Word) (r : Except (BitVec 8 × Option Nat) (Tgt × Bool)) => do
    match r with
    | .error (_, some g) => raiseMiss t g va
    | .error (e, none) => raise e da
    | .ok _ => pure ()
    return if l = 0 then m else SMap.put m block l
  if 2 ^ 52 ≤ a then raise ILLEGAL_OPERAND da
  else if inCaldera a then judged 0 ((s.caldera t (a % 2 ^ 40)).mapError fun e => (e, none))
  else do
    let l ← match SMap.find m block with
      | some l => pure l
      | none => xlate k va
    if lfAPT l = 0 || lfAPT l = 2 then judged l (s.route t l a) else raise ILLEGAL_OPERAND da

/-- What is wrong with a piece of the global side whose page has been found: it is versioned, or its die is lost (R309, R428 step 8). The
granule of another package is asked there; one that is not held is the descriptor's fault (R439). -/
def ventPlain (da : Word) (m : SMap Word) (a : Nat) : M (BitVec 8) := do
  let s ← get
  let core := coreOf s.dev.cur
  let t := s.tenOf core
  let r := if inCaldera a then (s.caldera t (a % 2 ^ 40)).toOption
    else (SMap.find m (a / 2 ^ 19 * 2 ^ 19)).bind fun l => (s.route t l a).toOption
  match r with
  | some (_, true) => return VERSION
  | some (.cal pkg ca off, false) =>
    if s.calHere pkg ca then return 0
    else match ← askBank (.ctx s.dev.cur) core t pkg ca off { op := roCheck, len := 8 } with
      | none => return CALDERA_LOST
      | some r =>
        if r.status ≠ 0 && r.status ≠ CALDERA_LOST then raise r.status da
        else return if r.status = 0 && r.flags.getLsbD 0 then VERSION else r.status
  | _ => return 0

/-- The address steps of a list of pieces, in order. -/
def ventFind (da : Word) (k : AKind) : List Nat → SMap Word → M (SMap Word)
  | [], m => return m
  | a :: r, m => do
    let m ← ventPage da k m a
    ventFind da k r m

/-- The pieces of a list of ranges: every address step comes before the first VERSION check, and that before a lost die (R428). -/
def ventPages (da : Word) (k : AKind) (as : List Nat) (m : SMap Word) : M (SMap Word) := do
  let m ← ventFind da k as m
  let cs ← mapL (fun a => do
    let c ← ventPlain da m a
    return (a, c)) as
  each (fun c => match cs.find? fun e => e.2 == c with
    | some e => raise c (BitVec.ofNat 64 e.1)
    | none => pure ()) [VERSION, CALDERA_LOST]
  return m

/-- The first address of every 64 KiB piece of a range. -/
def pieceStarts (a n : Nat) : List Nat := (pieces (pieceCount n) a n).map (·.1)

/-! ### Bytes with their poison marks (R379, R386) -/

/-- Bytes at a location with the marks of their words. -/
def State.marked (s : State) (loc n : Nat) : List PByte :=
  (List.range n).map fun k => (s.byte (loc + k), s.pois.contains ((loc + k) / 8 * 8))

/-- Bytes written with their marks: a word that takes a byte of a poisoned word is poisoned. -/
def putMarked (loc : Nat) (bs : List PByte) : M Unit := do
  upd (.poke loc (bs.map (·.1)))
  each (fun (e : Nat × PByte) => if e.2.2 then upd (.poison (loc + e.1)) else pure ()) ((List.range bs.length).zip bs)

/-- A mask of the poisoned words of a line, by word number within it. -/
def markMask (loc : Nat) (bs : List PByte) : Nat :=
  ((List.range bs.length).zip bs).foldl (fun m e => if e.2.2 then m ||| 2 ^ ((loc + e.1) / 8 % 8) else m) 0

def unmask (loc mask : Nat) (bs : List Byte) : List PByte :=
  ((List.range bs.length).zip bs).map fun e => (e.2, mask.testBit ((loc + e.1) / 8 % 8))

/-! ### The accesses of an operation (R310) -/

/-- Where an operation's access goes, by the leaf it resolved. -/
def State.vopTgt (s : State) (o : VOp) (a : Nat) : Except (BitVec 8 × Option Nat) (Tgt × Bool) :=
  if inCaldera a then (s.caldera o.ten (a % 2 ^ 40)).mapError fun e => (e, none)
  else match SMap.find o.pages (a / 2 ^ 19 * 2 ^ 19) with
  | some l => s.route o.ten l a
  | none => .error (ILLEGAL_OPERAND, none)

/-- An access at a home as the plain access of the vent context: its slice looked up with the operation's reuse code (R88, R310). -/
def vopHome (who : Who) (o : VOp) (phys : Nat) (wr : Bool) : M Unit := do
  let s ← get
  let core := coreOf o.ctx
  touchL2 phys (s.effCode core o.nu.toNat) o.ten (if o.dec then unitSlot else slotOf o.ctx) wr
  if wr then homeWrite who (phys / 64) none else homeRead who (phys / 64) none

/-- Bytes of one line read by an operation; none when the die is lost. A read that cannot be performed gives poison (R383), and a poisoned
answer poisons every word that it carries (R409). -/
def vopRead (who : Who) (o : VOp) (a n : Nat) : M (Option (List PByte)) := do
  let s ← get
  let bad : List PByte := List.replicate n (0, true)
  match s.vopTgt o a with
  | .error (_, some g) => do
    noteMiss o.ten g
    return some bad
  | .error (_, none) => return some bad
  | .ok (_, true) => return some bad
  | .ok (.hbm x, _) => do
    vopHome who o x false
    let s ← get
    return some (s.marked (Space.hbm.loc x) n)
  | .ok (.cal pkg ca off, _) =>
    if s.calHere pkg ca then return some (s.marked ((Space.cal ca).loc off) n)
    else do
      match ← askBank who (coreOf o.ctx) o.ten pkg ca off { op := roRead, len := n } with
      | none => return none
      | some r =>
        return some (if r.status = 0 || r.status = POISON then (r.data.take n).map fun b => (b, r.status == POISON) else bad)
  | .ok _ => return some bad

/-- Bytes of one line written by an operation: whether they were, or none when the die is lost. -/
def vopWrite (who : Who) (o : VOp) (a : Nat) (bs : List PByte) : M (Option Bool) := do
  let s ← get
  match s.vopTgt o a with
  | .error (_, some g) => do
    noteMiss o.ten g
    return some false
  | .error (_, none) => return some false
  | .ok (_, true) => return some false
  | .ok (.hbm x, _) => do
    vopHome who o x true
    putMarked (Space.hbm.loc x) bs
    return some true
  | .ok (.cal pkg ca off, _) =>
    if s.calHere pkg ca then do
      putMarked ((Space.cal ca).loc off) bs
      return some true
    else do
      match ← askBank who (coreOf o.ctx) o.ten pkg ca off
          { op := roWrite, sub := markMask off bs, len := bs.length, data := bs.map (·.1) } with
      | none => return none
      | some r => return some (r.status == 0)
  | .ok _ => return some false

/-- The location of a near-side byte (R308). -/
def VOp.nearLoc (o : VOp) (off : Nat) : Nat :=
  if vdSPACE o.desc.toNat then (Space.bstore o.core).loc off else (Space.lm o.core).loc off

/-- A longer range read line by line. -/
def vopBytes (who : Who) (o : VOp) : List (Nat × Nat) → M (Option (List PByte))
  | [] => return some []
  | (a, n) :: m => do
    match ← vopRead who o a n with
    | none => return none
    | some bs => do
      match ← vopBytes who o m with
      | none => return none
      | some r => return some (bs ++ r)

/-- The global ranges, in one line each, that near-side bytes come from. -/
def nearSources (rows : List (Nat × Nat × Nat)) (off n : Nat) : List (Nat × Nat) :=
  rows.flatMap fun r =>
    let lo := max off r.2.1
    let hi := min (off + n) (r.2.1 + r.2.2)
    if lo < hi then spansOf (r.1 + (lo - r.2.1)) (hi - lo) else []

/-- The next beat of a transfer moved, from its resume offset on (R310, R373): how many bytes, and its STATUS so far; none when the die is
lost, and what has been written stays (R379, R418). A push fills the near side beat by beat, and a pull writes the global side so: every
word that it covers is written whole (R386). -/
def moveNext (who : Who) (o : VOp) : M (Option (Nat × BitVec 8)) := do
  let func := o.func.toNat
  let d := o.desc.toNat
  let off := vdOFF d + o.moved
  if vIn func then do
    let n := min (32 - off % 32) (vdBytes func false d - o.moved)
    match ← vopBytes who o (nearSources (vdRows func d) off n) with
    | none => return none
    | some bs => do
      putMarked (o.nearLoc off) bs
      return some (n, if bs.any (·.2) then POISON else o.sofar)
  else
    match beatAt (joinRows (vdRows func d)) o.moved with
    | none => return none
    | some (a, n, src) => do
      let s ← get
      let bs := src.flatMap fun e => s.marked (o.nearLoc e.1) e.2
      match ← vopWrite who o a bs with
      | none => return none
      | some ok => return some (n, if bs.any (·.2) || !ok then POISON else o.sofar)

/-- A decoding push: DecodeTile over what its pages hold, and the columns written (R71, R378). -/
def decodePush (o : VOp) : M (BitVec 8) := do
  let d := o.desc.toNat
  let dir := o.dir.toNat
  let len := min (bitsOf dir 40 8) 64
  if o.dirBad then return POISON
  else do
    let img ← vopBytes (.vop o.id) o (spansOf (vdGA d + 32 * bitsOf dir 0 40) (32 * len))
    let table ← vopBytes (.vop o.id) o (spansOf (vdTAB d) 128)
    let scales ← vopBytes (.vop o.id) o (spansOf (vdSCL d + 64 * vdTILE d) 64)
    match img, table, scales with
    | some i, some t, some sc => do
      let r := decodeTile dir i t sc
      upd (.poke (o.nearLoc (vdOFF d)) (r.2.flatMap (·.1)))
      upd (.poke (o.nearLoc (vdOFF d + 1024)) (r.2.map (·.2)))
      return r.1
    | _, _, _ => return CALDERA_LOST

/-! ### Locks (R115, R116) -/

/-- The lock of an operation; a B-store lock covers whole slots. -/
def vopLock (id func : Nat) (dec : Bool) (d : Nat) : Lock :=
  let n := vdBytes func dec d
  let off := vdOFF d
  if vdSPACE d then ⟨true, off / 2048 * 2048, (off + n - 1) / 2048 * 2048 + 2048 - off / 2048 * 2048, vIn func, id⟩
  else ⟨false, off, n, vIn func, id⟩

/-- Whether a lock can be registered now. -/
def Core.lockable (c : Core) (l : Lock) : Bool :=
  decide (c.locks.length < 16) && !c.locks.any fun x =>
    x.bstore == l.bstore && (x.all || l.all) && decide (x.base < l.base + l.len) && decide (l.base < x.base + x.len)

/-! ### The instructions -/

/-- Wait until one of the context's eight operation entries is free (R310 step 1). -/
def entryFree : M Unit := do
  let s ← get
  if 8 ≤ (s.dev.vops.filter fun o => o.ctx == s.dev.cur).length then stall else pure ()

/-- The directory entry of a decoding push, read at step 3, and whether its word is poisoned. -/
def readDir (o : VOp) : M (Nat × Bool) := do
  let a := vdDIR o.desc.toNat + 8 * vdTILE o.desc.toNat
  match ← vopBytes (.ctx o.ctx) o (spansOf a 8) with
  | none => raise CALDERA_LOST (BitVec.ofNat 64 a)
  | some bs => return (leNat (bs.map (·.1)), bs.any (·.2))

/-- The four transfers (R310). -/
def ventTransfer (i : Instr) (func : Nat) (dec nocq : Bool) (nu : BitVec 4) (rs1 rs2 : XReg) : M Fin := do
  agent i onVent
  let va ← rx rs1
  let tag ← rx rs2
  entryFree
  fenceAll
  aligned va 64
  if exposed va then pure () else raise ILLEGAL_OPERAND va
  let a ← locate .load va 64
  let s ← get
  let me' := s.dev.cur
  let p := s.pnodeOf (coreOf me')
  let l := (s.locOf a.tgt).getD 0
  if s.poisoned l 64 then raise POISON va else pure ()
  let d := s.peek l 64
  if s.descOk p func dec d then pure () else raise ILLEGAL_OPERAND va
  let k : AKind := if vIn func then .vread else .vwrite
  let id ← nextSeq
  let o : VOp := { id := id, ctx := me', ten := s.tenOf (coreOf me'), pnode := p, func := BitVec.ofNat 4 func, dec := dec,
                   nocq := nocq, nu := nu, desc := BitVec.ofNat 512 d, tag := tag.setWidth 32, core := vdCORE d, pages := [],
                   dir := 0, dirBad := false, status := none, done := none }
  let o ← if dec then do
      let e := vdDIR d + 8 * vdTILE d
      let m ← ventPages va k (pieceStarts e 8) []
      let (dir, bad) ← readDir { o with pages := m }
      let img := if bad then [] else pieceStarts (vdGA d + 32 * bitsOf dir 0 40) (32 * min (bitsOf dir 40 8) 64)
      let m ← ventPages va k (pieceStarts (vdTAB d) 128 ++ pieceStarts (vdSCL d + 64 * vdTILE d) 64 ++ img) m
      pure { o with pages := m, dir := BitVec.ofNat 64 dir, dirBad := bad }
    else do
      let m ← ventPages va k ((vdRows func d).flatMap fun r => pieceStarts r.1 r.2.2) []
      pure { o with pages := m }
  let s ← get
  let lock := vopLock id func dec d
  if (s.core o.core).lockable lock then do
    upd (.core o.core fun c => { c with locks := c.locks ++ [lock] })
    upd (.dev fun v => { v with vops := v.vops ++ [o] })
    return { trc := true }
  else stall

def execVentPush (nu : BitVec 4) (nocq : Bool) (rs1 rs2 : XReg) : State → Outcome :=
  instr (ventTransfer (.ventPush nu nocq rs1 rs2) 0 false nocq nu rs1 rs2)
def execVentPushDec (nu : BitVec 4) (nocq : Bool) (rs1 rs2 : XReg) : State → Outcome :=
  instr (ventTransfer (.ventPushDec nu nocq rs1 rs2) 0 true nocq nu rs1 rs2)
def execVentPull (nu : BitVec 4) (nocq : Bool) (rs1 rs2 : XReg) : State → Outcome :=
  instr (ventTransfer (.ventPull nu nocq rs1 rs2) 1 false nocq nu rs1 rs2)
def execVentGath (nu : BitVec 4) (nocq : Bool) (rs1 rs2 : XReg) : State → Outcome :=
  instr (ventTransfer (.ventGath nu nocq rs1 rs2) 2 false nocq nu rs1 rs2)
def execVentScat (nu : BitVec 4) (nocq : Bool) (rs1 rs2 : XReg) : State → Outcome :=
  instr (ventTransfer (.ventScat nu nocq rs1 rs2) 3 false nocq nu rs1 rs2)

/-- The oldest entry of a context with a tag; every entry when no tag is given. -/
def State.ventEntry (s : State) (ctx : Nat) (tag : Option (BitVec 32)) : Option VOp :=
  s.dev.vops.find? fun o => o.ctx == ctx && (tag.isNone || tag == some o.tag)

/-- R311. -/
def execVentWait (rs1 rs2 : XReg) : State → Outcome := instr (do
  agent (.ventWait rs1 rs2) onVent
  let t ← rx rs1
  let s ← get
  match s.ventEntry s.dev.cur (if rs1 = 0 then none else some (t.setWidth 32)) with
  | none => wx rs2 (BitVec.allOnes 64)
  | some o => do
    match o.done with
    | none => park .message
    | some r => do
      wx rs2 r
      upd (.dev fun d => { d with vops := d.vops.filter fun x => x.id != o.id })
  return { trc := true })

/-- R312. -/
def execVentNote (rs1 rs2 : XReg) : State → Outcome := instr (do
  agent (.ventNote rs1 rs2) onVent
  let v ← rx rs1
  let tag ← rx rs2
  entryFree
  let s ← get
  let c := s.dev.cur
  let core := v.toNat % 4096
  let p := s.pnodeOf (coreOf c)
  if (s.nodeCores p).contains core then pure () else raise ILLEGAL_OPERAND (BitVec.ofNat 64 core)
  fenceAll
  let id ← nextSeq
  let o : VOp := { id := id, ctx := c, ten := s.tenOf (coreOf c), pnode := p, func := 5, dec := false, nocq := false, nu := 0,
                   desc := 0, tag := tag.setWidth 32, core := core, pages := [], dir := 0, dirBad := false,
                   status := some 0, done := none }
  upd (.dev fun v => { v with vops := v.vops ++ [o] })
  return { trc := true })

/-! ### Completion (R310, R378, R379) -/

/-- The record of a finished operation (R239). -/
def VOp.record (o : VOp) (st : BitVec 8) : Word :=
  BitVec.ofNat 64 (o.tag.toNat * 2 ^ 32 + o.func.toNat * 2 ^ 28 + st.toNat * 2 ^ 20 + (coreOf o.ctx - 4096) * 2 ^ 9 + ctxOf o.ctx * 2 ^ 7)

/-- Whether an operation's own context is parked in a `vent.wait` for it (R311). -/
def State.awaited (s : State) (o : VOp) : Bool :=
  let c := s.ctx o.ctx
  c.run == .parked && match c.wait.bind (·.ins) with
    | some (.ventWait r _) => (s.ventEntry o.ctx (if r = 0 then none else some ((c.rd r).setWidth 32))).map (·.id) == some o.id
    | _ => false

/-- Whether an operation may finish: its records follow those of earlier operations, and the queue has room. -/
def State.canFinish (s : State) (o : VOp) : Bool :=
  o.nocq || (decide ((s.core o.core).cq.length < 16) &&
    !s.dev.vops.any fun x => decide (x.id < o.id) && x.ctx == o.ctx && x.core == o.core && x.done.isNone)

/-- The one step that finishes an operation. -/
def finishVop (o : VOp) (st : BitVec 8) : M Unit := do
  let s ← get
  let r := o.record st
  upd (.core o.core fun c => { c with cq := if o.nocq then c.cq else c.cq ++ [r], locks := c.locks.filter fun l => l.op != o.id })
  let keep := o.nocq || s.awaited o
  upd (.dev fun d => { d with vops := d.vops.filterMap fun x =>
    if x.id = o.id then (if keep then some { x with done := some r } else none) else some x })
  forget (.vop o.id)

/-- An operation has its STATUS: it finishes when its record may be appended. -/
def settleVop (o : VOp) (st : BitVec 8) : M Unit := do
  upd (.dev fun v => { v with vops := v.vops.map fun x => if x.id = o.id then { o with status := some st } else x })
  let s ← get
  if s.canFinish o then finishVop o st else forget (.vop o.id)

/-- VENT_OP_COMPLETE: the next beat is moved (log 18), and with the last of them the operation finishes in one step when its record may be
appended. It stops while its tenant is paused (R373), and the decoder of a core serves decoding pushes in the order of their locks
(R309). -/
def execVentOpComplete (op : Nat) : State → Outcome := event (do
  let s ← get
  match s.dev.vops.find? fun o => o.id == op with
  | none => stall
  | some o =>
    if o.done.isSome || s.pausedTen o.ten then stall
    else match o.status with
    | some st => if s.canFinish o then finishVop o st else stall
    | none =>
      if o.dec then
        if s.dev.vops.any fun x => x.dec && x.core == o.core && decide (x.id < o.id) && x.status.isNone then stall
        else do
          let st ← decodePush o
          settleVop o st
      else match ← moveNext (.vop o.id) o with
      | none => settleVop o CALDERA_LOST
      | some (n, st) => do
        let o' := { o with moved := o.moved + n, sofar := st }
        if vdBytes o.func.toNat false o.desc.toNat ≤ o'.moved then settleVop o' st
        else do
          upd (.dev fun v => { v with vops := v.vops.map fun x => if x.id = op then o' else x })
          forget (.vop op))

end Sys2Proof.Machine
end

