-- ==== Sys2Proof/Machine/Host.lean ====
section
/-!
DEFINITION. The host's commands (R24 to R26, R138, R139, R155, R345, R346, R348, R367, R372 to R374). A function is named by its
number: 0 to 63 a tenant's virtual function, 64 the physical function. A command acts when the machine comes to it; while what
it waits for has not happened, it stays in progress.
-/

namespace Sys2Proof.Machine

open M

/-- RESULT codes (R367). -/
def rOk : BitVec 8 := 0x00
def rOp : BitVec 8 := 0x01
def rState : BitVec 8 := 0x02
def rDesc : BitVec 8 := 0x03
def rRoot : BitVec 8 := 0x04
def rTree : BitVec 8 := 0x05
def rRange : BitVec 8 := 0x06
def rGpa : BitVec 8 := 0x07
def rVa : BitVec 8 := 0x08

/-- The number of the physical function. -/
def PF : Nat := 64

/-- The engine that works for a function. -/
def fnWho (fn : Nat) : Who := .eng (20000 + fn)

/-- A command of a function: it runs while it is in progress, not while the tenant is paused (R374), and ends with its RESULT. -/
def command (fn op : Nat) (body : Nat → M (BitVec 8)) : M Unit := do
  let s ← get
  let v := s.vf fn
  match v.cmd with
  | none => stall
  | some c =>
    if c.toNat % 256 ≠ op || v.paused then stall
    else do
      let r ← body (c.toNat / 256)
      upd (.vf fn fun v => { v with cmd := none, result := r })
      forget (fnWho fn)

/-- Whether a node is a partition of the function: of its tenant, or of nobody for the physical function. -/
def State.owns (s : State) (fn p : Nat) : Bool :=
  match s.part? p with
  | some q => q.ten == if fn < PF then some fn else none
  | none => false

/-- A command on a partition of the function in a state it accepts (R367). -/
def onPart (fn p : Nat) (ok : PState → Bool) (body : M (BitVec 8)) : M (BitVec 8) := do
  let s ← get
  if s.owns fn p && ok (s.part p).st then body else return rState

def setPartM (p : Nat) (f : Part → Part) : M Unit := upd (.part p f)

/-- The contexts of a core. -/
def ctxsOf (core : Nat) : List Nat := (List.range (ctxCount core)).map (ctxId core)

/-! ### Clearing cores (R26) and event units -/

/-- Every stash frame of a core unmapped as `sunmap` does, and every L1 line written back and invalidated. -/
def unmapAll (core : Nat) : M Unit := do
  let s ← get
  each (fun (e : Nat × Word) => flushFrame core e.1) (s.core core).stash
  upd (.core core fun c => { c with stash := [] })

/-- The event units of a partition reset (R26, R139); group members leave first (log 12). -/
def resetEvents (p : Nat) : M Unit := do
  let s ← get
  each (fun b => if (s.groupMembers p b).isEmpty then pure () else do
    tellGroup p b 2
    each (fun q => setGbar p b q 0) (List.range 16)) (List.range 4)
  each (fun k => upd (.cluster k fun c => { c with bars := [], lines := 0, mutex := [] })) (s.nodeClusters p)

/-- One core cleared (R26, steps 1 to 4). The scalar registers are cleared with it (log 5). -/
def clearCore (core : Nat) : M Unit := do
  unmapAll core
  flushLines core (fun _ => true) true
  upd (.scrub ((Space.lm core).loc 0) ((Space.lm core).loc Config.lmBytes))
  upd (.scrub ((Space.bstore core).loc 0) ((Space.bstore core).loc (2 ^ 21)))
  upd (.core core fun _ => Core.reset)
  each (fun id => do
    forget (.ctx id)
    upd (.ctx id fun _ => Ctx.reset id)) (ctxsOf core)

/-- Whether an unfinished vent operation targets a core of a list (R26). -/
def State.vented (s : State) (cores : List Nat) : Bool := s.dev.vops.any fun o => cores.contains o.core && o.done.isNone

/-- RELEASE and RECLAIM: an IDLE partition is cleared and becomes UNOWNED. -/
def releasePart (p : Nat) : M (BitVec 8) := do
  let s ← get
  if s.vented (s.nodeCores p) then stall
  else do
    each clearCore (s.nodeCores p)
    resetEvents p
    setPartM p fun q => { Part.reset with intv := q.intv }
    freeIdlePorts
    return rOk

def execRelease (fn : Nat) : State → Outcome :=
  event (command fn 0x07 fun p => onPart fn p (· == .idle) (releasePart p))

/-- Only the physical function reclaims, from any tenant (R348). -/
def execReclaim (fn : Nat) : State → Outcome := event (command fn 0x21 fun p => do
  let s ← get
  if fn ≠ PF then return rOp
  else if (s.part? p).isSome && (s.part p).st == .idle then releasePart p
  else return rState)

/-- ASSIGN (R24): a partition without a present cluster cannot be owned (R23). -/
def execAssign (fn : Nat) : State → Outcome := event (command fn 0x20 fun p => do
  let s ← get
  if fn ≠ PF then return rOp
  else if (s.part? p).isSome && (s.part p).st == .unowned && !(s.nodeClusters p).isEmpty then do
    setPartM p fun q => { q with st := .idle, ten := some ((s.vf fn).arg0.toNat % 64) }
    return rOk
  else return rState)

/-! ### Splitting and merging (R25) -/

/-- SPLIT. Both children take the tenant (R25), and none may be owned without a present cluster (R23): an owned node with a child that would
have none is refused as the tree's RESULT (log 16). -/
def execSplit (fn : Nat) : State → Outcome := event (command fn 0x05 fun p =>
  onPart fn p (fun x => x == .idle || x == .unowned) (do
    let s ← get
    let lone := fun (k : Nat) => (s.part p).ten.isSome && (s.nodeClusters k).isEmpty
    if 1024 ≤ p || lone (2 * p) || lone (2 * p + 1) then return rTree
    else do
      upd (.splitPart p)
      -- the mailbox stays with the service core (log 16)
      let q := s.part p
      if (s.nodeClusters (2 * p)).isEmpty then do
        setPartM (2 * p) fun x => { x with mailbox := [], mbq := [] }
        setPartM (2 * p + 1) fun x => { x with mailbox := q.mailbox, mbq := q.mbq }
      else pure ()
      return rOk))

/-- MERGE names the parent. -/
def execMerge (fn : Nat) : State → Outcome := event (command fn 0x06 fun p => do
  let s ← get
  match s.part? (2 * p), s.part? (2 * p + 1) with
  | some a, some b =>
    if !s.owns fn (2 * p) || !s.owns fn (2 * p + 1) then return rState
    else if a.st == b.st && (a.st == .idle || a.st == .unowned) then do
      upd (.mergePart p)
      return rOk
    else return rTree
  | _, _ => return rTree)

/-! ### Draining, resuming, discarding (R24, R47, R155) -/

def execDrain (fn : Nat) : State → Outcome := event (command fn 0x02 fun p =>
  onPart fn p (· == .running) (do
    setPartM p fun q => { q with st := .draining, wd := 0 }
    return rOk))

/-- What a resumed core holds zero in (R47). -/
def resumeCore (core : Nat) : M Unit := do
  upd (.scrub ((Space.bstore core).loc 0) ((Space.bstore core).loc (2 ^ 21)))
  upd (.core core fun c => { c with v := [], t := [], vpois := 0, tpois := 0, fresh := 0 })

/-- A held record placed, in a partition that has begun to run again. -/
def placeHeld (tb : Tab) (j : Nat) : M Unit := do
  let (r, _) ← readSlot tb j
  placeRec tb j r

/-- RESUME. A record that became HELD while the partition was SAVED has armed the superstep, which stays armed (R46). -/
def execResume (fn : Nat) : State → Outcome := event (command fn 0x03 fun p =>
  onPart fn p (· == .saved) (do
    let s ← get
    each resumeCore (s.nodeCores p)
    setPartM p fun q => { q with st := .running, sliceLeft := q.slice, wd := 0, held := [] }
    each (placeHeld (s.tabOf (fnWho fn) p)) (s.part p).held
    return rOk))

/-- A partition with no component bound (R24). -/
def Part.unbound (q : Part) : Part :=
  { q with st := .idle, pool := [], held := [], placing := [], armed := false, dead := false, wd := 0 }

def execDiscard (fn : Nat) : State → Outcome := event (command fn 0x04 fun p =>
  onPart fn p (· == .saved) (do
    setPartM p Part.unbound
    freeIdlePorts
    return rOk))

/-! ### Loading and settings -/

/-- The cores a CORE field names: one by index, or all (R345). -/
def State.pickCores (s : State) (p core : Nat) : Option (List Nat) :=
  if core = 0xFFF then some (s.nodeCores p) else ((s.nodeCores p)[core]?).map ([·])

/-- Bytes of a function's guest-physical space, each with its word's mark; none when stage 2 does not map one of them. -/
def gpaBytes (who : Who) (t : Nat) : List (Nat × Nat) → M (Option (List PByte))
  | [] => return some []
  | (a, n) :: m => do
    let s ← get
    match s.stage2 t a with
    | none => return none
    | some x => do
      homeRead who (x / 64) none
      let s ← get
      match ← gpaBytes who t m with
      | none => return none
      | some r => return some (s.marked (Space.hbm.loc x) n ++ r)

def execLoadlm (fn : Nat) : State → Outcome := event (command fn 0x08 fun p =>
  onPart fn p (· == .idle) (do
    let s ← get
    let a := (s.vf fn).arg1.toNat
    let off := bitsOf a 0 18
    let len := bitsOf a 18 18
    match s.pickCores p (bitsOf a 36 12) with
    | none => return rRange
    | some cores =>
      if len = 0 || 0x2F000 < off + len then return rRange
      else do
        match ← gpaBytes (fnWho fn) fn (spansOf (s.vf fn).arg0.toNat len) with
        | none => return rGpa
        | some bs => do
          each (fun c => putMarked ((Space.lm c).loc off) bs) cores
          return rOk))

def execLoadcsr (fn : Nat) : State → Outcome := event (command fn 0x09 fun p =>
  onPart fn p (· == .idle) (do
    let s ← get
    let v := (s.vf fn).arg0
    let a := (s.vf fn).arg1.toNat
    let n := if a.testBit 4 then cXSCRATCH else cXTVEC
    match s.pickCores p (bitsOf a 36 12) with
    | none => return rRange
    | some cores =>
      if 10 < bitsOf a 0 4 then return rRange
      else do
        each (fun c => upd (.ctx (ctxId c (bitsOf a 0 4)) fun x => x.csrSet false n (csrMerge n (x.csrGet false n) v))) cores
        return rOk))

def execSetslice (fn : Nat) : State → Outcome := event (command fn 0x0A fun p =>
  onPart fn p (· != .unowned) (do
    let s ← get
    let n := (s.vf fn).arg0.toNat
    setPartM p fun q => { q with slice := n, sliceLeft := if q.st == .running then n else q.sliceLeft }
    return rOk))

def execSetprio (fn : Nat) : State → Outcome := event (command fn 0x0B fun p =>
  onPart fn p (· != .unowned) (do
    let s ← get
    let k := BitVec.ofNat 64 ((s.vf fn).arg0.toNat % 4)
    each (fun c => upd (.core c fun x => x.csrSet cPRIO k)) (s.nodeCores p)
    return rOk))

/-- SETRDCTL (R119, R395): every shadow entry of the partition is cleared. -/
def execSetrdctl (fn : Nat) : State → Outcome := event (command fn 0x0C fun p =>
  onPart fn p (· != .unowned) (do
    let s ← get
    let v := s.vf fn
    setPartM p fun q => { q with rdctl := v.arg0.setWidth 3, raceLog := v.arg1 &&& 0xF_FFFF_FFFF_E001, raceSeq := 0 }
    each (fun (e : Nat × Shadow) => if e.2.pnode = p then upd (.shadow e.1 none) else pure ()) s.shadow
    return rOk))

def execInterrupt (fn : Nat) : State → Outcome := event (command fn 0x0D fun p =>
  onPart fn p (fun x => x == .running || x == .draining) (do
    let s ← get
    match s.pickCores p (bitsOf (s.vf fn).arg1.toNat 36 12) with
    | none => return rRange
    | some cores => do
      each (fun c => upd (.core c fun x => { x with hostInt := true })) cores
      return rOk))

/-- PORTSET (R122, R348). -/
def execPortset (fn : Nat) : State → Outcome := event (command fn 0x22 fun _ => do
  let s ← get
  let a := (s.vf fn).arg0.toNat
  if fn ≠ PF then return rOp
  else do
    upd (.port (a % 1024) fun q => { q with ten := if a.testBit 16 then some (bitsOf a 17 6) else none })
    return rOk)

/-! ### Launch (R138, R139) -/

/-- Fields of a launch descriptor (R138). -/
def ldROOT (d : Nat) : Nat := bitsOf d 0 64
def ldPMAP (d : Nat) : Nat := bitsOf d 64 64
def ldTROOT (d : Nat) : Nat := bitsOf d 128 64
def ldFUTBASE (d : Nat) : Nat := bitsOf d 192 64
def ldPORTBASE (d : Nat) : Nat := bitsOf d 256 64
def ldMBOXBASE (d : Nat) : Nat := bitsOf d 320 64
def ldEBUDGET (d : Nat) : Nat := bitsOf d 384 32
def ldFUTLOG (d : Nat) : Nat := bitsOf d 416 5
def ldPRIO (d : Nat) : Nat := bitsOf d 424 2
def ldRES (d : Nat) : Bool := d.testBit 426
def ldRes (d : Nat) : Nat := bitsOf d 421 3 + bitsOf d 427 5 + bitsOf d 443 5 + bitsOf d 454 570

/-- Whether a descriptor keeps R138 for a function and a partition. -/
def launchOk (fn p d : Nat) : Bool :=
  ldRes d == 0 && bitsOf d 448 6 == fn && bitsOf d 432 11 == p && decide (10 ≤ ldFUTLOG d) && decide (ldFUTLOG d ≤ 20) &&
  ldFUTBASE d % 32 == 0 && ldTROOT d % 2 ^ 14 == 0 && ldPMAP d % 16 == 0 && ldROOT d % 64 == 0

/-- The target of a virtual address that a launch uses, through the tables at TROOT, or the RESULT (R367). -/
def State.launchTgt (s : State) (t root va : Nat) (wr : Bool) : Except (BitVec 8) (Tgt × Bool) :=
  if 2 ^ 52 ≤ va || inCaldera va then .error rVa
  else match s.walkFrom t va 3 1 root with
  | .leaf l =>
    if if wr then lfW l else lfR l then
      match s.route t l va with
      | .ok x => .ok x
      | .error (_, some _) => .error rGpa
      | .error (_, none) => .error rVa
    else .error rVa
  | .miss _ => .error rGpa
  | _ => .error rVa

/-- Pieces of at most one line that a launch reads. -/
def launchReads (who : Who) (core t root : Nat) : List (Nat × Nat) → M (Except (BitVec 8) (List Nat))
  | [] => return .ok []
  | (a, n) :: m => do
    readyWalkFrom t a 3 1 root
    let s ← get
    match s.launchTgt t root a false with
    | .error e => return .error e
    | .ok (x, ver) => do
      match ← readTgt who core t a x ver n with
      | .error _ => return .error rVa
      | .ok v => do
        match ← launchReads who core t root m with
        | .error e => return .error e
        | .ok vs => return .ok (v :: vs)

/-- Whether the future table with its waiter pool and link array can be written: the RESULT of the first page that cannot. -/
def State.launchTable (s : State) (t root base log : Nat) : Option (BitVec 8) :=
  (pagesOf base (104 * 2 ^ log)).findSome? fun a => match s.launchTgt t root a true with
    | .error e => some e
    | .ok (x, ver) => if ver || (s.locOf x).isNone then some rVa else none

/-- Every entry of the future table FREE with GEN 0 (R33). -/
def clearTable (who : Who) (t root base log : Nat) : M Unit := do
  let hi := base + 32 * 2 ^ log
  each (fun a => do
    let s ← get
    let n := min hi ((a / 2 ^ 19 + 1) * 2 ^ 19) - a
    match s.launchTgt t root a true with
    | .error _ => pure ()
    | .ok (x, _) =>
      match s.locOf x with
      | none => pure ()
      | some l => do
        each (fun (e : Nat × List (Nat × LSt)) =>
          if l / 64 ≤ e.1 && e.1 < (l + n + 63) / 64 then homeWrite who e.1 none else pure ()) s.dev.dir
        upd (.scrub l (l + n))) (pagesOf base (32 * 2 ^ log))

/-- A core's registers after a launch (R139 step 4). -/
def Core.launched (d : Nat) (pmap : List (BitVec 128)) (c : Core) : Core :=
  let w := fun (n : Nat) => BitVec.ofNat 64 n
  let put := fun (c : Core) (e : Nat × Word) => c.csrSet e.1 e.2
  let resets := [cVSHARE, cRWPERM, cSTASHCFG, cRDEF, cMFMT, cMSCA, cMSCB, cMCODE].map fun n => (n, coreCsrReset n)
  let sets : List (Nat × Word) :=
    [(cFUTBASE, csrMerge cFUTBASE 0 (w (ldFUTBASE d))), (cPORTBASE, csrMerge cPORTBASE 0 (w (ldPORTBASE d))),
     (cMBOXBASE, csrMerge cMBOXBASE 0 (w (ldMBOXBASE d))), (cPRIO, w (ldPRIO d)), (cENERGY, w (1000 * ldEBUDGET d)),
     (cSSNUM, 0), (cRWSTAT, 0), (cRESBYPASS, coreCsrReset cRESBYPASS + w (2 ^ 16 * (ldRES d).toNat))]
  { (resets ++ sets).foldl put c with rules := [], fresh := 0, cq := [], pmap := pmap }

/-- A context after a launch: its guards reset, its receive queue and send slot empty. -/
def Ctx.launched (c : Ctx) : Ctx :=
  let c := [cLGUARD, cLGUARD + 1, cLGUARD + 2, cLGUARD + 3].foldl (fun c n => c.csrSet false n (ctxCsrReset false n)) c
  { c with recvq := [], spilled := 0, ask := none, slot := none }

/-- Step 4 of R139 on one core. Bytes that stop being stash hold zero since they became stash (R83), or the image that LOADLM has put there
(R182). -/
def launchCore (d : Nat) (pmap : List (BitVec 128)) (core : Nat) : M Unit := do
  unmapAll core
  flushLines core (fun _ => true) true
  upd (.core core (Core.launched d pmap))
  each (fun id => upd (.ctx id Ctx.launched)) (ctxsOf core)

/-- Steps 1 to 6 of R139. The interfaces forget what they hold of the address space (log 16). -/
def launchAll (fn p d : Nat) (pmap : List (BitVec 128)) (r : Nat) : M Unit := do
  let s ← get
  upd (.dev fun v => { v with roots := SMap.put v.roots (asidKey fn p) (ldTROOT d),
                              tlb := v.tlb.filter fun e => !(e.ten == fn && e.pnode == p) })
  clearTable (fnWho fn) fn (ldTROOT d) (ldFUTBASE d) (ldFUTLOG d)
  each (launchCore d pmap) (s.nodeCores p)
  resetEvents p
  setPartM p fun q => { q.unbound with
    st := .running, mailbox := [], mbq := [], ebudget := ldEBUDGET d, erem := 1000 * ldEBUDGET d, futlog := ldFUTLOG d,
    futbase := csrMerge cFUTBASE 0 (BitVec.ofNat 64 (ldFUTBASE d)), sliceLeft := q.slice }
  let s ← get
  acceptRec (s.tabOf (fnWho fn) p) r

def execLaunch (fn : Nat) : State → Outcome := event (command fn 0x01 fun p =>
  onPart fn p (· == .idle) (do
    let s ← get
    let g := (s.vf fn).arg0.toNat
    if g % 128 ≠ 0 then return rDesc
    else do
      match ← gpaBytes (fnWho fn) fn (spansOf g 128) with
      | none => return rGpa
      | some bs => do
        let d := leNat (bs.map (·.1))
        let core := s.serviceOf p
        if bs.any (·.2) then return rVa
        else if !launchOk fn p d then return rDesc
        else do
          match ← launchReads (fnWho fn) core fn (ldTROOT d) ((List.range 16).map fun k => (ldPMAP d + 16 * k, 16)) with
          | .error e => return e
          | .ok es => do
            match ← launchReads (fnWho fn) core fn (ldTROOT d) [(ldROOT d, 64)] with
            | .error e => return e
            | .ok rs => do
              each (fun a => readyWalkFrom fn a 3 1 (ldTROOT d)) (pagesOf (ldFUTBASE d) (104 * 2 ^ ldFUTLOG d))
              let s ← get
              let r := rs.headD 0
              match s.launchTable fn (ldTROOT d) (ldFUTBASE d) (ldFUTLOG d) with
              | some e => return e
              | none =>
                if !s.recordOk fn p r || hIndex (rcWait r 0) ≠ 0 || hIndex (rcWait r 1) ≠ 0 then return rRoot
                else do
                  launchAll fn p d (es.map (BitVec.ofNat 128)) r
                  return rOk))

/-! ### Pausing a tenant (R372, R373) -/

/-- The partitions of a tenant, their cores, and the vent cores that run a task of it. -/
def State.partsOf (s : State) (t : Nat) : List Nat := s.parts.filterMap fun e => if e.2.ten = some t then some e.1 else none
def State.coresOf (s : State) (t : Nat) : List Nat := (s.partsOf t).flatMap s.nodeCores
def State.ventsOf (s : State) (t : Nat) : List Nat :=
  s.cores.filterMap fun e => if isVent e.1 && e.2.task.any (fun k => k.ten == t) then some e.1 else none

/-- Whether a core is in the middle of something that a pause waits for (R210, R372). -/
def State.midway (s : State) (core : Nat) : Bool :=
  !(s.core core).vq.isEmpty || ((s.core core).win.any fun e => match e.st with | .started _ => true | _ => false) ||
  (ctxsOf core).any fun id => (s.ctx id).midAccess

/-- A context stopped by a pause. -/
def pauseCtx (id : Nat) : M Unit := do
  let s ← get
  match (s.ctx id).run with
  | .ready | .parked => do
    upd (.ctx id fun c => { c.stopped with held := some c.run })
    forget (.ctx id)
  | .idle => upd (.ctx id fun c => { c with held := some .idle })
  | _ => pure ()

/-- A core stopped by a pause; its L1 lines and stash sectors are written back. -/
def pauseCore (core : Nat) : M Unit := do
  each pauseCtx (ctxsOf core)
  if isVent core then pure ()
  else do
    upd (.core core (Core.flush false))
    flushLines core (fun _ => true) true

/-- A vent core's work for the tenant set aside, so that the core serves other records (R373). -/
def setAside (t core : Nat) : M Unit := do
  let s ← get
  let lo := (Space.lm core).loc 0
  let hi := (Space.lm core).loc Config.ventLmBytes
  let a : Aside :=
    { core := core, kor := s.core core, ctxs := (ctxsOf core).map fun id => (id, s.ctx id),
      lm := s.mem.filter fun e => lo ≤ e.1 && e.1 < hi, pois := s.pois.filter fun w => lo ≤ w && w < hi,
      ops := s.dev.vops.filter fun o => coreOf o.ctx == core && o.ten == t }
  each (fun (o : VOp) => forget (.vop o.id)) a.ops
  upd (.vf t fun v => { v with aside := v.aside ++ [a] })
  upd (.dev fun d => { d with vops := d.vops.filter fun o => coreOf o.ctx != core || o.ten != t })
  upd (.core core fun c => { Core.reset with deque := c.deque, csr := c.csr, cpois := c.cpois })
  each (fun id => upd (.ctx id fun c => { Ctx.reset id with csr := c.csr, cpois := c.cpois })) (ctxsOf core)

/-- What was set aside comes back. -/
def bringBack (a : Aside) : M Unit := do
  let lo := (Space.lm a.core).loc 0
  upd (.core a.core fun c => { a.kor with deque := c.deque })
  each (fun (e : Nat × Ctx) => upd (.ctx e.1 fun _ => e.2)) a.ctxs
  upd (.scrub lo (lo + Config.ventLmBytes))
  each (fun (e : Host.Cell) => upd (.poke e.1 [e.2])) a.lm
  each (fun w => upd (.poison w)) a.pois
  upd (.dev fun d => { d with vops := d.vops ++ a.ops })

/-- A context goes on after a pause, once every access that it had issued before has been performed (R107, R372); until then it stays
stopped. -/
def resumeCtx (id : Nat) : M Unit := do
  let s ← get
  match (s.ctx id).held with
  | none => pure ()
  | some .idle => upd (.ctx id fun c => { c with held := none })
  | some _ =>
    if s.issuedBefore id then pure ()
    else do
      let q ← nextSeq
      upd (.ctx id fun c => { c.restored q with held := none })
      takeLatched id

def execVfpause (fn : Nat) : State → Outcome := event (command fn 0x23 fun _ => do
  let s ← get
  let t := (s.vf fn).arg0.toNat % 64
  let vents := s.ventsOf t
  if fn ≠ PF then return rOp
  else if (s.vf t).paused then return rOk
  else if (s.vf t).cmd.isSome || (s.coresOf t ++ vents).any s.midway then stall
  else do
    each pauseCore (s.coresOf t ++ vents)
    each (setAside t) vents
    upd (.vf t fun v => { v with save := s.time t, paused := true })
    return rOk)

def execVfresume (fn : Nat) : State → Outcome := event (command fn 0x24 fun _ => do
  let s ← get
  let t := (s.vf fn).arg0.toNat % 64
  let asides := (s.vf t).aside
  if fn ≠ PF then return rOp
  else if asides.any fun a => (s.ctx (ctxId a.core 0)).run != .idle || (s.core a.core).task.isSome then stall
  else do
    each bringBack asides
    each (fun c => each resumeCtx (ctxsOf c)) (s.coresOf t ++ asides.map (·.core))
    each (fun p => setPartM p fun q => { q with wd := 0 }) (s.partsOf t)
    upd (.vf t fun v =>
      { v with aside := [], paused := false, toff := (if v.res.toNat < v.save.toNat then v.save else v.res) - s.ref })
    return rOk)

end Sys2Proof.Machine
end

