-- ==== Sys2Proof/Machine/Window.lean ====
section
/-!
DEFINITION. What else the host does: the post window (R140, R141, R366), registers (R344, R348, R354, R368, R400, R408, R411),
attestation (R353, R354), the aperture (R343, R424), stage-2 unmapping (R95, R391), and the resets (R413, R422, R423).
-/

namespace Sys2Proof.Machine

open M

/-- One event, and then another on the state it leaves. -/
def andThen (a b : State → Outcome) (s : State) : Outcome :=
  match a s with
  | .next t => b t
  | .fault r => .fault r
  | .refused r => .refused r

/-! ### The post window -/

/-- The engines that work for a function's aperture, its post window and its reports. -/
def apertureWho (fn : Nat) : Who := .eng (910000 + fn)
def windowWho (fn : Nat) : Who := .eng (911000 + fn)
def reportWho (fn : Nat) : Who := .eng (912000 + fn)

/-- The head of a function's window is accepted or discarded; it waits for a pool slot, and for the end of a pause. -/
def acceptHead (fn : Nat) : M Unit := do
  let s ← get
  let v := s.vf fn
  match v.pwin with
  | [] => stall
  | w :: _ =>
    if v.paused then stall
    else do
      let r := w.toNat
      let p := rcPnode r
      let st := (s.part p).st
      let pop := upd (.vf fn fun v => { v with pwin := v.pwin.tail })
      let discard := do
        pop
        upd (.vf fn fun v => { v with pwref := v.pwref + 1 })
      if fn < PF && s.owns fn p && (st == .running || st == .draining || st == .saved) && s.recordOk fn p r then do
        let tb := s.tabOf (windowWho fn) p
        match ← checkHandles tb [rcWait r 0, rcWait r 1] with
        | some _ => discard
        | none =>
          if s.poolFull p then stall
          else do
            acceptRec tb r
            pop
      else discard
      forget (windowWho fn)

/-- A write to the post window takes an entry of its queue, or is discarded and counted (R140, R366). -/
def queueRecord (fn off len : Nat) (rec : BitVec 512) : M Unit := do
  let s ← get
  if off % 64 ≠ 0 || len ≠ 64 || 4096 ≤ off || 64 ≤ (s.vf fn).pwin.length then
    upd (.vf fn fun v => { v with pwref := v.pwref + 1 })
  else upd (.vf fn fun v => { v with pwin := v.pwin ++ [rec] })

/-! ### Attestation -/

/-- A report starts with the nonce as it stands, or is dropped while one is in progress (R354). -/
def attGo (fn : Nat) : M Unit := do
  let s ← get
  let v := s.vf fn
  if v.att.isSome then upd (.vf fn fun v => { v with attRes := 2 })
  else upd (.vf fn fun v => { v with att := some ((List.range 4).map fun j => SMap.get (fun _ => 0) v.nonce j) })

/-- The configuration block of a report. -/
def State.attConfig (s : State) (fn : Nat) : List Byte :=
  let mine := fun (p : Nat) => fn < PF && (s.port p).ten == some fn
  let bits := ((List.range 1024).map fun p => if mine p then 2 ^ p else 0).sum
  leBytes 128 bits ++ leBytes 4 64 ++ leBytes 4 (s.vf fn).msix ++
    leBytes 4 ((s.cal false).limitOf fn % 2 ^ 16 + (s.cal true).limitOf fn % 2 ^ 16 * 2 ^ 16) ++
    leBytes 4 (s.vf fn).wdlim.toNat ++ leBytes 112 0

/-- A report with its signatures (R354); what the device's identity, images and keys are is open (log 11). -/
def State.attReport (s : State) (fn : Nat) (nonce : List Word) : List Byte :=
  let n := Config.imageCount.toNat + 1
  let total := 368 + 48 * n + 16608
  let body := leBytes 8 (total + 2 ^ 32) ++ (List.range 48).map Config.deviceIdentity ++ nonce.flatMap (fun w => leBytes 8 w.toNat) ++
    leBytes 8 (s.dev.incarn.toNat + (if fn < PF then fn * 2 ^ 16 else 2 ^ 22)) ++ leBytes 8 Config.firmwareVersion.toNat ++
    leBytes 8 n ++ (List.range n).flatMap (fun k => (List.range 48).map (Config.imageMeasure k)) ++ s.attConfig fn
  body ++ (List.range 384).map (Config.rsaSignature body) ++ (List.range 16224).map (Config.slhSignature body)

/-- Bytes written to a function's guest-physical space, line by line; all of it is mapped. -/
def gpaStore (who : Who) (t : Nat) : List (Nat × Nat) → List Byte → M Unit
  | [], _ => pure ()
  | (a, n) :: m, bs => do
    let s ← get
    match s.stage2 t a with
    | some x => do
      homeWrite who (x / 64) none
      upd (.poke (Space.hbm.loc x) (bs.take n))
    | none => pure ()
    gpaStore who t m (bs.drop n)

/-- The first byte of a range that stage 2 of a function does not map, by lines. -/
def State.unmapped (s : State) (t a n : Nat) : Option Nat :=
  ((spansOf a n).find? fun e => (s.stage2 t e.1).isNone).map (·.1)

/-- ATTESTATION_REPORT_DONE. -/
def execAttestationReportDone (fn : Nat) : State → Outcome := event (do
  let s ← get
  let v := s.vf fn
  match v.att with
  | none => stall
  | some nonce => do
    let g := v.attbuf.toNat
    if (s.unmapped fn g 32768).isSome then
      upd (.vf fn fun v => { v with att := none, attRes := 1, attLen := 0 })
    else do
      let r := s.attReport fn nonce
      gpaStore (reportWho fn) fn (spansOf g r.length) r
      upd (.vf fn fun v => { v with att := none, attRes := 0, attLen := BitVec.ofNat 16 r.length })
    forget (reportWho fn))

/-! ### Registers -/

/-- Whether a function has an OP (R345, R348). -/
def opOk (fn op : Nat) : Bool := (1 ≤ op && op ≤ 0x0D) || (fn == PF && 0x20 ≤ op && op ≤ 0x24)

/-- A write of CMD (R344, R367): lost while a command is in progress; a reserved OP completes at once. -/
def writeCmd (fn : Nat) (v : Word) : M Unit := do
  let s ← get
  if (s.vf fn).cmd.isSome then upd (.vf fn fun x => { x with lost := true })
  else if opOk fn (v.toNat % 256) then upd (.vf fn fun x => { x with cmd := some (v.setWidth 19) })
  else upd (.vf fn fun x => { x with result := rOp })

def clearLost (fn : Nat) : M Unit := upd (.vf fn fun v => { v with lost := false })
def clearHndrop (fn : Nat) : M Unit := upd (.vf fn fun v => { v with hndrop := 0 })
def clearS2fault : M Unit := upd (.dev fun d => { d with s2fault := none })

/-- A write of WDLIM restarts the counts of the tenant's partitions (R368, R370). -/
def writeWdlim (t : Nat) (v : Word) : M Unit := do
  let s ← get
  upd (.vf t fun x => { x with wdlim := v.setWidth 32 })
  each (fun p => upd (.part p fun q => { q with wd := 0 })) (s.partsOf t)

/-- Fields of a multicast entry that a write changes (R340). -/
def mcMask : Word := 0x8000_00FF_FFFF_F000

/-- Whether the tables of a caldera die exist (R417). -/
def State.dieThere (s : State) (ca : Bool) : Bool := !(s.cal ca).lost

def writeMcast (ca : Bool) (i : Nat) (v : Word) : M Unit := do
  let s ← get
  if s.dieThere ca then upd (.cal ca fun c => { c with mc := SMap.set (fun _ => 0) c.mc i (v &&& mcMask) }) else pure ()

/-- A write to a register of BAR0 by its offset; every other offset ignores it. -/
def writeBar0 (fn off : Nat) (v : Word) : M Unit := do
  let set := fun (f : Vf → Vf) => upd (.vf fn f)
  if off = 0x000 then writeCmd fn v
  else if off = 0x008 then set fun x => { x with arg0 := v }
  else if off = 0x010 then set fun x => { x with arg1 := v }
  else if off = 0x018 then (if v.getLsbD 16 then clearLost fn else pure ())
  else if off = 0x028 then set fun x => { x with psel := v.setWidth 11 }
  else if off = 0x038 then set fun x => { x with apsel := v.setWidth 14 }
  else if off = 0x048 then (if v.toNat % 2 ^ 32 ≠ 0 then clearHndrop fn else pure ())
  else if 0x100 ≤ off && off < 0x120 && off % 8 = 0 then set fun x => { x with nonce := SMap.set (fun _ => 0) x.nonce (off / 8 % 4) v }
  else if off = 0x120 then set fun x => { x with attbuf := v &&& 0xFFFF_FFFF_F000 }
  else if off = 0x128 then (if v.getLsbD 0 then attGo fn else pure ())
  else if fn ≠ PF || off % 8 ≠ 0 then pure ()
  else if 0x1200 ≤ off && off < 0x1400 then upd (.vf ((off - 0x1200) / 8) fun x => { x with res := v })
  else if 0x1600 ≤ off && off < 0x1800 then writeWdlim ((off - 0x1600) / 8) v
  else if off = 0x2300 then (if v.getLsbD 63 then clearS2fault else pure ())
  else pure ()

/-- The bits of a flow-table doubleword that a write changes (R143). -/
def flowMask (dw : Nat) : Word := if dw = 0 then 0 else if dw = 1 then 0xFE00_0000_0000_0000 else BitVec.allOnes 64

/-- A doubleword of a 512-bit entry replaced under a mask. -/
def putDw (e : BitVec 512) (dw : Nat) (v m : Word) : BitVec 512 :=
  let old := (e >>> (64 * dw)).setWidth 64
  let new := (old &&& ~~~m) ||| (v &&& m)
  e ^^^ ((old ^^^ new).setWidth 512 <<< (64 * dw))

/-- SLCTL and PLCCTL written: bits [39:24] stay zero, and every tenant is judged anew (R89). -/
def writeCtl (n : Nat) (v : Word) : M Unit := upd (.cache n fun c => c.setCtl (v &&& 0xFFFF_FF00_00FF_FFFF))

/-- A stage-2 entry set: a guest block that nothing is mapped to, to a physical block that the package has and that is free (R20, R94,
R95). -/
def mapBlock (t g phys : Nat) : M Unit := do
  let s ← get
  let taken := (s.vfs.any fun e => e.2.s2.any fun m => m.2 == phys) ||
    s.dev.scrubs.any fun x => match x.of with | .block b => b == phys | .gran .. => false
  if taken || (SMap.find (s.vf t).s2 g).isSome || 4 * 6144 ≤ phys || !s.blockPresent phys || PF < t then pure ()
  else do
    upd (.vf t fun v => { v with s2 := SMap.put v.s2 g phys })
    forgetStalls t fun a => a / 2 ^ 25 == g

/-- The size of a function's MSI-X table set (R347); vectors beyond it are gone. -/
def sizeTable (fn n : Nat) : M Unit :=
  if 1 ≤ n && n ≤ 2048 && fn ≤ PF then upd (.vf fn fun x =>
    { x with msix := n, unmasked := x.unmasked.filter (· < n), pending := x.pending.filter (· < n) }) else pure ()

/-- A write to a register. Those that have no offset in the spec are the physical function's, but for a function's own MSI-X table. -/
def writeReg (fn : Nat) (reg : HostReg) (v : Word) : M Unit := do
  let s ← get
  match reg with
  | .bar0 off => writeBar0 fn off.toNat v
  | .msixMask k => maskVector fn k.toNat (v.getLsbD 0)
  | .msixControl => maskFunction fn (v.getLsbD 14)
  | reg =>
    if fn ≠ PF then pure ()
    else match reg with
    | .cquota ca t =>
      if s.dieThere ca then upd (.cal ca fun c => { c with limit := SMap.set (fun _ => 0) c.limit t.toNat (v.toNat % 2 ^ 16) }) else pure ()
    | .slctl n => if n < 384 then writeCtl n v else pure ()
    | .plcctl d => writeCtl (384 + d.toNat) v
    | .flow ca i dw =>
      let e := putDw (s.flowEntry ca i.toNat) dw.toNat v (flowMask dw.toNat)
      if s.dieThere ca then upd (.cal ca fun c => { c with flow := SMap.set (fun _ => 0) c.flow i.toNat e }) else pure ()
    | .msix f => sizeTable f v.toNat
    | .mcast ca i => writeMcast ca i.toNat v
    | .stage2 t g => mapBlock t.toNat g.toNat v.toNat
    | .bar0 _ | .msixMask _ | .msixControl => pure ()

/-! ### The aperture (R343, R424) -/

def emit (o : Out) : M Unit := upd (.dev fun d => { d with out := d.out ++ [o] })

/-- Where a line of a function's guest-physical space lies for its aperture: the top 1 TiB of the 48-bit space is the caldera window, and
everything else goes through stage 2 (log 22). Without a target, the GPA of a stage-2 miss or none. -/
def State.apertureTgt (s : State) (fn g : Nat) : Except (Option Nat) (Tgt × Bool) :=
  if g / 2 ^ 40 = 0xFF then (s.caldera fn (g % 2 ^ 40)).mapError fun _ => none
  else match s.stage2 fn g with
  | some x => .ok (.hbm x, false)
  | none => .error (some g)

/-- The first line of an aperture access that cannot be performed. -/
def State.apertureBad (s : State) (fn g n : Nat) : Option (Option Nat) :=
  (spansOf g n).findSome? fun e => match s.apertureTgt fn e.1 with
    | .ok _ => none
    | .error x => some x

/-- Bytes of one line read through the aperture, with their marks; none when a die answers that it cannot. -/
def apertureRead (fn g n : Nat) : M (Option (List PByte)) := do
  let s ← get
  match s.apertureTgt fn g with
  | .ok (.hbm x, _) => do
    homeRead (apertureWho fn) (x / 64) none
    let s ← get
    return some (s.marked (Space.hbm.loc x) n)
  | .ok (.cal pkg ca off, ver) =>
    if s.calHere pkg ca then
      let loc := (Space.cal ca).loc off
      return some (if ver then (leBytes n (s.newestBytes loc n)).map fun b => (b, s.newestBad loc n) else s.marked loc n)
    else do
      match ← askBank (apertureWho fn) 0 fn pkg ca off { op := roRead, len := n } with
      | some r => return if r.status = 0 || r.status = POISON then some ((r.data.take n).map fun b => (b, r.status == POISON)) else none
      | none => return none
  | _ => return none

/-- Bytes of one line written through the aperture; whether they could be. R424 lists neither a write to a versioned granule nor an access to
a granule that the function does not hold: both are dropped with an Unsupported Request (DESIGN CHOICE, log 22). -/
def apertureWrite (fn g : Nat) (bs : List Byte) : M Bool := do
  let s ← get
  match s.apertureTgt fn g with
  | .ok (.hbm x, _) => do
    homeWrite (apertureWho fn) (x / 64) none
    upd (.poke (Space.hbm.loc x) bs)
    return true
  | .ok (.cal pkg ca off, ver) =>
    if ver then return false
    else if s.calHere pkg ca then do
      upd (.poke ((Space.cal ca).loc off) bs)
      return true
    else do
      let r ← askBank (apertureWho fn) 0 fn pkg ca off { op := roWrite, len := bs.length, data := bs }
      return r.any fun r => r.status == 0
  | _ => return false

/-- A read through the aperture, line by line. -/
def apertureReads (fn : Nat) : List (Nat × Nat) → M (Option (List PByte))
  | [] => return some []
  | (a, n) :: m => do
    match ← apertureRead fn a n with
    | none => return none
    | some bs => do
      match ← apertureReads fn m with
      | none => return none
      | some r => return some (bs ++ r)

/-- A write through the aperture, line by line. -/
def apertureWrites (fn : Nat) : List (Nat × Nat) → List Byte → M Bool
  | [], _ => return true
  | (a, n) :: m, bs => do
    let ok ← apertureWrite fn a (bs.take n)
    let rest ← apertureWrites fn m (bs.drop n)
    return ok && rest

/-- An access that the aperture cannot perform: an Unsupported Request, with S2FAULT for a stage-2 miss (R424). -/
def apertureFails (fn : Nat) (g : Option Nat) : M Unit := do
  match g with
  | some g => noteMiss fn g
  | none => pure ()
  emit (.unsupported fn)

/-! ### The host's accesses in their order (R141, R346, R349) -/

/-- An access of a function performed; an aperture access goes to the guest-physical address that APSEL then gives it (R343, R349). -/
def performOp (fn : Nat) (o : HostOp) : M Unit := do
  let s ← get
  let gpa := fun (off : Nat) => (s.vf fn).apsel.toNat * 2 ^ 34 + off
  match o with
  | .late .cmd => upd (.vf fn fun v => { v with lost := true })
  | .late .report => upd (.vf fn fun v => { v with attRes := 2 })
  | .late .record => upd (.vf fn fun v => { v with pwref := v.pwref + 1 })
  | .record off len r => queueRecord fn off len r
  | .reg r v => writeReg fn r v
  | .read off n => do
    let g := gpa off
    match s.apertureBad fn g n with
    | some x => apertureFails fn x
    | none => do
      match ← apertureReads fn (spansOf g n) with
      | some bs => emit (.readData fn (bs.map (·.1)) (bs.any (·.2)))
      | none => apertureFails fn none
    forget (apertureWho fn)
  | .write off bs => do
    let g := gpa off
    match s.apertureBad fn g bs.length with
    | some x => apertureFails fn x
    | none => do
      let ok ← apertureWrites fn (spansOf g bs.length) bs
      if ok then pure () else apertureFails fn none
    forget (apertureWho fn)

/-- The oldest access that has arrived is performed; one that waits for another package stays the oldest. -/
def hostHead (fn : Nat) : M Unit := do
  let s ← get
  match (s.vf fn).arrived with
  | [] => stall
  | o :: _ => do
    performOp fn o
    upd (.vf fn fun v => { v with arrived := v.arrived.tail })

/-- Whether a write of a command register has arrived and waits behind an earlier access: what it starts is in progress (R346, R354). -/
def Vf.waitsFor (v : Vf) (off : BitVec 16) (ok : Word → Bool) : Bool :=
  v.arrived.any fun o => match o with
    | .reg (.bar0 x) w => x == off && ok w
    | _ => false

/-- What CMDSTAT.BUSY, ATTSTAT.BUSY and PWCRED.FREE show: what has arrived and waits counts (R140, R344, R354). -/
def Vf.busy (v : Vf) : Bool := v.cmd.isSome || v.waitsFor 0x000 fun _ => true
def Vf.reporting (v : Vf) : Bool := v.att.isSome || v.waitsFor 0x128 (·.getLsbD 0)
def HostOp.wholeRecord : HostOp → Bool
  | .record off len _ => off % 64 == 0 && len == 64 && decide (off < 4096)
  | _ => false
def Vf.free (v : Vf) : Nat := 64 - (v.pwin.length + v.arrived.countP HostOp.wholeRecord)

/-- An access as it arrives: a command or a report while one is in progress, and a record that finds no free entry, come too late. -/
def Vf.onArrival (v : Vf) (o : HostOp) : HostOp :=
  match o with
  | .reg (.bar0 x) w =>
    if x = 0x000 && v.busy then .late .cmd else if x = 0x128 && w.getLsbD 0 && v.reporting then .late .report else o
  | .record .. => if v.free = 0 then .late .record else o
  | _ => o

/-- An access arrives: it is performed at once unless an earlier one of its function still waits. -/
def hostAccess (fn : Nat) (o : HostOp) (s : State) : Outcome :=
  let o := (s.vf fn).onArrival o
  if (s.vf fn).arrived.isEmpty && !(match o with | .read .. | .write .. => true | _ => false) then event (performOp fn o) s
  else
    andThen (event (upd (.vf fn fun v => { v with arrived := v.arrived ++ [o] })))
      (fun t => if (s.vf fn).arrived.isEmpty then event (hostHead fn) t else .next t) s

/-- POST_WINDOW_WRITE: the write is queued; the head of the queue is accepted when it can be. -/
def execPostWindowWrite (fn off len : Nat) (rec : BitVec 512) : State → Outcome :=
  andThen (hostAccess fn (.record off len rec)) (event (acceptHead fn))

/-- REGISTER_WRITE. -/
def execRegisterWrite (fn : Nat) (reg : HostReg) (v : BitVec 64) : State → Outcome := hostAccess fn (.reg reg v)

/-- The writes of single registers that the opcode table names. -/
def execAttcmdGo (fn : Nat) : State → Outcome := hostAccess fn (.reg (.bar0 0x128) 1)
def execCmdstatLostClear (fn : Nat) : State → Outcome := hostAccess fn (.reg (.bar0 0x018) 0x10000)
def execHndropClear (fn : Nat) : State → Outcome := hostAccess fn (.reg (.bar0 0x048) 1)
def execS2faultClear : State → Outcome := hostAccess PF (.reg (.bar0 0x2300) (1 <<< 63))
def execWdlimWrite (t : Nat) (v : BitVec 64) : State → Outcome := hostAccess PF (.reg (.bar0 (BitVec.ofNat 16 (0x1600 + 8 * t))) v)
def execMulticastEntryWrite (ca : Bool) (i : BitVec 8) (v : BitVec 64) : State → Outcome := hostAccess PF (.reg (.mcast ca i) v)

/-- HOST_APERTURE_ACCESS: uncached, at the home of each line or at the caldera bank. -/
def execHostApertureAccess (fn : Nat) (acc : Aperture) (s : State) : Outcome :=
  hostAccess fn (match acc with
    | .read off len => .read off.toNat len
    | .write off bytes => .write off.toNat bytes) s

/-! ### What the host reads -/

/-- PSTATE of a partition for a function (R344); those of nobody are the physical function's. -/
def State.pstate (s : State) (fn p : Nat) : Nat :=
  match s.part? p with
  | some q =>
    if s.owns fn p then
      match q.st with | .unowned => 0 | .idle => 1 | .running => 2 | .draining => 3 | .saved => 4
    else 7
  | none => 7

/-- A 32-bit count of a record kept by index. -/
def cnt (m : SMap (BitVec 32)) (i : Nat) : Nat := (SMap.get (fun _ => 0) m i).toNat

/-- LNKSTAT of a Jalic port (R411). -/
def Jalic.stat (l : Jalic) : Word :=
  BitVec.ofNat 64 (l.retry.toNat * 2 ^ 32 + l.crcerr.toNat * 2 ^ 16 + l.down.toNat * 2 + (l.up && !l.down).toNat)

/-- GRPSTAT (R411). -/
def State.grpstat (s : State) : Word :=
  BitVec.ofNat 64 (s.dev.mcdrop.toNat * 2 ^ 32 + s.dev.ca1lost.toNat * 2 ^ 16 +
    ((List.range 16).map fun p => if (s.peer p).lost then 2 ^ p else 0).sum)

/-- What a host read of a register of BAR0 returns; every other offset reads zero. -/
def State.hostRead (s : State) (fn off : Nat) : Word :=
  let v := s.vf fn
  let w := fun (n : Nat) => BitVec.ofNat 64 n
  let at' := fun (lo : Nat) => (off - lo) / 8
  let within := fun (lo hi : Nat) => decide (lo ≤ off) && decide (off < hi) && off % 8 == 0
  if off = 0x008 then v.arg0
  else if off = 0x010 then v.arg1
  else if off = 0x018 then w (v.lost.toNat * 2 ^ 16 + v.result.toNat * 2 ^ 8 + v.busy.toNat)
  else if off = 0x020 then w v.free
  else if off = 0x028 then v.psel.setWidth 64
  else if off = 0x030 then w (s.pstate fn v.psel.toNat)
  else if off = 0x038 then v.apsel.setWidth 64
  else if off = 0x040 then s.time fn
  else if off = 0x048 then v.hndrop.setWidth 64
  else if within 0x100 0x120 then SMap.get (fun _ => 0) v.nonce (at' 0x100)
  else if off = 0x120 then v.attbuf
  else if off = 0x130 then
    w (v.attLen.toNat * 2 ^ 32 + v.attRes.toNat * 2 ^ 8 + v.reporting.toNat)
  else if fn ≠ PF then 0
  else if within 0x1000 0x1200 then (s.vf (at' 0x1000)).save
  else if off = 0x1400 then s.dev.incarn.setWidth 64
  else if off = 0x1408 then s.dev.pwr.setWidth 64
  else if within 0x1600 0x1800 then (s.vf (at' 0x1600)).wdlim.setWidth 64
  else if within 0x1800 0x1A00 then w ((s.vf (at' 0x1800)).wdcount.toNat * 2 ^ 32 + (s.vf (at' 0x1800)).wdpnode.toNat)
  else if within 0x1A00 0x1C00 then (s.vf (at' 0x1A00)).pwref.setWidth 64
  else if within 0x2000 0x20B8 || within 0x2800 0x2B00 then s.presReg (off - 0x2000)
  else if within 0x2200 0x2230 then w (cnt s.dev.ue (at' 0x2200) * 2 ^ 32 + cnt s.dev.ce (at' 0x2200))
  else if off = 0x2300 then match s.dev.s2fault with
    | some (t, g) => w (2 ^ 63 + t % 64 * 2 ^ 48 + g % 2 ^ 48)
    | none => 0
  else if within 0x2400 0x2520 then (s.link (at' 0x2400)).stat
  else if off = 0x2600 then s.grpstat
  else if within 0x2700 0x2710 then
    let c := s.cal (at' 0x2700 == 1)
    w (c.unmatched.toNat * 2 ^ 32 + c.noxlate.toNat)
  else 0

/-! ### Releasing physical blocks (R95, R391) -/

/-- A translation of a function that lies in a guest block. -/
def TlbEnt.inBlock (t g : Nat) (e : TlbEnt) : Bool :=
  e.ten == t && lfAPT e.leaf == 0 && decide (lfFRAME e.leaf * 2 ^ 19 < (g + 1) * 2 ^ 25) &&
  decide (g * 2 ^ 25 < lfFRAME e.leaf * 2 ^ 19 + 2 ^ lfLog e.leaf)

/-- A guest block unmapped: its copies and translations go, what waits there ends as a stage-2 miss, its scrub begins, and the other packages
are told. -/
def releaseBlock (t g : Nat) : M Unit := do
  let s ← get
  match SMap.find (s.vf t).s2 g with
  | none => pure ()
  | some phys => do
    upd (.vf t fun v => { v with s2 := v.s2.erase g })
    dropRange (Space.hbm.loc (phys * 2 ^ 25)) (Space.hbm.loc ((phys + 1) * 2 ^ 25))
    upd (.dev fun d => { d with tlb := d.tlb.filter fun e => !e.inBlock t g })
    let s ← get
    let waits := s.dev.stvq.filter fun e => !e.far && (ScrubOf.block phys).covers e.loc && e.res.isNone
    let id ← beginScrub (.block phys) POISON
    each (fun (e : StvWait) => noteMiss t (g * 2 ^ 25 + e.loc % 2 ^ 25)) waits
    tellScrub [id] t (g * 2 ^ 25)

/-- STAGE_2_UNMAPPING. -/
def execStage2Unmapping (t block : Nat) : State → Outcome := event (do
  let s ← get
  if (SMap.find (s.vf t).s2 block).isNone then stall else releaseBlock t block)

/-! ### Resets (R413, R422, R423) -/

/-- A core of a tenant whose function is reset: its task ends with every tile instruction of it, so that nothing retires after the reset;
what R422 empties is emptied, and its CSRs take their reset values (R5), with its stash frames unmapped and released (R83). A vent core is
no function's. -/
def flrCore (core : Nat) : M Unit := do
  endTask core
  each (fun id => do
    forget (.ctx id)
    upd (.ctx id fun c => { c with slot := none, spilled := 0, saved := [] })) (ctxsOf core)
  if isVent core then pure ()
  else do
    unmapAll core
    let s ← get
    upd (.scrub ((Space.lm core).loc (s.core core).stashBase) ((Space.lm core).loc 0x2F000))
    each (fun id => upd (.ctx id fun c => { c with csr := [], cpois := [] })) (ctxsOf core)
    upd (.core core fun c => { c with csr := [], cpois := [], fresh := 0, win := [], cq := [], rules := [], locks := [], sliceInt := false, hostInt := false })

/-- The granules that a tenant has allocated from this package freed, on every die of the group. -/
def flrGranules (t : Nat) : M Unit := do
  let s ← get
  each (fun (ca : Bool) => do
    freeAll ca t s.pres.pkg.toNat
    each (fun q => do
      let s ← get
      post ca (s.packet 0x09 q 0x400 (q * 2 ^ 36 + ca.toNat * 2 ^ 35) 0 t 3 { op := roFreeAll : ROp }.bytes)) s.peers)
    [false, true]

/-- FUNCTION_LEVEL_RESET of a tenant's function; it waits until BUSY is 0, a command that has only arrived included. Every port that has been
loaded between the tenant's partitions is freed, whosever its number is by now (R123). -/
def execFunctionLevelReset (t : Nat) : State → Outcome := event (do
  let s ← get
  if PF ≤ t || (s.vf t).busy then stall
  else do
    let ps := s.partsOf t
    each flrCore (s.coresOf t ++ s.ventsOf t)
    let mine := fun (o : VOp) => o.ten == t
    each (fun (o : VOp) => if mine o then do
        upd (.core o.core fun c => { c with locks := c.locks.filter fun l => l.op != o.id })
        forget (.vop o.id)
      else pure ()) s.dev.vops
    upd (.dev fun d => { d with vops := d.vops.filter fun o => !mine o, roots := d.roots.filter fun e => e.1 / 2048 != t })
    each (fun (e : Nat × Port) => if e.2.ten = some t && e.2.ld.isSome then do
        upd (.port e.1 fun q => { q with ld := none })
        forgetPort e.1
      else pure ()) s.ports
    each (fun (e : Nat × Core) => upd (.core e.1 fun c => { c with deque := c.deque.filter fun r => !ps.contains r.pnode })) s.cores
    each resetEvents ps
    each (fun k => upd (.cluster k fun c => { c with intv := 0 })) (ps.flatMap s.nodeClusters)
    each (fun p => upd (.part p fun q => { Part.reset with st := .idle, ten := q.ten, intv := q.intv })) ps
    freeIdlePorts
    each forget [fnWho t, apertureWho t, windowWho t, reportWho t]
    flrGranules t
    each (fun (e : Nat × Nat) => releaseBlock t e.1) (s.vf t).s2
    forgetStalls t fun _ => true
    upd (.vf t fun v => { Vf.reset with wdlim := v.wdlim, wdcount := v.wdcount, wdpnode := v.wdpnode, pwref := v.pwref, res := v.res,
                                        save := v.save, toff := 0 - s.ref }))

/-- The package reset (R413, R423); the host sees it. -/
def resetPackage (pres : Presence) : M Unit := do
  let s ← get
  upd (.reset pres)
  upd (.dev fun d => { d with out := s.dev.out ++ [.reset] })

/-- DEVICE_RESET: the physical function is reset, with the presence it finds; in a group the package keeps its number (R413; log 6). -/
def execDeviceReset (pres : Presence) : State → Outcome := event (do
  let s ← get
  resetPackage (if 1 < s.pres.group then { pres with pkg := s.pres.pkg, group := max pres.group (s.pres.pkg.toNat + 1) } else pres))

end Sys2Proof.Machine
end

