-- ==== Sys2Proof/Machine/Link.lean ====
section
/-!
DEFINITION. The Jalic links (R333 to R341, R409 to R418): the reception of packets, what each agent of R335 does with them, loss
of ports, peers and caldera dies. A packet that is received joins a queue of the package and leaves it when its agent
has served it; a request that a home or a bank holds back stays there. Payloads of far atomics and caldera accesses are
those of Machine/Fabric.lean (log 12).
-/

namespace Sys2Proof.Machine

open M

/-! ### Reception (R336, R338, R409) -/

/-- The sender sends its packets again from the ACK onwards, counted (R409, R411). -/
def Jalic.replay (l : Jalic) : Jalic :=
  if l.unacked.isEmpty then l else { l with replays := l.replays + 1, retry := l.retry + 1 }

/-- What a packet's ACK tells the sender: progress, or a repetition. -/
def Jalic.acked (p : Packet) (l : Jalic) : Jalic :=
  if !p.ackv then l
  else match l.unacked with
  | [] => { l with lastAck := p.ack }
  | q :: _ =>
    let n := (p.ack - q.seq).toNat
    if 0 < n && n ≤ l.unacked.length then { l with unacked := l.unacked.drop n, lastAck := p.ack, replays := 0 }
    else if p.ack = l.lastAck then l.replay
    else { l with lastAck := p.ack }

/-- Whether a port is in service (R411). -/
def Jalic.inService (l : Jalic) : Bool := l.up && !l.down

/-- The ports of a die to a peer send new packets again once every packet that has moved to one of them is acknowledged (R410). -/
def releaseHeld (i : Nat) : M Unit := do
  let s ← get
  let mates := s.dev.links.filter fun e => e.2.barred && e.2.peer == (s.link i).peer && decide (18 ≤ e.1) == decide (18 ≤ i)
  if mates.all fun e => e.2.unacked.isEmpty then each (fun (e : Nat × Jalic) => updLink e.1 Jalic.release) mates else pure ()

/-- The key of the line of a request or an answer about one: it is homed here, or at the package that sends it. -/
def packetLine (p : Packet) : Nat := viaKey (p.kind.toNat != 5) p.spkg.toNat p.ten.toNat p.addr.toNat

/-- Whether a packet is a request for a line, whose answer goes by the caldera die it came by (R337). -/
def asksLine (p : Packet) : Bool := p.kind.toNat == 1 || p.kind.toNat == 3 || p.kind.toNat == 5 || p.kind.toNat == 7

/-- A packet arrives: one with a bad CRC is discarded and counted; one with the SEQ expected is accepted, and queued unless it is of another
incarnation or not for this package (R336, R338, R409). -/
def acceptPacket (i : Nat) (p : Packet) (kind : Nat) : M Unit := do
  let s ← get
  let l := s.link i
  let q := s.peer p.spkg.toNat
  if p.kind.toNat ≠ kind || !l.inService then stall
  else if p.crc ≠ packetCrc p then updLink i fun l => { l with crcerr := l.crcerr + 1 }
  else if kind ≠ 0 && p.seq ≠ l.seqIn then stall
  else do
    updLink i fun l => (if kind = 0 then l else { l with seqIn := l.seqIn + 1 }).acked p
    releaseHeld i
    if kind = 0 || p.dpkg ≠ s.pres.pkg || q.lost || q.incarn ≠ some p.sinc then pure ()
    else do
      if asksLine p then setVia (packetLine p) (decide (18 ≤ i)) else pure ()
      upd (.dev fun d => { d with inq := d.inq ++ [p] })

/-! ### Answers -/

/-- The engine that serves a packet. -/
def pktWho (p : Packet) : Who := .eng (40000 + p.tag.toNat + 16384 * p.spkg.toNat)

/-- The agent that an answer goes to (R335): the home directory that has sent a probe, the PLC of the die that has asked, as ADDR or the
payload names it (log 12), or the PLC of CD0 for an acknowledgement. -/
def answerEnd (p : Packet) : Nat :=
  match p.kind.toNat with
  | 1 | 3 => 0x200 + p.addr.toNat / 4 % 4
  | 5 => peerChannel p.spkg.toNat p.ten.toNat p.addr.toNat
  | 7 | 9 => 0x200 + (ROp.parse p.payload).die
  | _ => 0x200

/-- The answer to a request, on the caldera die of the line or the one that the address names; the low bits of ADDR are flags (log 12). -/
def respond (p : Packet) (kind : Nat) (payload : List Byte) (pois : Bool) (flag : Nat := 0) : M Unit := do
  let s ← get
  let q := p.spkg.toNat
  if q = s.pres.pkg.toNat then pure ()
  else do
    let addr := if asksLine p then p.addr.toNat / 64 * 64 + flag else p.addr.toNat
    let ca := if asksLine p then s.viaCa1 (packetLine p) else p.kind.toNat == 9 && calCa p.addr.toNat
    let r := s.packet kind q (answerEnd p) addr p.tag.toNat p.ten.toNat p.prio.toNat payload
    sendPacket ca { r with poison := pois }

/-- A request as an answer leaves it: it has its answer, or is gone when nobody waits for it. -/
def Req.meets (p : Packet) (reqKind : Nat) (r : Req) : Option Req :=
  if !(r.pkt.tag = p.tag && r.pkt.dpkg = p.spkg && r.pkt.kind.toNat = reqKind && r.ans.isNone && !r.lost) then some r
  else if r.who == .left then none
  else some { r with ans := some p.payload, pois := p.poison, flag := p.addr.toNat % 4 }

/-- An answer finds the request whose tag it carries; otherwise it is dropped (R413). -/
def answerReq (p : Packet) (reqKind : Nat) : M Unit :=
  upd (.dev fun d => { d with reqs := d.reqs.filterMap (Req.meets p reqKind) })

/-- Whether a request asks for a copy of a line, which the PLC of the die that asks takes in when the access is made again. -/
def Req.keepsLine (r : Req) : Bool := r.pkt.kind.toNat == 1 && !r.pkt.addr.toNat.testBit 1

/-- The copies of lines of a package that have been sent here and that the PLC has not taken in yet are gone, where a test picks their
request: the access asks again (R80, R102). -/
def dropAnswers (f : Packet → Bool) : M Unit :=
  upd (.dev fun d => { d with reqs := d.reqs.filter fun r => !(r.keepsLine && r.ans.isSome && f r.pkt) })

/-! ### The home of a line (R80, R91, R334) -/

/-- The holder that a PLC of another package is (R79). -/
def peerPlc (pkg die : Nat) : Nat := pkg * 8192 + 4096 + die

/-- Line read: bit 0 of ADDR asks for an exclusive copy, bit 1 for the data alone, bits [3:2] name the die. The answer's flag 1 says that
the home does not map the line, whose data are then zeros marked as poisoned, and flag 2 that the copy is the only one, which its holder
has in E (R80; log 12). -/
def serveRead (p : Packet) : M Unit := do
  let s ← get
  let a := p.addr.toNat
  let t := p.ten.toNat
  match s.stage2 t (a / 64 * 64) with
  | none => do
    noteMiss t (a / 64 * 64)
    respond p 2 (List.replicate 64 0) true 1
  | some x => do
    let line := Space.hbm.loc x / 64
    let h := peerPlc p.spkg.toNat (a / 4 % 4)
    let excl := a.testBit 0
    let keeps := !a.testBit 1
    let me := if keeps then some h else none
    touchL2 x 8 t unitSlot
    if excl then homeWrite (pktWho p) line me else homeRead (pktWho p) line me
    let s ← get
    let sole := (s.holders line).all fun e => e.1 == h || s.isOwnPlc e.1
    let st : LSt := if excl then .m else if sole then .e else .s
    if keeps then setHolder line h (some st) else pure ()
    respond p 2 (s.bytesAt (line * 64) 64) (s.poisoned (line * 64) 64) (if keeps && st == .e then 2 else 0)

/-- A write-back is taken while a PLC of its package is known to hold the line, in M or in E, from which it may have moved silently (R80,
R412); a poisoned one poisons the line. With bit 0 of ADDR the holder keeps its copy (log 12). -/
def serveWriteBack (p : Packet) : M Unit := do
  let s ← get
  match s.stage2 p.ten.toNat (p.addr.toNat / 64 * 64) with
  | none => noteMiss p.ten.toNat (p.addr.toNat / 64 * 64)
  | some x => do
    let line := Space.hbm.loc x / 64
    let h := peerPlc p.spkg.toNat (p.addr.toNat / 4 % 4)
    match s.stateIn line h with
    | some .m | some .e => do
      touchL2 x 8 p.ten.toNat unitSlot true
      upd (.poke (line * 64) (p.payload.take 64))
      if p.poison then each (fun k => upd (.poison (line * 64 + 8 * k))) (List.range 8) else pure ()
      setHolder line h (if p.addr.toNat.testBit 0 then some .e else none)
    | _ => pure ()
  respond p 4 [] false

/-- Words poisoned, when what was written to them came poisoned (R409). -/
def spoil (bad : Bool) (loc n : Nat) : M Unit := if bad then each (fun w => upd (.poison w)) (wordsOf loc n) else pure ()

/-- A far atomic, an uncached read or write, or a reduction, performed at the home; `bad` tells that its payload came poisoned. -/
def homeOp (who : Who) (t g : Nat) (r : ROp) (bad : Bool) : M RAns := do
  let s ← get
  match s.stage2 t g with
  | none => do
    noteMiss t g
    return { status := POISON }
  | some x => do
    let loc := Space.hbm.loc x
    touchL2 x 8 t unitSlot (r.op != roRead)
    if r.op = roRead then do
      homeRead who (loc / 64) none
      let s ← get
      return { status := if s.poisoned loc r.len then POISON else 0, data := s.bytesAt loc r.len }
    else do
      homeWrite who (loc / 64) none
      if r.op = roWrite then do
        upd (.poke loc ((leBytes 8 r.a.toNat ++ leBytes 8 r.b.toNat).take r.len))
        spoil bad loc r.len
        return {}
      else if r.op = roRed then do
        redHere ⟨r.sub, r.uns, r.w⟩ loc r.a.toNat
        spoil bad loc (widthBytes r.w)
        return {}
      else do
        let s ← get
        let n := widthBytes r.w
        if s.poisoned loc n then return { status := POISON }
        else do
          let old := s.peek loc n
          let (new, fl) := amoNew r.sub r.w (RMode.of (BitVec.ofNat 2 r.len)) old r.a.toNat r.b.toNat
          match new with
          | some v => do
            upd (.poke loc (leBytes n v))
            spoil bad loc n
          | none => pure ()
          return { flags := fl.setWidth 8, value := BitVec.ofNat 64 old }

def serveFar (p : Packet) : M Unit := do
  let r ← homeOp (pktWho p) p.ten.toNat p.addr.toNat (ROp.parse p.payload) p.poison
  respond p 8 r.bytes false

/-! ### The PLC as a holder (R80 to R82) -/

/-- A probe: the low bits of ADDR are 0 share, 1 invalidate, 2 collect; a modified line is sent home. A copy that has arrived and that no
access has taken in yet is given up (R448). -/
def serveProbe (p : Packet) : M Unit := do
  let s ← get
  let a := p.addr.toNat
  let die := p.dend.toNat % 4
  let line := (Space.plc p.spkg.toNat p.ten.toNat).loc (a / 64 * 64) / 64
  let h := s.plcHolder die
  let data := if s.stateIn line h = some .m then s.bytesAt (line * 64) 64 else []
  let pois := !data.isEmpty && s.poisoned (line * 64) 64
  let below := (s.holders line).filter fun e => s.isOwn e.1 && e.1 % 8192 < 4096 && dieOf (e.1 % 8192) == die
  dropAnswers fun x => x.dpkg == p.spkg && x.ten == p.ten && x.addr.toNat / 64 == a / 64 && x.addr.toNat / 4 % 4 == die
  if a % 4 = 0 then do
    each (fun (e : Nat × LSt) => setHolder line e.1 (some .s)) below
    if (s.stateIn line h).isSome then setHolder line h (some .s) else pure ()
  else do
    each (fun (e : Nat × LSt) => leaveLine e.1 line) below
    dropCopies h line
    setHolder line h none
  respond p 6 data pois

/-! ### Caldera banks (R96, R97, R339) -/

/-- Poison marks of the words of a line's bytes, as an answer carries them. -/
def bankRead (loc n : Nat) (ver : Bool) : M RAns := do
  let s ← get
  if ver then return { status := if s.newestBad loc n then POISON else 0, data := leBytes n (s.newestBytes loc n) }
  else
    let bs := s.marked loc n
    return { status := if bs.any (·.2) then POISON else 0, flags := BitVec.ofNat 8 (markMask loc bs), data := bs.map (·.1) }

/-- An access at a granule that is allocated to the requester; an `ldv` that has to wait is held. An `ldv` or `stv` that is only tried (`uns`)
changes nothing and waits for nothing: it tells the cause it would meet. `bad` tells that its payload came
poisoned (R336, R409): every word of it is poisoned. -/
def bankOp (loc : Nat) (ver : Bool) (r : ROp) (bad : Bool) : M RAns := do
  let s ← get
  let x := s.vword loc
  let v := r.a.toNat % 2 ^ 32
  if r.op = roCheck then return { flags := if ver then 1 else 0 }
  else if r.op = roRead then bankRead loc r.len ver
  else if r.op = roLdv then
    if !ver then return { status := VERSION }
    else match x.value v with
    | some y => return if x.bad.contains v then { status := POISON } else { value := y }
    | none => if x.gone v then return { status := VERSION } else if r.uns then return {} else stall
  else if r.op = roStv then
    if !ver then return { status := VERSION }
    else if r.uns && s.stvWaits loc then return {}
    else if x.high.any fun h => decide (v ≤ h) then return { status := VERSION }
    else if r.uns then return {}
    else do
      upd (.version loc v r.b bad)
      return {}
  else if r.op = roRclm then
    if !ver then return { status := VERSION }
    else do
      retireRange loc r.len v
      return {}
  else if r.op = roPub then do
    publishWord loc v (leNat (r.data.take 8)) (r.b, r.uns || bad)
    return {}
  else if ver then return { status := VERSION }
  else if r.op = roWrite then do
    putMarked loc (unmask loc r.sub (r.data.take r.len))
    spoil bad loc r.len
    return {}
  else if r.op = roRed then do
    redHere ⟨r.sub, r.uns, r.w⟩ loc r.a.toNat
    spoil bad loc (widthBytes r.w)
    return {}
  else
    let n := widthBytes r.w
    if s.poisoned loc n then return { status := POISON }
    else do
      let old := s.peek loc n
      let (new, fl) := amoNew r.sub r.w (RMode.of (BitVec.ofNat 2 r.len)) old r.a.toNat r.b.toNat
      match new with
      | some y => do
        upd (.poke loc (leBytes n y))
        spoil bad loc n
      | none => pure ()
      return { flags := fl.setWidth 8, value := BitVec.ofNat 64 old }

/-- An operation of a die: an allocation, a free, a query, or an access to a granule, versioned by the granule or by the requester's leaf
(R91). None is a `stv` that has joined its word's queue, to be answered when it is served (R219). -/
def dieOp (p : Packet) (r : ROp) : M (Option RAns) := do
  let s ← get
  let t := p.ten.toNat
  let o := p.addr.toNat
  let ca := calCa o
  let done := fun (a : RAns) => (pure (some a) : M (Option RAns))
  if (s.cal ca).lost then done { status := CALDERA_LOST }
  else if r.op = roAlloc then do
    match ← allocHere ca t p.spkg.toNat r.a.toNat r.uns with
    | .ok v => done { value := v }
    | .error _ => done { status := QUOTA }
  else if r.op = roQuery then done { value := (s.cal ca).quota t }
  else if r.op = roFree then do
    if ← freeHere ca t (calOff o / 65536) r.a.toNat then done {} else done { status := ILLEGAL_OPERAND }
  else if r.op = roFreeAll then do
    freeAll ca t p.spkg.toNat
    done {}
  else match s.caldera t o with
  | .error e => done { status := e }
  | .ok (_, gver) => do
    let ver := gver || r.ver
    let loc := (Space.cal ca).loc (calOff o)
    if r.op = roStv && ver && !r.uns && s.stvWaits loc then do
      let q ← nextSeq
      joinStv { ticket := q, loc := loc, ver := r.a.toNat % 2 ^ 32, val := r.b, va := 0, pkt := some p }
      return none
    else done (← bankOp loc ver r p.poison)

def serveCaldera (p : Packet) : M Unit := do
  match ← dieOp p (ROp.parse p.payload) with
  | some r => respond p 10 r.bytes (r.status == POISON && (ROp.parse p.payload).op == roRead)
  | none => pure ()

/-- The queues of waiting `stv` served; a request of another package is answered. -/
def serveQueues : M Unit := serveStv fun p c => respond p 10 ({ status := c } : RAns).bytes false

/-! ### Group barriers, translations and scrubs (R207, R231, R95; log 12) -/

/-- A group barrier packet: partition, barrier, and 0 an arrival, 1 joining, 2 leaving. -/
def serveBarrier (p : Packet) : M Unit := do
  let s ← get
  let a := p.addr.toNat
  let n := a % 2 ^ 11
  let b := a / 2 ^ 11 % 4
  let q := p.spkg.toNat
  let f := a / 2 ^ 13
  if f = 0 then setGbar n b q (max 1 (s.gbarOf n b q) + 1)
  else if f = 1 then setGbar n b q (max 1 (s.gbarOf n b q))
  else setGbar n b q 0
  groupCheck n b

/-- A translation invalidation, once no access in progress uses the translation. -/
def serveTlbi (p : Packet) : M Unit := do
  let s ← get
  let a := p.addr.toNat
  let t := p.ten.toNat
  let n := a / 2 ^ 40 % 2 ^ 11
  let all := a.testBit 55
  let va := a % 2 ^ 40 * 2 ^ 19
  if s.inUse t n (fun x l => all || samePage l x va) then stall
  else do
    upd (.dev fun d => { d with tlb := d.tlb.filter fun e => !(e.ten == t && e.pnode == n && (all || e.inPage va)) })
    respond p 0x0D [] false

/-- An acknowledgement answers an invalidation of an instruction, or one that a scrub awaits. -/
def serveAck (p : Packet) : M Unit := do
  answerReq p 0x0C
  upd (.dev fun d => { d with acks := d.acks.filter fun a => a.2 != p.tag.toNat * 16 + p.spkg.toNat })

/-- A guest block of a peer's tenant, or with bit 55 of ADDR a run of its granules, is released there: every copy and translation of it is gone,
and every shadow entry kept here for it (R95, R120; log 12). A block waits for the requests for its lines that are on their way. -/
def serveScrub (p : Packet) : M Unit := do
  let q := p.spkg.toNat
  let t := p.ten.toNat
  let a := p.addr.toNat
  if a.testBit 55 then do
    let lo := a % 2 ^ 40 / 2 ^ 16 * 2 ^ 16
    let n := (a % 2 ^ 16 + 1) * 2 ^ 16
    dropWindow lo (lo + n)
    let l := (Space.plc q 64).loc ((calCa lo).toNat * 2 ^ 31 + calOff lo)
    upd (.scrub l (l + n))
  else do
    let g := a / 2 ^ 25
    let lo := (Space.plc q t).loc (g * 2 ^ 25)
    let here := fun (x : Packet) => x.dpkg == p.spkg && x.ten == p.ten && x.addr.toNat / 2 ^ 25 == g
    let s ← get
    if s.dev.reqs.any fun r => r.keepsLine && r.ans.isNone && !r.lost && here r.pkt then stall else dropAnswers here
    dropRange lo (lo + 2 ^ 25)
    upd (.scrub lo (lo + 2 ^ 25))
    upd (.dev fun d => { d with tlb := d.tlb.filter fun e => !(e.ten == t && lfAPT e.leaf == 1 && lfPKG e.leaf == q &&
      decide (lfFRAME e.leaf * 2 ^ 19 < (g + 1) * 2 ^ 25) && decide (g * 2 ^ 25 < lfFRAME e.leaf * 2 ^ 19 + 2 ^ lfLog e.leaf)) })
  respond p 0x0D [] false

/-! ### Serving (R335, R337) -/

/-- A packet served by its agent. -/
def servePacket (p : Packet) : M Unit :=
  match p.kind.toNat with
  | 1 => serveRead p
  | 2 => answerReq p 1
  | 3 => serveWriteBack p
  | 4 => answerReq p 3
  | 5 => serveProbe p
  | 6 => answerReq p 5
  | 7 => serveFar p
  | 8 => answerReq p 7
  | 9 => serveCaldera p
  | 10 => answerReq p 9
  | 11 => serveBarrier p
  | 12 => serveTlbi p
  | 13 => serveAck p
  | 14 => serveScrub p
  | _ => pure ()

/-- Whether an `ldv` of another package waits at its bank for a version (R96, R339). -/
def State.ldvWaits (s : State) (p : Packet) : Bool :=
  let r := ROp.parse p.payload
  let o := p.addr.toNat
  p.kind.toNat == 9 && r.op == roLdv && !r.uns && !(s.cal (calCa o)).lost &&
  match s.caldera p.ten.toNat o with
  | .error _ => false
  | .ok (_, gver) =>
    let x := s.vword ((Space.cal (calCa o)).loc (calOff o))
    let v := r.a.toNat % 2 ^ 32
    (gver || r.ver) && (x.value v).isNone && !x.gone v

/-- Whether a packet keeps the order of its line or its bank (R97, R102, R152, R337): reads, write-backs and far atomics at the home, probes
at the PLC, and accesses at a bank. -/
def pktOrdered (p : Packet) : Bool := asksLine p || p.kind.toNat == 9

/-- The k-th packet of the queue served, unless an earlier one for its line or bank from its package is still held; an `ldv` that waits for
its version holds none back, for its context issues nothing meanwhile. -/
def processPacket (k : Nat) : M Unit := do
  let s ← get
  match s.dev.inq[k]? with
  | none => stall
  | some p =>
    if pktOrdered p && (s.dev.inq.take k).any fun x => pktOrdered x && x.spkg == p.spkg && orderKey x == orderKey p && !s.ldvWaits x then stall
    else do
      servePacket p
      upd (.dev fun d => { d with inq := d.inq.eraseIdx k, grants := d.grants + 1 })
      forget (pktWho p)

/-- A packet received and, when its agent can and no packet of a better class waits, served at once (R152). -/
def received (i : Nat) (p : Packet) (kind : Nat) (s : State) : Outcome :=
  andThen (event (acceptPacket i p kind)) (fun t =>
    let k := s.dev.inq.length
    if k < t.dev.inq.length && (classOrder (t.dev.grants % 64 == 63) t.dev.inq).head? == some k then event (processPacket k) t else .next t) s

def execLinkControl (port : Nat) (p : Packet) : State → Outcome := event (acceptPacket port p 0x00)
def execLineReadRequest (port : Nat) (p : Packet) : State → Outcome := received port p 0x01
def execLineDataResponse (port : Nat) (p : Packet) : State → Outcome := received port p 0x02
def execLineWriteBack (port : Nat) (p : Packet) : State → Outcome := received port p 0x03
/-- The write has been performed at its home (R334). -/
def execWriteAcknowledgement (port : Nat) (p : Packet) : State → Outcome := received port p 0x04
def execProbe (port : Nat) (p : Packet) : State → Outcome := received port p 0x05
def execProbeResponse (port : Nat) (p : Packet) : State → Outcome := received port p 0x06
def execFarAtomic (port : Nat) (p : Packet) : State → Outcome := received port p 0x07
def execAtomicResponse (port : Nat) (p : Packet) : State → Outcome := received port p 0x08
def execCalderaAccess (port : Nat) (p : Packet) : State → Outcome := received port p 0x09
def execCalderaResponse (port : Nat) (p : Packet) : State → Outcome := received port p 0x0A
def execGroupBarrier (port : Nat) (p : Packet) : State → Outcome := received port p 0x0B
def execTranslationInvalidation (port : Nat) (p : Packet) : State → Outcome := received port p 0x0C
def execTranslationInvalidationAck (port : Nat) (p : Packet) : State → Outcome := received port p 0x0D
def execScrubInvalidation (port : Nat) (p : Packet) : State → Outcome := received port p 0x0E

/-! ### Multicast (R340, R341, R415) -/

/-- MULTICAST_REPLICATION: one copy to each package of the entry, by the entry as it stands. -/
def execMulticastReplication (ca : Bool) (p : Packet) : State → Outcome := event (do
  let s ← get
  let e := (SMap.get (fun _ => 0) (s.cal ca).mc (p.addr.toNat % 256)).toNat
  if (s.cal ca).lost || p.dend ≠ 0xFFF || !e.testBit 63 then stall
  else each (fun q =>
    if !e.testBit (24 + q) then pure ()
    else do
      let s ← get
      let c := { p with dend := BitVec.ofNat 12 (bitsOf e 12 12), dpkg := BitVec.ofNat 4 q, spkg := s.pres.pkg, sinc := s.dev.incarn }
      if q = s.pres.pkg.toNat then upd (.dev fun d => { d with inq := d.inq ++ [c] })
      else if (s.peer q).lost || s.unreachable q then upd (.dev fun d => { d with mcdrop := d.mcdrop + 1 })
      else sendPacket ca c) (List.range 16))

/-! ### Ports out of service (R409 to R411) -/

/-- LINK_REPLAY_TIMEOUT: no progress in ACK for 2 µs. -/
def execLinkReplayTimeout (port : Nat) : State → Outcome := event (do
  let s ← get
  if (s.link port).inService && !(s.link port).unacked.isEmpty then updLink port Jalic.replay else stall)

/-- BAD_CRC_PACKET: discarded and counted. -/
def execBadCrcPacket (port : Nat) : State → Outcome := event (do
  let s ← get
  if (s.link port).inService then updLink port fun l => { l with crcerr := l.crcerr + 1 } else stall)

/-- The packets that a port has not seen acknowledged move to the surviving ports of its die, or to the other die's, ahead of everything
that is new; what has waited at the port follows (R410). -/
def movePackets (port : Nat) : M Unit := do
  let s ← get
  let l := s.link port
  let ca := decide (18 ≤ port)
  updLink port fun l => { l with unacked := [], unsent := [], barred := false, replays := 0 }
  each (fun p => do
    let s ← get
    match s.portFor ca p with
    | some i => updLink i fun l => { l.transmit p with barred := true }
    | none => pure ()) l.unacked
  each (sendPacket ca) l.unsent

/-- LINK_PORT_DOWN: a port that has been replayed 16 times without progress. -/
def execLinkPortDown (port : Nat) : State → Outcome := event (do
  let s ← get
  if (s.link port).inService && 16 ≤ (s.link port).replays then do
    updLink port fun l => { l with down := true }
    movePackets port
    sendMsix PF 3
  else stall)

/-! ### Peers lost and back (R412, R413) -/

/-- Whether a line is a copy of a peer's. -/
def lineOf (q line : Nat) : Bool := 5 * 2 ^ 60 ≤ line * 64 && plcPkg (line * 64) == q

/-- Every copy of a peer's lines gone, without write-back. -/
def dropPeerLines (q : Nat) : M Unit := do
  let s ← get
  each (fun (e : Nat × Core) => upd (.core e.1 fun c =>
    { c with l1 := c.l1.filter fun l => !lineOf q (l.2.loc / 64), sect := c.sect.filter fun l => !lineOf q (l.2.loc / 64) })) s.cores
  each (fun (e : Nat × Cache) => if 384 ≤ e.1 then upd (.cache e.1 (Cache.leaveAll fun l => lineOf q l.tag)) else pure ()) s.caches
  upd (.dev fun d => { d with dir := d.dir.filter fun e => !lineOf q e.1 })

/-- The holders of a peer leave the directory. -/
def dropHolders (q : Nat) : M Unit := do
  let s ← get
  each (fun (e : Nat × List (Nat × LSt)) =>
    each (fun (h : Nat × LSt) => if h.1 / 8192 ≠ q then pure () else loseHolder e.1 h.1) e.2) s.dev.dir

/-- Requests to a peer that are not answered complete as lost, and so does one for a copy of a line that has not been taken in yet; those
that nobody waits for are gone. -/
def loseReqs (f : Packet → Bool) : M Unit :=
  upd (.dev fun d => { d with reqs := d.reqs.filterMap fun r =>
    if !((r.ans.isNone || r.keepsLine) && f r.pkt) then some r else if r.who == .left then none else some { r with lost := true } })

/-- The declaration of R412, as one step. The peer's members of a group barrier are members no more: they hold no generation up, not even
once the peer is back. -/
def declareLost (q : Nat) : M Unit := do
  updPeer q fun x => { x with lost := true }
  let s ← get
  loseReqs fun p => p.dpkg.toNat == q
  each (fun (e : Nat × Jalic) => updLink e.1 fun l =>
    { l with unacked := l.unacked.filter (fun p => p.dpkg.toNat != q), unsent := l.unsent.filter fun p => p.dpkg.toNat != q }) s.dev.links
  dropPeerLines q
  dropHolders q
  upd (.dev fun d => { d with
    acks := d.acks.filter fun a => a.2 % 16 != q
    inq := d.inq.filter fun p => p.spkg.toNat != q
    stvq := d.stvq.filter fun e => !e.pkt.any fun p => p.spkg.toNat == q
    gbar := d.gbar.filter fun e => e.1 % 16 != q
    via := d.via.filter fun k => k / 2 / 2 ^ 42 % 16 != q })
  each (fun (e : Nat × Part) => each (groupCheck e.1) (List.range 4)) s.parts
  sendMsix PF 3

/-- PEER_LOST: a peer that has trained is reached by no port. -/
def execPeerLost (peer : Nat) : State → Outcome := event (do
  let s ← get
  if s.peers.contains peer && (s.peer peer).incarn.isSome && !(s.peer peer).lost && s.unreachable peer then declareLost peer else stall)

/-- LINK_TRAINING_COMPLETE, on a port that serves the peer (R17): both sides start anew; a new incarnation of the peer means that the old
one is lost, and the peer is back. -/
def execLinkTrainingComplete (port peer : Nat) (incarn : BitVec 12) : State → Outcome := event (do
  let s ← get
  let p := s.peer peer
  if !s.pres.lkpres.getLsbD port || !portServes s.pres port peer || (s.link port).down || p.gone || (18 ≤ port && (s.cal true).lost) then stall
  else do
    if p.incarn.any (· != incarn) && !p.lost then declareLost peer else pure ()
    updLink port fun l => { Jalic.reset with peer := some peer, up := true, retry := l.retry, crcerr := l.crcerr }
    updPeer peer fun x => { incarn := some incarn, lost := false, ca1 := x.ca1 && x.incarn == some incarn, gone := false })

/-- A lost peer has left the group for good (R414). -/
def peerLeaves (q : Nat) : M Unit := do
  let s ← get
  if (s.peer q).lost then updPeer q fun x => { x with gone := true } else stall

/-! ### Caldera dies lost (R417, R418) -/

/-- The ports of a list go out of service with what they keep moved elsewhere. -/
def closePorts (is : List Nat) : M Unit := do
  each (fun i => updLink i fun l => { l with up := false }) is
  each movePackets is

/-- CALDERA_DIE_LOST. A package whose CA0 is lost resets: this one, or a peer, which is then lost. -/
def execCalderaDieLost (pkg : Nat) (ca : Bool) : State → Outcome := event (do
  let s ← get
  if pkg = s.pres.pkg.toNat then
    if !ca then resetPackage s.pres
    else if (s.cal true).lost then stall
    else do
      upd (.cal true fun _ => { Cal.reset with lost := true })
      upd (.scrub ((Space.cal true).loc 0) ((Space.cal true).loc (2 ^ 31)))
      upd (.dev fun d => { d with
        ca1lost := true
        scrubs := d.scrubs.filter fun x => match x.of with | .gran c _ => !c | .block _ => true
        stvq := d.stvq.map fun e => if !e.far && (Space.cal true).loc 0 ≤ e.loc && decide (e.loc < (Space.cal true).loc (2 ^ 31))
          then { e with res := some CALDERA_LOST } else e })
      closePorts ((List.range 18).map (18 + ·))
      sendMsix PF 3
  else if !s.peers.contains pkg then stall
  else if !ca then (if (s.peer pkg).lost then stall else declareLost pkg)
  else if (s.peer pkg).ca1 then stall
  else do
    updPeer pkg fun x => { x with ca1 := true }
    loseReqs fun p => p.dpkg.toNat == pkg && p.kind.toNat == 9 && calCa p.addr.toNat
    closePorts ((s.portsTo true pkg)))

end Sys2Proof.Machine
end

