-- ==== Sys2Proof/Machine/Intake.lean ====
section
/-!
DEFINITION. The Ethernet intake (R142 to R144, R351, R408): the fields of a frame, the flow table, buffers and the records accepted.
A frame is its bytes from the destination address to the byte before the FCS.
-/

namespace Sys2Proof.Machine

open M

/-! ### The fields of a frame (R142) -/

/-- The number that n bytes of a frame, most significant first, stand for; none when the frame is too short. -/
def beAt (f : List Byte) (a n : Nat) : Option Nat :=
  if f.length < a + n then none else some (((f.drop a).take n).foldl (fun x b => 256 * x + b.toNat) 0)

/-- What the intake parses; a field that is none does not exist for the frame. -/
structure Fields where
  vid : Option Nat := none
  dip : Option Nat := none
  proto : Option Nat := none
  dport : Option Nat := none
  deriving DecidableEq, Repr

/-- The destination port of a protocol that has one. -/
def portAt (f : List Byte) (proto : Option Nat) (a : Nat) : Option Nat :=
  if proto = some 6 || proto = some 17 then beAt f (a + 2) 2 else none

/-- The IP header at an offset, by EtherType. A fragment that is not the first carries no port. -/
def parseIp (f : List Byte) (vid : Option Nat) (ety : Option Nat) (a : Nat) : Fields :=
  let ver := (beAt f a 1).map (· / 16)
  if ety = some 0x0800 && ver = some 4 then
    let proto := beAt f (a + 9) 1
    let first := (beAt f (a + 6) 2).any fun x => x % 2 ^ 13 == 0
    let len := 4 * (((beAt f a 1).getD 0) % 16)
    { vid := vid, dip := (beAt f (a + 16) 4).map (0xFFFF * 2 ^ 32 + ·), proto := proto,
      dport := if first then portAt f proto (a + len) else none }
  else if ety = some 0x86DD && ver = some 6 then
    let proto := beAt f (a + 6) 1
    { vid := vid, dip := beAt f (a + 24) 16, proto := proto, dport := portAt f proto (a + 40) }
  else { vid := vid }

/-- The fields of a frame, with at most one VLAN tag. -/
def parseFrame (f : List Byte) : Fields :=
  let ety := beAt f 12 2
  if ety = some 0x8100 then parseIp f ((beAt f 14 2).map (· % 4096)) (beAt f 16 2) 18
  else parseIp f (some 0) ety 14

/-! ### The flow table (R143) -/

def flDIP (e : Nat) : Nat := bitsOf e 384 128
def flDPORT (e : Nat) : Nat := bitsOf e 368 16
def flVID (e : Nat) : Nat := bitsOf e 356 12
def flPROTO (e : Nat) : Nat := bitsOf e 348 8
def flCMP (e : Nat) : Nat := bitsOf e 344 4
def flV (e : Nat) : Bool := e.testBit 343
def flFLAGS (e : Nat) : Nat := bitsOf e 335 8
def flPNODE (e : Nat) : Nat := bitsOf e 324 11
def flTEN (e : Nat) : Nat := bitsOf e 318 6
def flBUFLOG (e : Nat) : Nat := bitsOf e 314 4
def flNBUF (e : Nat) : Nat := bitsOf e 298 16
def flENTRY (e : Nat) : Nat := bitsOf e 248 50
def flPOOL (e : Nat) : Nat := bitsOf e 202 46
def flRETW (e : Nat) : Nat := bitsOf e 153 49
def flTAG (e : Nat) : Nat := bitsOf e 121 32
def flDROP (e : Nat) : Nat := bitsOf e 32 32
def flPUT (e : Nat) : Nat := bitsOf e 0 32

/-- Whether an entry matches a frame. -/
def flowMatches (x : Fields) (e : Nat) : Bool :=
  let c := flCMP e
  flV e && flBUFLOG e ≤ 10 &&
  (!c.testBit 3 || x.dip == some (flDIP e)) && (!c.testBit 2 || x.dport == some (flDPORT e)) &&
  (!c.testBit 1 || x.vid == some (flVID e)) && (!c.testBit 0 || x.proto == some (flPROTO e))

/-- The lowest entry that matches. -/
def State.flowFor (s : State) (ca : Bool) (x : Fields) : Option (Nat × Nat) :=
  ((s.cal ca).flow.find? fun e => flowMatches x e.2.toNat).map fun e => (e.1, e.2.toNat)

/-- PUT and DROP of an entry set. -/
def setCounts (ca : Bool) (i put drop : Nat) : M Unit := do
  let s ← get
  let e := (s.flowEntry ca i).toNat
  let v := BitVec.ofNat 512 (e / 2 ^ 64 * 2 ^ 64 + drop % 2 ^ 32 * 2 ^ 32 + put % 2 ^ 32)
  upd (.cal ca fun c => { c with flow := SMap.set (fun _ => 0) c.flow i v })

/-! ### Translation at the caldera die (R93, R143, R408) -/

/-- The home of an address for the intake of a die, in an address space; none when it does not translate or breaks R143. -/
def intakeLoc (ca : Bool) (t p va : Nat) (k : AKind) : M (Option Nat) := do
  let s ← get
  let ni := 4 + ca.toNat
  match s.cached ni t p va, SMap.find s.dev.roots (asidKey t p) with
  | none, some r => readyWalkFrom t va 3 1 r
  | _, _ => pure ()
  let s ← get
  let walk := s.walk t p va
  let leaf := match s.cached ni t p va, walk with
    | some e, _ => some e.leaf
    | none, .leaf l => some l
    | none, _ => none
  match s.cached ni t p va, walk with
  | none, .miss g => noteMiss t g
  | _, _ => pure ()
  match leaf.filter fun l => lfAPT l == 0 && !lfVER l && judge k false l == .ok l with
  | none => return none
  | some l =>
    match s.stage2 t (gpaOf l va) with
    | none => do
      noteMiss t (gpaOf l va)
      return none
    | some x => do
      let e : TlbEnt := ⟨ni, t, p, va / 2 ^ entLog l, entLog l, l⟩
      if s.dev.tlb.contains e then pure ()
      else upd (.dev fun d => { d with tlb := e :: d.tlb.filter fun x => !(x.ni == ni && x.ten == t && x.pnode == p && x.inPage va) })
      return some x

/-- Whether every page of a range translates. -/
def intakePages (ca : Bool) (t p : Nat) : List Nat → M Bool
  | [] => return true
  | a :: m => do
    match ← intakeLoc ca t p a .store with
    | none => return false
    | some _ => intakePages ca t p m

/-- A frame's bytes written, line by line. -/
def intakeStore (ca : Bool) (t p : Nat) : List (Nat × Nat) → List Byte → M Unit
  | [], _ => pure ()
  | (a, n) :: m, bs => do
    match ← intakeLoc ca t p a .store with
    | none => pure ()
    | some x => do
      homeWrite (.eng (30000 + ca.toNat)) (x / 64) none
      upd (.poke (Space.hbm.loc x) (bs.take n))
    intakeStore ca t p m (bs.drop n)

/-! ### A frame taken in (R144, R408) -/

/-- The record of a frame. -/
def flowRecord (i e a len : Nat) : Nat :=
  flENTRY e * 4 + a * 2 ^ 64 + len * 2 ^ 128 + i * 2 ^ 192 + flPUT e * 2 ^ 256 + flTAG e * 2 ^ 320 + flFLAGS e * 2 ^ 448 +
    flTEN e * 2 ^ 472 + flPNODE e * 2 ^ 478

/-- Whether a word of the future table can be written. -/
def wordReach (tb : Tab) (va : Nat) : M Bool := do
  match ← engineTgt tb.core tb.t tb.p va .store with
  | .ok (x, ver) => return !ver && ((← get).locOf x).isSome
  | .error (.miss g) => do
    noteMiss tb.t g
    return false
  | .error _ => return false

/-- Whether the waiter-pool slot that the next record takes can be written. -/
def slotReach (tb : Tab) : M Bool := do
  let s ← get
  let used := (s.part tb.p).pool
  let va := tb.slotVA (freeFrom used (2 ^ tb.log) used.length (Config.poolPick s.dev.freeIx))
  return (← wordReach tb va) && (← wordReach tb (va + 32))

/-- The frame of entry i written, and its record accepted; the checks of R408 in their order. A retire-count word that cannot be
read cannot show the buffers full, and a frame whose record has a slot that cannot be written is dropped (log 45). -/
def intakeMatched (ca : Bool) (i e : Nat) (f : List Byte) : M Unit := do
  let s ← get
  let t := flTEN e
  let p := flPNODE e
  let b := 2 ^ (flBUFLOG e + 6)
  let a := flPOOL e * 64 + flPUT e % (flNBUF e + 1) * b
  let r := flowRecord i e a f.length
  let st := (s.part p).st
  let drop := setCounts ca i (flPUT e) (flDROP e + 1)
  let who : Who := .eng (30000 + ca.toNat)
  if !(s.owns t p && (st == .running || st == .draining || st == .saved) && s.recordOk t p r) then drop
  else if b < f.length then drop
  else do
    let ret ← intakeLoc ca t p (flRETW e * 8) .load
    match ret with
    | some x => homeRead who (x / 64) none
    | none => pure ()
    let s ← get
    let bad := ret.any fun x => s.poisoned (Space.hbm.loc x) 8
    let n := (ret.map fun x => s.peek (Space.hbm.loc x) 4).getD 0
    if ret.isSome && !bad && flNBUF e + 1 ≤ (flPUT e + 2 ^ 32 - n) % 2 ^ 32 then drop
    else do
      let ok ← intakePages ca t p (flPOOL e * 64 :: pagesOf a b)
      let tb := s.tabOf who p
      if ret.isNone || !ok then do
        upd (.cal ca fun c => { c with noxlate := c.noxlate + 1 })
        drop
      else if s.poolFull p || bad then drop
      else if !(← slotReach tb) then drop
      else do
        intakeStore ca t p (spansOf a f.length) f
        acceptRec tb r
        setCounts ca i (flPUT e + 1) (flDROP e)

/-- The oldest frame of an intake port dealt with. -/
def intakeHead (ca : Bool) : M Unit := do
  let s ← get
  match (s.cal ca).frames with
  | [] => stall
  | f :: _ => do
    match s.flowFor ca (parseFrame f) with
    | none => upd (.cal ca fun c => { c with unmatched := c.unmatched + 1 })
    | some (i, e) => intakeMatched ca i e f
    upd (.cal ca fun c => { c with frames := c.frames.tail })
    forget (.eng (30000 + ca.toNat))

/-- A frame arrives; one with a bad FCS is discarded and counted (R351). -/
def intakeArrives (ca fcsGood : Bool) (frame : List Byte) : M Unit := do
  let s ← get
  if !s.dieThere ca then stall
  else if fcsGood then upd (.cal ca fun c => { c with frames := c.frames ++ [frame] })
  else upd (.cal ca fun c => { c with fcs := c.fcs + 1 })

/-- INTAKE_FRAME. -/
def execIntakeFrame (ca fcsGood : Bool) (frame : List Byte) (s : State) : Outcome :=
  andThen (event (intakeArrives ca fcsGood frame))
    (fun t => if fcsGood && s.dieThere ca then event (intakeHead ca) t else .next t) s

end Sys2Proof.Machine
end

