-- ==== Sys2Proof/Machine/Rewrite.lean ====
section
/-!
DEFINITION. The rewrite stage (R315 to R323): the window of tile instructions, FRESH bits, rule images and their checks, matching, Apply
and flushes; the entry of a tile instruction into the window (R293), `rwload` and `rwflush` (R306, R307).
-/

namespace Sys2Proof.Machine

open M

/-! ### Fields of T-format words (R164) and of rules (R318, R319) -/

def twTD (w : Nat) : Nat := bitsOf w 22 2
def twTS (w : Nat) : Nat := bitsOf w 20 2

def ruV (r : Nat) : Bool := r.testBit 0
def ruNPAT (r : Nat) : Nat := bitsOf r 2 2
def ruNREP (r : Nat) : Nat := bitsOf r 4 2
def ruCLASS (r : Nat) : Nat := bitsOf r 6 2
def ruFRESH (r : Nat) : Nat := bitsOf r 16 2
def ruKILL (r : Nat) : Nat := bitsOf r 18 2
def ruPRIO (r : Nat) : Nat := bitsOf r 24 8
def ruNE (r j : Nat) : Bool := r.testBit (140 + j)
def ruPRED (r j : Nat) : Nat := bitsOf r (144 + 8 * j) 8
def ruCONS (r j : Nat) : Nat := bitsOf r (160 + 8 * j) 8
def ruTPL (r k : Nat) : Nat := bitsOf r (192 + 64 * k) 64
def ruMASK (r k : Nat) : Nat := bitsOf r (320 + 64 * k) 32
def ruMATCH (r k : Nat) : Nat := bitsOf r (352 + 64 * k) 32

/-- The reserved fields of a rule, with those of its predicates and templates. -/
def ruRes (r : Nat) : Nat :=
  bitsOf r 32 108 + bitsOf r 20 4 + bitsOf r 8 8 + bitsOf r 1 1 + bitsOf r 147 2 + bitsOf r 155 2 + bitsOf r 192 10 + bitsOf r 256 10

def tpWORD (t : Nat) : Nat := bitsOf t 32 32
def tpTDS (t : Nat) : Nat := bitsOf t 28 4
def tpTSS (t : Nat) : Nat := bitsOf t 24 4
def tpOAS (t : Nat) : Nat := bitsOf t 20 4
def tpOBS (t : Nat) : Nat := bitsOf t 16 4
def tpPX (t : Nat) : Nat := bitsOf t 14 2
def tpPY (t : Nat) : Nat := bitsOf t 12 2
def tpWSRC (t : Nat) : Nat := bitsOf t 10 2

/-- Whether a selector of 1 to 6 names a slot below NPAT; 0 names none. -/
def selSlotOk (npat c : Nat) : Bool := c == 0 || (c ≤ 6 && (c - 1) % 3 < npat)

/-- Whether a word is a TARITH or TMEM instruction. -/
def isTile : Instr → Bool
  | .tzero .. | .tmma .. | .tmmat .. | .tadd .. | .tscl .. | .ttr .. | .tmov .. | .tld .. | .tbld .. | .tst .. => true
  | _ => false

def tileWord (w : Nat) : Option Instr :=
  match decode (BitVec.ofNat 32 w) with
  | .ok i => if isTile i then some i else none
  | .error _ => none

/-- The checks of a template (R319): what it names, and its WORD when it is used. -/
def tplOk (npat : Nat) (used : Bool) (t : Nat) : Bool :=
  selSlotOk npat (tpTDS t) && selSlotOk npat (tpTSS t) && selSlotOk npat (tpOAS t) &&
  (tpOBS t == 7 || selSlotOk npat (tpOBS t)) && tpPX t < npat && tpPY t < npat && tpWSRC t ≤ npat &&
  (!used || tpWSRC t != 0 || (tileWord (tpWORD t)).isSome)

/-- The checks of a valid rule (R319). -/
def ruOk (r : Nat) : Bool :=
  let n := ruNPAT r
  let cons := fun (j : Nat) => let b := ruCONS r j; bitsOf b 6 2 == 3 || (bitsOf b 6 2 < n && bitsOf b 2 2 < n)
  let pred := fun (j : Nat) => let b := ruPRED r j; bitsOf b 6 2 == 3 || (bitsOf b 6 2 < n && 1 ≤ bitsOf b 0 3 && bitsOf b 0 3 ≤ 3)
  n != 0 && ruNREP r != 3 && (ruKILL r == 0 || (2 ≤ ruCLASS r && ruKILL r ≤ n)) && ruFRESH r ≤ n &&
  (List.range 4).all cons && (List.range 2).all pred && (List.range 2).all fun k => tplOk n (k < ruNREP r) (ruTPL r k)

/-- A rule put behind every rule of no greater PRIO. -/
def insertRule (r : Nat) : List Nat → List Nat
  | [] => [r]
  | q :: m => if ruPRIO q ≤ ruPRIO r then q :: insertRule r m else r :: q :: m

/-- The table of an image, or none when a check fails (R317, R319). -/
def rulesOf (img : List Byte) : Option (List Nat) :=
  let h := leNat (img.take 64)
  let rs := (List.range 32).map fun k => leNat ((img.drop (64 + 64 * k)).take 64)
  if bitsOf h 0 16 ≠ 0x9E61 || bitsOf h 16 16 ≠ 0 || bitsOf h 64 416 ≠ 0 then none
  else if crc32c (img.take 60 ++ img.drop 64) ≠ bitsOf h 480 32 then none
  else if rs.all fun r => ruRes r == 0 && (!ruV r || ruOk r) then
    some ((rs.filter ruV).foldl (fun m r => insertRule r m) [])
  else none

/-! ### The window (R315, R316) -/

def TEnt.held (e : TEnt) : Bool := e.st == .held

/-- The originals that a list of entries stands for, each once, without those seen: the entries of one group share theirs, and so do
those that later rewrites make of them. -/
def originals : List Nat → List TEnt → List TOp
  | _, [] => []
  | seen, e :: m =>
    let os := e.origs.filter fun o => !seen.contains o.num
    os ++ originals (os.map TOp.num ++ seen) m

/-- The number of the oldest held original. -/
def Core.oldest (c : Core) : Option Nat := (originals [] (c.win.filter TEnt.held)).head?.map TOp.num

/-- Constraint fields (R318). -/
def TEnt.field (e : TEnt) (f : Nat) : Nat :=
  let w := e.op.word.toNat
  if f = 0 then twTD w else if f = 1 then twTS w else if f = 2 then e.op.opa.toNat else e.op.opb.toNat

/-- Predicates on an FP32 operand (R318): POW2, E6R, ONE. -/
def predHolds (kind v : Nat) : Bool :=
  let x := v % 2 ^ 32
  let mag := x % 2 ^ 31
  if kind = 1 then bitsOf x 0 23 == 0 && 1 ≤ bitsOf x 23 8 && bitsOf x 23 8 ≤ 254
  else if kind = 2 then 0x2F800000 ≤ mag && mag ≤ 0x4F600000
  else x == 0x3F800000

/-- PROD of two operands, when it is finite and exact in FP32 (R319). -/
def prodOf (a b : Nat) : Option Nat :=
  match (fFP32.val (a % 2 ^ 32)).mul (fFP32.val (b % 2 ^ 32)) with
  | .fin n m e =>
    let r := fFP32.round .rne (.rat n m 1 e)
    if r.2 = 0 then some r.1 else none
  | _ => none

/-- An entry that stands for nothing, for lookups beyond the list. -/
def TEnt.none : TEnt :=
  { op := ⟨0, 0, 0, 0, 0⟩, origs := [], count := 0, fresh := 0, rule := Option.none, group := 0, sup := false, st := .held, replay := Option.none }

/-- Every condition of a rule whose slots are all among the first n held entries holds (R320); the bound on rewrite counts concerns all
slots of the pattern. -/
def holdsFor (r : Nat) (w : List TEnt) (n : Nat) : Bool :=
  let e := fun (k : Nat) => (w[k]?).getD TEnt.none
  let slot := fun (k : Nat) => (e k).op.word.toNat &&& ruMASK r k == ruMATCH r k && (n < ruNPAT r || (e k).count ≤ 3)
  let cons := fun (j : Nat) =>
    let b := ruCONS r j
    let x := bitsOf b 6 2
    let y := bitsOf b 2 2
    x == 3 || n ≤ x || n ≤ y || (((e x).field (bitsOf b 4 2) == (e y).field (bitsOf b 0 2)) != ruNE r j)
  let pred := fun (j : Nat) =>
    let b := ruPRED r j
    let x := bitsOf b 6 2
    x == 3 || n ≤ x || predHolds (bitsOf b 0 3) (if b.testBit 5 then (e x).op.opb.toNat else (e x).op.opa.toNat)
  let fresh := ruFRESH r == 0 || n < ruFRESH r || (e 0).fresh.getLsbD ((e (ruFRESH r - 1)).field 0)
  let prod := fun (k : Nat) =>
    let t := ruTPL r k
    tpOBS t != 7 || n ≤ tpPX t || n ≤ tpPY t || (prodOf (e (tpPX t)).op.opb.toNat (e (tpPY t)).op.opb.toNat).isSome
  (List.range n).all slot && (List.range 4).all cons && (List.range 2).all pred && fresh && (List.range (ruNREP r)).all prod

/-- What the window does next (R320). -/
inductive WAct where
  | apply (ix r : Nat)
  | wait
  | commit
  deriving DecidableEq, Repr

/-- The permitted rules by index (R320). -/
def Core.permitted (c : Core) : List (Nat × Nat) :=
  let p := (c.csrGet cRWPERM).toNat
  ((List.range c.rules.length).zip (c.rules.map BitVec.toNat)).filter fun e =>
    ruCLASS e.2 < 2 || (ruCLASS e.2 == 2 && p.testBit 0) || (ruCLASS e.2 == 3 && p.testBit 1)

def windowAct (held : List TEnt) : List (Nat × Nat) → WAct
  | [] => .commit
  | (ix, r) :: m =>
    if ruNPAT r ≤ held.length then (if holdsFor r held (ruNPAT r) then .apply ix r else windowAct held m)
    else if holdsFor r held held.length then .wait
    else windowAct held m

/-- Fields of RWSTAT counted (R323). -/
def Core.rwCount (sh n : Nat) (c : Core) : Core :=
  let w := (c.csrGet cRWSTAT).toNat
  let f := bitsOf w sh 16
  c.csrBump cRWSTAT (BitVec.ofNat 64 (w - f * 2 ^ sh + (f + n) % 2 ^ 16 * 2 ^ sh))

/-- A new entry built from a template (R319, R320); what its originals have read ahead is read (R104). -/
def buildEnt (es : List TEnt) (origs : List TOp) (count ix group t : Nat) : TEnt :=
  let e := fun (k : Nat) => (es[k]?).getD TEnt.none
  let base := if tpWSRC t = 0 then tpWORD t else (e (tpWSRC t - 1)).op.word.toNat
  let tsel := fun (c d : Nat) => if c = 0 then d else (e ((c - 1) % 3)).field (if c ≤ 3 then 0 else 1)
  let osel := fun (c : Nat) =>
    if c = 0 then (0 : Word)
    else if c = 7 then BitVec.ofNat 64 ((prodOf (e (tpPX t)).op.opb.toNat (e (tpPY t)).op.opb.toNat).getD 0)
    else if c ≤ 3 then (e (c - 1)).op.opa
    else (e (c - 4)).op.opb
  let td := tsel (tpTDS t) (twTD base)
  let ts := tsel (tpTSS t) (twTS base)
  let word := base - twTD base * 2 ^ 22 - twTS base * 2 ^ 20 + td * 2 ^ 22 + ts * 2 ^ 20
  { op := ⟨BitVec.ofNat 32 word, osel (tpOAS t), osel (tpOBS t), (e 0).op.pc, (e 0).op.num⟩, origs := origs, count := count,
    fresh := (e 0).fresh, rule := some ix, group := group, sup := (e 0).sup, st := .held, replay := Option.none,
    early := es.flatMap (·.early), ran := es.flatMap (·.ran), base := es.findSome? (·.base) }

/-- WindowStep (R320). -/
def windowStep : Nat → Nat → Core → Core
  | 0, _, c => c
  | f + 1, g, c =>
    let held := c.win.filter TEnt.held
    let rest := c.win.filter fun e => !e.held
    match held with
    | [] => c
    | e :: m =>
      match windowAct held c.permitted with
      | .wait => c
      | .commit => windowStep f g { c with win := rest ++ { e with st := .committed } :: m }
      | .apply ix r =>
        let es := held.take (ruNPAT r)
        let n := 1 + es.foldl (fun k e => max k e.count) 0
        let os := originals [] es
        let new := (List.range (ruNREP r)).map fun k => buildEnt es os n ix (1024 * g + f + 1) (ruTPL r k)
        let c := ((c.rwCount 48 1).rwCount 32 (2 ^ 16 + ruNPAT r - ruNREP r))
        windowStep f g { c with win := rest ++ new ++ held.drop (ruNPAT r) }

/-! ### Tile instructions enter the window (R293, R316) -/

/-- A register as the next instruction of the context would read it (R39, R293). -/
def capture (r : XReg) : M Word := do
  let c ← me
  if c.busy r then stall
  else if c.tick.bad r then raise POISON 0
  else return c.tick.rd r

/-- The agents of tile and rewrite instructions (R36, R430). -/
def tileAgent (i : Instr) : M Unit := agent i fun id => isControl id && onCompute id

/-- The FRESH bits after the decode of a tile instruction that writes `td` (R316). -/
def freshAfter (i : Instr) (td : Option TReg) (fresh : BitVec 4) : BitVec 4 :=
  match td with
  | none => fresh
  | some t => match i with
    | .tzero _ => fresh ||| (1#4 <<< t.toNat)
    | _ => fresh &&& ~~~(1#4 <<< t.toNat)

/-- A tile instruction decoded: captured, entered, and the window stepped. `td` is the tile it writes. With a rule that RWPERM permits or not,
it reads RWPERM, which may be marked (R320, R390; log 45). -/
def tileIssue (i : Instr) (rs1 rs2 : XReg) (td : Option TReg) : M Fin := do
  tileAgent i
  let a ← capture rs1
  let b ← capture rs2
  let k ← myCore
  if k.cpois.contains cRWPERM && k.rules.any fun r => 2 ≤ ruCLASS r.toNat then raise POISON 0 else pure ()
  let x ← me
  let g ← nextSeq
  if 8 < (originals [] k.win).length + 1 then park .room
  else do
    let op : TOp := ⟨(wordOf i).setWidth 32, a, b, x.pc, 8 * g⟩
    let e : TEnt := { op := op, origs := [op], count := 0, fresh := k.fresh, rule := Option.none, group := 0, sup := x.sup,
                      st := .held, replay := Option.none }
    let r := windowStep 1024 g { k with win := k.win ++ [e], fresh := freshAfter i td k.fresh }
    let moved := r.oldest != k.oldest
    updMyCore fun _ => if moved then { r with dwell := 0 } else r
    return { entered := moved && r.oldest.isSome }

/-- DWELL_FLUSH (R321). -/
def execDwellFlush (core : Nat) : State → Outcome := event (do
  let s ← get
  let c := s.core core
  if 16 ≤ c.dwell && c.win.any TEnt.held then upd (.core core (Core.flush true)) else stall)

/-- R306: the image lies in LOCAL on a 64-byte boundary. -/
def execRwload (rs1 : XReg) : State → Outcome := instr (do
  tileAgent (.rwload rs1)
  let va ← rx rs1
  flushWindow
  drainTiles
  aligned va 64
  if exposed va then pure () else raise ILLEGAL_OPERAND va
  let a ← locate .load va 2112
  let s ← get
  match s.locOf a.tgt with
  | Option.none => raise ILLEGAL_OPERAND va
  | some l =>
    if s.poisoned l 2112 then raise POISON va
    else match rulesOf (s.bytesAt l 2112) with
    | Option.none => raise ILLEGAL_OPERAND va
    | some rs => do
      updMyCore fun c => { c.csrSet cRWSTAT 0 with rules := rs.map (BitVec.ofNat 512) }
      return {})

/-- R307. -/
def execRwflush : State → Outcome := instr (do
  tileAgent .rwflush
  flushWindow
  drainTiles
  return {})

end Sys2Proof.Machine
end

