-- ==== Sys2Proof/Machine/Tile.lean ====
section
/-!
DEFINITION. The tile instructions (R293 to R305): their entry into the window, the checks and the effect of each when the matrix unit
starts it, its retirement, the class S check of rewritten groups (R322), and tile traps (R303, R304).
-/

namespace Sys2Proof.Machine

open M

def execTzero (td : TReg) : State → Outcome := instr (tileIssue (.tzero td) 0 0 (some td))
def execTmma (td : TReg) (rs1 rs2 : XReg) : State → Outcome := instr (tileIssue (.tmma td rs1 rs2) rs1 rs2 (some td))
def execTmmat (td : TReg) (rs1 rs2 : XReg) : State → Outcome := instr (tileIssue (.tmmat td rs1 rs2) rs1 rs2 (some td))
def execTadd (td ts : TReg) : State → Outcome := instr (tileIssue (.tadd td ts) 0 0 (some td))
def execTscl (td : TReg) (rs2 : XReg) : State → Outcome := instr (tileIssue (.tscl td rs2) 0 rs2 (some td))
def execTtr (td ts : TReg) : State → Outcome := instr (tileIssue (.ttr td ts) 0 0 (some td))
def execTmov (td ts : TReg) : State → Outcome := instr (tileIssue (.tmov td ts) 0 0 (some td))
def execTld (nu : BitVec 4) (td : TReg) (rs1 : XReg) : State → Outcome := instr (tileIssue (.tld nu td rs1) rs1 0 (some td))
def execTbld (nu : BitVec 4) (rs1 rs2 : XReg) : State → Outcome := instr (tileIssue (.tbld nu rs1 rs2) rs1 rs2 none)
def execTst (nu : BitVec 4) (fmt : TstFmt) (td : TReg) (rs1 rs2 : XReg) : State → Outcome :=
  instr (tileIssue (.tst nu fmt td rs1 rs2) rs1 rs2 none)

/-! ### Tiles and operands (R298) -/

/-- n entries of a map from a key on; an unlisted one is 0. -/
def denseFrom : Nat → Nat → SMap (BitVec 40) → List Nat
  | 0, _, _ => []
  | n + 1, k, [] => 0 :: denseFrom n (k + 1) []
  | n + 1, k, (j, v) :: m => if j = k then v.toNat :: denseFrom n (k + 1) m else 0 :: denseFrom n (k + 1) ((j, v) :: m)

/-- The 1,024 elements of a tile, row by row. -/
def Core.tile (c : Core) (t : TReg) : List Nat :=
  let lo := 1024 * t.toNat
  denseFrom 1024 lo (c.t.filter fun e => lo ≤ e.1 && e.1 < lo + 1024)

/-- Elements as the listed entries of a tile. -/
def tileEntries (t : TReg) (els : List Nat) : SMap (BitVec 40) :=
  ((List.range 1024).zip els).filterMap fun e => if e.2 = 0 then none else some (1024 * t.toNat + e.1, BitVec.ofNat 40 e.2)

/-- A tile replaced, its mark cleared (R390). -/
def Core.setTile (c : Core) (t : TReg) (es : SMap (BitVec 40)) : Core :=
  let lo := 1024 * t.toNat
  { c with t := (c.t.filter fun e => e.1 < lo) ++ es ++ (c.t.filter fun e => lo + 1024 ≤ e.1),
           tpois := c.tpois &&& ~~~(1#4 <<< t.toNat) }

/-- Lists of 32 elements. -/
def rows32 {α : Type} : Nat → List α → List (List α)
  | 0, _ => []
  | n + 1, l => l.take 32 :: rows32 n (l.drop 32)

def transpose32 {α : Type} (d : α) (m : List (List α)) : List (List α) :=
  (List.range 32).map fun j => m.map fun r => (r[j]?).getD d

/-- Values of two bytes each. -/
def pairsOf : List Byte → List Nat
  | a :: b :: r => (a.toNat + 256 * b.toNat) :: pairsOf r
  | _ => []

/-- Values of four bytes each. -/
def quadsOf : List Byte → List Nat
  | a :: b :: c :: d :: r => (a.toNat + 2 ^ 8 * b.toNat + 2 ^ 16 * c.toNat + 2 ^ 24 * d.toNat) :: quadsOf r
  | _ => []

/-- The 1,024 values of an operand in NF8 or BF16. -/
def operandVals (bf16 : Bool) (bs : List Byte) : List FVal :=
  if bf16 then (pairsOf (bs.take 2048)).map fBF16.val else (bs.take 1024).map fun b => fNF8.val b.toNat

/-! ### Checks at the start (R301 to R303) -/

/-- A range of local memory or a slot that a tile instruction accesses: the address or captured operand, bytes, whether written. -/
structure TUse where
  slot : Bool
  a : Word
  n : Nat
  wr : Bool
  deriving DecidableEq, Repr

def afmt (c : Core) : Nat := bitsOf (c.csrGet cMFMT).toNat 0 2
def bfmt (c : Core) : Nat := bitsOf (c.csrGet cMFMT).toNat 2 2

/-- The address of the 32 row scales of MSCA (R299). -/
def mscaVA (c : Core) : Word := BitVec.ofNat 64 (0xFFF0_0000_0000_0000 + bitsOf (c.csrGet cMSCA).toNat 5 13 * 32)

/-- Whether the row scales of A are read from memory (R301). -/
def readsScales (c : Core) : Bool := afmt c == 0 && !(c.csrGet cMSCA).getLsbD 40

def Core.tileUses (c : Core) (i : Instr) (o : TOp) : List TUse :=
  let mma := [⟨false, o.opa, if afmt c = 0 then 1024 else 2048, false⟩] ++
    (if readsScales c then [⟨false, mscaVA c, 32, false⟩] else []) ++ [⟨true, o.opb, 2048, false⟩]
  match i with
  | .tmma .. => mma
  | .tmmat .. => mma
  | .tld .. => [⟨false, o.opa, 4096, false⟩]
  | .tbld .. => [⟨true, o.opb, 2048, false⟩, ⟨false, o.opa, 2048, true⟩]
  | .tst _ f .. => [⟨false, o.opa, match f with | .f32 => 4096 | .bf16 => 2048 | .nf8 => 1056, true⟩]
  | _ => []

/-- Tiles and CSRs that an instruction reads (R390). -/
def tileReads : Instr → List TReg
  | .tmma td .. => [td]
  | .tmmat td .. => [td]
  | .tadd td ts => [td, ts]
  | .tscl td _ => [td]
  | .ttr _ ts => [ts]
  | .tmov _ ts => [ts]
  | .tst _ _ td .. => [td]
  | _ => []

/-- The tile that an instruction writes. -/
def tileWrites : Instr → Option TReg
  | .tzero td => some td
  | .tmma td .. => some td
  | .tmmat td .. => some td
  | .tadd td _ => some td
  | .tscl td _ => some td
  | .ttr td _ => some td
  | .tmov td _ => some td
  | .tld _ td _ => some td
  | _ => none

def Core.tileCsrs (c : Core) : Instr → List Nat
  | .tmma .. | .tmmat .. => [cMFMT] ++ (if afmt c = 0 then [cMSCA] else []) ++ (if bfmt c = 0 then [cMSCB] else [])
  | .tst _ .nf8 .. => [cMCODE]
  | _ => []

def tileOff (a : Word) : Nat := (a - 0xFFF0_0000_0000_0000).toNat

/-- A cause with its XVAL. -/
abbrev Cause := BitVec 8 × Word

/-- The first cause of a list of checks. -/
def firstCause : List (Option Cause) → Option Cause
  | [] => none
  | some c :: _ => some c
  | none :: m => firstCause m

def isMma : Instr → Bool
  | .tmma .. | .tmmat .. => true
  | _ => false

/-- What an instruction reads of a range: the bytes it has read ahead when they cover it, else those of now (R104). -/
def State.tileSrc (s : State) (core : Nat) (early : List Early) (slot : Bool) (a n : Nat) : Early :=
  (early.find? fun r => r.covers slot a n).getD (s.readNow core (slot, a, n))

/-- The offset of a use, in local memory or in the B-store. -/
def TUse.off (u : TUse) : Nat := if u.slot then u.a.toNat % 2 ^ 10 * 2048 else tileOff u.a

/-- Alignment, window and limits, guard and locks, in the order of R303; a marked STASHCFG or guard comes ahead of the window, and a read that
was made ahead is checked against the locks of that time too (R117, R390; logs 3 and 45). -/
def State.tileChecks (s : State) (core : Nat) (i : Instr) (e : TEnt) : Option Cause :=
  let c := s.core core
  let x := s.ctx (ctxId core 0)
  let us := c.tileUses i e.op
  let loc := us.filter fun u => !u.slot
  let align := fun (u : TUse) => if u.a.toNat % (if u.n = 32 then 32 else 64) ≠ 0 then some (MISALIGNED, u.a) else none
  let fmt := if isMma i && (2 ≤ afmt c || 2 ≤ bfmt c) then some (ILLEGAL_OPERAND, c.csrGet cMFMT) else none
  let limit := fun (u : TUse) =>
    if u.slot then (if 2 ^ 10 ≤ u.a.toNat then some (ILLEGAL_OPERAND, u.a) else none)
    else if Config.lmBytes < tileOff u.a + u.n || c.isStash (tileOff u.a) u.n then some (ILLEGAL_OPERAND, u.a) else none
  let guard := fun (u : TUse) =>
    if !e.sup && (reservedArea false (tileOff u.a) u.n || !x.guarded false 0 (tileOff u.a) u.n (!u.wr) u.wr)
    then some (LOCAL_GUARD, u.a) else none
  let marks := if !loc.isEmpty && (c.cpois.contains cSTASHCFG || (!e.sup && (List.range 4).any fun k => x.cpois.contains (cLGUARD + k)))
    then some (POISON, (0 : Word)) else none
  let lock := fun (u : TUse) =>
    (c.locked u.slot u.off u.n u.wr <|> if u.wr then none else (s.tileSrc core e.early u.slot u.off u.n).locked u.off u.n).map fun b =>
      (RANGE_LOCK, BitVec.ofNat 64 (if u.slot then u.a.toNat % 2 ^ 10 else 0xFFF0_0000_0000_0000 + b))
  firstCause (loc.map align ++ [fmt, marks] ++ us.map limit ++ loc.map guard ++ us.map lock)

/-- The first poisoned word of a use, as an address or a slot number. -/
def State.tilePoison (s : State) (core : Nat) (early : List Early) (u : TUse) : Option Cause :=
  if u.wr then none
  else ((s.tileSrc core early u.slot u.off u.n).poisoned u.off u.n).map fun w =>
    (POISON, if u.slot then BitVec.ofNat 64 (u.a.toNat % 2 ^ 10) else u.a + BitVec.ofNat 64 (max w u.off - u.off))

/-- The data check of R303: poison, then a reserved NF8 code of A, then of the slot (R375, R376). -/
def State.tileData (s : State) (core : Nat) (i : Instr) (o : TOp) (early : List Early) (a b : List Byte) : Option Cause :=
  let c := s.core core
  let res := fun (l : List Byte) => (l.take 1024).findIdx? fun x => x.toNat % 128 == 0x7F
  let regs := if (tileReads i).any (fun t => c.tpois.getLsbD t.toNat) || (c.tileCsrs i).any (fun n => c.cpois.contains n)
    then some (POISON, (0 : Word)) else none
  let nf8 := if !isMma i then none
    else match (if afmt c = 0 then res a else none), (if bfmt c = 0 then res b else none) with
      | some k, _ => some (FORMAT_RESERVED, o.opa + BitVec.ofNat 64 k)
      | none, some _ => some (FORMAT_RESERVED, BitVec.ofNat 64 (o.opb.toNat % 2 ^ 10))
      | none, none => none
  firstCause ([regs] ++ (c.tileUses i o).map (s.tilePoison core early) ++ [nf8])

/-! ### Effects (R300 to R302) -/

/-- What a tile instruction does: a tile's elements, bytes stored at an address, flags. -/
structure TEff where
  tile : Option (TReg × List Nat)
  bytes : List Byte
  fl : Flags

def orAll (l : List (Nat × Flags)) : Flags := l.foldl (fun f r => f ||| r.2) 0

def tileOf (td : TReg) (rs : List (Nat × Flags)) : TEff := ⟨some (td, rs.map (·.1)), [], orAll rs⟩

/-- One block step on every element (R301, R61). -/
def mma (acc : List Nat) (rows cols : List (List FVal)) (sA sB : List FVal) : List (Nat × Flags) :=
  ((rows.zip sA).zip (rows32 32 acc)).flatMap fun r =>
    ((cols.zip sB).zip r.2).map fun c => blockStep c.2 (r.1.1.zip c.1.1) r.1.2 c.1.2

def one : FVal := .fin false 1 0

/-- Row and column scales (R299, R301). -/
def Core.rowScales (c : Core) (bs : List Byte) : List FVal :=
  if afmt c ≠ 0 then List.replicate 32 one
  else if readsScales c then bs.map fun b => FVal.scale b.toNat
  else List.replicate 32 (FVal.scale (bitsOf (c.csrGet cMSCA).toNat 32 8))

def Core.colScales (c : Core) (slot : List Byte) : List FVal :=
  if bfmt c ≠ 0 then List.replicate 32 one
  else if (c.csrGet cMSCB).getLsbD 8 then List.replicate 32 (FVal.scale (bitsOf (c.csrGet cMSCB).toNat 0 8))
  else ((slot.drop 1024).take 32).map fun b => FVal.scale b.toNat

def Core.mmaOf (c : Core) (tr : Bool) (td : TReg) (a b scales : List Byte) : TEff :=
  let rows := rows32 32 (operandVals (afmt c != 0) a)
  let rows := if tr then transpose32 one rows else rows
  tileOf td (mma (c.tile td) rows (rows32 32 (operandVals (bfmt c != 0) b)) (c.rowScales scales) (c.colScales b))

/-- `tst` (R302). -/
def Core.store (c : Core) (fmt : TstFmt) (td : TReg) (opb : Word) : TEff :=
  let f := fFP32.val (opb.toNat % 2 ^ 32)
  let v := (c.tile td).map fun x => (vA40 x).mul f
  match fmt with
  | .f32 =>
    let rs := v.map fun x => fFP32.round .rne x.exact
    ⟨none, rs.flatMap fun r => leBytes 4 r.1, orAll rs⟩
  | .bf16 =>
    let rs := v.map fun x => fBF16.round .rne x.exact
    ⟨none, rs.flatMap fun r => leBytes 2 r.1, orAll rs⟩
  | .nf8 =>
    let m := c.csrGet cMCODE
    let rs := (rows32 32 v).map fun r =>
      if m.getLsbD 8 then
        let n := narrowFixed (bitsOf m.toNat 0 8) r
        (bitsOf m.toNat 0 8, n.1, n.2)
      else narrowBlock r
    ⟨none, rs.flatMap (fun r => r.2.1.map (BitVec.ofNat 8)) ++ rs.map (fun r => BitVec.ofNat 8 r.1), rs.foldl (fun f r => f ||| r.2.2) 0⟩

/-- The effect of a tile instruction on its operands: the bytes of A (or of the range read), the slot, the row scales. -/
def Core.effect (c : Core) (i : Instr) (o : TOp) (a slot scales : List Byte) : TEff :=
  let f := fFP32.val (o.opb.toNat % 2 ^ 32)
  match i with
  | .tzero td => ⟨some (td, List.replicate 1024 0), [], 0⟩
  | .tadd td ts => tileOf td (((c.tile td).zip (c.tile ts)).map fun e => fA40.round .rne (FVal.add .rne (vA40 e.1) (vA40 e.2)))
  | .tscl td _ => tileOf td ((c.tile td).map fun x => fA40.round .rne ((vA40 x).mul f).exact)
  | .ttr td ts => ⟨some (td, (transpose32 0 (rows32 32 (c.tile ts))).flatten), [], 0⟩
  | .tmov td ts => ⟨some (td, c.tile ts), [], 0⟩
  | .tmma td .. => c.mmaOf false td a slot scales
  | .tmmat td .. => c.mmaOf true td a slot scales
  | .tld _ td _ => tileOf td ((quadsOf a).map fun x => fA40.round .rne (fFP32.val x).exact)
  | .tbld .. => ⟨none, slot, 0⟩
  | .tst _ fmt td .. => c.store fmt td o.opb
  | _ => ⟨none, [], 0⟩

/-- The bytes a tile instruction reads: of A or of its range, of its slot, and the row scales. Bytes read ahead are `early` (R104). -/
def State.tileBytes (s : State) (core : Nat) (i : Instr) (o : TOp) (early : List Early) : List Byte × List Byte × List Byte :=
  let c := s.core core
  let us := c.tileUses i o
  let src := fun (u : TUse) => (s.tileSrc core early u.slot u.off u.n).get u.off u.n
  (((us.find? fun u => !u.slot && !u.wr).map src).getD [], ((us.find? (·.slot)).map src).getD [],
   if readsScales c && isMma i then src ⟨false, mscaVA c, 32, false⟩ else [])

/-- Bytes that an earlier tile instruction has now stored, among those that a later one has read ahead: its read returns them (R102, R296). -/
def Early.splice (a : Nat) (bs : List Byte) (r : Early) : Early :=
  let lo := max a r.base
  let hi := min (a + bs.length) (r.base + r.bytes.length)
  if r.slot || hi ≤ lo then r
  else { r with bytes := r.bytes.take (lo - r.base) ++ (bs.drop (lo - a)).take (hi - lo) ++ r.bytes.drop (hi - r.base),
                bad := r.bad.filter fun w => w < a || a + bs.length < w + 8 }

/-! ### Class S groups (R322) -/

/-- The state after a tile instruction of a core has had its effect on tiles and bytes, and what later ones have read ahead. -/
def State.ranTile (s : State) (core : Nat) (o : TOp) (early : List Early) : State × List Early :=
  match tileWord o.word.toNat with
  | none => (s, early)
  | some i =>
    let b := s.tileBytes core i o early
    let r := (s.core core).effect i o b.1 b.2.1 b.2.2
    let s := (Upd.poke ((Space.lm core).loc (tileOff o.opa)) r.bytes).apply s
    (match r.tile with
      | some t => s.setCore core ((s.core core).setTile t.1 (tileEntries t.1 t.2))
      | none => s,
     early.map (Early.splice (tileOff o.opa) r.bytes))

def isTscl (o : TOp) : Bool := match tileWord o.word.toNat with | some (.tscl ..) => true | _ => false

/-- Whether two `tscl` instructions scale the same tile, and by the same factor. -/
def sameTile (a b : TOp) : Bool := twTD a.word.toNat == twTD b.word.toNat
def sameScl (a b : TOp) : Bool := sameTile a b && a.opb.toNat % 2 ^ 32 == b.opb.toNat % 2 ^ 32

/-- The `tscl` originals whose factors a group's rules have removed: those that no `tscl` left stands for. One left stands for an original of
its tile and factor; one with a factor of its own, a product, stands for the last of its tile that is left over, else for the last of all,
since the factors in front of that one must be exact for the product to round alike (log 15). -/
def removedScl (left os : List TOp) : List TOp :=
  let r := left.foldl (fun (r : List TOp × List TOp) w =>
    if r.2.any (sameScl w) then (r.1, r.2.eraseP (sameScl w)) else (r.1 ++ [w], r.2)) ([], os)
  r.1.foldl (fun l w =>
    let b := l.reverse
    (if b.any (sameTile w) then b.eraseP (sameTile w) else b.tail).reverse) r.2

/-- Whether the products by the removed factors are exact in A40, while a group's originals run one after another. -/
def State.exactS (s : State) (core : Nat) (early : List Early) (gone : List TOp) : List TOp → Bool
  | [] => true
  | o :: m =>
    let exact := match tileWord o.word.toNat with
      | some (.tscl td _) =>
        let f := fFP32.val (o.opb.toNat % 2 ^ 32)
        !gone.contains o || (orAll (((s.core core).tile td).map fun x => fA40.round .rne ((vA40 x).mul f).exact) &&& (fNX ||| fOF)) == 0
      | _ => true
    let rest := gone.filter (· != o)
    let t := s.ranTile core o early
    exact && (rest.isEmpty || State.exactS t.1 core t.2 rest m)

/-- Whether two entries stand for a common original. -/
def TEnt.shares (e x : TEnt) : Bool := x.origs.any fun o => e.origs.any fun p => p.num == o.num

/-- An entry with those of its originals that have not left it to run as themselves. -/
def TEnt.live (e : TEnt) : TEnt := { e with origs := e.origs.filter fun o => !e.ran.contains o.num }

/-- The front of the window gives way to its originals, from the tiles as they were before any entry that stands for one of them ran. So does
every committed entry that shares an original with it; a held one stays, for the rules to match (R320), and records them (log 15). -/
def Core.asOriginals (c : Core) (e : TEnt) : Core :=
  let mine := c.win.filter e.shares
  let now := originals [] ((mine.filter fun x => !x.held).map TEnt.live)
  let kept := c.win.filterMap fun x =>
    if !e.shares x then some x else if x.held then some { x with ran := now.map TOp.num ++ x.ran, base := none } else none
  { c with
    t := e.base.getD c.t,
    win := now.map (fun o => { op := o, origs := [o], count := 0, fresh := e.fresh, rule := none, group := 0, sup := e.sup, st := e.st,
                               replay := e.replay, early := mine.flatMap (·.early) }) ++ kept }

/-- A core when the front of its window starts: a group of class S whose removed factors would round runs as its originals, and so does an
entry some of whose originals have run as themselves (R322; log 15). -/
def State.unfold (s : State) (core : Nat) : Core :=
  let c := s.core core
  match c.win with
  | [] => c
  | e :: _ =>
    let cls := match e.rule with | some k => ruCLASS (((c.rules[k]?).map BitVec.toNat).getD 0) | none => 0
    if !e.ran.isEmpty then c.asOriginals e
    else if cls ≠ 1 || e.checked || e.rule.isNone then c
    else
      let left := ((c.win.filter fun x => x.group == e.group).map (·.op)).filter isTscl
      let gone := removedScl left (e.origs.filter isTscl)
      if gone.isEmpty || (s.setCore core { c with t := e.base.getD c.t }).exactS core e.early gone e.origs then
        { c with win := c.win.map fun x => if x.group = e.group then { x with checked := true } else x }
      else c.asOriginals e

/-! ### Traps (R303, R304) -/

/-- A tile instruction at the front of the window meets a cause: at once, or when its context, which is STOPPED, goes on. DESIGN CHOICE (log
47): TRB has places for 8 instructions, and where more are unretired (a handler's and those it replays) the first 8 are kept. -/
def tileCause (core : Nat) (e : TEnt) (c : Cause) : M Unit := do
  let s ← get
  if (s.ctx (ctxId core 0)).run = .stopped then
    let k := s.core core
    stop (upd (.core core fun _ => { k with win := { e with stuck := true } :: k.win.tail }))
  else do
  upd (.core core (Core.flush false))
  let s ← get
  let k := s.core core
  let os := originals [] (k.win.map TEnt.live)
  let m := (List.range os.length).zip os
  let fill := fun (k : Core) (x : Nat × TOp) =>
    (k.csrSet (cTRB + 2 * x.1) (BitVec.ofNat 64 (x.2.word.toNat + x.2.opb.toNat % 2 ^ 32 * 2 ^ 32))).csrSet (cTRB + 2 * x.1 + 1) x.2.opa
  upd (.core core fun k => { (m.take 8).foldl fill k with win := [], dwell := 0 })
  let first := ((e.origs.head?).map (·.pc)).getD e.op.pc
  deliver (ctxId core 0)
    { code := c.1, val := c.2, xpc0 := some (e.replay.getD first), rwr := e.rule.isSome, rule := e.rule.getD 0,
      trn := 2 * min os.length 8, idle := (s.ctx (ctxId core 0)).run == .idle } true

/-- Whether a tile instruction of a core can start: the control context is in no state that a trap could not interrupt, and its queued
vector accesses have been performed (R294, R296). -/
def State.tileReady (s : State) (core : Nat) : Bool :=
  let x := s.ctx (ctxId core 0)
  !x.midAccess && (x.run == .ready || x.run == .parked || x.run == .idle || x.run == .stopped) &&
  (x.held.isNone || !s.pausedTen (s.tenOf core)) &&
  !((s.core core).vq.any fun e => e.ctx == ctxId core 0 && isVmem e.instr)

/-- TILE_START (R294): the front of the window, once committed, is checked and performs its accesses. The WORD of a replayed instruction
is decoded afresh in its turn (R305, R316). DESIGN CHOICE (log 47): a word that a template's substitutions have made no TARITH or TMEM
instruction (R319) takes ILLEGAL_INSN here, as a replayed one does. -/
def execTileStart (core : Nat) : State → Outcome := event (do
  let s ← get
  match (s.core core).win with
  | [] => stall
  | e0 :: _ =>
    if e0.st ≠ .committed || !s.tileReady core then stall
    else do
      let w := s.unfold core
      upd (.core core fun _ => w)
      let s ← get
      let c := s.core core
      let e := (c.win.head?).getD e0
      if c.win.isEmpty || e.st ≠ .committed then pure ()
      else match tileWord e.op.word.toNat with
      | none => tileCause core e (ILLEGAL_INSN, e.op.word.setWidth 64)
      | some i => do
        if e.replay.isSome then upd (.core core fun c => { c with fresh := freshAfter i (tileWrites i) c.fresh }) else pure ()
        match s.tileChecks core i e with
        | some x => tileCause core e x
        | none => do
          let b := s.tileBytes core i e.op e.early
          match s.tileData core i e.op e.early b.1 b.2.1 with
          | some x => tileCause core e x
          | none => do
            let r := c.effect i e.op b.1 b.2.1 b.2.2
            let res : TRes := ⟨r.tile.map (·.1), (r.tile.map fun t => tileEntries t.1 t.2).getD [], r.fl⟩
            if r.bytes.isEmpty then pure () else upd (.poke ((Space.lm core).loc (tileOff e.op.opa)) r.bytes)
            upd (.core core fun c => { c with
              win := { e with st := .started res } ::
                c.win.tail.map fun x => { x with
                  early := x.early.map (Early.splice (tileOff e.op.opa) r.bytes),
                  base := if e.shares x then x.base <|> some (e.base.getD c.t) else x.base } }))

/-- Whether a tile instruction advances TRC (R302). -/
def isTmem : Instr → Bool
  | .tld .. | .tbld .. | .tst .. => true
  | _ => false

/-- TILE_RETIRE (R294): the started instruction writes its tile, its flags and TRC. -/
def execTileRetire (core : Nat) : State → Outcome := event (do
  let s ← get
  match (s.core core).win with
  | [] => stall
  | e :: _ =>
    match e.st with
    | .started r => do
      let trc := ((tileWord e.op.word.toNat).map isTmem).getD false
      upd (.core core fun c =>
        let c := match r.td with | some t => c.setTile t r.els | none => c
        let c := if trc then c.csrBump cTRC (c.csrGet cTRC + 1) else c
        { c with win := c.win.tail })
      orFlags (ctxId core 0) r.flags
    | _ => stall)

end Sys2Proof.Machine
end

