-- ==== Sys2Proof/Machine/Vector.lean ====
section
/-!
DEFINITION. The vector instructions (R270 to R289, R437): checks and captures at issue, the queue of each core and its arbiter (R153,
R154, R276), the effect of each instruction at its retirement (R275), and causes met after queuing (R377).
-/

namespace Sys2Proof

open Machine

/-! ### Widths and formats (R272, R277, R281) -/

/-- The width of an integer element. -/
def dBits (d : Bool) : Nat := if d then 64 else 32

def VFmt.fmt : VFmt → Fmt
  | .f32 => fFP32
  | .f64 => fFP64
  | .bf16 => fBF16

def VFmt.width : VFmt → Nat
  | .f32 => 32
  | .f64 => 64
  | .bf16 => 16

def VFmt.wide (f : VFmt) : Bool := f == .f64
def VFmt.stride (f : VFmt) : Nat := dBits f.wide

def VS2.regs : VS2 → List VReg
  | .vec v => [v]
  | _ => []

/-- A code of m bits as a signed number. -/
def sInt (m a : Nat) : Int := (BitVec.ofNat m a).toInt

/-- The conditions of `vcmp` (R283). -/
def VCond.holds (cc : VCond) (m a b : Nat) : Bool :=
  match cc with
  | .eq => a == b
  | .ne => a != b
  | .lt => decide (sInt m a < sInt m b)
  | .ge => decide (sInt m b ≤ sInt m a)
  | .ltu => decide (a < b)
  | .geu => decide (b ≤ a)

def VFmt.val (f : VFmt) (a : Nat) : FVal := f.fmt.val a
def VMemFmt.bytes : VMemFmt → Nat
  | .w => 4
  | .d => 8
  | .h => 2
  | .b => 1

def VMemFmt.wide (f : VMemFmt) : Bool := f == .d
def VMemFmt.stride (f : VMemFmt) : Nat := dBits f.wide

end Sys2Proof

namespace Sys2Proof.Machine

open M

/-! ### Elements (R272 to R274) -/

/-- Element i of a register's bits: `stride` bits apart, `w` wide. -/
def lane (v stride w i : Nat) : Nat := bitsOf v (stride * i) w

/-- Elements 0 and above replaced, each filling its stride. -/
def putLow (stride v : Nat) (els : List Nat) : Nat :=
  let n := stride * els.length
  els.foldr (fun e r => e % 2 ^ stride + r * 2 ^ stride) 0 + v / 2 ^ n * 2 ^ n

/-- What a queued instruction reads: registers, VL, rounding mode, scalar operand. -/
structure VIn where
  reg : VReg → Nat
  n : Nat
  mode : RMode
  s2v : Word

/-- Operand(s2, i) (R273). -/
def VIn.int (x : VIn) (d : Bool) (s2 : VS2) (i : Nat) : Nat :=
  let m := dBits d
  match s2 with
  | .vec v => lane (x.reg v) m m i
  | .reg _ => x.s2v.toNat % 2 ^ m
  | .con k => (kInt k).toNat % 2 ^ m

def VIn.flt (x : VIn) (f : VFmt) (s2 : VS2) (i : Nat) : Nat :=
  match s2 with
  | .vec v => lane (x.reg v) f.stride f.width i
  | .reg _ => x.s2v.toNat % 2 ^ f.width
  | .con k => kFloat f.fmt k

/-- The effect of a queued instruction: elements written with flags, a scalar written, or a cause; and the registers it reads. -/
inductive VRes where
  | reg (reads : List VReg) (vd : VReg) (stride : Nat) (els : List Nat) (fl : Flags)
  | scalar (reads : List VReg) (rd : XReg) (v : Word)
  | cause (reads : List VReg) (code : BitVec 8) (val : Word)
  | memory

/-- Element-wise integer instructions (R280); `usesVd` says whether F reads the old destination. -/
def VIn.ints (x : VIn) (usesVd d : Bool) (vd vs1 : VReg) (s2 : VS2) (f : Nat → Nat → Nat → Nat → Nat) : VRes :=
  let m := dBits d
  .reg (vs1 :: (s2.regs ++ (if usesVd then [vd] else []))) vd m
    ((List.range x.n).map fun i => f m (lane (x.reg vs1) m m i) (x.int d s2 i) (lane (x.reg vd) m m i) % 2 ^ m) 0

def vfAdd (_ a b _ : Nat) : Nat := a + b
def vfSub (m a b _ : Nat) : Nat := a + 2 ^ m - b
def vfMul (_ a b _ : Nat) : Nat := a * b
def vfAnd (_ a b _ : Nat) : Nat := a &&& b
def vfOr (_ a b _ : Nat) : Nat := a ||| b
def vfXor (_ a b _ : Nat) : Nat := a ^^^ b
def vfSll (m a b _ : Nat) : Nat := a * 2 ^ (b % m)
def vfSrl (m a b _ : Nat) : Nat := a / 2 ^ (b % m)
def vfSra (m a b _ : Nat) : Nat := ((BitVec.ofNat m a).sshiftRight (b % m)).toNat
def vfMin (m a b _ : Nat) : Nat := if sInt m b < sInt m a then b else a
def vfMax (m a b _ : Nat) : Nat := if sInt m a < sInt m b then b else a
def vfSel (_ a b c : Nat) : Nat := if c ≠ 0 then a else b

def vfCmp (cc : VCond) (m a b _ : Nat) : Nat := if cc.holds m a b then 2 ^ m - 1 else 0

/-- Element-wise floating instructions (R281); the flags of all elements are ORed. -/
def VIn.flts (x : VIn) (uses1 usesVd : Bool) (f : VFmt) (vd vs1 : VReg) (s2 : VS2) (g : Nat → Nat → Nat → Nat × Flags) : VRes :=
  let rs := (List.range x.n).map fun i =>
    g (lane (x.reg vs1) f.stride f.width i) (x.flt f s2 i) (lane (x.reg vd) f.stride f.width i)
  .reg ((if uses1 then [vs1] else []) ++ s2.regs ++ (if usesVd then [vd] else [])) vd f.stride (rs.map (·.1))
    (rs.foldl (fun a r => a ||| r.2) 0)

def VIn.round (x : VIn) (f : VFmt) (e : Exact) : Nat × Flags := f.fmt.round x.mode e

/-! ### Masks, moves and reductions (R284, R286, R287) -/

/-- The mask instructions act on all 64 lanes. -/
def VIn.masks (x : VIn) (reads : List VReg) (vd : VReg) (f : Nat → Nat) : VRes :=
  .reg reads vd 32 (if x.n = 0 then [] else (List.range 64).map f) 0

def VIn.s2Word (x : VIn) : S2 → Word
  | .reg _ => x.s2v
  | .con k => kInt k

def VIn.slide (x : VIn) (d : Bool) (vd vs1 : VReg) (s2 : S2) : VRes :=
  let m := dBits d
  let k := (x.s2Word s2).toInt
  .reg [vs1] vd m ((List.range x.n).map fun i =>
    let j := (i : Int) + k
    if 0 ≤ j && decide (j < x.n) then lane (x.reg vs1) m m j.toNat else 0) 0

def VIn.bcast (x : VIn) (d : Bool) (vd vs1 : VReg) (s2 : S2) : VRes :=
  let m := dBits d
  let k := (x.s2Word s2).toNat
  let v := if k < 2048 / m then lane (x.reg vs1) m m k else 0
  .reg [vs1] vd m (List.replicate x.n v) 0

/-- One level of the reduction tree: neighbours combined, the last of an odd number carried. -/
def redLevel (op : Nat → Nat → Nat × Flags) : List Nat → List Nat × Flags
  | a :: b :: r =>
    let c := op a b
    let t := redLevel op r
    (c.1 :: t.1, c.2 ||| t.2)
  | l => (l, 0)

def redTree (op : Nat → Nat → Nat × Flags) : Nat → List Nat → Flags → Nat × Flags
  | 0, l, fl => (l.headD 0, fl)
  | f + 1, l, fl =>
    if l.length ≤ 1 then (l.headD 0, fl)
    else let t := redLevel op l; redTree op f t.1 (fl ||| t.2)

/-- Start value and tree combined (R286). -/
def reduce (op : Nat → Nat → Nat × Flags) (start : Nat) (l : List Nat) : Nat × Flags :=
  let t := redTree op 7 l 0
  let r := op start t.1
  (r.1, t.2 ||| r.2)

def VIn.reds (x : VIn) (reads : List VReg) (vd : VReg) (stride w : Nat) (v start : Nat) (op : Nat → Nat → Nat × Flags) : VRes :=
  if x.n = 0 then .reg reads vd stride [] 0
  else
    let r := reduce op start ((List.range x.n).map fun i => lane v stride w i)
    .reg reads vd stride [r.1] r.2

def VIn.redInt (x : VIn) (d : Bool) (vd vs1 : VReg) (s2 : VS2) (f : Nat → Nat → Nat → Nat → Nat) : VRes :=
  let m := dBits d
  x.reds (vs1 :: s2.regs) vd m m (x.reg vs1) (x.int d s2 0) fun a b => (f m a b 0 % 2 ^ m, 0)

/-! ### Conversion (R285) -/

/-- Width, stride and format of a conversion code (R174); none for an integer, with its signedness. -/
def cvtWidth (c : BitVec 3) : Nat :=
  match c.toNat with | 0 => 32 | 1 => 64 | 2 => 16 | 3 => 8 | 4 => 32 | 5 => 64 | 6 => 32 | _ => 64
def cvtStride (c : BitVec 3) : Nat := if cvtWidth c = 64 then 64 else 32
def cvtFmt (c : BitVec 3) : Option Fmt :=
  match c.toNat with | 0 => some fFP32 | 1 => some fFP64 | 2 => some fBF16 | 3 => some fNF8 | _ => none
def cvtUns (c : BitVec 3) : Bool := 6 ≤ c.toNat
def cvtWide (dst src : BitVec 3) : Bool := cvtWidth dst == 64 || cvtWidth src == 64

/-- Whether a conversion rounds under FRM: not to NF8, nor between integers (R54, R285). -/
def cvtRounds (dst src : BitVec 3) (rtz : Bool) : Bool :=
  !rtz && cvtFmt dst != some fNF8 && ((cvtFmt dst).isSome || (cvtFmt src).isSome)

/-- One element converted. -/
def cvt1 (mode : RMode) (dst src : BitVec 3) (a : Nat) : Nat × Flags :=
  let n := cvtWidth dst
  match cvtFmt src, cvtFmt dst with
  | some f, some g => g.round mode (f.val a).exact
  | some f, none => (f.val a).toInt mode (cvtUns dst) n
  | none, some g => g.round mode (exactInt (if cvtUns src then (a : Int) else sInt (cvtWidth src) a))
  | none, none => limitInt (cvtUns dst) n (if cvtUns src then (a : Int) else sInt (cvtWidth src) a)

def VIn.cvt (x : VIn) (dst src : BitVec 3) (rtz : Bool) (vd vs1 : VReg) : VRes :=
  let mode := if rtz then .rtz else x.mode
  let src1 := fun (i : Nat) => lane (x.reg vs1) (cvtStride src) (cvtWidth src) i
  match (List.range x.n).find? fun i => cvtFmt src == some fNF8 && src1 i % 128 == 0x7F with
  | some i => .cause [vs1] FORMAT_RESERVED (BitVec.ofNat 64 i)
  | none =>
    let rs := (List.range x.n).map fun i => cvt1 mode dst src (src1 i)
    .reg [vs1] vd (cvtStride dst) (rs.map (·.1)) (rs.foldl (fun a r => a ||| r.2) 0)

/-! ### The effect of each queued instruction -/

def vEffect (x : VIn) : Instr → VRes
  | .vadd d vd vs1 s2 => x.ints false d vd vs1 s2 vfAdd
  | .vsub d vd vs1 s2 => x.ints false d vd vs1 s2 vfSub
  | .vmul d vd vs1 s2 => x.ints false d vd vs1 s2 vfMul
  | .vand d vd vs1 s2 => x.ints false d vd vs1 s2 vfAnd
  | .vor d vd vs1 s2 => x.ints false d vd vs1 s2 vfOr
  | .vxor d vd vs1 s2 => x.ints false d vd vs1 s2 vfXor
  | .vsll d vd vs1 s2 => x.ints false d vd vs1 s2 vfSll
  | .vsrl d vd vs1 s2 => x.ints false d vd vs1 s2 vfSrl
  | .vsra d vd vs1 s2 => x.ints false d vd vs1 s2 vfSra
  | .vmin d vd vs1 s2 => x.ints false d vd vs1 s2 vfMin
  | .vmax d vd vs1 s2 => x.ints false d vd vs1 s2 vfMax
  | .vcmp cc d vd vs1 s2 => x.ints false d vd vs1 s2 (vfCmp cc)
  | .vsel d vd vs1 s2 => x.ints true d vd vs1 s2 vfSel
  | .vmand vd vs1 vs2 => x.masks [vs1, vs2] vd fun i => lane (x.reg vs1) 32 32 i &&& lane (x.reg vs2) 32 32 i
  | .vmor vd vs1 vs2 => x.masks [vs1, vs2] vd fun i => lane (x.reg vs1) 32 32 i ||| lane (x.reg vs2) 32 32 i
  | .vmnot vd vs2 => x.masks [vs2] vd fun i => 2 ^ 32 - 1 - lane (x.reg vs2) 32 32 i
  | .vslide d vd vs1 s2 => x.slide d vd vs1 s2
  | .vbcast d vd vs1 s2 => x.bcast d vd vs1 s2
  | .vmvxs d rd vs1 => .scalar [vs1] rd (sext (dBits d) (lane (x.reg vs1) (dBits d) (dBits d) 0))
  | .vmvsx d vd _ => .reg [] vd (dBits d) [x.s2v.toNat % 2 ^ dBits d] 0
  | .vredsum d vd vs1 s2 => x.redInt d vd vs1 s2 vfAdd
  | .vredmax d vd vs1 s2 => x.redInt d vd vs1 s2 vfMax
  | .vredmin d vd vs1 s2 => x.redInt d vd vs1 s2 vfMin
  | .vfadd f vd vs1 s2 => x.flts true false f vd vs1 s2 fun a b _ => x.round f (FVal.add x.mode (f.val a) (f.val b))
  | .vfsub f vd vs1 s2 => x.flts true false f vd vs1 s2 fun a b _ => x.round f (FVal.add x.mode (f.val a) (f.val b).neg)
  | .vfmul f vd vs1 s2 => x.flts true false f vd vs1 s2 fun a b _ => x.round f ((f.val a).mul (f.val b)).exact
  | .vfdiv f vd vs1 s2 => x.flts true false f vd vs1 s2 fun a b _ => x.round f ((f.val a).div (f.val b))
  | .vfsqrt f vd s2 => x.flts false false f vd 0 s2 fun _ b _ => x.round f (f.val b).sqrt
  | .vfmin f vd vs1 s2 => x.flts true false f vd vs1 s2 fun a b _ => f.fmt.minmax false a b
  | .vfmax f vd vs1 s2 => x.flts true false f vd vs1 s2 fun a b _ => f.fmt.minmax true a b
  | .vfabs f vd s2 => x.flts false false f vd 0 s2 fun _ b _ => (b % f.fmt.signBit, 0)
  | .vfneg f vd s2 => x.flts false false f vd 0 s2 fun _ b _ => (b ^^^ f.fmt.signBit, 0)
  | .vfma f vd vs1 s2 => x.flts true true f vd vs1 s2 fun a b c =>
      x.round f (FVal.add x.mode ((f.val a).mul (f.val b)) (f.val c))
  | .vfms f vd vs1 s2 => x.flts true true f vd vs1 s2 fun a b c =>
      x.round f (FVal.add x.mode ((f.val a).mul (f.val b)) (f.val c).neg)
  | .vfnma f vd vs1 s2 => x.flts true true f vd vs1 s2 fun a b c =>
      x.round f (FVal.add x.mode (f.val c) ((f.val a).mul (f.val b)).neg)
  | .vfcmp cc f vd vs1 s2 => x.flts true false f vd vs1 s2 fun a b _ =>
      let r := f.fmt.compare cc a b
      (if r.1 then 2 ^ f.width - 1 else 0, r.2)
  | .vfredsum f vd vs1 s2 =>
      x.reds (vs1 :: s2.regs) vd f.stride f.width (x.reg vs1) (x.flt f s2 0)
        fun a b => x.round f (FVal.add x.mode (f.val a) (f.val b))
  | .vcvt dst src rtz vd vs1 => x.cvt dst src rtz vd vs1
  | _ => .memory

/-! ### Issue (R270, R275, R437) -/

/-- Passes of a queued instruction (R276). -/
def passesOf (wide : Bool) (vl : Nat) : Nat := if wide then (vl + 7) / 8 else (vl + 15) / 16

/-- An instruction enters its core's queue with what it captures. -/
def vQueue (i : Instr) (passes : Nat) (s2v : Word) (els : List (Word × Word)) : M Unit := do
  let s ← get
  let id := s.dev.cur
  let c := s.ctx id
  let e : VEnt := ⟨id, i, c.pc, (c.csrGet false cVL).toNat % 128, (c.csrGet false cFRM).setWidth 2, s2v, passes, els, .ahead⟩
  updMyCore fun k => { k with vq := k.vq ++ [e] }

/-- The captured VL after the checks of agent and width; a poisoned VL is not read (R272, R390, R437). -/
def vLen (i : Instr) (wide : Bool) : M Nat := do
  agent i onCompute
  let c ← me
  let n := (c.csrGet false cVL).toNat % 128
  if c.cpois.contains cVL then raise POISON 0
  else if wide && 32 < n then raise ILLEGAL_OPERAND (BitVec.ofNat 64 n)
  else return n

/-- An instruction that accesses no memory: its scalar operand is read, and FRM when it rounds. -/
def vIssue (i : Instr) (wide rounds : Bool) (passes : Nat → Nat) (s2v : M Word) : M Fin := do
  let n ← vLen i wide
  if n = 0 then vQueue i 0 0 []
  else do
    let c ← me
    if rounds && c.cpois.contains cFRM then raise POISON 0 else pure ()
    let v ← s2v
    vQueue i (passes n) v []
  return {}

def vs2Word : VS2 → M Word
  | .reg r => rx r
  | _ => return 0

def s2Scalar : S2 → M Word
  | .reg r => rx r
  | .con _ => return 0

/-- Integer and floating element-wise instructions and reductions. -/
def vInt (i : Instr) (d : Bool) (s2 : VS2) : M Fin := vIssue i d false (passesOf d) (vs2Word s2)
def vFlt (i : Instr) (f : VFmt) (s2 : VS2) : M Fin := vIssue i f.wide true (passesOf f.wide) (vs2Word s2)

/-- Floating instructions that round nothing, and so read no FRM. -/
def vPick (i : Instr) (f : VFmt) (s2 : VS2) : M Fin := vIssue i f.wide false (passesOf f.wide) (vs2Word s2)

def execVadd (d : Bool) (vd vs1 : VReg) (s2 : VS2) : State → Outcome := instr (vInt (.vadd d vd vs1 s2) d s2)
def execVsub (d : Bool) (vd vs1 : VReg) (s2 : VS2) : State → Outcome := instr (vInt (.vsub d vd vs1 s2) d s2)
def execVmul (d : Bool) (vd vs1 : VReg) (s2 : VS2) : State → Outcome := instr (vInt (.vmul d vd vs1 s2) d s2)
def execVand (d : Bool) (vd vs1 : VReg) (s2 : VS2) : State → Outcome := instr (vInt (.vand d vd vs1 s2) d s2)
def execVor (d : Bool) (vd vs1 : VReg) (s2 : VS2) : State → Outcome := instr (vInt (.vor d vd vs1 s2) d s2)
def execVxor (d : Bool) (vd vs1 : VReg) (s2 : VS2) : State → Outcome := instr (vInt (.vxor d vd vs1 s2) d s2)
def execVsll (d : Bool) (vd vs1 : VReg) (s2 : VS2) : State → Outcome := instr (vInt (.vsll d vd vs1 s2) d s2)
def execVsrl (d : Bool) (vd vs1 : VReg) (s2 : VS2) : State → Outcome := instr (vInt (.vsrl d vd vs1 s2) d s2)
def execVsra (d : Bool) (vd vs1 : VReg) (s2 : VS2) : State → Outcome := instr (vInt (.vsra d vd vs1 s2) d s2)
def execVmin (d : Bool) (vd vs1 : VReg) (s2 : VS2) : State → Outcome := instr (vInt (.vmin d vd vs1 s2) d s2)
def execVmax (d : Bool) (vd vs1 : VReg) (s2 : VS2) : State → Outcome := instr (vInt (.vmax d vd vs1 s2) d s2)
def execVcmp (cc : VCond) (d : Bool) (vd vs1 : VReg) (s2 : VS2) : State → Outcome := instr (vInt (.vcmp cc d vd vs1 s2) d s2)
def execVsel (d : Bool) (vd vs1 : VReg) (s2 : VS2) : State → Outcome := instr (vInt (.vsel d vd vs1 s2) d s2)
def execVmand (vd vs1 vs2 : VReg) : State → Outcome := instr (vIssue (.vmand vd vs1 vs2) false false (fun _ => 4) (return 0))
def execVmor (vd vs1 vs2 : VReg) : State → Outcome := instr (vIssue (.vmor vd vs1 vs2) false false (fun _ => 4) (return 0))
def execVmnot (vd vs2 : VReg) : State → Outcome := instr (vIssue (.vmnot vd vs2) false false (fun _ => 4) (return 0))
def execVslide (d : Bool) (vd vs1 : VReg) (s2 : S2) : State → Outcome :=
  instr (vIssue (.vslide d vd vs1 s2) d false (passesOf d) (s2Scalar s2))
def execVbcast (d : Bool) (vd vs1 : VReg) (s2 : S2) : State → Outcome :=
  instr (vIssue (.vbcast d vd vs1 s2) d false (passesOf d) (s2Scalar s2))

/-- `vmvxs` (R287): the scalar register is held by the scoreboard until it retires (R275). -/
def execVmvxs (d : Bool) (rd : XReg) (vs1 : VReg) : State → Outcome := instr (do
  let f ← vIssue (.vmvxs d rd vs1) d false (fun _ => 1) (return 0)
  updMe fun c => { c with sb := c.sb ||| (1#32 <<< rd.toNat) }
  return f)

def execVmvsx (d : Bool) (vd : VReg) (rs1 : XReg) : State → Outcome :=
  instr (vIssue (.vmvsx d vd rs1) d false (fun _ => 1) (rx rs1))
def execVredsum (d : Bool) (vd vs1 : VReg) (s2 : VS2) : State → Outcome := instr (vInt (.vredsum d vd vs1 s2) d s2)
def execVredmax (d : Bool) (vd vs1 : VReg) (s2 : VS2) : State → Outcome := instr (vInt (.vredmax d vd vs1 s2) d s2)
def execVredmin (d : Bool) (vd vs1 : VReg) (s2 : VS2) : State → Outcome := instr (vInt (.vredmin d vd vs1 s2) d s2)
def execVfadd (f : VFmt) (vd vs1 : VReg) (s2 : VS2) : State → Outcome := instr (vFlt (.vfadd f vd vs1 s2) f s2)
def execVfsub (f : VFmt) (vd vs1 : VReg) (s2 : VS2) : State → Outcome := instr (vFlt (.vfsub f vd vs1 s2) f s2)
def execVfmul (f : VFmt) (vd vs1 : VReg) (s2 : VS2) : State → Outcome := instr (vFlt (.vfmul f vd vs1 s2) f s2)
def execVfdiv (f : VFmt) (vd vs1 : VReg) (s2 : VS2) : State → Outcome := instr (vFlt (.vfdiv f vd vs1 s2) f s2)
def execVfsqrt (f : VFmt) (vd : VReg) (s2 : VS2) : State → Outcome := instr (vFlt (.vfsqrt f vd s2) f s2)
def execVfmin (f : VFmt) (vd vs1 : VReg) (s2 : VS2) : State → Outcome := instr (vPick (.vfmin f vd vs1 s2) f s2)
def execVfmax (f : VFmt) (vd vs1 : VReg) (s2 : VS2) : State → Outcome := instr (vPick (.vfmax f vd vs1 s2) f s2)
def execVfabs (f : VFmt) (vd : VReg) (s2 : VS2) : State → Outcome := instr (vPick (.vfabs f vd s2) f s2)
def execVfneg (f : VFmt) (vd : VReg) (s2 : VS2) : State → Outcome := instr (vPick (.vfneg f vd s2) f s2)
def execVfma (f : VFmt) (vd vs1 : VReg) (s2 : VS2) : State → Outcome := instr (vFlt (.vfma f vd vs1 s2) f s2)
def execVfms (f : VFmt) (vd vs1 : VReg) (s2 : VS2) : State → Outcome := instr (vFlt (.vfms f vd vs1 s2) f s2)
def execVfnma (f : VFmt) (vd vs1 : VReg) (s2 : VS2) : State → Outcome := instr (vFlt (.vfnma f vd vs1 s2) f s2)
def execVfcmp (cc : VFCond) (f : VFmt) (vd vs1 : VReg) (s2 : VS2) : State → Outcome := instr (vPick (.vfcmp cc f vd vs1 s2) f s2)
def execVfredsum (f : VFmt) (vd vs1 : VReg) (s2 : VS2) : State → Outcome := instr (vFlt (.vfredsum f vd vs1 s2) f s2)
def execVcvt (dst src : BitVec 3) (rtz : Bool) (vd vs1 : VReg) : State → Outcome :=
  instr (vIssue (.vcvt dst src rtz vd vs1) (cvtWide dst src) (cvtRounds dst src rtz) (passesOf (cvtWide dst src)) (return 0))

/-- R271: not queued. -/
def execVsetvl (d : Bool) (rd : XReg) (s2 : S2) : State → Outcome := instr (do
  agent (.vsetvl d rd s2) onCompute
  let req ← s2Val s2
  let n := min req.toNat (if d then 32 else 64)
  setCsr cVL (BitVec.ofNat 64 n)
  wx rd (BitVec.ofNat 64 n)
  return {})

/-! ### Vector memory (R277 to R279) -/

/-- A granule of another package is asked for at its bank (R97, R437); a die that does not answer is no cause yet (R428). -/
def vGran (va : Word) (x : Tgt) : M Unit := do
  let s ← get
  let id := s.dev.cur
  match x with
  | .cal pkg ca off =>
    if s.calHere pkg ca then pure ()
    else match ← askBank (.ctx id) (coreOf id) (s.tenOf (coreOf id)) pkg ca off { op := roCheck, len := 1 } with
      | some r => if r.status = 0 || r.status = CALDERA_LOST then pure () else raise r.status va
      | none => pure ()
  | _ => pure ()

/-- The elements of a list, each with whether it is the first in its 64 KiB block. -/
def firsts (vas : List Word) : List (Bool × Word) :=
  ((List.range vas.length).zip vas).map fun e => (!(vas.take e.1).any fun v => v.toNat / 65536 == e.2.toNat / 65536, e.2)

/-- Alignment, window, guard, peer presence and caldera granule of an element, the granule once (R278, R437). -/
def vCheck (use : Use) (n : Nat) (first : Bool) (va : Word) : M Unit := do
  aligned va n
  let s ← get
  if s.windowBad s.dev.cur va.toNat then raise POISON 0 else pure ()
  match s.window s.dev.cur use va.toNat n with
  | .error e => raise e va
  | .ok (some (.lm c o)) => tileOrder c o n
  | .ok (some _) => pure ()
  | .ok none =>
    if inCaldera va.toNat then
      match s.caldera (s.tenOf (coreOf s.dev.cur)) (va.toNat % 2 ^ 40) with
      | .ok (x, _) => if first then vGran va x else pure ()
      | .error e => raise e va
    else pure ()

/-- The leaf that resolves an element; a window or caldera address has none. Whether stage 2 maps it is found after queuing (R437). -/
def vLeaf (use : Use) (first : Bool) (va : Word) : M (Word × Word) := do
  let s ← get
  let id := s.dev.cur
  let core := coreOf id
  if !inGlobal va.toNat || inCaldera va.toNat then return (va, 0)
  else match s.heldLeaf core va.toNat use.akind (!(s.ctx id).sup) with
  | some l => return (va, l.leaf)
  | none => do
    let l ← xlate use.akind va
    let s ← get
    match s.route (s.tenOf core) l va.toNat with
    | .ok (x, _) => if first then vGran va x else pure ()
    | .error (e, none) => raise e va
    | .error (_, some _) => pure ()
    return (va, l)

/-- Issue of a vector memory instruction: every element is checked, then every element is translated, then it is queued; a store enters
behind what earlier tile instructions read (R104). -/
def vMem (i : Instr) (use : Use) (fmt : VMemFmt) (rs1 : XReg) (off : M (Nat → Word)) : M Fin := do
  let n ← vLen i fmt.wide
  if n = 0 then vQueue i 0 0 []
  else do
    let base ← rx rs1
    let o ← off
    let vas := (List.range n).map fun k => base + o k
    each (fun (e : Bool × Word) => vCheck use fmt.bytes e.1 e.2) (firsts vas)
    let els ← mapL (fun (e : Bool × Word) => vLeaf use e.1 e.2) (firsts vas)
    if use.writes then readAhead else pure ()
    vQueue i (passesOf fmt.wide n) 0 els
  return {}

def unitOff (fmt : VMemFmt) : M (Nat → Word) := return fun k => BitVec.ofNat 64 (fmt.bytes * k)

def strideOff (s2 : S2) : M (Nat → Word) := do
  let t ← s2Val s2
  return fun k => t * BitVec.ofNat 64 k

/-- The vector register that a queued instruction writes. -/
def vDest : Instr → Option VReg
  | .vld _ _ v _ | .vlds _ _ v _ _ | .vldx _ _ v _ _ => some v
  | .vst .. | .vsts .. | .vstx .. | .vmvxs .. => none
  | i => match vEffect ⟨fun _ => 0, 1, .rne, 0⟩ i with | .reg _ vd .. => some vd | _ => none

/-- Indices are read as every instruction ahead of this one left them: a queued one that writes their register is waited for, of any context
of the core (R275; log 37). -/
def indexOff (fmt : VMemFmt) (vi : VReg) : M (Nat → Word) := do
  let c ← myCore
  if c.vq.any fun e => e.vl != 0 && vDest e.instr == some vi then stall
  else if c.vpois.getLsbD vi.toNat then raise POISON 0
  else
    let v := (SMap.get (fun _ => (0 : BitVec 2048)) c.v vi.toNat).toNat
    return fun k => sext fmt.stride (lane v fmt.stride fmt.stride k)

def execVld (fmt : VMemFmt) (nu : BitVec 4) (v : VReg) (rs1 : XReg) : State → Outcome :=
  instr (vMem (.vld fmt nu v rs1) .vload fmt rs1 (unitOff fmt))
def execVlds (fmt : VMemFmt) (nu : BitVec 4) (v : VReg) (rs1 : XReg) (s2 : S2) : State → Outcome :=
  instr (vMem (.vlds fmt nu v rs1 s2) .vload fmt rs1 (strideOff s2))
def execVldx (fmt : VMemFmt) (nu : BitVec 4) (v : VReg) (rs1 : XReg) (vi : VReg) : State → Outcome :=
  instr (vMem (.vldx fmt nu v rs1 vi) .vload fmt rs1 (indexOff fmt vi))
def execVst (fmt : VMemFmt) (nu : BitVec 4) (v : VReg) (rs1 : XReg) : State → Outcome :=
  instr (vMem (.vst fmt nu v rs1) .vstore fmt rs1 (unitOff fmt))
def execVsts (fmt : VMemFmt) (nu : BitVec 4) (v : VReg) (rs1 : XReg) (s2 : S2) : State → Outcome :=
  instr (vMem (.vsts fmt nu v rs1 s2) .vstore fmt rs1 (strideOff s2))
def execVstx (fmt : VMemFmt) (nu : BitVec 4) (v : VReg) (rs1 : XReg) (vi : VReg) : State → Outcome :=
  instr (vMem (.vstx fmt nu v rs1 vi) .vstore fmt rs1 (indexOff fmt vi))

/-! ### Retirement (R275, R377) -/

/-- Scalar registers that queued `vmvxs` of a context have still to write. -/
def sbOf (q : List VEnt) (ctx : Nat) : BitVec 32 :=
  q.foldl (fun b e => match e.instr with
    | .vmvxs _ rd _ => if e.ctx = ctx && e.dest ≠ .passed then b ||| (1#32 <<< rd.toNat) else b
    | _ => b) 0

/-- Whether a later instruction has written the register of a `vmvxs` that retires (R287; log 47). -/
def VEnt.late (e : VEnt) (rd : XReg) (c : Ctx) : Bool :=
  match e.dest with
  | .ahead => false
  | .passed => true
  | .loading => !c.pend.any fun p => p.rd == rd

/-- The scoreboard of a context follows the queue. -/
def fixSb (core ctx : Nat) : M Unit := do
  let s ← get
  let b := sbOf (s.core core).vq ctx
  upd (.ctx ctx fun c => { c with sb := b })

/-- The head of a core's queue is no longer bound. -/
def unbindHead (core : Nat) : M Unit := upd (.cluster (core / 4) fun u => { u with bound := u.bound.erase (core % 4) })

/-- A cause met by the queue's head: it and the later instructions of its context are removed, and the context takes the cause in
front of its next instruction (R377); one of another kind that waits there arises again later (R297). -/
def vecCause (core : Nat) (e : VEnt) (code : BitVec 8) (val : Word) : M Unit := do
  upd (.core core fun c => { c with vq := c.vq.filter fun x => x.ctx != e.ctx })
  fixSb core e.ctx
  upd (.ctx e.ctx fun c => { c with due := some ((c.due.filter (·.vec)).getD { code := code, val := val, xpc0 := e.pc, vec := true }) })
  unbindHead core
  forget (.vec core)

/-- The head leaves the queue. -/
def vecPop (core : Nat) (e : VEnt) (trc : Bool) : M Unit := do
  upd (.core core fun c =>
    let c := { c with vq := c.vq.tail }
    if trc then c.csrBump cTRC (c.csrGet cTRC + 1) else c)
  fixSb core e.ctx
  unbindHead core
  forget (.vec core)

/-- The step of a core by its effective weight (R154); CLASS is the class of the running task (log 44). -/
def State.vecStep (s : State) (core : Nat) : Nat :=
  let w := max (bitsOf ((s.core core).csrGet cVSHARE).toNat 0 4) 1
  2 ^ 16 / (w * (4 - s.prioOf core))

/-- The position with the smallest pass count of a list, the lowest on a tie. -/
def leastPass (m : SMap Nat) : List Nat → Option Nat
  | [] => none
  | i :: r => match leastPass m r with
    | some j => if SMap.get (fun _ => 0) m j < SMap.get (fun _ => 0) m i then some j else some i
    | none => some i

/-- Queue heads bound to the free lane groups while there are any (R154): `passes` gives the passes of a position's head, 0 without one,
and `step` a core's step. At most four heads are bound. -/
def bindHeads (passes step : Nat → Nat) : Nat → Cluster → Cluster
  | 0, u => u
  | f + 1, u =>
    let free := (List.range 4).filter fun g => u.lanes.getD g 0 == 0
    let want := (List.range 4).filter fun i => decide (0 < passes i) && (SMap.find u.bound i).isNone
    match leastPass u.pass want with
    | none => u
    | some i =>
      if free.isEmpty then u
      else
        let k := min free.length (passes i)
        let c := (passes i + k - 1) / k
        let taken := free.take k
        bindHeads passes step f { u with
          lanes := (List.range 4).map fun g => if taken.contains g then c else u.lanes.getD g 0
          bound := SMap.put u.bound i c
          pass := SMap.set (fun _ => 0) u.pass i (SMap.get (fun _ => 0) u.pass i + k * c * step i) }

/-- One cycle of a cluster's arbiter (R154), after the cycle that has passed. -/
def State.arbitrate (s : State) (k : Nat) : Cluster :=
  let u := s.cluster k
  let q := fun (j : Nat) => (s.core (4 * k + j)).vq
  let heads := (List.range 4).filter fun j => !(q j).isEmpty
  let pass := fun (m : SMap Nat) (j : Nat) => SMap.get (fun _ => 0) m j
  let set := fun (m : SMap Nat) (j n : Nat) => SMap.set (fun _ => 0) m j n
  let joinIn := fun (m : SMap Nat) (j : Nat) =>
    let others := heads.filter (· != j)
    if heads.contains j && !u.hadHead.getLsbD j && !others.isEmpty then
      set m j (max (pass m j) ((others.map (pass m)).min?.getD 0))
    else m
  let u := { u with
    pass := (List.range 4).foldl joinIn u.pass
    lanes := u.lanes.map (· - 1)
    bound := (u.bound.filter fun e => heads.contains e.1).map fun e => (e.1, e.2 - 1)
    hadHead := heads.foldl (fun b j => b ||| (1#4 <<< j)) 0 }
  let u := bindHeads (fun j => ((q j).head?.map (·.passes)).getD 0) (fun j => s.vecStep (4 * k + j)) 4 u
  if heads.all fun j => decide (2 ^ 16 ≤ pass u.pass j) then
    { u with pass := (List.range 4).foldl (fun m j => set m j (pass m j - 2 ^ 16)) u.pass }
  else u

/-- Whether an arbiter's cycle could change anything although no queue of its cluster has a head. -/
def Cluster.arbiterBusy (u : Cluster) : Bool := !u.pass.isEmpty || u.hadHead != 0 || u.lanes.any (· != 0) || !u.bound.isEmpty

/-- The cycle of every cluster's arbiter. -/
def State.arbitrateAll (s : State) : State :=
  let queued := s.cores.filterMap fun e => if e.2.vq.isEmpty then none else some (e.1 / 4)
  let busy := s.clusters.filterMap fun e => if e.2.arbiterBusy then some e.1 else none
  (queued ++ busy).dedup.foldl (fun t k => t.setCluster k (s.arbitrate k)) s

/-- Whether the head of a core's queue may take its effect: it has no passes, or is in the last cycle of its binding (R154). -/
def State.vecReady (s : State) (core : Nat) (e : VEnt) : Bool :=
  e.passes == 0 || (SMap.find (s.cluster (core / 4)).bound (core % 4)).any (· ≤ 1)

/-- Elements written to a vector register; a register written whole loses its mark (R390). -/
def putVec (core : Nat) (vd : VReg) (stride : Nat) (els : List Nat) : M Unit :=
  if els.isEmpty then pure ()
  else upd (.core core fun c =>
    let old := (SMap.get (fun _ => (0 : BitVec 2048)) c.v vd.toNat).toNat
    { c with v := SMap.set (fun _ => (0 : BitVec 2048)) c.v vd.toNat (BitVec.ofNat 2048 (putLow stride old els)),
             vpois := if 2048 ≤ stride * els.length then c.vpois &&& ~~~(1#16 <<< vd.toNat) else c.vpois })

/-- The target of an element at its access, and the cause it may meet there. -/
def State.vecTgt (s : State) (core : Nat) (va leaf : Word) : Except (BitVec 8 × Option Nat) (Tgt × Bool) :=
  let t := s.tenOf core
  let off := va.toNat % 2 ^ 52
  if inGlobal va.toNat then
    if inCaldera va.toNat then (s.caldera t (va.toNat % 2 ^ 40)).mapError fun e => (e, none)
    else s.route t leaf va.toNat
  else if off < 0x100000 then .ok (.lm core off, false)
  else if 0x1000000 ≤ off then .ok (.device (off - 0x1000000), false)
  else .ok (.lm (core / 4 * 4 + (off - 0x100000) / 0x40000) (off % 0x40000), false)

/-- One element's access located, with the lock check in the cycle of the access, whose cause names the element (R117, R278, R377). -/
def vecAcc (core : Nat) (fail : Fail) (n : Nat) (wr : Bool) (e : Word × Word) : M Acc := do
  let s ← get
  match s.vecTgt core e.1 e.2 with
  | .error (c, g) => do
    let _ ← fail (match g with | some a => noteMiss (s.tenOf core) a | none => pure ()) c e.1
    stall
  | .ok (x, v) => do
    match x with
    | .lm c o =>
      match (s.core c).locked false o n wr with
      | some _ => do
        let _ ← fail (pure ()) RANGE_LOCK e.1
        pure ()
      | none => pure ()
    | _ => pure ()
    return ⟨e.1, x, e.2, v⟩

/-- The address that a cause of a queued access names: for a die lost while the access was in flight, the lowest of its elements there that
had no answer (R418). -/
def State.vecVal (s : State) (core : Nat) (e : VEnt) (code : BitVec 8) (va : Word) : Word :=
  let sent := s.dev.reqs.filter fun r => r.who == .vec core && r.pkt.kind.toNat == 9
  if code ≠ CALDERA_LOST || sent.isEmpty then va
  else
    let unanswered := e.els.filter fun x => match s.vecTgt core x.1 x.2 with
      | .ok (.cal pkg ca off, _) => s.calLost pkg ca &&
          !sent.any fun r => r.ans.isSome && r.pkt.addr.toNat == pkg * 2 ^ 36 + ca.toNat * 2 ^ 35 + off
      | _ => false
    ((unanswered.map (·.1.toNat)).min?.map (BitVec.ofNat 64)).getD va

/-- How a queued access reports a cause; `first` happens before it. -/
def vecFail (core : Nat) (e : VEnt) (first : M Unit) : Fail := fun keep code va => stop (do
  let s ← get
  keep
  first
  vecCause core e code (s.vecVal core e code va))

/-- The element accesses of a load, then its destination elements. -/
def vecLoad (core : Nat) (e : VEnt) (fmt : VMemFmt) (nu : BitVec 4) (vd : VReg) : M Unit := do
  let fail := vecFail core e (pure ())
  let b : By := ⟨.vec core, e.ctx, e.pc⟩
  let xs ← mapL (fun x => do
    let a ← vecAcc core fail fmt.bytes false x
    loadNat b fail a fmt.bytes nu.toNat) e.els
  putVec core vd fmt.stride xs

/-- One element of a store. -/
def vecPut (core : Nat) (e : VEnt) (fmt : VMemFmt) (nu : BitVec 4) (r : Nat) (fail : Fail) (x : Nat × (Word × Word)) : M Unit := do
  let a ← vecAcc core fail fmt.bytes true x.2
  storeAt ⟨.vec core, e.ctx, e.pc⟩ fail a fmt.bytes nu.toNat (BitVec.ofNat 64 (lane r fmt.stride (8 * fmt.bytes) x.1))

/-- What remains of a store that met a cause (R427: which elements had been performed is nominal): of the elements in this package
that meet no cause of their own, a free choice stays written (log 10). What a peer has served is written there. -/
def vecRemains (core : Nat) (e : VEnt) (fmt : VMemFmt) (nu : BitVec 4) (r : Nat) : M Unit := do
  let ix ← freeIx
  each (fun (x : Nat × (Word × Word)) => do
    let s ← get
    let away := match s.vecTgt core x.2.1 x.2.2 with
      | .ok (.peer _ _, _) => true
      | .ok (.cal pkg ca _, _) => !s.calHere pkg ca
      | _ => false
    if away || !Config.vecDone ix x.1 then pure ()
    else fun k => vecPut core e fmt nu r (fun _ _ _ _ => k ()) x k) ((List.range e.els.length).zip e.els)

/-- The element accesses of a store, in element order. -/
def vecStore (core : Nat) (e : VEnt) (fmt : VMemFmt) (nu : BitVec 4) (v : VReg) : M Unit := do
  let s ← get
  let r := (SMap.get (fun _ => (0 : BitVec 2048)) (s.core core).v v.toNat).toNat
  let fail := vecFail core e (vecRemains core e fmt nu r)
  if (s.core core).vpois.getLsbD v.toNat then stop (vecCause core e POISON 0)
  else each (vecPut core e fmt nu r fail) ((List.range e.els.length).zip e.els)

/-- VECTOR_RETIRE: the head of a core's queue takes its effect and leaves the queue (R275). -/
def execVectorRetire (core : Nat) : State → Outcome := event (do
  let s ← get
  match (s.core core).vq with
  | [] => stall
  | e :: _ =>
    if !s.vecReady core e then stall
    else if e.vl = 0 then vecPop core e (isVmem e.instr)
    else do
      let x : VIn := ⟨fun r => (SMap.get (fun _ => (0 : BitVec 2048)) (s.core core).v r.toNat).toNat, e.vl, RMode.of e.frm, e.s2v⟩
      let bad := fun (l : List VReg) => l.any fun r => (s.core core).vpois.getLsbD r.toNat
      match vEffect x e.instr with
      | .reg reads vd stride els fl =>
        if bad reads then vecCause core e POISON 0
        else do
          putVec core vd stride els
          orFlags e.ctx fl
          vecPop core e false
      | .scalar reads rd v =>
        if bad reads then vecCause core e POISON 0
        else do
          upd (.ctx e.ctx fun c => if e.late rd c then c else c.wr rd v)
          vecPop core e false
      | .cause reads code val => vecCause core e (if bad reads then POISON else code) (if bad reads then 0 else val)
      | .memory => do
        match e.instr with
        | .vld fmt nu v _ => vecLoad core e fmt nu v
        | .vlds fmt nu v _ _ => vecLoad core e fmt nu v
        | .vldx fmt nu v _ _ => vecLoad core e fmt nu v
        | .vst fmt nu v _ => vecStore core e fmt nu v
        | .vsts fmt nu v _ _ => vecStore core e fmt nu v
        | .vstx fmt nu v _ _ => vecStore core e fmt nu v
        | _ => pure ()
        vecPop core e true)

end Sys2Proof.Machine
end

