-- ==== Sys2Proof/Machine/Chip.lean ====
section
/-!
DEFINITION. What the package does by itself: superstep boundaries and completion (R28, R46, R47), quiescence and the resolution of
start-up cycles (R48, R49, R135, R136, R369), slice timers, meters and watchdogs (R151, R155, R370), interrupts (R43, R204),
patrol reads (R384, R385, R399), recalls (R80), and the counters that time drives.
-/

namespace Sys2Proof.Machine

open M

/-! ### Partitions at work -/

/-- Whether a component of a partition runs, its tenant not being paused. -/
def Part.live (q : Part) : Bool := q.st == .running || q.st == .draining
def State.liveP (s : State) (p : Nat) : Bool := (s.part p).live && !s.pausedTen (((s.part p).ten).getD 0)

/-- The vent cores that run a task of a partition. -/
def State.ventsFor (s : State) (p : Nat) : List Nat :=
  s.cores.filterMap fun e => if isVent e.1 && e.2.task.any (fun k => k.pnode == p) then some e.1 else none

/-- The contexts of a partition's cores, and the cores themselves with a task. -/
def State.ctxsFor (s : State) (p : Nat) : List Nat := (s.nodeCores p).flatMap ctxsOf
def State.tasked (s : State) (p : Nat) : Bool := (s.nodeCores p).any (fun c => (s.core c).task.isSome) || !(s.ventsFor p).isEmpty

/-- Whether a context is READY or PARKED; one that is STOPPED counts as READY (R209). -/
def State.busyCtx (s : State) (id : Nat) : Bool := [Run.ready, Run.parked, Run.stopped].contains (s.ctx id).run

/-- Whether a QUEUED record of a partition is on a deque, or one is being placed. -/
def State.queued (s : State) (p : Nat) : Bool :=
  !(s.part p).placing.isEmpty || s.cores.any fun e => e.2.deque.any fun r => r.pnode == p

/-- Whether a request is a `stv` or `ldv` that waits at the bank of another package: it has been received there, and no answer has come. Such a
wait is one on a version and costs no traffic until it is answered (R339). -/
def State.atBank (s : State) (r : Req) : Bool :=
  let op := (ROp.parse r.pkt.payload).op
  let same := fun (p : Packet) => p.kind == r.pkt.kind && p.tag == r.pkt.tag && p.dpkg == r.pkt.dpkg
  r.pkt.kind.toNat == 9 && (op == roLdv || op == roStv) &&
  !(s.dev.links.any fun e => e.2.unacked.any same || e.2.unsent.any same) &&
  !(s.dev.inq.any fun p => p.kind.toNat == 10 && p.tag == r.pkt.tag && p.spkg == r.pkt.dpkg)

/-- Whether a request is a partition's; one that its requester has left, a write-back included, is that of every partition of its tenant. -/
def State.reqOf (s : State) (p : Nat) (r : Req) : Bool :=
  if r.who == .left then (s.part p).ten == some r.pkt.ten.toNat else s.partOfWho r.who == some p

/-- Whether a packet is a group barrier's of a partition (R231), which is answered by none. -/
def barrierOf (p : Nat) (x : Packet) : Bool := x.kind.toNat == 11 && x.addr.toNat % 2 ^ 11 == p

/-- Whether fabric traffic of a partition is in flight: a request not yet answered, or a barrier packet not yet received. -/
def State.inFlight (s : State) (p : Nat) : Bool :=
  (s.dev.reqs.any fun r => r.ans.isNone && !r.lost && s.reqOf p r && !s.atBank r) ||
  (s.dev.links.any fun e => e.2.unacked.any (barrierOf p) || e.2.unsent.any (barrierOf p)) || s.dev.inq.any (barrierOf p)

/-! ### Boundaries and completion (R28, R46, R47) -/

/-- The component is complete (R28). DESIGN CHOICE (log 47): a READY or STOPPED context that runs no task (a handler taken on an IDLE control
context) holds it off, like a PARKED one; R28 names tasks and PARKED contexts only. -/
def State.complete (s : State) (p : Nat) : Bool :=
  (s.part p).pool.isEmpty && !s.queued p && !s.tasked p && !(s.ctxsFor p).any s.busyCtx

/-- Whether the message that a context has sent and that is held can enter its destination's queue (R235). -/
def State.canDeliver (s : State) (id : Nat) : Bool := match (s.ctx id).slot with | some m => s.accepts m.2 | none => false

/-- The boundary is reached (R46, R155). Mail that can be delivered, and a request of a port's unit, are traffic. -/
def State.boundary (s : State) (p : Nat) : Bool :=
  let q := s.part p
  (q.armed || q.st == .draining) && !s.tasked p && !(s.ctxsFor p).any s.busyCtx && !s.queued p &&
  ((s.nodeCores p).all fun c => (s.ctx (ctxId c 0)).run == .idle) && !s.inFlight p && !s.vented (s.nodeCores p) &&
  !((s.ctxsFor p).any s.canDeliver) && ((s.part p).mbq.isEmpty || 64 ≤ (s.part p).mailbox.length)

/-- What a boundary does whatever follows it: SSNUM, the interval number, the chain requests, the disarming. -/
def boundaryStep (p : Nat) : M Unit := do
  let s ← get
  each (fun c => upd (.core c fun k => k.csrBump cSSNUM (k.csrGet cSSNUM + 1))) (s.nodeCores p)
  setPartM p fun q => { q with intv := q.intv + 1, armed := false, wd := 0 }
  applyChains p

/-- A partition enters SAVED: its caches are written back. What is saved stays in its place in this model (log 18). -/
def savePart (p : Nat) : M Unit := do
  let s ← get
  each (fun c => do
    flushLines c (fun _ => true) true
    upd (.core c fun k => { k with fresh := 0 })) (s.nodeCores p)
  setPartM p fun q => { q with st := .saved }

/-- SUPERSTEP_BOUNDARY: the boundary of a partition, or the completion of its component, which prevails. -/
def execSuperstepBoundary (p : Nat) : State → Outcome := event (do
  let s ← get
  let b := s.boundary p
  if !s.liveP p || !(b || s.complete p) then stall
  else do
    if b then boundaryStep p else pure ()
    if s.complete p then do
      setPartM p Part.unbound
      freeIdlePorts
    else if (s.part p).st == .draining then savePart p
    else do
      setPartM p fun q => { q with held := [] }
      let s' ← get
      each (placeHeld (s'.tabOf (.eng (10000 + p)) p)) (s.part p).held
      forget (.eng (10000 + p)))

/-! ### Coupling sets (R28, R48) -/

/-- One round of the closure: the partitions that share a loaded port with one of a list. -/
def State.coupled (s : State) (ps : List Nat) : List Nat :=
  s.ports.foldl (fun m e => match e.2.ld with
    | some q =>
      let a := pSPNODE q.img
      let b := pRPNODE q.img
      if m.contains a || m.contains b then nsInsert a (nsInsert b m) else m
    | none => m) ps

def closure (f : List Nat → List Nat) : Nat → List Nat → List Nat
  | 0, ps => ps
  | n + 1, ps => closure f n (f ps)

/-- The coupling set of a partition. -/
def State.couplingSet (s : State) (p : Nat) : List Nat := closure s.coupled s.ports.length [p]

/-- The parked contexts of a set with their waits. -/
def State.waitsOf (s : State) (ps : List Nat) : List Wait :=
  (ps.flatMap fun p => s.ctxsFor p).filterMap fun id => if (s.ctx id).run == .parked then (s.ctx id).wait else none

/-- Whether a wait counts for the all-parked line: not one on a helper, on another package or on the rewrite window (R48). -/
def Wait.counts (w : Wait) : Bool :=
  match w.cls with
  | .helper | .link | .room => false
  | _ => true

/-- Whether a core drives its all-parked line, or is IDLE (R48); a STOPPED context counts as READY (R209). -/
def State.quietCore (s : State) (c : Nat) : Bool :=
  let ids := ctxsOf c
  let waits := ids.filterMap fun id => if (s.ctx id).run == .parked then (s.ctx id).wait else none
  !(ids.any fun id => (s.ctx id).run == .ready || (s.ctx id).run == .stopped) &&
  (waits.any Wait.counts || ((s.ctx (ctxId c 0)).run == .idle && waits.isEmpty)) && !s.irqReady c

/-- Whether a record of a partition is WAITING (R32); none is QUEUED. -/
def State.waiting (s : State) (p : Nat) : Bool := decide ((s.part p).held.length < (s.part p).pool.length)

/-- Whether traffic within the package can still move: a held message that its destination accepts, or mail for a mailbox with room.
The DEADLOCK message that a report posts does not end the quiescence it reports (R369). -/
def State.moving (s : State) (p : Nat) : Bool :=
  (s.ctxsFor p).any s.canDeliver ||
  ((s.part p).mbq.any (fun m => m.payload.headD 0 != 5) && decide ((s.part p).mailbox.length < 64))

/-- Whether a port's unit still has something to do: a publication that is due, or a reclaim that waits for no reply (R132, R136). -/
def PortLd.working (q : PortLd) : Bool := q.ready || (q.owes && q.asked.isNone)

/-- Quiescence of a set (R48); a set with a partition that is DRAINING or SAVED, or paused, is not judged (R136, R371, R372). No wait for a
mailbox reply is one on the host, which has no way to reply: only a record in the post window arms a host wake (log 45). -/
def State.quiescent (s : State) (ps : List Nat) : Bool :=
  let t := ((s.part (ps.headD 0)).ten).getD 0
  (ps.all fun p => (s.part p).st != .draining && (s.part p).st != .saved && !s.queued p && !s.moving p && (s.ventsFor p).isEmpty &&
    (s.nodeCores p).all s.quietCore) &&
  (ps.any fun p => (s.part p).st == .running) && !s.pausedTen t && !ps.any s.inFlight && (s.vf t).pwin.isEmpty &&
  !((s.vf t).arrived.any fun o => match o with | .record .. => true | _ => false) &&
  (!(s.waitsOf ps).isEmpty || ps.any s.waiting) && !s.vented (ps.flatMap s.nodeCores) &&
  !(s.dev.vops.any fun o => ps.contains o.pnode && o.done.isNone) &&
  !(s.ports.any fun e => match e.2.ld with
    | some q => (ps.contains (pSPNODE q.img) || ps.contains (pRPNODE q.img)) && q.working
    | none => false)

/-! ### Resolution of cycles (R135, R136, R369) -/

/-- A wait record on a port: an edge of the wait graph with its port and whether it is a PGET, or none for SLICES. -/
structure Edge where
  src : Nat
  dst : Nat
  port : Nat
  get : Bool
  deriving DecidableEq, Repr

/-- The record of a wait: none when it is not on a port, `some none` when it makes no edge (R135). A `pclose` has a record of kind DEPTH while
the port's versions are full, and else, waiting for its slice to reopen, one of kind SLICES, as a `pput` to a closed slice has (log 45). -/
def State.edgeOf (s : State) (w : Wait) : Option (Option Edge) :=
  let img := fun (p : Nat) => ((s.port p).ld.map PortLd.img).getD 0
  match w.cls with
  | .pget p _ => some (some ⟨pRPNODE (img p), pSPNODE (img p), p, true⟩)
  | .pclose p =>
    match (s.port p).ld with
    | some q => some (if pDEPTH q.img ≤ q.live then some ⟨pSPNODE q.img, pRPNODE q.img, p, false⟩ else none)
    | none => some none
  | .pput _ => some none
  | _ => none

/-- The nodes reached from a list by edges. -/
def reach (es : List Edge) (ns : List Nat) : List Nat :=
  es.foldl (fun m e => if m.contains e.src then nsInsert e.dst m else m) ns

/-- Whether an edge lies on a cycle. -/
def onCycle (es : List Edge) (e : Edge) : Bool := (closure (reach es) es.length [e.dst]).contains e.src

/-- What ResolveCycle decides: a port whose seed is published, or a deadlock with its REASON and lowest port. -/
inductive Verdict where
  | seed (p : Nat)
  | dead (reason port : Nat)
  deriving DecidableEq, Repr

/-- The edges of the wait graph of a set (R135), and the lowest port that labels one. -/
def State.edgesOf (s : State) (ps : List Nat) : List Edge := (s.waitsOf ps).filterMap fun w => (s.edgeOf w).bind id
def State.lowPort (s : State) (ps : List Nat) : Nat := (((s.edgesOf ps).map (·.port)).min?).getD 0x3FF

def State.resolve (s : State) (ps : List Nat) : Verdict :=
  let ws := (s.waitsOf ps).map s.edgeOf
  let es := s.edgesOf ps
  let low := s.lowPort ps
  let cand := (es.filter fun e => e.get && onCycle es e && match (s.port e.port).ld with
    | some q => pSEED q.img && q.nextv == 0
    | none => false).map (·.port)
  if ws.isEmpty then .dead 4 low
  else if ws.any (·.isNone) then .dead 1 low
  else match cand.min? with
    | some p => .seed p
    | none => .dead (if es.any (onCycle es) then 0 else 2) low

/-- The DEADLOCK message of a set to the service core of one of its partitions (R369). -/
def tellDeadlock (ps : List Nat) (reason port p : Nat) : M Unit := do
  let s ← get
  tellNobody p (s.serviceOf p)
    { kind := .deadlock, code := DEADLOCK.toNat, addr := BitVec.ofNat 64 ((ps.min?).getD 0 + ps.length % 256 * 2 ^ 16),
      pc := BitVec.ofNat 64 (s.waitsOf ps).length, aux := BitVec.ofNat 64 (reason + port * 2 ^ 16) }

/-- QUIESCENCE_DETECTED: resolution, or the report, once for each time the set becomes quiescent. A seed that another package has a part in
is copied by the port unit, with every port operation of the tenant held back until it is there. -/
def execQuiescenceDetected (p : Nat) : State → Outcome := event (do
  let s ← get
  let ps := s.couplingSet p
  if !s.quiescent ps || ps.any fun q => (s.part q).dead then stall
  else match s.resolve ps with
  | .seed n =>
    match (s.port n).ld with
    | some q =>
      if q.asked.isSome || s.seeding (pTEN q.img) then stall
      else if s.seedFar q then updLd n fun q => { q with seeding := true }
      else publishSeed n q
    | none => stall
  | .dead reason port => do
    each (fun q => do
      tellDeadlock ps reason port q
      setPartM q fun x => { x with dead := true }) ps)

/-! ### Timers and meters (R151, R155, R348, R370) -/

/-- SLICE_TIMER_EXPIRY. -/
def execSliceTimerExpiry (p : Nat) : State → Outcome := event (do
  let s ← get
  let q := s.part p
  if q.st == .running && s.liveP p && q.slice ≠ 0 && q.sliceLeft = 0 then do
    setPartM p fun q => { q with st := .draining, wd := 0 }
    each (fun c => upd (.core c fun k => if k.task.isSome then { k with sliceInt := true } else k)) (s.nodeCores p)
  else stall)

/-- The budget is exhausted: the class drops, and the budget begins anew (R151). -/
def exhaust (p : Nat) : M Unit := do
  let s ← get
  let full := 1000 * (s.part p).ebudget
  setPartM p fun q => { q with erem := full }
  each (fun c => upd (.core c fun k =>
    let cl := (k.csrGet cPRIO).toNat % 4
    (k.csrSet cPRIO (BitVec.ofNat 64 (min 3 (cl + 1)))).csrSet cENERGY (BitVec.ofNat 64 full))) (s.nodeCores p)

def execEnergyBudgetExhausted (p : Nat) : State → Outcome := event (do
  let s ← get
  let q := s.part p
  if q.live && q.ebudget ≠ 0 && q.erem = 0 then exhaust p else stall)

/-- ENERGY_METER_UPDATE: every µs of TIME; what the activity has cost is nominal (log 7). -/
def execEnergyMeterUpdate (p : Nat) : State → Outcome := event (do
  let s ← get
  let q := s.part p
  if !s.liveP p || q.ebudget = 0 || q.meter < 1000 then stall
  else do
    let k ← freeIx
    let left := q.erem - Config.energyCost k
    setPartM p fun q => { q with erem := left, meter := q.meter - 1000 }
    each (fun c => upd (.core c fun x => x.csrSet cENERGY (BitVec.ofNat 64 left))) (s.nodeCores p)
    if left = 0 then exhaust p else pure ())

/-- The watchdog limit of a partition's tenant in cycles; 0 disables. -/
def State.wdLimit (s : State) (p : Nat) : Nat := (s.vf (((s.part p).ten).getD 0)).wdlim.toNat * 2 ^ 20

/-- WATCHDOG_EXPIRY. -/
def execWatchdogExpiry (p : Nat) : State → Outcome := event (do
  let s ← get
  let t := ((s.part p).ten).getD 0
  if s.liveP p && s.wdLimit p ≠ 0 && s.wdLimit p ≤ (s.part p).wd then do
    upd (.vf t fun v => { v with wdcount := v.wdcount + 1, wdpnode := BitVec.ofNat 11 p })
    tellDeadlock (s.couplingSet p) 3 (s.lowPort (s.couplingSet p)) p
    sendMsix PF 0
    setPartM p fun q => { q with wd := 0 }
  else stall)

/-- MPC_HALVING (R89): every 2^20 ticks of SCLK. -/
def execMpcHalving (n : Nat) : State → Outcome := event (do
  let s ← get
  let c := s.cache n
  if c.halved < c.sclk / 2 ^ 20 then
    upd (.cache n fun c => { c.mpc.foldl (fun (c : Cache) e => c.setMpc e.1 (e.2 / 2)) c with halved := c.halved + 1 })
  else stall)

/-- PWRMEAS_REFRESH: every ms; the value is nominal (log 7). -/
def execPwrmeasRefresh : State → Outcome := event (do
  let s ← get
  if s.dev.pwrAge < 1000000 then stall
  else do
    let k ← freeIx
    upd (.dev fun d => { d with pwr := Config.pwrMeas k, pwrAge := 0 }))

/-- THERMAL_SHUTDOWN (R355): the module stops, and the host sees a device reset. -/
def execThermalShutdown : State → Outcome := event (do
  let s ← get
  resetPackage s.pres
  upd (.dev fun d => { d with stopped := true }))

/-! ### Interrupts (R43, R204, R297) -/

/-- INTERRUPT_TAKEN: the lowest pending source, when the control context can take it; its tile instructions retire first. -/
def execInterruptTaken (core : Nat) : State → Outcome := event (do
  let s ← get
  match s.irq core, s.irqReady core with
  | some n, true =>
    if (s.core core).tilesPending then upd (.core core (Core.flush false))
    else do
      let id := ctxId core 0
      let idle := (s.ctx id).run == .idle
      upd (.ctx id (Ctx.trap false { code := INTERRUPT, isrc := n, idle := idle }))
      upd (.dev (Dev.forget (· == .ctx id)))
      upd (.core core fun k => { k with sliceInt := k.sliceInt && n != 2, hostInt := k.hostInt && n != 3 })
  | _, _ => stall)

/-! ### Patrol reads and recalls (R80, R384, R385, R399, R400) -/

/-- The location by which a patrol read names word w of a line that an L2 slice holds, by its key; and a word that the PLC of a die holds. -/
def l2Loc (n key w : Nat) : Nat := 6 * 2 ^ 60 + (n * 2 ^ 15 + key) * 64 + 8 * w
def plcWord (die loc : Nat) : Nat := (8 + die) * 2 ^ 60 + loc % 2 ^ 60

/-- The place that a patrol read of a location reads (R399): a channel's HBM, a caldera bank, a PLC, or an L2 slice. -/
def patrolled (loc : Nat) : Option Upset :=
  if loc < 4 * 6144 * 2 ^ 25 || (4 * 2 ^ 60 ≤ loc && loc < 4 * 2 ^ 60 + 2 ^ 32) then some (.word loc)
  else if 8 * 2 ^ 60 ≤ loc && loc < 12 * 2 ^ 60 then some (.plc (loc / 2 ^ 60 - 8) (5 * 2 ^ 60 + loc % 2 ^ 60))
  else if 6 * 2 ^ 60 ≤ loc && loc < 7 * 2 ^ 60 then
    let k := (loc - 6 * 2 ^ 60) / 64
    some (.l2 (k / 2 ^ 15) (k % 2 ^ 15) (loc / 8 % 8))
  else none

/-- The die of R400 on which a protected place lies; none is no place of the package. -/
def State.upsetDie (s : State) : Upset → Option Nat
  | .word loc =>
    if loc < 4 * 6144 * 2 ^ 25 then (if s.blockPresent (loc / 2 ^ 25) then some (blockDie (loc / 2 ^ 25)) else none)
    else if loc < 2 * 2 ^ 60 then none
    else if loc < 3 * 2 ^ 60 then
      let c := (loc - 2 * 2 ^ 60) / 2 ^ 18
      if c < 4480 && loc % 2 ^ 18 < (if isVent c then Config.ventLmBytes else Config.lmBytes) then some (dieOf c) else none
    else if loc < 4 * 2 ^ 60 then
      let c := (loc - 3 * 2 ^ 60) / 2 ^ 21
      if c < 4096 then some (dieOf c) else none
    else if loc < 4 * 2 ^ 60 + 2 ^ 31 then some 4
    else if loc < 4 * 2 ^ 60 + 2 ^ 32 then (if (s.cal true).lost then none else some 5)
    else none
  | .version loc v =>
    if (s.vword loc).live.all fun e => e.1 != v then none
    else if loc < 4 * 6144 * 2 ^ 25 then some (blockDie (loc / 2 ^ 25))
    else if loc < 4 * 2 ^ 60 + 2 ^ 31 then some 4 else some 5
  | .plc d loc =>
    if d < 4 && 5 * 2 ^ 60 ≤ loc && loc < 6 * 2 ^ 60 && (s.stateIn (loc / 64) (s.plcHolder d)).isSome then some d else none
  | .l1 c k _ => (SMap.find (s.core c).l1 k).map fun _ => dieOf c
  | .sector c k _ => (SMap.find (s.core c).sect k).map fun _ => dieOf c
  | .l2 n k _ => if n < 384 then (SMap.find (s.cache n).lines k).map fun _ => n / 96 else none
  | .acc p _ => (s.port p).ld.map fun _ => p / 256
  | .dir line => if (s.holders line).isEmpty || 2 ^ 60 ≤ line * 64 then none else some (blockDie (line * 64 / 2 ^ 25))
  | .scalar id r => if r != 0 && ctxOf id < ctxCount (coreOf id) && coreOf id < 4480 then some (dieOf (coreOf id)) else none
  | .ctxCsr id _ => if ctxOf id < ctxCount (coreOf id) && coreOf id < 4480 then some (dieOf (coreOf id)) else none
  | .coreCsr c _ => if c < 4480 then some (dieOf c) else none
  | .vector c _ | .tile c _ => if c < 4096 then some (dieOf c) else none

/-- An error in word w of a holder's copy of a line: a copy equal to its home value is discarded, to be fetched again; the word of an M
copy is poisoned, and so are the partials of a U copy (R385, R389). -/
def strikeCopy (h line w : Nat) : M Unit := do
  let s ← get
  match s.stateIn line h with
  | some .m => upd (.poison (line * 64 + 8 * w))
  | some (.u ps) => setHolder line h (some (.u (ps.map fun p => if p.off / 8 = w then { p with pois := true } else p)))
  | _ => leaveLine h line

/-- Whether a holder has a line in M, so that what its home has of it is stale; and whether a core of this package has. -/
def State.modified (s : State) (line : Nat) : Bool := (s.holders line).any fun e => e.2 == .m
def State.coreModified (s : State) (line : Nat) : Bool := (s.holders line).any fun e => s.isOwn e.1 && e.1 % 8192 < 4096 && e.2 == .m

/-- A word of home memory poisoned, with the versions that are live there: which of them share a code word is not given, and all are taken to
(DESIGN CHOICE, log 47). -/
def strikeWord (w : Nat) : M Unit := do
  let s ← get
  upd (.poison w)
  if (s.vword (w / 8 * 8)).live.isEmpty then pure () else upd (.tarnish (w / 8 * 8) none)

/-- An uncorrectable error (R384, R385, R390, R406): the words of its unit are poisoned in the only valid copy, a copy equal to its home
value is dropped, and one that a newer copy will replace is left. A directory entry that is lost takes every copy with it, and with it what
only a copy had (log 45). -/
def strike (u : Upset) : M Unit := do
  let s ← get
  match u with
  | .word loc =>
    if loc < 2 ^ 60 then
      if s.modified (loc / 64) || (s.cache (s.channel loc)).lines.any fun e => e.2.tag == loc / 64 && e.2.dirty then pure ()
      else each (fun k => strikeWord (loc / 32 * 32 + 8 * k)) (List.range 4)
    else strikeWord loc
  | .version loc v => upd (.tarnish loc (some v))
  | .plc d loc =>
    if s.stateIn (loc / 64) (s.plcHolder d) = some .m then
      if s.coreModified (loc / 64) then pure () else upd (.poison loc)
    else do
      leavePlc d (loc / 64) (plcTen loc) 3
      dropCopies (s.plcHolder d) (loc / 64)
  | .l1 c k w => match SMap.find (s.core c).l1 k with
    | some l => strikeCopy (s.coreHolder c) (l.loc / 64) w
    | none => pure ()
  | .sector c k w => match SMap.find (s.core c).sect k with
    | some l => strikeCopy (s.coreHolder c) (l.loc / 64) w
    | none => pure ()
  | .l2 n k w => match SMap.find (s.cache n).lines k with
    | some l =>
      if !l.dirty then upd (.cache n fun c => c.leave k)
      else if s.modified l.tag then pure ()
      else upd (.poison (l.tag * 64 + 8 * w))
    | none => pure ()
  | .acc p c => upd (.port p fun q => { q with ld := q.ld.map fun d => { d with accPois := nsInsert c d.accPois } })
  | .dir line => do
    let only := (s.holders line).any fun e => match e.2 with | .m | .u _ => true | _ => false
    each (fun (e : Nat × LSt) => do dropCopies e.1 line; setHolder line e.1 none) (s.holders line)
    if only then each (fun k => upd (.poison (line * 64 + 8 * k))) (List.range 8) else pure ()
  | .scalar id r => upd (.ctx id fun c => { c with xpois := c.xpois ||| (1#32 <<< r.toNat) })
  | .ctxCsr id n => upd (.ctx id fun c => { c with cpois := nsInsert n c.cpois })
  | .coreCsr c n => upd (.core c fun k => { k with cpois := nsInsert n k.cpois })
  | .vector c r => upd (.core c fun k => { k with vpois := k.vpois ||| (1#16 <<< r.toNat) })
  | .tile c r => upd (.core c fun k => { k with tpois := k.tpois ||| (1#4 <<< r.toNat) })

def bump (m : SMap (BitVec 32)) (i : Nat) : SMap (BitVec 32) := SMap.set (fun _ => 0) m i (SMap.get (fun _ => 0) m i + 1)

/-- An uncorrectable error arises and is detected: counted for its die, with MSI-X vector 2 of the physical function (R400). -/
def struck (u : Upset) : M Unit := do
  let s ← get
  match s.upsetDie u with
  | none => stall
  | some die => do
    strike u
    upd (.dev fun d => { d with ue := bump d.ue die })
    sendMsix PF 2

/-- A corrected error of a protected place is counted for its die (R384, R400). -/
def mended (u : Upset) : M Unit := do
  let s ← get
  match s.upsetDie u with
  | none => stall
  | some die => upd (.dev fun d => { d with ce := bump d.ce die })

/-- PATROL_SCRUB: what a patrol read of a location finds (R399). -/
def execPatrolScrub (loc : Nat) (found : PatrolResult) : State → Outcome := event (
  match patrolled loc with
  | none => stall
  | some u =>
    match found with
    | .good => pure ()
    | .corrected => mended u
    | .uncorrectable => struck u)

/-- The engine of the home directory. -/
def dirWho : Who := .eng 390000

/-- DIRECTORY_RECALL: the directory takes a line back from a holder. -/
def execDirectoryRecall (line holder : Nat) : State → Outcome := event (do
  let s ← get
  if (s.stateIn line holder).isNone then stall
  else if s.isOwnPlc holder then do
    leavePlc (holder % 8192 - 4096) line (plcTen (line * 64)) 3
    dropCopies holder line
  else if s.isOwn holder then leaveLine holder line
  else do
    probePeer dirWho line holder 1
    forget dirWho)

/-! ### Instructions that are none (R361, R387, R429) -/

/-- RESERVED_ENCODING: ILLEGAL_INSN of the word that the executing context has fetched. -/
def execReservedEncoding (word : BitVec 32) : State → Outcome := instr (raise ILLEGAL_INSN (word.setWidth 64))

/-- The engine that fetches for a context. -/
def fetchWho (id : Nat) : Who := .eng (400000 + id)

/-- A fetch that cannot be performed. -/
def fetchFail {α : Type} (pc : Word) : EFail → M α
  | .cause c => raise c pc
  | .miss g => do
    let s ← get
    raiseMiss (s.tenOf (coreOf s.dev.cur)) g pc
  | _ => raise POISON pc

/-- The fetch of the word at pc by the executing context (R93, R163, R361, R441): the word is noted in the device's fetch register. A
fetch looks no L2 tags up (R88; log 44). -/
def fetchWord : M Unit := do
  let s ← get
  let id := s.dev.cur
  let core := coreOf id
  let t := s.tenOf core
  let pc := (s.ctx id).pc
  let va := pc.toNat
  if va % 4 ≠ 0 then raise MISALIGNED pc
  else if !inGlobal va then raise ILLEGAL_OPERAND pc
  else do
    let (x, ver) ← (if inCaldera va then (do
        match s.caldera t (va % 2 ^ 40) with
        | .ok r => return r
        | .error e => raise e pc)
      else do
        let l ← xlate .fetch pc
        let a ← routeMe l pc
        return (a.tgt, a.ver))
    match ← readTgt (fetchWho id) core t va x ver 4 with
    | .error e => fetchFail pc e
    | .ok v => do
      upd (.dev fun d => { d with word := some (BitVec.ofNat 32 v) })
      forget (fetchWho id)

/-- FETCH_FAULT: the fetch of the executing context is not performed; it takes the cause or posts the request (R361). -/
def execFetchFault : State → Outcome := event (do
  fetchWord
  stall)

/-! ### Time -/

/-- Whether a context of a partition is throttled: its vector instruction heads its queue unbound while another core of the cluster holds
lane groups. No request waits for one of a better class in this model (R370; log 2). -/
def State.throttled (s : State) (p : Nat) : Bool := s.cores.any fun e =>
  let u := s.cluster (e.1 / 4)
  !e.2.vq.isEmpty && (SMap.find u.bound (e.1 % 4)).isNone && u.bound.any (fun b => b.1 != e.1 % 4) && u.lanes.any (· != 0) &&
  s.pnodeOf e.1 == p

/-- The counters of a partition after a cycle; `unit` tells whether REF has risen (R151, R155, R370). -/
def State.tickPart (s : State) (unit : Bool) (e : Nat × Part) : Nat × Part :=
  let q := e.2
  if !q.live || s.pausedTen (q.ten.getD 0) then e
  else (e.1, { q with wd := if s.wdLimit e.1 = 0 then 0 else if s.throttled e.1 then q.wd else q.wd + 1,
                      sliceLeft := if unit && q.st == .running then q.sliceLeft - 1 else q.sliceLeft,
                      meter := if unit && q.ebudget != 0 then q.meter + 1 else q.meter })

/-- One cycle of 2.7 GHz: CYCLE rises by one, and REF by one in every 2.7 cycles (R2, R350); the vector arbiters bind queue heads (R154). -/
def State.tick (s0 : State) : State :=
  let s := s0.arbitrateAll
  let ph := s.refPh + 10
  let unit := decide (27 ≤ ph)
  { s with
    cycle := s.cycle + 1
    ref := if unit then s.ref + 1 else s.ref
    refPh := if unit then ph - 27 else ph
    parts := s.parts.map (s.tickPart unit)
    dev := { s.dev with pwrAge := if unit then s.dev.pwrAge + 1 else s.dev.pwrAge } }

end Sys2Proof.Machine
end

