-- ==== Sys2Proof/Machine/Control.lean ====
section
/-!
DEFINITION. Branches and jumps (R196, R197).
-/

namespace Sys2Proof.Machine

open M

/-- A conditional branch: taken when the condition holds; `.a` annuls both entries behind it when not taken (R196). -/
def branch (f : Word → Word → Bool) (annul : Bool) (rs1 : XReg) (s2 : S2) (off : BitVec 9) : M Fin := do
  let a ← rx rs1
  let b ← s2Val s2
  let c ← me
  return { target := if f a b then some (target c.pc off) else none, annul := annul }

def execBeq (annul : Bool) (rs1 : XReg) (s2 : S2) (off : BitVec 9) : State → Outcome :=
  instr (branch (fun a b => a == b) annul rs1 s2 off)
def execBne (annul : Bool) (rs1 : XReg) (s2 : S2) (off : BitVec 9) : State → Outcome :=
  instr (branch (fun a b => a != b) annul rs1 s2 off)
def execBlt (annul : Bool) (rs1 : XReg) (s2 : S2) (off : BitVec 9) : State → Outcome :=
  instr (branch (fun a b => a.slt b) annul rs1 s2 off)
def execBge (annul : Bool) (rs1 : XReg) (s2 : S2) (off : BitVec 9) : State → Outcome :=
  instr (branch (fun a b => !a.slt b) annul rs1 s2 off)
def execBltu (annul : Bool) (rs1 : XReg) (s2 : S2) (off : BitVec 9) : State → Outcome :=
  instr (branch (fun a b => a.ult b) annul rs1 s2 off)
def execBgeu (annul : Bool) (rs1 : XReg) (s2 : S2) (off : BitVec 9) : State → Outcome :=
  instr (branch (fun a b => !a.ult b) annul rs1 s2 off)

def execJal (rd : XReg) (imm : BitVec 20) : State → Outcome := instr (do
  let c ← me
  wx rd (c.pc + 12)
  return { target := some (target c.pc imm) })

/-- The target's bits [1:0] are cleared; X[rs1] is read before rd is written (R197). -/
def execJalr (rd rs1 : XReg) (imm : BitVec 12) : State → Outcome := instr (do
  let a ← rx rs1
  let c ← me
  wx rd (c.pc + 12)
  return { target := some ((a + immS imm) &&& ~~~3) })

end Sys2Proof.Machine
end

