-- ==== Sys2Proof/Machine/Future.lean ====
section
/-!
DEFINITION. The future instructions (R248 to R252, R363, R365).
-/

namespace Sys2Proof.Machine

open M

/-- A handle operand: its 32 bits, checked against the table's size and the entry's GEN (R248, R363, R436). -/
def handleEntry (rs1 : XReg) : M (Tab × Nat × FEnt) := do
  let v ← rx rs1
  flushWindow
  let h := v.toNat % 2 ^ 32
  let s ← get
  if hIndex h = 0 || 2 ^ (s.part (s.pnodeOf (coreOf s.dev.cur))).futlog ≤ hIndex h then raise ILLEGAL_OPERAND (BitVec.ofNat 64 h)
  else do
    let tb ← myTab
    let e ← readEntry tb (hIndex h)
    if e.gen ≠ hGen h || e.st = 0 then raise FUTURE_STALE (BitVec.ofNat 64 h)
    else return (tb, h, e)

/-- The FREE entry of lowest index. -/
def findFree (tb : Tab) : Nat → Nat → M (Option (Nat × FEnt))
  | 0, _ => return none
  | f + 1, i => do
    let e ← readEntry tb i
    if e.st = 0 then return some (i, e) else findFree tb f (i + 1)

def execFutNew (rd : XReg) : State → Outcome := instr (do
  flushWindow
  drainVec
  readAhead
  let tb ← myTab
  match ← findFree tb (2 ^ tb.log - 1) 1 with
  | none => park .future
  | some (i, e) => do
    writeEntry tb i { e with st := 1, head := 0, tail := 0 }
    wx rd (BitVec.ofNat 64 (e.gen * 2 ^ 20 + i))
    return {})

/-- R250: a release at group scope; the move and the releases are one step. -/
def execFutSet (rs1 : XReg) (s2 : S2) : State → Outcome := instr (do
  let v ← s2Val s2
  let (tb, h, e) ← handleEntry rs1
  if e.st ≠ 1 then raise FUTURE_STALE (BitVec.ofNat 64 h)
  else do
    fenceAll
    writeEntry tb (hIndex h) { e with st := 2, val := v, head := 0, tail := 0 }
    releaseWaiters tb (hIndex h) e.head
    return {})

def execFutGet (rd rs1 : XReg) : State → Outcome := instr (do
  let (tb, h, e) ← handleEntry rs1
  if e.st = 1 then park (.fget tb.p (hIndex h))
  else do
    wx rd e.val
    return {})

def execFutChk (rd rs1 : XReg) : State → Outcome := instr (do
  let (_, _, e) ← handleEntry rs1
  wx rd (BitVec.ofNat 64 e.st)
  return {})

/-- Whether a context is parked in `fut.get` on an entry (R363). -/
def State.getting (s : State) (p i : Nat) : Bool :=
  s.ctxs.any fun e => e.2.run == .parked && (match e.2.wait with | some w => w.cls == .fget p i | none => false)

def execFutFree (rs1 : XReg) : State → Outcome := instr (do
  let (tb, h, e) ← handleEntry rs1
  drainVec
  readAhead
  let s ← get
  if e.st = 1 && (e.head ≠ 0 || s.getting tb.p (hIndex h)) then raise FUTURE_STALE (BitVec.ofNat 64 h)
  else do
    writeEntry tb (hIndex h) { e with st := 0, gen := (e.gen + 1) % 4096 }
    return {})

end Sys2Proof.Machine
end

