-- ==== Sys2Proof/Machine/Scalar.lean ====
section
/-!
DEFINITION. The scalar arithmetic instructions (R187 to R195).
-/

namespace Sys2Proof.Machine

open M

/-- An OP instruction: X[rd] := f(X[rs1], S2Value(s2)). -/
def opRK (f : Word → Word → Word) (rd rs1 : XReg) (s2 : S2) : M Fin := do
  let a ← rx rs1
  let b ← s2Val s2
  wx rd (f a b)
  return {}

/-- An instruction of one source (R190). -/
def opR (f : Word → Word) (rd rs1 : XReg) : M Fin := do
  let a ← rx rs1
  wx rd (f a)
  return {}

/-- An OPW instruction on the low 32 bits (R193). -/
def opW (f : BitVec 32 → BitVec 32 → BitVec 32) : XReg → XReg → S2 → M Fin :=
  opRK fun a b => (f (a.setWidth 32) (b.setWidth 32)).signExtend 64

/-- An immediate instruction (R194). -/
def opI (f : Word → Word) (rd rs1 : XReg) : M Fin := opR f rd rs1

/-- A truth value as a register word. -/
def ofBool (b : Bool) : Word := if b then 1 else 0

/-- Shift amounts: bits [5:0] of the operand (R188). -/
def shSll (a b : Word) : Word := a <<< (b.toNat % 64)
def shSrl (a b : Word) : Word := a >>> (b.toNat % 64)
def shSra (a b : Word) : Word := a.sshiftRight (b.toNat % 64)

/-- The high half of a product (R188). -/
def mulHi (a b : Word) : Word := BitVec.ofInt 64 (a.toInt * b.toInt / 2 ^ 64)
def mulHiU (a b : Word) : Word := BitVec.ofNat 64 (a.toNat * b.toNat / 2 ^ 64)

/-- Division (R189). -/
def intMax : Word := 0x7FFF_FFFF_FFFF_FFFF
def intMin : Word := 0x8000_0000_0000_0000

def quoS (a b : Word) : Word :=
  if b = 0 then (if a = 0 then 0 else if a.toInt < 0 then intMin else intMax)
  else if a = intMin ∧ b = -1 then intMax
  else BitVec.ofInt 64 (a.toInt.tdiv b.toInt)

def modS (a b : Word) : Word :=
  if b = 0 then a
  else if a = intMin ∧ b = -1 then 0
  else BitVec.ofInt 64 (a.toInt - b.toInt * a.toInt.fdiv b.toInt)

def quoU (a b : Word) : Word := if b = 0 then (if a = 0 then 0 else BitVec.allOnes 64) else a / b
def modU (a b : Word) : Word := if b = 0 then a else a % b

/-- Bit counts (R190). -/
def clz64 (a : Word) : Word := BitVec.ofNat 64 ((List.range 64).takeWhile fun k => !a.getLsbD (63 - k)).length
def ctz64 (a : Word) : Word := BitVec.ofNat 64 ((List.range 64).takeWhile fun k => !a.getLsbD k).length
def popc64 (a : Word) : Word := BitVec.ofNat 64 ((List.range 64).countP fun k => a.getLsbD k)
def bswap64 (a : Word) : Word := BitVec.ofNat 64 (leNat (leBytes 8 a.toNat).reverse)

/-- Field position and length of `ext` and `ins` (R190). -/
def fieldPos (b : Word) : Nat := b.toNat % 64
def fieldLen (b : Word) : Nat := b.toNat / 64 % 64 + 1

def extField (a b : Word) : Word := BitVec.ofNat 64 (a.toNat / 2 ^ fieldPos b % 2 ^ fieldLen b)
def insField (d a b : Word) : Word :=
  let m := BitVec.ofNat 64 ((2 ^ fieldLen b - 1) * 2 ^ fieldPos b)
  (d &&& ~~~m) ||| BitVec.ofNat 64 (a.toNat % 2 ^ fieldLen b * 2 ^ fieldPos b)

def execAdd (rd rs1 : XReg) (s2 : S2) : State → Outcome := instr (opRK (· + ·) rd rs1 s2)
def execSub (rd rs1 : XReg) (s2 : S2) : State → Outcome := instr (opRK (· - ·) rd rs1 s2)
def execAnd (rd rs1 : XReg) (s2 : S2) : State → Outcome := instr (opRK (· &&& ·) rd rs1 s2)
def execOr (rd rs1 : XReg) (s2 : S2) : State → Outcome := instr (opRK (· ||| ·) rd rs1 s2)
def execXor (rd rs1 : XReg) (s2 : S2) : State → Outcome := instr (opRK (· ^^^ ·) rd rs1 s2)
def execAndn (rd rs1 : XReg) (s2 : S2) : State → Outcome := instr (opRK (fun a b => a &&& ~~~b) rd rs1 s2)
def execSll (rd rs1 : XReg) (s2 : S2) : State → Outcome := instr (opRK shSll rd rs1 s2)
def execSrl (rd rs1 : XReg) (s2 : S2) : State → Outcome := instr (opRK shSrl rd rs1 s2)
def execSra (rd rs1 : XReg) (s2 : S2) : State → Outcome := instr (opRK shSra rd rs1 s2)
def execSlt (rd rs1 : XReg) (s2 : S2) : State → Outcome := instr (opRK (fun a b => ofBool (a.slt b)) rd rs1 s2)
def execSltu (rd rs1 : XReg) (s2 : S2) : State → Outcome := instr (opRK (fun a b => ofBool (a.ult b)) rd rs1 s2)
def execMin (rd rs1 : XReg) (s2 : S2) : State → Outcome := instr (opRK (fun a b => if b.slt a then b else a) rd rs1 s2)
def execMax (rd rs1 : XReg) (s2 : S2) : State → Outcome := instr (opRK (fun a b => if a.slt b then b else a) rd rs1 s2)
def execMinu (rd rs1 : XReg) (s2 : S2) : State → Outcome := instr (opRK (fun a b => if b.ult a then b else a) rd rs1 s2)
def execMaxu (rd rs1 : XReg) (s2 : S2) : State → Outcome := instr (opRK (fun a b => if a.ult b then b else a) rd rs1 s2)
def execMul (rd rs1 : XReg) (s2 : S2) : State → Outcome := instr (opRK (· * ·) rd rs1 s2)
def execMulh (rd rs1 : XReg) (s2 : S2) : State → Outcome := instr (opRK mulHi rd rs1 s2)
def execMulhu (rd rs1 : XReg) (s2 : S2) : State → Outcome := instr (opRK mulHiU rd rs1 s2)
def execQuo (rd rs1 : XReg) (s2 : S2) : State → Outcome := instr (opRK quoS rd rs1 s2)
def execQuou (rd rs1 : XReg) (s2 : S2) : State → Outcome := instr (opRK quoU rd rs1 s2)
def execMod (rd rs1 : XReg) (s2 : S2) : State → Outcome := instr (opRK modS rd rs1 s2)
def execModu (rd rs1 : XReg) (s2 : S2) : State → Outcome := instr (opRK modU rd rs1 s2)

/-- R191: the condition is X[rd]. -/
def execSel (rd rs1 : XReg) (s2 : S2) : State → Outcome := instr (do
  let c ← rx rd
  let a ← rx rs1
  let b ← s2Val s2
  wx rd (if c = 0 then b else a)
  return {})

def execClz (rd rs1 : XReg) : State → Outcome := instr (opR clz64 rd rs1)
def execCtz (rd rs1 : XReg) : State → Outcome := instr (opR ctz64 rd rs1)
def execPopc (rd rs1 : XReg) : State → Outcome := instr (opR popc64 rd rs1)
def execBswap (rd rs1 : XReg) : State → Outcome := instr (opR bswap64 rd rs1)
def execExt (rd rs1 : XReg) (s2 : S2) : State → Outcome := instr (opRK extField rd rs1 s2)

/-- R190: the field is inserted into X[rd]. -/
def execIns (rd rs1 : XReg) (s2 : S2) : State → Outcome := instr (do
  let d ← rx rd
  let a ← rx rs1
  let b ← s2Val s2
  wx rd (insField d a b)
  return {})

/-- R192: the scale is 2^n. -/
def execLea (n : BitVec 2) (rd rs1 : XReg) (s2 : S2) : State → Outcome :=
  instr (opRK (fun a b => a + b * BitVec.ofNat 64 (2 ^ n.toNat)) rd rs1 s2)

def execAddw (rd rs1 : XReg) (s2 : S2) : State → Outcome := instr (opW (· + ·) rd rs1 s2)
def execSubw (rd rs1 : XReg) (s2 : S2) : State → Outcome := instr (opW (· - ·) rd rs1 s2)
def execSllw (rd rs1 : XReg) (s2 : S2) : State → Outcome := instr (opW (fun a b => a <<< (b.toNat % 32)) rd rs1 s2)
def execSrlw (rd rs1 : XReg) (s2 : S2) : State → Outcome := instr (opW (fun a b => a >>> (b.toNat % 32)) rd rs1 s2)
def execSraw (rd rs1 : XReg) (s2 : S2) : State → Outcome := instr (opW (fun a b => a.sshiftRight (b.toNat % 32)) rd rs1 s2)
def execMulw (rd rs1 : XReg) (s2 : S2) : State → Outcome := instr (opW (· * ·) rd rs1 s2)

def execAddi (rd rs1 : XReg) (imm : BitVec 12) : State → Outcome := instr (opI (· + immS imm) rd rs1)
def execAndi (rd rs1 : XReg) (imm : BitVec 12) : State → Outcome := instr (opI (· &&& immS imm) rd rs1)
def execOri (rd rs1 : XReg) (imm : BitVec 12) : State → Outcome := instr (opI (· ||| imm.setWidth 64) rd rs1)
def execXori (rd rs1 : XReg) (imm : BitVec 12) : State → Outcome := instr (opI (· ^^^ imm.setWidth 64) rd rs1)
def execSlli (rd rs1 : XReg) (sh : BitVec 6) : State → Outcome := instr (opI (shSll · (sh.setWidth 64)) rd rs1)
def execSrli (rd rs1 : XReg) (sh : BitVec 6) : State → Outcome := instr (opI (shSrl · (sh.setWidth 64)) rd rs1)
def execSrai (rd rs1 : XReg) (sh : BitVec 6) : State → Outcome := instr (opI (shSra · (sh.setWidth 64)) rd rs1)
def execSlti (rd rs1 : XReg) (imm : BitVec 12) : State → Outcome := instr (opI (fun a => ofBool (a.slt (immS imm))) rd rs1)
def execSltiu (rd rs1 : XReg) (imm : BitVec 12) : State → Outcome := instr (opI (fun a => ofBool (a.ult (immS imm))) rd rs1)

/-- R195. -/
def execLui (rd : XReg) (imm : BitVec 20) : State → Outcome := instr (do
  wx rd (immU imm)
  return {})

def execAuipc (rd : XReg) (imm : BitVec 20) : State → Outcome := instr (do
  let c ← me
  wx rd (c.pc + immU imm)
  return {})

end Sys2Proof.Machine
end

