-- ==== Sys2Proof/Machine/Task.lean ====
section
/-!
DEFINITION. The task instructions (R241 to R247, R313, R436).
-/

namespace Sys2Proof.Machine

open M

/-- R242. A record is read through LOCAL, CLUSTER or a global page; its contents are judged before the state of what it names (R428). -/
def execPost (rs1 : XReg) (imm : BitVec 12) : State → Outcome := instr (do
  agent (.post rs1 imm) isControl
  let base ← rx rs1
  let va := base + immS imm
  fenceAll
  aligned va 64
  if inCaldera va.toNat then raise ILLEGAL_OPERAND va else pure ()
  let a ← locate .load va 64
  let b ← byMe
  codeFail b failMe a 0
  let r ← loadPlain b failMe a 64 0
  let tb ← myTab
  let s ← get
  if !s.recordOk tb.t tb.p r then raise ILLEGAL_OPERAND va
  else match ← checkHandles tb [rcWait r 0, rcWait r 1] with
  | some .beyond => raise ILLEGAL_OPERAND va
  | some (.stale h) => raise FUTURE_STALE (BitVec.ofNat 64 h)
  | none => do
    loadChecks b failMe a 64
    if s.poolFull tb.p then park .future
    else do
      acceptRec tb r
      return {})

/-- The helpers of a core. -/
def helpersOf (core : Nat) : List Nat := (List.range (ctxCount core - 1)).map fun k => ctxId core (k + 1)

/-- Wait until every named helper is FREE (R37, R246). -/
def waitFree (ids : List Nat) : M Unit := do
  let s ← get
  if ids.all fun i => (s.ctx i).run == .free then pure () else park .helper

/-- The steps of R243 and, with `arm`, of R244. On a vent core the operations of the task finish first (R313). -/
def endOp (arm : Bool) : M Fin := do
  let id ← meId
  let core := coreOf id
  waitFree (helpersOf core)
  flushWindow
  drainTiles
  let s ← get
  if !(s.core core).vq.isEmpty || s.dev.vops.any (fun o => coreOf o.ctx == core && o.done.isNone) then stall
  else do
    let p := s.pnodeOf core
    retireM {}
    if arm then upd (.part p fun q => { q with armed := true }) else pure ()
    upd (.ctx id fun c => Ctx.ended .idle c.landAll)
    upd (.core core fun k => { k with task := none, dwell := 0 })
    upd (.dev fun d => { d with vops := d.vops.filter fun o => coreOf o.ctx != core })
    halt

def execTaskEnd : State → Outcome := instr (do
  agent .taskEnd isControl
  endOp false)

/-- R430: not on a vent core. -/
def execSsEnd : State → Outcome := instr (do
  agent .ssEnd fun id => isControl id && onCompute id
  endOp true)

/-- The context a helper starts with (R245): the issuer's registers as its next instruction would read them. -/
def Ctx.begun (vent : Bool) (issuer : Ctx) (rd : XReg) (h t : Word) (c : Ctx) : Ctx :=
  let i := { issuer.tick with pend := [] }.wr rd h
  let c := { c with x := i.x, xpois := i.xpois, pc := t, q1 := t + 4, q2 := t + 8, a1 := false, a2 := false, sup := false,
                    run := .ready, wait := none, pwait := false, pend := [], sb := 0, latch := none, due := none, later := none }
  ((c.csrSet vent cFFLAGS 0).csrSet vent cFRM (issuer.csrGet vent cFRM)).csrSet vent cVL 0

def execHstart (rd rs1 : XReg) (imm : BitVec 12) : State → Outcome := instr (do
  agent (.hstart rd rs1 imm) isControl
  let base ← rx rs1
  fenceAll
  let s ← get
  let core := coreOf s.dev.cur
  let c := s.ctx s.dev.cur
  match (helpersOf core).find? fun i => (s.ctx i).run == .free with
  | none => park .helper
  | some h =>
    if c.sb ≠ 0 then stall
    else if c.tick.xpois ≠ 0 || c.cpois.contains cFRM then raise POISON 0
    else do
      let n := BitVec.ofNat 64 (ctxOf h)
      upd (.ctx h (Ctx.begun (isVent core) c rd n (base + 4 * immS imm)))
      wx rd n
      return {})

def execHjoin (mask : BitVec 10) : State → Outcome := instr (do
  let i : Instr := .hjoin mask
  agent i isControl
  agent i fun id => onCompute id || mask.toNat < 8
  flushWindow
  let core ← meCore
  waitFree ((helpersOf core).filter fun h => mask = 0 || mask.getLsbD (ctxOf h - 1))
  return {})

def execHexit : State → Outcome := instr (do
  agent .hexit fun id => !isControl id
  let s ← get
  let id := s.dev.cur
  if (s.core (coreOf id)).vq.any fun e => e.ctx == id then stall
  else do
    retireM {}
    upd (.ctx id (Ctx.ended .free))
    halt)

end Sys2Proof.Machine
end

