-- ==== Sys2Proof/Machine/Dispatch.lean ====
section
/-!
DEFINITION. The meaning of every instruction and event of the opcode table, one arm each.
-/

namespace Sys2Proof.Machine

def exec (i : Instr) (s : State) : Host.Outcome State Fault Refusal :=
  match i with
  | .add rd rs1 s2 => Sys2Proof.Machine.execAdd rd rs1 s2 s
  | .sub rd rs1 s2 => Sys2Proof.Machine.execSub rd rs1 s2 s
  | .and rd rs1 s2 => Sys2Proof.Machine.execAnd rd rs1 s2 s
  | .or rd rs1 s2 => Sys2Proof.Machine.execOr rd rs1 s2 s
  | .xor rd rs1 s2 => Sys2Proof.Machine.execXor rd rs1 s2 s
  | .andn rd rs1 s2 => Sys2Proof.Machine.execAndn rd rs1 s2 s
  | .sll rd rs1 s2 => Sys2Proof.Machine.execSll rd rs1 s2 s
  | .srl rd rs1 s2 => Sys2Proof.Machine.execSrl rd rs1 s2 s
  | .sra rd rs1 s2 => Sys2Proof.Machine.execSra rd rs1 s2 s
  | .slt rd rs1 s2 => Sys2Proof.Machine.execSlt rd rs1 s2 s
  | .sltu rd rs1 s2 => Sys2Proof.Machine.execSltu rd rs1 s2 s
  | .min rd rs1 s2 => Sys2Proof.Machine.execMin rd rs1 s2 s
  | .max rd rs1 s2 => Sys2Proof.Machine.execMax rd rs1 s2 s
  | .minu rd rs1 s2 => Sys2Proof.Machine.execMinu rd rs1 s2 s
  | .maxu rd rs1 s2 => Sys2Proof.Machine.execMaxu rd rs1 s2 s
  | .sel rd rs1 s2 => Sys2Proof.Machine.execSel rd rs1 s2 s
  | .mul rd rs1 s2 => Sys2Proof.Machine.execMul rd rs1 s2 s
  | .mulh rd rs1 s2 => Sys2Proof.Machine.execMulh rd rs1 s2 s
  | .mulhu rd rs1 s2 => Sys2Proof.Machine.execMulhu rd rs1 s2 s
  | .quo rd rs1 s2 => Sys2Proof.Machine.execQuo rd rs1 s2 s
  | .quou rd rs1 s2 => Sys2Proof.Machine.execQuou rd rs1 s2 s
  | .mod rd rs1 s2 => Sys2Proof.Machine.execMod rd rs1 s2 s
  | .modu rd rs1 s2 => Sys2Proof.Machine.execModu rd rs1 s2 s
  | .clz rd rs1 => Sys2Proof.Machine.execClz rd rs1 s
  | .ctz rd rs1 => Sys2Proof.Machine.execCtz rd rs1 s
  | .popc rd rs1 => Sys2Proof.Machine.execPopc rd rs1 s
  | .bswap rd rs1 => Sys2Proof.Machine.execBswap rd rs1 s
  | .ext rd rs1 s2 => Sys2Proof.Machine.execExt rd rs1 s2 s
  | .ins rd rs1 s2 => Sys2Proof.Machine.execIns rd rs1 s2 s
  | .lea n rd rs1 s2 => Sys2Proof.Machine.execLea n rd rs1 s2 s
  | .addw rd rs1 s2 => Sys2Proof.Machine.execAddw rd rs1 s2 s
  | .subw rd rs1 s2 => Sys2Proof.Machine.execSubw rd rs1 s2 s
  | .sllw rd rs1 s2 => Sys2Proof.Machine.execSllw rd rs1 s2 s
  | .srlw rd rs1 s2 => Sys2Proof.Machine.execSrlw rd rs1 s2 s
  | .sraw rd rs1 s2 => Sys2Proof.Machine.execSraw rd rs1 s2 s
  | .mulw rd rs1 s2 => Sys2Proof.Machine.execMulw rd rs1 s2 s
  | .addi rd rs1 imm => Sys2Proof.Machine.execAddi rd rs1 imm s
  | .andi rd rs1 imm => Sys2Proof.Machine.execAndi rd rs1 imm s
  | .ori rd rs1 imm => Sys2Proof.Machine.execOri rd rs1 imm s
  | .xori rd rs1 imm => Sys2Proof.Machine.execXori rd rs1 imm s
  | .slli rd rs1 sh => Sys2Proof.Machine.execSlli rd rs1 sh s
  | .srli rd rs1 sh => Sys2Proof.Machine.execSrli rd rs1 sh s
  | .srai rd rs1 sh => Sys2Proof.Machine.execSrai rd rs1 sh s
  | .slti rd rs1 imm => Sys2Proof.Machine.execSlti rd rs1 imm s
  | .sltiu rd rs1 imm => Sys2Proof.Machine.execSltiu rd rs1 imm s
  | .lui rd imm => Sys2Proof.Machine.execLui rd imm s
  | .auipc rd imm => Sys2Proof.Machine.execAuipc rd imm s
  | .beq annul rs1 s2 off => Sys2Proof.Machine.execBeq annul rs1 s2 off s
  | .bne annul rs1 s2 off => Sys2Proof.Machine.execBne annul rs1 s2 off s
  | .blt annul rs1 s2 off => Sys2Proof.Machine.execBlt annul rs1 s2 off s
  | .bge annul rs1 s2 off => Sys2Proof.Machine.execBge annul rs1 s2 off s
  | .bltu annul rs1 s2 off => Sys2Proof.Machine.execBltu annul rs1 s2 off s
  | .bgeu annul rs1 s2 off => Sys2Proof.Machine.execBgeu annul rs1 s2 off s
  | .jal rd imm => Sys2Proof.Machine.execJal rd imm s
  | .jalr rd rs1 imm => Sys2Proof.Machine.execJalr rd rs1 imm s
  | .lb rd rs1 off nu => Sys2Proof.Machine.execLb rd rs1 off nu s
  | .lh rd rs1 off nu => Sys2Proof.Machine.execLh rd rs1 off nu s
  | .lw rd rs1 off nu => Sys2Proof.Machine.execLw rd rs1 off nu s
  | .ld rd rs1 off nu => Sys2Proof.Machine.execLd rd rs1 off nu s
  | .lbu rd rs1 off nu => Sys2Proof.Machine.execLbu rd rs1 off nu s
  | .lhu rd rs1 off nu => Sys2Proof.Machine.execLhu rd rs1 off nu s
  | .lwu rd rs1 off nu => Sys2Proof.Machine.execLwu rd rs1 off nu s
  | .sb rs rs1 off nu => Sys2Proof.Machine.execSb rs rs1 off nu s
  | .sh rs rs1 off nu => Sys2Proof.Machine.execSh rs rs1 off nu s
  | .sw rs rs1 off nu => Sys2Proof.Machine.execSw rs rs1 off nu s
  | .sd rs rs1 off nu => Sys2Proof.Machine.execSd rs rs1 off nu s
  | .ldv scope rd rs1 s2 => Sys2Proof.Machine.execLdv scope rd rs1 s2 s
  | .stv scope rs rs1 s2 => Sys2Proof.Machine.execStv scope rs rs1 s2 s
  | .rclm rs rs1 s2 => Sys2Proof.Machine.execRclm rs rs1 s2 s
  | .amoAdd w ord rd rs1 rs2 => Sys2Proof.Machine.execAmoAdd w ord rd rs1 rs2 s
  | .amoMin w ord rd rs1 rs2 => Sys2Proof.Machine.execAmoMin w ord rd rs1 rs2 s
  | .amoMax w ord rd rs1 rs2 => Sys2Proof.Machine.execAmoMax w ord rd rs1 rs2 s
  | .amoMinu w ord rd rs1 rs2 => Sys2Proof.Machine.execAmoMinu w ord rd rs1 rs2 s
  | .amoMaxu w ord rd rs1 rs2 => Sys2Proof.Machine.execAmoMaxu w ord rd rs1 rs2 s
  | .amoAnd w ord rd rs1 rs2 => Sys2Proof.Machine.execAmoAnd w ord rd rs1 rs2 s
  | .amoOr w ord rd rs1 rs2 => Sys2Proof.Machine.execAmoOr w ord rd rs1 rs2 s
  | .amoXor w ord rd rs1 rs2 => Sys2Proof.Machine.execAmoXor w ord rd rs1 rs2 s
  | .amoSwap w ord rd rs1 rs2 => Sys2Proof.Machine.execAmoSwap w ord rd rs1 rs2 s
  | .amoCas w ord rd rs1 rs2 => Sys2Proof.Machine.execAmoCas w ord rd rs1 rs2 s
  | .amoFadd w ord rd rs1 rs2 => Sys2Proof.Machine.execAmoFadd w ord rd rs1 rs2 s
  | .redAdd w rs1 rs2 => Sys2Proof.Machine.execRedAdd w rs1 rs2 s
  | .redFadd w rs1 rs2 => Sys2Proof.Machine.execRedFadd w rs1 rs2 s
  | .redMin uns w rs1 rs2 => Sys2Proof.Machine.execRedMin uns w rs1 rs2 s
  | .redMax uns w rs1 rs2 => Sys2Proof.Machine.execRedMax uns w rs1 rs2 s
  | .redOr w rs1 rs2 => Sys2Proof.Machine.execRedOr w rs1 rs2 s
  | .fence kind scope => Sys2Proof.Machine.execFence kind scope s
  | .cwb rs1 imm => Sys2Proof.Machine.execCwb rs1 imm s
  | .cinv rs1 imm => Sys2Proof.Machine.execCinv rs1 imm s
  | .cpf rs1 imm nu => Sys2Proof.Machine.execCpf rs1 imm nu s
  | .smap rs1 f' => Sys2Proof.Machine.execSmap rs1 f' s
  | .sunmap f' => Sys2Proof.Machine.execSunmap f' s
  | .evArrive b => Sys2Proof.Machine.execEvArrive b s
  | .evWait b => Sys2Proof.Machine.execEvWait b s
  | .evWaitE l => Sys2Proof.Machine.execEvWaitE l s
  | .evSignal l => Sys2Proof.Machine.execEvSignal l s
  | .evLock m => Sys2Proof.Machine.execEvLock m s
  | .evUnlock m => Sys2Proof.Machine.execEvUnlock m s
  | .evChain scope b => Sys2Proof.Machine.execEvChain scope b s
  | .msend rs1 s2 => Sys2Proof.Machine.execMsend rs1 s2 s
  | .mrecv rd rs1 => Sys2Proof.Machine.execMrecv rd rs1 s
  | .mpoll rd => Sys2Proof.Machine.execMpoll rd s
  | .cqPop rd => Sys2Proof.Machine.execCqPop rd s
  | .post rs1 imm => Sys2Proof.Machine.execPost rs1 imm s
  | .taskEnd => Sys2Proof.Machine.execTaskEnd s
  | .ssEnd => Sys2Proof.Machine.execSsEnd s
  | .hstart rd rs1 imm => Sys2Proof.Machine.execHstart rd rs1 imm s
  | .hjoin mask => Sys2Proof.Machine.execHjoin mask s
  | .hexit => Sys2Proof.Machine.execHexit s
  | .futNew rd => Sys2Proof.Machine.execFutNew rd s
  | .futSet rs1 s2 => Sys2Proof.Machine.execFutSet rs1 s2 s
  | .futGet rd rs1 => Sys2Proof.Machine.execFutGet rd rs1 s
  | .futChk rd rs1 => Sys2Proof.Machine.execFutChk rd rs1 s
  | .futFree rs1 => Sys2Proof.Machine.execFutFree rs1 s
  | .pload rs1 => Sys2Proof.Machine.execPload rs1 s
  | .pput rd rs1 s2 => Sys2Proof.Machine.execPput rd rs1 s2 s
  | .pclose rd rs1 => Sys2Proof.Machine.execPclose rd rs1 s
  | .pget rs1 s2 => Sys2Proof.Machine.execPget rs1 s2 s
  | .prel rs1 s2 => Sys2Proof.Machine.execPrel rs1 s2 s
  | .pstat rd rs1 => Sys2Proof.Machine.execPstat rd rs1 s
  | .cmAlloc rd rs1 s2 => Sys2Proof.Machine.execCmAlloc rd rs1 s2 s
  | .cmFree rs1 s2 => Sys2Proof.Machine.execCmFree rs1 s2 s
  | .cmQuery rd s2 => Sys2Proof.Machine.execCmQuery rd s2 s
  | .csrr rd csr => Sys2Proof.Machine.execCsrr rd csr s
  | .csrw rd rs1 csr => Sys2Proof.Machine.execCsrw rd rs1 csr s
  | .csrs rd rs1 csr => Sys2Proof.Machine.execCsrs rd rs1 csr s
  | .csrc rd rs1 csr => Sys2Proof.Machine.execCsrc rd rs1 csr s
  | .ecall => Sys2Proof.Machine.execEcall s
  | .brk => Sys2Proof.Machine.execBrk s
  | .xret => Sys2Proof.Machine.execXret s
  | .park => Sys2Proof.Machine.execPark s
  | .fenceI => Sys2Proof.Machine.execFenceI s
  | .tlbi kind => Sys2Proof.Machine.execTlbi kind s
  | .hnotify rs1 => Sys2Proof.Machine.execHnotify rs1 s
  | .ctxrd rd rs1 sel => Sys2Proof.Machine.execCtxrd rd rs1 sel s
  | .ctxwr rd rs1 sel => Sys2Proof.Machine.execCtxwr rd rs1 sel s
  | .ctxres rs1 => Sys2Proof.Machine.execCtxres rs1 s
  | .ctxkill rs1 => Sys2Proof.Machine.execCtxkill rs1 s
  | .vsetvl d rd s2 => Sys2Proof.Machine.execVsetvl d rd s2 s
  | .vld fmt nu v rs1 => Sys2Proof.Machine.execVld fmt nu v rs1 s
  | .vlds fmt nu v rs1 s2 => Sys2Proof.Machine.execVlds fmt nu v rs1 s2 s
  | .vldx fmt nu v rs1 vi => Sys2Proof.Machine.execVldx fmt nu v rs1 vi s
  | .vst fmt nu v rs1 => Sys2Proof.Machine.execVst fmt nu v rs1 s
  | .vsts fmt nu v rs1 s2 => Sys2Proof.Machine.execVsts fmt nu v rs1 s2 s
  | .vstx fmt nu v rs1 vi => Sys2Proof.Machine.execVstx fmt nu v rs1 vi s
  | .vadd d vd vs1 s2 => Sys2Proof.Machine.execVadd d vd vs1 s2 s
  | .vsub d vd vs1 s2 => Sys2Proof.Machine.execVsub d vd vs1 s2 s
  | .vmul d vd vs1 s2 => Sys2Proof.Machine.execVmul d vd vs1 s2 s
  | .vand d vd vs1 s2 => Sys2Proof.Machine.execVand d vd vs1 s2 s
  | .vor d vd vs1 s2 => Sys2Proof.Machine.execVor d vd vs1 s2 s
  | .vxor d vd vs1 s2 => Sys2Proof.Machine.execVxor d vd vs1 s2 s
  | .vsll d vd vs1 s2 => Sys2Proof.Machine.execVsll d vd vs1 s2 s
  | .vsrl d vd vs1 s2 => Sys2Proof.Machine.execVsrl d vd vs1 s2 s
  | .vsra d vd vs1 s2 => Sys2Proof.Machine.execVsra d vd vs1 s2 s
  | .vmin d vd vs1 s2 => Sys2Proof.Machine.execVmin d vd vs1 s2 s
  | .vmax d vd vs1 s2 => Sys2Proof.Machine.execVmax d vd vs1 s2 s
  | .vcmp cc d vd vs1 s2 => Sys2Proof.Machine.execVcmp cc d vd vs1 s2 s
  | .vsel d vd vs1 s2 => Sys2Proof.Machine.execVsel d vd vs1 s2 s
  | .vmand vd vs1 vs2 => Sys2Proof.Machine.execVmand vd vs1 vs2 s
  | .vmor vd vs1 vs2 => Sys2Proof.Machine.execVmor vd vs1 vs2 s
  | .vmnot vd vs2 => Sys2Proof.Machine.execVmnot vd vs2 s
  | .vslide d vd vs1 s2 => Sys2Proof.Machine.execVslide d vd vs1 s2 s
  | .vbcast d vd vs1 s2 => Sys2Proof.Machine.execVbcast d vd vs1 s2 s
  | .vmvxs d rd vs1 => Sys2Proof.Machine.execVmvxs d rd vs1 s
  | .vmvsx d vd rs1 => Sys2Proof.Machine.execVmvsx d vd rs1 s
  | .vredsum d vd vs1 s2 => Sys2Proof.Machine.execVredsum d vd vs1 s2 s
  | .vredmax d vd vs1 s2 => Sys2Proof.Machine.execVredmax d vd vs1 s2 s
  | .vredmin d vd vs1 s2 => Sys2Proof.Machine.execVredmin d vd vs1 s2 s
  | .vfadd fmt vd vs1 s2 => Sys2Proof.Machine.execVfadd fmt vd vs1 s2 s
  | .vfsub fmt vd vs1 s2 => Sys2Proof.Machine.execVfsub fmt vd vs1 s2 s
  | .vfmul fmt vd vs1 s2 => Sys2Proof.Machine.execVfmul fmt vd vs1 s2 s
  | .vfdiv fmt vd vs1 s2 => Sys2Proof.Machine.execVfdiv fmt vd vs1 s2 s
  | .vfsqrt fmt vd s2 => Sys2Proof.Machine.execVfsqrt fmt vd s2 s
  | .vfmin fmt vd vs1 s2 => Sys2Proof.Machine.execVfmin fmt vd vs1 s2 s
  | .vfmax fmt vd vs1 s2 => Sys2Proof.Machine.execVfmax fmt vd vs1 s2 s
  | .vfabs fmt vd s2 => Sys2Proof.Machine.execVfabs fmt vd s2 s
  | .vfneg fmt vd s2 => Sys2Proof.Machine.execVfneg fmt vd s2 s
  | .vfma fmt vd vs1 s2 => Sys2Proof.Machine.execVfma fmt vd vs1 s2 s
  | .vfms fmt vd vs1 s2 => Sys2Proof.Machine.execVfms fmt vd vs1 s2 s
  | .vfnma fmt vd vs1 s2 => Sys2Proof.Machine.execVfnma fmt vd vs1 s2 s
  | .vfcmp cc fmt vd vs1 s2 => Sys2Proof.Machine.execVfcmp cc fmt vd vs1 s2 s
  | .vfredsum fmt vd vs1 s2 => Sys2Proof.Machine.execVfredsum fmt vd vs1 s2 s
  | .vcvt dst src rtz vd vs1 => Sys2Proof.Machine.execVcvt dst src rtz vd vs1 s
  | .tzero td => Sys2Proof.Machine.execTzero td s
  | .tmma td rs1 rs2 => Sys2Proof.Machine.execTmma td rs1 rs2 s
  | .tmmat td rs1 rs2 => Sys2Proof.Machine.execTmmat td rs1 rs2 s
  | .tadd td ts => Sys2Proof.Machine.execTadd td ts s
  | .tscl td rs2 => Sys2Proof.Machine.execTscl td rs2 s
  | .ttr td ts => Sys2Proof.Machine.execTtr td ts s
  | .tmov td ts => Sys2Proof.Machine.execTmov td ts s
  | .tld nu td rs1 => Sys2Proof.Machine.execTld nu td rs1 s
  | .tbld nu rs1 rs2 => Sys2Proof.Machine.execTbld nu rs1 rs2 s
  | .tst nu fmt td rs1 rs2 => Sys2Proof.Machine.execTst nu fmt td rs1 rs2 s
  | .rwload rs1 => Sys2Proof.Machine.execRwload rs1 s
  | .rwflush => Sys2Proof.Machine.execRwflush s
  | .ventPush nu nocq rs1 rs2 => Sys2Proof.Machine.execVentPush nu nocq rs1 rs2 s
  | .ventPushDec nu nocq rs1 rs2 => Sys2Proof.Machine.execVentPushDec nu nocq rs1 rs2 s
  | .ventPull nu nocq rs1 rs2 => Sys2Proof.Machine.execVentPull nu nocq rs1 rs2 s
  | .ventGath nu nocq rs1 rs2 => Sys2Proof.Machine.execVentGath nu nocq rs1 rs2 s
  | .ventScat nu nocq rs1 rs2 => Sys2Proof.Machine.execVentScat nu nocq rs1 rs2 s
  | .ventWait rs1 rs2 => Sys2Proof.Machine.execVentWait rs1 rs2 s
  | .ventNote rs1 rs2 => Sys2Proof.Machine.execVentNote rs1 rs2 s
  | .launch fn => Sys2Proof.Machine.execLaunch fn s
  | .drain fn => Sys2Proof.Machine.execDrain fn s
  | .resume fn => Sys2Proof.Machine.execResume fn s
  | .discard fn => Sys2Proof.Machine.execDiscard fn s
  | .split fn => Sys2Proof.Machine.execSplit fn s
  | .merge fn => Sys2Proof.Machine.execMerge fn s
  | .release fn => Sys2Proof.Machine.execRelease fn s
  | .loadlm fn => Sys2Proof.Machine.execLoadlm fn s
  | .loadcsr fn => Sys2Proof.Machine.execLoadcsr fn s
  | .setslice fn => Sys2Proof.Machine.execSetslice fn s
  | .setprio fn => Sys2Proof.Machine.execSetprio fn s
  | .setrdctl fn => Sys2Proof.Machine.execSetrdctl fn s
  | .interrupt fn => Sys2Proof.Machine.execInterrupt fn s
  | .assign fn => Sys2Proof.Machine.execAssign fn s
  | .reclaim fn => Sys2Proof.Machine.execReclaim fn s
  | .portset fn => Sys2Proof.Machine.execPortset fn s
  | .vfpause fn => Sys2Proof.Machine.execVfpause fn s
  | .vfresume fn => Sys2Proof.Machine.execVfresume fn s
  | .postWindowWrite fn off len rec' => Sys2Proof.Machine.execPostWindowWrite fn off len rec' s
  | .attcmdGo fn => Sys2Proof.Machine.execAttcmdGo fn s
  | .attestationReportDone fn => Sys2Proof.Machine.execAttestationReportDone fn s
  | .cmdstatLostClear fn => Sys2Proof.Machine.execCmdstatLostClear fn s
  | .hndropClear fn => Sys2Proof.Machine.execHndropClear fn s
  | .s2faultClear => Sys2Proof.Machine.execS2faultClear s
  | .wdlimWrite t v => Sys2Proof.Machine.execWdlimWrite t v s
  | .multicastEntryWrite ca idx v => Sys2Proof.Machine.execMulticastEntryWrite ca idx v s
  | .registerWrite fn reg v => Sys2Proof.Machine.execRegisterWrite fn reg v s
  | .hostApertureAccess fn acc => Sys2Proof.Machine.execHostApertureAccess fn acc s
  | .deviceReset pres => Sys2Proof.Machine.execDeviceReset pres s
  | .functionLevelReset t => Sys2Proof.Machine.execFunctionLevelReset t s
  | .linkTrainingComplete port peer incarn => Sys2Proof.Machine.execLinkTrainingComplete port peer incarn s
  | .linkControl port p => Sys2Proof.Machine.execLinkControl port p s
  | .lineReadRequest port p => Sys2Proof.Machine.execLineReadRequest port p s
  | .lineDataResponse port p => Sys2Proof.Machine.execLineDataResponse port p s
  | .lineWriteBack port p => Sys2Proof.Machine.execLineWriteBack port p s
  | .writeAcknowledgement port p => Sys2Proof.Machine.execWriteAcknowledgement port p s
  | .probe port p => Sys2Proof.Machine.execProbe port p s
  | .probeResponse port p => Sys2Proof.Machine.execProbeResponse port p s
  | .farAtomic port p => Sys2Proof.Machine.execFarAtomic port p s
  | .atomicResponse port p => Sys2Proof.Machine.execAtomicResponse port p s
  | .calderaAccess port p => Sys2Proof.Machine.execCalderaAccess port p s
  | .calderaResponse port p => Sys2Proof.Machine.execCalderaResponse port p s
  | .groupBarrier port p => Sys2Proof.Machine.execGroupBarrier port p s
  | .translationInvalidation port p => Sys2Proof.Machine.execTranslationInvalidation port p s
  | .translationInvalidationAck port p => Sys2Proof.Machine.execTranslationInvalidationAck port p s
  | .scrubInvalidation port p => Sys2Proof.Machine.execScrubInvalidation port p s
  | .multicastReplication ca p => Sys2Proof.Machine.execMulticastReplication ca p s
  | .linkReplayTimeout port => Sys2Proof.Machine.execLinkReplayTimeout port s
  | .linkPortDown port => Sys2Proof.Machine.execLinkPortDown port s
  | .peerLost peer => Sys2Proof.Machine.execPeerLost peer s
  | .calderaDieLost pkg ca => Sys2Proof.Machine.execCalderaDieLost pkg ca s
  | .intakeFrame ca fcsGood frame => Sys2Proof.Machine.execIntakeFrame ca fcsGood frame s
  | .thermalShutdown => Sys2Proof.Machine.execThermalShutdown s
  | .sliceTimerExpiry pnode => Sys2Proof.Machine.execSliceTimerExpiry pnode s
  | .energyMeterUpdate pnode => Sys2Proof.Machine.execEnergyMeterUpdate pnode s
  | .energyBudgetExhausted pnode => Sys2Proof.Machine.execEnergyBudgetExhausted pnode s
  | .watchdogExpiry pnode => Sys2Proof.Machine.execWatchdogExpiry pnode s
  | .mpcHalving cache => Sys2Proof.Machine.execMpcHalving cache s
  | .pwrmeasRefresh => Sys2Proof.Machine.execPwrmeasRefresh s
  | .patrolScrub loc found => Sys2Proof.Machine.execPatrolScrub loc found s
  | .dwellFlush core => Sys2Proof.Machine.execDwellFlush core s
  | .dispatch core => Sys2Proof.Machine.execDispatch core s
  | .ventDispatch core => Sys2Proof.Machine.execVentDispatch core s
  | .superstepBoundary pnode => Sys2Proof.Machine.execSuperstepBoundary pnode s
  | .quiescenceDetected pnode => Sys2Proof.Machine.execQuiescenceDetected pnode s
  | .portPublish port => Sys2Proof.Machine.execPortPublish port s
  | .ventOpComplete op => Sys2Proof.Machine.execVentOpComplete op s
  | .messageDelivery ctx => Sys2Proof.Machine.execMessageDelivery ctx s
  | .mailboxPost pnode => Sys2Proof.Machine.execMailboxPost pnode s
  | .interruptTaken core => Sys2Proof.Machine.execInterruptTaken core s
  | .tileStart core => Sys2Proof.Machine.execTileStart core s
  | .tileRetire core => Sys2Proof.Machine.execTileRetire core s
  | .vectorRetire core => Sys2Proof.Machine.execVectorRetire core s
  | .scrubComplete id => Sys2Proof.Machine.execScrubComplete id s
  | .directoryRecall line holder => Sys2Proof.Machine.execDirectoryRecall line holder s
  | .reservedEncoding word => Sys2Proof.Machine.execReservedEncoding word s
  | .fetchFault => Sys2Proof.Machine.execFetchFault s
  | .stage2Unmapping t block => Sys2Proof.Machine.execStage2Unmapping t block s
  | .badCrcPacket port => Sys2Proof.Machine.execBadCrcPacket port s

end Sys2Proof.Machine
end

