-- ==== Sys2Proof/Machine/Sched.lean ====
section
/-!
DEFINITION. Who moves next (log 2): the issue of one context's instruction, with what comes in front of it; the end of a wait by
executing its instruction again (R38, R449); the events that happen by themselves, in a fixed order; round robin over
the READY contexts (R36).
-/

namespace Sys2Proof.Machine

open M

/-! ### Issue -/

/-- A context begins an issue: it is the executing context, and the last of its core to have issued. -/
def State.begin (s : State) (id : Nat) : State :=
  let s := s.setCore (coreOf id) { s.core (coreOf id) with last := ctxOf id }
  { s with dev := { s.dev with cur := id, ord := 0, ins := none, word := none } }

/-- An instruction performed by the executing context. -/
def perform (i : Instr) (s : State) : Outcome :=
  exec i { s with dev := { s.dev with ins := some i, word := none } }

/-- The word fetched is decoded and performed; a reserved encoding takes its cause (R429). -/
def performWord (w : IWord) (s : State) : Outcome :=
  match decode w with
  | .ok i => perform i s
  | .error _ => execReservedEncoding w { s with dev := { s.dev with word := none } }

/-- The state after the fetch of the executing context. -/
def State.fetched (s : State) : State := P.run s (fetchWord fun _ => .done) s

/-- Fetch, decode, execute. -/
def fetchAndPerform (s : State) : Outcome :=
  let t := s.fetched
  match t.dev.word with
  | some w => performWord w t
  | none => execFetchFault s

/-- A cause that waits in front of the next instruction is taken, once the tile instructions have retired (R297, R377). -/
def takeDue : M Unit := do
  let id ← meId
  let c ← me
  match c.due with
  | none => stall
  | some d => do
    drainTiles
    updMe fun c => { c with due := none }
    if d.reply then deliverReply id d.code d.val false else deliver id { code := d.code, val := d.val, xpc0 := some d.xpc0 }

/-- Whether the rewrite window holds a tile instruction that a return replays, which runs before the next instruction (R305). -/
def Core.replaying (c : Core) : Bool := c.win.any fun e => e.replay.isSome

/-- What a READY context does in its turn: a cause that waits, an interrupt, a dwell flush, or its instruction. -/
def issue (id : Nat) (s0 : State) : Outcome :=
  let s := s0.begin id
  let core := coreOf id
  let control := ctxOf id == 0
  if (s.ctx id).due.isSome then event takeDue s
  else if control && s.irqReady core then execInterruptTaken core s
  else if control && 16 ≤ (s.core core).dwell && (s.core core).win.any TEnt.held then execDwellFlush core s
  else if control && (s.core core).replaying then .next s
  else fetchAndPerform s

/-- Whether the package has a context (R10, R19, R29, R36). -/
def State.hasCtx (s : State) (id : Nat) : Bool :=
  let core := coreOf id
  ctxOf id < ctxCount core &&
  (if isVent core then decide (core - 4096 < 384) && s.pres.chpres.getLsbD (core - 4096)
   else decide (core < 4096) && s.clPresent (core / 4))

/-! ### The end of a wait (R38) -/

/-- A wait put in its place in the order in which waits began. -/
def insertWait (e : Nat × Wait) : List (Nat × Wait) → List (Nat × Wait)
  | [] => [e]
  | f :: r => if e.2.seq < f.2.seq then e :: f :: r else f :: insertWait e r

/-- The waits that may end by themselves, oldest first: not those for a reply, one on another package only with its answer, and none of
a control context whose core still replays tile instructions, for these precede its scalar stream (R305). -/
def State.waits (s : State) : List (Nat × Wait) :=
  (s.ctxs.filterMap fun e =>
    match e.2.run, e.2.wait with
    | .parked, some w =>
      if w.forReply || (ctxOf e.1 == 0 && (s.core (coreOf e.1)).replaying) || (w.cls == .link && s.dev.reqs.any fun r => r.who == .ctx e.1 && r.ans.isNone && !r.lost) then none
      else some (e.1, w)
    | _, _ => none).foldl (fun l e => insertWait e l) []

/-- The parked instruction executed again. -/
def again (id : Nat) (w : Wait) (s : State) : Outcome :=
  let s := s.begin id
  match w.ins with
  | some i => perform i s
  | none => fetchAndPerform s

/-- Whether the instruction no longer waits as it did. -/
def wokeUp (id : Nat) (w : Wait) (s t : State) : Bool :=
  match (t.ctx id).run, (t.ctx id).wait with
  | .parked, some x => x.cls != w.cls || x.acted != w.acted || (w.cls == .link && t.dev.reqs != s.dev.reqs)
  | _, _ => true

/-- Whether a step made a context take a cause: it is in its handler's first instruction, or parked on the cause. -/
def tookCause (id : Nat) (t : State) : Bool :=
  let c := t.ctx id
  let h := c.csrGet (isVent (coreOf id)) cXTVEC
  c.wait.any (·.cls == .fault) || (c.run == .ready && c.sup && c.pc == h && c.q1 == h + 4)

/-- Of waits of one core that end at once with a cause, that of the lowest context ends first (R440). -/
def causeFirst (s : State) (id : Nat) (t : State) : State :=
  let mates := (s.ctxs.map (·.1)).filter fun i => coreOf i == coreOf id && decide (i < id)
  if !tookCause id t then t
  else (mates.findSome? fun i => match s.waits.find? fun e => e.1 == i with
    | some (_, w) => match again i w s with
      | .next u => if wokeUp i w s u && tookCause i u && !(ctxOf i == 0 && s.irqReady (coreOf i)) then some u else none
      | _ => none
    | none => none).getD t

/-- The first wait that can end, ended. An interrupt that a control context can take comes before its instruction (R204). -/
def wakeFirst (s : State) : List (Nat × Wait) → Option State
  | [] => none
  | (id, w) :: r =>
    match again id w s with
    | .next t =>
      if !wokeUp id w s t then wakeFirst s r
      else if ctxOf id == 0 && s.irqReady (coreOf id) then
        match execInterruptTaken (coreOf id) s with
        | .next u => if u = s then wakeFirst s r else some u
        | _ => wakeFirst s r
      else some (causeFirst s id t)
    | _ => wakeFirst s r

/-- The first of a list of steps of the machine's engines that changes the state. -/
def firstWork (s : State) : List (M Unit) → Option State
  | [] => none
  | m :: ms =>
    let t := P.run s (m fun _ => .done) s
    if t = s then firstWork s ms else some t

/-- What happens as soon as it can, before any wait ends and before anything else is issued: a waiting `stv` takes a freed slot (R219),
a held message enters its destination's queue (R235), of several for one destination that of the lowest context first (log 45), and a context
that was paused goes on once its accesses have been performed (R107, R372). -/
def State.prompt (s : State) : List (M Unit) :=
  (if s.dev.stvq.any s.stvReady then [serveQueues] else []) ++
  (s.ctxs.filterMap fun e => match e.2.slot with
    | some (_, d) => if s.accepts d then some (deliverHeld e.1) else none
    | none => none) ++
  s.ctxs.filterMap fun e =>
    if e.2.held.isSome && !s.pausedTen (s.tenOf (coreOf e.1)) && !s.issuedBefore e.1 then some (resumeCtx e.1) else none

/-- Else the oldest wait whose condition holds ends. -/
def State.wake (s : State) : Option State :=
  match firstWork s s.prompt with
  | some t => some t
  | none => wakeFirst s s.waits

/-! ### Turns of the agenda -/

/-- Whether a row of the opcode table is an event that the agenda may name: not an instruction, and not what a fetch leads to. -/
def isEvent (i : Instr) : Bool :=
  match i with
  | .reservedEncoding _ | .fetchFault => false
  | i => (encode i).isNone

/-- A turn taken. A context that is not READY, or an event that is not enabled, changes nothing. -/
def takeTurn (s : State) : Turn → Outcome
  | .issue id =>
    if !s.hasCtx id then .fault .noSuchContext
    else if (s.ctx id).run == .ready then issue id s
    else .next s
  | .event i => if isEvent i && i.wellFormed then exec i { s with dev := { s.dev with ord := 0 } } else .next s
  | .dropTlb ni => .next { s with dev := { s.dev with tlb := s.dev.tlb.filter fun e => e.ni != ni } }
  | .dropL1 core key => event (match SMap.find (s.core core).l1 key with
    | some l => do
      leaveLine (s.coreHolder core) (l.loc / 64)
      upd (.core core fun c => { c with l1 := c.l1.erase key })
    | none => stall) s
  | .upset u => event (struck u) s
  | .corrected u => event (mended u) s
  | .leaves q => event (peerLeaves q) s

/-! ### Events that happen by themselves -/

/-- The event of a command in progress (R345, R348). -/
def cmdEvent (fn op : Nat) : List (State → Outcome) :=
  match op with
  | 0x01 => [execLaunch fn] | 0x02 => [execDrain fn] | 0x03 => [execResume fn] | 0x04 => [execDiscard fn] | 0x05 => [execSplit fn]
  | 0x06 => [execMerge fn] | 0x07 => [execRelease fn] | 0x08 => [execLoadlm fn] | 0x09 => [execLoadcsr fn] | 0x0A => [execSetslice fn]
  | 0x0B => [execSetprio fn] | 0x0C => [execSetrdctl fn] | 0x0D => [execInterrupt fn] | 0x20 => [execAssign fn] | 0x21 => [execReclaim fn]
  | 0x22 => [execPortset fn] | 0x23 => [execVfpause fn] | 0x24 => [execVfresume fn]
  | _ => []

/-- The cores of a cluster in the order in which the arbiter serves their queues (R154). -/
def State.byPass (s : State) (k : Nat) : List Nat :=
  let p := fun (c : Nat) => SMap.get (fun _ => 0) (s.cluster k).pass (c % 4)
  let cs := [4 * k, 4 * k + 1, 4 * k + 2, 4 * k + 3].filter fun c => !(s.core c).vq.isEmpty
  let rec ins (c : Nat) : List Nat → List Nat
    | [] => [c]
    | d :: r => if p c < p d then c :: d :: r else d :: ins c r
  cs.foldl (fun l c => ins c l) []

/-- The dispatchers that may find a record: owners first, then thieves (R147, R148). -/
def State.dispatchers (s : State) : List Nat :=
  let full := s.cores.filterMap fun e => if !isVent e.1 && !e.2.deque.isEmpty then some e.1 else none
  if full.isEmpty then []
  else
    let ps := s.parts.filterMap fun e => if e.2.live && full.any (fun c => s.pnodeOf c == e.1) then some e.1 else none
    full ++ (ps.flatMap s.nodeCores).filter fun c => !full.contains c

/-- What may happen by itself, in the order in which it is tried. -/
def State.events (s : State) : List (State → Outcome) :=
  let cores := s.cores.map (·.1)
  let live := s.parts.filterMap fun e => if e.2.live then some e.1 else none
  (s.vfs.flatMap fun e => match e.2.cmd with | some c => cmdEvent e.1 (c.toNat % 256) | none => []) ++
  (s.parts.filterMap fun e => if e.2.mbq.isEmpty then none else some (execMailboxPost e.1)) ++
  ((cores.filter s.irqReady).map execInterruptTaken) ++
  ((cores.filter fun c => !(s.core c).win.isEmpty).flatMap fun c => [execTileRetire c, execTileStart c]) ++
  (((cores.filter fun c => !(s.core c).vq.isEmpty).map (· / 4)).dedup.flatMap fun k => (s.byPass k).map execVectorRetire) ++
  (s.ports.filterMap fun e => if e.2.ld.any PortLd.ready then some (execPortPublish e.1) else none) ++
  (s.dev.vops.filterMap fun o => if o.done.isNone then some (execVentOpComplete o.id) else none) ++
  (s.cores.filterMap fun e => if isVent e.1 && !e.2.deque.isEmpty then some (execVentDispatch e.1) else none) ++
  (s.dispatchers.map execDispatch) ++
  (live.map execSuperstepBoundary) ++ (live.map execQuiescenceDetected) ++ (live.map execSliceTimerExpiry) ++
  (live.map execEnergyMeterUpdate) ++ (live.map execWatchdogExpiry) ++
  (s.caches.filterMap fun e => if e.2.halved < e.2.sclk / 2 ^ 20 then some (execMpcHalving e.1) else none) ++
  [execPwrmeasRefresh] ++
  (s.dev.scrubs.map fun x => execScrubComplete x.id) ++
  (s.vfs.filterMap fun e => if e.2.att.isSome then some (execAttestationReportDone e.1) else none) ++
  (s.dev.links.filterMap fun e => if 16 ≤ e.2.replays then some (execLinkPortDown e.1) else none) ++
  (s.dev.peers.map fun e => execPeerLost e.1)

/-- The first event that changes the state. -/
def firstEvent (s : State) : List (State → Outcome) → Option State
  | [] => none
  | f :: fs =>
    match f s with
    | .next t => if t = s then firstEvent s fs else some t
    | _ => firstEvent s fs

/-- What the engines have in their queues: packets, by class (R152), accesses of the host and post windows, frames, lines asked for,
reclaims of ports, and seeds that go to another package. -/
def State.work (s : State) : List (M Unit) :=
  ((classOrder (s.dev.grants % 64 == 63) s.dev.inq).map processPacket) ++
  (s.vfs.filterMap fun e => if e.2.arrived.isEmpty then none else some (hostHead e.1)) ++
  (s.vfs.filterMap fun e => if e.2.pwin.isEmpty then none else some (acceptHead e.1)) ++
  ([false, true].filterMap fun ca => if (s.cal ca).frames.isEmpty then none else some (intakeHead ca)) ++
  (s.dev.cpfs.map prefetchStep) ++
  (s.ports.filterMap fun e => if e.2.ld.any PortLd.owes then some (portReclaim e.1) else none) ++
  (s.ports.filterMap fun e => if e.2.ld.any PortLd.seeding then some (seedStep e.1) else none)

/-! ### Round robin (R36) -/

/-- The numbers above `k`, then the others. -/
def rotate (k : Nat) (l : List Nat) : List Nat := (l.filter (k < ·)) ++ l.filter (· ≤ k)

/-- The READY contexts in the order in which they are offered the turn. -/
def State.turns (s : State) : List Nat :=
  let ids := s.ctxs.filterMap fun e => if e.2.run == .ready then some e.1 else none
  let cores := rotate (coreOf s.dev.cur) (ids.map coreOf).dedup
  cores.flatMap fun c => rotate (ctxId c (s.core c).last) (ids.filter fun id => coreOf id == c)

/-- The first context whose turn changes the state. -/
def firstTurn (s : State) : List Nat → Outcome
  | [] => .next s
  | id :: r =>
    match issue id s with
    | .next t => if t = s.begin id then firstTurn s r else .next t
    | .fault e => .fault e
    | .refused e => .refused e

/-- What happens when the agenda is empty. -/
def proceed (s : State) : Outcome :=
  match firstWork s s.work with
  | some t => .next t
  | none =>
    let s := { s with dev := { s.dev with ord := 0 } }
    match firstEvent s s.events with
    | some t => .next t
    | none => firstTurn s s.turns

/-- A coupling set that has left quiescence may be reported again (R369). -/
def State.settle (s : State) : State :=
  { s with parts := s.parts.map fun e =>
      if e.2.dead && !s.quiescent (s.couplingSet e.1) then (e.1, { e.2 with dead := false }) else e }

/-- The choice of one step: the end of a wait, the head of the agenda, or what happens by itself. A module that has been shut down
does nothing but reset (R355). -/
def choose (s : State) : Outcome :=
  if s.dev.stopped then
    match s.dev.agenda with
    | .event (.deviceReset p) :: r => takeTurn { s with dev := { s.dev with agenda := r } } (.event (.deviceReset p))
    | _ :: r => .next { s with dev := { s.dev with agenda := r } }
    | [] => .next s
  else match s.wake with
  | some t => .next t
  | none =>
    match s.dev.agenda with
    | t :: r => takeTurn { s with dev := { s.dev with agenda := r } } t
    | [] => proceed s

/-! ### A program in place (log 17) -/

/-- The context that runs a placed word: vent instructions run on vent core 0, `hexit` in a helper, everything else in the control
context of core 0. -/
def wordCtx (w : Nat) : Nat :=
  if w % 128 = 0x38 then ctxId 4096 0
  else if decode (BitVec.ofNat 32 w) matches .ok .hexit then ctxId 0 1
  else ctxId 0 0

/-- A page table of three levels that maps the first 512 KiB page, and a word at 0x1000 in that page. -/
def placeWord (w : Nat) : M Unit := do
  upd (.poke (Space.hbm.loc 0) (leBytes 8 (1 + 1 * 2 ^ 19)))
  upd (.poke (Space.hbm.loc (1 * 2 ^ 19)) (leBytes 8 (1 + 2 * 2 ^ 19)))
  upd (.poke (Space.hbm.loc (2 * 2 ^ 19)) (leBytes 8 (0x1F + 3 * 2 ^ 19)))
  upd (.poke (Space.hbm.loc (3 * 2 ^ 19 + 0x1000)) (leBytes 4 w))

/-- The partition of cluster 0 runs for tenant 0, whose first guest block is physical block 0; the context is READY at 0x1000. -/
def placeProgram (w : Nat) : M Unit := do
  let s ← get
  let id := wordCtx w
  let core := coreOf id
  let p := (s.partOfCluster 0).getD 1
  placeWord w
  setPartM p fun q => { q with st := .running, ten := some 0 }
  upd (.vf 0 fun v => { v with s2 := SMap.put v.s2 0 0 })
  upd (.dev fun d => { d with roots := SMap.put d.roots (asidKey 0 p) 0, tlb := [], agenda := [.issue id] })
  upd (.core core fun c => { c with task := some ⟨0, p, 0, isVent core⟩ })
  upd (.ctx id fun c => { c with pc := 0x1000, q1 := 0x1004, q2 := 0x1008, a1 := false, a2 := false, run := .ready, wait := none, due := none, later := none })

end Sys2Proof.Machine
end

