-- ==== Sys2Proof/Machine/Step.lean ====
section
/-!
DEFINITION. One step of the machine: a choice of Machine/Sched.lean, then one cycle of time.
-/

namespace Sys2Proof.Machine

/-- The end of a step. -/
def State.after (s : State) : State := s.settle.tick

def step (s : State) : Host.Outcome State Fault Refusal :=
  match choose s with
  | .next t => .next t.after
  | .fault e => .fault e
  | .refused e => .refused e

/-- The machine with one instruction word placed where its next step fetches, everything that this takes being set (log 17). -/
def State.withFetchWord (s : State) (nbits w : Nat) : State :=
  P.run s (placeProgram (w % 2 ^ min nbits 32) fun _ => .done) s

end Sys2Proof.Machine
end

