-- ==== Sys2Proof/Safety.lean ====
section
/-!
DEFINITION. The terms in which claims are stated: the invariant of the machine, that is the canonical form of memory, the marks and
versions of its words (R96, R386), and the cover of the partition tree (R23); the operands of the executing context, and the end of
its instruction.
-/

namespace Sys2Proof.Machine

/-- Numbers strictly rising. -/
def risingFrom : Nat → List Nat → Bool
  | _, [] => true
  | lo, k :: m => decide (lo ≤ k) && risingFrom (k + 1) m

/-- Poison marks: addresses of aligned 8-byte words, each listed once (R386). -/
def poisWf (m : List Nat) : Bool := risingFrom 0 m && m.all fun w => w % 8 == 0

/-- Versions strictly falling. -/
def fallingBelow : Option Nat → List (Nat × Word) → Bool
  | _, [] => true
  | hi, e :: m => (match hi with | none => true | some h => decide (e.1 < h)) && fallingBelow (some e.1) m

/-- A versioned word: at most four live versions, newest first, none above HIGH (R96). -/
def VWord.wf (x : VWord) : Bool :=
  decide (x.live.length ≤ 4) && fallingBelow none x.live &&
  match x.live, x.high with
  | [], _ => true
  | _ :: _, none => false
  | e :: _, some h => decide (e.1 ≤ h)

/-- Every listed versioned word keeps that form. -/
def versWf (m : SMap VWord) : Bool := m.all fun e => e.2.wf

/-- Whether a node of the partition tree covers a cluster (R22). -/
def nodeCovers (p k : Nat) : Bool := decide (nodeFirst p ≤ k ∧ k < nodeFirst p + nodeSize p)

/-- The partitions are nodes of the tree, and every cluster lies in exactly one of them (R22, R23). -/
def PartsCover (m : SMap Part) : Prop :=
  (∀ e ∈ m, 1 ≤ e.1 ∧ e.1 < 2048) ∧ ∀ k < 1024, (m.filter fun e => nodeCovers e.1 k).length = 1

/-- The invariant of the machine. -/
structure Inv (s : State) : Prop where
  mem : Memory.wf s.mem = true
  pois : poisWf s.pois = true
  vers : versWf s.vers = true
  cover : PartsCover s.parts

/-! ### The executing context -/

namespace State

/-- The executing context and its core. -/
def me (s : State) : Ctx := s.ctx s.dev.cur
def myCore (s : State) : Core := s.core (coreOf s.dev.cur)

/-- The value of a scalar register, and of an s2 operand (R157, R167). -/
def x (s : State) (r : XReg) : Word := s.me.rd r
def s2 (s : State) : S2 → Word
  | .reg r => s.x r
  | .con k => kInt k

/-- A register can be read now: no queued `vmvxs` has still to write it (R275), and it is not poisoned (R390). -/
abbrev readable (s : State) (r : XReg) : Prop := s.me.busy r = false ∧ s.me.bad r = false
@[reducible] def s2Readable (s : State) : S2 → Prop
  | .reg r => s.readable r
  | .con _ => True

/-- The executing context changed, and its core. -/
def withMe (s : State) (f : Ctx → Ctx) : State := s.setCtx s.dev.cur (f s.me)
def withMyCore (s : State) (f : Core → Core) : State := s.setCore (coreOf s.dev.cur) (f s.myCore)

/-- A register of the executing context written: x0 discards it (R157), and a queued `vmvxs` that was to write it no longer does (R287, log
47). -/
def wrote (s : State) (r : XReg) (v : Word) : State :=
  if s.me.busy r then (s.withMyCore (Core.overtake s.dev.cur r .passed)).withMe (Ctx.wrOver r v) else s.withMe fun c => c.wr r v

/-- What the executing instruction has asked other packages is forgotten. -/
def forgot (s : State) : State :=
  { s with dev := { s.dev.forget (· == .ctx s.dev.cur) with ord := 0 } }

/-- The instruction of the executing context has ended as R40 says: the queue moves on, annulled entries retire, exposed loads
land (R39), and the core counts (R86, R321). -/
def retired (s : State) (f : Fin := {}) : State :=
  ((s.withMyCore (Core.retire f (1 + s.me.annulled f) (ctxOf s.dev.cur == 0))).forgot).withMe (Ctx.retire f)

/-- The executing context takes a cause: the instruction has changed nothing else (R426), and R356 to R360 say where it goes. -/
def took (s : State) (i : TrapInfo) : State := P.run s (takeCause i fun _ => .done) s

/-- No tile instruction of the executing core waits (R297). -/
abbrev noTiles (s : State) : Prop := s.myCore.win = []

/-- No queued vector access of the executing context waits (R107, R279). -/
abbrev vecDone (s : State) : Prop := (s.myCore.vq.any fun e => e.ctx == s.dev.cur && isVmem e.instr) = false

/-- Nothing that a fence waits for: no tile instruction and no queued vector access (R107, R296). -/
abbrev fenced (s : State) : Prop := s.noTiles ∧ s.vecDone

/-- The executing core is a vent core, and the executing context is the control context of its core. -/
def onVent (s : State) : Bool := isVent (coreOf s.dev.cur)
def onControl (s : State) : Bool := ctxOf s.dev.cur == 0

/-- A CSR of the executing context or core set whole (R161). -/
def csrWritten (s : State) (n : Nat) (v : Word) : State :=
  if csrPerCtx n then s.withMe fun c => c.csrSet s.onVent n v else s.withMyCore fun k => k.csrSet n v

/-- A per-context CSR of the executing context. -/
def myCsr (s : State) (n : Nat) : Word := s.me.csrGet s.onVent n

/-- Whether a CSR may be read, and written, in the mode of the executing context (R160, R431), on a core that lists it (R161). -/
abbrev csrReadOk (s : State) (n : Nat) : Prop :=
  ¬(s.onVent = true ∧ csrVentReserved n = true) ∧ (csrClass n = .supervisor → s.me.sup = true)
abbrev csrWriteOk (s : State) (n : Nat) : Prop :=
  ¬(s.onVent = true ∧ csrVentReserved n = true) ∧ csrClass n ≠ .readOnly ∧
  (csrClass n = .guarded ∨ csrClass n = .supervisor → s.me.sup = true)

/-- Nothing of the executing context's vector instructions is queued, where FFLAGS is read (R199). -/
abbrev flagsSettled (s : State) (n : Nat) : Prop :=
  n = 0x001 → (s.myCore.vq.any fun e => e.ctx == s.dev.cur) = false

/-- The cluster of the executing core, by number, and the core's position in it. -/
def myCluster (s : State) : Nat := coreOf s.dev.cur / 4
def myPosition (s : State) : Nat := coreOf s.dev.cur % 4

/-- The partition and the tenant the executing context runs for. -/
def myPart (s : State) : Nat := s.pnodeOf (coreOf s.dev.cur)
def myTen (s : State) : Nat := s.tenOf (coreOf s.dev.cur)

/-- The next arrival number taken. -/
def arrived (s : State) : State := { s with dev := { s.dev with seq := s.dev.seq + 1 } }

end State

/-! ### Tables of instructions of one shape, with what each writes to rd (R188 to R195) -/

/-- The register operations of R188, R189 and R190 that have three operands, and `lea` (R192): the value of a = X[rs1] and
b = S2Value(s2). -/
def opTable : List ((XReg → XReg → S2 → Instr) × (Word → Word → Word)) :=
  [(.add, fun a b => a + b), (.sub, fun a b => a - b), (.and, fun a b => a &&& b), (.or, fun a b => a ||| b),
   (.xor, fun a b => a ^^^ b), (.andn, fun a b => a &&& ~~~b),
   (.sll, fun a b => BitVec.ofNat 64 (a.toNat * 2 ^ (b.toNat % 64))),
   (.srl, fun a b => BitVec.ofNat 64 (a.toNat / 2 ^ (b.toNat % 64))),
   (.sra, fun a b => BitVec.ofInt 64 (a.toInt / 2 ^ (b.toNat % 64))),
   (.slt, fun a b => if a.toInt < b.toInt then 1 else 0), (.sltu, fun a b => if a.toNat < b.toNat then 1 else 0),
   (.min, fun a b => if b.toInt < a.toInt then b else a), (.max, fun a b => if a.toInt < b.toInt then b else a),
   (.minu, fun a b => if b.toNat < a.toNat then b else a), (.maxu, fun a b => if a.toNat < b.toNat then b else a),
   (.mul, fun a b => BitVec.ofNat 64 (a.toNat * b.toNat)),
   (.mulh, fun a b => BitVec.ofInt 64 (a.toInt * b.toInt / 2 ^ 64)),
   (.mulhu, fun a b => BitVec.ofNat 64 (a.toNat * b.toNat / 2 ^ 64))]

/-- R189: quotients saturate and the modulus takes the sign of b. -/
def divTable : List ((XReg → XReg → S2 → Instr) × (Word → Word → Word)) :=
  [(.quo, fun a b =>
     if b = 0 then if a = 0 then 0 else if 0 < a.toInt then BitVec.ofInt 64 (2 ^ 63 - 1) else BitVec.ofInt 64 (-2 ^ 63)
     else if a.toInt = -2 ^ 63 ∧ b.toInt = -1 then BitVec.ofInt 64 (2 ^ 63 - 1)
     else BitVec.ofInt 64 (a.toInt.tdiv b.toInt)),
   (.mod, fun a b =>
     if b = 0 then a
     else if a.toInt = -2 ^ 63 ∧ b.toInt = -1 then 0
     else BitVec.ofInt 64 (a.toInt - b.toInt * a.toInt.fdiv b.toInt)),
   (.quou, fun a b =>
     if b = 0 then if a = 0 then 0 else BitVec.ofNat 64 (2 ^ 64 - 1) else BitVec.ofNat 64 (a.toNat / b.toNat)),
   (.modu, fun a b => if b = 0 then a else BitVec.ofNat 64 (a.toNat - b.toNat * (a.toNat / b.toNat)))]

/-- The bit instructions of one source (R190). -/
def bitTable : List ((XReg → XReg → Instr) × (Word → Word)) :=
  [(.clz, fun a => BitVec.ofNat 64 ((List.range 64).takeWhile fun k => !a.getLsbD (63 - k)).length),
   (.ctz, fun a => BitVec.ofNat 64 ((List.range 64).takeWhile fun k => !a.getLsbD k).length),
   (.popc, fun a => BitVec.ofNat 64 ((List.range 64).filter fun k => a.getLsbD k).length),
   (.bswap, fun a => BitVec.ofNat 64 (leNat (leBytes 8 a.toNat).reverse))]

/-- The word operations (R193), before the sign extension. -/
def wordTable : List ((XReg → XReg → S2 → Instr) × (BitVec 32 → BitVec 32 → BitVec 32)) :=
  [(.addw, fun a b => a + b), (.subw, fun a b => a - b),
   (.sllw, fun a b => BitVec.ofNat 32 (a.toNat * 2 ^ (b.toNat % 32))),
   (.srlw, fun a b => BitVec.ofNat 32 (a.toNat / 2 ^ (b.toNat % 32))),
   (.sraw, fun a b => BitVec.ofInt 32 (a.toInt / 2 ^ (b.toNat % 32))),
   (.mulw, fun a b => BitVec.ofNat 32 (a.toNat * b.toNat))]

/-- The immediate operations with a 12-bit immediate (R194): SExt for addi, andi, slti and sltiu, zero-extended for ori and xori. -/
def immTable : List ((XReg → XReg → BitVec 12 → Instr) × (Word → BitVec 12 → Word)) :=
  [(.addi, fun a i => a + i.signExtend 64), (.andi, fun a i => a &&& i.signExtend 64),
   (.ori, fun a i => a ||| i.zeroExtend 64), (.xori, fun a i => a ^^^ i.zeroExtend 64),
   (.slti, fun a i => if a.toInt < i.toInt then 1 else 0),
   (.sltiu, fun a i => if a.toNat < (i.signExtend 64).toNat then 1 else 0)]

/-- The immediate shifts (R194). -/
def shiftTable : List ((XReg → XReg → BitVec 6 → Instr) × (Word → BitVec 6 → Word)) :=
  [(.slli, fun a i => BitVec.ofNat 64 (a.toNat * 2 ^ i.toNat)), (.srli, fun a i => BitVec.ofNat 64 (a.toNat / 2 ^ i.toNat)),
   (.srai, fun a i => BitVec.ofInt 64 (a.toInt / 2 ^ i.toNat))]

/-- The branches and their conditions (R196). -/
def branchTable : List ((Bool → XReg → S2 → BitVec 9 → Instr) × (Word → Word → Bool)) :=
  [(.beq, fun a b => decide (a = b)), (.bne, fun a b => decide (a ≠ b)),
   (.blt, fun a b => decide (a.toInt < b.toInt)), (.bge, fun a b => decide (b.toInt ≤ a.toInt)),
   (.bltu, fun a b => decide (a.toNat < b.toNat)), (.bgeu, fun a b => decide (b.toNat ≤ a.toNat))]

/-! ### Memory (R213 to R228) -/

namespace State

/-- The number of bytes at a location, and bytes stored there; words covered whole lose a poison mark (R2, R386). -/
def stored (s : State) (loc n v : Nat) : State := (Upd.poke loc (leBytes n v)).apply s

/-- An access of the executing context to n bytes at `va`, aligned, lands on bytes of a local memory, the own core's or that of
another core of the cluster, allowed by the guard and by the range locks (R73, R74, R117), which no poisoned register decides (R390);
nothing queued comes first (R279, R296). -/
abbrev localAt (s : State) (use : Use) (va : Word) (n core off : Nat) : Prop :=
  va.toNat % n = 0 ∧ s.window s.dev.cur use va.toNat n = .ok (some (.lm core off)) ∧ s.windowBad s.dev.cur va.toNat = false ∧ s.fenced ∧
  (s.core core).locked false off n use.writes = none

/-- An access that the own L1 or stash serves: a global address whose held line is a plain line of the package's HBM, of which no
other holder has a copy; the byte's physical address is `phys` (R84, R93, R80). -/
abbrev hitAt (s : State) (use : Use) (va : Word) (n phys : Nat) : Prop :=
  va.toNat % n = 0 ∧ va.toNat < 2 ^ 52 ∧ inCaldera va.toNat = false ∧ s.fenced ∧
  ∃ l, s.heldLeaf (coreOf s.dev.cur) va.toNat use.akind (!s.me.sup) = some l ∧ phys = l.loc + va.toNat % 64 ∧ l.loc % 64 = 0 ∧
    l.loc + 64 ≤ 2 ^ 60 ∧ lfAPT l.leaf = 0 ∧ lfVER l.leaf = false ∧ lfRD l.leaf = false ∧ lfCM l.leaf = true ∧ s.onVent = false ∧
    s.holders (phys / 64) = [(s.coreHolder (coreOf s.dev.cur), .m)]

/-- An access to a global address of which the core and every cache lack the line: the page, whose translation the interface has, is a plain page
of the package's HBM, allows the access, and is not being migrated under a store (R90, R91, R93); the byte's physical address is `phys`. -/
abbrev missAt (s : State) (use : Use) (va : Word) (n phys : Nat) (e : TlbEnt) : Prop :=
  va.toNat % n = 0 ∧ va.toNat < 2 ^ 52 ∧ inCaldera va.toNat = false ∧ s.fenced ∧ s.myCore.l1 = [] ∧ s.myCore.stash = [] ∧
  s.cached (interfaceOf s.myCore.pmap (coreOf s.dev.cur) va.toNat) s.myTen s.myPart va.toNat = some e ∧
  permits use.akind (!s.me.sup) e.leaf = true ∧ (use.writes = true → lfMIG e.leaf = false) ∧
  lfAPT e.leaf = 0 ∧ lfVER e.leaf = false ∧ lfRD e.leaf = false ∧ s.stage2 s.myTen (gpaOf e.leaf va.toNat) = some phys ∧
  s.holders (phys / 64) = []

/-- A versioned word of an own caldera die: the tenant's versioned granule holds it (R97, R218). -/
abbrev versionedAt (s : State) (va : Word) (loc : Nat) : Prop :=
  va.toNat % 8 = 0 ∧ inCaldera va.toNat = true ∧ s.fenced ∧
  ∃ ca off, s.caldera (s.tenOf (coreOf s.dev.cur)) (va.toNat % 2 ^ 40) = .ok (.cal s.pres.pkg.toNat ca off, true) ∧
    loc = (Space.cal ca).loc off

/-- A load's result: exposed from the own LOCAL window, where it lands two instructions later, else written at once (R39, R216). -/
def loaded (s : State) (rd : XReg) (va v : Word) : State :=
  if exposed va then
    let s := if s.me.busy rd then s.withMyCore (Core.overtake s.dev.cur rd .loading) else s
    if rd = 0 then s else s.withMe fun c => { c with pend := c.pend ++ [⟨rd, v, 3⟩] }
  else s.wrote rd v

end State

/-- What the registers of the EVENT window read of a cluster (R229). -/
def eventReads (u : Cluster) (off : Nat) (v : Word) : Prop :=
  (∀ i, i < 4 → off = 8 * i → let b := u.bar i
    v = BitVec.ofNat 64 (b.gen.toNat * 2 ^ 32 + b.chain.toNat * 2 ^ 8 + b.arr.toNat * 2 ^ 4 + b.pmask.toNat)) ∧
  (off = 0x40 → v = BitVec.ofNat 64 u.lines.toNat) ∧
  (off = 0x48 → ∀ i, i < 64 → v.getLsbD i = u.mutex.any fun e => e.1 == i) ∧
  (off = 0x50 → v = BitVec.ofNat 64 u.intv.toNat)

/-- What the DEVICE window reads at an offset for a core (R76): SLCTL, PLCCTL, the two race-detector registers of its partition, and a flow
table, of which it sees its own tenant's entries. -/
def State.deviceReads (s : State) (core off : Nat) (v : Word) : Prop :=
  (∀ n, n < 384 → off = 0x10000 + 8 * n → v = (s.cache n).ctl) ∧
  (∀ d, d < 4 → off = 0x10C00 + 8 * d → v = (s.cache (384 + d)).ctl) ∧
  (off = 0x10D00 → v = BitVec.ofNat 64 (s.part (s.pnodeOf core)).rdctl.toNat) ∧
  (off = 0x10D08 → v = (s.part (s.pnodeOf core)).raceLog) ∧
  (∀ (ca : Bool) (i j : Nat), i < 4096 → j < 8 → off = 0x80000 + 0x40000 * ca.toNat + 64 * i + 8 * j →
    let f := (SMap.get (fun _ => (0 : BitVec 512)) (s.cal ca).flow i).toNat
    v = if f / 2 ^ 318 % 2 ^ 6 = s.tenOf core then BitVec.ofNat 64 (f / 2 ^ (64 * j)) else 0)

/-- The address of a load or a store: X[rs1] plus n times the signed offset (R213). -/
def eaOf (base : Word) (off : BitVec 8) (n : Nat) : Word := base + BitVec.ofInt 64 (off.toInt * n)

/-- The loads: size in bytes and extension (R216). -/
def loadTable : List ((XReg → XReg → BitVec 8 → BitVec 4 → Instr) × Nat × (Nat → Word)) :=
  [(.lb, 1, fun m => (BitVec.ofNat 8 m).signExtend 64), (.lh, 2, fun m => (BitVec.ofNat 16 m).signExtend 64),
   (.lw, 4, fun m => (BitVec.ofNat 32 m).signExtend 64), (.ld, 8, fun m => BitVec.ofNat 64 m),
   (.lbu, 1, fun m => BitVec.ofNat 64 m), (.lhu, 2, fun m => BitVec.ofNat 64 m), (.lwu, 4, fun m => BitVec.ofNat 64 m)]

/-- The stores and their sizes (R217). -/
def storeTable : List ((XReg → XReg → BitVec 8 → BitVec 4 → Instr) × Nat) :=
  [(.sb, 1), (.sh, 2), (.sw, 4), (.sd, 8)]

/-- The integer atomics (R221): the new value of an m-bit word from the old one and b. -/
def amoTable : List ((Bool → BitVec 4 → XReg → XReg → XReg → Instr) × (Nat → Nat → Nat → Nat)) :=
  [(.amoAdd, fun m old b => (old + b) % 2 ^ m),
   (.amoMin, fun m old b => if (BitVec.ofNat m b).toInt < (BitVec.ofNat m old).toInt then b else old),
   (.amoMax, fun m old b => if (BitVec.ofNat m old).toInt < (BitVec.ofNat m b).toInt then b else old),
   (.amoMinu, fun _ old b => if b < old then b else old), (.amoMaxu, fun _ old b => if old < b then b else old),
   (.amoAnd, fun _ old b => old &&& b), (.amoOr, fun _ old b => old ||| b), (.amoXor, fun _ old b => old ^^^ b),
   (.amoSwap, fun _ _ b => b)]

/-- The reductions (R223): the new value of an m-bit word from the old one and b; `red.fadd` rounds to nearest. -/
def redTable : List ((Bool → XReg → XReg → Instr) × (Bool → Nat → Nat → Nat)) :=
  [(.redAdd, fun w p b => (p + b) % 2 ^ widthBits w), (.redOr, fun _ p b => p ||| b),
   (.redMin false, fun w p b => if (BitVec.ofNat (widthBits w) b).toInt < (BitVec.ofNat (widthBits w) p).toInt then b else p),
   (.redMin true, fun _ p b => if b < p then b else p),
   (.redMax false, fun w p b => if (BitVec.ofNat (widthBits w) p).toInt < (BitVec.ofNat (widthBits w) b).toInt then b else p),
   (.redMax true, fun _ p b => if p < b then b else p),
   (.redFadd, fun w p b =>
     let f := if w then fFP64 else fFP32
     (f.round .rne (FVal.add .rne (f.val p) (f.val b))).1)]

/-! ### Events, messages, tasks and futures (R229 to R252) -/

namespace State

/-- The instruction has parked: it waits with a class, whether it has acted, and executes again with the same queue and registers
(R37, R38, R449). -/
abbrev parkedOn (s t : State) (cls : WaitClass) (acted : Option Nat) : Prop :=
  t.me.run = .parked ∧ (t.me.wait.map fun w => (w.cls, w.acted)) = some (cls, acted) ∧ t.dev.cur = s.dev.cur ∧
  (t.me.pc, t.me.q1, t.me.q2, t.me.a1, t.me.a2) = (s.me.pc, s.me.q1, s.me.q2, s.me.a1, s.me.a2) ∧
  t.me.x = s.me.x ∧ ∀ k, k ≠ s.dev.cur → t.ctx k = s.ctx k

/-- The table of the executing core (R33): base, and the number of entries and of pool slots as a power of two. -/
def futBase (s : State) : Nat :=
  (if s.onVent then (s.part s.myPart).futbase else s.myCore.csrGet cFUTBASE).toNat
def futLog (s : State) : Nat := (s.part s.myPart).futlog

/-- A table word at `va`, reached through a core in an address space, is at location `loc` of the own HBM: its page is writable for the
supervisor, the interface holds the translation, and no cache holds the line (R33, R93, R80). -/
abbrev servedBy (s : State) (core t p va loc : Nat) : Prop :=
  va < 2 ^ 52 ∧ inCaldera va = false ∧ s.holders (loc / 64) = [] ∧
  ∃ e l, s.cached (interfaceOf (s.core core).pmap core va) t p va = some e ∧ judge .store false e.leaf = .ok l ∧
    s.dev.tlb.contains ⟨interfaceOf (s.core core).pmap core va, t, p, va / 2 ^ entLog l, entLog l, l⟩ = true ∧
    s.route t l va = .ok (.hbm loc, false)

/-- The same for 32 bytes that lie in one line. -/
abbrev tableBy (s : State) (core t p va loc : Nat) : Prop := s.servedBy core t p va loc ∧ loc % 32 = 0 ∧ loc + 32 ≤ 2 ^ 60

/-- The same for the executing context. -/
abbrev tableAt (s : State) (va loc : Nat) : Prop := s.tableBy (coreOf s.dev.cur) s.myTen s.myPart va loc

/-- Entry i of the table lies at a location, unpoisoned, and holds VALUE, STATE, GEN and the waiter list (R33, R34). -/
abbrev futureAt (s : State) (i loc : Nat) (e : FEnt) : Prop :=
  s.tableAt (s.futBase + 32 * i) loc ∧ s.poisoned loc 32 = false ∧ FEnt.of (s.peek loc 32) = e

/-- A compute core's FUTBASE is not poisoned; a vent core takes the table's address from its partition (R33, R390). -/
abbrev tableKnown (s : State) : Prop := s.onVent = false → s.myCore.cpois.contains cFUTBASE = false

/-- A handle operand that names entry i of the table, with some GEN (R33, R248). -/
abbrev handleOf (s : State) (rs1 : XReg) (i gen loc : Nat) (e : FEnt) : Prop :=
  s.readable rs1 ∧ s.noTiles ∧ s.tableKnown ∧ 0 < i ∧ i < 2 ^ s.futLog ∧ i < 2 ^ 20 ∧ gen < 4096 ∧
  (s.x rs1).toNat % 2 ^ 32 = gen * 2 ^ 20 + i ∧ s.futureAt i loc e

/-- The same with the entry's GEN. -/
abbrev handleAt (s : State) (rs1 : XReg) (i loc : Nat) (e : FEnt) : Prop := s.handleOf rs1 i e.gen loc e

/-- Slot j of the waiter pool, and a record in it (R33, R137). -/
def slotVA (s : State) (j : Nat) : Nat := s.futBase + 32 * 2 ^ s.futLog + 64 * j
abbrev slotAt (s : State) (loc : Nat → Nat) (j : Nat) : Prop :=
  s.tableAt (s.slotVA j) (loc (2 * j)) ∧ s.tableAt (s.slotVA j + 32) (loc (2 * j + 1))
def slotRecord (s : State) (loc : Nat → Nat) (j : Nat) : Nat := s.peek (loc (2 * j)) 32 + s.peek (loc (2 * j + 1)) 32 * 2 ^ 256

/-- The link of slot j (R33, R35). -/
abbrev linkAt (s : State) (j loc : Nat) : Prop :=
  s.servedBy (coreOf s.dev.cur) s.myTen s.myPart (s.futBase + 96 * 2 ^ s.futLog + 8 * j) loc ∧ loc % 8 = 0 ∧ loc + 8 ≤ 2 ^ 60

/-- The vent core of the channel that DATA lies in: the interface of the executing core holds the translation of its page, which need not be
readable or writable (R145). -/
abbrev ventAt (s : State) (data d : Nat) : Prop :=
  data < 2 ^ 52 ∧ inCaldera data = false ∧ ∃ e l a v, s.cached (interfaceOf s.myCore.pmap (coreOf s.dev.cur) data) s.myTen s.myPart data = some e ∧
    judge .place false e.leaf = .ok l ∧ s.route s.myTen l data = .ok (.hbm a, v) ∧ d = 4096 + s.channel a

/-- Every helper of the executing core is FREE. -/
abbrev helpersFree (s : State) : Prop := ∀ i ∈ helpersOf (coreOf s.dev.cur), (s.ctx i).run = .free

end State

/-! ### Ports and caldera memory (R122 to R136, R97, R98) -/

/-- Part of a meaning runs from one state to another and gives a result, whatever comes after it. -/
def M.leads {α : Type} (m : M α) (s t : State) (a : α) : Prop :=
  ∀ (s0 : State) (k : α → P), P.run s0 (m k) s = P.run s0 (k a) t

namespace State

/-- A port operand: a number below 1,024 that is assigned to the executing tenant (R122, R253), of which no port is being seeded (R136). -/
abbrev portNamed (s : State) (rs1 : XReg) (p : Nat) : Prop :=
  s.readable rs1 ∧ (s.x rs1).toNat = p ∧ p < 1024 ∧ (s.port p).ten = some s.myTen ∧ s.noTiles ∧
  s.seeding s.myTen = false

/-- A loaded port of which the executing core has slice k, with entry e, on a side: 0 sender, 1 receiver. It is the first entry of that
side which names the core by its place in the partition that the record gives the side (R125, R253). -/
abbrev sliceOf (s : State) (rs1 : XReg) (p : Nat) (q : PortLd) (side k e : Nat) : Prop :=
  s.portNamed rs1 p ∧ (s.port p).ld = some q ∧ s.myPart = (if side = 0 then pSPNODE q.img else pRPNODE q.img) ∧
  let es := (if side = 0 then q.sl.take (pNSSL q.img) else q.sl.drop (pNSSL q.img)).map BitVec.toNat
  es[k]? = some e ∧ (s.nodeCores s.myPart).idxOf? (coreOf s.dev.cur) = some (slCORE e) ∧
  ∀ j x, j < k → es[j]? = some x → slCORE x ≠ slCORE e

/-- A port's loaded record replaced. -/
def withLoaded (s : State) (p : Nat) (q : PortLd) : State := s.setPort p { s.port p with ld := some q }

end State

/-- The granules of a die in their canonical form (R97). -/
abbrev Cal.granOk (c : Cal) : Prop := SMap.rising 0 c.gran = true ∧ ∀ e ∈ c.gran, e.1 < 32768

/-! ### Vector instructions (R270 to R288) -/

/-- What a vector instruction that accesses no memory needs at issue: 64-bit elements, FRM, a scalar operand register, and its passes
at a vector length above 0 (R272, R273, R276, R281). A conversion to NF8 or between integers reads no FRM (R54, R285). -/
structure VShape where
  wide : Bool
  rounds : Bool
  scalar : Option XReg
  passes : Nat → Nat

/-- The scalar register of an s2 operand. -/
def scalarV : VS2 → Option XReg
  | .reg r => some r
  | _ => none
def scalarS : S2 → Option XReg
  | .reg r => some r
  | .con _ => none

/-- Passes of an element-wise instruction: 16 elements of 32 bits, or 8 of 64, in each (R276). -/
def elementPasses (wide : Bool) (n : Nat) : Nat := if wide then (n + 7) / 8 else (n + 15) / 16

def vShape : Instr → Option VShape
  | .vadd d _ _ s2 | .vsub d _ _ s2 | .vmul d _ _ s2 | .vand d _ _ s2 | .vor d _ _ s2 | .vxor d _ _ s2 | .vsll d _ _ s2
  | .vsrl d _ _ s2 | .vsra d _ _ s2 | .vmin d _ _ s2 | .vmax d _ _ s2 | .vcmp _ d _ _ s2 | .vsel d _ _ s2
  | .vredsum d _ _ s2 | .vredmax d _ _ s2 | .vredmin d _ _ s2 => some ⟨d, false, scalarV s2, elementPasses d⟩
  | .vmand .. | .vmor .. | .vmnot .. => some ⟨false, false, none, fun _ => 4⟩
  | .vslide d _ _ s2 | .vbcast d _ _ s2 => some ⟨d, false, scalarS s2, elementPasses d⟩
  | .vmvxs d _ _ => some ⟨d, false, none, fun _ => 1⟩
  | .vmvsx d _ r => some ⟨d, false, some r, fun _ => 1⟩
  | .vfadd f _ _ s2 | .vfsub f _ _ s2 | .vfmul f _ _ s2 | .vfdiv f _ _ s2 | .vfsqrt f _ s2 | .vfma f _ _ s2 | .vfms f _ _ s2
  | .vfnma f _ _ s2 | .vfredsum f _ _ s2 => some ⟨f == .f64, true, scalarV s2, elementPasses (f == .f64)⟩
  | .vfmin f _ _ s2 | .vfmax f _ _ s2 | .vfabs f _ s2 | .vfneg f _ s2 | .vfcmp _ f _ _ s2 =>
    some ⟨f == .f64, false, scalarV s2, elementPasses (f == .f64)⟩
  | .vcvt dst src rtz _ _ => some ⟨cvtWide dst src, !rtz && dst != 3 && (decide (dst.toNat < 4) || decide (src.toNat < 4)), none, elementPasses (cvtWide dst src)⟩
  | _ => none

/-- The scalar register that an instruction writes at its retirement: `vmvxs` alone (R275). -/
def vScalarDest : Instr → Option XReg
  | .vmvxs _ rd _ => some rd
  | _ => none

namespace State

/-- VL of the executing context (R271). -/
def vlen (s : State) : Nat := (s.myCsr cVL).toNat % 128

/-- An instruction has entered its core's vector queue with what it captures; a scalar destination is held (R275). -/
def vqueued (s : State) (i : Instr) (n passes : Nat) (v : Word) (els : List (Word × Word)) : State :=
  let s := s.withMyCore fun k =>
    { k with vq := k.vq ++ [⟨s.dev.cur, i, s.me.pc, n, (s.me.csrGet false cFRM).setWidth 2, v, passes, els, .ahead⟩] }
  match vScalarDest i with
  | some rd => s.withMe fun c => { c with sb := c.sb ||| (1#32 <<< rd.toNat) }
  | none => s

/-- The contents of a vector register. -/
def vreg (s : State) (core : Nat) (v : VReg) : Nat := (SMap.get (fun _ => (0 : BitVec 2048)) (s.core core).v v.toNat).toNat

/-- The form of a vector load or store: whether it stores, its format and its register (R277 to R279). -/
def vMemForm : Instr → Option (Bool × VMemFmt × VReg)
  | .vld f _ v _ | .vlds f _ v _ _ | .vldx f _ v _ _ => some (false, f, v)
  | .vst f _ v _ | .vsts f _ v _ _ | .vstx f _ v _ _ => some (true, f, v)
  | _ => none

/-- The local memory and the offset in it of an element address of a core's queue: in the LOCAL window, or in a slot of the CLUSTER window
(R73). -/
def elementAt (core : Nat) (va : Word) (c off : Nat) : Prop :=
  (va.toNat = 0xFFF0000000000000 + off ∧ off < 0x100000 ∧ c = core) ∨
  (∃ k, k < 4 ∧ off < 0x40000 ∧ va.toNat = 0xFFF0000000100000 + 0x40000 * k + off ∧ c = core / 4 * 4 + k)

/-- The head of a core's queue has met a cause (R377): it and the later instructions of its context have left the queue, no vector register,
scalar register or flag has changed, and the context takes the cause in front of its next instruction. -/
def vectorCaused (s t : State) (core : Nat) (e : VEnt) (rest : List VEnt) (code : BitVec 8) (val : Word) : Prop :=
  (t.core core).vq = rest.filter (fun x => x.ctx != e.ctx) ∧ (t.core core).v = (s.core core).v ∧
  (∀ r, (t.ctx e.ctx).rd r = (s.ctx e.ctx).rd r) ∧
  (t.ctx e.ctx).csrGet (isVent (coreOf e.ctx)) cFFLAGS = (s.ctx e.ctx).csrGet (isVent (coreOf e.ctx)) cFFLAGS ∧
  (t.ctx e.ctx).due = some { code := code, val := val, xpc0 := e.pc, vec := true }

/-- What the head of a core's vector queue reads. -/
def vin (s : State) (core : Nat) (e : VEnt) : VIn := ⟨fun r => s.vreg core r, e.vl, RMode.of e.frm, e.s2v⟩

end State

/-- The element-wise integer instructions (R280, R283, R284): the value from the width m, a, b and the old element c. -/
def vIntTable : List ((Bool → VReg → VReg → VS2 → Instr) × (Nat → Nat → Nat → Nat → Nat)) :=
  [(.vadd, fun m a b _ => (a + b) % 2 ^ m), (.vsub, fun m a b _ => (a + 2 ^ m - b) % 2 ^ m), (.vmul, fun m a b _ => a * b % 2 ^ m),
   (.vand, fun _ a b _ => a &&& b), (.vor, fun _ a b _ => a ||| b), (.vxor, fun _ a b _ => a ^^^ b),
   (.vsll, fun m a b _ => a * 2 ^ (b % m) % 2 ^ m), (.vsrl, fun m a b _ => a / 2 ^ (b % m)),
   (.vsra, fun m a b _ => (BitVec.ofInt m ((BitVec.ofNat m a).toInt / 2 ^ (b % m))).toNat),
   (.vmin, fun m a b _ => if (BitVec.ofNat m b).toInt < (BitVec.ofNat m a).toInt then b else a),
   (.vmax, fun m a b _ => if (BitVec.ofNat m a).toInt < (BitVec.ofNat m b).toInt then b else a),
   (.vcmp .eq, fun m a b _ => if a = b then 2 ^ m - 1 else 0), (.vcmp .ne, fun m a b _ => if a ≠ b then 2 ^ m - 1 else 0),
   (.vcmp .lt, fun m a b _ => if (BitVec.ofNat m a).toInt < (BitVec.ofNat m b).toInt then 2 ^ m - 1 else 0),
   (.vcmp .ge, fun m a b _ => if (BitVec.ofNat m b).toInt ≤ (BitVec.ofNat m a).toInt then 2 ^ m - 1 else 0),
   (.vcmp .ltu, fun m a b _ => if a < b then 2 ^ m - 1 else 0), (.vcmp .geu, fun m a b _ => if b ≤ a then 2 ^ m - 1 else 0),
   (.vsel, fun _ a b c => if c ≠ 0 then a else b)]

/-- The element-wise floating instructions of three operands (R281, R282, R283): the result and its flags from the format, the rounding
mode, a, b and the old element c. -/
def vFltTable : List ((VFmt → VReg → VReg → VS2 → Instr) × (Fmt → RMode → Nat → Nat → Nat → Nat × Flags)) :=
  [(.vfadd, fun f m a b _ => f.round m (FVal.add m (f.val a) (f.val b))),
   (.vfsub, fun f m a b _ => f.round m (FVal.add m (f.val a) (f.val b).neg)),
   (.vfmul, fun f m a b _ => f.round m ((f.val a).mul (f.val b)).exact),
   (.vfdiv, fun f m a b _ => f.round m ((f.val a).div (f.val b))),
   (.vfmin, fun f _ a b _ => f.minmax false a b), (.vfmax, fun f _ a b _ => f.minmax true a b),
   (.vfma, fun f m a b c => f.round m (FVal.add m ((f.val a).mul (f.val b)) (f.val c))),
   (.vfms, fun f m a b c => f.round m (FVal.add m ((f.val a).mul (f.val b)) (f.val c).neg)),
   (.vfnma, fun f m a b c => f.round m (FVal.add m (f.val c) ((f.val a).mul (f.val b)).neg))]

/-- Those of one operand (R281, R282). -/
def vFlt1Table : List ((VFmt → VReg → VS2 → Instr) × (Fmt → RMode → Nat → Nat × Flags)) :=
  [(.vfsqrt, fun f m b => f.round m (f.val b).sqrt), (.vfabs, fun f _ b => (b % f.signBit, 0)),
   (.vfneg, fun f _ b => (b ^^^ f.signBit, 0))]

/-- The integer reductions (R286): one step of the tree on values of width m. -/
def vRedTable : List ((Bool → VReg → VReg → VS2 → Instr) × (Nat → Nat → Nat → Nat)) :=
  [(.vredsum, fun m a b => (a + b) % 2 ^ m),
   (.vredmax, fun m a b => if (BitVec.ofNat m a).toInt < (BitVec.ofNat m b).toInt then b else a),
   (.vredmin, fun m a b => if (BitVec.ofNat m b).toInt < (BitVec.ofNat m a).toInt then b else a)]

/-- Node j of a level of the tree of R286 over n values, with the flags of every step below it: level 0 holds the values, and a node without
a right neighbour below is carried. -/
def treeNode (op : Nat → Nat → Nat × Flags) (w : Nat → Nat) (n : Nat) : Nat → Nat → Nat × Flags
  | 0, j => (w j, 0)
  | k + 1, j =>
    let a := treeNode op w n k (2 * j)
    if (2 * j + 1) * 2 ^ k < n then
      let b := treeNode op w n k (2 * j + 1)
      ((op a.1 b.1).1, a.2 ||| b.2 ||| (op a.1 b.1).2)
    else a

/-- The result of a reduction of at most 64 values with its start value, and every flag (R286). -/
def treeSum (op : Nat → Nat → Nat × Flags) (w : Nat → Nat) (n start : Nat) : Nat × Flags :=
  let r := treeNode op w n 6 0
  ((op start r.1).1, r.2 ||| (op start r.1).2)

/-- One element converted (R285): the value of the code, rounded or limited to the target. -/
def converted (mode : RMode) (dst src : BitVec 3) (a : Nat) : Nat × Flags :=
  let n := cvtWidth dst
  let uns := decide (6 ≤ dst.toNat)
  let v : Int := if 6 ≤ src.toNat then a else (BitVec.ofNat (cvtWidth src) a).toInt
  let lo : Int := if uns then 0 else -2 ^ (n - 1)
  let hi : Int := if uns then 2 ^ n - 1 else 2 ^ (n - 1) - 1
  match cvtFmt src, cvtFmt dst with
  | some f, some g => g.round (if g = fNF8 then .rne else mode) (f.val a).exact
  | some f, none => (f.val a).toInt mode uns n
  | none, some g => g.round (if g = fNF8 then .rne else mode) (.rat (decide (v < 0)) v.natAbs 1 0)
  | none, none => ((BitVec.ofInt n (max lo (min hi v))).toNat, if v < lo ∨ hi < v then fNV else 0)

/-- The condition of `vfcmp` on two values, and whether it sets NV (R283). -/
def vfHolds (cc : VFCond) (a b : FVal) : Bool × Bool :=
  let nan := a.isNaN || b.isNaN
  match cc with
  | .eq => (!nan && a.cmp b == 0, a.isSig || b.isSig)
  | .ne => (nan || a.cmp b != 0, a.isSig || b.isSig)
  | .lt => (!nan && decide (a.cmp b < 0), nan)
  | .le => (!nan && decide (a.cmp b ≤ 0), nan)

/-! ### Tile and vent instructions (R293 to R323) -/

/-- The tile instructions: the registers they capture and the tile they write (R293, R316). -/
def tileForm : Instr → Option (XReg × XReg × Option TReg)
  | .tzero td | .tadd td _ | .ttr td _ | .tmov td _ => some (0, 0, some td)
  | .tscl td rs2 => some (0, rs2, some td)
  | .tmma td rs1 rs2 | .tmmat td rs1 rs2 => some (rs1, rs2, some td)
  | .tld _ td rs1 => some (rs1, 0, some td)
  | .tbld _ rs1 rs2 => some (rs1, rs2, none)
  | .tst _ _ _ rs1 rs2 => some (rs1, rs2, none)
  | _ => none

/-- The FRESH bits after a tile instruction has been decoded (R316). -/
def freshThen (i : Instr) (td : Option TReg) (f : BitVec 4) : BitVec 4 :=
  match i, td with
  | .tzero t, _ => f ||| (1#4 <<< t.toNat)
  | _, some t => f &&& ~~~(1#4 <<< t.toNat)
  | _, none => f

/-- The four transfers and the decoding push: FUNC, whether it decodes, NOCQ, the reuse code and the operands (R310). -/
def ventForm : Instr → Option (Nat × Bool × Bool × BitVec 4 × XReg × XReg)
  | .ventPush nu nocq rs1 rs2 => some (0, false, nocq, nu, rs1, rs2)
  | .ventPushDec nu nocq rs1 rs2 => some (0, true, nocq, nu, rs1, rs2)
  | .ventPull nu nocq rs1 rs2 => some (1, false, nocq, nu, rs1, rs2)
  | .ventGath nu nocq rs1 rs2 => some (2, false, nocq, nu, rs1, rs2)
  | .ventScat nu nocq rs1 rs2 => some (3, false, nocq, nu, rs1, rs2)
  | _ => none

namespace State

/-- The entry that a tile instruction makes in the window: registers as the next instruction would read them (R293, R316). -/
def tileEntry (s : State) (i : Instr) (rs1 rs2 : XReg) : TEnt :=
  let op : TOp := ⟨(wordOf i).setWidth 32, s.me.tick.rd rs1, s.me.tick.rd rs2, s.me.pc, 8 * s.dev.seq⟩
  { op := op, origs := [op], count := 0, fresh := s.myCore.fresh, rule := none, group := 0, sup := s.me.sup, st := .held,
    replay := none }

/-- A vent operation has started: its lock is registered and it has its entry (R115, R310). -/
def ventStarted (s : State) (l : Lock) (o : VOp) : State :=
  let s := s.setCore o.core { s.core o.core with locks := (s.core o.core).locks ++ [l] }
  { s with dev := { s.dev with vops := s.dev.vops ++ [o] } }

/-- The vent operations of the executing context that hold an entry. -/
def myOps (s : State) : List VOp := s.dev.vops.filter fun o => o.ctx == s.dev.cur

/-- The record of a read that a tile instruction has made ahead of a later store and that covers a range (R104). -/
def ahead (early : List Early) (slot : Bool) (a n : Nat) : Option Early :=
  early.find? fun r => r.slot = slot ∧ r.base ≤ a ∧ a + n ≤ r.base + r.bytes.length

/-- The bytes that a tile instruction reads of local memory or of the B-store: those it has read ahead, else those of now (R104). -/
def tileGets (s : State) (core : Nat) (early : List Early) (slot : Bool) (a n : Nat) : List Byte :=
  match ahead early slot a n with
  | some r => (r.bytes.drop (a - r.base)).take n
  | none => s.bytesAt (tileLoc core slot a) n

/-- Those bytes are unpoisoned when they are read, and no range lock covers them then or now (R117, R303). -/
abbrev tileFree (s : State) (core : Nat) (early : List Early) (slot : Bool) (a n : Nat) : Prop :=
  (∀ r ∈ ahead early slot a n, (∀ w ∈ r.bad, w + 8 ≤ a ∨ a + n ≤ w) ∧ ∀ l ∈ r.locks, l.2 ≤ a ∨ a + n ≤ l.1) ∧
  (ahead early slot a n = none → s.poisoned (tileLoc core slot a) n = false) ∧ (s.core core).locked slot a n false = none

/-- A use of local memory or of a B-store slot that a tile instruction may make: aligned, within its memory, allowed by the guards, no
poisoned register deciding it, locked by nobody, and unpoisoned where it is read (R303, R390). -/
abbrev tileUseOk (s : State) (core : Nat) (early : List Early) (sup : Bool) (u : TUse) : Prop :=
  let c := s.core core
  let x := s.ctx (ctxId core 0)
  let off := tileOff u.a
  if u.slot then u.a.toNat < 2 ^ 10 ∧ s.tileFree core early true (u.a.toNat * 2048) u.n
  else
    u.a.toNat % (if u.n = 32 then 32 else 64) = 0 ∧ off + u.n ≤ 0x30000 ∧ c.isStash off u.n = false ∧ c.cpois.contains cSTASHCFG = false ∧
    (sup = true ∨ (∀ k < 4, x.cpois.contains (0x404 + k) = false) ∧ off + u.n ≤ 0x2F000 ∧ x.guarded false 0 off u.n (!u.wr) u.wr = true) ∧
    (if u.wr then c.locked false off u.n true = none else s.tileFree core early false off u.n)

/-- Operand bytes in NF8 hold no reserved code (R375, R376). -/
abbrev noReserved (bs : List Byte) : Prop := ∀ b ∈ bs.take 1024, b.toNat % 128 ≠ 0x7F

/-! ### Launches and the intake (R138, R139, R142 to R144, R408) -/

/-- The physical addresses of the entries that a walk reads. -/
def walkReads (s : State) (t va : Nat) : Nat → Nat → Nat → List Nat
  | 0, _, _ => []
  | f + 1, level, table =>
    match s.stage2 t (table + 8 * bitsOf va (63 - 11 * (level + 1)) 11) with
    | none => []
    | some a =>
      let e := BitVec.ofNat 64 (s.peek (Space.hbm.loc a) 8)
      a :: if isPointer e then State.walkReads s t va f (level + 1) (lfFRAME e * 2 ^ 19) else []

/-- The page tables at a root map an address to HBM, readable or with `wr` writable and not migrating (R90, R93, R139). -/
abbrev rootMaps (s : State) (t root va : Nat) (wr : Bool) (loc : Nat) : Prop :=
  va < 2 ^ 52 ∧ inCaldera va = false ∧ loc < 2 ^ 60 ∧
  ∃ l, s.walkFrom t va 3 1 root = .leaf l ∧ (if wr then lfW l = true ∧ lfMIG l = false else lfR l = true) ∧
    s.route t l va = .ok (.hbm loc, false)

/-- What a launch with descriptor d and root record r needs, beyond a partition that may be launched: the descriptor, the placement map,
the record and every 32 bytes of the future table, waiter pool and link array are mapped to HBM; the page tables lie outside that table;
and no cache holds a line; the root record is no VENT record (R138, R139, R367). -/
structure LaunchReady (s : State) (fn p d r : Nat) (loc : Nat → Nat) : Prop where
  clean : ∀ k, s.holders k = []
  aligned : (s.vf fn).arg0.toNat % 128 = 0
  desc : ∃ x, s.stage2 fn (s.vf fn).arg0.toNat = some x ∧ s.poisoned x 128 = false ∧ s.peek x 128 = d
  ok : launchOk fn p d = true
  pmap : ∀ k < 16, ∃ x, s.rootMaps fn (ldTROOT d) (ldPMAP d + 16 * k) false x ∧ s.poisoned x 16 = false
  root : ∃ x, s.rootMaps fn (ldTROOT d) (ldROOT d) false x ∧ s.poisoned x 64 = false ∧ s.peek x 64 = r
  record : s.recordOk fn p r = true ∧ hIndex (rcWait r 0) = 0 ∧ hIndex (rcWait r 1) = 0 ∧ rcVent r = false
  empty : ∀ c ∈ s.nodeCores p, (s.core c).l1 = [] ∧ (s.core c).sect = []
  table : ∀ h, 32 * h < 104 * 2 ^ ldFUTLOG d → s.rootMaps fn (ldTROOT d) (ldFUTBASE d + 32 * h) true (loc h) ∧ loc h % 32 = 0
  apart : ∀ h, 32 * h < 104 * 2 ^ ldFUTLOG d → ∀ w ∈ s.walkReads fn (ldFUTBASE d + 32 * h) 3 1 (ldTROOT d), w + 8 ≤ 2 ^ 60 ∧
    ∀ j, 32 * j < 104 * 2 ^ ldFUTLOG d → w + 8 ≤ loc j ∨ loc j + 32 ≤ w

/-- The interface of a caldera die holds a translation of an address to unversioned HBM of this package that serves its intake (R93,
R143). -/
abbrev intakeAt (s : State) (ca : Bool) (t p va : Nat) (k : AKind) (loc : Nat) : Prop :=
  ∃ e, s.cached (4 + ca.toNat) t p va = some e ∧ lfAPT e.leaf = 0 ∧ lfVER e.leaf = false ∧ judge k false e.leaf = .ok e.leaf ∧
    s.stage2 t (gpaOf e.leaf va) = some loc ∧ s.holders (loc / 64) = [] ∧
    s.dev.tlb.contains ⟨4 + ca.toNat, t, p, va / 2 ^ entLog e.leaf, entLog e.leaf, e.leaf⟩ = true

/-- The buffer that the next frame of an entry goes to (R143). -/
def frameAt (e : Nat) : Nat := flPOOL e * 64 + flPUT e % (flNBUF e + 1) * 2 ^ (flBUFLOG e + 6)

/-- What a frame that matches entry e of a flow table needs to be taken in: a partition of the entry's tenant that is launched, a buffer
that is long enough, free and mapped, and a waiter pool with room in a table that can be written; where the record is for a vent core,
its DATA lies in the own HBM (R143, R145, R408). -/
structure FrameReady (s : State) (ca : Bool) (i e : Nat) (f : List Byte) (loc slot : Nat → Nat) : Prop where
  there : (s.cal ca).lost = false ∧ (s.cal ca).frames = []
  matched : s.flowFor ca (parseFrame f) = some (i, e)
  part : s.owns (flTEN e) (flPNODE e) = true ∧
    ((s.part (flPNODE e)).st = .running ∨ (s.part (flPNODE e)).st = .draining ∨ (s.part (flPNODE e)).st = .saved)
  record : s.recordOk (flTEN e) (flPNODE e) (flowRecord i e (frameAt e) f.length) = true
  fits : f.length ≤ 2 ^ (flBUFLOG e + 6)
  free : ∃ x, s.intakeAt ca (flTEN e) (flPNODE e) (flRETW e * 8) .load x ∧ s.poisoned x 8 = false ∧
    (flPUT e + 2 ^ 32 - s.peek x 4) % 2 ^ 32 < flNBUF e + 1
  pool : ∃ x, s.intakeAt ca (flTEN e) (flPNODE e) (flPOOL e * 64) .store x
  buffer : ∀ k < 2 ^ (flBUFLOG e + 6), s.intakeAt ca (flTEN e) (flPNODE e) (frameAt e + k) .store (loc k)
  vent : (flFLAGS e).testBit 3 = true → ∃ x l v, s.cached (interfaceOf (s.core (s.serviceOf (flPNODE e))).pmap (s.serviceOf (flPNODE e))
      (frameAt e)) (flTEN e) (flPNODE e) (frameAt e) = some x ∧ judge .place false x.leaf = .ok l ∧ frameAt e < 2 ^ 52 ∧
    inCaldera (frameAt e) = false ∧ (∃ phys, s.route (flTEN e) l (frameAt e) = .ok (.hbm phys, v))
  room : (s.part (flPNODE e)).pool.length < 2 ^ (s.part (flPNODE e)).futlog
  table : ∀ h < 2 * 2 ^ (s.part (flPNODE e)).futlog, s.tableBy (s.serviceOf (flPNODE e)) (flTEN e) (flPNODE e)
    ((s.part (flPNODE e)).futbase.toNat + 32 * 2 ^ (s.part (flPNODE e)).futlog + 32 * h) (slot h)

/-! ### The host (R342 to R348, R366 to R374) -/

/-- What a part of a meaning leaves when it is run alone. -/
def ran (s : State) (m : M Unit) : State := P.run s (m fun _ => .done) s

/-- A function's command is in progress: OP and PNODE, the tenant not paused (R344, R345, R374). -/
abbrev commanded (s : State) (fn op p : Nat) : Prop :=
  (s.vf fn).paused = false ∧ ∃ c, (s.vf fn).cmd = some c ∧ c.toNat % 256 = op ∧ c.toNat / 256 = p

/-- What an engine has asked other packages is forgotten. -/
def forgotFor (s : State) (who : Who) : State :=
  { s with dev := { s.dev.forget (· == who) with ord := 0 } }

/-- A command has ended with its RESULT (R344, R367). -/
def cmdDone (s : State) (fn : Nat) (r : BitVec 8) : State :=
  (s.setVf fn { s.vf fn with cmd := none, result := r }).forgotFor (fnWho fn)

/-- What the host sees of a step's end: BUSY 0 and RESULT; every other function's registers stand. -/
abbrev ended (s t : State) (fn : Nat) (r : BitVec 8) : Prop :=
  (t.vf fn).cmd = none ∧ (t.vf fn).result = r ∧ ∀ g, g ≠ fn → t.vf g = s.vf g

/-! ### Links (R333 to R341, R409 to R418) -/

/-- A packet of a kind has arrived on a port in service, with its CRC right and the SEQ expected, for this package, from a peer that is
not lost (R336, R338, R409). -/
abbrev arrives (s : State) (i : Nat) (p : Packet) (kind : Nat) : Prop :=
  p.kind.toNat = kind ∧ (s.link i).inService = true ∧ p.crc = packetCrc p ∧ p.seq = (s.link i).seqIn ∧ p.dpkg = s.pres.pkg ∧
  p.spkg ≠ s.pres.pkg ∧ (s.peer p.spkg.toNat).lost = false ∧ (s.peer p.spkg.toNat).incarn = some p.sinc

/-- A port changed. -/
def setLink (s : State) (i : Nat) (l : Jalic) : State :=
  { s with dev := { s.dev with links := SMap.set (fun _ => Jalic.reset) s.dev.links i l } }

/-- The port after it has accepted a packet (R336, R409). Ports whose moved packets are all acknowledged with it send what has waited
behind them (R410). -/
def linkTook (s : State) (i : Nat) (p : Packet) : State :=
  (s.setLink i (Jalic.acked p { s.link i with seqIn := (s.link i).seqIn + 1 })).ran (releaseHeld i)

/-- The requests that a packet answers have their answer (R413), and the packet has been served. -/
def answered (s : State) (p : Packet) (reqKind : Nat) : State :=
  { s with dev := { s.dev with grants := s.dev.grants + 1, reqs := s.dev.reqs.filterMap fun r =>
      let mine := r.pkt.tag = p.tag ∧ r.pkt.dpkg = p.spkg ∧ r.pkt.kind.toNat = reqKind ∧ r.ans = none ∧ r.lost = false
      let got := { r with ans := some p.payload, pois := p.poison, flag := p.addr.toNat % 4 }
      if mine then (if r.who = .left then none else some got) else some r } }

/-- Vector v of a function has been signalled: sent, pending while its Mask bit or the Function Mask is set, or without effect beyond its
table (R347; log 46). -/
def signalled (s : State) (fn v : Nat) : State :=
  if (s.vf fn).msix ≤ v then s
  else if (s.vf fn).unmasked.contains v && !(s.vf fn).fmask then { s with dev := { s.dev with out := s.dev.out ++ [.msix fn v] } }
  else s.setVf fn { s.vf fn with pending := nsInsert v (s.vf fn).pending }

/-- What the host can see of a signal. -/
abbrev hasSignalled (s t : State) (fn v : Nat) : Prop :=
  t.dev.out = (s.signalled fn v).dev.out ∧ (t.vf fn).pending = ((s.signalled fn v).vf fn).pending

/-- No packet that waits comes before this one: none of its class or a better one, and none at all when the turn is the oldest's (R152). -/
abbrev firstIn (s : State) (p : Packet) : Prop :=
  (s.dev.grants % 64 = 63 → s.dev.inq = []) ∧ ∀ x ∈ s.dev.inq, p.prio.toNat < x.prio.toNat

/-- No earlier packet for the same line or bank from the same package is still held (R97, R102). -/
abbrev noneHeld (s : State) (p : Packet) : Prop :=
  ∀ x ∈ s.dev.inq, pktOrdered x = true → x.spkg = p.spkg → orderKey x ≠ orderKey p

end State

/-- Commands on a partition of the function: OP and the states that accept them (R345, R367). -/
def partCommands : List ((Nat → Instr) × Nat × (PState → Bool)) :=
  [(.launch, 0x01, (· == .idle)), (.drain, 0x02, (· == .running)), (.resume, 0x03, (· == .saved)), (.discard, 0x04, (· == .saved)),
   (.split, 0x05, fun x => x == .idle || x == .unowned), (.release, 0x07, (· == .idle)), (.loadlm, 0x08, (· == .idle)),
   (.loadcsr, 0x09, (· == .idle)), (.setslice, 0x0A, (· != .unowned)), (.setprio, 0x0B, (· != .unowned)),
   (.setrdctl, 0x0C, (· != .unowned)), (.interrupt, 0x0D, fun x => x == .running || x == .draining)]

/-- Commands of the physical function (R348). -/
def ownerCommands : List ((Nat → Instr) × Nat) :=
  [(.assign, 0x20), (.reclaim, 0x21), (.portset, 0x22), (.vfpause, 0x23), (.vfresume, 0x24)]

/-- The answers that packets bring: their KIND, and that of the request (R334). -/
def answerKinds : List ((Nat → Packet → Instr) × Nat × Nat) :=
  [(.lineDataResponse, 0x02, 0x01), (.writeAcknowledgement, 0x04, 0x03), (.probeResponse, 0x06, 0x05), (.atomicResponse, 0x08, 0x07),
   (.calderaResponse, 0x0A, 0x09)]

namespace State

/-- A core has begun the task of a record: its slot is free, and the control context is READY at ENTRY in user mode with the record's
operands in X1 to X6 and every other register zero (R31, R137). -/
abbrev started (s t : State) (core : Nat) (q : DqRec) (r : Nat) : Prop :=
  let c := t.ctx (ctxId core 0)
  let entry := BitVec.ofNat 64 (rcEntry r)
  (t.core core).task = some ⟨((s.part q.pnode).ten).getD 0, q.pnode, q.cls, isVent core⟩ ∧ (t.core core).csrGet cTRC = 0 ∧
  (t.part q.pnode).pool = nsErase (s.part q.pnode).pool q.slot ∧ c.run = .ready ∧ c.sup = false ∧ c.wait = none ∧ c.pend = [] ∧
  (c.pc, c.q1, c.q2, c.a1, c.a2) = (entry, entry + 4, entry + 8, false, false) ∧
  (c.rd 1, c.rd 6) = (BitVec.ofNat 64 (rcData r), BitVec.ofNat 64 (rcPnode r + 2048 * rcTen r)) ∧
  (∀ k, k < 4 → c.rd (BitVec.ofNat 5 (k + 2)) = BitVec.ofNat 64 (rcArg r k)) ∧ (∀ x : XReg, 7 ≤ x.toNat → c.rd x = 0) ∧
  c.csrGet (isVent core) cFFLAGS = 0 ∧ c.csrGet (isVent core) cFRM = 0 ∧ c.csrGet (isVent core) cVL = 0

/-- The records on a vent core's deque that it may take now: their partition runs and its tenant is not paused (R150, R372). -/
def mayRun (s : State) (r : DqRec) : Bool :=
  !s.pausedTen (((s.part r.pnode).ten).getD 0) && ((s.part r.pnode).st == .running || (s.part r.pnode).st == .draining)

end State

namespace State

/-- The frame of an instruction that writes at most register rd and retires: every other register, every CSR but TRC, every flag, the
mode, the vector, tile and exception registers, the queues, every other context and core, and the rest of the package stand; a queued `vmvxs`
to rd may learn that rd has been written (R287). The program counter queue and memory are not part of it. -/
def framed (s t : State) (rd : XReg) (trc : Bool) : Prop :=
  t.dev.cur = s.dev.cur ∧ (∀ r, r ≠ rd → t.me.rd r = s.me.rd r) ∧ (∀ n, t.myCsr n = s.myCsr n) ∧ t.me.sup = s.me.sup ∧
  t.myCore.csrGet cTRC = s.myCore.csrGet cTRC + (if trc then 1 else 0) ∧ (∀ n, n ≠ cTRC → t.myCore.csrGet n = s.myCore.csrGet n) ∧
  (t.myCore.v, t.myCore.t, t.myCore.win, t.myCore.task) = (s.myCore.v, s.myCore.t, s.myCore.win, s.myCore.task) ∧
  (t.myCore.vq = s.myCore.vq ∨ s.me.busy rd = true ∧ ∃ d, t.myCore.vq = (Core.overtake s.dev.cur rd d s.myCore).vq) ∧
  (t.myCore.cq, t.myCore.locks, t.myCore.deque, t.myCore.l1, t.myCore.stash) =
    (s.myCore.cq, s.myCore.locks, s.myCore.deque, s.myCore.l1, s.myCore.stash) ∧
  (t.me.recvq, t.me.slot) = (s.me.recvq, s.me.slot) ∧
  (∀ k, k ≠ s.dev.cur → t.ctx k = s.ctx k) ∧ (∀ c, c ≠ coreOf s.dev.cur → t.core c = s.core c) ∧
  (t.clusters, t.parts, t.vfs, t.ports, t.caches, t.cals) = (s.clusters, s.parts, s.vfs, s.ports, s.caches, s.cals) ∧
  (t.vers, t.shadow, t.pres, t.cycle, t.ref) = (s.vers, s.shadow, s.pres, s.cycle, s.ref)

end State

end Sys2Proof.Machine
end

