-- ==== Sys2Proof/Certificates/Slice0/Obligations.lean ====
section
/-!
DEFINITION. The statements for the provers. `s.retired` is the end of an instruction's step (statement QueueStep says what
it does); `s.wrote rd v` is the state with X[rd] := v.
-/

open Sys2Proof Sys2Proof.Machine

/-! ### Scalar instructions -/

/-- R188: each register operation sets X[rd] to the value of its row and completes one step; nothing else changes. R189: division, with
every case of the table. R193: word operations on the low 32 bits, sign-extended. -/
def Obligations.RegisterOps : Prop :=
  (∀ e ∈ opTable, ∀ (rd rs1 : XReg) (o : S2) (s : State),
    s.readable rs1 → s.s2Readable o →
    exec (e.1 rd rs1 o) s = .next (s.wrote rd (e.2 (s.x rs1) (s.s2 o))).retired) ∧
  (∀ e ∈ divTable, ∀ (rd rs1 : XReg) (o : S2) (s : State),
    s.readable rs1 → s.s2Readable o →
    exec (e.1 rd rs1 o) s = .next (s.wrote rd (e.2 (s.x rs1) (s.s2 o))).retired) ∧
  (∀ e ∈ wordTable, ∀ (rd rs1 : XReg) (o : S2) (s : State),
    s.readable rs1 → s.s2Readable o →
    exec (e.1 rd rs1 o) s =
      .next (s.wrote rd ((e.2 ((s.x rs1).setWidth 32) ((s.s2 o).setWidth 32)).signExtend 64)).retired)

/-- R190, R191, R192: bit instructions, `sel` and `lea`. R194, R195: immediate operations, `lui` and `auipc`. -/
def Obligations.BitAndImmediateOps : Prop :=
  ((∀ e ∈ bitTable, ∀ (rd rs1 : XReg) (s : State), s.readable rs1 →
    exec (e.1 rd rs1) s = .next (s.wrote rd (e.2 (s.x rs1))).retired) ∧
  (∀ (rd rs1 : XReg) (o : S2) (s : State), s.readable rs1 → s.s2Readable o → s.readable rd →
    let p := (s.s2 o).toNat % 64
    let l := (s.s2 o).toNat / 64 % 64 + 1
    exec (.ext rd rs1 o) s =
      .next (s.wrote rd (BitVec.ofNat 64 ((s.x rs1).toNat / 2 ^ p % 2 ^ l))).retired ∧
    exec (.ins rd rs1 o) s =
      .next (s.wrote rd ((s.x rd &&& ~~~BitVec.ofNat 64 ((2 ^ l - 1) * 2 ^ p)) |||
        BitVec.ofNat 64 ((s.x rs1).toNat % 2 ^ l * 2 ^ p))).retired ∧
    exec (.sel rd rs1 o) s = .next (s.wrote rd (if s.x rd ≠ 0 then s.x rs1 else s.s2 o)).retired) ∧
  (∀ (n : BitVec 2) (rd rs1 : XReg) (o : S2) (s : State), s.readable rs1 → s.s2Readable o →
    exec (.lea n rd rs1 o) s =
      .next (s.wrote rd (BitVec.ofNat 64 ((s.x rs1).toNat + (s.s2 o).toNat * 2 ^ n.toNat))).retired)) ∧
  ((∀ e ∈ immTable, ∀ (rd rs1 : XReg) (imm : BitVec 12) (s : State), s.readable rs1 →
    exec (e.1 rd rs1 imm) s = .next (s.wrote rd (e.2 (s.x rs1) imm)).retired) ∧
  (∀ e ∈ shiftTable, ∀ (rd rs1 : XReg) (sh : BitVec 6) (s : State), s.readable rs1 →
    exec (e.1 rd rs1 sh) s = .next (s.wrote rd (e.2 (s.x rs1) sh)).retired) ∧
  (∀ (rd : XReg) (imm : BitVec 20) (s : State),
    exec (.lui rd imm) s = .next (s.wrote rd (BitVec.ofInt 64 (imm.toInt * 2 ^ 12))).retired ∧
    exec (.auipc rd imm) s = .next (s.wrote rd (s.me.pc + BitVec.ofInt 64 (imm.toInt * 2 ^ 12))).retired))

/-- R196, R197: branches and jumps. -/
def Obligations.BranchesAndJumps : Prop :=
  (∀ e ∈ branchTable, ∀ (annul : Bool) (rs1 : XReg) (o : S2) (off : BitVec 9) (s : State),
    s.readable rs1 → s.s2Readable o →
    exec (e.1 annul rs1 o off) s = .next (s.retired
      { target := if e.2 (s.x rs1) (s.s2 o) then some (s.me.pc + BitVec.ofInt 64 (4 * off.toInt)) else none,
        annul := annul })) ∧
  (∀ (rd : XReg) (imm : BitVec 20) (s : State),
    exec (.jal rd imm) s = .next ((s.wrote rd (s.me.pc + 12)).retired
      { target := some (s.me.pc + BitVec.ofInt 64 (4 * imm.toInt)) })) ∧
  (∀ (rd rs1 : XReg) (imm : BitVec 12) (s : State), s.readable rs1 →
    exec (.jalr rd rs1 imm) s = .next ((s.wrote rd (s.me.pc + 12)).retired
      { target := some ((s.x rs1 + imm.signExtend 64) &&& ~~~3) }))

/-- R40: the queue after one step. With the annul bits as the step finds them or sets them, an entry that is annulled retires when it
reaches pc, so that the step ends at the first entry that executes. R39: an exposed local load lands when the two instructions after it
have executed; two of them land in program order. -/
def Obligations.QueueStep : Prop :=
  (∀ (f : Fin) (s : State), s.me.pend = [] →
    let n := f.target.getD (s.me.q2 + 4)
    let a1 := s.me.a1 || (f.annul && f.target.isNone)
    let a2 := s.me.a2 || (f.annul && f.target.isNone)
    let c := (s.retired f).me
    (c.pc, c.q1, c.q2, c.a1, c.a2) =
      if a1 && a2 then (n, n + 4, n + 8, false, false)
      else if a1 then (s.me.q2, n, n + 4, false, false)
      else (s.me.q1, s.me.q2, n, a2, false)) ∧
  (∀ (s : State) (p q : Pend), s.me.a1 = false → s.me.pend = [p, q] → 0 < p.left → 0 < q.left →
    let c := s.retired.me
    c.pend = ([p, q].filter fun e => 1 < e.left).map (fun e => { e with left := e.left - 1 }) ∧
    ∀ r : XReg, c.rd r =
      if q.left = 1 ∧ r = q.rd ∧ r ≠ 0 then q.val else if p.left = 1 ∧ r = p.rd ∧ r ≠ 0 then p.val else s.me.rd r)

/-- R275: a register that a queued `vmvxs` has still to write holds an instruction back, which changes nothing until then; and R390:
reading a poisoned register takes POISON with XVAL 0, before anything else of the instruction. -/
def Obligations.OperandsHeldBack : Prop :=
  ∀ e ∈ opTable ++ divTable, ∀ (rd rs1 : XReg) (o : S2) (s : State),
    (s.me.busy rs1 = true → exec (e.1 rd rs1 o) s = .next s) ∧
    (s.me.busy rs1 = false → s.me.bad rs1 = true → s.noTiles →
      exec (e.1 rd rs1 o) s = .next (s.took { code := 0x0D, val := 0 }))

/-! ### CSRs, traps and context control -/

/-- R198: `csrr` reads; `csrw`, `csrs` and `csrc` read and write in one step, the last two writing nothing when the rs1 field is 0; RO
and reserved fields keep their values (R6, R160). STASHCFG is written as the statement CacheControl says. -/
def Obligations.CsrAccess : Prop :=
  ∀ (rd rs1 : XReg) (csr : BitVec 12) (s : State),
    let n := csr.toNat
    let old := s.csr s.dev.cur n
    s.csrBad s.dev.cur n = false →
    (s.csrReadOk n → s.flagsSettled n → exec (.csrr rd csr) s = .next (s.wrote rd old).retired) ∧
    (s.csrWriteOk n → s.readable rs1 → n ≠ 0x005 → (csrFlushes n = true → s.noTiles) →
      exec (.csrw rd rs1 csr) s =
        .next ((s.csrWritten n ((old &&& ~~~csrMask n) ||| (s.x rs1 &&& csrMask n))).wrote rd old).retired) ∧
    (s.readable rs1 → s.flagsSettled n →
      (rs1 = 0 → s.csrReadOk n → exec (.csrs rd 0 csr) s = .next (s.wrote rd old).retired ∧
        exec (.csrc rd 0 csr) s = .next (s.wrote rd old).retired) ∧
      (rs1 ≠ 0 → s.csrWriteOk n → n ≠ 0x005 → (csrFlushes n = true → s.noTiles) →
        exec (.csrs rd rs1 csr) s =
          .next ((s.csrWritten n ((old &&& ~~~csrMask n) ||| ((old ||| s.x rs1) &&& csrMask n))).wrote rd old).retired ∧
        exec (.csrc rd rs1 csr) s =
          .next ((s.csrWritten n ((old &&& ~~~csrMask n) ||| ((old &&& ~~~s.x rs1) &&& csrMask n))).wrote rd old).retired))

/-- R160, R431: a CSR access that the mode does not allow takes PRIVILEGE with the word as XVAL, and changes nothing else; so do the
supervisor instructions in user mode. -/
def Obligations.PrivilegeRules : Prop :=
  ∀ (rd rs1 : XReg) (csr : BitVec 12) (s : State), s.noTiles → ¬(s.onVent = true ∧ csrVentReserved csr.toNat = true) →
    let refused := fun (i : Instr) => exec i s = .next (s.took { code := 0x03, val := ((encode i).getD 0).setWidth 64 })
    (s.me.sup = false → csrClass csr.toNat = .supervisor → refused (.csrr rd csr) ∧ refused (.csrs rd 0 csr) ∧ refused (.csrc rd 0 csr)) ∧
    (csrClass csr.toNat = .readOnly ∨ s.me.sup = false ∧ csrClass csr.toNat ≠ .user →
      refused (.csrw rd rs1 csr) ∧ (rs1 ≠ 0 → refused (.csrs rd rs1 csr) ∧ refused (.csrc rd rs1 csr))) ∧
    (s.me.sup = false → ∀ (kind : TlbiKind) (sel : BitVec 12), ¬(s.onVent = true ∧ sel = 0x4F) →
      ∀ i ∈ [Instr.xret, .tlbi kind, .ctxrd rd rs1 sel, .ctxwr rd rs1 sel, .ctxres rs1, .ctxkill rs1], refused i)

/-- R42, R201: trap entry, for a cause of the handler class with a handler, or on the service core's control context (R360; with XTVEC 0 it
enters its handler at 0 all the same, log 29, DEDUCED). R356, R357: elsewhere a parking-class cause, and any cause while XTVEC is 0, writes
the trap CSRs, parks the context in its mode, and posts a FAULT or a HANDLER message for the partition's service core; other contexts run on.
-/
def Obligations.TrapEntry : Prop :=
  (∀ (code : BitVec 8) (val : Word) (s : State),
    s.isService s.dev.cur = true ∨ (parkingClass code = false ∧ s.myCsr cXTVEC ≠ 0) → s.me.hasActed = false →
    let t := s.took { code := code, val := val }
    let c := t.me
    t.myCsr cXPC0 = s.me.pc ∧ t.myCsr cXPC1 = s.me.q1 ∧ t.myCsr cXPC2 = s.me.q2 ∧ t.myCsr cXRESUME = s.me.pc ∧
    t.myCsr cXCAUSE = code.setWidth 64 ∧ t.myCsr cXVAL = val ∧
    t.myCsr cXSTAT = BitVec.ofNat 64 (s.me.a1.toNat + 2 * s.me.a2.toNat + 4 * s.me.sup.toNat) ∧
    c.pend = [] ∧ c.sup = true ∧ c.a1 = false ∧ c.a2 = false ∧ c.run = .ready ∧
    (c.pc, c.q1, c.q2) = (s.myCsr cXTVEC, s.myCsr cXTVEC + 4, s.myCsr cXTVEC + 8) ∧
    t.mem = s.mem ∧ t.cores = s.cores ∧ t.parts = s.parts ∧ ∀ k, k ≠ s.dev.cur → t.ctx k = s.ctx k) ∧
  (∀ (code : BitVec 8) (val : Word) (s : State),
    s.isService s.dev.cur = false → (parkingClass code = true ∨ s.myCsr cXTVEC = 0) → s.me.hasActed = false →
    let t := s.took { code := code, val := val }
    let p := s.pnodeOf (coreOf s.dev.cur)
    t.myCsr cXPC0 = s.me.pc ∧ t.myCsr cXPC1 = s.me.q1 ∧ t.myCsr cXPC2 = s.me.q2 ∧ t.myCsr cXRESUME = s.me.pc ∧
    t.myCsr cXCAUSE = code.setWidth 64 ∧ t.myCsr cXVAL = val ∧
    t.me.sup = s.me.sup ∧ t.me.pc = s.me.pc ∧ t.me.run = .parked ∧ (t.me.wait.map fun w => w.cls) = some .fault ∧
    (∀ k, k ≠ s.dev.cur → t.ctx k = s.ctx k) ∧ t.mem = s.mem ∧ t.cores = s.cores ∧
    (s.part? p ≠ none → ∃ m : Msg, (t.part p).mbq = (s.part p).mbq ++ [m] ∧ m.sender = s.ctxIdVal s.dev.cur ∧
      (m.payload.getD 0 0).toNat = (if parkingClass code then 4 else 6) ∧ (m.payload.getD 1 0) = code ∧ leNat ((m.payload.drop 8).take 8) = val.toNat))

/-- R202: `ecall` and `brk` complete one step and take their trap in front of the next instruction; on the service core's control context with
XTVEC 0 too (R360; log 29, DEDUCED), while another context without a handler parks and is reported (R356). R203: `xret` restores the queue,
the annul bits and the mode; with IDLE the context enters IDLE with an empty receive queue (for a helper that is log 45), with PWAIT it waits on
(R449). -/
def Obligations.TrapsAndReturns : Prop :=
  (∀ (s : State), s.noTiles → s.isService s.dev.cur = true ∨ s.myCsr cXTVEC ≠ 0 →
    exec .ecall s = .next ((s.retired.withMe (Ctx.trap s.onVent { code := 0x10, val := 0 })).forgot) ∧
    exec .brk s = .next ((s.retired.withMe (Ctx.trap s.onVent { code := 0x0F, val := 0 })).forgot)) ∧
  (∀ (s : State), s.noTiles → s.isService s.dev.cur = false → s.myCsr cXTVEC = 0 → ∀ e ∈ [(Instr.ecall, 0x10#64), (Instr.brk, 0x0F#64)],
    ∃ t, exec e.1 s = .next t ∧ t.me.run = .parked ∧ (t.me.wait.map fun w => w.cls) = some .fault ∧
      (t.me.pc, t.me.q1, t.me.q2) = (s.retired.me.pc, s.retired.me.q1, s.retired.me.q2) ∧ t.me.sup = s.me.sup ∧
      t.myCsr cXCAUSE = e.2 ∧ t.myCsr cXPC0 = s.retired.me.pc ∧ t.mem = s.mem) ∧
  (∀ (s : State), s.me.sup = true → s.me.pend = [] →
    (∀ n ∈ [cXSTAT, cXRESUME, cXPC1, cXPC2] ++ s.replayCsrs s.dev.cur, s.csrBad s.dev.cur n = false) →
    let st := s.myCsr cXSTAT
    ∃ t, exec .xret s = .next t ∧ t.me.sup = st.getLsbD 2 ∧ t.mem = s.mem ∧ (∀ r, t.me.rd r = s.me.rd r) ∧
      (∀ k, k ≠ s.dev.cur → t.ctx k = s.ctx k) ∧
      if st.getLsbD 3 then t.me.run = .idle ∧ t.me.recvq = []
      else (t.me.pc, t.me.q1, t.me.q2, t.me.a1, t.me.a2) =
          (s.myCsr cXRESUME, s.myCsr cXPC1, s.myCsr cXPC2, st.getLsbD 0, st.getLsbD 1) ∧
        t.me.run = if st.getLsbD 14 then .parked else .ready)

/-- R205, R206, R208, R107: `park` with a message present and `fence.i` go on at once; `fence` does when everything before it has been
performed, `fence.i` also when the window holds no store; `hnotify` signals its vector, which a mask bit keeps pending, or counts it in
HNDROP when the table has no such entry (R347). R205, R37: `park` without a message parks the context, which waits on a message; its queue
stands, so that it executes again. -/
def Obligations.ParkFenceNotify : Prop :=
  (∀ (s : State),
    (s.me.recvq ≠ [] → exec .park s = .next s.retired) ∧
    (s.vecDone → s.noTiles → exec .fenceI s = .next s.retired) ∧
    (s.fenced → ∀ (k : FenceKind) (c : Scope), exec (.fence k c) s = .next s.retired) ∧
    (s.fenced → ∀ (rs1 : XReg), s.readable rs1 →
      let t := s.tenOf (coreOf s.dev.cur)
      let n := (s.x rs1).toNat % 2048
      exec (.hnotify rs1) s = .next (
        if n < (s.vf t).msix then s.signalled t n
        else s.setVf t { s.vf t with hndrop := (s.vf t).hndrop + 1 }).retired)) ∧
  (∀ (s : State), s.noTiles → s.me.recvq = [] →
    ∃ t, exec .park s = .next t ∧ t.me.run = .parked ∧ (t.me.wait.map fun w => (w.cls, w.acted)) = some (.message, none) ∧
      (t.me.pc, t.me.q1, t.me.q2, t.me.a1, t.me.a2) = (s.me.pc, s.me.q1, s.me.q2, s.me.a1, s.me.a2) ∧
      t.me.x = s.me.x ∧ t.mem = s.mem ∧ ∀ k, k ≠ s.dev.cur → t.ctx k = s.ctx k)

/-- R211: `ctxrd` and `ctxwr` of each item of a STOPPED context: its registers, the CSRs 0x40 to 0x4F under their field maps, its queue,
FLAGS and STATE; a write of STATE ends a helper, or with the control context the whole task. FFLAGS is read once the target's queued vector
instructions have retired (R199). A misaligned queue address, a VL above 64 and another STATE take ILLEGAL_OPERAND. R210, R212: `ctxkill`
stops a context that runs or is parked (one with no message to spill); `ctxres` returns a STOPPED context that waits on nothing to READY
with the queue it holds, once what it had issued is performed (R107). -/
def Obligations.ContextControl : Prop :=
  (∀ (rd rs1 : XReg) (k : Nat) (s : State),
    let n := (s.x rs1).toNat % 16
    let t := ctxId (coreOf s.dev.cur) n
    let sel : BitVec 12 := BitVec.ofNat 12 k
    s.me.sup = true → s.readable rs1 → n < ctxCount (coreOf s.dev.cur) → n ≠ ctxOf s.dev.cur → (s.ctx t).run = .stopped →
    (
      (k < 32 → (s.ctx t).busy (BitVec.ofNat 5 k) = false → (s.ctx t).bad (BitVec.ofNat 5 k) = false →
        exec (.ctxrd rd rs1 sel) s = .next (s.wrote rd ((s.ctx t).rd (BitVec.ofNat 5 k))).retired) ∧
      (0x40 ≤ k → k < 0x50 → (s.onVent = true → k ≠ 0x4F) → (s.ctx t).cpois.contains (selCsr (k - 0x40)) = false →
        (k = 0x40 → (s.myCore.vq.any fun e => e.ctx == t) = false) →
        exec (.ctxrd rd rs1 sel) s = .next (s.wrote rd ((s.ctx t).csrGet s.onVent (selCsr (k - 0x40)))).retired) ∧
      exec (.ctxrd rd rs1 0x80) s = .next (s.wrote rd (s.ctx t).pc).retired ∧
      exec (.ctxrd rd rs1 0x81) s = .next (s.wrote rd (s.ctx t).q1).retired ∧
      exec (.ctxrd rd rs1 0x82) s = .next (s.wrote rd (s.ctx t).q2).retired ∧
      exec (.ctxrd rd rs1 0x83) s = .next (s.wrote rd (BitVec.ofNat 64
        ((s.ctx t).a1.toNat + 2 * (s.ctx t).a2.toNat + 4 * (s.ctx t).sup.toNat + 8 * (s.ctx t).pwait.toNat))).retired ∧
      exec (.ctxrd rd rs1 0x84) s = .next (s.wrote rd 4).retired) ∧
    (s.readable rd →
      (k < 32 → (s.ctx t).busy (BitVec.ofNat 5 k) = false →
        exec (.ctxwr rd rs1 sel) s = .next (s.setCtx t ((s.ctx t).wr (BitVec.ofNat 5 k) (s.x rd))).retired) ∧
      ((s.x rd).toNat % 4 = 0 →
        exec (.ctxwr rd rs1 0x80) s = .next (s.setCtx t { s.ctx t with pc := s.x rd }).retired ∧
        exec (.ctxwr rd rs1 0x81) s = .next (s.setCtx t { s.ctx t with q1 := s.x rd }).retired ∧
        exec (.ctxwr rd rs1 0x82) s = .next (s.setCtx t { s.ctx t with q2 := s.x rd }).retired) ∧
      (0x40 ≤ k → k < 0x50 → (s.onVent = true → k ≠ 0x4F) → (k = 0x4F → (s.x rd).toNat ≤ 64) →
        let m := selCsr (k - 0x40)
        let new := if k = 0x4F then s.x rd else ((s.ctx t).csrGet s.onVent m &&& ~~~csrMask m) ||| (s.x rd &&& csrMask m)
        exec (.ctxwr rd rs1 sel) s = .next (s.setCtx t ((s.ctx t).csrSet s.onVent m new)).retired) ∧
      exec (.ctxwr rd rs1 0x83) s = .next (s.setCtx t { s.ctx t with
        a1 := (s.x rd).getLsbD 0, a2 := (s.x rd).getLsbD 1, sup := (s.x rd).getLsbD 2, pwait := (s.x rd).getLsbD 3 }).retired ∧
      (n ≠ 0 → s.x rd = 1 → ∃ u, exec (.ctxwr rd rs1 0x84) s = .next u ∧ (u.ctx t).run = .free ∧ (u.ctx t).recvq = [] ∧
        (u.ctx t).wait = none ∧ u.mem = s.mem ∧ (u.me.pc, u.me.run) = (s.retired.me.pc, .ready) ∧
        (∀ j, j ≠ t → j ≠ s.dev.cur → u.ctx j = s.ctx j)) ∧
      (n = 0 → s.x rd = 0 → ∃ u, exec (.ctxwr rd rs1 0x84) s = .next u ∧ (u.core (coreOf s.dev.cur)).task = none ∧
        (u.ctx t).run = .idle ∧ (u.ctx t).recvq = [] ∧ (∀ h ∈ helpersOf (coreOf s.dev.cur), (u.ctx h).run = .free) ∧ u.mem = s.mem) ∧
      (s.noTiles →
        ((s.x rd).toNat % 4 ≠ 0 → ∀ q ∈ [0x80#12, 0x81#12, 0x82#12],
          exec (.ctxwr rd rs1 q) s = .next (s.took { code := 0x02, val := s.x rd })) ∧
        (s.onVent = false → 64 < (s.x rd).toNat → exec (.ctxwr rd rs1 0x4F) s = .next (s.took { code := 0x02, val := s.x rd })) ∧
        (s.x rd ≠ (if n = 0 then 0 else 1) → exec (.ctxwr rd rs1 0x84) s = .next (s.took { code := 0x02, val := s.x rd }))))) ∧
  (∀ (rs1 : XReg) (s : State),
    let n := (s.x rs1).toNat % 16
    let t := ctxId (coreOf s.dev.cur) n
    s.me.sup = true → s.readable rs1 → n < ctxCount (coreOf s.dev.cur) → n ≠ ctxOf s.dev.cur →
    ((s.ctx t).run = .ready ∨ (s.ctx t).run = .parked → (s.ctx t).midAccess = false → (s.ctx t).recvq = [] → s.noTiles →
      ∃ u, exec (.ctxkill rs1) s = .next u ∧ (u.ctx t).run = .stopped ∧ (u.ctx t).pend = [] ∧ (u.ctx t).pc = (s.ctx t).pc ∧
        (u.ctx t).pwait = (s.ctx t).hasActed ∧ u.mem = s.mem) ∧
    ((s.ctx t).run = .free ∨ (s.ctx t).run = .idle → exec (.ctxkill rs1) s = .next s.retired) ∧
    ((s.ctx t).run = .stopped → (∀ e ∈ s.myCore.vq, e.ctx = t → isVmem e.instr = false) → (n = 0 → s.noTiles) →
      (s.ctx t).pwait = false → (s.ctx t).wait = none → (s.ctx t).recvq = [] → (s.ctx t).spilled = 0 →
      exec (.ctxres rs1) s = .next (s.arrived.setCtx t { s.ctx t with run := .ready }).retired) ∧
    ((s.ctx t).run ≠ .stopped → exec (.ctxres rs1) s = .next s.retired))

/-! ### Memory -/

/-- R73, R74, R41: what a user-mode access of n bytes at an offset of the own LOCAL window of a compute core may reach, when no byte of
it is stash: some enabled guard of window LOCAL must cover it with the permissions it needs, and the reserved area is out of reach. -/
def Obligations.LocalGuard : Prop :=
  ∀ (use : Use) (off n : Nat) (s : State), 0 < n → off + n ≤ 0x30000 → use ≠ .ver → use ≠ .verW →
    s.onVent = false → (s.myCore.isStash off n) = false →
    let covers := fun (g : Word) => g.getLsbD 63 = true ∧ (use.writes = true → g.getLsbD 62 = true) ∧
      (use.reads = true → g.getLsbD 61 = true) ∧ g.toNat / 2 ^ 59 % 4 = 0 ∧
      g.toNat % 2 ^ 21 ≤ off ∧ off + n ≤ g.toNat / 2 ^ 32 % 2 ^ 21
    let ok := off + n ≤ 0x2F000 ∧
      (covers (s.myCsr 0x404) ∨ covers (s.myCsr 0x405) ∨ covers (s.myCsr 0x406) ∨ covers (s.myCsr 0x407))
    let w := s.window s.dev.cur use (0xFFF0000000000000 + off) n
    (s.me.sup = true ∨ ok → w = .ok (some (.lm (coreOf s.dev.cur) off))) ∧
    (s.me.sup = false → ¬ok → w = .error 0x05)

/-- R216: each load from a local memory, the own LOCAL window or a slot of the CLUSTER window. R217: each store to a local memory: it
changes exactly the n bytes it names. R229: `ld` reads a register of the EVENT window, and `sd` sets PMASK of a barrier at which none has arrived
and nothing else. R76: supervisor code reads the DEVICE window with `ld`. -/
def Obligations.LoadsAndStores : Prop :=
  (∀ e ∈ loadTable, ∀ (rd rs1 : XReg) (off : BitVec 8) (nu : BitVec 4) (core o : Nat) (s : State),
    let va := eaOf (s.x rs1) off e.2.1
    s.readable rs1 → s.localAt .load va e.2.1 core o →
    s.poisoned ((Space.lm core).loc o) e.2.1 = false →
    exec (e.1 rd rs1 off nu) s =
      .next ((s.loaded rd va (e.2.2 (s.peek ((Space.lm core).loc o) e.2.1))).retired { trc := true })) ∧
  (∀ e ∈ storeTable, ∀ (rs rs1 : XReg) (off : BitVec 8) (nu : BitVec 4) (core o : Nat) (s : State),
    s.readable rs1 → s.readable rs → s.localAt .store (eaOf (s.x rs1) off e.2) e.2 core o →
    exec (e.1 rs rs1 off nu) s =
      .next ((s.stored ((Space.lm core).loc o) e.2 (s.x rs).toNat).retired { trc := true })) ∧
  (∀ (r rs1 : XReg) (off : BitVec 8) (nu : BitVec 4) (o : Nat) (s : State), s.readable rs1 → s.fenced →
    let va := eaOf (s.x rs1) off 8
    let u := s.cluster s.myCluster
    va.toNat % 8 = 0 → s.windowBad s.dev.cur va.toNat = false →
    (s.window s.dev.cur .load va.toNat 8 = .ok (some (.event o)) →
      ∃ v, exec (.ld r rs1 off nu) s = .next ((s.wrote r v).retired { trc := true }) ∧ eventReads u o v) ∧
    (s.readable r → s.window s.dev.cur .store va.toNat 8 = .ok (some (.event o)) →
      ∃ t, exec (.sd r rs1 off nu) s = .next t ∧ t.me.run = .ready ∧ t.mem = s.mem ∧ (∀ k, k ≠ s.myCluster → t.cluster k = s.cluster k) ∧
        (∀ i, (t.cluster s.myCluster).bar i =
          if o = 8 * i ∧ i < 4 ∧ (u.bar i).arr = 0 then { u.bar i with pmask := (s.x r).setWidth 4 } else u.bar i) ∧
        ((t.cluster s.myCluster).lines, (t.cluster s.myCluster).mutex, (t.cluster s.myCluster).intv) = (u.lines, u.mutex, u.intv)) ∧
    (s.window s.dev.cur .load va.toNat 8 = .ok (some (.device o)) →
      ∃ v, exec (.ld r rs1 off nu) s = .next ((s.wrote r v).retired { trc := true }) ∧ s.deviceReads (coreOf s.dev.cur) o v))

/-- R216, R217, R80: a load and a store that the own L1 or stash serves exclusively act on the bytes of the line's home; so do those of a line
that no cache holds, which the core then holds E after a load and M after a store, and those of a page that is not cached, after which no
cache holds it. -/
def Obligations.GlobalHits : Prop :=
  (∀ e ∈ loadTable, ∀ (rd rs1 : XReg) (off : BitVec 8) (nu : BitVec 4) (phys : Nat) (s : State),
    s.readable rs1 → s.hitAt .load (eaOf (s.x rs1) off e.2.1) e.2.1 phys → s.poisoned phys e.2.1 = false →
    (nu = 0 → s.myCore.cpois.contains cRDEF = false) → s.me.pend = [] →
    ∃ t, exec (e.1 rd rs1 off nu) s = .next t ∧ t.mem = s.mem ∧ t.pois = s.pois ∧ t.me.run = .ready ∧
      ∀ r, t.me.rd r = if r = rd ∧ r ≠ 0 then e.2.2 (s.peek phys e.2.1) else s.me.rd r) ∧
  (∀ e ∈ storeTable, ∀ (rs rs1 : XReg) (off : BitVec 8) (nu : BitVec 4) (phys : Nat) (s : State),
    s.readable rs1 → s.readable rs → s.hitAt .store (eaOf (s.x rs1) off e.2) e.2 phys →
    (nu = 0 → s.myCore.cpois.contains cRDEF = false) → s.me.pend = [] →
    ∃ t, exec (e.1 rs rs1 off nu) s = .next t ∧ t.mem = Memory.writes s.mem phys (leBytes e.2 (s.x rs).toNat) ∧
      t.me.run = .ready ∧ ∀ r, t.me.rd r = s.me.rd r) ∧
  (∀ (rs1 : XReg) (off : BitVec 8) (nu : BitVec 4) (phys : Nat) (te : TlbEnt) (s : State), s.readable rs1 →
    (nu = 0 → s.myCore.cpois.contains cRDEF = false) → s.me.pend = [] →
    let loc := Space.hbm.loc phys
    let held := fun (t : State) (st : LSt) =>
      if cacheable (coreOf s.dev.cur) te.leaf then t.stateIn (loc / 64) (s.coreHolder (coreOf s.dev.cur)) = some st else t.holders (loc / 64) = []
    (∀ e ∈ loadTable, ∀ rd, s.missAt .load (eaOf (s.x rs1) off e.2.1) e.2.1 phys te → s.poisoned loc e.2.1 = false →
      ∃ t, exec (e.1 rd rs1 off nu) s = .next t ∧ t.mem = s.mem ∧ t.pois = s.pois ∧ t.me.run = .ready ∧ held t .e ∧
        ∀ r, t.me.rd r = if r = rd ∧ r ≠ 0 then e.2.2 (s.peek loc e.2.1) else s.me.rd r) ∧
    (∀ e ∈ storeTable, ∀ rs, s.readable rs → s.missAt .store (eaOf (s.x rs1) off e.2) e.2 phys te →
      ∃ t, exec (e.1 rs rs1 off nu) s = .next t ∧ t.mem = Memory.writes s.mem loc (leBytes e.2 (s.x rs).toNat) ∧ t.me.run = .ready ∧
        held t .m ∧ ∀ r, t.me.rd r = s.me.rd r))

/-- R213 step 1, and R74: a misaligned load or store takes MISALIGNED, and one that the window refuses takes the window's cause, both
with the address as XVAL and nothing else changed. R390: where a poisoned register decides the window, POISON with XVAL 0 comes first
(log 45). -/
def Obligations.AccessFaults : Prop :=
  ∀ (s : State) (off : BitVec 8) (nu : BitVec 4) (r rs1 : XReg), s.readable rs1 → s.readable r → s.fenced →
    (∀ e ∈ loadTable, let va := eaOf (s.x rs1) off e.2.1
      (va.toNat % e.2.1 ≠ 0 → exec (e.1 r rs1 off nu) s = .next (s.took { code := 0x04, val := va })) ∧
      (∀ c, va.toNat % e.2.1 = 0 → s.windowBad s.dev.cur va.toNat = false → s.window s.dev.cur .load va.toNat e.2.1 = .error c →
        exec (e.1 r rs1 off nu) s = .next (s.took { code := c, val := va })) ∧
      (va.toNat % e.2.1 = 0 → s.windowBad s.dev.cur va.toNat = true →
        exec (e.1 r rs1 off nu) s = .next (s.took { code := 0x0D, val := 0 }))) ∧
    (∀ e ∈ storeTable, let va := eaOf (s.x rs1) off e.2
      (va.toNat % e.2 ≠ 0 → exec (e.1 r rs1 off nu) s = .next (s.took { code := 0x04, val := va })) ∧
      (∀ c, va.toNat % e.2 = 0 → s.windowBad s.dev.cur va.toNat = false → s.window s.dev.cur .store va.toNat e.2 = .error c →
        exec (e.1 r rs1 off nu) s = .next (s.took { code := c, val := va })))

/-- R221, R222: the atomics on a local memory, one step at the SRAM; the old value is written at once, even from LOCAL. `amo.cas`
writes when the old value is X[rd]; `amo.fadd` rounds under FRM and ORs its flags. R223: the reductions on a local memory, in place;
they return nothing and set no flag. -/
def Obligations.AtomicsAndReductions : Prop :=
  (∀ (w : Bool) (ord : BitVec 4) (rd rs1 rs2 : XReg) (core o : Nat) (s : State),
    let n := widthBytes w
    let loc := (Space.lm core).loc o
    let old := s.peek loc n
    let b := (s.x rs2).toNat % 2 ^ widthBits w
    let answer := (BitVec.ofNat (widthBits w) old).signExtend 64
    s.readable rs1 → s.readable rs2 → s.readable rd → s.localAt .amo (s.x rs1) n core o → s.poisoned loc n = false →
    (∀ e ∈ amoTable, exec (e.1 w ord rd rs1 rs2) s =
      .next (((s.stored loc n (e.2 (widthBits w) old b)).wrote rd answer).retired { trc := true })) ∧
    exec (.amoCas w ord rd rs1 rs2) s =
      .next (((if old = (s.x rd).toNat % 2 ^ widthBits w then s.stored loc n b else s).wrote rd answer).retired { trc := true }) ∧
    (s.me.cpois.contains cFRM = false →
      let f := if w then fFP64 else fFP32
      let rm := RMode.of ((s.myCsr cFRM).setWidth 2)
      let r := f.round rm (FVal.add rm (f.val old) (f.val b))
      exec (.amoFadd w ord rd rs1 rs2) s =
        .next ((((s.stored loc n r.1).withMe (Ctx.orFlags s.onVent · r.2)).wrote rd answer).retired { trc := true }))) ∧
  (∀ e ∈ redTable, ∀ (w : Bool) (rs1 rs2 : XReg) (core o : Nat) (s : State),
    let n := widthBytes w
    let loc := (Space.lm core).loc o
    s.readable rs1 → s.readable rs2 → s.localAt .red (s.x rs1) n core o → s.poisoned loc n = false →
    exec (e.1 w rs1 rs2) s =
      .next ((s.stored loc n (e.2 w (s.peek loc n) ((s.x rs2).toNat % 2 ^ widthBits w))).retired { trc := true }))

/-- R218, R219, R96: `ldv` returns a live version, faults on one that is gone and parks on one that is still to come; `stv` creates a
version above HIGH, faults at or below it, and parks while four versions are live or another `stv` waits at the word; it then goes on
once its version has been created. R96: creating and retiring versions: a created
version is the newest and sets HIGH; reclaim keeps the newest and every version at or above v, and drops the others. R220: `rclm`
reclaims every word of its range, and a length of 0 touches nothing. -/
def Obligations.VersionedWords : Prop :=
  (∀ (sc : Scope) (r rs1 : XReg) (o : S2) (loc : Nat) (s : State),
    s.readable rs1 → s.readable r → s.s2Readable o → s.versionedAt (s.x rs1) loc →
    let v := (s.s2 o).toNat % 2 ^ 32
    let x := s.vword loc
    let isGone := (∃ h, x.high = some h ∧ v ≤ h) ∧ SMap.find x.live v = none
    let waits := 4 ≤ x.live.length ∨ ∃ e ∈ s.dev.stvq, e.far = false ∧ e.loc = loc ∧ e.res = none
    (∀ y, SMap.find x.live v = some y → x.bad.contains v = false →
      exec (.ldv sc r rs1 o) s = .next ((s.wrote r y).retired { trc := true })) ∧
    (isGone → exec (.ldv sc r rs1 o) s = .next (s.took { code := 0x0B, val := s.x rs1 })) ∧
    (SMap.find x.live v = none → ¬isGone → ∃ t, exec (.ldv sc r rs1 o) s = .next t ∧ t.me.run = .parked ∧
      (t.me.wait.map fun w => (w.cls, w.acted)) = some (.version, none) ∧ t.vers = s.vers) ∧
    (s.me.wait = none → ¬waits → (∀ h, x.high = some h → h < v) →
      exec (.stv sc r rs1 o) s = .next (((Upd.version loc v (s.x r) false).apply s).retired { trc := true })) ∧
    (s.me.wait = none → ¬waits → (∃ h, x.high = some h ∧ v ≤ h) →
      exec (.stv sc r rs1 o) s = .next (s.took { code := 0x0B, val := s.x rs1 })) ∧
    (s.me.wait = none → waits → ∃ t, exec (.stv sc r rs1 o) s = .next t ∧ s.parkedOn t .version (some s.dev.seq) ∧ t.vers = s.vers ∧
      t.dev.stvq = s.dev.stvq ++ [{ ticket := s.dev.seq, loc := loc, ver := v, val := s.x r, va := s.x rs1 }])) ∧
  (∀ (sc : Scope) (r rs1 : XReg) (o : S2) (w : Wait) (q : Nat) (e : StvWait) (s : State),
    s.me.wait = some w → w.cls = .version → w.acted = some q → s.dev.stvq.find? (fun e => e.ticket == q) = some e → e.far = false →
    (e.res = none → exec (.stv sc r rs1 o) s = .next s) ∧
    (e.res = some 0 → ∃ t, exec (.stv sc r rs1 o) s = .next t ∧ t.me.run = .ready ∧ t.vers = s.vers ∧ t.mem = s.mem ∧
      t.dev.stvq = s.dev.stvq.filter fun x => x.ticket != q)) ∧
  (∀ (x : VWord) (v : Nat) (y : Word),
    (x.live.length < 4 → (∀ h, x.high = some h → h < v) →
      (x.create v y false).live = (v, y) :: x.live ∧ (x.create v y false).high = some v) ∧
    ((4 ≤ x.live.length ∨ ∃ h, x.high = some h ∧ v ≤ h) → x.create v y false = x) ∧
    ((x.reclaim v).high = x.high ∧ (x.reclaim v).live.head? = x.live.head? ∧
      ∀ e, e ∈ (x.reclaim v).live ↔ e ∈ x.live ∧ (x.live.head? = some e ∨ e ∈ x.live.tail ∧ v ≤ e.1))) ∧
  (∀ (rs rs1 : XReg) (o : S2) (s : State), s.readable rs1 → s.readable rs → s.s2Readable o → s.noTiles →
    let len := (s.x rs).toNat
    (len = 0 → exec (.rclm rs rs1 o) s = .next (s.retired { trc := true })) ∧
    (∀ loc, 0 < len → len % 8 = 0 → (s.x rs1).toNat % 65536 + len ≤ 65536 → s.versionedAt (s.x rs1) loc →
      ∃ t, exec (.rclm rs rs1 o) s = .next t ∧ t.mem = s.mem ∧ t.me.run = .ready ∧
        ∀ w, t.vword w = if loc ≤ w ∧ w < loc + len then (s.vword w).reclaim ((s.s2 o).toNat % 2 ^ 32) else s.vword w))

/-- R207, R225 to R228: cache control of a line that the core does not hold completes and does nothing, of a held one it moves its
state, and a modified line of another package is sent to its home, which the instruction waits for; `cpf` brings a line in, `tlbi` drops
the translations and the lines of its pages; `cpf` outside the global window is dropped; `smap` maps a frame to a page and `sunmap` unmaps
it, where the core holds no line; a frame beyond NFR takes STASH (R398, R434; its XVAL, the frame number, is log 34, DEDUCED). R83: a write
of STASHCFG by `csrw`, `csrs` or `csrc` while no frame is mapped sets NFR, if it is at most 32; no byte but those that change hands changes, and
that those read zero is the model's choice (log 34: R83 says that they lose their contents); while a frame is mapped, or with a value from 33 to
63, it changes nothing; rd gets the old value (R198). -/
def Obligations.CacheControl : Prop :=
  (∀ (rs1 : XReg) (imm : BitVec 12) (nu : BitVec 4) (f : BitVec 5) (s : State), s.readable rs1 → s.vecDone →
    let va := (s.x rs1 + imm.signExtend 64).toNat
    let nfr := if s.onVent then 0 else s.myCore.nfr
    (s.ownCopy (coreOf s.dev.cur) va = none →
      exec (.cwb rs1 imm) s = .next s.retired ∧ exec (.cinv rs1 imm) s = .next s.retired) ∧
    (2 ^ 52 ≤ va → exec (.cpf rs1 imm nu) s = .next s.retired) ∧
    (∀ l st, va < 2 ^ 52 → s.ownCopy (coreOf s.dev.cur) va = some l → s.stateIn (l.loc / 64) (s.coreHolder (coreOf s.dev.cur)) = some st →
      (l.loc < 2 ^ 60 ∧ (st = .s ∨ st = .e ∨ st = .m)) ∨ st = .s ∨ st = .e →
      (∃ t, exec (.cwb rs1 imm) s = .next t ∧ t.me.run = .ready ∧ t.mem = s.mem ∧
        t.stateIn (l.loc / 64) (s.coreHolder (coreOf s.dev.cur)) = some (if st = .m then .e else st)) ∧
      (∃ t, exec (.cinv rs1 imm) s = .next t ∧ t.me.run = .ready ∧ t.mem = s.mem ∧
        t.stateIn (l.loc / 64) (s.coreHolder (coreOf s.dev.cur)) = none)) ∧
    (∀ l, va < 2 ^ 52 → s.ownCopy (coreOf s.dev.cur) va = some l → s.stateIn (l.loc / 64) (s.coreHolder (coreOf s.dev.cur)) = some .m →
      let pkg := plcPkg (l.loc / 64 * 64)
      2 ^ 60 ≤ l.loc → (s.peer pkg).lost = false → s.unreachable pkg = false →
      (∀ r ∈ s.dev.reqs, r.who = .ctx s.dev.cur → r.ord < s.dev.ord) →
      ∀ i ∈ [Instr.cwb rs1 imm, .cinv rs1 imm], ∃ t, exec i s = .next t ∧ s.parkedOn t .link none ∧
        ∃ r ∈ t.dev.reqs, r.who = .ctx s.dev.cur ∧ r.pkt.kind = 3 ∧ r.pkt.dpkg.toNat = pkg ∧
          r.pkt.payload = s.bytesAt (l.loc / 64 * 64) 64) ∧
    (∀ e phys, va < 2 ^ 52 → inCaldera va = false → s.myCore.l1 = [] → s.myCore.stash = [] →
      s.cached (interfaceOf s.myCore.pmap (coreOf s.dev.cur) va) s.myTen s.myPart va = some e → lfR e.leaf = true →
      cacheable (coreOf s.dev.cur) e.leaf = true → lfAPT e.leaf = 0 → s.stage2 s.myTen (gpaOf e.leaf va) = some phys →
      s.holders (phys / 64) = [] →
      ∃ t, exec (.cpf rs1 imm nu) s = .next t ∧ t.me.run = .ready ∧ t.mem = s.mem ∧
        t.stateIn (phys / 64) (s.coreHolder (coreOf s.dev.cur)) = some .e) ∧
    (s.me.sup = true → s.fenced → (∀ q < s.pres.group, q = s.pres.pkg.toNat ∨ (s.peer q).lost = true) →
      (∀ r ∈ s.dev.reqs, r.who ≠ .ctx s.dev.cur) →
      let gone := fun (i : Instr) (all : Bool) (a : Nat) =>
        s.inUse s.myTen s.myPart (fun x l => all || samePage l x a) = false →
        ∃ t, exec i s = .next t ∧ t.me.run = .ready ∧
          t.dev.tlb = (s.dev.tlb.filter fun e => !(e.ten == s.myTen && e.pnode == s.myPart && (all || e.inPage a))) ∧
          ∀ c ∈ s.nodeCores s.myPart, ∀ l ∈ (t.core c).l1 ++ (t.core c).sect, (all || samePage l.2.leaf (l.2.va * 64) a) = false
      gone (.tlbi (.page rs1)) false (s.x rs1).toNat ∧ gone (.tlbi .all) true 0) ∧
    (s.myCore.sect = [] → s.myCore.l1 = [] → s.myCore.cpois.contains cSTASHCFG = false → f.toNat < nfr →
      ((s.x rs1).toNat % 4096 = 0 → (s.x rs1).toNat < 2 ^ 52 → (∀ e ∈ s.myCore.stash, e.2 = s.x rs1 → e.1 = f.toNat) →
        exec (.smap rs1 f) s =
          .next ((s.withMyCore fun c => { c with stash := SMap.put c.stash f.toNat (s.x rs1) }).retired { trc := true })) ∧
      exec (.sunmap f) s =
        .next ((s.withMyCore fun c => { c with stash := c.stash.erase f.toNat }).retired { trc := true })) ∧
    (nfr ≤ f.toNat → s.myCore.cpois.contains cSTASHCFG = false → s.noTiles →
      exec (.smap rs1 f) s = .next (s.took { code := 0x17, val := f.setWidth 64 }) ∧
      exec (.sunmap f) s = .next (s.took { code := 0x17, val := f.setWidth 64 }))) ∧
  (∀ (rd rs1 : XReg) (s : State), s.readable rs1 → s.onVent = false → s.csrBad s.dev.cur 0x005 = false → s.me.pend = [] →
    let old := s.csr s.dev.cur 0x005
    let nfr := s.myCore.nfr
    let writes := fun (i : Instr) (v : Word) =>
      let new := v.toNat % 64
      let lo := (Space.lm (coreOf s.dev.cur)).loc (0x2F000 - 4096 * max nfr new)
      let hi := (Space.lm (coreOf s.dev.cur)).loc (0x2F000 - 4096 * min nfr new)
      (new ≤ 32 → new ≠ nfr → s.myCore.stash = [] → nfr ≤ 32 →
        ∃ t, exec i s = .next t ∧ t.csr t.dev.cur 0x005 = BitVec.ofNat 64 new ∧
          (∀ r, t.me.rd r = if r = rd ∧ r ≠ 0 then old else s.me.rd r) ∧ ∀ a, t.byte a = if lo ≤ a ∧ a < hi then 0 else s.byte a) ∧
      (new ≤ 32 → new = nfr → exec i s = .next ((s.csrWritten 0x005 (BitVec.ofNat 64 new)).wrote rd old).retired) ∧
      (32 < new ∨ (new ≠ nfr ∧ s.myCore.stash ≠ []) → exec i s = .next (s.wrote rd old).retired)
    writes (.csrw rd rs1 0x005) (s.x rs1) ∧
    (rs1 ≠ 0 → writes (.csrs rd rs1 0x005) (old ||| s.x rs1) ∧ writes (.csrc rd rs1 0x005) (old &&& ~~~s.x rs1)))

/-! ### Events and messages -/

/-- R230, R120: `ev.arrive` of an unchained barrier marks the position and its generation; the last arrival completes the barrier in
the same step: GEN + 1, no arrivals, and the next cluster interval. -/
def Obligations.BarrierArrive : Prop :=
  ∀ (b : BitVec 2) (s : State), s.onVent = false → s.fenced →
    let c := s.cluster s.myCluster
    let x := c.bar b.toNat
    let p := s.myPosition
    let arr := x.arr ||| 1#4 <<< p
    x.pmask.getLsbD p = true → x.arr.getLsbD p = false → x.chain = 0 →
    ∃ t, exec (.evArrive b) s = .next t ∧ t.me.run = .ready ∧ t.mem = s.mem ∧
      let c' := t.cluster s.myCluster
      let x' := c'.bar b.toNat
      x'.joined p = x.gen ∧ x'.pmask = x.pmask ∧
      (arr ≠ x.pmask → x'.gen = x.gen ∧ x'.arr = arr ∧ c'.intv = c.intv) ∧
      (arr = x.pmask → x'.gen = x.gen + 1 ∧ x'.arr = 0 ∧ c'.intv = c.intv + 1) ∧
      c'.lines = c.lines ∧ c'.mutex = c.mutex ∧ (∀ j, j ≠ b.toNat → c'.bar j = c.bar j) ∧
      (∀ k, k ≠ s.myCluster → t.cluster k = s.cluster k)

/-- R230 to R233: the other event instructions where they need not wait. R230, R232, R233: where they wait they park on an event; the
misuses take ILLEGAL_OPERAND. -/
def Obligations.EventInstructions : Prop :=
  (∀ (b : BitVec 2) (l : BitVec 4) (m : BitVec 3) (sc : ChainScope) (s : State), s.onVent = false → s.fenced →
    let k := s.myCluster
    let c := s.cluster k
    ((c.bar b.toNat).gen ≠ (c.bar b.toNat).joined s.myPosition → exec (.evWait b) s = .next s.retired) ∧
    (c.lines.getLsbD l.toNat = true →
      exec (.evWaitE l) s = .next (s.setCluster k { c with lines := c.lines &&& ~~~(1#16 <<< l.toNat) }).retired) ∧
    exec (.evSignal l) s = .next (s.setCluster k { c with lines := c.lines ||| 1#16 <<< l.toNat }).retired ∧
    (SMap.find c.mutex m.toNat = none →
      exec (.evLock m) s = .next (s.setCluster k { c with mutex := SMap.put c.mutex m.toNat s.dev.cur }).retired) ∧
    (SMap.find c.mutex m.toNat = some s.dev.cur →
      exec (.evUnlock m) s = .next (s.setCluster k { c with mutex := c.mutex.erase m.toNat }).retired) ∧
    exec (.evChain sc b) s = .next (s.setCluster k (c.setBar b.toNat fun x => { x with chainReq := some (chainCode sc) })).retired) ∧
  (∀ (b : BitVec 2) (l : BitVec 4) (m : BitVec 3) (s : State), s.onVent = false → s.fenced →
    let c := s.cluster s.myCluster
    let x := c.bar b.toNat
    let p := s.myPosition
    (x.pmask.getLsbD p = false → exec (.evArrive b) s = .next (s.took { code := 0x02, val := b.setWidth 64 })) ∧
    (x.pmask.getLsbD p = true → x.arr.getLsbD p = true →
      ∃ t, exec (.evArrive b) s = .next t ∧ s.parkedOn t .event none ∧ t.clusters = s.clusters) ∧
    (x.gen = x.joined p → ∃ t, exec (.evWait b) s = .next t ∧ s.parkedOn t .event none ∧ t.clusters = s.clusters) ∧
    (c.lines.getLsbD l.toNat = false →
      ∃ t, exec (.evWaitE l) s = .next t ∧ s.parkedOn t .event none ∧ t.clusters = s.clusters) ∧
    (SMap.find c.mutex m.toNat = some s.dev.cur → exec (.evLock m) s = .next (s.took { code := 0x02, val := m.setWidth 64 })) ∧
    (∀ h, SMap.find c.mutex m.toNat = some h → h ≠ s.dev.cur →
      ∃ t, exec (.evLock m) s = .next t ∧ s.parkedOn t .event none ∧ t.clusters = s.clusters) ∧
    (SMap.find c.mutex m.toNat ≠ some s.dev.cur → exec (.evUnlock m) s = .next (s.took { code := 0x02, val := m.setWidth 64 })))

/-- R235: `msend` reads 32 bytes of LOCAL; the message enters the destination's queue when that accepts it, else the send slot, from
where MESSAGE_DELIVERY moves it; with the slot in use `msend` parks with the bytes it has read, and sends them once the slot is free.
R235, R357, R38: a held message enters its destination's queue
when that accepts; a posted message enters a mailbox with room. R236, R239: `mrecv` stores the oldest message to LOCAL and gives its
sender; `mpoll` counts; `cq.pop` takes the oldest completion record; with nothing there `mrecv` and `cq.pop` park on a message. -/
def Obligations.Messages : Prop :=
  ((∀ (rs1 : XReg) (o : S2) (core off : Nat) (s : State), s.readable rs1 → s.s2Readable o →
    let d := destCtx (s.s2 o)
    let loc := (Space.lm core).loc off
    let m : Msg := ⟨Memory.reads s.mem loc 32, s.ctxIdVal s.dev.cur, []⟩
    s.me.wait.bind (·.msg) = none → s.me.sup = false ∨ s.taken d = .message → s.destOk s.myPart (s.s2 o) = true →
    exposed (s.x rs1) = true → s.localAt .load (s.x rs1) 32 core off → s.poisoned loc 32 = false →
    (s.me.slot = none →
      (s.accepts d = true → exec (.msend rs1 o) s =
        .next (s.setCtx d { s.ctx d with recvq := (s.ctx d).recvq ++ [m] }).retired) ∧
      (s.accepts d = false → exec (.msend rs1 o) s = .next (s.withMe fun c => { c with slot := some (m, d) }).retired)) ∧
    (s.me.slot ≠ none → ∃ t, exec (.msend rs1 o) s = .next t ∧ s.parkedOn t .message none ∧ t.mem = s.mem ∧
      t.me.wait.bind (·.msg) = some (m, d))) ∧
  (∀ (rs1 : XReg) (o : S2) (m : Msg) (d : Nat) (s : State), s.me.wait.bind (·.msg) = some (m, d) →
    (s.me.slot ≠ none → exec (.msend rs1 o) s = .next s) ∧
    (s.me.slot = none →
      (s.accepts d = true → ∃ t, exec (.msend rs1 o) s = .next t ∧ t.me.run = .ready ∧ t.mem = s.mem ∧
        (t.ctx d).recvq = (s.ctx d).recvq ++ [m]) ∧
      (s.accepts d = false → ∃ t, exec (.msend rs1 o) s = .next t ∧ t.me.run = .ready ∧ t.mem = s.mem ∧ t.me.slot = some (m, d)))) ∧
  (∀ (s : State),
    (∀ c m d, (s.ctx c).slot = some (m, d) → c ≠ d →
      (s.accepts d = true → exec (.messageDelivery c) s =
        .next ((s.setCtx d { s.ctx d with recvq := (s.ctx d).recvq ++ [m] }).setCtx c { s.ctx c with slot := none })) ∧
      (s.accepts d = false → exec (.messageDelivery c) s = .next s)) ∧
    (∀ p m rest, (s.part p).mbq = m :: rest →
      ((s.part p).mailbox.length < 64 → exec (.mailboxPost p) s =
        .next (s.setPart p fun q => { q with mailbox := q.mailbox ++ [m], mbq := rest })) ∧
      (64 ≤ (s.part p).mailbox.length → exec (.mailboxPost p) s = .next s)))) ∧
  (∀ (rd rs1 : XReg) (core off : Nat) (s : State), s.noTiles →
    let loc := (Space.lm core).loc off
    exec (.mpoll rd) s = .next (s.wrote rd (BitVec.ofNat 64 (s.inbox s.dev.cur).length)).retired ∧
    (s.readable rs1 → exposed (s.x rs1) = true → s.localAt .store (s.x rs1) 32 core off →
      (s.inbox s.dev.cur = [] → ∃ t, exec (.mrecv rd rs1) s = .next t ∧ s.parkedOn t .message none ∧ t.mem = s.mem) ∧
      (∀ m rest, s.inbox s.dev.cur = m :: rest → m.poison = [] → s.onMailbox s.dev.cur = false →
        exec (.mrecv rd rs1) s = .next
          (((Upd.poke loc m.payload).apply (s.withMe fun c => { c with recvq := c.recvq.tail })).wrote rd m.sender).retired) ∧
      (∀ m rest, s.inbox s.dev.cur = m :: rest → m.poison = [] → s.onMailbox s.dev.cur = true →
        exec (.mrecv rd rs1) s = .next
          (((Upd.poke loc m.payload).apply (s.setPart s.myPart fun q => { q with mailbox := q.mailbox.tail })).wrote rd
            m.sender).retired)) ∧
    (s.onVent = false →
      (∀ w rest, s.myCore.cq = w :: rest → exec (.cqPop rd) s =
        .next ((s.withMyCore fun c => { c with cq := c.cq.tail }).wrote rd w).retired) ∧
      (s.myCore.cq = [] → ∃ t, exec (.cqPop rd) s = .next t ∧ s.parkedOn t .message none ∧ t.mem = s.mem)))

/-! ### Tasks and futures -/

/-- R243, R244: `task.end` and `ss.end` end the task: the control context enters IDLE with its receive queue empty, the core has no
task; `ss.end` arms the partition's superstep. They wait until every helper is FREE. -/
def Obligations.TaskEnd : Prop :=
  ∀ (s : State), s.onControl = true → s.noTiles → s.myCore.vq = [] → (∀ o ∈ s.dev.vops, coreOf o.ctx ≠ coreOf s.dev.cur ∨ o.done ≠ none) →
    let ended := fun (t : State) => t.me.run = .idle ∧ t.me.recvq = [] ∧ t.me.wait = none ∧ t.myCore.task = none ∧ t.dev.cur = s.dev.cur ∧
      t.mem = s.mem ∧ (∀ k, k ≠ s.dev.cur → t.ctx k = s.ctx k) ∧ ∀ c, c ≠ coreOf s.dev.cur → t.core c = s.core c
    (s.helpersFree →
      (∃ t, exec .taskEnd s = .next t ∧ ended t ∧ t.parts = s.parts) ∧
      (s.onVent = false → ∃ t, exec .ssEnd s = .next t ∧ ended t ∧ t.parts = (s.setPart s.myPart fun q => { q with armed := true }).parts)) ∧
    (¬s.helpersFree →
      (∃ t, exec .taskEnd s = .next t ∧ s.parkedOn t .helper none ∧ ∀ c, t.core c = s.core c) ∧
      (s.onVent = false → ∃ t, exec .ssEnd s = .next t ∧ s.parkedOn t .helper none ∧ ∀ c, t.core c = s.core c))

/-- R245: `hstart` starts the FREE helper of lowest number at X[rs1] + 4 * imm in user mode with the issuer's registers, and gives its
number; R246: `hjoin` goes on when the named helpers are FREE; R247: `hexit` frees the helper. -/
def Obligations.Helpers : Prop :=
  ∀ (rd rs1 : XReg) (imm : BitVec 12) (mask : BitVec 10) (s : State),
    (s.onControl = true → s.fenced → s.readable rs1 → s.me.sb = 0 → s.me.tick.xpois = 0 → s.me.cpois.contains cFRM = false →
      s.me.pend = [] → ∀ h, (helpersOf (coreOf s.dev.cur)).find? (fun i => (s.ctx i).run == .free) = some h →
      let target := s.x rs1 + BitVec.ofInt 64 (4 * imm.toInt)
      ∃ t, exec (.hstart rd rs1 imm) s = .next t ∧ t.me.run = .ready ∧ t.me.rd rd = (if rd = 0 then 0 else BitVec.ofNat 64 (ctxOf h)) ∧
        (t.ctx h).run = .ready ∧ (t.ctx h).sup = false ∧
        ((t.ctx h).pc, (t.ctx h).q1, (t.ctx h).q2, (t.ctx h).a1, (t.ctx h).a2) = (target, target + 4, target + 8, false, false) ∧
        (∀ r, (t.ctx h).rd r = t.me.rd r) ∧ (t.ctx h).csrGet s.onVent cFFLAGS = 0 ∧
        (t.ctx h).csrGet s.onVent cFRM = s.me.csrGet s.onVent cFRM ∧ t.mem = s.mem) ∧
    (s.onControl = true → s.noTiles → (s.onVent = true → mask.toNat < 8) →
      (∀ h ∈ helpersOf (coreOf s.dev.cur), mask = 0 ∨ mask.getLsbD (ctxOf h - 1) = true → (s.ctx h).run = .free) →
      exec (.hjoin mask) s = .next s.retired) ∧
    (s.onControl = false → (∀ e ∈ s.myCore.vq, e.ctx ≠ s.dev.cur) →
      ∃ t, exec .hexit s = .next t ∧ t.me.run = .free ∧ t.me.recvq = [] ∧ t.mem = s.mem ∧ ∀ k, k ≠ s.dev.cur → t.ctx k = s.ctx k)

/-- R249: `fut.new` takes the FREE entry of lowest index, which becomes EMPTY, and gives its handle. R250 to R252: `fut.set` of an
EMPTY future makes it FULL and releases its waiters in list order; `fut.get` of a FULL one gives its value and of an EMPTY one parks;
`fut.chk` gives STATE; `fut.free` of one that nobody waits on frees the entry and advances GEN, and while a record or a `fut.get` waits it
takes FUTURE_STALE; a second `fut.set` is FUTURE_STALE. R248, R363: a handle of a FREE entry or with another GEN takes FUTURE_STALE, and an
index of 0 or beyond the table ILLEGAL_OPERAND. -/
def Obligations.Futures : Prop :=
  (∀ (rd : XReg) (i : Nat) (loc : Nat → Nat) (ent : Nat → FEnt) (s : State),
    s.fenced → s.tableKnown → s.me.pend = [] → 0 < i → i < 2 ^ s.futLog → i < 2 ^ 20 →
    (∀ j, 1 ≤ j → j ≤ i → s.futureAt j (loc j) (ent j)) → (∀ j, 1 ≤ j → j < i → (ent j).st ≠ 0) → (ent i).st = 0 →
    ∃ t, exec (.futNew rd) s = .next t ∧
      t.me.rd rd = (if rd = 0 then 0 else BitVec.ofNat 64 ((ent i).gen * 2 ^ 20 + i)) ∧
      FEnt.of (t.peek (loc i) 32) = { ent i with st := 1, head := 0, tail := 0 } ∧
      ∀ a, a < loc i ∨ loc i + 32 ≤ a → t.byte a = s.byte a) ∧
  (∀ (rd rs1 : XReg) (o : S2) (i loc : Nat) (e : FEnt) (s : State), s.handleAt rs1 i loc e → s.fenced → s.me.pend = [] →
    let h := (s.x rs1).toNat % 2 ^ 32
    let only := fun (t : State) => ∀ a, a < loc ∨ loc + 32 ≤ a → t.byte a = s.byte a
    (s.s2Readable o → e.st = 1 → e.head = 0 →
      ∃ t, exec (.futSet rs1 o) s = .next t ∧ t.me.run = .ready ∧
        FEnt.of (t.peek loc 32) = { e with st := 2, val := s.s2 o, head := 0, tail := 0 } ∧ only t) ∧
    (s.s2Readable o → e.st = 2 → exec (.futSet rs1 o) s = .next (s.took { code := 0x16, val := BitVec.ofNat 64 h })) ∧
    (e.st = 2 → exec (.futGet rd rs1) s = .next (s.wrote rd e.val).retired) ∧
    (e.st = 1 → ∃ t, exec (.futGet rd rs1) s = .next t ∧ s.parkedOn t (.fget s.myPart i) none ∧ t.mem = s.mem) ∧
    (e.st ≠ 0 → exec (.futChk rd rs1) s = .next (s.wrote rd (BitVec.ofNat 64 e.st)).retired) ∧
    (e.st = 2 ∨ (e.st = 1 ∧ e.head = 0 ∧ s.getting s.myPart i = false) →
      ∃ t, exec (.futFree rs1) s = .next t ∧ t.me.run = .ready ∧
        FEnt.of (t.peek loc 32) = { e with st := 0, gen := (e.gen + 1) % 4096 } ∧ only t) ∧
    (e.st = 1 → e.head ≠ 0 ∨ s.getting s.myPart i = true →
      exec (.futFree rs1) s = .next (s.took { code := 0x16, val := BitVec.ofNat 64 h })) ∧
    (s.s2Readable o → e.st = 1 → ∀ (at' : Nat → Nat) (js : List Nat),
      let tb : Tab := ⟨.ctx s.dev.cur, coreOf s.dev.cur, s.myTen, s.myPart, s.futBase, s.futLog, true⟩
      let set := (Upd.poke loc { e with st := 2, val := s.s2 o, head := 0, tail := 0 }.bytes).apply s
      let r := s.slotRecord at'
      let q := s.part s.myPart
      (waiters tb q.pool.length e.head).leads set set js → (∀ j ∈ js, s.slotAt at' j ∧ (at' (2 * j) + 32 ≤ loc ∨ loc + 32 ≤ at' (2 * j)) ∧
        (at' (2 * j + 1) + 32 ≤ loc ∨ loc + 32 ≤ at' (2 * j + 1)) ∧
        (rcVent (r j) = false ∨ rcNext (r j) = true ∨ q.st = .saved) ∧ (hIndex (rcWait (r j) 0) ≠ i ∨ hIndex (rcWait (r j) 1) = 0)) → (s.part? s.myPart).isSome = true →
      ∃ t, exec (.futSet rs1 o) s = .next t ∧ t.me.run = .ready ∧
        FEnt.of (t.peek loc 32) = { e with st := 2, val := s.s2 o, head := 0, tail := 0 } ∧ only t ∧
        (t.part s.myPart).held = q.held ++ js.filter (fun j => rcNext (r j) || q.st == .saved) ∧
        (t.part s.myPart).pool = q.pool ∧
        ∀ c, (t.core c).deque.map (fun x => x.slot) = (s.core c).deque.map (fun x => x.slot) ++
          js.filter fun j => !(rcNext (r j) || q.st == .saved) && s.dequeOf s.myPart (r j) == c)) ∧
  (∀ (rd rs1 : XReg) (o : S2) (i gen loc : Nat) (e : FEnt) (s : State), s.handleOf rs1 i gen loc e → e.st = 0 ∨ e.gen ≠ gen →
    let stale := s.took { code := 0x16, val := BitVec.ofNat 64 ((s.x rs1).toNat % 2 ^ 32) }
    (s.s2Readable o → exec (.futSet rs1 o) s = .next stale) ∧ exec (.futGet rd rs1) s = .next stale ∧
    exec (.futChk rd rs1) s = .next stale ∧ exec (.futFree rs1) s = .next stale) ∧
  (∀ (rd rs1 : XReg) (o : S2) (s : State), s.readable rs1 → s.noTiles →
    let h := (s.x rs1).toNat % 2 ^ 32
    let bad := s.took { code := 0x02, val := BitVec.ofNat 64 h }
    h % 2 ^ 20 = 0 ∨ 2 ^ s.futLog ≤ h % 2 ^ 20 →
    (s.s2Readable o → exec (.futSet rs1 o) s = .next bad) ∧ exec (.futGet rd rs1) s = .next bad ∧ exec (.futChk rd rs1) s = .next bad ∧
    exec (.futFree rs1) s = .next bad)

/-- R242, R137, R145: `post` of a record from LOCAL that waits on nothing takes a free slot of the waiter pool; the record enters the deque
that R145 gives, or with VENT that of the vent core of its DATA's channel, at the newest end of its class; with NEXT or in a SAVED partition
it is HELD and arms the superstep (R32, R46). R32, R35:
one that waits on an EMPTY future without waiters becomes its waiter list. R363, R365: a stale handle takes FUTURE_STALE, and while the pool
is full `post` parks. -/
def Obligations.PostRecord : Prop :=
  ∀ (rs1 : XReg) (imm : BitVec 12) (core off : Nat) (s : State),
    s.onControl = true → s.readable rs1 → s.me.pend = [] → s.tableKnown →
    let va := s.x rs1 + imm.signExtend 64
    let r := s.peek ((Space.lm core).loc off) 64
    let p := s.myPart
    let q := s.part p
    s.localAt .load va 64 core off → s.poisoned ((Space.lm core).loc off) 64 = false → inCaldera va.toNat = false →
    s.recordOk s.myTen p r = true → (s.part? p).isSome = true →
    (∀ loc : Nat → Nat, rcWait r 0 = 0 → rcWait r 1 = 0 → q.pool.length < 2 ^ s.futLog → (∀ j, j < 2 ^ s.futLog → s.slotAt loc j) →
      (∀ d : Nat, rcNext r = false → q.st ≠ .saved → (rcVent r = false ∧ d = s.dequeOf p r ∨ rcVent r = true ∧ s.ventAt (rcData r) d) →
        ∃ t j, exec (.post rs1 imm) s = .next t ∧ t.me.run = .ready ∧ (t.part p).pool = nsInsert j q.pool ∧ j ∉ q.pool ∧
          ∃ x : DqRec, (t.core d).deque = (s.core d).deque ++ [x] ∧ x.pnode = p ∧ x.slot = j ∧
            x.cls = max (rcPrio r) (((s.core d).csrGet cPRIO).toNat % 4) ∧ x.data = BitVec.ofNat 64 (rcData r)) ∧
      (rcNext r = true ∨ q.st = .saved →
        ∃ t j, exec (.post rs1 imm) s = .next t ∧ t.me.run = .ready ∧ (t.part p).pool = nsInsert j q.pool ∧ j ∉ q.pool ∧
          (t.part p).held = q.held ++ [j] ∧ (t.part p).armed = true ∧ ∀ c, (t.core c).deque = (s.core c).deque)) ∧
    (∀ (loc link : Nat → Nat) (i ent : Nat) (e : FEnt), rcWait r 0 = e.gen * 2 ^ 20 + i → rcWait r 1 = 0 → 0 < i → i < 2 ^ s.futLog →
      i < 2 ^ 20 → e.gen < 4096 → s.futureAt i ent e →
      (e.st = 1 → e.head = 0 → q.pool.length < 2 ^ s.futLog → (∀ j, j < 2 ^ s.futLog → s.slotAt loc j ∧ s.linkAt j (link j) ∧
          (link j + 8 ≤ ent ∨ ent + 32 ≤ link j) ∧ (loc (2 * j) + 32 ≤ ent ∨ ent + 32 ≤ loc (2 * j)) ∧
          (loc (2 * j + 1) + 32 ≤ ent ∨ ent + 32 ≤ loc (2 * j + 1))) → s.futBase + 104 * 2 ^ s.futLog < 2 ^ 52 →
        ∃ t j, exec (.post rs1 imm) s = .next t ∧ t.me.run = .ready ∧ (t.part p).pool = nsInsert j q.pool ∧ j ∉ q.pool ∧
          FEnt.of (t.peek ent 32) = { e with head := s.slotVA j, tail := s.slotVA j } ∧ t.peek (link j) 8 = 0 ∧
          (t.part p).held = q.held ∧ ∀ c, (t.core c).deque = (s.core c).deque)) ∧
    (∀ (i gen ent : Nat) (e : FEnt), rcWait r 0 = gen * 2 ^ 20 + i → rcWait r 1 = 0 → 0 < i → i < 2 ^ s.futLog → i < 2 ^ 20 → gen < 4096 →
      s.futureAt i ent e → e.st = 0 ∨ e.gen ≠ gen →
      exec (.post rs1 imm) s = .next (s.took { code := 0x16, val := BitVec.ofNat 64 (rcWait r 0) })) ∧
    (rcWait r 0 = 0 → rcWait r 1 = 0 → 2 ^ s.futLog ≤ q.pool.length →
      ∃ t, exec (.post rs1 imm) s = .next t ∧ s.parkedOn t .future none ∧ t.mem = s.mem ∧ t.parts = s.parts)

/-! ### Field ports -/

/-- R254, R123 to R127, R131: `pload` of a well-formed record whose tables, areas and buffer pass the checks, and whose seed field is mapped,
loads the port: no version published, every cell and time zero. A second `pload` of the same record completes without effect. -/
def Obligations.PortLoad : Prop :=
  ∀ (rs1 : XReg) (p lo hi : Nat) (tb : PTables) (s s1 s2 s3 s4 s5 s6 : State), s.portNamed rs1 p → s.fenced →
    s.myCore.cpois.contains cPORTBASE = false →
    let a := (s.myCore.csrGet cPORTBASE + BitVec.ofNat 64 (128 * p)).toNat
    let v := lo + hi * 2 ^ 512
    let mine := fun n => ∃ x, s.part? n = some x ∧ x.ten = some s.myTen
    (ctxRead a 64).leads s s1 lo → (ctxRead (a + 64) 64).leads s1 s2 hi → lo < 2 ^ 512 → hi < 2 ^ 512 →
    v / 2 ^ 48 % 2 ^ 16 = 0x6C3E → pRes v = 0 → pSTYPE v ≠ 3 → pRTYPE v ≠ 3 → pWTAB v % 32 = 0 → pSLTAB v % 8 = 0 → pRBUF v % 8 = 0 →
    pSEEDP v % 8 = 0 → pTEN v = s.myTen → mine (pSPNODE v) → mine (pRPNODE v) → (s.myPart = pSPNODE v ∨ s.myPart = pRPNODE v) →
    0 < pNS v → pNS v ≤ 2 ^ 20 → 0 < pNR v → pNR v ≤ 2 ^ 20 →
    (∀ q, (s.port p).ld = some q → q.img = v → exec (.pload rs1) s = .next s2.retired) ∧
    (∀ q, (s.port p).ld = some q → q.img ≠ v → s2.noTiles →
      exec (.pload rs1) s = .next (s.took { code := 0x13, val := BitVec.ofNat 64 (0x0C * 2 ^ 24 + p) })) ∧
    ((s.port p).ld = none → (readTables ctxRead (fun r i => portFault p r i) v).leads s2 s3 tb →
      (checkAreas ctxRead (fun r i => portFault p r i) v tb).leads s3 s4 () →
      (checkBuffer (ctxLeaf .store) (fun r i => portFault p r i) v).leads s4 s5 () → (seedLeaves v).leads s5 s6 () →
      (s.ports.filterMap fun e => if e.1 / 256 = p / 256 then e.2.ld.map fun q => pNEED q.img else none).sum + pNEED v
        ≤ 8 * 1024 * 1024 →
      ∃ q : PortLd, exec (.pload rs1) s = .next (s6.withLoaded p q).retired ∧ q.img = v ∧ q.pnode = s.myPart ∧
        q.sl.map BitVec.toNat = tb.sl.map (· % 2 ^ 64) ∧ q.nextv = 0 ∧ q.rel = 0 ∧ q.acc = [] ∧ q.dt = [] ∧ q.cl = [] ∧ q.rl = [] ∧
        q.pflags = 0 ∧ q.seeded = false ∧ q.owes = false)

/-- R255, R129: `pput` adds dt * cell to every cell of the core's sender slice, one rounding each, and dt to its time: whatever its cells'
reads take, and for cells in local memory, unpoisoned, with no condition but the operands'. It parks while the slice is closed. -/
def Obligations.PortPut : Prop :=
  ∀ (rd rs1 : XReg) (o : S2) (p k e : Nat) (q : PortLd) (s : State),
    s.sliceOf rs1 p q 0 k e → s.readable rd → s.s2Readable o →
    let dt := match o with | .reg r => s.x r | .con c => BitVec.ofNat 64 (kF64 c)
    let n := stSize q.img
    let va := fun (i : Nat) => s.x rd + BitVec.ofNat 64 (n * i)
    let put := fun (xs : List Nat) => (deposit (f64 dt) (slFIRST e) (xs.map (stFmt q.img).val) q).addDt k (f64 dt)
    dtOk dt = true →
    (q.cl.contains k = true → ∃ t, exec (.pput rd rs1 o) s = .next t ∧ s.parkedOn t (.pput p) none ∧ t.ports = s.ports) ∧
    (∀ core off : Nat → Nat, q.cl.contains k = false → (s.x rd).toNat % n = 0 →
      (∀ i, i < slCOUNT e → (va i).toNat % 2 ^ 52 < 0x200000 ∧ s.localAt .load (va i) n (core i) (off i) ∧
        s.poisoned ((Space.lm (core i)).loc (off i)) n = false) →
      ∃ t, exec (.pput rd rs1 o) s = .next t ∧ t.me.run = .ready ∧ t.mem = s.mem ∧
        t.port p = { s.port p with ld := some (put ((List.range (slCOUNT e)).map fun i => s.peek ((Space.lm (core i)).loc (off i)) n)) }) ∧
    (∀ (as : List Cell) (xs : List Nat) (s1 s2 : State), q.cl.contains k = false → (s.x rd).toNat % n = 0 →
      let b : By := ⟨.ctx s.dev.cur, s.dev.cur, s.me.pc⟩
      (M.mapL (fun i => do
        let a ← cellAt n (va i)
        let v ← versionedAt b (coreOf s.dev.cur) s.myTen a n
        return (a, v)) (List.range (slCOUNT e))).leads s s1 as →
      (readCells b n as).leads s1 s2 xs → s2.port p = s.port p →
      exec (.pput rd rs1 o) s = .next (s2.withLoaded p (put xs)).retired)

/-- R256, R449: `pclose` closes the slice and parks until the version has been published; then it gives its number. A slice without a
deposit takes PORT with REASON 0x10. R257 to R259, R132, R128: `pget` goes on once the version is published and parks before; `prel` raises
the slice's release level and REL to the lowest of them, and what it cannot reclaim at once it leaves to the port unit; `pstat` reads the
status, 0 of an unloaded port, whatever partition reads it (R436; log 44). R136: while a port of the tenant is being seeded they wait. -/
def Obligations.PortWaits : Prop :=
  (∀ (rd rs1 : XReg) (p k e : Nat) (q : PortLd) (s : State), s.sliceOf rs1 p q 0 k e → s.fenced →
    (s.me.wait = none → q.cl.contains k = false →
      (SMap.get (fun _ => 0) q.dt k ≠ 0 → q.nextv < 2 ^ 32 →
        ∃ t, exec (.pclose rd rs1) s = .next t ∧ s.parkedOn t (.pclose p) (some q.nextv) ∧
          (t.port p).ld = some { q with cl := nsInsert k q.cl }) ∧
      (SMap.get (fun _ => 0) q.dt k = 0 →
        exec (.pclose rd rs1) s = .next (s.took { code := 0x13, val := BitVec.ofNat 64 (k % 2 ^ 32 * 2 ^ 32 + 0x10 * 2 ^ 24 + p) }))) ∧
    (∀ w v, s.me.wait = some w → w.cls = .pclose p → w.acted = some v →
      let closed := if q.seeded = true ∧ v = 0 then 1 else v
      (q.nextv ≤ closed → ∃ t, exec (.pclose rd rs1) s = .next t ∧ s.parkedOn t (.pclose p) (some v) ∧ t.ports = s.ports) ∧
      (closed < q.nextv → exec (.pclose rd rs1) s = .next (s.wrote rd (BitVec.ofNat 64 closed)).retired))) ∧
  (∀ (rd rs1 : XReg) (o : S2) (p k e : Nat) (q : PortLd) (s : State), s.s2Readable o →
    let n := (s.s2 o).toNat % 2 ^ 32
    (s.sliceOf rs1 p q 1 k e →
      (n < q.nextv → exec (.pget rs1 o) s = .next s.retired) ∧
      (q.nextv ≤ n → ∃ t, exec (.pget rs1 o) s = .next t ∧ s.parkedOn t (.pget p n) none ∧ t.ports = s.ports) ∧
      (q.nextv ≤ n → exec (.prel rs1 o) s = .next (s.took { code := 0x13, val := BitVec.ofNat 64 (n * 2 ^ 32 + 0x11 * 2 ^ 24 + p) })) ∧
      (n < q.nextv → s.fenced →
        let q' := { q with rl := SMap.set (fun _ => 0) q.rl k (max (SMap.get (fun _ => 0) q.rl k) (n + 1)) }
        (q'.minRl ≤ q.rel → exec (.prel rs1 o) s = .next (s.withLoaded p { q' with rel := q.rel }).retired) ∧
        (∀ t done, q.rel < q'.minRl → (reclaimNow q q'.minRl q.bufferPieces).leads s t done → (t.port p).ld = some q →
          exec (.prel rs1 o) s = .next (t.withLoaded p { q' with rel := q'.minRl, owes := q.owes || !done }).retired))) ∧
    (s.portNamed rs1 p →
      ((s.port p).ld = none → exec (.pstat rd rs1) s = .next (s.wrote rd 0).retired) ∧
      ((s.port p).ld = some q →
        exec (.pstat rd rs1) s = .next (s.wrote rd (BitVec.ofNat 64 (q.nextv % 2 ^ 32 * 2 ^ 32 + q.cl.length % 64 * 2 ^ 26 +
          (q.nextv - q.rel) % 8 * 2 ^ 23 + q.seeded.toNat * 2 ^ 7 + 2 ^ 6 + q.pflags.toNat))).retired)) ∧
    (s.readable rs1 → s.seeding s.myTen = true → exec (.pget rs1 o) s = .next s ∧ exec (.pstat rd rs1) s = .next s))

/-- R130, R133, R136: a publication needs every sender slice closed, room in DEPTH, and neither a reclaim still to be done nor a seed being
copied; it stores the version's words at RBUF, each replacing the versions below REL, then advances NEXTV and opens the slices with every
cell and time zero. -/
def Obligations.PortPublish : Prop :=
  ∀ (p : Nat) (q : PortLd) (s : State), (s.port p).ld = some q →
    (¬(q.cl.length = pNSSL q.img ∧ q.live < pDEPTH q.img ∧ q.asked = none ∧ q.owes = false ∧ s.seeding (pTEN q.img) = false) →
      exec (.portPublish p) s = .next s) ∧
    (q.cl.length = pNSSL q.img → q.live < pDEPTH q.img → q.asked = none → q.owes = false → s.seeding (pTEN q.img) = false →
      (s.vf (pTEN q.img)).paused = false →
      ∀ (tb : PTables) (s1 s2 t : State),
      let bad := fun (_ _ : Nat) => (M.stop (breakPort p) : M Unit)
      let xbar := averages q tb.sl
      let rows := tb.rows.map (remapRow q.img xbar.1)
      let ver := versionBytes q.img (rows.map (·.1))
      let ws := versionWords ver.1
      (readTables (portRead p q) bad q.img).leads s s1 tb → (checkBuffer (portLeaf p q) bad q.img).leads s1 s2 () →
      (M.each (fun (e : Nat × (Word × Bool)) => storeVersion p q q.nextv (pRBUF q.img + 8 * e.1) e.2)
        ((List.range ws.length).zip ws)).leads s2 t () → (t.port p).ld = some q →
      ∃ u, exec (.portPublish p) s = .next u ∧ u.mem = t.mem ∧ u.vers = t.vers ∧
        let fl := q.pflags ||| xbar.2 ||| (rows.foldl (fun f r => f ||| r.2) 0) ||| ver.2
        (u.port p).ld = some { q with nextv := q.nextv + 1, acc := [], accPois := [], dt := [], cl := [], pflags := fl })

/-! ### Caldera memory -/

/-- R261 to R263, R98, R420: `cm.alloc` at an own die gives the base of a run of free granules, which are the tenant's from then on,
gives 0 for a count of 0 or above 32,768 and, with quota left, when the die has no such run or too little storage; it takes QUOTA beyond the
limit. `cm.query` reads USED and LIMIT; `cm.free` begins the scrub of the tenant's granules, and takes ILLEGAL_OPERAND with the base as XVAL
where the tenant does not hold them all (R436). R95, R98, R391: at the end of its scrub a granule holds zeros, no poison and no version, and nobody
holds it; other bytes stand. -/
def Obligations.CalderaOps : Prop :=
  (∀ (rd rs1 : XReg) (o : S2) (s : State), s.readable rs1 → s.s2Readable o → s.fenced → s.me.pend = [] →
    let sel := (s.s2 o).toNat
    let ca := sel.testBit 0
    let vers := sel.testBit 8
    let c := s.cal ca
    let n := (s.x rs1).toNat
    (sel < 2 ^ 9 → sel / 32 % 8 = 0 → sel / 2 % 16 = s.pres.pkg.toNat → s.pres.pkg.toNat < s.pres.group → s.calLost s.pres.pkg.toNat ca = false →
      (n = 0 ∨ 32768 < n → exec (.cmAlloc rd rs1 o) s = .next (s.wrote rd 0).retired) ∧
      (0 < n → n ≤ 32768 → c.limitOf s.myTen < c.usedBy s.myTen + n * granCost vers →
        exec (.cmAlloc rd rs1 o) s = .next (s.took { code := 0x15, val := BitVec.ofNat 64 (n * granCost vers) })) ∧
      (0 < n → n ≤ 32768 → c.usedBy s.myTen + n * granCost vers ≤ c.limitOf s.myTen → c.inUse + n * granCost vers ≤ 32768 → c.granOk →
        (∃ g, g + n ≤ 32768 ∧ ∀ k < n, SMap.find c.gran (g + k) = none) →
        ∃ t g, exec (.cmAlloc rd rs1 o) s = .next t ∧ t.me.rd rd = (if rd = 0 then 0 else granVA s.pres.pkg.toNat ca g) ∧ g + n ≤ 32768 ∧
          (t.cal ca).granOk ∧ (∀ j, SMap.find (t.cal ca).gran j =
            if g ≤ j ∧ j < g + n then some ⟨s.myTen, s.pres.pkg.toNat, vers⟩ else SMap.find c.gran j) ∧
          ∀ k < n, SMap.find c.gran (g + k) = none) ∧
      (0 < n → n ≤ 32768 → c.usedBy s.myTen + n * granCost vers ≤ c.limitOf s.myTen → c.granOk →
        (32768 < c.inUse + n * granCost vers ∨ ¬∃ g, g + n ≤ 32768 ∧ ∀ k < n, SMap.find c.gran (g + k) = none) →
        ∃ t, exec (.cmAlloc rd rs1 o) s = .next t ∧ (∀ r, t.me.rd r = if r = rd then 0 else s.me.rd r) ∧ t.cals = s.cals ∧
          t.mem = s.mem ∧ t.me.run = .ready) ∧
      (vers = false → exec (.cmQuery rd o) s =
        .next (s.wrote rd (BitVec.ofNat 64 (c.usedBy s.myTen * 2 ^ 32 + c.limitOf s.myTen))).retired)) ∧
    (∀ (ca : Bool) (g : Nat), g < 32768 → s.x rs1 = granVA s.pres.pkg.toNat ca g → s.pres.pkg.toNat < s.pres.group →
      s.calLost s.pres.pkg.toNat ca = false →
      (sel = 0 → exec (.cmFree rs1 o) s = .next s.retired) ∧
      (0 < sel → s.holds ca s.myTen g sel = true →
        ∃ t, exec (.cmFree rs1 o) s = .next t ∧ t.me.run = .ready ∧ t.mem = s.mem ∧ t.cals = s.cals ∧
          t.dev.scrubs.map (·.of) = s.dev.scrubs.map (·.of) ++ (List.range sel).map (fun k => .gran ca (g + k)) ∧
          let lo := s.pres.pkg.toNat * 2 ^ 36 + ca.toNat * 2 ^ 35 + g * 2 ^ 16
          ∀ e ∈ t.dev.tlb, e ∈ s.dev.tlb ∧ ¬(lfAPT e.leaf = 2 ∧ lfFRAME e.leaf * 2 ^ 19 < lo + sel * 2 ^ 16 ∧
            lo < lfFRAME e.leaf * 2 ^ 19 + 2 ^ lfLog e.leaf)) ∧
      (0 < sel → s.holds ca s.myTen g sel = false → exec (.cmFree rs1 o) s = .next (s.took { code := 0x02, val := s.x rs1 })))) ∧
  (∀ (id g : Nat) (ca : Bool) (s : State), s.dev.scrubs.find? (fun x => x.id == id) = some ⟨id, .gran ca g⟩ →
    (s.dev.acks.any fun a => a.1 == id) = false →
    let lo := (Space.cal ca).loc (g * 65536)
    ∃ t, exec (.scrubComplete id) s = .next t ∧
      (∀ a, t.byte a = if lo ≤ a ∧ a < lo + 65536 then 0 else s.byte a) ∧
      (∀ a, lo ≤ a → a < lo + 65536 → a ∉ t.pois ∧ SMap.find t.vers a = none) ∧
      SMap.find (t.cal ca).gran g = none ∧ (∀ x ∈ t.dev.scrubs, x.id ≠ id))

/-! ### Vector instructions -/

/-- R270 to R276: a vector instruction that accesses no memory enters the core's queue at issue, with VL, FRM and the scalar operand it
captures, and the context goes on; at VL 0 it captures no operand. `vmvxs` holds its scalar register. R272, R437: with 64-bit elements
a vector length above 32 takes ILLEGAL_OPERAND with VL as XVAL; on a vent core the instruction takes ILLEGAL_INSN (R430). R271:
`vsetvl` sets VL and X[rd] to the smaller of the request and the number of elements a register holds. R277 to R279: a vector memory
instruction whose elements lie in the own local memory, each aligned and allowed, is queued with their addresses: unit stride, a stride
from a register or constant, or the indices of a vector register. -/
def Obligations.VectorIssue : Prop :=
  ((∀ (i : Instr) (h : VShape) (s : State), vShape i = some h → s.onVent = false →
    s.me.cpois.contains cVL = false → (h.wide = true → s.vlen ≤ 32) →
    (s.vlen = 0 → exec i s = .next (s.vqueued i 0 0 0 []).retired) ∧
    (s.vlen ≠ 0 → (h.rounds = true → s.me.cpois.contains cFRM = false) → (∀ r, h.scalar = some r → s.readable r) →
      exec i s = .next (s.vqueued i s.vlen (h.passes s.vlen) ((h.scalar.map s.x).getD 0) []).retired)) ∧
  (∀ (i : Instr) (h : VShape) (s : State), vShape i = some h → s.noTiles →
    (s.onVent = true → exec i s = .next (s.took { code := 0x01, val := ((encode i).getD 0).setWidth 64 })) ∧
    (s.onVent = false → s.me.cpois.contains cVL = false → h.wide = true → 32 < s.vlen →
      exec i s = .next (s.took { code := 0x02, val := BitVec.ofNat 64 s.vlen }))) ∧
  (∀ (d : Bool) (rd : XReg) (o : S2) (s : State), s.onVent = false → s.s2Readable o →
    let n := BitVec.ofNat 64 (min (s.s2 o).toNat (if d then 32 else 64))
    exec (.vsetvl d rd o) s = .next ((s.csrWritten 0xC06 n).wrote rd n).retired)) ∧
  (∀ (fmt : VMemFmt) (nu : BitVec 4) (v vi : VReg) (rs1 : XReg) (o : S2) (s : State), s.onVent = false → s.noTiles →
    s.me.cpois.contains cVL = false → (fmt.wide = true → s.vlen ≤ 32) → s.vlen ≠ 0 → s.readable rs1 →
    let core := coreOf s.dev.cur
    let local' := fun (use : Use) (vas : List Word) => ∀ va ∈ vas, va.toNat % fmt.bytes = 0 ∧
      s.windowBad s.dev.cur va.toNat = false ∧ ∃ c off, s.window s.dev.cur use va.toNat fmt.bytes = .ok (some (.lm c off))
    let at' := fun (f : Nat → Word) => (List.range s.vlen).map fun k => s.x rs1 + f k
    let queue := fun (i : Instr) (vas : List Word) =>
      exec i s = .next (s.vqueued i s.vlen (elementPasses fmt.wide s.vlen) 0 (vas.map fun va => (va, 0))).retired
    let unit := at' fun k => BitVec.ofNat 64 (fmt.bytes * k)
    let strided := at' fun k => BitVec.ofNat 64 ((s.s2 o).toNat * k)
    let indexed := at' fun k => (BitVec.ofNat fmt.stride (s.vreg core vi / 2 ^ (fmt.stride * k))).signExtend 64
    (local' .vload unit → queue (.vld fmt nu v rs1) unit) ∧ (local' .vstore unit → queue (.vst fmt nu v rs1) unit) ∧
    (s.s2Readable o → (local' .vload strided → queue (.vlds fmt nu v rs1 o) strided) ∧
      (local' .vstore strided → queue (.vsts fmt nu v rs1 o) strided)) ∧
    ((∀ e ∈ s.myCore.vq, e.vl = 0 ∨ vDest e.instr ≠ some vi) → s.myCore.vpois.getLsbD vi.toNat = false → (local' .vload indexed → queue (.vldx fmt nu v rs1 vi) indexed) ∧
      (local' .vstore indexed → queue (.vstx fmt nu v rs1 vi) indexed)))

/-- R275, R153, R154: the head of a core's queue, in the last cycle that it is bound to lane groups, takes its effect and leaves the queue:
elements and flags, or a scalar register, unless a later instruction has written that (log 47); before, nothing happens. R277 to R279: a load
sets element k to the bytes at its k-th queued address, and a store writes the low bytes of element k there, with the elements in unlocked and
unpoisoned local memory. R377, R427, R117, R390: a poisoned source, a reserved code, a lock or poison at the first element that meets one is a
cause: nothing of the instruction is left but, of a store, bytes of its elements. -/
def Obligations.VectorRetire : Prop :=
  ∀ (core : Nat) (e : VEnt) (rest : List VEnt) (s : State), (s.core core).vq = e :: rest →
    let clean := fun (l : List VReg) => (l.any fun r => (s.core core).vpois.getLsbD r.toNat) = false
    let last := e.passes = 0 ∨ ∃ n, SMap.find (s.cluster (core / 4)).bound (core % 4) = some n ∧ n ≤ 1
    (¬last → exec (.vectorRetire core) s = .next s) ∧
    (last → e.vl = 0 → ∃ t, exec (.vectorRetire core) s = .next t ∧ (t.core core).vq = rest ∧ (t.core core).v = (s.core core).v ∧ t.mem = s.mem) ∧
    (∀ reads vd stride els fl, last → e.vl ≠ 0 → vEffect (s.vin core e) e.instr = .reg reads vd stride els fl → els ≠ [] → clean reads →
      ∃ t, exec (.vectorRetire core) s = .next t ∧ (t.core core).vq = rest ∧ t.mem = s.mem ∧
        t.vreg core vd = putLow stride (s.vreg core vd) els % 2 ^ 2048 ∧ (∀ v, v ≠ vd → t.vreg core v = s.vreg core v) ∧
        (t.ctx e.ctx).csrGet (isVent (coreOf e.ctx)) cFFLAGS = (s.ctx e.ctx).csrGet (isVent (coreOf e.ctx)) cFFLAGS ||| fl.setWidth 64) ∧
    (∀ reads rd v, last → e.vl ≠ 0 → vEffect (s.vin core e) e.instr = .scalar reads rd v → clean reads →
      (e.dest = .ahead → ∃ t, exec (.vectorRetire core) s = .next t ∧ (t.core core).vq = rest ∧ t.mem = s.mem ∧
        (t.core core).v = (s.core core).v ∧ ∀ r, (t.ctx e.ctx).rd r = if r = rd ∧ r ≠ 0 then v else (s.ctx e.ctx).rd r) ∧
      (e.dest = .passed → ∃ t, exec (.vectorRetire core) s = .next t ∧ (t.core core).vq = rest ∧ t.mem = s.mem ∧
        (t.core core).v = (s.core core).v ∧ ∀ r, (t.ctx e.ctx).rd r = (s.ctx e.ctx).rd r)) ∧
    (last → e.vl ≠ 0 → (s.ctx e.ctx).due = none →
      let meets := fun (code : BitVec 8) (val : Word) => ∃ t, exec (.vectorRetire core) s = .next t ∧
        s.vectorCaused t core e rest code val ∧ t.mem = s.mem
      (∀ reads vd stride els fl, vEffect (s.vin core e) e.instr = .reg reads vd stride els fl → ¬clean reads → meets 0x0D 0) ∧
      (∀ reads rd v, vEffect (s.vin core e) e.instr = .scalar reads rd v → ¬clean reads → meets 0x0D 0) ∧
      (∀ reads code val, vEffect (s.vin core e) e.instr = .cause reads code val → clean reads → meets code val)) ∧
    (∀ st fmt v (at' : Nat → Nat × Nat), last → e.vl ≠ 0 → State.vMemForm e.instr = some (st, fmt, v) →
      (∀ k a, e.els[k]? = some a → State.elementAt core a.1 (at' k).1 (at' k).2) →
      let loc := fun (k : Nat) => (Space.lm (at' k).1).loc (at' k).2
      let lock := fun (k : Nat) => (s.core (at' k).1).locked false (at' k).2 fmt.bytes st
      let inside := fun (k a : Nat) => loc k ≤ a ∧ a < loc k + fmt.bytes
      let fine := fun (k : Nat) => lock k = none ∧ (st = false → s.poisoned (loc k) fmt.bytes = false)
      let n := e.els.length
      ((∀ k, k < n → fine k) → (st = true → clean [v]) → ∃ t, exec (.vectorRetire core) s = .next t ∧ (t.core core).vq = rest ∧
        (∀ u, st = true ∨ u ≠ v → t.vreg core u = s.vreg core u) ∧
        (st = false → t.mem = s.mem ∧ ∀ i, fmt.stride * (i + 1) ≤ 2048 → t.vreg core v / 2 ^ (fmt.stride * i) % 2 ^ fmt.stride =
          if i < n then s.peek (loc i) fmt.bytes else s.vreg core v / 2 ^ (fmt.stride * i) % 2 ^ fmt.stride) ∧
        (st = true → (∀ a, (∀ k, k < n → ¬inside k a) → t.byte a = s.byte a) ∧
          ∀ k, k < n → (∀ j, k < j → j < n → ∀ a, ¬(inside k a ∧ inside j a)) →
            t.peek (loc k) fmt.bytes = s.vreg core v / 2 ^ (fmt.stride * k) % 2 ^ (8 * fmt.bytes))) ∧
      ((s.ctx e.ctx).due = none →
        let meets := fun (code : BitVec 8) (val : Word) => ∃ t, exec (.vectorRetire core) s = .next t ∧
          s.vectorCaused t core e rest code val ∧ ∀ a, (st = true → ∀ k, k < n → ¬inside k a) → t.byte a = s.byte a
        (st = true → ¬clean [v] → meets 0x0D 0) ∧
        (∀ k a, e.els[k]? = some a → (∀ j, j < k → fine j) → (st = true → clean [v]) →
          (lock k ≠ none → meets 0x07 a.1) ∧ (lock k = none → st = false → s.poisoned (loc k) fmt.bytes = true → meets 0x0D a.1))))

/-- R280, R283, R284: each element of an element-wise integer instruction, from elements a and c of width m and operand b; no flag.
R281, R282, R283: each element of a floating instruction in the instruction's format and rounding mode, and of `vfcmp`; the flags of all
elements are ORed. R285: each element of `vcvt`, and the cause of a reserved NF8 source. R286: the reductions, by the tree. R284, R287, R288:
the mask instructions on all 64 lanes, moves, slides and broadcasts. R274, R272: writing elements 0 to n - 1 of a register sets those and
leaves every later element as it was. -/
def Obligations.VectorElements : Prop :=
  (∀ e ∈ vIntTable, ∀ (x : VIn) (d : Bool) (vd vs1 : VReg) (s2 : VS2),
    let m := if d then 64 else 32
    ∃ reads els, vEffect x (e.1 d vd vs1 s2) = .reg reads vd m els 0 ∧ els.length = x.n ∧ vs1 ∈ reads ∧
      ∀ i, i < x.n → els[i]? = some (e.2 m (x.reg vs1 / 2 ^ (m * i) % 2 ^ m) (x.int d s2 i) (x.reg vd / 2 ^ (m * i) % 2 ^ m))) ∧
  ((∀ e ∈ vFltTable, ∀ (x : VIn) (f : VFmt) (vd vs1 : VReg) (s2 : VS2),
    let r := fun i => e.2 f.fmt x.mode (lane (x.reg vs1) f.stride f.width i) (x.flt f s2 i) (lane (x.reg vd) f.stride f.width i)
    ∃ reads els fl, vEffect x (e.1 f vd vs1 s2) = .reg reads vd f.stride els fl ∧ els = (List.range x.n).map (fun i => (r i).1) ∧
      ∀ b, fl.getLsbD b = (List.range x.n).any fun i => (r i).2.getLsbD b) ∧
  (∀ e ∈ vFlt1Table, ∀ (x : VIn) (f : VFmt) (vd : VReg) (s2 : VS2),
    let r := fun i => e.2 f.fmt x.mode (x.flt f s2 i)
    ∃ reads els fl, vEffect x (e.1 f vd s2) = .reg reads vd f.stride els fl ∧ els = (List.range x.n).map (fun i => (r i).1) ∧
      ∀ b, fl.getLsbD b = (List.range x.n).any fun i => (r i).2.getLsbD b)) ∧
  ((∀ (x : VIn) (cc : VFCond) (f : VFmt) (vd vs1 : VReg) (s2 : VS2),
    let r := fun i => vfHolds cc (f.val (lane (x.reg vs1) f.stride f.width i)) (f.val (x.flt f s2 i))
    ∃ reads fl, vEffect x (.vfcmp cc f vd vs1 s2) =
        .reg reads vd f.stride ((List.range x.n).map fun i => if (r i).1 then 2 ^ f.width - 1 else 0) fl ∧
      fl = if (List.range x.n).any (fun i => (r i).2) then fNV else 0) ∧
  (∀ (x : VIn) (dst src : BitVec 3) (rtz : Bool) (vd vs1 : VReg),
    let a := fun i => lane (x.reg vs1) (cvtStride src) (cvtWidth src) i
    let r := fun i => converted (if rtz then .rtz else x.mode) dst src (a i)
    let bad := fun i => src = 3 ∧ a i % 128 = 0x7F
    (∀ i, i < x.n → bad i → (∀ j, j < i → ¬bad j) →
      ∃ reads, vEffect x (.vcvt dst src rtz vd vs1) = .cause reads 0x08 (BitVec.ofNat 64 i)) ∧
    ((∀ i, i < x.n → ¬bad i) →
      ∃ reads fl, vEffect x (.vcvt dst src rtz vd vs1) = .reg reads vd (cvtStride dst) ((List.range x.n).map fun i => (r i).1) fl ∧
        ∀ b, fl.getLsbD b = (List.range x.n).any fun i => (r i).2.getLsbD b))) ∧
  ((∀ e ∈ vRedTable, ∀ (x : VIn) (d : Bool) (vd vs1 : VReg) (s2 : VS2),
    let m := if d then 64 else 32
    let r := treeSum (fun a b => (e.2 m a b, 0)) (fun i => lane (x.reg vs1) m m i) x.n (x.int d s2 0)
    ∃ reads, vs1 ∈ reads ∧ (x.n = 0 → vEffect x (e.1 d vd vs1 s2) = .reg reads vd m [] 0) ∧
      (0 < x.n → x.n ≤ 64 → vEffect x (e.1 d vd vs1 s2) = .reg reads vd m [r.1] 0)) ∧
  (∀ (x : VIn) (f : VFmt) (vd vs1 : VReg) (s2 : VS2),
    let r := treeSum (fun a b => f.fmt.round x.mode (FVal.add x.mode (f.val a) (f.val b)))
      (fun i => lane (x.reg vs1) f.stride f.width i) x.n (x.flt f s2 0)
    ∃ reads, vs1 ∈ reads ∧ (x.n = 0 → vEffect x (.vfredsum f vd vs1 s2) = .reg reads vd f.stride [] 0) ∧
      (0 < x.n → x.n ≤ 64 → vEffect x (.vfredsum f vd vs1 s2) = .reg reads vd f.stride [r.1] r.2))) ∧
  (∀ (x : VIn) (d : Bool) (vd vs1 vs2 : VReg) (o : S2) (rs rd : XReg),
    let m := if d then 64 else 32
    let w := fun (v : VReg) (i : Nat) => x.reg v / 2 ^ (32 * i) % 2 ^ 32
    let el := fun (i : Nat) => x.reg vs1 / 2 ^ (m * i) % 2 ^ m
    let k := match o with | .reg _ => x.s2v | .con c => kInt c
    let lanes := fun (i : Instr) (g : Nat → Nat) => ∃ reads, vEffect x i = .reg reads vd 32 (if x.n = 0 then [] else (List.range 64).map g) 0
    let els := fun (i : Instr) (g : Nat → Nat) => ∃ reads, vEffect x i = .reg reads vd m ((List.range x.n).map g) 0
    lanes (.vmand vd vs1 vs2) (fun i => w vs1 i &&& w vs2 i) ∧ lanes (.vmor vd vs1 vs2) (fun i => w vs1 i ||| w vs2 i) ∧
    lanes (.vmnot vd vs2) (fun i => 2 ^ 32 - 1 - w vs2 i) ∧
    els (.vslide d vd vs1 o) (fun i => if 0 ≤ (i : Int) + k.toInt ∧ (i : Int) + k.toInt < x.n then el ((i : Int) + k.toInt).toNat else 0) ∧
    els (.vbcast d vd vs1 o) (fun _ => if k.toNat < 2048 / m then el k.toNat else 0) ∧
    (∃ reads, vEffect x (.vmvsx d vd rs) = .reg reads vd m [x.s2v.toNat % 2 ^ m] 0) ∧
    (∃ reads, vEffect x (.vmvxs d rd vs1) = .scalar reads rd (BitVec.ofInt 64 (BitVec.ofNat m (el 0)).toInt))) ∧
  (∀ (stride v : Nat) (els : List Nat), 0 < stride → (∀ x ∈ els, x < 2 ^ stride) →
    ∀ i, putLow stride v els / 2 ^ (stride * i) % 2 ^ stride = els.getD i (v / 2 ^ (stride * i) % 2 ^ stride))

/-! ### Tile instructions and the rewrite window -/

/-- R293, R315, R316, R320: a tile instruction captures its registers and enters the window, which then takes its steps; without
rewrite rules it is committed at once. With eight originals in the window it parks until there is room. -/
def Obligations.TileIssue : Prop :=
  ∀ (i : Instr) (rs1 rs2 : XReg) (td : Option TReg) (s : State), tileForm i = some (rs1, rs2, td) →
    s.onVent = false → s.onControl = true → s.me.busy rs1 = false → s.me.busy rs2 = false →
    s.me.tick.bad rs1 = false → s.me.tick.bad rs2 = false →
    (s.myCore.cpois.contains cRWPERM = true → ∀ r ∈ s.myCore.rules, ruCLASS r.toNat < 2) →
    let k := s.myCore
    let n := (originals [] k.win).length
    let e := s.tileEntry i rs1 rs2
    (8 ≤ n → ∃ t, exec i s = .next t ∧ s.parkedOn t .room none ∧ t.mem = s.mem) ∧
    (n < 8 → ∃ t, exec i s = .next t ∧ t.me.run = .ready ∧ t.mem = s.mem ∧ t.dev.cur = s.dev.cur ∧
      t.myCore.t = k.t ∧ t.myCore.fresh = freshThen i td k.fresh ∧
      t.myCore.win = (windowStep 1024 s.dev.seq { k with win := k.win ++ [e], fresh := freshThen i td k.fresh }).win ∧
      (k.rules = [] → (∀ x ∈ k.win, x.st ≠ .held) → t.myCore.win = k.win ++ [{ e with st := .committed }]))

/-- R294, R300 to R303: the committed front of the window starts when its control context may be interrupted: with every operand in
reach, unlocked and unpoisoned, in a format that exists and without a reserved code, it performs its accesses and holds its result until
it retires, which writes the tile, ORs the flags and counts a TMEM instruction in TRC. What a store of the context has made it read ahead it
reads as it was then, but for what earlier tile instructions have stored since (R102, R104; log 3). Every
element of every result, with the flags of all of them ORed: R300: `ttr` transposes, `tmov` copies, `tzero` clears, `tadd` adds and `tscl` scales,
each rounded once; R61, R301: `tmma` and `tmmat` make one block step, A and the slot read in the layouts of R298, A transposed by `tmmat`;
R302: `tld` widens FP32, `tbld` copies the slot, and `tst` stores the scaled elements in the layout of its format. R322: a group whose check
passes, or that needs none, is left as it is. -/
def Obligations.TileRun : Prop :=
  (∀ (core : Nat) (e : TEnt) (rest : List TEnt) (s : State), (s.core core).win = e :: rest →
    let c := s.core core
    (e.st ≠ .committed ∨ s.tileReady core = false → exec (.tileStart core) s = .next s) ∧
    (∀ i f w, e.st = .committed → s.tileReady core = true → (s.unfold core).win = f :: w → f.st = .committed →
      tileWord f.op.word.toNat = some i →
      let c := s.unfold core
      let us := c.tileUses i f.op
      let lm := s.tileGets core f.early false
      let a := ((us.find? fun u => !u.slot && !u.wr).map fun u => lm (tileOff u.a) u.n).getD []
      let slot := if us.any (·.slot) then s.tileGets core f.early true (f.op.opb.toNat % 2 ^ 10 * 2048) 2048 else []
      let scales := if readsScales c && isMma i then lm (tileOff (mscaVA c)) 32 else []
      let r := c.effect i f.op a slot scales
      (∀ u ∈ us, s.tileUseOk core f.early f.sup u) → (∀ t ∈ tileReads i, c.tpois.getLsbD t.toNat = false) →
      (∀ n ∈ c.tileCsrs i, c.cpois.contains n = false) →
      (isMma i = true → afmt c < 2 ∧ bfmt c < 2 ∧ (afmt c = 0 → State.noReserved a) ∧ (bfmt c = 0 → State.noReserved slot)) →
      ∃ t, exec (.tileStart core) s = .next t ∧
        (let res : TRes := ⟨r.tile.map (·.1), (r.tile.map fun x => tileEntries x.1 x.2).getD [], r.fl⟩
         (t.core core).win = { f with st := .started res } ::
           w.map fun x => { x with
             early := x.early.map (Early.splice (tileOff f.op.opa) r.bytes),
             base := if f.shares x then x.base <|> some (f.base.getD c.t) else x.base }) ∧
        (t.core core).t = c.t ∧ t.mem = Memory.writes s.mem ((Space.lm core).loc (tileOff f.op.opa)) r.bytes ∧
        ∀ k, t.ctx k = s.ctx k) ∧
    (e.rule = none → e.ran = [] → s.unfold core = c) ∧
    (∀ r, e.st = .started r → exec (.tileRetire core) s = .next (
      let k := (r.td.map fun t => c.setTile t r.els).getD c
      let k := if ((tileWord e.op.word.toNat).map isTmem).getD false then k.csrBump cTRC (k.csrGet cTRC + 1) else k
      let u := s.setCore core { k with win := rest }
      u.setCtx (ctxId core 0) ((u.ctx (ctxId core 0)).orFlags (isVent core) r.flags))) ∧
    (∀ td els fl, e.st = .started ⟨some td, tileEntries td els, fl⟩ → els.length = 1024 → (∀ x ∈ els, x < 2 ^ 40) →
      ∃ t, exec (.tileRetire core) s = .next t ∧ (t.core core).win = rest ∧ t.mem = s.mem ∧ (t.core core).tile td = els ∧
        (∀ u, u ≠ td → (t.core core).tile u = c.tile u) ∧
        (t.ctx (ctxId core 0)).csrGet (isVent core) cFFLAGS =
          (s.ctx (ctxId core 0)).csrGet (isVent core) cFFLAGS ||| fl.setWidth 64) ∧
    (∀ r, e.st = .started r → ∃ t, exec (.tileRetire core) s = .next t ∧
      (t.core core).csrGet cTRC = c.csrGet cTRC + (if ((tileWord e.op.word.toNat).map isTmem).getD false then 1 else 0)) ∧
    ((∀ r, e.st ≠ .started r) → exec (.tileRetire core) s = .next s)) ∧
  (∀ (c : Core) (td ts : TReg) (rs1 rs2 : XReg) (nu : BitVec 4) (o : TOp) (a slot scales : List Byte),
    let el := fun (t : TReg) (n : Nat) => (c.tile t).getD n 0
    let by' := fun (l : List Byte) (k n : Nat) => leNat ((l.drop k).take n)
    let gives := fun (i : Instr) (g : Nat → Nat → Nat × Flags) =>
      let r := c.effect i o a slot scales
      (∃ els, r.tile = some (td, els) ∧ els.length = 1024 ∧ ∀ i j : Nat, i < 32 → j < 32 → els[32 * i + j]? = some (g i j).1) ∧
      r.bytes = [] ∧ ∀ b : Nat, r.fl.getLsbD b = true ↔ ∃ i j : Nat, i < 32 ∧ j < 32 ∧ (g i j).2.getLsbD b = true
    let f := fFP32.val (o.opb.toNat % 2 ^ 32)
    (c.tile td).length = 1024 ∧
    gives (.tzero td) (fun _ _ => (0, 0)) ∧
    gives (.tmov td ts) (fun i j => (el ts (32 * i + j), 0)) ∧
    gives (.ttr td ts) (fun i j => (el ts (32 * j + i), 0)) ∧
    gives (.tadd td ts) (fun i j => fA40.round .rne (FVal.add .rne (vA40 (el td (32 * i + j))) (vA40 (el ts (32 * i + j))))) ∧
    gives (.tscl td rs2) (fun i j => fA40.round .rne ((vA40 (el td (32 * i + j))).mul f).exact) ∧
    (let A := fun (i k : Nat) => if afmt c = 0 then fNF8.val (by' a (32 * i + k) 1) else fBF16.val (by' a (64 * i + 2 * k) 2)
     let B := fun (k j : Nat) => if bfmt c = 0 then fNF8.val (by' slot (32 * j + k) 1) else fBF16.val (by' slot (64 * j + 2 * k) 2)
     let sA := fun (i : Nat) => if afmt c ≠ 0 then FVal.fin false 1 0
       else if readsScales c then FVal.scale (by' scales i 1) else FVal.scale ((c.csrGet cMSCA).toNat / 2 ^ 32 % 2 ^ 8)
     let sB := fun (j : Nat) => if bfmt c ≠ 0 then FVal.fin false 1 0
       else if (c.csrGet cMSCB).getLsbD 8 then FVal.scale ((c.csrGet cMSCB).toNat % 2 ^ 8) else FVal.scale (by' slot (1024 + j) 1)
     let step := fun (A : Nat → Nat → FVal) (i j : Nat) =>
       let S := dotExact ((List.range 32).map fun k => (A i k, B k j))
       let U := fA40.round .rne ((S.mul (sA i)).mul (sB j)).exact
       let r := fA40.round .rne (FVal.add .rne (vA40 (el td (32 * i + j))) (vA40 U.1))
       (r.1, U.2 ||| r.2)
     a.length = (if afmt c = 0 then 1024 else 2048) → slot.length = 2048 → (readsScales c = true → scales.length = 32) →
       gives (.tmma td rs1 rs2) (step A) ∧ gives (.tmmat td rs1 rs2) (step fun i k => A k i)) ∧
    (a.length = 4096 → gives (.tld nu td rs1) (fun i j => fA40.round .rne (fFP32.val (by' a (128 * i + 4 * j) 4)).exact)) ∧
    ((c.effect (.tbld nu rs1 rs2) o a slot scales).bytes = slot ∧ (c.effect (.tbld nu rs1 rs2) o a slot scales).fl = 0) ∧
    (let v := fun (i j : Nat) => (vA40 (el td (32 * i + j))).mul f
     let stores := fun (fmt : TstFmt) (n : Nat) (cells : List Byte → Prop) (g : Nat → Nat → Nat × Flags) =>
       let r := c.effect (.tst nu fmt td rs1 rs2) o a slot scales
       r.tile = none ∧ r.bytes.length = n ∧ cells r.bytes ∧
       ∀ b : Nat, r.fl.getLsbD b = true ↔ ∃ i j : Nat, i < 32 ∧ j < 32 ∧ (g i j).2.getLsbD b = true
     let w := fun (i j : Nat) => fFP32.round .rne (v i j).exact
     let h := fun (i j : Nat) => fBF16.round .rne (v i j).exact
     let m := (c.csrGet cMCODE).toNat
     let code := fun (i : Nat) => if (c.csrGet cMCODE).getLsbD 8 then m % 2 ^ 8 else (narrowBlock ((List.range 32).map (v i))).1
     let q := fun (i j : Nat) => fNF8.round .rne ((v i j).div (FVal.scale (code i)))
     stores .f32 4096 (fun l => ∀ i j : Nat, i < 32 → j < 32 → by' l (128 * i + 4 * j) 4 = (w i j).1) w ∧
     stores .bf16 2048 (fun l => ∀ i j : Nat, i < 32 → j < 32 → by' l (64 * i + 2 * j) 2 = (h i j).1) h ∧
     stores .nf8 1056 (fun l => (∀ i j : Nat, i < 32 → j < 32 → by' l (32 * i + j) 1 = (q i j).1) ∧
       ∀ i : Nat, i < 32 → by' l (1024 + i) 1 = code i) q))

/-- R306, R307, R317, R321: `rwload` reads an image from LOCAL and replaces the rule table, with RWSTAT 0; one that fails a check takes
ILLEGAL_OPERAND; `rwflush` commits what the window holds and goes on when it is empty; 16 dwell cycles flush it as well. -/
def Obligations.RewriteTable : Prop :=
  (∀ (rs1 : XReg) (core off : Nat) (s : State), s.onVent = false → s.onControl = true → s.readable rs1 → s.fenced →
    let loc := (Space.lm core).loc off
    (s.x rs1).toNat % 64 = 0 → exposed (s.x rs1) = true →
    s.windowBad s.dev.cur (s.x rs1).toNat = false →
    s.window s.dev.cur .load (s.x rs1).toNat 2112 = .ok (some (.lm core off)) → (s.core core).locked false off 2112 false = none →
    s.poisoned loc 2112 = false →
    (∀ rs, rulesOf (s.bytesAt loc 2112) = some rs → exec (.rwload rs1) s =
      .next ((s.withMyCore fun c => { c.csrSet cRWSTAT 0 with rules := rs.map (BitVec.ofNat 512) }).retired)) ∧
    (rulesOf (s.bytesAt loc 2112) = none → exec (.rwload rs1) s = .next (s.took { code := 0x02, val := s.x rs1 }))) ∧
  (∀ (s : State), s.onVent = false → s.onControl = true →
    (s.noTiles → exec .rwflush s = .next s.retired) ∧
    (s.myCore.win ≠ [] → ∃ t, exec .rwflush s = .next t ∧ t.me = s.me ∧
      t.myCore.win = s.myCore.win.map fun e => if e.st = .held then { e with st := .committed } else e)) ∧
  (∀ (core : Nat) (s : State), let c := s.core core
    ((∃ e ∈ c.win, e.st = .held) → 16 ≤ c.dwell → ∃ t, exec (.dwellFlush core) s = .next t ∧ t.mem = s.mem ∧ (t.core core).dwell = 0 ∧
      (t.core core).win = c.win.map fun e => if e.st = .held then { e with st := .committed } else e) ∧
    ((∀ e ∈ c.win, e.st ≠ .held) ∨ c.dwell < 16 → exec (.dwellFlush core) s = .next s)) ∧
  (∀ img : List Byte, leNat (img.take 2) ≠ 0x9E61 → rulesOf img = none)

/-! ### Vent instructions -/

/-- R309, R310, R115: the transfers of a vent core, with a descriptor of 64 bytes in LOCAL that keeps the limits: when every page of
the global side resolves and the range can be locked, the operation starts and the context goes on; while the range cannot be locked
nothing happens. A descriptor that breaks a limit takes ILLEGAL_OPERAND. -/
def Obligations.VentTransfers : Prop :=
  ∀ (i : Instr) (func : Nat) (dec nocq : Bool) (nu : BitVec 4) (rs1 rs2 : XReg) (core off : Nat) (s u w : State),
    ventForm i = some (func, dec, nocq, nu, rs1, rs2) → s.onVent = true → s.readable rs1 → s.readable rs2 →
    let va := s.x rs1
    let loc := (Space.lm core).loc off
    let d := s.peek loc 64
    let k : AKind := if vIn func then .vread else .vwrite
    let lock := vopLock s.dev.seq func dec d
    let o : VOp := { id := s.dev.seq, ctx := s.dev.cur, ten := s.myTen, pnode := s.myPart, func := BitVec.ofNat 4 func, dec := dec,
                     nocq := nocq, nu := nu, desc := BitVec.ofNat 512 d, tag := (s.x rs2).setWidth 32, core := vdCORE d, pages := [],
                     dir := 0, dirBad := false, status := none, done := none }
    s.myOps.length < 8 → exposed va = true → s.localAt .load va 64 core off → s.poisoned loc 64 = false →
    (s.descOk s.myPart func dec d = false → exec i s = .next (s.took { code := 0x02, val := va })) ∧
    (s.descOk s.myPart func dec d = true →
      (∀ m, dec = false →
        (ventPages va k ((vdRows func d).flatMap fun r => pieceStarts r.1 r.2.2) []).leads s.arrived u m →
        exec i s = if (u.core (vdCORE d)).lockable lock then .next ((u.ventStarted lock { o with pages := m }).retired { trc := true })
                   else .next s) ∧
      (∀ m n dir bad t, dec = true → (ventPages va k (pieceStarts (vdDIR d + 8 * vdTILE d) 8) []).leads s.arrived u m →
        (readDir { o with pages := m }).leads u t (dir, bad) →
        (ventPages va k (pieceStarts (vdTAB d) 128 ++ pieceStarts (vdSCL d + 64 * vdTILE d) 64 ++
          (if bad then [] else pieceStarts (vdGA d + 32 * bitsOf dir 0 40) (32 * min (bitsOf dir 40 8) 64))) m).leads t w n →
        exec i s = if (w.core (vdCORE d)).lockable lock
          then .next ((w.ventStarted lock { o with pages := n, dir := BitVec.ofNat 64 dir, dirBad := bad }).retired { trc := true })
          else .next s))

/-- R239, R310 to R312: `vent.note` starts an operation without bytes, `vent.wait` gives the record of a finished operation, all ones
with none to wait for, and parks on one that has not finished; an operation moves its bytes from its resume offset on, one 32-byte beat of
the side it writes in a step, and joined rows as one range (R373, R386; log 18, DEDUCED), and with the last of them finishes when its record
may be appended: the record enters the target core's completion queue, and the lock is
gone. While its tenant is paused, and while an earlier operation uses the core's decoder, it waits. -/
def Obligations.VentCompletion : Prop :=
  (∀ (rs1 rs2 : XReg) (s : State), s.onVent = true → s.readable rs1 →
    let core := (s.x rs1).toNat % 4096
    (s.readable rs2 → s.fenced → s.myOps.length < 8 →
      ((s.nodeCores s.myPart).contains core = true →
        let o : VOp := { id := s.dev.seq, ctx := s.dev.cur, ten := s.myTen, pnode := s.myPart, func := 5, dec := false, nocq := false,
                         nu := 0, desc := 0, tag := (s.x rs2).setWidth 32, core := core, pages := [], dir := 0, dirBad := false,
                         status := some 0, done := none }
        exec (.ventNote rs1 rs2) s =
          .next (State.retired { s.arrived with dev := { s.arrived.dev with vops := s.dev.vops ++ [o] } } { trc := true })) ∧
      ((s.nodeCores s.myPart).contains core = false →
        exec (.ventNote rs1 rs2) s = .next (s.took { code := 0x02, val := BitVec.ofNat 64 core }))) ∧
    (
      let entry := s.ventEntry s.dev.cur (if rs1 = 0 then none else some ((s.x rs1).setWidth 32))
      (entry = none → exec (.ventWait rs1 rs2) s = .next ((s.wrote rs2 (BitVec.allOnes 64)).retired { trc := true })) ∧
      (∀ o, entry = some o → o.done = none → ∃ t, exec (.ventWait rs1 rs2) s = .next t ∧ s.parkedOn t .message none ∧ t.mem = s.mem) ∧
      (∀ o r, entry = some o → o.done = some r →
        let u := s.wrote rs2 r
        exec (.ventWait rs1 rs2) s =
          .next (State.retired { u with dev := { u.dev with vops := u.dev.vops.filter fun x => x.id != o.id } } { trc := true })))) ∧
  (∀ (op : Nat) (o : VOp) (s : State), s.dev.vops.find? (fun o => o.id == op) = some o → o.done = none →
    let finished := fun (u t : State) (st : BitVec 8) => t.mem = u.mem ∧
      (t.core o.core).cq = (if o.nocq then (u.core o.core).cq else (u.core o.core).cq ++ [o.record st]) ∧
      (∀ l ∈ (t.core o.core).locks, l.op ≠ o.id) ∧ (∀ x ∈ t.dev.vops, x.id = op → x.done = some (o.record st))
    let ends := fun (u : State) (st : BitVec 8) => u.canFinish o = true → ∃ t, exec (.ventOpComplete op) s = .next t ∧ finished u t st
    let all := vdBytes o.func.toNat false o.desc.toNat
    let behind := ∃ x ∈ s.dev.vops, x.dec = true ∧ x.core = o.core ∧ x.id < o.id ∧ x.status = none
    (s.pausedTen o.ten = true → exec (.ventOpComplete op) s = .next s) ∧
    (s.pausedTen o.ten = false →
      (∀ st, o.status = some st → ends s st ∧ (s.canFinish o = false → exec (.ventOpComplete op) s = .next s)) ∧
      (o.status = none → o.dec = false →
        (∀ u n st, (moveNext (.vop op) o).leads s u (some (n, st)) →
          (all ≤ o.moved + n → ends u st) ∧
          (o.moved + n < all → ∃ t, exec (.ventOpComplete op) s = .next t ∧ t.mem = u.mem ∧ t.cores = u.cores ∧
            t.dev.vops = u.dev.vops.map fun x => if x.id = op then { o with moved := o.moved + n, sofar := st } else x)) ∧
        (∀ u, (moveNext (.vop op) o).leads s u none → ends u 0x14)) ∧
      (o.status = none → o.dec = true →
        (behind → exec (.ventOpComplete op) s = .next s) ∧
        (∀ u st, ¬behind → (decodePush o).leads s u st → ends u st)))) ∧
  (∀ (who : Who) (o : VOp) (a n x : Nat) (src : List (Nat × Nat)) (s : State), s.vopTgt o a = .ok (.hbm x, false) → s.holders (x / 64) = [] → x < 2 ^ 60 →
    let rows := vdRows o.func.toNat o.desc.toNat
    let off := vdOFF o.desc.toNat + o.moved
    (vIn o.func.toNat = true → n = min (32 - off % 32) (vdBytes o.func.toNat false o.desc.toNat - o.moved) →
      nearSources rows off n = [(a, n)] → s.poisoned x n = false →
      ∃ t, (moveNext who o).leads s t (some (n, o.sofar)) ∧ t.mem = Memory.writes s.mem (o.nearLoc off) (s.bytesAt x n)) ∧
    (vIn o.func.toNat = false → beatAt (joinRows rows) o.moved = some (a, n, src) → (∀ e ∈ src, s.poisoned (o.nearLoc e.1) e.2 = false) →
      ∃ t, (moveNext who o).leads s t (some (n, o.sofar)) ∧
        t.mem = Memory.writes s.mem x (src.flatMap fun e => s.bytesAt (o.nearLoc e.1) e.2)))

/-! ### Dispatch, boundaries and clocks -/

/-- R31, R147 to R150, R387: a dispatcher that runs takes the newest record of the best class of its own deque, else steals; a vent
core takes the oldest that may run. The record leaves the deque and its task starts; a record in a poisoned slot is retired unrun. R43,
R204: the lowest pending interrupt is taken when the control context can take it: it enters its handler, with the source in XCAUSE, and
the slice and host interrupts taken are no longer pending. -/
def Obligations.DispatchAndInterrupts : Prop :=
  (∀ (core : Nat) (q : DqRec) (r : Nat) (s : State),
    let took := fun (v : Nat) => s.setCore v { s.core v with deque := (s.core v).deque.filter fun x => x ≠ q }
    let reads := fun (u : State) (bad : Bool) => (readSlot { u.tabOf (.eng core) q.pnode with core := core } q.slot).leads u u (r, bad)
    (s.dispatching core = true → (s.core core).csrGet cRESBYPASS &&& 0x10000 = 0 →
      (ownerTakes (s.core core).deque = some q →
        (reads (took core) false → ∃ t, exec (.dispatch core) s = .next t ∧ s.started t core q r ∧ ∀ x ∈ (t.core core).deque, x ≠ q) ∧
        (reads (took core) true → ∃ t, exec (.dispatch core) s = .next t ∧ (t.core core).task = none ∧
          (t.part q.pnode).pool = nsErase (s.part q.pnode).pool q.slot ∧ t.ctx (ctxId core 0) = s.ctx (ctxId core 0))) ∧
      (∀ v, ownerTakes (s.core core).deque = none → s.steal core = some (v, q) → v ≠ core → reads (took v) false →
        ∃ t, exec (.dispatch core) s = .next t ∧ s.started t core q r ∧ ∀ x ∈ (t.core v).deque, x ≠ q) ∧
      (ownerTakes (s.core core).deque = none → s.steal core = none → exec (.dispatch core) s = .next s)) ∧
    (s.dispatching core = false → exec (.dispatch core) s = .next s) ∧
    (firstClass (fun k => oldestOf k ((s.core core).deque.filter s.mayRun)) = some q → isVent core = true →
      (s.ctx (ctxId core 0)).run = .idle → (s.core core).task = none → reads (took core) false →
      ∃ t, exec (.ventDispatch core) s = .next t ∧ s.started t core q r ∧ ∀ x ∈ (t.core core).deque, x ≠ q)) ∧
  (∀ (core : Nat) (n : BitVec 4) (s : State),
    let id := ctxId core 0
    (s.irq core = some n → s.irqReady core = true → (s.core core).win = [] →
      ∃ t, exec (.interruptTaken core) s = .next t ∧
        let c := t.ctx id
        let was := s.ctx id
        c.csrGet false cXCAUSE = (0x11 ||| (n.setWidth 64 <<< 8)) ∧ c.csrGet false cXPC0 = was.pc ∧ c.csrGet false cXPC1 = was.q1 ∧
        c.csrGet false cXPC2 = was.q2 ∧ c.sup = true ∧ c.run = .ready ∧ c.pc = was.csrGet false cXTVEC ∧ c.a1 = false ∧ c.a2 = false ∧
        (t.core core).sliceInt = ((s.core core).sliceInt && n ≠ 2) ∧ (t.core core).hostInt = ((s.core core).hostInt && n ≠ 3) ∧
        t.mem = s.mem ∧ ∀ k, k ≠ id → t.ctx k = s.ctx k) ∧
    (s.irqReady core = false → exec (.interruptTaken core) s = .next s))

/-- R24, R28, R46, R47, R155: a complete component leaves its partition IDLE and unbound; at a boundary SSNUM and the interval number
advance and the superstep is disarmed, and a partition that drains is then SAVED; with neither, nothing happens. R48, R135, R369: a
coupling set that is quiescent and not reported is resolved: the seed of the port that ResolveCycle picks is published, or its copy begins where
another package has a part in it, or every partition of the set is reported by a DEADLOCK message, once. -/
def Obligations.BoundariesAndQuiescence : Prop :=
  (∀ (p : Nat) (s : State),
    let q := s.part p
    let go := fun (f : State → Prop) => ∃ t, exec (.superstepBoundary p) s = .next t ∧ f t
    let advanced := fun (t : State) => (t.part p).intv = q.intv + 1 ∧ (t.part p).armed = false ∧
      (∀ c ∈ s.nodeCores p, (t.core c).csrGet cSSNUM = (s.core c).csrGet cSSNUM + 1)
    (s.liveP p = false ∨ (s.boundary p = false ∧ s.complete p = false) → exec (.superstepBoundary p) s = .next s) ∧
    ((s.part? p).isSome = true → s.liveP p = true → s.complete p = true →
      go fun t => (t.part p).st = .idle ∧ (t.part p).pool = [] ∧ (t.part p).armed = false ∧ (s.boundary p = true → advanced t)) ∧
    ((s.part? p).isSome = true → s.liveP p = true → s.complete p = false → s.boundary p = true →
      (q.st = .draining → go fun t => (t.part p).st = .saved ∧ advanced t) ∧
      (q.st = .running → q.held = [] → go fun t => (t.part p).st = .running ∧ advanced t ∧ ∀ k, t.ctx k = s.ctx k))) ∧
  (∀ (p : Nat) (s : State),
    let ps := s.couplingSet p
    (s.quiescent ps = false ∨ (∃ q ∈ ps, (s.part q).dead = true) → exec (.quiescenceDetected p) s = .next s) ∧
    (s.quiescent ps = true → (∀ q ∈ ps, (s.part q).dead = false) →
      (∀ reason port, s.resolve ps = .dead reason port →
        ∃ t, exec (.quiescenceDetected p) s = .next t ∧ t.mem = s.mem ∧
          ∀ q ∈ ps, (s.part? q).isSome = true → (t.part q).dead = true ∧
            ∃ m ∈ (t.part q).mbq, (m.payload.getD 0 0).toNat = 5) ∧
      (∀ n q, s.resolve ps = .seed n → (s.port n).ld = some q → q.asked = none → s.seeding (pTEN q.img) = false →
        (∀ t, s.seedFar q = false → (publishSeed n q).leads s t () → exec (.quiescenceDetected p) s = .next t) ∧
        (s.seedFar q = true → exec (.quiescenceDetected p) s = .next (s.withLoaded n { q with seeding := true }))) ∧
      (∀ n q, s.resolve ps = .seed n → (s.port n).ld = some q → s.seeding (pTEN q.img) = true →
        exec (.quiescenceDetected p) s = .next s)))

/-- R89, R151, R155, R370, R348: slice timers, the energy meter and its budget, watchdogs, the halving of miss predictions, and
PWRMEAS. The energy an interval costs, and a power reading, are free values (log 7). -/
def Obligations.Clocks : Prop :=
  ∀ (p : Nat) (s : State), (s.part? p).isSome = true →
    let q := s.part p
    let cores := s.nodeCores p
    let exhausted := fun (u t : State) => (t.part p).erem = 1000 * q.ebudget ∧ ∀ c ∈ cores,
      (t.core c).csrGet cPRIO = BitVec.ofNat 64 (min 3 (((u.core c).csrGet cPRIO).toNat % 4 + 1)) ∧
      (t.core c).csrGet cENERGY = BitVec.ofNat 64 (1000 * q.ebudget)
    (if q.st = .running ∧ s.liveP p = true ∧ q.slice ≠ 0 ∧ q.sliceLeft = 0
      then ∃ t, exec (.sliceTimerExpiry p) s = .next t ∧ (t.part p).st = .draining ∧ t.mem = s.mem ∧
        ∀ c ∈ cores, (s.core c).task.isSome = true → (t.core c).sliceInt = true
      else exec (.sliceTimerExpiry p) s = .next s) ∧
    (if q.live = true ∧ q.ebudget ≠ 0 ∧ q.erem = 0
      then ∃ t, exec (.energyBudgetExhausted p) s = .next t ∧ exhausted s t ∧ t.mem = s.mem
      else exec (.energyBudgetExhausted p) s = .next s) ∧
    (let left := q.erem - Config.energyCost s.dev.freeIx
      if s.liveP p = false ∨ q.ebudget = 0 ∨ q.meter < 1000 then exec (.energyMeterUpdate p) s = .next s
      else ∃ t, exec (.energyMeterUpdate p) s = .next t ∧ (t.part p).meter = q.meter - 1000 ∧ t.mem = s.mem ∧
        (left ≠ 0 → (t.part p).erem = left ∧ ∀ c ∈ cores, (t.core c).csrGet cENERGY = BitVec.ofNat 64 left) ∧
        (left = 0 → exhausted s t)) ∧
    (let ten := q.ten.getD 0
      if s.liveP p = true ∧ s.wdLimit p ≠ 0 ∧ s.wdLimit p ≤ q.wd
      then ∃ t, exec (.watchdogExpiry p) s = .next t ∧ (t.vf ten).wdcount = (s.vf ten).wdcount + 1 ∧
        (t.vf ten).wdpnode = BitVec.ofNat 11 p ∧ (t.part p).wd = 0 ∧ (∃ m : Msg, (t.part p).mbq = q.mbq ++ [m]) ∧
        s.hasSignalled t 64 0
      else exec (.watchdogExpiry p) s = .next s) ∧
    (∀ n, SMap.rising 0 (s.cache n).mpc = true →
      if (s.cache n).halved < (s.cache n).sclk / 2 ^ 20
      then ∃ t, exec (.mpcHalving n) s = .next t ∧ (t.cache n).halved = (s.cache n).halved + 1 ∧
        ∀ k, SMap.get (fun _ => 0) (t.cache n).mpc k = min (SMap.get (fun _ => 0) (s.cache n).mpc k / 2) 0xFFFF
      else exec (.mpcHalving n) s = .next s) ∧
    (if s.dev.pwrAge < 1000000 then exec .pwrmeasRefresh s = .next s
      else exec .pwrmeasRefresh s = .next { s with dev := { s.dev with pwr := Config.pwrMeas s.dev.freeIx, pwrAge := 0, freeIx := s.dev.freeIx + 1 } })

/-! ### The host -/

/-- R344, R345, R367, R374: a command acts while it is in progress and the tenant is not paused; one on a partition that is not the
function's or not in a state it accepts ends with RESULT 2, one of the physical function's with RESULT 1 for a tenant. -/
def Obligations.CommandRules : Prop :=
  (∀ e ∈ partCommands, ∀ (fn p : Nat) (s : State),
    ((¬∃ p, s.commanded fn e.2.1 p) → exec (e.1 fn) s = .next s) ∧
    (s.commanded fn e.2.1 p → (s.owns fn p = false ∨ e.2.2 (s.part p).st = false) → exec (e.1 fn) s = .next (s.cmdDone fn 2))) ∧
  (∀ e ∈ ownerCommands, ∀ (fn p : Nat) (s : State),
    ((¬∃ p, s.commanded fn e.2 p) → exec (e.1 fn) s = .next s) ∧
    (s.commanded fn e.2 p → fn ≠ 64 → exec (e.1 fn) s = .next (s.cmdDone fn 1)))

/-- R24, R47, R119, R155, R345, R367, R395: the commands on a partition that the function owns, in a state that accepts them. Which shadow
entries SETRDCTL clears is the model's reading (log 24). -/
def Obligations.PartitionCommands : Prop :=
  ∀ (fn p : Nat) (s : State), s.owns fn p = true →
    let q := s.part p
    let v := s.vf fn
    let cores := s.nodeCores p
    let pick := s.pickCores p (v.arg1.toNat / 2 ^ 36 % 2 ^ 12)
    let go := fun (i : Instr) (r : BitVec 8) (f : State → Prop) => ∃ t, exec i s = .next t ∧ s.ended t fn r ∧ f t
    (s.commanded fn 0x02 p → q.st = .running →
      exec (.drain fn) s = .next ((s.setPart p fun q => { q with st := .draining, wd := 0 }).cmdDone fn 0)) ∧
    (∀ u, s.commanded fn 0x03 p → q.st = .saved →
      let w := (s.ran (M.each resumeCore cores)).setPart p
        fun q => { q with st := .running, sliceLeft := q.slice, wd := 0, held := [] }
      (∀ c ∈ cores, (w.core c).v = [] ∧ (w.core c).t = [] ∧ (w.core c).deque = (s.core c).deque ∧
        ∀ a, (Space.bstore c).loc 0 ≤ a → a < (Space.bstore c).loc (2 ^ 21) → w.byte a = 0) ∧
      ((M.each (placeHeld (s.tabOf (fnWho fn) p)) q.held).leads w u () → exec (.resume fn) s = .next (u.cmdDone fn 0))) ∧
    (s.commanded fn 0x04 p → q.st = .saved → go (.discard fn) 0 fun t => t.part p = q.unbound ∧ t.mem = s.mem ∧
      (∀ k, k ≠ p → t.part k = s.part k) ∧ ∀ k, t.ctx k = s.ctx k) ∧
    (s.commanded fn 0x08 p → q.st = .idle →
      let off := v.arg1.toNat % 2 ^ 18
      let len := v.arg1.toNat / 2 ^ 18 % 2 ^ 18
      (pick = none ∨ len = 0 ∨ 0x2F000 < off + len → exec (.loadlm fn) s = .next (s.cmdDone fn 6)) ∧
      (∀ cs bs u, pick = some cs → 0 < len → off + len ≤ 0x2F000 → bs.length = len →
        (gpaBytes (fnWho fn) fn (spansOf v.arg0.toNat len)).leads s u (some bs) →
        ∃ t, exec (.loadlm fn) s = .next t ∧ (t.vf fn).result = 0 ∧
          ∀ c ∈ cs, Memory.reads t.mem ((Space.lm c).loc off) len = bs.map (·.1))) ∧
    (s.commanded fn 0x09 p → q.st = .idle →
      let k := v.arg1.toNat % 2 ^ 4
      let n := if v.arg1.getLsbD 4 then cXSCRATCH else cXTVEC
      (pick = none ∨ 10 < k → exec (.loadcsr fn) s = .next (s.cmdDone fn 6)) ∧
      (∀ cs, pick = some cs → k ≤ 10 → go (.loadcsr fn) 0 fun t => t.mem = s.mem ∧
        ∀ c ∈ cs, (t.ctx (ctxId c k)).csrGet false n = csrMerge n ((s.ctx (ctxId c k)).csrGet false n) v.arg0)) ∧
    (s.commanded fn 0x0A p → q.st ≠ .unowned → exec (.setslice fn) s = .next ((s.setPart p fun q =>
      { q with slice := v.arg0.toNat, sliceLeft := if q.st = .running then v.arg0.toNat else q.sliceLeft }).cmdDone fn 0)) ∧
    (s.commanded fn 0x0B p → q.st ≠ .unowned → go (.setprio fn) 0 fun t => t.mem = s.mem ∧
      (∀ c ∈ cores, (t.core c).csrGet cPRIO = BitVec.ofNat 64 (v.arg0.toNat % 4)) ∧ ∀ c, c ∉ cores → t.core c = s.core c) ∧
    (s.commanded fn 0x0C p → q.st ≠ .unowned → go (.setrdctl fn) 0 fun t => t.mem = s.mem ∧
      (t.part p).rdctl = v.arg0.setWidth 3 ∧ (t.part p).raceLog = v.arg1 &&& 0xFFFFFFFFFE001 ∧ (t.part p).raceSeq = 0 ∧
      ∀ e, e ∈ t.shadow ↔ e ∈ s.shadow ∧ ¬∃ x ∈ s.shadow, x.1 = e.1 ∧ x.2.pnode = p) ∧
    (s.commanded fn 0x0D p → q.st = .running ∨ q.st = .draining →
      (pick = none → exec (.interrupt fn) s = .next (s.cmdDone fn 6)) ∧
      (∀ cs, pick = some cs → go (.interrupt fn) 0 fun t => t.mem = s.mem ∧
        ∀ c, (t.core c).hostInt = if c ∈ cs then true else (s.core c).hostInt))

/-- R23 to R26, R348: ASSIGN gives an UNOWNED partition with a present cluster to a tenant; SPLIT replaces a partition by its children,
MERGE two siblings in one state by their parent, else RESULT 5; RELEASE and RECLAIM clear every core of an IDLE partition and its event
units, and the partition is UNOWNED then. What children and parent keep, RESULT 5 for a SPLIT that would leave an owned node without a
present cluster, and RESULT 2 for a MERGE whose children the function does not both own are the model's choice (log 16), and so is that a
cleared core's scalar registers are zero (log 5). -/
def Obligations.TreeCommands : Prop :=
  ∀ (fn p : Nat) (s : State),
    let q := s.part p
    (s.commanded 64 0x20 p →
      exec (.assign 64) s = .next (if (s.part? p).isSome = true ∧ q.st = .unowned ∧ s.nodeClusters p ≠ []
        then (s.setPart p fun q => { q with st := .idle, ten := some ((s.vf 64).arg0.toNat % 64) }).cmdDone 64 0
        else s.cmdDone 64 2)) ∧
    (s.commanded fn 0x05 p → s.owns fn p = true → q.st = .idle ∨ q.st = .unowned →
      let lone := fun (k : Nat) => q.ten ≠ none ∧ s.nodeClusters k = []
      (1024 ≤ p ∨ lone (2 * p) ∨ lone (2 * p + 1) → exec (.split fn) s = .next (s.cmdDone fn 5)) ∧
      (0 < p → p < 1024 → ¬lone (2 * p) → ¬lone (2 * p + 1) →
        ∃ t, exec (.split fn) s = .next t ∧ s.ended t fn 0 ∧ t.part? p = none ∧
          let other := if s.nodeClusters (2 * p) = [] then 2 * p else 2 * p + 1
          let own := if s.nodeClusters (2 * p) = [] then 2 * p + 1 else 2 * p
          t.part? own = some q ∧ t.part? other = some { q with mailbox := [], mbq := [] } ∧ t.cores = s.cores ∧ t.mem = s.mem ∧
          (∀ e ∈ t.shadow, e.2.pnode ≠ p) ∧ ∀ k, k ≠ p → k ≠ 2 * p → k ≠ 2 * p + 1 → t.part? k = s.part? k)) ∧
    (∀ a b, 0 < p → s.commanded fn 0x06 p → s.part? (2 * p) = some a → s.part? (2 * p + 1) = some b →
      (s.owns fn (2 * p) = false ∨ s.owns fn (2 * p + 1) = false → exec (.merge fn) s = .next (s.cmdDone fn 2)) ∧
      (s.owns fn (2 * p) = true → s.owns fn (2 * p + 1) = true →
        (¬(a.st = b.st ∧ (a.st = .idle ∨ a.st = .unowned)) → exec (.merge fn) s = .next (s.cmdDone fn 5)) ∧
        (a.st = b.st → a.st = .idle ∨ a.st = .unowned →
          ∃ t, exec (.merge fn) s = .next t ∧ s.ended t fn 0 ∧ t.part? (2 * p) = none ∧ t.part? (2 * p + 1) = none ∧
            t.part? p = some (a.joined b) ∧
            t.cores = s.cores ∧ t.mem = s.mem ∧ (∀ e ∈ t.shadow, e.2.pnode ≠ 2 * p ∧ e.2.pnode ≠ 2 * p + 1) ∧
            ∀ k, k ≠ p → k ≠ 2 * p → k ≠ 2 * p + 1 → t.part? k = s.part? k))) ∧
    ((s.part? (2 * p) = none ∨ s.part? (2 * p + 1) = none) → s.commanded fn 0x06 p → exec (.merge fn) s = .next (s.cmdDone fn 5)) ∧
    (∀ i f, (i = Instr.release fn ∧ f = fn ∧ s.commanded fn 0x07 p ∧ s.owns fn p = true ∨
        i = Instr.reclaim 64 ∧ f = 64 ∧ s.commanded 64 0x21 p ∧ (s.part? p).isSome = true) → q.st = .idle →
      (s.vented (s.nodeCores p) = true → exec i s = .next s) ∧
      (s.vented (s.nodeCores p) = false → ∃ t, exec i s = .next t ∧ s.ended t f 0 ∧ t.part p = { Part.reset with intv := q.intv } ∧
        (∀ k ∈ s.nodeClusters p, (t.cluster k).bars = [] ∧ (t.cluster k).mutex = [] ∧ (t.cluster k).lines = 0) ∧
        (∀ c ∈ s.nodeCores p, t.core c = Core.reset ∧ ∀ k < 16, k < ctxCount c → t.ctx (ctxId c k) = Ctx.reset (ctxId c k)) ∧
        (∀ c ∈ s.nodeCores p, (∀ d, (s.core d).l1 = [] ∧ (s.core d).sect = []) →
          ∀ a, (Space.lm c).loc 0 ≤ a → a < (Space.lm c).loc 0x30000 → t.byte a = 0)))

/-- R138, R139: a launch whose descriptor, placement map, root record and table pass the checks of R367 performs the steps of R139 and
ends with RESULT 0; a descriptor that is misplaced, lacks a mapping, or breaks R138 ends it before. With every one of them mapped to HBM
and in order, the partition runs, its root record takes a slot and is queued, or held with NEXT. The registers of a launched core. -/
def Obligations.LaunchCommand : Prop :=
  (∀ (fn p d r : Nat) (es : List Nat) (bs : List PByte) (s s1 s2 s3 s4 u : State),
    s.commanded fn 0x01 p → s.owns fn p = true → (s.part p).st = .idle →
    let g := (s.vf fn).arg0.toNat
    let core := s.serviceOf p
    (g % 128 ≠ 0 → exec (.launch fn) s = .next (s.cmdDone fn 3)) ∧
    (g % 128 = 0 → (gpaBytes (fnWho fn) fn (spansOf g 128)).leads s s1 none → exec (.launch fn) s = .next (s1.cmdDone fn 7)) ∧
    (g % 128 = 0 → (gpaBytes (fnWho fn) fn (spansOf g 128)).leads s s1 (some bs) → (∀ b ∈ bs, b.2 = false) → leNat (bs.map (·.1)) = d →
      (launchOk fn p d = false → exec (.launch fn) s = .next (s1.cmdDone fn 3)) ∧
      (launchOk fn p d = true →
        (launchReads (fnWho fn) core fn (ldTROOT d) ((List.range 16).map fun k => (ldPMAP d + 16 * k, 16))).leads s1 s2 (.ok es) →
        (launchReads (fnWho fn) core fn (ldTROOT d) [(ldROOT d, 64)]).leads s2 s3 (.ok [r]) →
        (M.each (fun a => readyWalkFrom fn a 3 1 (ldTROOT d)) (pagesOf (ldFUTBASE d) (104 * 2 ^ ldFUTLOG d))).leads s3 s4 () →
        s4.launchTable fn (ldTROOT d) (ldFUTBASE d) (ldFUTLOG d) = none →
        (¬(s4.recordOk fn p r = true ∧ hIndex (rcWait r 0) = 0 ∧ hIndex (rcWait r 1) = 0) → exec (.launch fn) s = .next (s4.cmdDone fn 4)) ∧
        (s4.recordOk fn p r = true → hIndex (rcWait r 0) = 0 → hIndex (rcWait r 1) = 0 →
          (launchAll fn p d (es.map (BitVec.ofNat 128)) r).leads s4 u () → exec (.launch fn) s = .next (u.cmdDone fn 0))))) ∧
  (∀ (fn p d r : Nat) (loc : Nat → Nat) (s : State),
    s.commanded fn 0x01 p → s.owns fn p = true → (s.part p).st = .idle → s.LaunchReady fn p d r loc →
    ∃ t j, exec (.launch fn) s = .next t ∧ s.ended t fn 0 ∧ (t.part p).st = .running ∧ (t.part p).pool = [j] ∧
      (t.part p).erem = 1000 * ldEBUDGET d ∧ (t.part p).futlog = ldFUTLOG d ∧ (t.part p).armed = rcNext r ∧
      (if rcNext r then (t.part p).held = [j]
       else ∃ x ∈ (t.core (t.dequeOf p r)).deque, x.pnode = p ∧ x.slot = j ∧ x.data = BitVec.ofNat 64 (rcData r)) ∧
      ∀ c ∈ s.nodeCores p, (t.core c).csrGet cPRIO = BitVec.ofNat 64 (ldPRIO d) ∧ (t.core c).csrGet cSSNUM = 0 ∧
        (t.core c).rules = []) ∧
  (∀ (d : Nat) (pmap : List (BitVec 128)) (c : Core) (x : Ctx),
    let k := c.launched d pmap
    k.csrGet cPRIO = BitVec.ofNat 64 (ldPRIO d) ∧ k.csrGet cENERGY = BitVec.ofNat 64 (1000 * ldEBUDGET d) ∧ k.csrGet cSSNUM = 0 ∧
    k.csrGet cRWSTAT = 0 ∧ k.csrGet cRDEF = 8 ∧ k.csrGet cVSHARE = 4 ∧ k.csrGet cRWPERM = 0 ∧ k.csrGet cSTASHCFG = 0 ∧
    k.csrGet cRESBYPASS = 0x710 + (if ldRES d then 0x10000 else 0) ∧ k.rules = [] ∧ k.cq = [] ∧ k.pmap = pmap ∧ k.deque = c.deque ∧
    (∀ n ∈ [0x404, 0x405, 0x406, 0x407], x.launched.csrGet false n = ctxCsrReset false n) ∧ x.launched.recvq = [] ∧ x.launched.slot = none)

/-- R122, R350, R372, R373: PORTSET assigns a port number to a tenant or to nobody; VFPAUSE stops the tenant's contexts, once no
command of the tenant and no vector or tile instruction is under way, and holds its TIME; VFRESUME lets TIME go on from the saved value
or VFRES, whichever is later, and starts the watchdogs anew. -/
def Obligations.TenantCommands : Prop :=
  ∀ (p : Nat) (s : State),
    let a := (s.vf 64).arg0.toNat
    let t := a % 64
    let cores := s.coresOf t ++ s.ventsOf t
    (s.commanded 64 0x22 p → exec (.portset 64) s = .next ((s.setPort (a % 1024)
      { s.port (a % 1024) with ten := if a.testBit 16 then some (a / 2 ^ 17 % 64) else none }).cmdDone 64 0)) ∧
    (s.commanded 64 0x23 p →
      ((s.vf t).paused = true → exec (.vfpause 64) s = .next (s.cmdDone 64 0)) ∧
      ((s.vf t).paused = false → ((s.vf t).cmd ≠ none ∨ ∃ c ∈ cores, s.midway c = true) → exec (.vfpause 64) s = .next s) ∧
      ((s.vf t).paused = false → (s.vf t).cmd = none → (∀ c ∈ cores, s.midway c = false) →
        ∃ u, exec (.vfpause 64) s = .next u ∧ (u.vf 64).cmd = none ∧ (u.vf 64).result = 0 ∧ (u.vf t).paused = true ∧
          (u.vf t).save = s.time t ∧ u.time t = s.time t ∧ ∀ c ∈ s.coresOf t, isVent c = false → ∀ k < ctxCount c,
            (s.ctx (ctxId c k)).run = .ready → (u.ctx (ctxId c k)).run = .stopped ∧ (u.ctx (ctxId c k)).held = some .ready)) ∧
    (s.commanded 64 0x24 p → t < 64 → (s.vf t).paused = true → (s.vf t).aside = [] →
      ∃ u, exec (.vfresume 64) s = .next u ∧ (u.vf 64).cmd = none ∧ (u.vf 64).result = 0 ∧ (u.vf t).paused = false ∧
        u.time t = (if (s.vf t).res.toNat < (s.vf t).save.toNat then (s.vf t).save else (s.vf t).res) ∧
        ∀ k ∈ s.partsOf t, (u.part k).wd = 0)

/-- R344, R346 to R348, R354, R368, R89, R94, R98, R143, R340, R400: what a host write does to each register of a function and of the
physical function, when no earlier access of the function still waits, and that it waits behind one: CMD starts a command, is lost while one
is in progress or has arrived, and ends at once with RESULT 1 for a reserved OP. The mask bits of MSI-X as registers of the function, and
what clearing one sends, are the model's (log 46). -/
def Obligations.HostRegisters : Prop :=
  ∀ (fn : Nat) (v : Word) (s : State),
    let x := s.vf fn
    let w := fun (off : Nat) (y : Vf) => exec (.registerWrite fn (.bar0 (BitVec.ofNat 16 off)) v) s = .next (s.setVf fn y)
    (x.arrived ≠ [] →
      let waits := fun (reg : HostReg) (o : HostOp) =>
        exec (.registerWrite fn reg v) s = .next (s.setVf fn { x with arrived := x.arrived ++ [o] })
      let busy := x.cmd ≠ none ∨ ∃ w, HostOp.reg (.bar0 0) w ∈ x.arrived
      let reporting := x.att ≠ none ∨ ∃ w, HostOp.reg (.bar0 0x128) w ∈ x.arrived ∧ w.getLsbD 0 = true
      (∀ reg, reg ≠ .bar0 0 → reg ≠ .bar0 0x128 → waits reg (.reg reg v)) ∧
      (busy → waits (.bar0 0) (.late .cmd) ∧ (s.hostRead fn 0x018).getLsbD 0 = true) ∧ (¬busy → waits (.bar0 0) (.reg (.bar0 0) v)) ∧
      (reporting → v.getLsbD 0 = true → waits (.bar0 0x128) (.late .report)) ∧
      (¬reporting ∨ v.getLsbD 0 = false → waits (.bar0 0x128) (.reg (.bar0 0x128) v))) ∧
    (x.cmd ≠ none ∨ (∃ w, HostOp.reg (.bar0 0) w ∈ x.arrived) → (s.hostRead fn 0x018).getLsbD 0 = true) ∧
    (x.arrived = [] →
     (x.cmd ≠ none → w 0x000 { x with lost := true }) ∧
     (x.cmd = none → opOk fn (v.toNat % 256) = true → w 0x000 { x with cmd := some (v.setWidth 19) }) ∧
     (x.cmd = none → opOk fn (v.toNat % 256) = false → w 0x000 { x with result := 1 }) ∧
     w 0x008 { x with arg0 := v } ∧ w 0x010 { x with arg1 := v } ∧ (v.getLsbD 16 = true → w 0x018 { x with lost := false }) ∧
     w 0x028 { x with psel := v.setWidth 11 } ∧ w 0x038 { x with apsel := v.setWidth 14 } ∧
     (v.toNat % 2 ^ 32 ≠ 0 → w 0x048 { x with hndrop := 0 }) ∧ w 0x120 { x with attbuf := v &&& 0xFFFFFFFFF000 } ∧
     (∀ k, k < 4 → w (0x100 + 8 * k) { x with nonce := SMap.set (fun _ => 0) x.nonce k v }) ∧
     (v.getLsbD 0 = true → w 0x128 (if x.att = none
       then { x with att := some ((List.range 4).map fun j => SMap.get (fun _ => 0) x.nonce j) } else { x with attRes := 2 })) ∧
     (fn ≠ 64 → ∀ off : BitVec 16, 0x130 ≤ off.toNat → exec (.registerWrite fn (.bar0 off) v) s = .next s) ∧
     (fn ≠ 64 → ∀ reg : HostReg, (∀ off, reg ≠ .bar0 off) → (∀ k, reg ≠ .msixMask k) → reg ≠ .msixControl →
       exec (.registerWrite fn reg v) s = .next s) ∧
     (v.getLsbD 14 = true → exec (.registerWrite fn .msixControl v) s = .next (s.setVf fn { x with fmask := true })) ∧
     (v.getLsbD 14 = false → ∃ t, exec (.registerWrite fn .msixControl v) s = .next t ∧ t.mem = s.mem ∧ (t.vf fn).fmask = false ∧
       (∀ n, n ∈ (t.vf fn).pending ↔ n ∈ x.pending ∧ n ∉ x.unmasked) ∧
       t.dev.out = s.dev.out ++ (x.pending.filter fun n => x.unmasked.contains n && decide (n < x.msix)).map (.msix fn)) ∧
     (∀ k : BitVec 11, let n := k.toNat
       (x.msix ≤ n → exec (.registerWrite fn (.msixMask k) v) s = .next s) ∧
       (n < x.msix → ∃ t, exec (.registerWrite fn (.msixMask k) v) s = .next t ∧ t.mem = s.mem ∧
         (v.getLsbD 0 = true → t.dev.out = s.dev.out ∧ t.vf fn = { x with unmasked := nsErase x.unmasked n }) ∧
         (v.getLsbD 0 = false → (x.pending.contains n = false ∨ x.fmask = true) → t.dev.out = s.dev.out ∧
           t.vf fn = { x with unmasked := nsInsert n x.unmasked }) ∧
         (v.getLsbD 0 = false → x.fmask = false → x.pending.contains n = true → t.dev.out = s.dev.out ++ [.msix fn n] ∧
           t.vf fn = { x with unmasked := nsInsert n x.unmasked, pending := nsErase x.pending n })))) ∧
    ((s.vf 64).arrived = [] → let pf := fun (reg : HostReg) (t : State) => exec (.registerWrite 64 reg v) s = .next t
     (∀ t, t < 64 → pf (.bar0 (BitVec.ofNat 16 (0x1200 + 8 * t))) (s.setVf t { s.vf t with res := v })) ∧
     (∀ ca (t : BitVec 6), (s.cal ca).lost = false → pf (.cquota ca t)
       (s.setCal ca { s.cal ca with limit := SMap.set (fun _ => 0) (s.cal ca).limit t.toNat (v.toNat % 2 ^ 16) })) ∧
     (∀ n, n < 384 → pf (.slctl n) (s.setCache n ((s.cache n).setCtl (v &&& 0xFFFFFF0000FFFFFF)))) ∧
     (∀ d : BitVec 2, pf (.plcctl d) (s.setCache (384 + d.toNat) ((s.cache (384 + d.toNat)).setCtl (v &&& 0xFFFFFF0000FFFFFF)))) ∧
     (∀ f, f ≤ 64 → 1 ≤ v.toNat → v.toNat ≤ 2048 → pf (.msix f) (s.setVf f { s.vf f with
       msix := v.toNat, unmasked := (s.vf f).unmasked.filter (· < v.toNat), pending := (s.vf f).pending.filter (· < v.toNat) })) ∧
     (∀ ca (i : BitVec 12) (dw : BitVec 3), (s.cal ca).lost = false →
       let e := putDw (s.flowEntry ca i.toNat) dw.toNat v (flowMask dw.toNat)
       pf (.flow ca i dw) (s.setCal ca { s.cal ca with flow := SMap.set (fun _ => 0) (s.cal ca).flow i.toNat e })) ∧
     (∀ (t : BitVec 7) (g : BitVec 23), t.toNat ≤ 64 → SMap.find (s.vf t.toNat).s2 g.toNat = none → v.toNat < 24576 →
       s.blockPresent v.toNat = true →
       (∀ e ∈ s.vfs, ∀ m ∈ e.2.s2, m.2 ≠ v.toNat) → (∀ e ∈ s.dev.scrubs, e.of ≠ .block v.toNat) →
       pf (.stage2 t g) (s.setVf t.toNat { s.vf t.toNat with s2 := SMap.put (s.vf t.toNat).s2 g.toNat v.toNat })) ∧
     exec .s2faultClear s = .next { s with dev := { s.dev with s2fault := none } } ∧
     (fn < 64 → ∃ t, exec (.wdlimWrite fn v) s = .next t ∧ (t.vf fn) = { x with wdlim := v.setWidth 32 } ∧ t.mem = s.mem ∧
       ∀ p ∈ s.partsOf fn, (t.part p).wd = 0) ∧
     (∀ ca (i : BitVec 8), exec (.multicastEntryWrite ca i v) s = if (s.cal ca).lost then .next s
       else .next (s.setCal ca { s.cal ca with mc := SMap.set (fun _ => 0) (s.cal ca).mc i.toNat (v &&& 0x800000FFFFFFF000) }))) ∧
    (x.arrived = [] →
     exec (.cmdstatLostClear fn) s = .next (s.setVf fn { x with lost := false }) ∧
     exec (.hndropClear fn) s = .next (s.setVf fn { x with hndrop := 0 }) ∧
     exec (.attcmdGo fn) s = .next (s.setVf fn (if x.att = none
       then { x with att := some ((List.range 4).map fun j => SMap.get (fun _ => 0) x.nonce j) } else { x with attRes := 2 })))

/-- R140, R343, R346, R354, R366, R424: the aperture reads and writes the function's guest-physical space and, in its top 1 TiB, the
caldera window (log 22), in the order of the function's accesses; an unmapped line is recorded and answered with an Unsupported Request,
as is a caldera address that cannot be reached; a finished report is written and ends with RESULT 0, or 1 where its buffer is not mapped;
a post window takes a record of 64 bytes in place while it has room, discards others with a count, and the head of the window is accepted
or discarded. -/
def Obligations.HostMemory : Prop :=
  ∀ (fn : Nat) (s : State),
    let x := s.vf fn
    let base := x.apsel.toNat * 2 ^ 34
    (∀ (off : BitVec 34) (len : Nat) (bytes : List Byte),
      let a := base + off.toNat
      let read := exec (.hostApertureAccess fn (.read off len)) s
      let write := exec (.hostApertureAccess fn (.write off bytes)) s
      let waiting := fun (o : HostOp) => s.setVf fn { x with arrived := x.arrived ++ [o] }
      let gone := fun (t : State) => (t.vf fn).arrived = [] ∧ t.mem = s.mem
      (x.arrived ≠ [] → read = .next (waiting (.read off.toNat len)) ∧ write = .next (waiting (.write off.toNat bytes))) ∧
      (x.arrived = [] →
        (∀ g, s.apertureBad fn a len = some (some g) → ∃ t, read = .next t ∧ gone t ∧ (t.dev.s2fault = some (s.dev.s2fault.getD (fn, g))) ∧
          t.dev.out = (s.signalled 64 1).dev.out ++ [.unsupported fn]) ∧
        (s.apertureBad fn a len = some none → ∃ t, read = .next t ∧ gone t ∧ t.dev.out = s.dev.out ++ [.unsupported fn]) ∧
        (∀ g, s.apertureBad fn a bytes.length = some (some g) → ∃ t, write = .next t ∧ gone t ∧
          (t.dev.s2fault = some (s.dev.s2fault.getD (fn, g))) ∧ t.dev.out = (s.signalled 64 1).dev.out ++ [.unsupported fn]) ∧
        (s.apertureBad fn a bytes.length = some none → ∃ t, write = .next t ∧ gone t ∧ t.dev.out = s.dev.out ++ [.unsupported fn]) ∧
        (∀ bs u, s.apertureBad fn a len = none → (apertureReads fn (spansOf a len)).leads (waiting (.read off.toNat len)) u (some bs) →
          ∃ t, read = .next t ∧ t.mem = u.mem ∧ (t.vf fn).arrived = (u.vf fn).arrived.tail ∧
            t.dev.out = u.dev.out ++ [.readData fn (bs.map (·.1)) (bs.any (·.2))]) ∧
        (∀ u, s.apertureBad fn a bytes.length = none →
          (apertureWrites fn (spansOf a bytes.length) bytes).leads (waiting (.write off.toNat bytes)) u true →
          ∃ t, write = .next t ∧ t.mem = u.mem ∧ (t.vf fn).arrived = (u.vf fn).arrived.tail ∧ t.dev.out = u.dev.out) ∧
        (∀ phys, a / 2 ^ 40 ≠ 0xFF → s.stage2 fn a = some phys → s.holders (phys / 64) = [] →
          (0 < len → a % 64 + len ≤ 64 → ∃ t, read = .next t ∧ gone t ∧ t.dev.out = s.dev.out ++
            [.readData fn (s.bytesAt phys len) ((s.marked phys len).any (·.2))]) ∧
          (bytes ≠ [] → a % 64 + bytes.length ≤ 64 → ∃ t, write = .next t ∧ (t.vf fn).arrived = [] ∧
            t.mem = Memory.writes s.mem phys bytes)) ∧
        (∀ ca o, a / 2 ^ 40 = 0xFF → (s.cal ca).lost = false → s.caldera fn (a % 2 ^ 40) = .ok (.cal s.pres.pkg.toNat ca o, false) →
          bytes ≠ [] → a % 64 + bytes.length ≤ 64 → ∃ t, write = .next t ∧ (t.vf fn).arrived = [] ∧
            t.mem = Memory.writes s.mem ((Space.cal ca).loc o) bytes))) ∧
    ((x.att = none → exec (.attestationReportDone fn) s = .next s) ∧
     (∀ nonce, x.att = some nonce →
      let r := s.attReport fn nonce
      ((s.unmapped fn x.attbuf.toNat 32768).isSome = true → exec (.attestationReportDone fn) s =
        .next ((s.setVf fn { x with att := none, attRes := 1, attLen := 0 }).forgotFor (reportWho fn))) ∧
      (∀ u, s.unmapped fn x.attbuf.toNat 32768 = none →
        (gpaStore (reportWho fn) fn (spansOf x.attbuf.toNat r.length) r).leads s u () →
        exec (.attestationReportDone fn) s = .next
          ((u.setVf fn { u.vf fn with att := none, attRes := 0, attLen := BitVec.ofNat 16 r.length }).forgotFor (reportWho fn))))) ∧
    (∀ (off len : Nat) (rec : BitVec 512), x.arrived ≠ [] →
      let waits := fun (o : HostOp) => exec (.postWindowWrite fn off len rec) s = .next (s.setVf fn { x with arrived := x.arrived ++ [o] })
      if 64 ≤ x.pwin.length + x.arrived.countP HostOp.wholeRecord then waits (.late .record) else waits (.record off len rec)) ∧
    (∀ (off len : Nat) (rec : BitVec 512), x.arrived = [] →
      let write := exec (.postWindowWrite fn off len rec) s
      let ok := off % 64 = 0 ∧ len = 64 ∧ off < 4096 ∧ x.pwin.length < 64
      let p := rcPnode rec.toNat
      let u := s.setVf fn { x with pwin := [rec] }
      let good := fn < 64 ∧ u.owns fn p = true ∧ ((u.part p).st = .running ∨ (u.part p).st = .draining ∨ (u.part p).st = .saved) ∧
        u.recordOk fn p rec.toNat = true
      (¬ok → x.pwin = [] ∨ x.paused = true → write = .next (s.setVf fn { x with pwref := x.pwref + 1 })) ∧
      (ok → x.paused = true → write = .next (s.setVf fn { x with pwin := x.pwin ++ [rec] })) ∧
      (ok → x.paused = false → x.pwin = [] → ¬good →
        write = .next ((s.setVf fn { x with pwref := x.pwref + 1 }).forgotFor (windowWho fn))) ∧
      (∀ t, ok → x.paused = false → x.pwin = [] → good → u.poolFull p = false →
        (checkHandles (u.tabOf (windowWho fn) p) [rcWait rec.toNat 0, rcWait rec.toNat 1]).leads u u none →
        (acceptRec (u.tabOf (windowWho fn) p) rec.toNat).leads u t () →
        write = .next ((t.setVf fn { t.vf fn with pwin := (t.vf fn).pwin.tail }).forgotFor (windowWho fn))))

/-- R5, R95, R355, R391, R413, R417, R422, R423: a device reset, a thermal shutdown and the loss of the own CA0 leave the machine as after reset,
with the next incarnation, TIME 0, and in a group the same package number; the host's memory stands. A function-level reset ends the
tenant's tasks, gives its cores' CSRs and its clusters' event units their reset values and clears the function; a guest block that is
unmapped loses its translations, a `stv` that waits at it takes its cause, and its scrub begins. -/
def Obligations.Resets : Prop :=
  (∀ (pres : Presence) (s : State),
    let after := fun (t : State) (pr : Presence) (stopped : Bool) =>
      (t.ctxs, t.cores, t.clusters, t.parts, t.vfs) = ([], [], [], [(1, Part.reset)], []) ∧
      (t.ports, t.caches, t.cals, t.vers, t.shadow) = ([], [], [], [], []) ∧ t.pres = pr ∧ t.cycle = 0 ∧ t.ref = 0 ∧
      t.dev.incarn = s.dev.incarn + 1 ∧ (t.dev.roots, t.dev.tlb, t.dev.dir, t.dev.vops) = ([], [], [], []) ∧
      t.dev.out = s.dev.out ++ [.reset] ∧ t.dev.stopped = stopped ∧ ∀ a, t.byte a = if hostLoc a then s.byte a else 0
    (∃ t, exec (.deviceReset pres) s = .next t ∧ after t (if 1 < s.pres.group
      then { pres with pkg := s.pres.pkg, group := max pres.group (s.pres.pkg.toNat + 1) } else pres) false) ∧
    (∃ t, exec .thermalShutdown s = .next t ∧ after t s.pres true) ∧
    (∃ t, exec (.calderaDieLost s.pres.pkg.toNat false) s = .next t ∧ after t s.pres false)) ∧
  (∀ (t : Nat) (s : State),
    (64 ≤ t ∨ (s.vf t).cmd ≠ none ∨ (∃ w, HostOp.reg (.bar0 0) w ∈ (s.vf t).arrived) → exec (.functionLevelReset t) s = .next s) ∧
    (t < 64 → (s.vf t).cmd = none → (∀ w, HostOp.reg (.bar0 0) w ∉ (s.vf t).arrived) → ∃ u, exec (.functionLevelReset t) s = .next u ∧
      (u.vf t).paused = false ∧ (u.vf t).s2 = [] ∧ (u.vf t).pwin = [] ∧ (u.vf t).wdlim = (s.vf t).wdlim ∧ (u.vf t).pwref = (s.vf t).pwref ∧
      (∀ p ∈ s.partsOf t, (u.part p).st = .idle ∧ (u.part p).pool = [] ∧ (u.part p).mailbox = []) ∧
      (∀ c ∈ s.coresOf t, (u.core c).task = none ∧ (u.ctx (ctxId c 0)).run = .idle ∧ (u.ctx (ctxId c 0)).recvq = [] ∧
        (u.core c).csr = [] ∧ (u.core c).win = [] ∧ ∀ k < ctxCount c, (u.ctx (ctxId c k)).csr = []) ∧
      (∀ p ∈ s.partsOf t, ∀ k ∈ s.nodeClusters p, (u.cluster k).intv = 0 ∧ (u.cluster k).bars = [] ∧ (u.cluster k).mutex = []) ∧
      (∀ p, (s.port p).ten = some t → (u.port p).ld = none) ∧ (∀ o ∈ u.dev.vops, o.ten ≠ t) ∧
      (∀ p q, (s.port p).ld = some q → pSPNODE q.img ∈ s.partsOf t → pRPNODE q.img ∈ s.partsOf t → (u.port p).ld = none))) ∧
  (∀ (t g : Nat) (s : State),
    (SMap.find (s.vf t).s2 g = none → exec (.stage2Unmapping t g) s = .next s) ∧
    (∀ phys, SMap.find (s.vf t).s2 g = some phys → ∃ u, exec (.stage2Unmapping t g) s = .next u ∧ SMap.find (u.vf t).s2 g = none ∧
      u.dev.scrubs = s.dev.scrubs ++ [⟨s.dev.seq, .block phys⟩] ∧ (∀ e ∈ u.dev.tlb, e.inBlock t g = false) ∧ u.mem = s.mem ∧
      (∀ e ∈ u.dev.stvq, e.far = false → (ScrubOf.block phys).covers e.loc = true → e.res ≠ none) ∧
      ∀ line, phys * 2 ^ 25 ≤ line * 64 → line * 64 < (phys + 1) * 2 ^ 25 → u.holders line = []))

/-! ### Links -/

/-- R334, R336, R338, R409, R413: a port takes a packet only in service, with a good CRC and the SEQ expected; answers complete the requests
that carry their tag, acknowledgements tell the sender what has arrived; a bad CRC is counted, and a timeout sends the packets again. A
packet is served at once when no other comes before it (R152). The flags in ADDR and the key of an acknowledgement are the model's (log 12). -/
def Obligations.LinkAnswers : Prop :=
  ∀ (port : Nat) (p : Packet) (s : State),
    let l := s.link port
    let kinds : List ((Nat → Packet → Instr) × Nat) :=
      [(.lineReadRequest, 0x01), (.lineDataResponse, 0x02), (.lineWriteBack, 0x03), (.writeAcknowledgement, 0x04), (.probe, 0x05),
       (.probeResponse, 0x06), (.farAtomic, 0x07), (.atomicResponse, 0x08), (.calderaAccess, 0x09), (.calderaResponse, 0x0A),
       (.groupBarrier, 0x0B), (.translationInvalidation, 0x0C), (.translationInvalidationAck, 0x0D), (.scrubInvalidation, 0x0E)]
    (∀ e ∈ answerKinds, s.arrives port p e.2.1 → s.firstIn p →
      exec (e.1 port p) s = .next (((s.linkTook port p).answered p e.2.2).forgotFor (pktWho p))) ∧
    (s.arrives port p 0x0D → s.firstIn p →
      let t := (s.linkTook port p).answered p 0x0C
      exec (.translationInvalidationAck port p) s = .next (State.forgotFor
        { t with dev := { t.dev with acks := t.dev.acks.filter fun a => a.2 ≠ p.tag.toNat * 16 + p.spkg.toNat } } (pktWho p))) ∧
    (p.kind.toNat = 0 → l.inService = true → p.crc = packetCrc p →
      exec (.linkControl port p) s = .next ((s.setLink port (l.acked p)).ran (releaseHeld port))) ∧
    (∀ e ∈ kinds,
      (l.inService = false ∨ (p.kind.toNat = e.2 ∧ p.crc = packetCrc p ∧ p.seq ≠ l.seqIn) → exec (e.1 port p) s = .next s) ∧
      (l.inService = true → p.kind.toNat = e.2 → p.crc ≠ packetCrc p →
        exec (e.1 port p) s = .next (s.setLink port { l with crcerr := l.crcerr + 1 }))) ∧
    (exec (.badCrcPacket port) s = if l.inService then .next (s.setLink port { l with crcerr := l.crcerr + 1 }) else .next s) ∧
    (exec (.linkReplayTimeout port) s = if l.inService = true ∧ l.unacked ≠ []
      then .next (s.setLink port { l with replays := l.replays + 1, retry := l.retry + 1 }) else .next s) ∧
    (∀ q rest, l.unacked = q :: rest → p.ackv = true → 0 < (p.ack - q.seq).toNat → (p.ack - q.seq).toNat ≤ l.unacked.length →
      (l.acked p).unacked = l.unacked.drop (p.ack - q.seq).toNat ∧ (l.acked p).lastAck = p.ack ∧ (l.acked p).replays = 0)

/-- R80, R91, R95 to R97, R207, R231, R334, R340, R412, R415: what the agent of each request does: a line read makes the sender's PLC a
holder, unless it asks for the bytes alone, and sends the bytes; a write-back of a line that its PLC holds is taken; a far write is
performed at the home, a caldera write at the bank; a probe takes the line away; barrier packets count; invalidations drop translations, and
wait while one is in use; the release of a block or of granules drops its copies, shadow entries and translations, and is acknowledged. A
packet is served at once when no other comes before it (R152). The layouts of ADDR and of payloads are the model's (log 12). -/
def Obligations.LinkServices : Prop :=
  ∀ (port : Nat) (p : Packet) (s : State),
    let a := p.addr.toNat
    let ten := p.ten.toNat
    let from' := p.spkg.toNat
    let r := ROp.parse p.payload
    (∀ x, s.arrives port p 0x01 → s.firstIn p → s.noneHeld p → s.stage2 ten (a / 64 * 64) = some x → s.holders (x / 64) = [] →
      let h := peerPlc from' (a / 4 % 4)
      ∃ t, exec (.lineReadRequest port p) s = .next t ∧ t.mem = s.mem ∧
        t.holders (x / 64) = (if a.testBit 1 then [] else [(h, if a % 2 = 1 then .m else .e)]) ∧
        ∀ j, (s.linkTook port p).portsTo (decide (18 ≤ port)) from' = [j] → ((s.linkTook port p).link j).barred = false →
          ∃ q ∈ (t.link j).unacked, q.kind.toNat = 2 ∧ q.tag = p.tag ∧ q.dpkg = p.spkg ∧ q.payload = s.bytesAt (x / 64 * 64) 64 ∧
            q.dend.toNat = 0x200 + a / 4 % 4 ∧ q.addr.toNat % 4 = (if a % 4 = 0 then 2 else 0) ∧
            q.poison = s.poisoned (x / 64 * 64) 64) ∧
    (∀ x st, s.arrives port p 0x03 → s.firstIn p → s.noneHeld p → p.poison = false → s.stage2 ten (a / 64 * 64) = some x →
      let h := peerPlc from' (a / 4 % 4)
      s.stateIn (x / 64) h = some st → st = .m ∨ st = .e →
      ∃ t, exec (.lineWriteBack port p) s = .next t ∧ t.mem = Memory.writes s.mem (x / 64 * 64) (p.payload.take 64) ∧
        t.stateIn (x / 64) h = (if a.testBit 0 then some .e else none)) ∧
    (s.arrives port p 0x05 → s.firstIn p → s.noneHeld p → a % 4 ≠ 0 → ∃ t, exec (.probe port p) s = .next t ∧
      t.stateIn ((Space.plc from' ten).loc (a / 64 * 64) / 64) (s.plcHolder (p.dend.toNat % 4)) = none) ∧
    (∀ x, s.arrives port p 0x07 → s.firstIn p → s.noneHeld p → s.stage2 ten a = some x → s.holders (x / 64) = [] →
      (r.op = roWrite → ∃ t, exec (.farAtomic port p) s = .next t ∧
        t.mem = Memory.writes s.mem x ((leBytes 8 r.a.toNat ++ leBytes 8 r.b.toNat).take r.len)) ∧
      (∀ v fl, r.op = roAmo → s.poisoned x (widthBytes r.w) = false →
        amoNew r.sub r.w (RMode.of (BitVec.ofNat 2 r.len)) (s.peek x (widthBytes r.w)) r.a.toNat r.b.toNat = (some v, fl) →
        ∃ t, exec (.farAtomic port p) s = .next t ∧ t.mem = Memory.writes s.mem x (leBytes (widthBytes r.w) v))) ∧
    (∀ tgt, s.arrives port p 0x09 → s.firstIn p → s.noneHeld p → r.op = roWrite → r.sub = 0 → r.ver = false → (s.cal (calCa a)).lost = false → s.caldera ten a = .ok (tgt, false) →
      ∃ t, exec (.calderaAccess port p) s = .next t ∧
        t.mem = Memory.writes s.mem ((Space.cal (calCa a)).loc (calOff a)) (r.data.take r.len)) ∧
    (s.arrives port p 0x0B → s.firstIn p → from' < 16 →
      let n := a % 2 ^ 11
      let b := a / 2 ^ 11 % 4
      s.gbarOf n b s.pres.pkg.toNat = 0 → ∃ t, exec (.groupBarrier port p) s = .next t ∧ t.mem = s.mem ∧
        t.gbarOf n b from' = if a / 2 ^ 13 = 0 then max 1 (s.gbarOf n b from') + 1
          else if a / 2 ^ 13 = 1 then max 1 (s.gbarOf n b from') else 0) ∧
    (s.arrives port p 0x0C →
      let n := a / 2 ^ 40 % 2 ^ 11
      let all := a.testBit 55
      let va := a % 2 ^ 40 * 2 ^ 19
      let busy := s.inUse ten n fun x l => all || samePage l x va
      (busy = true → exec (.translationInvalidation port p) s =
        .next { s.linkTook port p with dev := { (s.linkTook port p).dev with inq := s.dev.inq ++ [p] } }) ∧
      (busy = false → s.firstIn p → ∃ t, exec (.translationInvalidation port p) s = .next t ∧ t.mem = s.mem ∧
        t.dev.tlb = s.dev.tlb.filter fun e => !(e.ten == ten && e.pnode == n && (all || e.inPage va)))) ∧
    (s.arrives port p 0x0E → s.firstIn p →
      let u := s.linkTook port p
      let acked := fun (t : State) => ∀ j, u.portsTo false from' = [j] → (u.link j).barred = false →
        ∃ q ∈ (t.link j).unacked, q.kind.toNat = 0x0D ∧ q.tag = p.tag ∧ q.dpkg = p.spkg
      (a.testBit 55 = false → (∀ r ∈ s.dev.reqs, r.keepsLine = true → r.pkt.dpkg = p.spkg → r.ans ≠ none ∨ r.lost = true) →
        let lo := (Space.plc from' ten).loc (a / 2 ^ 25 * 2 ^ 25)
        ∃ t, exec (.scrubInvalidation port p) s = .next t ∧ acked t ∧ (∀ b, b < lo ∨ lo + 2 ^ 25 ≤ b → t.byte b = s.byte b) ∧
          (∀ line, lo ≤ line * 64 → line * 64 < lo + 2 ^ 25 → t.holders line = []) ∧
          ∀ k, lo ≤ k * 32 → k * 32 < lo + 2 ^ 25 → SMap.find t.shadow k = none) ∧
      (a.testBit 55 = true →
        let lo := a % 2 ^ 40 / 2 ^ 16 * 2 ^ 16
        let hi := lo + (a % 2 ^ 16 + 1) * 2 ^ 16
        ∃ t, exec (.scrubInvalidation port p) s = .next t ∧ acked t ∧
          ∀ e ∈ t.dev.tlb, ¬(lfAPT e.leaf = 2 ∧ lfFRAME e.leaf * 2 ^ 19 < hi ∧ lo < lfFRAME e.leaf * 2 ^ 19 + 2 ^ lfLog e.leaf))) ∧
    (∀ ca,
      let e := (SMap.get (fun _ => (0 : Word)) (s.cal ca).mc (a % 256)).toNat
      let ok := (s.cal ca).lost = false ∧ p.dend = 0xFFF ∧ e.testBit 63 = true
      let copy := { p with dend := BitVec.ofNat 12 (e / 2 ^ 12 % 2 ^ 12), dpkg := s.pres.pkg, spkg := s.pres.pkg, sinc := s.dev.incarn }
      (¬ok → exec (.multicastReplication ca p) s = .next s) ∧
      (ok → ∃ t, exec (.multicastReplication ca p) s = .next t ∧ t.mem = s.mem ∧
        t.dev.inq = if e.testBit (24 + s.pres.pkg.toNat) then s.dev.inq ++ [copy] else s.dev.inq))

/-- R338, R410 to R413, R417, R418: training brings a port that serves the peer into service and the peer back, unless it has left for good;
a port replayed 16 times without progress goes out of service with its packets moved; a peer that no port reaches, or whose CA0 is lost, is
lost: its requests complete as lost; a lost CA1 of this package holds zeros, one of a peer completes the caldera accesses to it as lost. -/
def Obligations.LinkLoss : Prop :=
  ∀ (port peer : Nat) (incarn : BitVec 12) (s : State),
    let l := s.link port
    let lostNow := fun (t : State) => (t.peer peer).lost = true ∧ t.mem = s.mem ∧
      ∀ r ∈ t.dev.reqs, r.pkt.dpkg.toNat = peer → r.ans ≠ none ∨ r.lost = true
    (let ok := s.pres.lkpres.getLsbD port = true ∧ portServes s.pres port peer = true ∧ l.down = false ∧ (s.peer peer).gone = false ∧
       ¬(18 ≤ port ∧ (s.cal true).lost = true)
     (¬ok → exec (.linkTrainingComplete port peer incarn) s = .next s) ∧
     (ok → ∃ t, exec (.linkTrainingComplete port peer incarn) s = .next t ∧ t.mem = s.mem ∧
       t.link port = { Jalic.reset with peer := some peer, up := true, retry := l.retry, crcerr := l.crcerr } ∧
       (t.peer peer).incarn = some incarn ∧ (t.peer peer).lost = false)) ∧
    (let ok := l.inService = true ∧ 16 ≤ l.replays
     (¬ok → exec (.linkPortDown port) s = .next s) ∧
     (ok → ∃ t, exec (.linkPortDown port) s = .next t ∧ t.mem = s.mem ∧ (t.link port).down = true ∧ (t.link port).unacked = [] ∧
       s.hasSignalled t 64 3)) ∧
    (let ok := s.peers.contains peer = true ∧ (s.peer peer).incarn ≠ none ∧ (s.peer peer).lost = false ∧ s.unreachable peer = true
     (¬ok → exec (.peerLost peer) s = .next s) ∧ (ok → ∃ t, exec (.peerLost peer) s = .next t ∧ lostNow t)) ∧
    (peer ≠ s.pres.pkg.toNat → s.peers.contains peer = true →
      ((s.peer peer).lost = false → ∃ t, exec (.calderaDieLost peer false) s = .next t ∧ lostNow t) ∧
      ((s.peer peer).ca1 = false → ∃ t, exec (.calderaDieLost peer true) s = .next t ∧ (t.peer peer).ca1 = true ∧ t.mem = s.mem ∧
        ∀ r ∈ t.dev.reqs, r.pkt.dpkg.toNat = peer → r.pkt.kind.toNat = 9 → calCa r.pkt.addr.toNat = true → r.ans ≠ none ∨ r.lost = true)) ∧
    ((s.cal true).lost = false → ∃ t, exec (.calderaDieLost s.pres.pkg.toNat true) s = .next t ∧ t.cal true = { Cal.reset with lost := true } ∧
      ∀ x, t.byte x = if (Space.cal true).loc 0 ≤ x ∧ x < (Space.cal true).loc (2 ^ 31) then 0 else s.byte x)

/-- R80, R142 to R144, R351, R384, R385, R399, R400, R408: patrol reads count what they find; an uncorrectable unit of HBM whose home copy
is the valid one is poisoned, and so is the word of a dirty line of an L2 slice and of a modified line of a PLC that hold the only valid
copy, while a clean line is dropped and what a newer copy will replace stays; a recall takes a line from an own holder; an intake frame with
a bad FCS, one that matches no flow entry, and one longer than its buffers are discarded and counted; one for which there is a buffer and a
pool slot is taken in, and its record held, or queued. -/
def Obligations.PatrolRecallIntake : Prop :=
  (∀ (loc : Nat) (s : State),
    (∀ found, (∀ u, patrolled loc = some u → s.upsetDie u = none) → exec (.patrolScrub loc found) s = .next s) ∧
    (∀ u die, patrolled loc = some u → s.upsetDie u = some die →
      exec (.patrolScrub loc .good) s = .next s ∧
      exec (.patrolScrub loc .corrected) s = .next { s with dev := { s.dev with ce := bump s.dev.ce die } } ∧
      (∃ t, exec (.patrolScrub loc .uncorrectable) s = .next t ∧ t.dev.ue = bump s.dev.ue die ∧ s.hasSignalled t 64 2 ∧
        (loc < 2 ^ 60 → (∀ e ∈ s.holders (loc / 64), e.2 ≠ .m) →
          (∀ e ∈ (s.cache (s.channel loc)).lines, e.2.tag = loc / 64 → e.2.dirty = false) → t.mem = s.mem ∧
          ∀ w, w ∈ t.pois ↔ w ∈ s.pois ∨ w ∈ [loc / 32 * 32, loc / 32 * 32 + 8, loc / 32 * 32 + 16, loc / 32 * 32 + 24]) ∧
        (∀ n k w l, u = .l2 n k w → SMap.find (s.cache n).lines k = some l → t.mem = s.mem ∧
          (l.dirty = false → SMap.find (t.cache n).lines k = none ∧ t.pois = s.pois) ∧
          (l.dirty = true → s.modified l.tag = true → t.pois = s.pois) ∧
          (l.dirty = true → s.modified l.tag = false → ∀ x, x ∈ t.pois ↔ x ∈ s.pois ∨ x = l.tag * 64 + 8 * w)) ∧
        (∀ d a, u = .plc d a → s.stateIn (a / 64) (s.plcHolder d) = some .m → s.coreModified (a / 64) = false → t.mem = s.mem ∧
          ∀ x, x ∈ t.pois ↔ x ∈ s.pois ∨ x = a / 8 * 8)))) ∧
  (∀ (line holder : Nat) (s : State),
    (s.stateIn line holder = none → exec (.directoryRecall line holder) s = .next s) ∧
    (∀ st, s.stateIn line holder = some st → (st = .s ∨ st = .e ∨ st = .m) → s.isOwn holder = true → s.isOwnPlc holder = false →
      ∃ t, exec (.directoryRecall line holder) s = .next t ∧ t.stateIn line holder = none ∧ t.mem = s.mem ∧
        ∀ k, k ≠ line → t.holders k = s.holders k)) ∧
  (∀ (ca : Bool) (f : List Byte) (s : State),
    let c := s.cal ca
    let counts := fun (t : State) (i put drop : Nat) => (t.cal ca).frames = [] ∧
      (t.cal ca).flow = SMap.set (fun _ => 0) c.flow i (BitVec.ofNat 512 ((s.flowEntry ca i).toNat / 2 ^ 64 * 2 ^ 64 +
        drop % 2 ^ 32 * 2 ^ 32 + put % 2 ^ 32))
    (c.lost = true → ∀ good, exec (.intakeFrame ca good f) s = .next s) ∧
    (c.lost = false →
      exec (.intakeFrame ca false f) s = .next (s.setCal ca { c with fcs := c.fcs + 1 }) ∧
      (c.frames = [] → s.flowFor ca (parseFrame f) = none → ∃ t, exec (.intakeFrame ca true f) s = .next t ∧
        t.cal ca = { c with unmatched := c.unmatched + 1 } ∧ t.mem = s.mem) ∧
      (∀ i e, c.frames = [] → s.flowFor ca (parseFrame f) = some (i, e) → 2 ^ (flBUFLOG e + 6) < f.length →
        ∃ t, exec (.intakeFrame ca true f) s = .next t ∧ t.mem = s.mem ∧ counts t i (flPUT e) (flDROP e + 1)) ∧
      (∀ i e loc slot, s.FrameReady ca i e f loc slot →
        let p := flPNODE e
        let r := flowRecord i e (State.frameAt e) f.length
        ∃ t j, exec (.intakeFrame ca true f) s = .next t ∧ counts t i (flPUT e + 1) (flDROP e) ∧
          (t.part p).pool = nsInsert j (s.part p).pool ∧
          (if rcNext r = true ∨ (s.part p).st = .saved then (t.part p).held = (s.part p).held ++ [j]
           else ∃ core x, (rcVent r = false → core = s.dequeOf p r) ∧ x ∈ (t.core core).deque ∧ x.pnode = p ∧ x.slot = j ∧
             x.data = BitVec.ofNat 64 (State.frameAt e)))))

/-! ### The step -/

/-- R93, R163, R361, R429, R441: what a fetch finds and where it fails: a word that is no instruction takes ILLEGAL_INSN with the word
as XVAL; a misaligned pc takes MISALIGNED and one outside the global window ILLEGAL_OPERAND; otherwise the word is the four bytes at
the translated pc. -/
def Obligations.FetchRules : Prop :=
  ∀ (s : State), s.noTiles →
    let pc := s.me.pc
    (∀ w, exec (.reservedEncoding w) s = .next (s.took { code := 0x01, val := w.setWidth 64 })) ∧
    (pc.toNat % 4 ≠ 0 → exec .fetchFault s = .next (s.took { code := 0x04, val := pc })) ∧
    (pc.toNat % 4 = 0 → 2 ^ 52 ≤ pc.toNat → exec .fetchFault s = .next (s.took { code := 0x02, val := pc })) ∧
    (∀ l x, pc.toNat % 4 = 0 → pc.toNat < 2 ^ 52 → inCaldera pc.toNat = false → (xlate .fetch pc).leads s s l →
      s.route s.myTen l pc.toNat = .ok (.hbm x, false) → (∀ k ∈ linesOf x 4, s.holders k = []) → s.poisoned x 4 = false →
      s.fetched.dev.word = some (BitVec.ofNat 32 (s.peek x 4)) ∧ s.fetched.mem = s.mem ∧ s.fetched.me = s.me)

/-- R36, R163: a step in which a READY context has the turn, with no cause and no interrupt in front of its instruction, runs exactly
the instruction that the word fetched at its pc decodes to. That the head of the agenda has the turn, and that one cycle passes then, are the
model's choice (logs 2 and 4). -/
def Obligations.StepRuns : Prop :=
  ∀ (id : Nat) (rest : List Turn) (w : IWord) (i : Instr) (s : State),
    s.dev.stopped = false → s.wake = none → s.dev.agenda = .issue id :: rest → s.hasCtx id = true → (s.ctx id).run = .ready →
    let b := State.begin { s with dev := { s.dev with agenda := rest } } id
    let c := b.core (coreOf id)
    (b.ctx id).due = none → (ctxOf id = 0 → b.irqReady (coreOf id) = false) →
    (ctxOf id = 0 → c.dwell < 16 ∨ ∀ e ∈ c.win, e.st ≠ .held) → (ctxOf id = 0 → ∀ e ∈ c.win, e.replay = none) →
    b.fetched.dev.word = some w → decode w = .ok i →
    step s = match exec i { b.fetched with dev := { b.fetched.dev with ins := some i, word := none } } with
      | .next t => .next t.after
      | .fault e => .fault e
      | .refused e => .refused e

/-- R163 to R187, R429: words written out from the encodings decode to the instructions they stand for, and reserved words are refused.
-/
def Obligations.DecodeWords : Prop :=
  decode 0b00001100111100000110001100000011#32 = .ok (.addi 6 6 0x678) ∧
  decode 0b11111101010100000010100100000110#32 = .ok (.blt false 5 (.con 16) 0x1FA) ∧
  decode 0b00000010000001001010001010001001#32 = .ok (.lw 5 10 2 0) ∧
  decode 0b00011001100000100011000010001011#32 = .ok (.stv .die 1 3 (.con 1)) ∧
  decode 0b00100001000010000011000000001101#32 = .ok (.redMin true false 3 4) ∧
  decode 0b00000001110000101010011000010100#32 = .ok (.pput 12 10 (.con 33)) ∧
  decode 0b01001000000001000001001000100011#32 = .ok (.vcmp .lt false 4 1 (.vec 2)) ∧
  decode 0b00010000010000001001001000110000#32 = .ok (.tmma 1 4 9) ∧
  decode 0b01000000000000001100010110111000#32 = .ok (.ventWait 11 12) ∧
  (∃ e, decode 0#32 = .error e) ∧ (∃ e, decode 0xFFFFFFFF#32 = .error e)

/-- R164 to R187: every well-formed instruction that has a word is what the word decodes to: no bit of an encoding is dropped. -/
def Obligations.DecodeEncode : Prop :=
  ∀ (i : Instr) (w : IWord), i.wellFormed = true → encode i = some w → decode w = .ok i

/-- What an instruction leaves unchanged: the register operations write rd alone and no byte of memory; branches write no register; a
load from a local memory writes at most rd and no byte; a store to a local memory changes exactly the bytes it stores to, and no
register. -/
def Obligations.Frames : Prop :=
  ∀ (rd rs1 : XReg) (o : S2) (s : State), s.me.pend = [] → s.readable rs1 →
    let goes := fun (i : Instr) (f : State → Prop) => ∃ t, exec i s = .next t ∧ f t
    let memory := fun (t : State) => (∀ a, t.byte a = s.byte a) ∧ t.pois = s.pois
    (s.s2Readable o →
      (∀ e ∈ opTable ++ divTable, goes (e.1 rd rs1 o) fun t => s.framed t rd false ∧ memory t) ∧
      (∀ e ∈ wordTable, goes (e.1 rd rs1 o) fun t => s.framed t rd false ∧ memory t) ∧
      (∀ e ∈ branchTable, ∀ annul off, goes (e.1 annul rs1 o off) fun t => s.framed t 0 false ∧ memory t)) ∧
    (∀ e ∈ bitTable, goes (e.1 rd rs1) fun t => s.framed t rd false ∧ memory t) ∧
    (∀ e ∈ immTable, ∀ imm, goes (e.1 rd rs1 imm) fun t => s.framed t rd false ∧ memory t) ∧
    (∀ e ∈ shiftTable, ∀ sh, goes (e.1 rd rs1 sh) fun t => s.framed t rd false ∧ memory t) ∧
    (∀ imm, goes (.jal rd imm) fun t => s.framed t rd false ∧ memory t) ∧
    (∀ imm, goes (.jalr rd rs1 imm) fun t => s.framed t rd false ∧ memory t) ∧
    (∀ (off : BitVec 8) (nu : BitVec 4) (core a : Nat),
      (∀ e ∈ loadTable, s.localAt .load (eaOf (s.x rs1) off e.2.1) e.2.1 core a → s.poisoned ((Space.lm core).loc a) e.2.1 = false →
        goes (e.1 rd rs1 off nu) fun t => s.framed t rd true ∧ memory t) ∧
      (∀ e ∈ storeTable, s.readable rd → s.localAt .store (eaOf (s.x rs1) off e.2) e.2 core a →
        goes (e.1 rd rs1 off nu) fun t => s.framed t 0 true ∧
          let loc := (Space.lm core).loc a
          (∀ b, b < loc ∨ loc + e.2 ≤ b → t.byte b = s.byte b) ∧ t.peek loc e.2 = (s.x rd).toNat % 2 ^ (8 * e.2)))

/-- R5, R24, R37, R74, R89, R162, R347: what the machine holds right after reset, of what the spec states; the canonical form holds.
Registers without a stated value, and memory, read as the model chooses (logs 1 and 5). -/
def Obligations.ResetState : Prop :=
  Inv State.reset ∧
  (let s := State.reset
   s.parts = [(1, Part.reset)] ∧ (s.part 1).st = .unowned ∧ (s.part 1).ten = none ∧
   (∀ id, (s.ctx id).run = if ctxOf id = 0 then .idle else .free) ∧ (∀ c, (s.core c).task = none ∧ (s.core c).rules = []) ∧
   (∀ id, (s.ctx id).csrGet false cFFLAGS = 0 ∧ (s.ctx id).csrGet false cFRM = 0 ∧ (s.ctx id).csrGet false cXTVEC = 0) ∧
   (∀ c, (s.core c).csrGet cRDEF = 8 ∧ (s.core c).csrGet cVSHARE = 4 ∧ (s.core c).csrGet cRESBYPASS = 0x710) ∧
   (∀ n, n < 384 → (s.cache n).ctl = 0x04002A0000008000) ∧ (∀ t, (s.vf t).msix = 1 ∧ (s.vf t).cmd = none ∧ (s.vf t).wdlim = 0) ∧
   (∀ p, (s.port p).ten = none) ∧ (∀ ca, (s.cal ca).gran = []) ∧ s.dev.agenda = [])

/-- R2, R22, R23, R96, R386: every step keeps the invariant: memory in its canonical form, poison marks on aligned words listed once,
at most four live versions of a word, newest first and none above HIGH, and every cluster in exactly one partition of the tree. -/
def Obligations.StepKeepsInv : Prop :=
  ∀ (s t : State), Inv s → step s = .next t → Inv t
end

