-- ==== Sys2Proof/Laws/Leads.lean ====
section
/-!
SUPPORT. Laws of parts of meanings that run through (`M.leads`): a sequence, a list of parts, and the accesses of an engine to a
future table in HBM that no cache holds.
-/

namespace Sys2Proof.Machine

theorem M.leads_pure {α : Type} (a : α) (s : State) : (pure a : M α).leads s s a := fun _ _ => rfl

theorem M.leads_bind {α β : Type} {m : M α} {f : α → M β} {s t u : State} {a : α} {b : β} (h : m.leads s t a) (k : (f a).leads t u b) :
    (m >>= f).leads s u b := fun s0 c => (h s0 _).trans (k s0 c)

theorem M.leads_get (s : State) : M.get.leads s s s := fun _ _ => rfl

theorem M.leads_upd (u : Upd) (s : State) : (M.upd u).leads s (u.apply s) () := fun _ _ => rfl

theorem M.leads_each {α : Type} {f : α → M Unit} {s : State} : ∀ l : List α, (∀ x ∈ l, (f x).leads s s ()) → (M.each f l).leads s s ()
  | [], _ => fun _ _ => rfl
  | x :: l, h => M.leads_bind (h x (List.mem_cons_self ..)) (M.leads_each l fun y hy => h y (List.mem_cons_of_mem _ hy))

theorem homeRead_none (who : Who) (line : Nat) (me : Option Nat) {s : State} (h : s.holders line = []) :
    (homeRead who line me).leads s s () := by
  have u : s.hasU line = false := by unfold State.hasU; rw [h]; rfl
  refine M.leads_bind (M.leads_get s) ?_
  rw [u]
  refine M.leads_bind (M.leads_get s) ?_
  rw [h]
  exact fun _ _ => rfl

theorem homeWrite_none (who : Who) (line : Nat) (me : Option Nat) {s : State} (h : s.holders line = []) :
    (homeWrite who line me).leads s s () := by
  have u : s.hasU line = false := by unfold State.hasU; rw [h]; rfl
  refine M.leads_bind (M.leads_get s) ?_
  rw [u]
  refine M.leads_bind (M.leads_get s) ?_
  rw [h]
  exact fun _ _ => rfl

/-- A walk over lines that no cache holds collects nothing. -/
theorem readyWalkFrom_none {t va : Nat} {s : State} (h : ∀ k, s.holders k = []) :
    ∀ fuel level table, (readyWalkFrom t va fuel level table).leads s s ()
  | 0, _, _ => M.leads_pure () s
  | fuel + 1, level, table => by
    unfold readyWalkFrom
    refine M.leads_bind (M.leads_get s) ?_
    split
    · exact M.leads_pure () s
    · rename_i a _
      have u : s.hasU (Space.hbm.loc a / 64) = false := by unfold State.hasU; rw [h]; rfl
      simp only [u, Bool.false_eq_true, if_false]
      refine M.leads_bind (M.leads_get s) ?_
      split
      · exact readyWalkFrom_none h fuel _ _
      · exact M.leads_pure () s

theorem readyWalk_none {core t p va : Nat} {k : AKind} {user : Bool} {s : State} (h : ∀ k, s.holders k = []) :
    (readyWalk core t p va k user).leads s s () := by
  unfold readyWalk
  refine M.leads_bind (M.leads_get s) ?_
  dsimp only
  split
  · exact readyWalkFrom_none h _ _ _
  · exact M.leads_pure () s

theorem keepLeaf_leads (core t p va : Nat) (l : Word) (s : State) :
    (keepLeaf core t p va l).leads s (s.ran (keepLeaf core t p va l)) () := by
  unfold keepLeaf
  intro s0 k
  show P.run s0 ((if _ then _ else _ : M Unit) k) s = P.run s0 (k ()) (P.run s ((if _ then _ else _ : M Unit) _) s)
  split <;> rfl

/-- What an engine's access goes to: the leaf that serves it, kept at its interface, and the route of that leaf. -/
theorem engineTgt_at {core t p va : Nat} {k : AKind} {l : Word} {r : Tgt × Bool} {s : State} (h1 : va < 2 ^ 52) (h2 : inCaldera va = false)
    (h3 : s.stage1 core t p va k false = .ok l) (h4 : s.route t l va = .ok r) (hw : (readyWalk core t p va k false).leads s s ()) :
    (engineTgt core t p va k).leads s (s.ran (keepLeaf core t p va l)) (.ok r) := by
  refine M.leads_bind (M.leads_get s) ?_
  rw [if_neg (by omega), h2]
  simp only [Bool.false_eq_true, if_false]
  refine M.leads_bind hw (M.leads_bind (M.leads_get s) ?_)
  simp only [h3]
  refine M.leads_bind (keepLeaf_leads _ _ _ _ _ _) ?_
  simp only [h4]
  exact M.leads_pure _ _

/-- A word of a future table in HBM: its page is writable for the supervisor and lies in this package. -/
theorem tabLoc_at {tb : Tab} {va loc : Nat} {l : Word} {s : State} (h1 : va < 2 ^ 52) (h2 : inCaldera va = false)
    (h3 : s.stage1 tb.core tb.t tb.p va .store false = .ok l) (h4 : s.route tb.t l va = .ok (.hbm loc, false))
    (hw : (readyWalk tb.core tb.t tb.p va .store false).leads s s ()) :
    (tabLoc tb va).leads s (s.ran (keepLeaf tb.core tb.t tb.p va l)) (Space.hbm.loc loc) := by
  refine M.leads_bind (engineTgt_at h1 h2 h3 h4 hw) ?_
  exact fun _ _ => rfl

theorem tabPeek_at {tb : Tab} {va n l : Nat} {s t : State} {r : Nat × Bool} (h : (tabLoc tb va).leads s t l) (hl : l < 2 ^ 60)
    (hr : ∀ k ∈ linesOf l n, t.holders k = []) (hv : (t.peek l n, t.poisoned l n) = r) : (tabPeek tb va n).leads s t r := by
  refine M.leads_bind h ?_
  rw [if_pos hl]
  exact M.leads_bind (M.leads_each _ fun k hk => homeRead_none _ _ _ (hr k hk)) fun _ _ => by rw [← hv]; rfl

theorem tabPoke_at {tb : Tab} {va l : Nat} {bs : List Byte} {s t : State} (h : (tabLoc tb va).leads s t l) (hl : l < 2 ^ 60)
    (hr : ∀ k ∈ linesOf l bs.length, t.holders k = []) : (tabPoke tb va bs).leads s ((Upd.poke l bs).apply t) () := by
  refine M.leads_bind h ?_
  rw [if_pos hl]
  exact M.leads_bind (M.leads_each _ fun k hk => homeWrite_none _ _ _ (hr k hk)) (M.leads_upd _ _)

theorem readSlot_at {tb : Tab} {j : Nat} {s t u : State} {v w : Nat × Bool} (h : (tabPeek tb (tb.slotVA j) 32).leads s t v)
    (k : (tabPeek tb (tb.slotVA j + 32) 32).leads t u w) : (readSlot tb j).leads s u (v.1 + w.1 * 2 ^ 256, v.2 || w.2) :=
  M.leads_bind h (M.leads_bind k (M.leads_pure _ _))

theorem writeSlot_at {tb : Tab} {j r : Nat} {s t u : State} (h : (tabPoke tb (tb.slotVA j) (leBytes 32 r)).leads s t ())
    (k : (tabPoke tb (tb.slotVA j + 32) (leBytes 32 (r / 2 ^ 256))).leads t u ()) : (writeSlot tb j r).leads s u () :=
  M.leads_bind h k

/-- A record that waits on nothing takes its slot and enters its deque (R137, R145). -/
theorem acceptRec_at {tb : Tab} {r j : Nat} {s t u : State} (h : (takeSlot tb).leads s t j) (w : (writeSlot tb j r).leads t u ())
    (h0 : hIndex (rcWait r 0) = 0) (h1 : hIndex (rcWait r 1) = 0) (hn : rcNext r = false) (hv : rcVent r = false)
    (hs : (u.part tb.p).st ≠ .saved) : (acceptRec tb r).leads s (u.ran (enqueue (u.dequeOf tb.p r) tb.p j r)) () := by
  refine M.leads_bind h (M.leads_bind w ?_)
  unfold waitFirst waitSecond readyRec placeRec
  rw [if_pos h0, if_pos h1]
  refine M.leads_bind (M.leads_get u) ?_
  have e : ((u.part tb.p).st == PState.saved) = false := by simpa using hs
  rw [hn, e]
  refine M.leads_bind (M.leads_get u) ?_
  rw [hv]
  exact fun _ _ => rfl

/-- The slot that is taken is one of the pool's. -/
theorem freeFrom_lt (used : List Nat) {size : Nat} (h : 0 < size) : ∀ f i, freeFrom used size f i < size
  | 0, i => Nat.mod_lt _ h
  | f + 1, i => by
    unfold freeFrom
    split
    · exact freeFrom_lt used h f (i + 1)
    · exact Nat.mod_lt _ h

/-- A word of a receiver buffer in a bank of this package is published at its location (R130). -/
theorem storeVersion_at {p ver va l pkg off : Nat} {ca v : Bool} {q : PortLd} {w : Word × Bool} {s t : State}
    (h : (engineTgt (s.serviceOf q.pnode) (pTEN q.img) q.pnode va .store).leads s t (.ok (.cal pkg ca off, v)))
    (hl : t.locOf (.cal pkg ca off) = some l) :
    (storeVersion p q ver va w).leads s (t.ran (publishWord l ver q.rel w)) () := by
  refine M.leads_bind (M.leads_get s) (M.leads_bind h (M.leads_bind (M.leads_get t) ?_))
  rw [hl]
  exact fun _ _ => rfl

/-- Without a version there is nothing to retire, and no tag to look up. -/
theorem reclaimRange_none {s : State} (hv : s.vers = []) (t : Nat) (x : Tgt) (loc n rel : Nat) : (reclaimRange t x loc n rel).leads s s () := by
  have h : (retireRange loc n rel).leads s s () := by
    refine M.leads_bind (M.leads_get s) ?_
    rw [hv]
    exact M.leads_pure () s
  refine M.leads_bind (M.leads_get s) ?_
  cases x <;> first | exact h | (dsimp only; rw [hv]; exact M.leads_bind (M.leads_pure () s) h)

/-- A piece of a receiver buffer without a live version has nothing to retire (R132). -/
theorem reclaimNow_at {q : PortLd} {rel l : Nat} {e : Nat × Nat} {rest : List (Nat × Nat)} {x : Tgt} {ver b : Bool} {s t u : State}
    (h : (engineTgt (s.serviceOf q.pnode) (pTEN q.img) q.pnode e.1 .store).leads s t (.ok (x, ver))) (hl : t.locOf x = some l)
    (hv : t.vers = []) (k : (reclaimNow q rel rest).leads t u b) : (reclaimNow q rel (e :: rest)).leads s u b := by
  unfold reclaimNow
  refine M.leads_bind (M.leads_get s) (M.leads_bind h (M.leads_bind (M.leads_get t) ?_))
  rw [hl]
  cases ver
  · exact k
  · exact M.leads_bind (reclaimRange_none hv _ _ _ _ _) k

theorem M.leads_ran_bind {β : Type} {m : M Unit} {f : Unit → M β} {s u : State} {b : β} (h : m.leads s (s.ran m) ())
    (k : (f ()).leads (s.ran m) u b) : (m >>= f).leads s u b := M.leads_bind h k

/-! ### A lost die (R418) -/

theorem calHere_lost {s : State} {pkg : Nat} {ca : Bool} (h : s.calLost pkg ca = true) : s.calHere pkg ca = false := by
  unfold State.calLost at h
  unfold State.calHere
  by_cases e : pkg = s.pres.pkg.toNat <;> simp_all

/-- A bank whose die is lost is not asked, and gives no answer. -/
theorem askBank_lost {who : Who} {core t pkg off : Nat} {ca : Bool} {r : ROp} {also : M Unit} {s : State} (h : s.calLost pkg ca = true) :
    (askBank who core t pkg ca off r also).leads s s none := by
  refine M.leads_bind (M.leads_get s) ?_
  simp only [h, if_true]
  exact M.leads_pure none s

/-- A vent operation finds the die of a piece lost, and has changed nothing. -/
theorem vopRead_lost {who : Who} {o : VOp} {a n pkg off : Nat} {ca : Bool} {s : State} (x : s.vopTgt o a = .ok (.cal pkg ca off, false))
    (h : s.calLost pkg ca = true) : (vopRead who o a n).leads s s none := by
  refine M.leads_bind (M.leads_get s) ?_
  simp only [x, calHere_lost h, Bool.false_eq_true, if_false]
  exact M.leads_bind (askBank_lost h) (M.leads_pure none s)

theorem vopBytes_lost {who : Who} {o : VOp} {a n pkg off : Nat} {m : List (Nat × Nat)} {ca : Bool} {s : State}
    (x : s.vopTgt o a = .ok (.cal pkg ca off, false)) (h : s.calLost pkg ca = true) : (vopBytes who o ((a, n) :: m)).leads s s none :=
  M.leads_bind (vopRead_lost x h) (M.leads_pure none s)

end Sys2Proof.Machine
end

