-- ==== Sys2Proof/Laws/Store.lean ====
section
/-!
SUPPORT. Laws of the maps and of memory: a read after a write, at the same place and at another, and the canonical form kept by
every operation.
-/

namespace Sys2Proof.Machine

namespace SMap

variable {α : Type}

theorem get_erase_self (d : Nat → α) (m : SMap α) (k : Nat) : get d (m.erase k) k = d k := by
  induction m with
  | nil => rfl
  | cons e m ih =>
    obtain ⟨j, v⟩ := e
    by_cases h : j = k
    · simpa [erase, h] using ih
    · have : erase ((j, v) :: m) k = (j, v) :: erase m k := by simp [erase, h]
      rw [this]
      simp [get, h, ih]

theorem get_erase_ne (d : Nat → α) (m : SMap α) {k j : Nat} (h : j ≠ k) : get d (m.erase k) j = get d m j := by
  induction m with
  | nil => rfl
  | cons e m ih =>
    obtain ⟨i, v⟩ := e
    by_cases hi : i = k
    · subst hi
      have : erase ((i, v) :: m) i = erase m i := by simp [erase]
      rw [this, ih]
      simp [get, Ne.symm h]
    · have : erase ((i, v) :: m) k = (i, v) :: erase m k := by simp [erase, hi]
      rw [this]
      simp [get, ih]

theorem get_insert_ne (d : Nat → α) (v : α) {k j : Nat} (h : j ≠ k) (m : SMap α) :
    get d (insert k v m) j = get d m j := by
  induction m with
  | nil => simp [insert, get, Ne.symm h]
  | cons e m ih =>
    obtain ⟨i, w⟩ := e
    simp only [insert]
    split
    · simp [get, Ne.symm h]
    · simp [get, ih]

theorem get_insert_self (d : Nat → α) (v : α) (k : Nat) (m : SMap α) (hm : ∀ e ∈ m, e.1 ≠ k) :
    get d (insert k v m) k = v := by
  induction m with
  | nil => simp [insert, get]
  | cons e m ih =>
    obtain ⟨i, w⟩ := e
    have hi : i ≠ k := hm _ List.mem_cons_self
    simp only [insert]
    split
    · simp [get]
    · simp [get, hi, ih fun e he => hm e (List.mem_cons_of_mem _ he)]

theorem mem_erase_ne {m : SMap α} {k : Nat} {e : Nat × α} (h : e ∈ m.erase k) : e.1 ≠ k := by
  simpa [erase] using (List.mem_filter.1 h).2

@[simp] theorem get_put_self (d : Nat → α) (m : SMap α) (k : Nat) (v : α) : get d (m.put k v) k = v :=
  get_insert_self d v k _ fun _ => mem_erase_ne

theorem get_put_ne (d : Nat → α) (m : SMap α) {k j : Nat} (v : α) (h : j ≠ k) : get d (m.put k v) j = get d m j := by
  rw [put, get_insert_ne d v h, get_erase_ne d m h]

variable [DecidableEq α]

/-- Reading a key that has just been written gives the value written. -/
@[simp] theorem get_set_self (d : Nat → α) (m : SMap α) (k : Nat) (v : α) : get d (set d m k v) k = v := by
  unfold set
  split
  · next h => rw [get_erase_self, h]
  · simp

/-- A write leaves every other key alone. -/
theorem get_set_ne (d : Nat → α) (m : SMap α) {k j : Nat} (v : α) (h : j ≠ k) : get d (set d m k v) j = get d m j := by
  unfold set
  split
  · exact get_erase_ne d m h
  · exact get_put_ne d m v h

omit [DecidableEq α] in
theorem erase_insert (k : Nat) (v : α) (m : SMap α) : (insert k v m).erase k = m.erase k := by
  induction m with
  | nil => simp [insert, erase]
  | cons e m ih =>
    obtain ⟨j, w⟩ := e
    simp only [insert]
    split
    · simp [erase]
    · by_cases h : j = k
      · simpa [erase, h] using ih
      · simpa [erase, h] using ih

omit [DecidableEq α] in
@[simp] theorem erase_erase (m : SMap α) (k : Nat) : (m.erase k).erase k = m.erase k := by
  simp [erase]

/-- The second of two writes to one key is the one that counts. -/
@[simp] theorem set_set (d : Nat → α) (m : SMap α) (k : Nat) (v w : α) : set d (set d m k v) k w = set d m k w := by
  have h : (set d m k v).erase k = m.erase k := by
    unfold set
    split
    · exact erase_erase m k
    · rw [put, erase_insert, erase_erase]
  unfold set
  split
  · exact h
  · show put (set d m k v) k w = put m k w
    unfold put
    rw [h]

omit [DecidableEq α] in
theorem rising_mono {lo hi : Nat} (h : lo ≤ hi) {m : SMap α} (hm : rising hi m = true) : rising lo m = true := by
  cases m with
  | nil => rfl
  | cons e m => simp only [rising, Bool.and_eq_true, decide_eq_true_eq] at *; exact ⟨by omega, hm.2⟩

omit [DecidableEq α] in
theorem rising_filter (f : Nat × α → Bool) {lo : Nat} {m : SMap α} (hm : rising lo m = true) :
    rising lo (m.filter f) = true := by
  induction m generalizing lo with
  | nil => rfl
  | cons e m ih =>
    simp only [rising, Bool.and_eq_true, decide_eq_true_eq] at hm
    by_cases h : f e
    · rw [List.filter_cons_of_pos h]
      simp only [rising, Bool.and_eq_true, decide_eq_true_eq]
      exact ⟨hm.1, ih hm.2⟩
    · rw [List.filter_cons_of_neg h]
      exact ih (rising_mono (by omega) hm.2)

omit [DecidableEq α] in
theorem rising_insert {k : Nat} (v : α) {lo : Nat} {m : SMap α} (hk : lo ≤ k) (hm : rising lo m = true)
    (hn : ∀ e ∈ m, e.1 ≠ k) : rising lo (insert k v m) = true := by
  induction m generalizing lo with
  | nil => simp [insert, rising, hk]
  | cons e m ih =>
    obtain ⟨j, w⟩ := e
    have hj : j ≠ k := hn _ List.mem_cons_self
    simp only [rising, Bool.and_eq_true, decide_eq_true_eq] at hm
    simp only [insert]
    split
    · next h =>
      simp only [rising, Bool.and_eq_true, decide_eq_true_eq]
      exact ⟨hk, by omega, hm.2⟩
    · next h =>
      simp only [rising, Bool.and_eq_true, decide_eq_true_eq]
      exact ⟨hm.1, ih (by omega) hm.2 fun e he => hn e (List.mem_cons_of_mem _ he)⟩

omit [DecidableEq α] in
/-- An update keeps the keys rising. -/
theorem rising_put (m : SMap α) (k : Nat) (v : α) (hm : rising 0 m = true) : rising 0 (m.put k v) = true :=
  rising_insert v (Nat.zero_le k) (rising_filter _ hm) fun _ => mem_erase_ne

theorem proper_iff (d : Nat → α) (m : SMap α) : proper d m = true ↔ ∀ e ∈ m, e.2 ≠ d e.1 := by
  induction m with
  | nil => simp [proper]
  | cons e m ih => simp [proper, ih]

theorem proper_filter (d : Nat → α) (f : Nat × α → Bool) {m : SMap α} (hm : proper d m = true) :
    proper d (m.filter f) = true := by
  rw [proper_iff] at *
  exact fun e he => hm e (List.mem_filter.1 he).1

omit [DecidableEq α] in
theorem mem_insert {k : Nat} {v : α} {m : SMap α} {e : Nat × α} (h : e ∈ insert k v m) : e = (k, v) ∨ e ∈ m := by
  induction m with
  | nil => simpa [insert] using h
  | cons f m ih =>
    obtain ⟨j, w⟩ := f
    simp only [insert] at h
    split at h
    · simpa using h
    · rcases List.mem_cons.1 h with h | h
      · exact .inr (h ▸ List.mem_cons_self)
      · rcases ih h with h | h
        · exact .inl h
        · exact .inr (List.mem_cons_of_mem _ h)

omit [DecidableEq α] in
/-- What an updated map lists: the new entry, or an entry of another key that it listed before. -/
theorem mem_put {m : SMap α} {k : Nat} {v : α} {e : Nat × α} (h : e ∈ m.put k v) : e = (k, v) ∨ (e ∈ m ∧ e.1 ≠ k) := by
  rcases mem_insert h with h | h
  · exact .inl h
  · exact .inr ⟨(List.mem_filter.1 h).1, mem_erase_ne h⟩

theorem mem_set {d : Nat → α} {m : SMap α} {k : Nat} {v : α} {e : Nat × α} (h : e ∈ set d m k v) :
    e = (k, v) ∨ (e ∈ m ∧ e.1 ≠ k) := by
  unfold set at h
  split at h
  · exact .inr ⟨(List.mem_filter.1 h).1, mem_erase_ne h⟩
  · exact mem_put h

/-- An update keeps the canonical form. -/
theorem wf_set (d : Nat → α) (m : SMap α) (k : Nat) (v : α) (hr : rising 0 m = true) (hp : proper d m = true) :
    rising 0 (set d m k v) = true ∧ proper d (set d m k v) = true := by
  constructor
  · unfold set
    split
    · exact rising_filter _ hr
    · exact rising_put m k v hr
  · rw [proper_iff] at *
    intro e he
    unfold set at he
    split at he
    · exact hp e (List.mem_filter.1 he).1
    · next hv =>
      rcases mem_put he with h | h
      · subst h; exact hv
      · exact hp e h.1

end SMap

/-! ### Memory -/

namespace Memory

theorem wf_iff (m : List Host.Cell) :
    wf m = true ↔ SMap.rising 0 m = true ∧ SMap.proper memDefault m = true := by simp [wf]

/-- Reading the byte just written. -/
@[simp] theorem read_write_self (m : List Host.Cell) (a : Nat) (b : Byte) : read (write m a b) a = b :=
  SMap.get_set_self _ m a b

/-- Every other byte is left alone. -/
theorem read_write_ne (m : List Host.Cell) {a c : Nat} (b : Byte) (h : c ≠ a) : read (write m a b) c = read m c :=
  SMap.get_set_ne _ m b h

theorem write_wf {m : List Host.Cell} (a : Nat) (b : Byte) (h : wf m = true) : wf (write m a b) = true := by
  rw [wf_iff] at *
  exact SMap.wf_set memDefault m a b h.1 h.2

theorem filter_wf {m : List Host.Cell} (f : Host.Cell → Bool) (h : wf m = true) : wf (m.filter f) = true := by
  rw [wf_iff] at *
  exact ⟨SMap.rising_filter f h.1, SMap.proper_filter _ f h.2⟩

theorem eraseRange_wf {m : List Host.Cell} (lo hi : Nat) (h : wf m = true) : wf (SMap.eraseRange m lo hi) = true :=
  filter_wf _ h

/-- A write of several bytes keeps the canonical form. -/
theorem writes_wf {m : List Host.Cell} (a : Nat) (bs : List Byte) (h : wf m = true) : wf (writes m a bs) = true := by
  induction bs generalizing m a with
  | nil => exact h
  | cons b bs ih => exact ih (a + 1) (write_wf a b h)

/-- A write of several bytes leaves every byte outside them alone. -/
theorem read_writes_ne (m : List Host.Cell) (a : Nat) (bs : List Byte) {c : Nat} (h : c < a ∨ a + bs.length ≤ c) :
    read (writes m a bs) c = read m c := by
  induction bs generalizing m a with
  | nil => rfl
  | cons b bs ih =>
    simp only [List.length_cons] at h
    rw [writes, ih (write m a b) (a + 1) (by omega), read_write_ne m b (by omega)]

/-- The bytes written read back. -/
theorem reads_writes (m : List Host.Cell) (a : Nat) (bs : List Byte) : reads (writes m a bs) a bs.length = bs := by
  induction bs generalizing m a with
  | nil => rfl
  | cons b bs ih =>
    simp only [writes, List.length_cons, reads]
    rw [ih, read_writes_ne _ _ _ (by omega), read_write_self]

end Memory

/-- The little-endian number of the n bytes of a number, within range. -/
theorem leNat_leBytes (n v : Nat) : leNat (leBytes n v) = v % 256 ^ n := by
  induction n generalizing v with
  | zero => simp [leBytes, leNat, Nat.mod_one]
  | succ n ih =>
    simp only [leBytes, leNat, ih, BitVec.toNat_ofNat]
    rw [show 256 ^ (n + 1) = 256 * 256 ^ n from Nat.pow_succ', Nat.mod_mul]

@[simp] theorem leBytes_length (n v : Nat) : (leBytes n v).length = n := by
  induction n generalizing v with
  | zero => rfl
  | succ n ih => simp [leBytes, ih]

end Sys2Proof.Machine
end

