-- ==== Sys2Proof/Laws/State.lean ====
section
/-!
SUPPORT. One law for each field and each update of the state, so that no proof unfolds a record update; and what the accessors
give after an update, at the same key and at another.
-/

namespace Sys2Proof.Machine

namespace State

variable (s : State)

@[simp] theorem setCtx_mem (n : Nat) (v : Ctx) : (s.setCtx n v).mem = s.mem := rfl
@[simp] theorem setCtx_pois (n : Nat) (v : Ctx) : (s.setCtx n v).pois = s.pois := rfl
@[simp] theorem setCtx_vers (n : Nat) (v : Ctx) : (s.setCtx n v).vers = s.vers := rfl
@[simp] theorem setCtx_shadow (n : Nat) (v : Ctx) : (s.setCtx n v).shadow = s.shadow := rfl
@[simp] theorem setCtx_cores (n : Nat) (v : Ctx) : (s.setCtx n v).cores = s.cores := rfl
@[simp] theorem setCtx_clusters (n : Nat) (v : Ctx) : (s.setCtx n v).clusters = s.clusters := rfl
@[simp] theorem setCtx_parts (n : Nat) (v : Ctx) : (s.setCtx n v).parts = s.parts := rfl
@[simp] theorem setCtx_vfs (n : Nat) (v : Ctx) : (s.setCtx n v).vfs = s.vfs := rfl
@[simp] theorem setCtx_ports (n : Nat) (v : Ctx) : (s.setCtx n v).ports = s.ports := rfl
@[simp] theorem setCtx_caches (n : Nat) (v : Ctx) : (s.setCtx n v).caches = s.caches := rfl
@[simp] theorem setCtx_cals (n : Nat) (v : Ctx) : (s.setCtx n v).cals = s.cals := rfl
@[simp] theorem setCtx_dev (n : Nat) (v : Ctx) : (s.setCtx n v).dev = s.dev := rfl
@[simp] theorem setCtx_pres (n : Nat) (v : Ctx) : (s.setCtx n v).pres = s.pres := rfl
@[simp] theorem setCtx_cycle (n : Nat) (v : Ctx) : (s.setCtx n v).cycle = s.cycle := rfl
@[simp] theorem setCtx_ref (n : Nat) (v : Ctx) : (s.setCtx n v).ref = s.ref := rfl
@[simp] theorem setCtx_refPh (n : Nat) (v : Ctx) : (s.setCtx n v).refPh = s.refPh := rfl
@[simp] theorem setCtx_get_core (n : Nat) (v : Ctx) (k : Nat) : (s.setCtx n v).core k = s.core k := rfl
@[simp] theorem setCtx_get_cluster (n : Nat) (v : Ctx) (k : Nat) : (s.setCtx n v).cluster k = s.cluster k := rfl
@[simp] theorem setCtx_get_part (n : Nat) (v : Ctx) (k : Nat) : (s.setCtx n v).part k = s.part k := rfl
@[simp] theorem setCtx_get_partOpt (n : Nat) (v : Ctx) (k : Nat) : (s.setCtx n v).part? k = s.part? k := rfl
@[simp] theorem setCtx_get_vf (n : Nat) (v : Ctx) (k : Nat) : (s.setCtx n v).vf k = s.vf k := rfl
@[simp] theorem setCtx_get_port (n : Nat) (v : Ctx) (k : Nat) : (s.setCtx n v).port k = s.port k := rfl
@[simp] theorem setCtx_get_cache (n : Nat) (v : Ctx) (k : Nat) : (s.setCtx n v).cache k = s.cache k := rfl
@[simp] theorem setCtx_get_cal (n : Nat) (v : Ctx) (k : Bool) : (s.setCtx n v).cal k = s.cal k := rfl
@[simp] theorem setCtx_get_vword (n : Nat) (v : Ctx) (k : Nat) : (s.setCtx n v).vword k = s.vword k := rfl
@[simp] theorem setCtx_get_byte (n : Nat) (v : Ctx) (k : Nat) : (s.setCtx n v).byte k = s.byte k := rfl

@[simp] theorem setCore_mem (n : Nat) (v : Core) : (s.setCore n v).mem = s.mem := rfl
@[simp] theorem setCore_pois (n : Nat) (v : Core) : (s.setCore n v).pois = s.pois := rfl
@[simp] theorem setCore_vers (n : Nat) (v : Core) : (s.setCore n v).vers = s.vers := rfl
@[simp] theorem setCore_shadow (n : Nat) (v : Core) : (s.setCore n v).shadow = s.shadow := rfl
@[simp] theorem setCore_ctxs (n : Nat) (v : Core) : (s.setCore n v).ctxs = s.ctxs := rfl
@[simp] theorem setCore_clusters (n : Nat) (v : Core) : (s.setCore n v).clusters = s.clusters := rfl
@[simp] theorem setCore_parts (n : Nat) (v : Core) : (s.setCore n v).parts = s.parts := rfl
@[simp] theorem setCore_vfs (n : Nat) (v : Core) : (s.setCore n v).vfs = s.vfs := rfl
@[simp] theorem setCore_ports (n : Nat) (v : Core) : (s.setCore n v).ports = s.ports := rfl
@[simp] theorem setCore_caches (n : Nat) (v : Core) : (s.setCore n v).caches = s.caches := rfl
@[simp] theorem setCore_cals (n : Nat) (v : Core) : (s.setCore n v).cals = s.cals := rfl
@[simp] theorem setCore_dev (n : Nat) (v : Core) : (s.setCore n v).dev = s.dev := rfl
@[simp] theorem setCore_pres (n : Nat) (v : Core) : (s.setCore n v).pres = s.pres := rfl
@[simp] theorem setCore_cycle (n : Nat) (v : Core) : (s.setCore n v).cycle = s.cycle := rfl
@[simp] theorem setCore_ref (n : Nat) (v : Core) : (s.setCore n v).ref = s.ref := rfl
@[simp] theorem setCore_refPh (n : Nat) (v : Core) : (s.setCore n v).refPh = s.refPh := rfl
@[simp] theorem setCore_get_ctx (n : Nat) (v : Core) (k : Nat) : (s.setCore n v).ctx k = s.ctx k := rfl
@[simp] theorem setCore_get_cluster (n : Nat) (v : Core) (k : Nat) : (s.setCore n v).cluster k = s.cluster k := rfl
@[simp] theorem setCore_get_part (n : Nat) (v : Core) (k : Nat) : (s.setCore n v).part k = s.part k := rfl
@[simp] theorem setCore_get_partOpt (n : Nat) (v : Core) (k : Nat) : (s.setCore n v).part? k = s.part? k := rfl
@[simp] theorem setCore_get_vf (n : Nat) (v : Core) (k : Nat) : (s.setCore n v).vf k = s.vf k := rfl
@[simp] theorem setCore_get_port (n : Nat) (v : Core) (k : Nat) : (s.setCore n v).port k = s.port k := rfl
@[simp] theorem setCore_get_cache (n : Nat) (v : Core) (k : Nat) : (s.setCore n v).cache k = s.cache k := rfl
@[simp] theorem setCore_get_cal (n : Nat) (v : Core) (k : Bool) : (s.setCore n v).cal k = s.cal k := rfl
@[simp] theorem setCore_get_vword (n : Nat) (v : Core) (k : Nat) : (s.setCore n v).vword k = s.vword k := rfl
@[simp] theorem setCore_get_byte (n : Nat) (v : Core) (k : Nat) : (s.setCore n v).byte k = s.byte k := rfl

@[simp] theorem setCluster_mem (n : Nat) (v : Cluster) : (s.setCluster n v).mem = s.mem := rfl
@[simp] theorem setCluster_pois (n : Nat) (v : Cluster) : (s.setCluster n v).pois = s.pois := rfl
@[simp] theorem setCluster_vers (n : Nat) (v : Cluster) : (s.setCluster n v).vers = s.vers := rfl
@[simp] theorem setCluster_shadow (n : Nat) (v : Cluster) : (s.setCluster n v).shadow = s.shadow := rfl
@[simp] theorem setCluster_ctxs (n : Nat) (v : Cluster) : (s.setCluster n v).ctxs = s.ctxs := rfl
@[simp] theorem setCluster_cores (n : Nat) (v : Cluster) : (s.setCluster n v).cores = s.cores := rfl
@[simp] theorem setCluster_parts (n : Nat) (v : Cluster) : (s.setCluster n v).parts = s.parts := rfl
@[simp] theorem setCluster_vfs (n : Nat) (v : Cluster) : (s.setCluster n v).vfs = s.vfs := rfl
@[simp] theorem setCluster_ports (n : Nat) (v : Cluster) : (s.setCluster n v).ports = s.ports := rfl
@[simp] theorem setCluster_caches (n : Nat) (v : Cluster) : (s.setCluster n v).caches = s.caches := rfl
@[simp] theorem setCluster_cals (n : Nat) (v : Cluster) : (s.setCluster n v).cals = s.cals := rfl
@[simp] theorem setCluster_dev (n : Nat) (v : Cluster) : (s.setCluster n v).dev = s.dev := rfl
@[simp] theorem setCluster_pres (n : Nat) (v : Cluster) : (s.setCluster n v).pres = s.pres := rfl
@[simp] theorem setCluster_cycle (n : Nat) (v : Cluster) : (s.setCluster n v).cycle = s.cycle := rfl
@[simp] theorem setCluster_ref (n : Nat) (v : Cluster) : (s.setCluster n v).ref = s.ref := rfl
@[simp] theorem setCluster_refPh (n : Nat) (v : Cluster) : (s.setCluster n v).refPh = s.refPh := rfl
@[simp] theorem setCluster_get_ctx (n : Nat) (v : Cluster) (k : Nat) : (s.setCluster n v).ctx k = s.ctx k := rfl
@[simp] theorem setCluster_get_core (n : Nat) (v : Cluster) (k : Nat) : (s.setCluster n v).core k = s.core k := rfl
@[simp] theorem setCluster_get_part (n : Nat) (v : Cluster) (k : Nat) : (s.setCluster n v).part k = s.part k := rfl
@[simp] theorem setCluster_get_partOpt (n : Nat) (v : Cluster) (k : Nat) : (s.setCluster n v).part? k = s.part? k := rfl
@[simp] theorem setCluster_get_vf (n : Nat) (v : Cluster) (k : Nat) : (s.setCluster n v).vf k = s.vf k := rfl
@[simp] theorem setCluster_get_port (n : Nat) (v : Cluster) (k : Nat) : (s.setCluster n v).port k = s.port k := rfl
@[simp] theorem setCluster_get_cache (n : Nat) (v : Cluster) (k : Nat) : (s.setCluster n v).cache k = s.cache k := rfl
@[simp] theorem setCluster_get_cal (n : Nat) (v : Cluster) (k : Bool) : (s.setCluster n v).cal k = s.cal k := rfl
@[simp] theorem setCluster_get_vword (n : Nat) (v : Cluster) (k : Nat) : (s.setCluster n v).vword k = s.vword k := rfl
@[simp] theorem setCluster_get_byte (n : Nat) (v : Cluster) (k : Nat) : (s.setCluster n v).byte k = s.byte k := rfl

@[simp] theorem setVf_mem (n : Nat) (v : Vf) : (s.setVf n v).mem = s.mem := rfl
@[simp] theorem setVf_pois (n : Nat) (v : Vf) : (s.setVf n v).pois = s.pois := rfl
@[simp] theorem setVf_vers (n : Nat) (v : Vf) : (s.setVf n v).vers = s.vers := rfl
@[simp] theorem setVf_shadow (n : Nat) (v : Vf) : (s.setVf n v).shadow = s.shadow := rfl
@[simp] theorem setVf_ctxs (n : Nat) (v : Vf) : (s.setVf n v).ctxs = s.ctxs := rfl
@[simp] theorem setVf_cores (n : Nat) (v : Vf) : (s.setVf n v).cores = s.cores := rfl
@[simp] theorem setVf_clusters (n : Nat) (v : Vf) : (s.setVf n v).clusters = s.clusters := rfl
@[simp] theorem setVf_parts (n : Nat) (v : Vf) : (s.setVf n v).parts = s.parts := rfl
@[simp] theorem setVf_ports (n : Nat) (v : Vf) : (s.setVf n v).ports = s.ports := rfl
@[simp] theorem setVf_caches (n : Nat) (v : Vf) : (s.setVf n v).caches = s.caches := rfl
@[simp] theorem setVf_cals (n : Nat) (v : Vf) : (s.setVf n v).cals = s.cals := rfl
@[simp] theorem setVf_dev (n : Nat) (v : Vf) : (s.setVf n v).dev = s.dev := rfl
@[simp] theorem setVf_pres (n : Nat) (v : Vf) : (s.setVf n v).pres = s.pres := rfl
@[simp] theorem setVf_cycle (n : Nat) (v : Vf) : (s.setVf n v).cycle = s.cycle := rfl
@[simp] theorem setVf_ref (n : Nat) (v : Vf) : (s.setVf n v).ref = s.ref := rfl
@[simp] theorem setVf_refPh (n : Nat) (v : Vf) : (s.setVf n v).refPh = s.refPh := rfl
@[simp] theorem setVf_get_ctx (n : Nat) (v : Vf) (k : Nat) : (s.setVf n v).ctx k = s.ctx k := rfl
@[simp] theorem setVf_get_core (n : Nat) (v : Vf) (k : Nat) : (s.setVf n v).core k = s.core k := rfl
@[simp] theorem setVf_get_cluster (n : Nat) (v : Vf) (k : Nat) : (s.setVf n v).cluster k = s.cluster k := rfl
@[simp] theorem setVf_get_part (n : Nat) (v : Vf) (k : Nat) : (s.setVf n v).part k = s.part k := rfl
@[simp] theorem setVf_get_partOpt (n : Nat) (v : Vf) (k : Nat) : (s.setVf n v).part? k = s.part? k := rfl
@[simp] theorem setVf_get_port (n : Nat) (v : Vf) (k : Nat) : (s.setVf n v).port k = s.port k := rfl
@[simp] theorem setVf_get_cache (n : Nat) (v : Vf) (k : Nat) : (s.setVf n v).cache k = s.cache k := rfl
@[simp] theorem setVf_get_cal (n : Nat) (v : Vf) (k : Bool) : (s.setVf n v).cal k = s.cal k := rfl
@[simp] theorem setVf_get_vword (n : Nat) (v : Vf) (k : Nat) : (s.setVf n v).vword k = s.vword k := rfl
@[simp] theorem setVf_get_byte (n : Nat) (v : Vf) (k : Nat) : (s.setVf n v).byte k = s.byte k := rfl

@[simp] theorem setPort_mem (n : Nat) (v : Port) : (s.setPort n v).mem = s.mem := rfl
@[simp] theorem setPort_pois (n : Nat) (v : Port) : (s.setPort n v).pois = s.pois := rfl
@[simp] theorem setPort_vers (n : Nat) (v : Port) : (s.setPort n v).vers = s.vers := rfl
@[simp] theorem setPort_shadow (n : Nat) (v : Port) : (s.setPort n v).shadow = s.shadow := rfl
@[simp] theorem setPort_ctxs (n : Nat) (v : Port) : (s.setPort n v).ctxs = s.ctxs := rfl
@[simp] theorem setPort_cores (n : Nat) (v : Port) : (s.setPort n v).cores = s.cores := rfl
@[simp] theorem setPort_clusters (n : Nat) (v : Port) : (s.setPort n v).clusters = s.clusters := rfl
@[simp] theorem setPort_parts (n : Nat) (v : Port) : (s.setPort n v).parts = s.parts := rfl
@[simp] theorem setPort_vfs (n : Nat) (v : Port) : (s.setPort n v).vfs = s.vfs := rfl
@[simp] theorem setPort_caches (n : Nat) (v : Port) : (s.setPort n v).caches = s.caches := rfl
@[simp] theorem setPort_cals (n : Nat) (v : Port) : (s.setPort n v).cals = s.cals := rfl
@[simp] theorem setPort_dev (n : Nat) (v : Port) : (s.setPort n v).dev = s.dev := rfl
@[simp] theorem setPort_pres (n : Nat) (v : Port) : (s.setPort n v).pres = s.pres := rfl
@[simp] theorem setPort_cycle (n : Nat) (v : Port) : (s.setPort n v).cycle = s.cycle := rfl
@[simp] theorem setPort_ref (n : Nat) (v : Port) : (s.setPort n v).ref = s.ref := rfl
@[simp] theorem setPort_refPh (n : Nat) (v : Port) : (s.setPort n v).refPh = s.refPh := rfl
@[simp] theorem setPort_get_ctx (n : Nat) (v : Port) (k : Nat) : (s.setPort n v).ctx k = s.ctx k := rfl
@[simp] theorem setPort_get_core (n : Nat) (v : Port) (k : Nat) : (s.setPort n v).core k = s.core k := rfl
@[simp] theorem setPort_get_cluster (n : Nat) (v : Port) (k : Nat) : (s.setPort n v).cluster k = s.cluster k := rfl
@[simp] theorem setPort_get_part (n : Nat) (v : Port) (k : Nat) : (s.setPort n v).part k = s.part k := rfl
@[simp] theorem setPort_get_partOpt (n : Nat) (v : Port) (k : Nat) : (s.setPort n v).part? k = s.part? k := rfl
@[simp] theorem setPort_get_vf (n : Nat) (v : Port) (k : Nat) : (s.setPort n v).vf k = s.vf k := rfl
@[simp] theorem setPort_get_cache (n : Nat) (v : Port) (k : Nat) : (s.setPort n v).cache k = s.cache k := rfl
@[simp] theorem setPort_get_cal (n : Nat) (v : Port) (k : Bool) : (s.setPort n v).cal k = s.cal k := rfl
@[simp] theorem setPort_get_vword (n : Nat) (v : Port) (k : Nat) : (s.setPort n v).vword k = s.vword k := rfl
@[simp] theorem setPort_get_byte (n : Nat) (v : Port) (k : Nat) : (s.setPort n v).byte k = s.byte k := rfl

@[simp] theorem setCache_mem (n : Nat) (v : Cache) : (s.setCache n v).mem = s.mem := rfl
@[simp] theorem setCache_pois (n : Nat) (v : Cache) : (s.setCache n v).pois = s.pois := rfl
@[simp] theorem setCache_vers (n : Nat) (v : Cache) : (s.setCache n v).vers = s.vers := rfl
@[simp] theorem setCache_shadow (n : Nat) (v : Cache) : (s.setCache n v).shadow = s.shadow := rfl
@[simp] theorem setCache_ctxs (n : Nat) (v : Cache) : (s.setCache n v).ctxs = s.ctxs := rfl
@[simp] theorem setCache_cores (n : Nat) (v : Cache) : (s.setCache n v).cores = s.cores := rfl
@[simp] theorem setCache_clusters (n : Nat) (v : Cache) : (s.setCache n v).clusters = s.clusters := rfl
@[simp] theorem setCache_parts (n : Nat) (v : Cache) : (s.setCache n v).parts = s.parts := rfl
@[simp] theorem setCache_vfs (n : Nat) (v : Cache) : (s.setCache n v).vfs = s.vfs := rfl
@[simp] theorem setCache_ports (n : Nat) (v : Cache) : (s.setCache n v).ports = s.ports := rfl
@[simp] theorem setCache_cals (n : Nat) (v : Cache) : (s.setCache n v).cals = s.cals := rfl
@[simp] theorem setCache_dev (n : Nat) (v : Cache) : (s.setCache n v).dev = s.dev := rfl
@[simp] theorem setCache_pres (n : Nat) (v : Cache) : (s.setCache n v).pres = s.pres := rfl
@[simp] theorem setCache_cycle (n : Nat) (v : Cache) : (s.setCache n v).cycle = s.cycle := rfl
@[simp] theorem setCache_ref (n : Nat) (v : Cache) : (s.setCache n v).ref = s.ref := rfl
@[simp] theorem setCache_refPh (n : Nat) (v : Cache) : (s.setCache n v).refPh = s.refPh := rfl
@[simp] theorem setCache_get_ctx (n : Nat) (v : Cache) (k : Nat) : (s.setCache n v).ctx k = s.ctx k := rfl
@[simp] theorem setCache_get_core (n : Nat) (v : Cache) (k : Nat) : (s.setCache n v).core k = s.core k := rfl
@[simp] theorem setCache_get_cluster (n : Nat) (v : Cache) (k : Nat) : (s.setCache n v).cluster k = s.cluster k := rfl
@[simp] theorem setCache_get_part (n : Nat) (v : Cache) (k : Nat) : (s.setCache n v).part k = s.part k := rfl
@[simp] theorem setCache_get_partOpt (n : Nat) (v : Cache) (k : Nat) : (s.setCache n v).part? k = s.part? k := rfl
@[simp] theorem setCache_get_vf (n : Nat) (v : Cache) (k : Nat) : (s.setCache n v).vf k = s.vf k := rfl
@[simp] theorem setCache_get_port (n : Nat) (v : Cache) (k : Nat) : (s.setCache n v).port k = s.port k := rfl
@[simp] theorem setCache_get_cal (n : Nat) (v : Cache) (k : Bool) : (s.setCache n v).cal k = s.cal k := rfl
@[simp] theorem setCache_get_vword (n : Nat) (v : Cache) (k : Nat) : (s.setCache n v).vword k = s.vword k := rfl
@[simp] theorem setCache_get_byte (n : Nat) (v : Cache) (k : Nat) : (s.setCache n v).byte k = s.byte k := rfl

@[simp] theorem setCal_mem (n : Bool) (v : Cal) : (s.setCal n v).mem = s.mem := rfl
@[simp] theorem setCal_pois (n : Bool) (v : Cal) : (s.setCal n v).pois = s.pois := rfl
@[simp] theorem setCal_vers (n : Bool) (v : Cal) : (s.setCal n v).vers = s.vers := rfl
@[simp] theorem setCal_shadow (n : Bool) (v : Cal) : (s.setCal n v).shadow = s.shadow := rfl
@[simp] theorem setCal_ctxs (n : Bool) (v : Cal) : (s.setCal n v).ctxs = s.ctxs := rfl
@[simp] theorem setCal_cores (n : Bool) (v : Cal) : (s.setCal n v).cores = s.cores := rfl
@[simp] theorem setCal_clusters (n : Bool) (v : Cal) : (s.setCal n v).clusters = s.clusters := rfl
@[simp] theorem setCal_parts (n : Bool) (v : Cal) : (s.setCal n v).parts = s.parts := rfl
@[simp] theorem setCal_vfs (n : Bool) (v : Cal) : (s.setCal n v).vfs = s.vfs := rfl
@[simp] theorem setCal_ports (n : Bool) (v : Cal) : (s.setCal n v).ports = s.ports := rfl
@[simp] theorem setCal_caches (n : Bool) (v : Cal) : (s.setCal n v).caches = s.caches := rfl
@[simp] theorem setCal_dev (n : Bool) (v : Cal) : (s.setCal n v).dev = s.dev := rfl
@[simp] theorem setCal_pres (n : Bool) (v : Cal) : (s.setCal n v).pres = s.pres := rfl
@[simp] theorem setCal_cycle (n : Bool) (v : Cal) : (s.setCal n v).cycle = s.cycle := rfl
@[simp] theorem setCal_ref (n : Bool) (v : Cal) : (s.setCal n v).ref = s.ref := rfl
@[simp] theorem setCal_refPh (n : Bool) (v : Cal) : (s.setCal n v).refPh = s.refPh := rfl
@[simp] theorem setCal_get_ctx (n : Bool) (v : Cal) (k : Nat) : (s.setCal n v).ctx k = s.ctx k := rfl
@[simp] theorem setCal_get_core (n : Bool) (v : Cal) (k : Nat) : (s.setCal n v).core k = s.core k := rfl
@[simp] theorem setCal_get_cluster (n : Bool) (v : Cal) (k : Nat) : (s.setCal n v).cluster k = s.cluster k := rfl
@[simp] theorem setCal_get_part (n : Bool) (v : Cal) (k : Nat) : (s.setCal n v).part k = s.part k := rfl
@[simp] theorem setCal_get_partOpt (n : Bool) (v : Cal) (k : Nat) : (s.setCal n v).part? k = s.part? k := rfl
@[simp] theorem setCal_get_vf (n : Bool) (v : Cal) (k : Nat) : (s.setCal n v).vf k = s.vf k := rfl
@[simp] theorem setCal_get_port (n : Bool) (v : Cal) (k : Nat) : (s.setCal n v).port k = s.port k := rfl
@[simp] theorem setCal_get_cache (n : Bool) (v : Cal) (k : Nat) : (s.setCal n v).cache k = s.cache k := rfl
@[simp] theorem setCal_get_vword (n : Bool) (v : Cal) (k : Nat) : (s.setCal n v).vword k = s.vword k := rfl
@[simp] theorem setCal_get_byte (n : Bool) (v : Cal) (k : Nat) : (s.setCal n v).byte k = s.byte k := rfl

@[simp] theorem setPart_mem (n : Nat) (v : Part → Part) : (s.setPart n v).mem = s.mem := rfl
@[simp] theorem setPart_pois (n : Nat) (v : Part → Part) : (s.setPart n v).pois = s.pois := rfl
@[simp] theorem setPart_vers (n : Nat) (v : Part → Part) : (s.setPart n v).vers = s.vers := rfl
@[simp] theorem setPart_shadow (n : Nat) (v : Part → Part) : (s.setPart n v).shadow = s.shadow := rfl
@[simp] theorem setPart_ctxs (n : Nat) (v : Part → Part) : (s.setPart n v).ctxs = s.ctxs := rfl
@[simp] theorem setPart_cores (n : Nat) (v : Part → Part) : (s.setPart n v).cores = s.cores := rfl
@[simp] theorem setPart_clusters (n : Nat) (v : Part → Part) : (s.setPart n v).clusters = s.clusters := rfl
@[simp] theorem setPart_vfs (n : Nat) (v : Part → Part) : (s.setPart n v).vfs = s.vfs := rfl
@[simp] theorem setPart_ports (n : Nat) (v : Part → Part) : (s.setPart n v).ports = s.ports := rfl
@[simp] theorem setPart_caches (n : Nat) (v : Part → Part) : (s.setPart n v).caches = s.caches := rfl
@[simp] theorem setPart_cals (n : Nat) (v : Part → Part) : (s.setPart n v).cals = s.cals := rfl
@[simp] theorem setPart_dev (n : Nat) (v : Part → Part) : (s.setPart n v).dev = s.dev := rfl
@[simp] theorem setPart_pres (n : Nat) (v : Part → Part) : (s.setPart n v).pres = s.pres := rfl
@[simp] theorem setPart_cycle (n : Nat) (v : Part → Part) : (s.setPart n v).cycle = s.cycle := rfl
@[simp] theorem setPart_ref (n : Nat) (v : Part → Part) : (s.setPart n v).ref = s.ref := rfl
@[simp] theorem setPart_refPh (n : Nat) (v : Part → Part) : (s.setPart n v).refPh = s.refPh := rfl
@[simp] theorem setPart_get_ctx (n : Nat) (v : Part → Part) (k : Nat) : (s.setPart n v).ctx k = s.ctx k := rfl
@[simp] theorem setPart_get_core (n : Nat) (v : Part → Part) (k : Nat) : (s.setPart n v).core k = s.core k := rfl
@[simp] theorem setPart_get_cluster (n : Nat) (v : Part → Part) (k : Nat) : (s.setPart n v).cluster k = s.cluster k := rfl
@[simp] theorem setPart_get_vf (n : Nat) (v : Part → Part) (k : Nat) : (s.setPart n v).vf k = s.vf k := rfl
@[simp] theorem setPart_get_port (n : Nat) (v : Part → Part) (k : Nat) : (s.setPart n v).port k = s.port k := rfl
@[simp] theorem setPart_get_cache (n : Nat) (v : Part → Part) (k : Nat) : (s.setPart n v).cache k = s.cache k := rfl
@[simp] theorem setPart_get_cal (n : Nat) (v : Part → Part) (k : Bool) : (s.setPart n v).cal k = s.cal k := rfl
@[simp] theorem setPart_get_vword (n : Nat) (v : Part → Part) (k : Nat) : (s.setPart n v).vword k = s.vword k := rfl
@[simp] theorem setPart_get_byte (n : Nat) (v : Part → Part) (k : Nat) : (s.setPart n v).byte k = s.byte k := rfl

/-! Records replaced whole -/

@[simp] theorem with_dev_get_ctx (x : Dev) (k : Nat) : (State.ctx { s with dev := x } k) = s.ctx k := rfl
@[simp] theorem with_dev_get_core (x : Dev) (k : Nat) : (State.core { s with dev := x } k) = s.core k := rfl
@[simp] theorem with_dev_get_cluster (x : Dev) (k : Nat) : (State.cluster { s with dev := x } k) = s.cluster k := rfl
@[simp] theorem with_dev_get_part (x : Dev) (k : Nat) : (State.part { s with dev := x } k) = s.part k := rfl
@[simp] theorem with_dev_get_partOpt (x : Dev) (k : Nat) : (State.part? { s with dev := x } k) = s.part? k := rfl
@[simp] theorem with_dev_get_vf (x : Dev) (k : Nat) : (State.vf { s with dev := x } k) = s.vf k := rfl
@[simp] theorem with_dev_get_port (x : Dev) (k : Nat) : (State.port { s with dev := x } k) = s.port k := rfl
@[simp] theorem with_dev_get_cache (x : Dev) (k : Nat) : (State.cache { s with dev := x } k) = s.cache k := rfl
@[simp] theorem with_dev_get_cal (x : Dev) (k : Bool) : (State.cal { s with dev := x } k) = s.cal k := rfl
@[simp] theorem with_dev_get_vword (x : Dev) (k : Nat) : (State.vword { s with dev := x } k) = s.vword k := rfl
@[simp] theorem with_dev_get_byte (x : Dev) (k : Nat) : (State.byte { s with dev := x } k) = s.byte k := rfl
@[simp] theorem with_mem_get_ctx (x : List Host.Cell) (k : Nat) : (State.ctx { s with mem := x } k) = s.ctx k := rfl
@[simp] theorem with_mem_get_core (x : List Host.Cell) (k : Nat) : (State.core { s with mem := x } k) = s.core k := rfl
@[simp] theorem with_mem_get_cluster (x : List Host.Cell) (k : Nat) : (State.cluster { s with mem := x } k) = s.cluster k := rfl
@[simp] theorem with_mem_get_part (x : List Host.Cell) (k : Nat) : (State.part { s with mem := x } k) = s.part k := rfl
@[simp] theorem with_mem_get_partOpt (x : List Host.Cell) (k : Nat) : (State.part? { s with mem := x } k) = s.part? k := rfl
@[simp] theorem with_mem_get_vf (x : List Host.Cell) (k : Nat) : (State.vf { s with mem := x } k) = s.vf k := rfl
@[simp] theorem with_mem_get_port (x : List Host.Cell) (k : Nat) : (State.port { s with mem := x } k) = s.port k := rfl
@[simp] theorem with_mem_get_cache (x : List Host.Cell) (k : Nat) : (State.cache { s with mem := x } k) = s.cache k := rfl
@[simp] theorem with_mem_get_cal (x : List Host.Cell) (k : Bool) : (State.cal { s with mem := x } k) = s.cal k := rfl
@[simp] theorem with_mem_get_vword (x : List Host.Cell) (k : Nat) : (State.vword { s with mem := x } k) = s.vword k := rfl
@[simp] theorem with_pois_get_ctx (x : List Nat) (k : Nat) : (State.ctx { s with pois := x } k) = s.ctx k := rfl
@[simp] theorem with_pois_get_core (x : List Nat) (k : Nat) : (State.core { s with pois := x } k) = s.core k := rfl
@[simp] theorem with_pois_get_cluster (x : List Nat) (k : Nat) : (State.cluster { s with pois := x } k) = s.cluster k := rfl
@[simp] theorem with_pois_get_part (x : List Nat) (k : Nat) : (State.part { s with pois := x } k) = s.part k := rfl
@[simp] theorem with_pois_get_partOpt (x : List Nat) (k : Nat) : (State.part? { s with pois := x } k) = s.part? k := rfl
@[simp] theorem with_pois_get_vf (x : List Nat) (k : Nat) : (State.vf { s with pois := x } k) = s.vf k := rfl
@[simp] theorem with_pois_get_port (x : List Nat) (k : Nat) : (State.port { s with pois := x } k) = s.port k := rfl
@[simp] theorem with_pois_get_cache (x : List Nat) (k : Nat) : (State.cache { s with pois := x } k) = s.cache k := rfl
@[simp] theorem with_pois_get_cal (x : List Nat) (k : Bool) : (State.cal { s with pois := x } k) = s.cal k := rfl
@[simp] theorem with_pois_get_vword (x : List Nat) (k : Nat) : (State.vword { s with pois := x } k) = s.vword k := rfl
@[simp] theorem with_pois_get_byte (x : List Nat) (k : Nat) : (State.byte { s with pois := x } k) = s.byte k := rfl
@[simp] theorem with_vers_get_ctx (x : SMap VWord) (k : Nat) : (State.ctx { s with vers := x } k) = s.ctx k := rfl
@[simp] theorem with_vers_get_core (x : SMap VWord) (k : Nat) : (State.core { s with vers := x } k) = s.core k := rfl
@[simp] theorem with_vers_get_cluster (x : SMap VWord) (k : Nat) : (State.cluster { s with vers := x } k) = s.cluster k := rfl
@[simp] theorem with_vers_get_part (x : SMap VWord) (k : Nat) : (State.part { s with vers := x } k) = s.part k := rfl
@[simp] theorem with_vers_get_partOpt (x : SMap VWord) (k : Nat) : (State.part? { s with vers := x } k) = s.part? k := rfl
@[simp] theorem with_vers_get_vf (x : SMap VWord) (k : Nat) : (State.vf { s with vers := x } k) = s.vf k := rfl
@[simp] theorem with_vers_get_port (x : SMap VWord) (k : Nat) : (State.port { s with vers := x } k) = s.port k := rfl
@[simp] theorem with_vers_get_cache (x : SMap VWord) (k : Nat) : (State.cache { s with vers := x } k) = s.cache k := rfl
@[simp] theorem with_vers_get_cal (x : SMap VWord) (k : Bool) : (State.cal { s with vers := x } k) = s.cal k := rfl
@[simp] theorem with_vers_get_byte (x : SMap VWord) (k : Nat) : (State.byte { s with vers := x } k) = s.byte k := rfl
@[simp] theorem with_shadow_get_ctx (x : SMap Shadow) (k : Nat) : (State.ctx { s with shadow := x } k) = s.ctx k := rfl
@[simp] theorem with_shadow_get_core (x : SMap Shadow) (k : Nat) : (State.core { s with shadow := x } k) = s.core k := rfl
@[simp] theorem with_shadow_get_cluster (x : SMap Shadow) (k : Nat) : (State.cluster { s with shadow := x } k) = s.cluster k := rfl
@[simp] theorem with_shadow_get_part (x : SMap Shadow) (k : Nat) : (State.part { s with shadow := x } k) = s.part k := rfl
@[simp] theorem with_shadow_get_partOpt (x : SMap Shadow) (k : Nat) : (State.part? { s with shadow := x } k) = s.part? k := rfl
@[simp] theorem with_shadow_get_vf (x : SMap Shadow) (k : Nat) : (State.vf { s with shadow := x } k) = s.vf k := rfl
@[simp] theorem with_shadow_get_port (x : SMap Shadow) (k : Nat) : (State.port { s with shadow := x } k) = s.port k := rfl
@[simp] theorem with_shadow_get_cache (x : SMap Shadow) (k : Nat) : (State.cache { s with shadow := x } k) = s.cache k := rfl
@[simp] theorem with_shadow_get_cal (x : SMap Shadow) (k : Bool) : (State.cal { s with shadow := x } k) = s.cal k := rfl
@[simp] theorem with_shadow_get_vword (x : SMap Shadow) (k : Nat) : (State.vword { s with shadow := x } k) = s.vword k := rfl
@[simp] theorem with_shadow_get_byte (x : SMap Shadow) (k : Nat) : (State.byte { s with shadow := x } k) = s.byte k := rfl

@[simp] theorem ctx_setCtx_self (n : Nat) (v : Ctx) : (s.setCtx n v).ctx n = v := SMap.get_set_self _ _ _ _
theorem ctx_setCtx_ne {n k : Nat} (v : Ctx) (h : k ≠ n) : (s.setCtx n v).ctx k = s.ctx k := SMap.get_set_ne _ _ _ h
@[simp] theorem core_setCore_self (n : Nat) (v : Core) : (s.setCore n v).core n = v := SMap.get_set_self _ _ _ _
theorem core_setCore_ne {n k : Nat} (v : Core) (h : k ≠ n) : (s.setCore n v).core k = s.core k := SMap.get_set_ne _ _ _ h
@[simp] theorem cluster_setCluster_self (n : Nat) (v : Cluster) : (s.setCluster n v).cluster n = v := SMap.get_set_self _ _ _ _
theorem cluster_setCluster_ne {n k : Nat} (v : Cluster) (h : k ≠ n) : (s.setCluster n v).cluster k = s.cluster k := SMap.get_set_ne _ _ _ h
@[simp] theorem vf_setVf_self (n : Nat) (v : Vf) : (s.setVf n v).vf n = v := SMap.get_set_self _ _ _ _
theorem vf_setVf_ne {n k : Nat} (v : Vf) (h : k ≠ n) : (s.setVf n v).vf k = s.vf k := SMap.get_set_ne _ _ _ h
@[simp] theorem port_setPort_self (n : Nat) (v : Port) : (s.setPort n v).port n = v := SMap.get_set_self _ _ _ _
theorem port_setPort_ne {n k : Nat} (v : Port) (h : k ≠ n) : (s.setPort n v).port k = s.port k := SMap.get_set_ne _ _ _ h
@[simp] theorem cache_setCache_self (n : Nat) (v : Cache) : (s.setCache n v).cache n = v := SMap.get_set_self _ _ _ _
theorem cache_setCache_ne {n k : Nat} (v : Cache) (h : k ≠ n) : (s.setCache n v).cache k = s.cache k := SMap.get_set_ne _ _ _ h
@[simp] theorem cal_setCal_self (n : Bool) (v : Cal) : (s.setCal n v).cal n = v := SMap.get_set_self _ _ _ _

@[simp] theorem setCtx_setCtx (n : Nat) (v w : Ctx) : (s.setCtx n v).setCtx n w = s.setCtx n w := by
  simp [setCtx]
@[simp] theorem setCore_setCore (n : Nat) (v w : Core) : (s.setCore n v).setCore n w = s.setCore n w := by
  simp [setCore]
@[simp] theorem setCluster_setCluster (n : Nat) (v w : Cluster) : (s.setCluster n v).setCluster n w = s.setCluster n w := by
  simp [setCluster]
@[simp] theorem setVf_setVf (n : Nat) (v w : Vf) : (s.setVf n v).setVf n w = s.setVf n w := by
  simp [setVf]
@[simp] theorem setPort_setPort (n : Nat) (v w : Port) : (s.setPort n v).setPort n w = s.setPort n w := by
  simp [setPort]
@[simp] theorem setCache_setCache (n : Nat) (v w : Cache) : (s.setCache n v).setCache n w = s.setCache n w := by
  simp [setCache]

end State

/-! ### Registers of a context -/

@[simp] theorem Ctx.rd_zero (c : Ctx) : c.rd 0 = 0 := rfl

@[simp] theorem Ctx.wr_zero (c : Ctx) (v : Word) : c.wr 0 v = c := rfl

theorem Ctx.rd_wr_self (c : Ctx) {r : XReg} (v : Word) (h : r ≠ 0) : (c.wr r v).rd r = v := by
  unfold Ctx.wr Ctx.rd
  rw [if_neg h, if_neg h]
  exact SMap.get_set_self _ _ _ _

theorem Ctx.rd_wr_ne (c : Ctx) {r q : XReg} (v : Word) (h : q ≠ r) : (c.wr r v).rd q = c.rd q := by
  have hn : q.toNat ≠ r.toNat := fun e => h (BitVec.eq_of_toNat_eq e)
  unfold Ctx.wr
  split
  · rfl
  · unfold Ctx.rd
    split
    · rfl
    · exact SMap.get_set_ne _ _ _ hn

@[simp] theorem Ctx.wr_pc (c : Ctx) (r : XReg) (v : Word) : (c.wr r v).pc = c.pc := by unfold Ctx.wr; split <;> rfl
@[simp] theorem Ctx.wr_q1 (c : Ctx) (r : XReg) (v : Word) : (c.wr r v).q1 = c.q1 := by unfold Ctx.wr; split <;> rfl
@[simp] theorem Ctx.wr_q2 (c : Ctx) (r : XReg) (v : Word) : (c.wr r v).q2 = c.q2 := by unfold Ctx.wr; split <;> rfl
@[simp] theorem Ctx.wr_a1 (c : Ctx) (r : XReg) (v : Word) : (c.wr r v).a1 = c.a1 := by unfold Ctx.wr; split <;> rfl
@[simp] theorem Ctx.wr_a2 (c : Ctx) (r : XReg) (v : Word) : (c.wr r v).a2 = c.a2 := by unfold Ctx.wr; split <;> rfl
@[simp] theorem Ctx.wr_sup (c : Ctx) (r : XReg) (v : Word) : (c.wr r v).sup = c.sup := by unfold Ctx.wr; split <;> rfl
@[simp] theorem Ctx.wr_run (c : Ctx) (r : XReg) (v : Word) : (c.wr r v).run = c.run := by unfold Ctx.wr; split <;> rfl
@[simp] theorem Ctx.wr_wait (c : Ctx) (r : XReg) (v : Word) : (c.wr r v).wait = c.wait := by unfold Ctx.wr; split <;> rfl
@[simp] theorem Ctx.wr_pwait (c : Ctx) (r : XReg) (v : Word) : (c.wr r v).pwait = c.pwait := by unfold Ctx.wr; split <;> rfl
@[simp] theorem Ctx.wr_saved (c : Ctx) (r : XReg) (v : Word) : (c.wr r v).saved = c.saved := by unfold Ctx.wr; split <;> rfl
@[simp] theorem Ctx.wr_pend (c : Ctx) (r : XReg) (v : Word) : (c.wr r v).pend = c.pend := by unfold Ctx.wr; split <;> rfl
@[simp] theorem Ctx.wr_sb (c : Ctx) (r : XReg) (v : Word) : (c.wr r v).sb = c.sb := by unfold Ctx.wr; split <;> rfl
@[simp] theorem Ctx.wr_cpois (c : Ctx) (r : XReg) (v : Word) : (c.wr r v).cpois = c.cpois := by unfold Ctx.wr; split <;> rfl
@[simp] theorem Ctx.wr_csr (c : Ctx) (r : XReg) (v : Word) : (c.wr r v).csr = c.csr := by unfold Ctx.wr; split <;> rfl
@[simp] theorem Ctx.wr_recvq (c : Ctx) (r : XReg) (v : Word) : (c.wr r v).recvq = c.recvq := by unfold Ctx.wr; split <;> rfl
@[simp] theorem Ctx.wr_slot (c : Ctx) (r : XReg) (v : Word) : (c.wr r v).slot = c.slot := by unfold Ctx.wr; split <;> rfl
@[simp] theorem Ctx.wr_spilled (c : Ctx) (r : XReg) (v : Word) : (c.wr r v).spilled = c.spilled := by unfold Ctx.wr; split <;> rfl
@[simp] theorem Ctx.wr_latch (c : Ctx) (r : XReg) (v : Word) : (c.wr r v).latch = c.latch := by unfold Ctx.wr; split <;> rfl
@[simp] theorem Ctx.wr_due (c : Ctx) (r : XReg) (v : Word) : (c.wr r v).due = c.due := by unfold Ctx.wr; split <;> rfl
@[simp] theorem Ctx.wr_later (c : Ctx) (r : XReg) (v : Word) : (c.wr r v).later = c.later := by unfold Ctx.wr; split <;> rfl
@[simp] theorem Ctx.wr_held (c : Ctx) (r : XReg) (v : Word) : (c.wr r v).held = c.held := by unfold Ctx.wr; split <;> rfl
@[simp] theorem Ctx.wr_ask (c : Ctx) (r : XReg) (v : Word) : (c.wr r v).ask = c.ask := by unfold Ctx.wr; split <;> rfl

/-! ### CSRs -/

@[simp] theorem Ctx.csrGet_csrSet_self (vent : Bool) (c : Ctx) (n : Nat) (v : Word) :
    (c.csrSet vent n v).csrGet vent n = v := SMap.get_set_self _ _ _ _
theorem Ctx.csrGet_csrSet_ne (vent : Bool) (c : Ctx) {n k : Nat} (v : Word) (h : k ≠ n) :
    (c.csrSet vent n v).csrGet vent k = c.csrGet vent k := SMap.get_set_ne _ _ _ h
@[simp] theorem Core.csrGet_csrSet_self (c : Core) (n : Nat) (v : Word) : (c.csrSet n v).csrGet n = v :=
  SMap.get_set_self _ _ _ _
theorem Core.csrGet_csrSet_ne (c : Core) {n k : Nat} (v : Word) (h : k ≠ n) :
    (c.csrSet n v).csrGet k = c.csrGet k := SMap.get_set_ne _ _ _ h
@[simp] theorem Ctx.csrSet_x (vent : Bool) (c : Ctx) (n : Nat) (v : Word) : (c.csrSet vent n v).x = c.x := rfl
@[simp] theorem Ctx.csrSet_xpois (vent : Bool) (c : Ctx) (n : Nat) (v : Word) : (c.csrSet vent n v).xpois = c.xpois := rfl
@[simp] theorem Ctx.csrSet_pc (vent : Bool) (c : Ctx) (n : Nat) (v : Word) : (c.csrSet vent n v).pc = c.pc := rfl
@[simp] theorem Ctx.csrSet_q1 (vent : Bool) (c : Ctx) (n : Nat) (v : Word) : (c.csrSet vent n v).q1 = c.q1 := rfl
@[simp] theorem Ctx.csrSet_q2 (vent : Bool) (c : Ctx) (n : Nat) (v : Word) : (c.csrSet vent n v).q2 = c.q2 := rfl
@[simp] theorem Ctx.csrSet_a1 (vent : Bool) (c : Ctx) (n : Nat) (v : Word) : (c.csrSet vent n v).a1 = c.a1 := rfl
@[simp] theorem Ctx.csrSet_a2 (vent : Bool) (c : Ctx) (n : Nat) (v : Word) : (c.csrSet vent n v).a2 = c.a2 := rfl
@[simp] theorem Ctx.csrSet_sup (vent : Bool) (c : Ctx) (n : Nat) (v : Word) : (c.csrSet vent n v).sup = c.sup := rfl
@[simp] theorem Ctx.csrSet_run (vent : Bool) (c : Ctx) (n : Nat) (v : Word) : (c.csrSet vent n v).run = c.run := rfl
@[simp] theorem Ctx.csrSet_wait (vent : Bool) (c : Ctx) (n : Nat) (v : Word) : (c.csrSet vent n v).wait = c.wait := rfl
@[simp] theorem Ctx.csrSet_pwait (vent : Bool) (c : Ctx) (n : Nat) (v : Word) : (c.csrSet vent n v).pwait = c.pwait := rfl
@[simp] theorem Ctx.csrSet_saved (vent : Bool) (c : Ctx) (n : Nat) (v : Word) : (c.csrSet vent n v).saved = c.saved := rfl
@[simp] theorem Ctx.csrSet_pend (vent : Bool) (c : Ctx) (n : Nat) (v : Word) : (c.csrSet vent n v).pend = c.pend := rfl
@[simp] theorem Ctx.csrSet_sb (vent : Bool) (c : Ctx) (n : Nat) (v : Word) : (c.csrSet vent n v).sb = c.sb := rfl
@[simp] theorem Ctx.csrSet_recvq (vent : Bool) (c : Ctx) (n : Nat) (v : Word) : (c.csrSet vent n v).recvq = c.recvq := rfl
@[simp] theorem Ctx.csrSet_slot (vent : Bool) (c : Ctx) (n : Nat) (v : Word) : (c.csrSet vent n v).slot = c.slot := rfl
@[simp] theorem Ctx.csrSet_spilled (vent : Bool) (c : Ctx) (n : Nat) (v : Word) : (c.csrSet vent n v).spilled = c.spilled := rfl
@[simp] theorem Ctx.csrSet_latch (vent : Bool) (c : Ctx) (n : Nat) (v : Word) : (c.csrSet vent n v).latch = c.latch := rfl
@[simp] theorem Ctx.csrSet_due (vent : Bool) (c : Ctx) (n : Nat) (v : Word) : (c.csrSet vent n v).due = c.due := rfl
@[simp] theorem Ctx.csrSet_later (vent : Bool) (c : Ctx) (n : Nat) (v : Word) : (c.csrSet vent n v).later = c.later := rfl
@[simp] theorem Ctx.csrSet_held (vent : Bool) (c : Ctx) (n : Nat) (v : Word) : (c.csrSet vent n v).held = c.held := rfl
@[simp] theorem Ctx.csrSet_ask (vent : Bool) (c : Ctx) (n : Nat) (v : Word) : (c.csrSet vent n v).ask = c.ask := rfl
@[simp] theorem Core.csrSet_vpois (c : Core) (n : Nat) (v : Word) : (c.csrSet n v).vpois = c.vpois := rfl
@[simp] theorem Core.csrSet_tpois (c : Core) (n : Nat) (v : Word) : (c.csrSet n v).tpois = c.tpois := rfl
@[simp] theorem Core.csrSet_v (c : Core) (n : Nat) (v : Word) : (c.csrSet n v).v = c.v := rfl
@[simp] theorem Core.csrSet_t (c : Core) (n : Nat) (v : Word) : (c.csrSet n v).t = c.t := rfl
@[simp] theorem Core.csrSet_vq (c : Core) (n : Nat) (v : Word) : (c.csrSet n v).vq = c.vq := rfl
@[simp] theorem Core.csrSet_win (c : Core) (n : Nat) (v : Word) : (c.csrSet n v).win = c.win := rfl
@[simp] theorem Core.csrSet_fresh (c : Core) (n : Nat) (v : Word) : (c.csrSet n v).fresh = c.fresh := rfl
@[simp] theorem Core.csrSet_rules (c : Core) (n : Nat) (v : Word) : (c.csrSet n v).rules = c.rules := rfl
@[simp] theorem Core.csrSet_dwell (c : Core) (n : Nat) (v : Word) : (c.csrSet n v).dwell = c.dwell := rfl
@[simp] theorem Core.csrSet_task (c : Core) (n : Nat) (v : Word) : (c.csrSet n v).task = c.task := rfl
@[simp] theorem Core.csrSet_cq (c : Core) (n : Nat) (v : Word) : (c.csrSet n v).cq = c.cq := rfl
@[simp] theorem Core.csrSet_locks (c : Core) (n : Nat) (v : Word) : (c.csrSet n v).locks = c.locks := rfl
@[simp] theorem Core.csrSet_stash (c : Core) (n : Nat) (v : Word) : (c.csrSet n v).stash = c.stash := rfl
@[simp] theorem Core.csrSet_sect (c : Core) (n : Nat) (v : Word) : (c.csrSet n v).sect = c.sect := rfl
@[simp] theorem Core.csrSet_deque (c : Core) (n : Nat) (v : Word) : (c.csrSet n v).deque = c.deque := rfl
@[simp] theorem Core.csrSet_sliceInt (c : Core) (n : Nat) (v : Word) : (c.csrSet n v).sliceInt = c.sliceInt := rfl
@[simp] theorem Core.csrSet_hostInt (c : Core) (n : Nat) (v : Word) : (c.csrSet n v).hostInt = c.hostInt := rfl
@[simp] theorem Core.csrSet_pmap (c : Core) (n : Nat) (v : Word) : (c.csrSet n v).pmap = c.pmap := rfl
@[simp] theorem Core.csrSet_l1 (c : Core) (n : Nat) (v : Word) : (c.csrSet n v).l1 = c.l1 := rfl
@[simp] theorem Core.csrSet_asid (c : Core) (n : Nat) (v : Word) : (c.csrSet n v).asid = c.asid := rfl
@[simp] theorem Core.csrSet_last (c : Core) (n : Nat) (v : Word) : (c.csrSet n v).last = c.last := rfl

end Sys2Proof.Machine
end

