-- ==== Sys2Proof/Laws/Ops.lean ====
section
/-!
SUPPORT. What the shared operations do when a program runs: one law for each, so that no proof about an instruction unfolds them.
-/

namespace Sys2Proof.Machine

open M

variable (s0 s : State)

/-! ### Programs -/

@[simp] theorem run_done : P.run s0 .done s = s := rfl
@[simp] theorem run_updP (u : Upd) (k : P) : P.run s0 (.upd u k) s = P.run s0 k (u.apply s) := rfl
@[simp] theorem run_getP (k : State → P) : P.run s0 (.get k) s = P.run s0 (k s) s := rfl
@[simp] theorem run_abort (k : P) : P.run s0 (.abort k) s = P.run s0 k s0 := rfl

@[simp] theorem pure_apply {α : Type} (a : α) (k : α → P) : (pure a : M α) k = k a := rfl
@[simp] theorem bind_apply {α β : Type} (m : M α) (f : α → M β) (k : β → P) : (m >>= f) k = m fun a => f a k := rfl

@[simp] theorem get_apply (k : State → P) : M.get k = .get k := rfl
@[simp] theorem upd_apply (u : Upd) (k : Unit → P) : M.upd u k = .upd u (k ()) := rfl
@[simp] theorem stop_apply {α : Type} (p : M Unit) (k : α → P) : (M.stop p : M α) k = .abort (p fun _ => .done) := rfl
@[simp] theorem stall_apply {α : Type} (k : α → P) : (M.stall : M α) k = .abort .done := rfl
@[simp] theorem halt_apply {α : Type} (k : α → P) : (M.halt : M α) k = .done := rfl

/-- The choice between two programs under one condition. -/
@[simp] theorem ite_apply {α : Type} (c : Prop) [Decidable c] (a b : M α) (k : α → P) :
    (if c then a else b) k = if c then a k else b k := by split <;> rfl

/-! ### Operands -/

theorem run_me (k : Ctx → P) : P.run s0 (me k) s = P.run s0 (k s.me) s := rfl
theorem run_meId (k : Nat → P) : P.run s0 (meId k) s = P.run s0 (k s.dev.cur) s := rfl
theorem run_meCore (k : Nat → P) : P.run s0 (meCore k) s = P.run s0 (k (coreOf s.dev.cur)) s := rfl
theorem run_myCore (k : Core → P) : P.run s0 (myCore k) s = P.run s0 (k s.myCore) s := rfl

theorem run_updMe (f : Ctx → Ctx) (k : Unit → P) : P.run s0 (updMe f k) s = P.run s0 (k ()) (s.withMe f) := rfl
theorem run_updMyCore (f : Core → Core) (k : Unit → P) :
    P.run s0 (updMyCore f k) s = P.run s0 (k ()) (s.withMyCore f) := rfl

/-- A register is read when it can be. -/
theorem run_rx {r : XReg} (h : s.readable r) (k : Word → P) : P.run s0 (rx r k) s = P.run s0 (k (s.x r)) s := by
  obtain ⟨hb, hp⟩ := h
  show P.run s0 ((if s.me.busy r then stall else if s.me.bad r then raise POISON 0 else pure (s.me.rd r) : M Word) k) s = _
  simp [hb, hp, State.x]

/-- An s2 operand is read when it can be. -/
theorem run_s2Val {o : S2} (h : s.s2Readable o) (k : Word → P) : P.run s0 (s2Val o k) s = P.run s0 (k (s.s2 o)) s := by
  cases o with
  | reg r => exact run_rx s0 s h k
  | con c => rfl

/-- A register is written. -/
theorem run_wx (r : XReg) (v : Word) (k : Unit → P) : P.run s0 (wx r v k) s = P.run s0 (k ()) (s.wrote r v) := by
  show P.run s0 ((if s.me.busy r then (meId >>= fun id => updMyCore (Core.overtake id r .passed) >>= fun _ => updMe (Ctx.wrOver r v))
    else updMe fun c => c.wr r v : M Unit) k) s = _
  by_cases h : s.me.busy r <;> simp [h, State.wrote, run_updMe, run_meId, run_updMyCore, -bind_pure_comp]

/-- The end of an instruction. -/
theorem run_retireM (f : Fin) (k : Unit → P) : P.run s0 (retireM f k) s = P.run s0 (k ()) (s.retired f) := rfl

/-- A meaning that ends with a `Fin` retires with it. -/
theorem run_instr (m : M Fin) : instr m s = .next (P.run s (m fun f => retireM f fun _ => .done) s) := rfl

theorem run_event (m : M Unit) : event m s = .next (P.run s (m fun _ => .done) s) := rfl

/-- A cause drops what its instruction has done (R426); no tile instruction waits in front of it (R297). -/
theorem run_raise {α : Type} (code : BitVec 8) (val : Word) (h : s.noTiles) (k : α → P) :
    P.run s (raise code val k) s = s.took { code := code, val := val } := by
  have h' : (s.core (coreOf s.dev.cur)).win = [] := h
  simp [raise, raiseInfo, drainTiles, h', Core.tilesPending, State.took]

/-! ### Waiting for earlier instructions -/

/-- With no tile instruction in the window there is nothing to flush. -/
theorem run_flushWindow (h : s.noTiles) (k : Unit → P) : P.run s0 (flushWindow k) s = P.run s0 (k ()) s := by
  have h' : (s.core (coreOf s.dev.cur)).win = [] := h
  simp [flushWindow, h']

/-- And nothing to drain. -/
theorem run_drainTiles (h : s.noTiles) (k : Unit → P) : P.run s0 (drainTiles k) s = P.run s0 (k ()) s := by
  have h' : (s.core (coreOf s.dev.cur)).win = [] := h
  simp [drainTiles, h', Core.tilesPending]

/-- With no vector access queued there is nothing to wait for. -/
theorem run_drainVec (h : (s.myCore.vq.any fun e => e.ctx == s.dev.cur && isVmem e.instr) = false) (k : Unit → P) :
    P.run s0 (drainVec k) s = P.run s0 (k ()) s := by
  show P.run s0 ((if s.myCore.vq.any (fun e => e.ctx == s.dev.cur && isVmem e.instr) then stall else pure () : M Unit) k) s = _
  rw [h]
  rfl

/-- A fence with nothing to wait for changes nothing. -/
theorem run_fenceAll (h : s.fenced) (k : Unit → P) : P.run s0 (fenceAll k) s = P.run s0 (k ()) s := by
  simp only [fenceAll, bind_apply]
  rw [run_flushWindow s0 s h.1, run_drainTiles s0 s h.1, run_drainVec s0 s h.2]

/-- A store reads nothing ahead when no tile instruction waits (R104). -/
theorem run_readAhead (h : s.noTiles) (k : Unit → P) : P.run s0 (readAhead k) s = P.run s0 (k ()) s := by
  have h' : (s.core (coreOf s.dev.cur)).win = [] := h
  simp [readAhead, h']

/-- And a local access has no tile instruction's range to wait for (R296). -/
theorem run_tileOrder (h : s.noTiles) (owner off n : Nat) (k : Unit → P) :
    P.run s0 (tileOrder owner off n k) s = P.run s0 (k ()) s := by
  have h' : (s.core (coreOf s.dev.cur)).win = [] := h
  by_cases e : owner = coreOf s.dev.cur
  · simp [tileOrder, Core.tileOverlaps, e, h']
  · simp [tileOrder, e]

/-- A CSR without a mark may be used (R390). -/
theorem run_useCsr {n : Nat} (h : s.csrBad s.dev.cur n = false) (k : Unit → P) : P.run s0 (useCsr n k) s = P.run s0 (k ()) s := by
  simp [useCsr, h]

/-- Bytes under no lock may be accessed (R117). -/
theorem run_lockCheck {c off n : Nat} {wr : Bool} {va : Word} (h : (s.core c).locked false off n wr = none) (k : Unit → P) :
    P.run s0 (lockCheck c off n wr va k) s = P.run s0 (k ()) s := by
  simp [lockCheck, h]

/-- An access of a context with nothing queued reaches the local bytes that its window gives, when no register that decides the window is
marked and no lock covers them (R213). -/
theorem run_locate {use : Use} {va : Word} {n c o : Nat} (f : s.fenced) (b : s.windowBad s.dev.cur va.toNat = false)
    (w : s.window s.dev.cur use va.toNat n = .ok (some (.lm c o))) (l : (s.core c).locked false o n use.writes = none) (k : Acc → P) :
    P.run s0 (locate use va n k) s = P.run s0 (k ⟨va, .lm c o, 0, false⟩) s := by
  have a := run_readAhead s0 s f.1
  have v := run_drainVec s0 s f.2
  have o := run_tileOrder s0 s f.1 c o n
  have c := fun k => run_lockCheck s0 s (va := va) l k
  cases use <;> simp only [Use.writes] at c <;> simp [locate, vecOrder, Use.writes, a, v, o, c, b, w, -bind_pure_comp]

/-- An access to a page without RD, or to a versioned word, makes no RaceStep (R91, R121). -/
theorem run_raceOf {b : By} {a : Acc} (h : s.raceLoc (s.tenOf (coreOf b.id)) a = none) (n : Nat) (store : Bool) (k : Option Shadow × M Unit → P) :
    P.run s0 (raceOf b a n store k) s = P.run s0 (k (none, pure ())) s := by
  simp [raceOf, h]

/-! ### What a parent keeps when siblings merge (R25, R26) -/

@[simp] theorem Part.joined_st (a b : Part) : (a.joined b).st = a.st := rfl
@[simp] theorem Part.joined_ten (a b : Part) : (a.joined b).ten = a.ten := rfl
@[simp] theorem Part.joined_ebudget (a b : Part) : (a.joined b).ebudget = a.ebudget := rfl
@[simp] theorem Part.joined_erem (a b : Part) : (a.joined b).erem = a.erem := rfl
@[simp] theorem Part.joined_meter (a b : Part) : (a.joined b).meter = a.meter := rfl
@[simp] theorem Part.joined_futlog (a b : Part) : (a.joined b).futlog = a.futlog := rfl
@[simp] theorem Part.joined_futbase (a b : Part) : (a.joined b).futbase = a.futbase := rfl
@[simp] theorem Part.joined_pool (a b : Part) : (a.joined b).pool = a.pool := rfl
@[simp] theorem Part.joined_armed (a b : Part) : (a.joined b).armed = a.armed := rfl
@[simp] theorem Part.joined_held (a b : Part) : (a.joined b).held = a.held := rfl
@[simp] theorem Part.joined_placing (a b : Part) : (a.joined b).placing = a.placing := rfl
@[simp] theorem Part.joined_intv (a b : Part) : (a.joined b).intv = a.intv := rfl
@[simp] theorem Part.joined_rdctl (a b : Part) : (a.joined b).rdctl = a.rdctl := rfl
@[simp] theorem Part.joined_raceLog (a b : Part) : (a.joined b).raceLog = a.raceLog := rfl
@[simp] theorem Part.joined_raceSeq (a b : Part) : (a.joined b).raceSeq = a.raceSeq := rfl
@[simp] theorem Part.joined_slice (a b : Part) : (a.joined b).slice = a.slice := rfl
@[simp] theorem Part.joined_sliceLeft (a b : Part) : (a.joined b).sliceLeft = a.sliceLeft := rfl
@[simp] theorem Part.joined_wd (a b : Part) : (a.joined b).wd = a.wd := rfl
@[simp] theorem Part.joined_dead (a b : Part) : (a.joined b).dead = a.dead := rfl

end Sys2Proof.Machine
end

