-- ==== Sys2Proof/Tests/Slice0.lean ====
section
/-!
SUPPORT. Tests: what WellFormed refuses; words written out from the encodings of the spec and what they decode to; small steps; and
a state and operands for the hypotheses of each statement.
-/

namespace Sys2Proof.Tests

open Sys2Proof Sys2Proof.Machine
set_option Elab.async false

/-! ### Ill-formed terms (one for each check of WellFormed) -/

/-- A packet whose LEN names a beat that its payload lacks. -/
def shortPkt : Packet :=
  { dend := 0, addr := 0, tag := 0, len := 1, prio := 0, ten := 0, sinc := 0, spkg := 0, dpkg := 0, kind := 1, payload := [], seq := 0,
    ack := 0, ackv := false, poison := false, crc := 0 }

theorem test_illFormed_csrr : Instr.wellFormed (.csrr 1 0x003) = false := by decide
theorem test_illFormed_csrw : Instr.wellFormed (.csrw 0 1 0x020) = false := by decide
theorem test_illFormed_csrs : Instr.wellFormed (.csrs 0 1 0x408) = false := by decide
theorem test_illFormed_csrc : Instr.wellFormed (.csrc 0 1 0xC08) = false := by decide
theorem test_illFormed_ctxrd : Instr.wellFormed (.ctxrd 1 2 0x085) = false := by decide
theorem test_illFormed_ctxwr : Instr.wellFormed (.ctxwr 1 2 0x020) = false := by decide
theorem test_illFormed_vcvt : Instr.wellFormed (.vcvt 2 2 false 1 1) = false := by decide
theorem test_illFormed_launch : Instr.wellFormed (.launch 65) = false := by decide
theorem test_illFormed_drain : Instr.wellFormed (.drain 65) = false := by decide
theorem test_illFormed_resume : Instr.wellFormed (.resume 65) = false := by decide
theorem test_illFormed_discard : Instr.wellFormed (.discard 65) = false := by decide
theorem test_illFormed_split : Instr.wellFormed (.split 65) = false := by decide
theorem test_illFormed_merge : Instr.wellFormed (.merge 65) = false := by decide
theorem test_illFormed_release : Instr.wellFormed (.release 65) = false := by decide
theorem test_illFormed_loadlm : Instr.wellFormed (.loadlm 65) = false := by decide
theorem test_illFormed_loadcsr : Instr.wellFormed (.loadcsr 65) = false := by decide
theorem test_illFormed_setslice : Instr.wellFormed (.setslice 65) = false := by decide
theorem test_illFormed_setprio : Instr.wellFormed (.setprio 65) = false := by decide
theorem test_illFormed_setrdctl : Instr.wellFormed (.setrdctl 65) = false := by decide
theorem test_illFormed_interrupt : Instr.wellFormed (.interrupt 65) = false := by decide
theorem test_illFormed_assign : Instr.wellFormed (.assign 65) = false := by decide
theorem test_illFormed_reclaim : Instr.wellFormed (.reclaim 65) = false := by decide
theorem test_illFormed_portset : Instr.wellFormed (.portset 65) = false := by decide
theorem test_illFormed_vfpause : Instr.wellFormed (.vfpause 65) = false := by decide
theorem test_illFormed_vfresume : Instr.wellFormed (.vfresume 65) = false := by decide
theorem test_illFormed_attcmdGo : Instr.wellFormed (.attcmdGo 65) = false := by decide
theorem test_illFormed_attestationReportDone : Instr.wellFormed (.attestationReportDone 65) = false := by decide
theorem test_illFormed_cmdstatLostClear : Instr.wellFormed (.cmdstatLostClear 65) = false := by decide
theorem test_illFormed_hndropClear : Instr.wellFormed (.hndropClear 65) = false := by decide
theorem test_illFormed_postWindowWrite : Instr.wellFormed (.postWindowWrite 65 0 64 0) = false := by decide
theorem test_illFormed_registerWrite : Instr.wellFormed (.registerWrite 65 (.bar0 0) 0) = false := by decide
theorem test_illFormed_hostApertureAccess : Instr.wellFormed (.hostApertureAccess 65 (.read 0 8)) = false := by decide
theorem test_illFormed_wdlimWrite : Instr.wellFormed (.wdlimWrite 64 0) = false := by decide
theorem test_illFormed_functionLevelReset : Instr.wellFormed (.functionLevelReset 64) = false := by decide
theorem test_illFormed_stage2Unmapping : Instr.wellFormed (.stage2Unmapping 0 8388608) = false := by decide
theorem test_illFormed_deviceReset : Instr.wellFormed (.deviceReset ⟨0, 0, 0, [], 0, 1⟩) = false := by decide
theorem test_illFormed_linkTrainingComplete : Instr.wellFormed (.linkTrainingComplete 36 0 0) = false := by decide
theorem test_illFormed_linkControl : Instr.wellFormed (.linkControl 0 shortPkt) = false := by decide
theorem test_illFormed_lineReadRequest : Instr.wellFormed (.lineReadRequest 0 shortPkt) = false := by decide
theorem test_illFormed_lineDataResponse : Instr.wellFormed (.lineDataResponse 0 shortPkt) = false := by decide
theorem test_illFormed_lineWriteBack : Instr.wellFormed (.lineWriteBack 0 shortPkt) = false := by decide
theorem test_illFormed_writeAcknowledgement : Instr.wellFormed (.writeAcknowledgement 0 shortPkt) = false := by decide
theorem test_illFormed_probe : Instr.wellFormed (.probe 0 shortPkt) = false := by decide
theorem test_illFormed_probeResponse : Instr.wellFormed (.probeResponse 0 shortPkt) = false := by decide
theorem test_illFormed_farAtomic : Instr.wellFormed (.farAtomic 0 shortPkt) = false := by decide
theorem test_illFormed_atomicResponse : Instr.wellFormed (.atomicResponse 0 shortPkt) = false := by decide
theorem test_illFormed_calderaAccess : Instr.wellFormed (.calderaAccess 0 shortPkt) = false := by decide
theorem test_illFormed_calderaResponse : Instr.wellFormed (.calderaResponse 0 shortPkt) = false := by decide
theorem test_illFormed_groupBarrier : Instr.wellFormed (.groupBarrier 0 shortPkt) = false := by decide
theorem test_illFormed_translationInvalidation : Instr.wellFormed (.translationInvalidation 0 shortPkt) = false := by decide
theorem test_illFormed_translationInvalidationAck : Instr.wellFormed (.translationInvalidationAck 0 shortPkt) = false := by decide
theorem test_illFormed_scrubInvalidation : Instr.wellFormed (.scrubInvalidation 0 shortPkt) = false := by decide
theorem test_illFormed_multicastReplication : Instr.wellFormed (.multicastReplication false shortPkt) = false := by decide
theorem test_illFormed_linkReplayTimeout : Instr.wellFormed (.linkReplayTimeout 36) = false := by decide
theorem test_illFormed_linkPortDown : Instr.wellFormed (.linkPortDown 36) = false := by decide
theorem test_illFormed_badCrcPacket : Instr.wellFormed (.badCrcPacket 36) = false := by decide
theorem test_illFormed_peerLost : Instr.wellFormed (.peerLost 16) = false := by decide
theorem test_illFormed_calderaDieLost : Instr.wellFormed (.calderaDieLost 16 false) = false := by decide
theorem test_illFormed_sliceTimerExpiry : Instr.wellFormed (.sliceTimerExpiry 0) = false := by decide
theorem test_illFormed_energyMeterUpdate : Instr.wellFormed (.energyMeterUpdate 0) = false := by decide
theorem test_illFormed_energyBudgetExhausted : Instr.wellFormed (.energyBudgetExhausted 0) = false := by decide
theorem test_illFormed_watchdogExpiry : Instr.wellFormed (.watchdogExpiry 0) = false := by decide
theorem test_illFormed_superstepBoundary : Instr.wellFormed (.superstepBoundary 0) = false := by decide
theorem test_illFormed_quiescenceDetected : Instr.wellFormed (.quiescenceDetected 0) = false := by decide
theorem test_illFormed_mailboxPost : Instr.wellFormed (.mailboxPost 0) = false := by decide
theorem test_illFormed_mpcHalving : Instr.wellFormed (.mpcHalving 388) = false := by decide
theorem test_illFormed_dwellFlush : Instr.wellFormed (.dwellFlush 4480) = false := by decide
theorem test_illFormed_dispatch : Instr.wellFormed (.dispatch 4480) = false := by decide
theorem test_illFormed_interruptTaken : Instr.wellFormed (.interruptTaken 4480) = false := by decide
theorem test_illFormed_tileStart : Instr.wellFormed (.tileStart 4480) = false := by decide
theorem test_illFormed_tileRetire : Instr.wellFormed (.tileRetire 4480) = false := by decide
theorem test_illFormed_vectorRetire : Instr.wellFormed (.vectorRetire 4480) = false := by decide
theorem test_illFormed_ventDispatch : Instr.wellFormed (.ventDispatch 4095) = false := by decide
theorem test_illFormed_portPublish : Instr.wellFormed (.portPublish 1024) = false := by decide

/-! ### Decoding (words written out from the spec's encodings) -/

/-- R194: the worked encoding 0CF06303. -/
theorem test_decode_addi : decode 0b00001100111100000110001100000011#32 = .ok (.addi 6 6 0x678) := by decide
/-- R195: the worked encoding 12345304. -/
theorem test_decode_lui : decode 0b00010010001101000101001100000100#32 = .ok (.lui 6 0x12345) := by decide
/-- R196: the worked encoding FD502906. -/
theorem test_decode_blt : decode 0b11111101010100000010100100000110#32 = .ok (.blt false 5 (.con 16) 0x1FA) := by decide
/-- R216: the worked encoding 0204A289. -/
theorem test_decode_lw : decode 0b00000010000001001010001010001001#32 = .ok (.lw 5 10 2 0) := by decide
/-- R217: the worked encoding 0006208A. -/
theorem test_decode_sd : decode 0b00000000000001100010000010001010#32 = .ok (.sd 1 2 0 0) := by decide
/-- R218: the worked encoding 1882310B. -/
theorem test_decode_ldv : decode 0b00011000100000100011000100001011#32 = .ok (.ldv .die 2 3 (.con 1)) := by decide
/-- R219: the worked encoding 1982308B. -/
theorem test_decode_stv : decode 0b00011001100000100011000010001011#32 = .ok (.stv .die 1 3 (.con 1)) := by decide
/-- R220: the worked encoding 020A320B. -/
theorem test_decode_rclm : decode 0b00000010000010100011001000001011#32 = .ok (.rclm 4 3 (.reg 5)) := by decide
/-- R223: the worked encoding 0088300D. -/
theorem test_decode_redAdd : decode 0b00000000100010000011000000001101#32 = .ok (.redAdd true 3 4) := by decide
/-- R223: the worked encoding 2108300D. -/
theorem test_decode_redMin : decode 0b00100001000010000011000000001101#32 = .ok (.redMin true false 3 4) := by decide
/-- R225: the worked encoding 2000400E. -/
theorem test_decode_cwb : decode 0b00100000000000000100000000001110#32 = .ok (.cwb 4 0) := by decide
/-- R226: the worked encoding 6080430E. -/
theorem test_decode_cpf : decode 0b01100000100000000100001100001110#32 = .ok (.cpf 4 64 6) := by decide
/-- R227: the worked encoding 0006800F. -/
theorem test_decode_smap : decode 0b00000000000001101000000000001111#32 = .ok (.smap 8 3) := by decide
/-- R228: the worked encoding 2006000F. -/
theorem test_decode_sunmap : decode 0b00100000000001100000000000001111#32 = .ok (.sunmap 3) := by decide
/-- R235: the worked encoding 0016A011. -/
theorem test_decode_msend : decode 0b00000000000101101010000000010001#32 = .ok (.msend 10 (.reg 11)) := by decide
/-- R236: the worked encoding 0100A291. -/
theorem test_decode_mrecv : decode 0b00000001000000001010001010010001#32 = .ok (.mrecv 5 10) := by decide
/-- R239: the worked encoding 03000111. -/
theorem test_decode_cqPop : decode 0b00000011000000000000000100010001#32 = .ok (.cqPop 2) := by decide
/-- R242: the worked encoding 0080A012. -/
theorem test_decode_post : decode 0b00000000100000001010000000010010#32 = .ok (.post 10 64) := by decide
/-- R245: the worked encoding 6000C292. -/
theorem test_decode_hstart : decode 0b01100000000000001100001010010010#32 = .ok (.hstart 5 12 0) := by decide
/-- R246: the worked encoding 800C0012. -/
theorem test_decode_hjoin : decode 0b10000000000011000000000000010010#32 = .ok (.hjoin 0x3) := by decide
/-- R255: the worked encoding 01C2A614. -/
theorem test_decode_pput : decode 0b00000001110000101010011000010100#32 = .ok (.pput 12 10 (.con 33)) := by decide
/-- R257: the worked encoding 0380A014. -/
theorem test_decode_pget : decode 0b00000011100000001010000000010100#32 = .ok (.pget 10 (.con 0)) := by decide
/-- R259: the worked encoding 0500A294. -/
theorem test_decode_pstat : decode 0b00000101000000001010001010010100#32 = .ok (.pstat 5 10) := by decide
/-- R262: the worked encoding 0188A015. -/
theorem test_decode_cmFree : decode 0b00000001100010001010000000010101#32 = .ok (.cmFree 10 (.con 4)) := by decide
/-- R263: the worked encoding 02160295. -/
theorem test_decode_cmQuery : decode 0b00000010000101100000001010010101#32 = .ok (.cmQuery 5 (.reg 11)) := by decide
/-- R207: the worked encoding 800A9016. -/
theorem test_decode_tlbi : decode 0b10000000000010101001000000010110#32 = .ok (.tlbi (.page 9)) := by decide
/-- R208: the worked encoding 800C4016. -/
theorem test_decode_hnotify : decode 0b10000000000011000100000000010110#32 = .ok (.hnotify 4) := by decide
/-- R211: the worked encoding A00AB516. -/
theorem test_decode_ctxrd : decode 0b10100000000010101011010100010110#32 = .ok (.ctxrd 10 11 5) := by decide
/-- R270: the worked encoding 004C02A0. -/
theorem test_decode_vsetvl : decode 0b00000000010011000000001010100000#32 = .ok (.vsetvl false 5 (.reg 6)) := by decide
/-- R280: the worked encoding 004A1123. -/
theorem test_decode_vadd : decode 0b00000000010010100001000100100011#32 = .ok (.vadd false 2 1 (.reg 5)) := by decide
/-- R283: the worked encoding 48041223. -/
theorem test_decode_vcmp : decode 0b01001000000001000001001000100011#32 = .ok (.vcmp .lt false 4 1 (.vec 2)) := by decide
/-- R281: the worked encoding 240411A4. -/
theorem test_decode_vfma : decode 0b00100100000001000001000110100100#32 = .ok (.vfma .f32 3 1 (.vec 2)) := by decide
/-- R285: the worked encoding 600032A5. -/
theorem test_decode_vcvt : decode 0b01100000000000000011001010100101#32 = .ok (.vcvt 3 0 false 5 3) := by decide
/-- R301: the worked encoding 10409230. -/
theorem test_decode_tmma : decode 0b00010000010000001001001000110000#32 = .ok (.tmma 1 4 9) := by decide
/-- R306: the worked encoding 2F046431. -/
theorem test_decode_tst : decode 0b00101111000001000110010000110001#32 = .ok (.tst 15 .nf8 0 8 6) := by decide
/-- R306: the worked encoding 00800431. -/
theorem test_decode_tld : decode 0b00000000100000000000010000110001#32 = .ok (.tld 0 2 8) := by decide
/-- R326: the worked encoding 00000534. -/
theorem test_decode_rwload : decode 0b00000000000000000000010100110100#32 = .ok (.rwload 10) := by decide
/-- R312: the worked encoding 4000C5B8. -/
theorem test_decode_ventWait : decode 0b01000000000000001100010110111000#32 = .ok (.ventWait 11 12) := by decide
/-- R313: the worked encoding 5000B538. -/
theorem test_decode_ventNote : decode 0b01010000000000001011010100111000#32 = .ok (.ventNote 10 11) := by decide

/-! ### A state and operands for the hypotheses of each statement -/

/-- A control context READY in user mode, with a task of tenant 0 in partition 1, which runs. -/
def box (id : Nat) : State :=
  { State.reset with
    ctxs := [(id, { Ctx.reset id with run := .ready })],
    cores := [(coreOf id, { Core.reset with task := some ⟨0, 1, 0, isVent (coreOf id)⟩ })],
    parts := [(1, { Part.reset with st := .running, ten := some 0 })],
    dev := { State.reset.dev with cur := id } }

/-- The context of core 0 with scalar registers, in a mode. -/
def user (x : SMap Word) : State := (box 0).withMe fun c => { c with x := x }
def sup (x : SMap Word) : State := (box 0).withMe fun c => { c with x := x, sup := true }

/-! ### Single steps, with the results of the manual's worked examples -/

/-- Register r after an instruction from a state. -/
def regAfter (i : Instr) (s : State) (r : XReg) : Option Word :=
  match exec i s with | .next t => some (t.x r) | _ => none
/-- The pc and the two entries of the queue after it. -/
def queueAfter (i : Instr) (s : State) : Option (Word × Word × Word) :=
  match exec i s with | .next t => some (t.me.pc, t.me.q1, t.me.q2) | _ => none
def at' (pc : Word) (x : SMap Word) : State :=
  (user x).withMe fun c => { c with pc := pc, q1 := pc + 4, q2 := pc + 8 }

/-- R190. -/
theorem test_step_ext : regAfter (.ext 3 4 (.reg 6)) (user [(4, 0xABCD), (6, 0x1C4)]) 3 = some 0xBC := by decide +kernel
/-- R190: the part of a field beyond bit 63 is dropped. -/
theorem test_step_ins : regAfter (.ins 3 4 (.reg 6)) (user [(3, 1), (4, 0xFF), (6, 0x1FC)]) 3 = some 0xF000000000000001 := by decide +kernel
/-- R190. -/
theorem test_step_clz : regAfter (.clz 3 0) (user []) 3 = some 64 := by decide +kernel
/-- R191: the smaller of two after slt. -/
theorem test_step_sel : regAfter (.sel 8 4 (.reg 5)) (user [(4, 7), (5, 9), (8, 1)]) 8 = some 7 := by decide +kernel
/-- R193. -/
theorem test_step_addw : regAfter (.addw 3 4 (.con 1)) (user [(4, 0x7FFFFFFF)]) 3 = some 0xFFFFFFFF80000000 := by decide +kernel
/-- R194: the immediate is extended before the unsigned compare. -/
theorem test_step_sltiu : regAfter (.sltiu 3 4 0xFFF) (user [(4, 0xFFFFFFFFFFFFFFFE)]) 3 = some 1 := by decide +kernel
/-- R194: ori extends its immediate with zeros. -/
theorem test_step_ori : regAfter (.ori 6 6 0xFFF) (user [(6, 0x12345000)]) 6 = some 0x12345FFF := by decide +kernel
/-- R195. -/
theorem test_step_lui : regAfter (.lui 6 0xFFFFF) (user []) 6 = some 0xFFFFFFFFFFFFF000 := by decide +kernel
/-- R197: step 1 of the call. -/
theorem test_step_jal : queueAfter (.jal 1 0x40) (at' 0x400 []) = some (0x404, 0x408, 0x500) := by decide +kernel
theorem test_step_jal_link : regAfter (.jal 1 0x40) (at' 0x400 []) 1 = some 0x40C := by decide +kernel
/-- R197: step 4 of the call; and the source is read before it is written. -/
theorem test_step_jalr : queueAfter (.jalr 0 1 0) (at' 0x500 [(1, 0x40C)]) = some (0x504, 0x508, 0x40C) := by decide +kernel
theorem test_step_jalr_same : queueAfter (.jalr 1 1 0) (at' 0x500 [(1, 0x40C)]) = some (0x504, 0x508, 0x40C) := by decide +kernel
/-- R196: a branch that is not taken goes on. -/
theorem test_step_blt : queueAfter (.blt false 5 (.con 16) 0x1FA) (at' 0x400 [(5, 16)]) = some (0x404, 0x408, 0x40C) := by decide +kernel
theorem test_step_blt_taken : queueAfter (.blt false 5 (.con 16) 0x1FA) (at' 0x400 [(5, 15)]) = some (0x404, 0x408, 0x3E8) := by decide +kernel
/-- R157: x0 discards what is written. -/
theorem test_step_x0 : regAfter (.addi 0 0 5) (user []) 0 = some 0 := by decide +kernel

/-! ### The hypotheses -/

theorem witness_RegisterOps : (user []).readable 1 ∧ (user []).s2Readable (.reg 2) := by decide +kernel
theorem witness_BitAndImmediateOps : (user []).readable 31 ∧ (user []).s2Readable (.con 0) := by
  decide +kernel
theorem witness_BranchesAndJumps : (user []).readable 0 ∧ (user []).s2Readable (.reg 31) := by
  decide +kernel
theorem witness_QueueStep :
    (user []).me.pend = [] ∧
    let s := (box 0).withMe fun c => { c with pend := [⟨1, 5, 1⟩, ⟨1, 6, 2⟩] }
    s.me.a1 = false ∧ s.me.pend = [⟨1, 5, 1⟩, ⟨1, 6, 2⟩] := by decide +kernel
theorem witness_OperandsHeldBack :
    ((box 0).withMe fun c => { c with sb := 2 }).me.busy 1 = true ∧
    let s := (box 0).withMe fun c => { c with xpois := 2 }
    s.me.busy 1 = false ∧ s.me.bad 1 = true ∧ s.noTiles := by decide +kernel
theorem witness_CsrAccess :
    let s := sup []
    (∀ n ∈ [0x001, 0x010, 0x807, 0xC06], s.csrBad s.dev.cur n = false ∧ s.csrReadOk n ∧ s.flagsSettled n) ∧
    (∀ n ∈ [0x001, 0x010, 0x807], s.csrWriteOk n ∧ n ≠ 0x005 ∧ (csrFlushes n = true → s.noTiles)) ∧ s.readable 1 := by decide +kernel
theorem witness_PrivilegeRules :
    let s := user []
    s.noTiles ∧ s.me.sup = false ∧ csrClass 0x807 = .supervisor ∧ csrClass 0xC06 = .readOnly ∧ csrClass 0x404 ≠ .user ∧
    (∀ n ∈ [0x807, 0xC06, 0x404], ¬(s.onVent = true ∧ csrVentReserved n = true)) ∧ s.onVent = false := by decide +kernel
theorem witness_TrapEntry :
    (box 0).isService (box 0).dev.cur = true ∧
    (let s := (box 16).withMe fun c => c.csrSet false cXTVEC 0x100
     parkingClass 0x02 = false ∧ s.myCsr cXTVEC ≠ 0 ∧ s.me.hasActed = false ∧
     parkingClass 0x0D = true ∧ s.isService s.dev.cur = false ∧ s.part? (s.pnodeOf (coreOf s.dev.cur)) ≠ none) ∧
    (let s := box 16
     parkingClass 0x02 = false ∧ s.myCsr cXTVEC = 0 ∧ s.isService s.dev.cur = false ∧ s.me.hasActed = false ∧
     s.part? (s.pnodeOf (coreOf s.dev.cur)) ≠ none) := by decide +kernel
theorem witness_TrapsAndReturns :
    (let s := (box 0).withMe fun c => c.csrSet false cXTVEC 0x100
     s.noTiles ∧ s.myCsr cXTVEC ≠ 0 ∧ s.isService s.dev.cur = true) ∧
    ((box 16).noTiles ∧ (box 16).isService (box 16).dev.cur = false ∧ (box 16).myCsr cXTVEC = 0) ∧
    (∀ st ∈ [0, 4, 8, 0x8000, 0x4000],
     let s := (sup []).withMe fun c => c.csrSet false cXSTAT (BitVec.ofNat 64 st)
     s.me.sup = true ∧ s.me.pend = [] ∧ s.myCsr cXSTAT = BitVec.ofNat 64 st ∧
     ∀ n ∈ [cXSTAT, cXRESUME, cXPC1, cXPC2] ++ s.replayCsrs s.dev.cur, s.csrBad s.dev.cur n = false) := by decide +kernel
theorem witness_ParkFenceNotify :
    ((box 0).withMe fun c => { c with recvq := [⟨[], 0, []⟩] }).me.recvq ≠ [] ∧
    (user []).fenced ∧ (user []).vecDone ∧ (user []).readable 1 ∧ (user []).noTiles ∧ (user []).me.recvq = [] ∧
    (0 : Word).toNat % 2048 < ((user []).vf 0).msix ∧ ¬((1 : Word).toNat % 2048 < ((user []).vf 0).msix) := by decide +kernel
/-- A core whose context 1 is in a state that the control context acts on. -/
def two (f : Ctx → Ctx) : State := (sup [(1, 1), (2, 0x40), (5, 65)]).setCtx 1 (f (Ctx.reset 1))
theorem witness_ContextControl :
    (let s := two fun c => { c with run := .stopped }
     s.me.sup = true ∧ s.readable 1 ∧ s.readable 2 ∧ (s.x 1).toNat % 16 < ctxCount (coreOf s.dev.cur) ∧
     (s.x 1).toNat % 16 ≠ ctxOf s.dev.cur ∧ ctxId (coreOf s.dev.cur) ((s.x 1).toNat % 16) = 1 ∧ (s.ctx 1).run = .stopped ∧
     (∀ k < 32, (s.ctx 1).busy (BitVec.ofNat 5 k) = false ∧ (s.ctx 1).bad (BitVec.ofNat 5 k) = false) ∧
     (∀ k < 16, (s.ctx 1).cpois.contains (selCsr k) = false) ∧ s.onVent = false ∧ (s.x 2).toNat % 4 = 0 ∧
     (∀ e ∈ s.myCore.vq, e.ctx = 1 → isVmem e.instr = false) ∧ (s.ctx 1).pwait = false ∧ (s.ctx 1).wait = none ∧ (s.ctx 1).recvq = [] ∧ (s.ctx 1).spilled = 0 ∧
     (s.myCore.vq.any fun e => e.ctx == 1) = false ∧ s.noTiles ∧ s.readable 5 ∧ (s.x 2).toNat ≤ 64 ∧ 64 < (s.x 5).toNat ∧ s.x 1 = 1 ∧
     (s.x 1).toNat % 4 ≠ 0 ∧ s.x 2 ≠ 1) ∧
    (let s := ((box 1).withMe fun c => { c with x := [(2, 1)], sup := true }).setCtx 0 { Ctx.reset 0 with run := .stopped }
     s.me.sup = true ∧ s.readable 0 ∧ s.readable 2 ∧ (s.x 0).toNat % 16 < ctxCount (coreOf s.dev.cur) ∧ (s.x 0).toNat % 16 ≠ ctxOf s.dev.cur ∧
     ctxId (coreOf s.dev.cur) ((s.x 0).toNat % 16) = 0 ∧ (s.ctx 0).run = .stopped ∧ s.x 0 = 0 ∧ s.x 2 ≠ 0 ∧ s.noTiles) ∧
    (let s := two fun c => { c with run := .parked }
     (s.ctx 1).run = .parked ∧ (s.ctx 1).midAccess = false ∧ (s.ctx 1).recvq = [] ∧ s.noTiles) ∧
    ((two fun c => { c with run := .ready }).ctx 1).run = .ready ∧ ((two id).ctx 1).run = .free := by decide +kernel

/-- A context that addresses its LOCAL window from X1, in supervisor mode. -/
def near : State := sup [(1, 0xFFF0000000000100), (2, 5)]
theorem witness_LocalGuard :
    Use.load ≠ .ver ∧ Use.load ≠ .verW ∧
    (let g : Word := 0xA000010000000000
     let s := (user []).withMe fun c => c.csrSet false 0x404 g
     s.onVent = false ∧ s.myCore.isStash 0 256 = false ∧ s.me.sup = false ∧ 0 + 256 ≤ 0x2F000 ∧ s.myCsr 0x404 = g ∧
     g.getLsbD 63 = true ∧ g.getLsbD 61 = true ∧ g.toNat / 2 ^ 59 % 4 = 0 ∧ g.toNat % 2 ^ 21 ≤ 0 ∧ 0 + 256 ≤ g.toNat / 2 ^ 32 % 2 ^ 21) ∧
    near.me.sup = true ∧
    (let s := (user []).withMe fun c => [0x404, 0x405, 0x406, 0x407].foldl (fun c n => c.csrSet false n 0) c
     s.me.sup = false ∧ ∀ n ∈ [0x404, 0x405, 0x406, 0x407], s.myCsr n = 0) := by
  decide +kernel
theorem witness_LoadsAndStores :
    near.readable 1 ∧ near.readable 2 ∧
    (∀ e ∈ loadTable, near.localAt .load (eaOf (near.x 1) 0x7F e.2.1) e.2.1 0 (0x100 + 127 * e.2.1) ∧
      near.poisoned ((Space.lm 0).loc (0x100 + 127 * e.2.1)) e.2.1 = false) ∧
    (∀ e ∈ storeTable, near.localAt .store (eaOf (near.x 1) 0xFF e.2) e.2 0 (0x100 - e.2)) ∧
    (let s := sup [(1, 0xFFF00000001EFFF8)]
     s.localAt .store (eaOf (s.x 1) 0 8) 8 3 0x2FFF8) ∧
    (let s := sup [(1, 0xFFF0000000000000)]
     s.localAt .load (eaOf (s.x 1) 0 8) 8 0 0) := by decide +kernel
theorem witness_LoadsAndStores_windows :
    (∀ o ∈ [0, 24, 0x40, 0x48, 0x50],
      let s := sup [(1, BitVec.ofNat 64 (0xFFF0000000200000 + o)), (2, 3)]
      let va := eaOf (s.x 1) 0 8
      s.readable 1 ∧ s.readable 2 ∧ s.fenced ∧ va.toNat % 8 = 0 ∧ s.windowBad s.dev.cur va.toNat = false ∧
      s.window s.dev.cur .load va.toNat 8 = .ok (some (.event o)) ∧
      (o < 32 → s.window s.dev.cur .store va.toNat 8 = .ok (some (.event o)))) ∧
    (∀ o ∈ [0x10000, 0x10BF8, 0x10C00, 0x10D00, 0x10D08, 0x80000, 0xC0008],
      let s := sup [(1, BitVec.ofNat 64 (0xFFF0000001000000 + o)), (2, 3)]
      let va := eaOf (s.x 1) 0 8
      s.fenced ∧ va.toNat % 8 = 0 ∧ s.windowBad s.dev.cur va.toNat = false ∧
      s.window s.dev.cur .load va.toNat 8 = .ok (some (.device o))) := by decide +kernel
/-- A leaf that allows everything but execution: a plain page of this package's HBM. -/
def plain : Word := 0x37

/-- Core 0 holding a global line modified. -/
def hit : State :=
  let s := user [(1, 0x2000), (2, 5)]
  let l : Line := ⟨0x80, plain, 0x2000, 0, 0, 0⟩
  let s := s.withMyCore fun c => { c with l1 := [(0x800, l)] }
  { s with dev := { s.dev with dir := [(0x80, [(0, .m)])] } }
theorem witness_GlobalHits :
    (hit.readable 1 ∧ hit.readable 2 ∧ hit.me.pend = [] ∧ hit.poisoned 0x2008 8 = false ∧
      hit.myCore.cpois.contains cRDEF = false) ∧
    hit.hitAt .load (eaOf (hit.x 1) 1 8) 8 0x2008 ∧ hit.hitAt .store (eaOf (hit.x 1) 7 8) 8 0x2038 :=
  ⟨by decide +kernel,
   ⟨by decide +kernel, by decide +kernel, by decide +kernel, by decide +kernel, ⟨0x80, plain, 0x2000, 0, 0, 0⟩, by decide +kernel⟩,
   ⟨by decide +kernel, by decide +kernel, by decide +kernel, by decide +kernel, ⟨0x80, plain, 0x2000, 0, 0, 0⟩, by decide +kernel⟩⟩
/-- The page of `mapped`, cached or not (R90: bit 5). -/
def mappedLeaf (cm : Bool) : Word := if cm then plain else 0x17
def missed (cm : Bool) : State :=
  { user [(1, 0x2000), (2, 5)] with
    dev := { (user [(1, 0x2000), (2, 5)]).dev with tlb := [⟨0, 0, 1, 0, 19, mappedLeaf cm⟩] }, vfs := [(0, { Vf.reset with s2 := [(0, 0)] })] }
theorem witness_GlobalHits_misses : ∀ cm : Bool,
    (missed cm).readable 1 ∧ (missed cm).readable 2 ∧ (missed cm).me.pend = [] ∧ (missed cm).myCore.cpois.contains cRDEF = false ∧
    (missed cm).missAt .load (eaOf ((missed cm).x 1) 1 8) 8 0x2008 ⟨0, 0, 1, 0, 19, mappedLeaf cm⟩ ∧
    (missed cm).missAt .store (eaOf ((missed cm).x 1) 7 8) 8 0x2038 ⟨0, 0, 1, 0, 19, mappedLeaf cm⟩ ∧
    cacheable (coreOf (missed cm).dev.cur) (mappedLeaf cm) = cm ∧ (missed cm).poisoned (Space.hbm.loc 0x2008) 8 = false := by decide +kernel
theorem witness_AccessFaults :
    (let s := sup [(1, 0xFFF0000000030001), (2, 5)]
     s.readable 1 ∧ s.readable 2 ∧ s.fenced ∧ (∀ e ∈ loadTable, e.2.1 ≠ 1 → (eaOf (s.x 1) 0 e.2.1).toNat % e.2.1 ≠ 0) ∧
     (∀ e ∈ storeTable, e.2 ≠ 1 → (eaOf (s.x 1) 0 e.2).toNat % e.2 ≠ 0)) ∧
    (let s := sup [(1, 0xFFF0000000030000), (2, 5)]
     s.readable 1 ∧ s.readable 2 ∧ s.fenced ∧
     (∀ e ∈ loadTable, (eaOf (s.x 1) 0 e.2.1).toNat % e.2.1 = 0 ∧ s.windowBad s.dev.cur (eaOf (s.x 1) 0 e.2.1).toNat = false ∧
       s.window s.dev.cur .load (eaOf (s.x 1) 0 e.2.1).toNat e.2.1 = .error 0x02) ∧
     (∀ e ∈ storeTable, (eaOf (s.x 1) 0 e.2).toNat % e.2 = 0 ∧ s.windowBad s.dev.cur (eaOf (s.x 1) 0 e.2).toNat = false ∧
       s.window s.dev.cur .store (eaOf (s.x 1) 0 e.2).toNat e.2 = .error 0x02)) ∧
    (let s := (user [(1, 0xFFF0000000000100), (2, 5)]).withMe fun c => { c with cpois := [0x404] }
     s.readable 1 ∧ s.readable 2 ∧ s.fenced ∧
     ∀ e ∈ loadTable, (eaOf (s.x 1) 0 e.2.1).toNat % e.2.1 = 0 ∧ s.windowBad s.dev.cur (eaOf (s.x 1) 0 e.2.1).toNat = true) := by decide +kernel
theorem witness_AtomicsAndReductions :
    (∀ w : Bool, near.readable 1 ∧ near.readable 2 ∧ near.readable 3 ∧ near.localAt .amo (near.x 1) (widthBytes w) 0 0x100 ∧
      near.poisoned ((Space.lm 0).loc 0x100) (widthBytes w) = false ∧ near.localAt .red (near.x 1) (widthBytes w) 0 0x100) ∧
    near.me.cpois.contains cFRM = false := by decide +kernel
/-- A context with a versioned granule at X1 = the base of caldera die 0, holding a word in a given form. -/
def vstate (x : VWord) : State :=
  let s := sup [(1, granVA 0 false 0), (2, 7), (3, 8)]
  { s with cals := [(0, { Cal.reset with gran := [(0, ⟨0, 0, true⟩)] })], vers := [((Space.cal false).loc 0, x)] }
theorem witness_VersionedWords :
    let full : VWord := ⟨[(9, 1), (8, 1), (7, 1), (6, 1)], some 9, []⟩
    let one : VWord := ⟨[(9, 1)], some 9, []⟩
    let loc := (Space.cal false).loc 0
    ((vstate full).versionedAt ((vstate full).x 1) loc ∧ (vstate one).versionedAt ((vstate one).x 1) loc) ∧
    (let s := vstate full
     s.readable 1 ∧ s.readable 2 ∧ s.readable 3 ∧ s.vword loc = full ∧ SMap.find full.live 7 = some 1 ∧
     full.bad.contains 7 = false ∧ (full.high = some 9 ∧ 5 ≤ 9) ∧ SMap.find full.live 5 = none ∧ ¬(10 ≤ 9) ∧ SMap.find full.live 10 = none ∧
     4 ≤ full.live.length ∧ s.noTiles ∧ 0 < (s.x 3).toNat ∧ (s.x 3).toNat % 8 = 0 ∧ (s.x 1).toNat % 65536 + (s.x 3).toNat ≤ 65536 ∧
     (s.x 0).toNat = 0) ∧
    ((vstate one).vword loc = one ∧ one.live.length < 4 ∧ one.high = some 9 ∧ 9 < 10 ∧ 9 ≤ 9 ∧ (vstate one).me.wait = none ∧
      ¬∃ e ∈ (vstate one).dev.stvq, e.far = false ∧ e.loc = loc ∧ e.res = none) ∧
    (let e : StvWait := { ticket := 5, loc := loc, ver := 10, val := 7, va := granVA 0 false 0 }
     let w : Wait := { cls := .version, seq := 0, acted := some 5, req := none }
     let held := fun (x : StvWait) =>
       let s := (vstate one).withMe fun c => { c with wait := some w }
       ({ s with dev := { s.dev with stvq := [x] } } : State)
     ∀ x ∈ [e, { e with res := some 0 }], (held x).me.wait = some w ∧ w.cls = .version ∧ w.acted = some 5 ∧
       (held x).dev.stvq.find? (fun e => e.ticket == 5) = some x ∧ x.far = false ∧ (x = e → ∃ e ∈ (held x).dev.stvq, e.far = false ∧ e.loc = loc ∧ e.res = none)) :=
  ⟨⟨⟨by decide +kernel, by decide +kernel, by decide +kernel, false, 0, by decide +kernel⟩,
    by decide +kernel, by decide +kernel, by decide +kernel, false, 0, by decide +kernel⟩, by decide +kernel, by decide +kernel, by decide +kernel⟩

/-- A state with a cached translation of page 0 at interface 0, in a mode. -/
def mapped (s : State) : State :=
  { s with dev := { s.dev with tlb := [⟨0, 0, 1, 0, 19, plain⟩] }, vfs := [(0, { Vf.reset with s2 := [(0, 0)] })] }

theorem witness_CacheControl :
    (let s := user [(2, 0x10000000000000), (1, 0x2000)]
     s.readable 1 ∧ s.vecDone ∧ s.ownCopy (coreOf s.dev.cur) (s.x 1 + BitVec.signExtend 64 0#12).toNat = none ∧
     2 ^ 52 ≤ (s.x 2 + BitVec.signExtend 64 0#12).toNat) ∧
    (let l : Line := ⟨0x80, plain, 0x2000, 0, 0, 0⟩
     let va := (hit.x 1 + BitVec.signExtend 64 0#12).toNat
     va < 2 ^ 52 ∧ hit.ownCopy (coreOf hit.dev.cur) va = some l ∧ hit.stateIn (l.loc / 64) (hit.coreHolder (coreOf hit.dev.cur)) = some .m ∧
     l.loc < 2 ^ 60) ∧
    (let loc := (Space.plc 1 0).loc 0x2000
     let l : Line := ⟨0x80, plain, loc, 0, 0, 0⟩
     let s := hit.withMyCore fun c => { c with l1 := [(0x800, l)] }
     let s := { s with dev := { s.dev with dir := [(loc / 64, [(s.coreHolder 0, .m)])], links := [(0, { Jalic.reset with peer := some 1, up := true })] } }
     let s := { s with pres := { presReset with group := 2 } }
     s.ownCopy (coreOf s.dev.cur) (s.x 1 + BitVec.signExtend 64 0#12).toNat = some l ∧
     s.stateIn (l.loc / 64) (s.coreHolder (coreOf s.dev.cur)) = some .m ∧ 2 ^ 60 ≤ l.loc ∧ plcPkg (l.loc / 64 * 64) = 1 ∧
     (s.peer 1).lost = false ∧ s.unreachable 1 = false ∧ s.dev.reqs = []) ∧
    (let s := mapped (user [(1, 0x2000)])
     let va := 0x2000
     let e : TlbEnt := ⟨0, 0, 1, 0, 19, plain⟩
     va < 2 ^ 52 ∧ inCaldera va = false ∧ s.myCore.l1 = [] ∧ s.myCore.stash = [] ∧
     s.cached (interfaceOf s.myCore.pmap (coreOf s.dev.cur) va) s.myTen s.myPart va = some e ∧ lfR e.leaf = true ∧
     cacheable (coreOf s.dev.cur) e.leaf = true ∧ lfAPT e.leaf = 0 ∧ s.stage2 s.myTen (gpaOf e.leaf va) = some 0x2000 ∧
     s.holders (0x2000 / 64) = []) ∧
    (let s := mapped (sup [(1, 0x2000)])
     s.me.sup = true ∧ s.fenced ∧ (∀ q < s.pres.group, q = s.pres.pkg.toNat ∨ (s.peer q).lost = true) ∧
     (∀ r ∈ s.dev.reqs, r.who ≠ .ctx s.dev.cur) ∧ s.inUse s.myTen s.myPart (fun x l => true || samePage l x 0) = false ∧
     s.inUse s.myTen s.myPart (fun x l => false || samePage l x 0x2000) = false) ∧
    (let s := (sup [(1, 0x2000)]).withMyCore fun c => c.csrSet cSTASHCFG 2
     let f : BitVec 5 := 1
     let nfr := if s.onVent then 0 else s.myCore.nfr
     s.readable 1 ∧ s.myCore.sect = [] ∧ s.myCore.l1 = [] ∧ s.myCore.cpois.contains cSTASHCFG = false ∧ f.toNat < nfr ∧ (s.x 1).toNat % 4096 = 0 ∧ (s.x 1).toNat < 2 ^ 52 ∧
     (∀ e ∈ s.myCore.stash, e.2 = s.x 1 → e.1 = f.toNat) ∧ nfr ≤ (2#5).toNat ∧ s.noTiles) := by decide +kernel
theorem witness_CacheControl_stash :
    (let s := (user [(1, 32), (2, 33), (3, 2)]).withMyCore fun c => c.csrSet cSTASHCFG 2
     s.readable 1 ∧ s.onVent = false ∧ (s.x 1).toNat % 64 ≤ 32 ∧ (s.x 1).toNat % 64 ≠ s.myCore.nfr ∧ s.myCore.stash = [] ∧
     s.myCore.nfr ≤ 32 ∧ 32 < (s.x 2).toNat % 64 ∧ (s.x 3).toNat % 64 = s.myCore.nfr ∧
     s.csrBad s.dev.cur 0x005 = false ∧ s.me.pend = [] ∧ 32 < (s.csr s.dev.cur 0x005 ||| s.x 1).toNat % 64 ∧
     (s.csr s.dev.cur 0x005 &&& ~~~s.x 3).toNat % 64 = 0) ∧
    (let s := (user [(1, 1)]).withMyCore fun c => { c.csrSet cSTASHCFG 2 with stash := [(0, 0x2000)] }
     s.readable 1 ∧ s.onVent = false ∧ s.csrBad s.dev.cur 0x005 = false ∧ s.me.pend = [] ∧
     (s.csr s.dev.cur 0x005 ||| s.x 1).toNat % 64 ≠ s.myCore.nfr ∧ s.myCore.stash ≠ []) := by decide +kernel

/-- Core 0's event unit with one barrier. -/
def barred (b : Bar) (c : Cluster) : State := (user []).setCluster 0 { c with bars := [(0, b)] }
theorem witness_BarrierArrive :
    (let s := barred { Bar.reset with pmask := 1 } Cluster.reset
     let x := (s.cluster s.myCluster).bar 0
     s.onVent = false ∧ s.fenced ∧ x.pmask.getLsbD s.myPosition = true ∧ x.arr.getLsbD s.myPosition = false ∧ x.chain = 0 ∧
     x.arr ||| 1#4 <<< s.myPosition = x.pmask) ∧
    (let s := user []
     let x := (s.cluster s.myCluster).bar 3
     s.onVent = false ∧ s.fenced ∧ x.pmask.getLsbD s.myPosition = true ∧ x.arr.getLsbD s.myPosition = false ∧ x.chain = 0 ∧
     x.arr ||| 1#4 <<< s.myPosition ≠ x.pmask) := by decide +kernel
theorem witness_EventInstructions :
    (let s := barred { Bar.reset with gen := 1 } { Cluster.reset with lines := 0x8000, mutex := [(0, 0), (7, 16)] }
     let c := s.cluster s.myCluster
     s.onVent = false ∧ s.fenced ∧ (c.bar 0).gen ≠ (c.bar 0).joined s.myPosition ∧ c.lines.getLsbD 15 = true ∧ c.lines.getLsbD 0 = false ∧
     SMap.find c.mutex 1 = none ∧ SMap.find c.mutex 0 = some s.dev.cur ∧ SMap.find c.mutex 7 = some 16 ∧ 16 ≠ s.dev.cur) ∧
    (let s := barred { Bar.reset with gen := 1, join := [(0, 1)] } Cluster.reset
     s.fenced ∧ ((s.cluster s.myCluster).bar 0).gen = ((s.cluster s.myCluster).bar 0).joined s.myPosition) ∧
    (let s := barred { Bar.reset with pmask := 0 } Cluster.reset
     s.fenced ∧ ((s.cluster s.myCluster).bar 0).pmask.getLsbD s.myPosition = false) ∧
    (let s := barred { Bar.reset with arr := 1 } Cluster.reset
     s.fenced ∧ ((s.cluster s.myCluster).bar 0).pmask.getLsbD s.myPosition = true ∧
     ((s.cluster s.myCluster).bar 0).arr.getLsbD s.myPosition = true) := by decide +kernel
theorem witness_Messages :
    (let s := user [(1, 0xFFF0000000000100), (2, 1 * 2 ^ 13)]
     let m : Msg := ⟨[], 0, []⟩
     let s1 := s.setCtx 1 { Ctx.reset 1 with run := .ready, recvq := [] }
     let s2 := s.setCtx 1 { Ctx.reset 1 with run := .ready, recvq := List.replicate 16 m }
     s.me.sup = false ∧ s.readable 1 ∧ s.s2Readable (.reg 2) ∧ exposed (s.x 1) = true ∧ s.localAt .load (s.x 1) 32 0 0x100 ∧
     s.poisoned ((Space.lm 0).loc 0x100) 32 = false ∧ s.me.slot = none ∧ s.noTiles ∧ s.inbox s.dev.cur = [] ∧
     s.onVent = false ∧ s.myCore.cq = [] ∧ s.localAt .store (s.x 1) 32 0 0x100 ∧ s.onMailbox s.dev.cur = false ∧
     destCtx (s.s2 (.reg 2)) = 1 ∧ s1.destOk s1.myPart (s1.s2 (.reg 2)) = true ∧ s1.accepts 1 = true ∧ s2.accepts 1 = false ∧
     s.me.wait.bind (·.msg) = none ∧ (s.withMe fun c => { c with slot := some (m, 1) }).me.slot ≠ none ∧
     (let w : Wait := { cls := .message, seq := 0, acted := none, req := none, msg := some (m, 1) }
      let s3 := s1.withMe fun c => { c with wait := some w }
      s3.me.wait.bind (·.msg) = some (m, 1) ∧ s3.me.slot = none ∧ s3.accepts 1 = true ∧
      (s2.withMe fun c => { c with wait := some w }).accepts 1 = false)) ∧
    (let m : Msg := ⟨[], 3, []⟩
     let s := ((user [(1, 0xFFF0000000000100)]).withMe fun c => { c with slot := some (m, 1), recvq := [m] }).withMyCore fun c => { c with cq := [7] }
     let p : Machine.Part := { Part.reset with ten := some 0, mbq := [m] }
     (s.ctx 0).slot = some (m, 1) ∧ 0 ≠ 1 ∧ s.accepts 1 = false ∧ (s.setCtx 1 { Ctx.reset 1 with run := .parked }).accepts 1 = true ∧
     ((s.setPart 1 fun _ => p).part 1).mbq = [m] ∧ ((s.setPart 1 fun _ => p).part 1).mailbox.length < 64 ∧
     64 ≤ ((s.setPart 1 fun _ => { p with mailbox := List.replicate 64 m }).part 1).mailbox.length ∧ s.inbox s.dev.cur = [m] ∧ m.poison = [] ∧
     s.onMailbox s.dev.cur = false ∧ s.myCore.cq = [7] ∧ s.localAt .store (s.x 1) 32 0 0x100) ∧
    (let m : Msg := ⟨[], 3, []⟩
     let s := near.setPart 1 fun _ => { Part.reset with ten := some 0, mailbox := [m] }
     s.onMailbox s.dev.cur = true ∧ s.inbox s.dev.cur = [m] ∧ s.noTiles ∧ s.readable 1 ∧ exposed (s.x 1) = true ∧
     s.localAt .store (s.x 1) 32 0 0x100) := ⟨by decide +kernel, by decide +kernel, by decide +kernel⟩
theorem witness_TaskEnd :
    (let s := user []
     s.onControl = true ∧ s.noTiles ∧ s.myCore.vq = [] ∧ (∀ o ∈ s.dev.vops, coreOf o.ctx ≠ coreOf s.dev.cur ∨ o.done ≠ none) ∧
     s.helpersFree ∧ s.onVent = false) ∧
    ¬((user []).setCtx 10 { Ctx.reset 10 with run := .ready }).helpersFree := by decide +kernel
theorem witness_Helpers :
    (let s := (user [(1, 0x4000)]).setCtx 1 { Ctx.reset 1 with run := .ready }
     s.onControl = true ∧ s.fenced ∧ s.readable 1 ∧ s.me.sb = 0 ∧ s.me.tick.xpois = 0 ∧ s.me.cpois.contains cFRM = false ∧ s.me.pend = [] ∧
     (helpersOf (coreOf s.dev.cur)).find? (fun i => (s.ctx i).run == .free) = some 2 ∧ s.noTiles ∧ (s.onVent = true → (2#10).toNat < 8) ∧
     ∀ h ∈ helpersOf (coreOf s.dev.cur), (2#10) = 0 ∨ (2#10).getLsbD (ctxOf h - 1) = true → (s.ctx h).run = .free) ∧
    ((box 1).onControl = false ∧ ∀ e ∈ (box 1).myCore.vq, e.ctx ≠ (box 1).dev.cur) := by decide +kernel

/-- A record that waits on nothing, and one that waits on entry 1. -/
def plainRec : Nat := 0x1000 + 5 * 2 ^ 64 + 2 ^ 448 + 2 ^ 478
def waitingRec : Nat := plainRec + (3 * 2 ^ 20 + 1) * 2 ^ 384

/-- A core whose partition has a future table of four entries at 0x4000, with an EMPTY and a FULL one, a waiting record in slot 0, and a record
in LOCAL. -/
def tabledAs (r : Nat) (pool : List Nat) (head : Nat) : State :=
  let s := mapped (sup [(1, 0xFFF0000000000100), (2, 9), (3, 3 * 2 ^ 20 + 1), (4, 2), (5, 2 * 2 ^ 20 + 1), (6, 3), (7, 4)])
  let s := (s.withMyCore fun c => c.csrSet cFUTBASE 0x4000).setPart 1 fun q => { q with futlog := 2, pool := pool }
  let m := Memory.writes [] 0x4020 (FEnt.bytes ⟨0, 1, 3, head, head⟩)
  let m := Memory.writes m 0x4040 (FEnt.bytes ⟨7, 2, 0, 0, 0⟩)
  let m := Memory.writes m 0x4080 (leBytes 64 waitingRec)
  { s with mem := Memory.writes m ((Space.lm 0).loc 0x100) (leBytes 64 r) }
def tabled : State := tabledAs plainRec [] 0
/-- One that a record waits in, and one at which a `fut.get` waits. -/
def waited : State := tabledAs plainRec [0] 0x4080
def gotten : State :=
  tabled.setCtx 1 { Ctx.reset 1 with run := .parked, wait := some { cls := .fget 1 1, seq := 0, acted := none, req := none } }
/-- What `post` finds: a record that waits on nothing, one with NEXT, one with VENT, one that waits, one whose handle is stale, and a full pool. -/
def posts : List State :=
  [tabled, tabledAs (plainRec + 2 ^ 450) [] 0, tabledAs (plainRec + 2 ^ 451) [] 0, tabledAs waitingRec [] 0,
   tabledAs (plainRec + (2 * 2 ^ 20 + 1) * 2 ^ 384) [] 0, tabledAs plainRec [0, 1, 2, 3] 0]
def tables : List State := waited :: gotten :: posts

def pageTlb : TlbEnt := ⟨0, 0, 1, 0, 19, plain⟩

/-- What servedBy and tableAt ask, with the entry and the leaf named. -/
abbrev servedHolds (s : State) (va loc : Nat) (e : TlbEnt) (l : Word) : Prop :=
  va < 2 ^ 52 ∧ inCaldera va = false ∧ s.holders (loc / 64) = [] ∧
  s.cached (interfaceOf s.myCore.pmap (coreOf s.dev.cur) va) s.myTen s.myPart va = some e ∧ judge .store false e.leaf = .ok l ∧
  s.dev.tlb.contains ⟨interfaceOf s.myCore.pmap (coreOf s.dev.cur) va, s.myTen, s.myPart, va / 2 ^ entLog l, entLog l, l⟩ = true ∧
  s.route s.myTen l va = .ok (.hbm loc, false)
theorem table_at {s : State} (h : s ∈ tables) {j : Nat} (hj : j < 13) : s.tableAt (0x4000 + 32 * j) (0x4000 + 32 * j) := by
  have a : ∀ s ∈ tables, ∀ j < 13, servedHolds s (0x4000 + 32 * j) (0x4000 + 32 * j) pageTlb plain := by decide +kernel
  have a := a s h j hj
  exact ⟨⟨a.1, a.2.1, a.2.2.1, _, _, a.2.2.2⟩, by omega, by omega⟩
theorem link_at {s : State} (h : s ∈ tables) {j : Nat} (hj : j < 4) : s.linkAt j (0x4180 + 8 * j) := by
  have a : ∀ s ∈ tables, ∀ j < 4, servedHolds s (s.futBase + 96 * 2 ^ s.futLog + 8 * j) (0x4180 + 8 * j) pageTlb plain := by decide +kernel
  have a := a s h j hj
  exact ⟨⟨a.1, a.2.1, a.2.2.1, _, _, a.2.2.2⟩, by omega, by omega⟩
theorem table_base {s : State} (h : s ∈ tables) : s.futBase = 0x4000 ∧ s.futLog = 2 :=
  (by decide +kernel : ∀ s ∈ tables, s.futBase = 0x4000 ∧ s.futLog = 2) s h
theorem slot_at {s : State} (h : s ∈ tables) {j : Nat} (hj : j < 4) : s.slotAt (0x4080 + 32 * ·) j := by
  have b : s.slotVA j = 0x4000 + 32 * (4 + 2 * j) := by
    unfold State.slotVA
    rw [(table_base h).1, (table_base h).2]
    omega
  refine ⟨?_, ?_⟩
  · rw [b]
    exact (by omega : 0x4000 + 32 * (4 + 2 * j) = 0x4080 + 32 * (2 * j)) ▸ table_at h (j := 4 + 2 * j) (by omega)
  · rw [b]
    exact (by omega : 0x4000 + 32 * (5 + 2 * j) = 0x4000 + 32 * (4 + 2 * j) + 32) ▸
      (by omega : 0x4000 + 32 * (5 + 2 * j) = 0x4080 + 32 * (2 * j + 1)) ▸ table_at h (j := 5 + 2 * j) (by omega)
abbrev entryIs (s : State) (i : Nat) (e : FEnt) : Prop :=
  s.poisoned (0x4000 + 32 * i) 32 = false ∧ FEnt.of (s.peek (0x4000 + 32 * i) 32) = e
theorem entry_at {s : State} {i : Nat} {e : FEnt} (h : s ∈ tables) (hi : i < 4) (he : entryIs s i e) : s.futureAt i (0x4000 + 32 * i) e :=
  ⟨(table_base h).1 ▸ table_at h (j := i) (by omega), he⟩
theorem handle_at {s : State} {rs1 : XReg} {i gen : Nat} {e : FEnt} (h : s ∈ tables) (hi : 0 < i ∧ i < 4)
    (a : s.readable rs1 ∧ s.noTiles ∧ s.tableKnown ∧ gen < 4096 ∧ (s.x rs1).toNat % 2 ^ 32 = gen * 2 ^ 20 + i) (he : entryIs s i e) :
    s.handleOf rs1 i gen (0x4000 + 32 * i) e :=
  ⟨a.1, a.2.1, a.2.2.1, hi.1, by rw [(table_base h).2]; exact hi.2, by omega, a.2.2.2.1, a.2.2.2.2, entry_at h hi.2 he⟩
theorem mem_waited : waited ∈ tables := List.mem_cons_self ..
theorem mem_gotten : gotten ∈ tables := List.mem_cons_of_mem _ (List.mem_cons_self ..)
theorem mem_post {s : State} (h : s ∈ posts) : s ∈ tables := List.mem_cons_of_mem _ (List.mem_cons_of_mem _ h)
theorem mem_tabled : tabled ∈ tables := mem_post (List.mem_cons_self ..)

theorem witness_Futures :
    (tabled.noTiles ∧ tabled.fenced ∧ tabled.tableKnown ∧ tabled.me.pend = [] ∧ 0 < 3 ∧ 3 < 2 ^ tabled.futLog ∧
      tabled.readable 2 ∧ tabled.getting tabled.myPart 1 = false ∧ gotten.getting gotten.myPart 1 = true ∧ gotten.fenced ∧ gotten.me.pend = [] ∧
      (∀ r ∈ [(0 : XReg), 7], tabled.readable r ∧ ((tabled.x r).toNat % 2 ^ 32 % 2 ^ 20 = 0 ∨ 2 ^ tabled.futLog ≤ (tabled.x r).toNat % 2 ^ 32 % 2 ^ 20))) ∧
    (∀ j, 1 ≤ j → j ≤ 3 → tabled.futureAt j (0x4000 + 32 * j) (FEnt.of (tabled.peek (0x4000 + 32 * j) 32))) ∧
    ((FEnt.of (tabled.peek 0x4020 32)).st ≠ 0 ∧ (FEnt.of (tabled.peek 0x4040 32)).st ≠ 0 ∧ (FEnt.of (tabled.peek 0x4060 32)).st = 0) ∧
    (tabled.handleAt 3 1 0x4020 ⟨0, 1, 3, 0, 0⟩ ∧ tabled.handleAt 4 2 0x4040 ⟨7, 2, 0, 0, 0⟩ ∧ gotten.handleAt 3 1 0x4020 ⟨0, 1, 3, 0, 0⟩ ∧
      waited.handleAt 3 1 0x4020 ⟨0, 1, 3, 0x4080, 0x4080⟩) ∧
    (tabled.handleOf 5 1 2 0x4020 ⟨0, 1, 3, 0, 0⟩ ∧ tabled.handleOf 6 3 0 0x4060 ⟨0, 0, 0, 0, 0⟩) := by
  have h : ∀ j < 4, tabled.poisoned (0x4000 + 32 * j) 32 = false := by decide +kernel
  exact ⟨by decide +kernel, fun j _ hj => entry_at mem_tabled (by omega) ⟨h j (by omega), rfl⟩, by decide +kernel,
    ⟨handle_at mem_tabled (by decide) (by decide +kernel) (by decide +kernel), handle_at mem_tabled (by decide) (by decide +kernel) (by decide +kernel),
     handle_at mem_gotten (by decide) (by decide +kernel) (by decide +kernel), handle_at mem_waited (by decide) (by decide +kernel) (by decide +kernel)⟩,
    handle_at mem_tabled (by decide) (by decide +kernel) (by decide +kernel), handle_at mem_tabled (by decide) (by decide +kernel) (by decide +kernel)⟩
/-- The entry that a record waits in, once it is FULL. -/
def waitedSet : State := (Upd.poke 0x4020 { (⟨0, 1, 3, 0x4080, 0x4080⟩ : FEnt) with st := 2, val := waited.s2 (.reg 2), head := 0, tail := 0 }.bytes).apply waited
theorem waiters_last {tb : Tab} {va : Nat} {b : Bool} {s : State} (h0 : va ≠ 0)
    (h : (tabPeek tb (tb.linkVA (tb.slotOf va)) 8).leads s s (0, b)) : (waiters tb 1 va).leads s s [tb.slotOf va] := by
  unfold waiters
  rw [if_neg h0]
  exact M.leads_bind h fun _ _ => rfl
theorem waits_once (tb : Tab) (h : tb = ⟨.ctx 0, 0, 0, 1, 0x4000, 2, true⟩) : (waiters tb 1 0x4080).leads waitedSet waitedSet [0] := by
  have no : ∀ k, waitedSet.holders k = [] := fun _ => rfl
  have l := tabLoc_at (tb := ⟨.ctx 0, 0, 0, 1, 0x4000, 2, true⟩) (va := 0x4180) (loc := 0x4180) (l := plain) (s := waitedSet) (by decide) (by decide)
    (by decide +kernel) (by decide +kernel) (readyWalk_none no)
  rw [(by decide +kernel : waitedSet.ran (keepLeaf 0 0 1 0x4180 plain) = waitedSet)] at l
  subst h
  exact waiters_last (b := false) (by decide) (tabPeek_at l (by decide) (fun k _ => no k) (by decide +kernel))
theorem witness_Futures_waiters :
    (waiters ⟨.ctx waited.dev.cur, coreOf waited.dev.cur, waited.myTen, waited.myPart, waited.futBase, waited.futLog, true⟩
      (waited.part waited.myPart).pool.length 0x4080).leads waitedSet waitedSet [0] ∧
    waited.slotAt (0x4080 + 32 * ·) 0 ∧
    (let r := waited.slotRecord (0x4080 + 32 * ·) 0
     waited.fenced ∧ waited.me.pend = [] ∧ rcVent r = false ∧ hIndex (rcWait r 0) = 1 ∧ hIndex (rcWait r 1) = 0 ∧
     (waited.part? waited.myPart).isSome = true ∧ 0x4020 + 32 ≤ 0x4080) :=
  ⟨waits_once _ (by
    have e : waited.dev.cur = 0 ∧ waited.myTen = 0 ∧ waited.myPart = 1 ∧ waited.futBase = 0x4000 ∧ waited.futLog = 2 := by decide +kernel
    rw [e.1, e.2.1, e.2.2.1, e.2.2.2.1, e.2.2.2.2]
    rfl), slot_at mem_waited (by decide), by decide +kernel⟩
theorem witness_PostRecord :
    (∀ s ∈ posts, s.onControl = true ∧ s.readable 1 ∧ s.me.pend = [] ∧ s.tableKnown ∧
      s.localAt .load (s.x 1 + BitVec.signExtend 64 0#12) 64 0 0x100 ∧ s.poisoned ((Space.lm 0).loc 0x100) 64 = false ∧
      inCaldera (s.x 1 + BitVec.signExtend 64 0#12).toNat = false ∧
      s.recordOk s.myTen s.myPart (s.peek ((Space.lm 0).loc 0x100) 64) = true ∧ (s.part? s.myPart).isSome = true ∧
      (s.part s.myPart).st ≠ .saved ∧ s.futBase + 104 * 2 ^ s.futLog < 2 ^ 52) ∧
    (posts.map fun s =>
      let r := s.peek ((Space.lm 0).loc 0x100) 64
      (rcWait r 0, rcWait r 1, rcNext r, rcVent r, decide ((s.part s.myPart).pool.length < 2 ^ s.futLog))) =
      [(0, 0, false, false, true), (0, 0, true, false, true), (0, 0, false, true, true), (3 * 2 ^ 20 + 1, 0, false, false, true),
       (2 * 2 ^ 20 + 1, 0, false, false, true), (0, 0, false, false, false)] ∧
    (∀ s ∈ posts, (∀ j, j < 2 ^ s.futLog → s.slotAt (0x4080 + 32 * ·) j ∧ s.linkAt j (0x4180 + 8 * j)) ∧
      s.futureAt 1 0x4020 ⟨0, 1, 3, 0, 0⟩) ∧
    (∃ s ∈ posts, rcVent (s.peek ((Space.lm 0).loc 0x100) 64) = true ∧ s.ventAt 5 (4096 + s.channel 5)) := by
  refine ⟨by decide +kernel, by decide +kernel, fun s h => ⟨fun j hj => ?_, entry_at (mem_post h) (by decide) ?_⟩,
    tabledAs (plainRec + 2 ^ 451) [] 0, List.mem_cons_of_mem _ (List.mem_cons_of_mem _ (List.mem_cons_self ..)), by decide +kernel, by decide, by decide, pageTlb, plain, 5, false, ?_⟩
  · rw [(table_base (mem_post h)).2] at hj
    exact ⟨slot_at (mem_post h) hj, link_at (mem_post h) hj⟩
  · exact (by decide +kernel : ∀ s ∈ posts, entryIs s 1 ⟨0, 1, 3, 0, 0⟩) s h
  · exact ⟨by decide +kernel, by decide +kernel, by decide +kernel, rfl⟩

/-- An address in the package's caldera die 0. -/
def calVA (off : Nat) : Nat := 0xFFF0000000000 + off
/-- A port record of one sender cell and one receiver cell, with its tables in granule 1 of caldera die 0 and a buffer in the versioned
granule 0, mapped at 0x80000. -/
def portRec : Nat :=
  0x6C3E * 2 ^ 48 + 2 ^ 64 + 2 ^ 85 + calVA 0x18000 * 2 ^ 128 + calVA 0x19000 * 2 ^ 192 + 0x80000 * 2 ^ 256 + 0x801 * 2 ^ 256 * 2 ^ 256
def ported (r : SMap Word) : State :=
  let s := mapped (sup r)
  let s := s.withMyCore fun c => c.csrSet cPORTBASE (BitVec.ofNat 64 (calVA 0x1A000))
  let at' := (Space.cal false).loc
  let m := Memory.writes [] (at' 0x1A000) (leBytes 128 portRec)
  let m := Memory.writes m (at' 0x18000) (leBytes 32 (0x3E71 + 2 ^ 64 + 2 ^ 96 + 2 ^ 128))
  let m := Memory.writes m (at' 0x18024) (leBytes 4 1)
  let m := Memory.writes m (at' 0x18060) (leBytes 4 1)
  let m := Memory.writes m (at' 0x18080) (leBytes 8 1)
  let m := Memory.writes m (at' 0x19000) (leBytes 16 (2 ^ 21 + (2 ^ 21 + 2 ^ 51) * 2 ^ 64))
  { s with mem := m, ports := [(0, { Port.reset with ten := some 0 })],
           cals := [(0, { Cal.reset with gran := [(0, ⟨0, 0, true⟩), (1, ⟨0, 0, false⟩)] })],
           dev := { s.dev with tlb := s.dev.tlb ++ [⟨0, 0, 1, 1, 19, 0x877⟩] } }
def portTables : PTables := ⟨[2 ^ 21, 2 ^ 21 + 2 ^ 51], [[(0, 1)]], 1⟩
def freshLd : PortLd :=
  { image := BitVec.ofNat 1024 portRec, pnode := 1, sl := [BitVec.ofNat 64 (2 ^ 21), BitVec.ofNat 64 (2 ^ 21 + 2 ^ 51)], nextv := 0,
    rel := 0, acc := [], accPois := [], dt := [], cl := [], rl := [], pflags := 0, seeded := false, asked := none, owes := false }
def loadedPort (q : PortLd) (r : SMap Word) : State := { ported r with ports := [(0, { ten := some 0, ld := some q })] }

set_option maxRecDepth 100000 in
set_option exponentiation.threshold 2000 in
theorem witness_PortLoad :
    let s := ported []
    let v := portRec
    (s.portNamed 1 0 ∧ s.fenced ∧ s.myCore.cpois.contains cPORTBASE = false ∧ (s.myCore.csrGet cPORTBASE + BitVec.ofNat 64 (128 * 0)).toNat = calVA 0x1A000 ∧
      v = v % 2 ^ 512 + v / 2 ^ 512 * 2 ^ 512 ∧ v / 2 ^ 48 % 2 ^ 16 = 0x6C3E ∧ pRes v = 0 ∧ pSTYPE v ≠ 3 ∧ pRTYPE v ≠ 3 ∧
      pWTAB v % 32 = 0 ∧ pSLTAB v % 8 = 0 ∧ pRBUF v % 8 = 0 ∧ pSEEDP v % 8 = 0 ∧ pTEN v = s.myTen ∧ pSPNODE v = 1 ∧ pRPNODE v = 1 ∧
      ((s.part? 1).map fun x => x.ten) = some (some s.myTen) ∧ s.myPart = pSPNODE v ∧ 0 < pNS v ∧ pNS v ≤ 2 ^ 20 ∧ 0 < pNR v ∧
      pNR v ≤ 2 ^ 20 ∧ (s.port 0).ld = none ∧ pSEED v = false ∧
      (s.ports.filterMap fun e => if e.1 / 256 = 0 / 256 then e.2.ld.map fun q => pNEED q.img else none).sum + pNEED v ≤ 8 * 1024 * 1024) ∧
    (let a := calVA 0x1A000
     (ctxRead a 64).leads s s (v % 2 ^ 512) ∧ (ctxRead (a + 64) 64).leads s s (v / 2 ^ 512) ∧
     (readTables ctxRead (fun r i => portFault 0 r i) v).leads s s portTables ∧
     (checkAreas ctxRead (fun r i => portFault 0 r i) v portTables).leads s s () ∧
     (checkBuffer (ctxLeaf .store) (fun r i => portFault 0 r i) v).leads s s () ∧ (seedLeaves v).leads s s ()) ∧
    (∀ x ∈ [freshLd, { freshLd with image := 0 }], let s := loadedPort x []
     s.portNamed 1 0 ∧ s.fenced ∧ s.noTiles ∧ (x.img = v ↔ x = freshLd)) ∧
    (let s := loadedPort { freshLd with image := 0 } []
     (ctxRead (calVA 0x1A000) 64).leads s s (v % 2 ^ 512) ∧ (ctxRead (calVA 0x1A000 + 64) 64).leads s s (v / 2 ^ 512)) ∧
    (let s := loadedPort freshLd []
     (ctxRead (calVA 0x1A000) 64).leads s s (v % 2 ^ 512) ∧ (ctxRead (calVA 0x1A000 + 64) 64).leads s s (v / 2 ^ 512)) :=
  ⟨by decide +kernel, by refine ⟨?_, ?_, ?_, ?_, ?_, ?_⟩ <;> exact fun _ _ => rfl, by decide +kernel,
   ⟨fun _ _ => rfl, fun _ _ => rfl⟩, fun _ _ => rfl, fun _ _ => rfl⟩

/-- The receiver buffer of a loaded port is word 0 of the versioned granule. -/
theorem buffer_at {s : State} {core ten p : Nat} (h : s.stage1 core ten p 0x80000 .store false = .ok 0x877 ∧
      s.route ten 0x877 0x80000 = .ok (.cal 0 false 0, true) ∧ s.ran (keepLeaf core ten p 0x80000 0x877) = s) (hd : s.dev.dir = []) :
    (engineTgt core ten p 0x80000 .store).leads s s (.ok (.cal 0 false 0, true)) := by
  have e := engineTgt_at (by decide) (by decide +kernel) h.1 h.2.1 (readyWalk_none fun k => by unfold State.holders; rw [hd]; rfl)
  rw [h.2.2] at e
  exact e

/-- The first slice of a side is the core's: what sliceOf asks of it. -/
abbrev firstSlice (s : State) (rs1 : XReg) (p : Nat) (q : PortLd) (side e : Nat) : Prop :=
  s.portNamed rs1 p ∧ (s.port p).ld = some q ∧ s.myPart = (if side = 0 then pSPNODE q.img else pRPNODE q.img) ∧
  ((if side = 0 then q.sl.take (pNSSL q.img) else q.sl.drop (pNSSL q.img)).map BitVec.toNat)[0]? = some e ∧
  (s.nodeCores s.myPart).idxOf? (coreOf s.dev.cur) = some (slCORE e)
theorem slice_first {s : State} {rs1 : XReg} {p side e : Nat} {q : PortLd} (h : firstSlice s rs1 p q side e) :
    s.sliceOf rs1 p q side 0 e :=
  ⟨h.1, h.2.1, h.2.2.1, h.2.2.2.1, h.2.2.2.2, fun _ _ hj => absurd hj (Nat.not_lt_zero _)⟩

set_option maxRecDepth 100000 in
theorem witness_PortPut :
    let r : SMap Word := [(2, 0x3FF0000000000000), (3, 0xFFF0000000000100), (4, 0xFFF0000000000101)]
    let s := loadedPort freshLd r
    let q := { freshLd with cl := [0] }
    let t := loadedPort q r
    let n := stSize freshLd.img
    (firstSlice s 1 0 freshLd 0 (2 ^ 21) ∧ s.readable 3 ∧ s.s2Readable (.reg 2) ∧ dtOk (s.x 2) = true ∧
      freshLd.cl.contains 0 = false ∧ (s.x 3).toNat % n = 0 ∧ firstSlice t 1 0 q 0 (2 ^ 21) ∧ q.cl.contains 0 = true) ∧
    (∀ i < slCOUNT (2 ^ 21), let va := s.x 3 + BitVec.ofNat 64 (n * i)
      va.toNat % 2 ^ 52 < 0x200000 ∧ s.localAt .load va n 0 0x100 ∧ s.poisoned ((Space.lm 0).loc 0x100) n = false) ∧
    (let b : By := ⟨.ctx s.dev.cur, s.dev.cur, s.me.pc⟩
     let a : Acc := ⟨s.x 3, .lm 0 0x100, 0, false⟩
     (M.mapL (fun i => do
       let a ← cellAt n (s.x 3 + BitVec.ofNat 64 (n * i))
       let v ← versionedAt b (coreOf s.dev.cur) s.myTen a n
       return (a, v)) (List.range (slCOUNT (2 ^ 21)))).leads s s [(a, false)] ∧
     (readCells b n [(a, false)]).leads s s [0]) :=
  ⟨by decide +kernel, by decide +kernel, ⟨fun _ _ => rfl, fun _ _ => rfl⟩⟩

set_option maxRecDepth 100000 in
theorem witness_PortWaits :
    let q := { freshLd with dt := [(0, 0x3FF0000000000000)] }
    let q2 := { freshLd with nextv := 2, rel := 1, rl := [(0, 1)] }
    let q3 := { freshLd with nextv := 2, rel := 1, rl := [(0, 2)] }
    let r : SMap Word := [(2, 1), (3, 2)]
    let closed := { q with cl := [0] }
    let w : Wait := { cls := .pclose 0, seq := 0, acted := some 0, req := none }
    let waits := fun (s : State) => s.withMe fun c => { c with wait := some w }
    let sends : Nat := 2 ^ 21
    let takes : Nat := 2 ^ 21 + 2 ^ 51
    ((∀ x ∈ [q, freshLd, closed], firstSlice (loadedPort x r) 1 0 x 0 sends ∧ (loadedPort x r).fenced ∧
        (loadedPort x r).me.wait = none ∧ firstSlice (waits (loadedPort x r)) 1 0 x 0 sends ∧ (waits (loadedPort x r)).me.wait = some w) ∧
      q.cl.contains 0 = false ∧ SMap.get (fun _ => 0) q.dt 0 ≠ 0 ∧ q.nextv < 2 ^ 32 ∧ SMap.get (fun _ => 0) freshLd.dt 0 = 0 ∧
      (0 : Nat) < q2.nextv ∧ freshLd.nextv ≤ 0) ∧
    (∀ x ∈ [q2, q3], firstSlice (loadedPort x r) 1 0 x 1 takes ∧ (loadedPort x r).s2Readable (.reg 2) ∧ (loadedPort x r).fenced) ∧
    (let n := fun x => ((loadedPort q2 r).s2 (.reg x)).toNat % 2 ^ 32
     let up := fun (q : PortLd) => { q with rl := SMap.set (fun _ => 0) q.rl 0 (max (SMap.get (fun _ => 0) q.rl 0) (n 2 + 1)) }
     n 2 < q2.nextv ∧ q2.nextv ≤ n 3 ∧ q2.rel < (up q2).minRl ∧ (up { q3 with rel := 2 }).minRl ≤ 2) ∧
    (let s := loadedPort q2 r
     let t := s.ran (do let _ ← reclaimNow q2 2 q2.bufferPieces; pure ())
     (∃ done, (reclaimNow q2 2 q2.bufferPieces).leads s t done) ∧ (t.port 0).ld = some q2) ∧
    ((ported r).portNamed 1 0 ∧ ((ported r).port 0).ld = none ∧ (loadedPort q r).portNamed 1 0 ∧
      (let s := loadedPort { freshLd with seeding := true } r
       s.readable 1 ∧ s.s2Readable (.reg 2) ∧ s.seeding s.myTen = true)) :=
  ⟨by decide +kernel, by decide +kernel, by decide +kernel, ⟨⟨true, reclaimNow_at (buffer_at (by decide +kernel) rfl) rfl rfl (M.leads_pure _ _)⟩, by decide +kernel⟩,
   by decide +kernel⟩

set_option maxRecDepth 100000 in
theorem witness_PortPublish :
    let q := { freshLd with cl := [0], dt := [(0, 0x3FF0000000000000)] }
    let s := loadedPort q []
    let bad := fun (_ _ : Nat) => (M.stop (breakPort 0) : M Unit)
    let ws := versionWords (versionBytes q.img ((portTables.rows.map (remapRow q.img (averages q portTables.sl).1)).map (·.1))).1
    let store := M.each (fun (e : Nat × (Word × Bool)) => storeVersion 0 q q.nextv (pRBUF q.img + 8 * e.1) e.2) ((List.range ws.length).zip ws)
    ((s.port 0).ld = some q ∧ q.cl.length = pNSSL q.img ∧ q.live < pDEPTH q.img ∧ q.asked = none ∧ q.owes = false ∧
      s.seeding (pTEN q.img) = false ∧ (s.vf (pTEN q.img)).paused = false) ∧
    (readTables (portRead 0 q) bad q.img).leads s s portTables ∧ (checkBuffer (portLeaf 0 q) bad q.img).leads s s () ∧
    (∃ t, store.leads s t () ∧ (t.port 0).ld = some q) ∧
    ¬(freshLd.cl.length = pNSSL freshLd.img ∧ freshLd.live < pDEPTH freshLd.img ∧ freshLd.asked = none ∧ freshLd.owes = false) :=
  ⟨by decide +kernel, fun _ _ => rfl, fun _ _ => rfl, ⟨_, M.leads_bind (storeVersion_at (buffer_at (by decide +kernel) rfl) rfl) (M.leads_pure _ _), by decide +kernel⟩,
   by decide +kernel⟩

/-- A context at caldera die 0, with granule 0 in a given owner's hands and a limit. -/
def calState (g : SMap Gran) (limit : SMap Nat) : State :=
  { sup [(1, 1), (2, 32769), (3, granVA 0 false 0), (4, 32768)] with cals := [(0, { Cal.reset with gran := g, limit := limit })] }
theorem witness_CalderaOps :
    (let s := calState [(1, ⟨0, 0, false⟩)] [(0, 2)]
     s.readable 0 ∧ s.readable 1 ∧ s.readable 2 ∧ s.s2Readable (.con 0) ∧ s.fenced ∧ s.me.pend = [] ∧
     (s.s2 (.reg 0)).toNat < 2 ^ 9 ∧ (s.s2 (.reg 0)).toNat / 32 % 8 = 0 ∧ (s.s2 (.reg 0)).toNat / 2 % 16 = s.pres.pkg.toNat ∧
     s.pres.pkg.toNat < s.pres.group ∧ s.calLost s.pres.pkg.toNat false = false ∧ (s.x 0).toNat = 0 ∧ 32768 < (s.x 2).toNat ∧
     (s.cal false).limitOf s.myTen < (s.cal false).usedBy s.myTen + 2 * granCost false ∧
     (s.cal false).usedBy s.myTen + 1 * granCost false ≤ (s.cal false).limitOf s.myTen ∧ (s.cal false).inUse + 1 * granCost false ≤ 32768 ∧
     (s.cal false).granOk) ∧
    (let s := calState [] [(0, 65535)]
     s.fenced ∧ 0 < (s.x 4).toNat ∧ (s.x 4).toNat ≤ 32768 ∧ (s.cal false).usedBy s.myTen + 32768 * granCost false ≤ (s.cal false).limitOf s.myTen ∧
     (s.cal false).inUse + 32768 * granCost false ≤ 32768 ∧ (s.cal false).granOk) ∧
    (let s := calState [(1, ⟨0, 0, false⟩)] [(0, 2)]
     0 + 1 ≤ 32768 ∧ ∀ k < 1, SMap.find (s.cal false).gran (0 + k) = none) ∧
    (let s := calState [(1, ⟨1, 0, false⟩)] [(0, 65535)]
     s.fenced ∧ (s.cal false).usedBy s.myTen + (s.x 4).toNat * granCost false ≤ (s.cal false).limitOf s.myTen ∧ (s.cal false).granOk ∧
     0 < (s.x 4).toNat ∧ (s.x 4).toNat ≤ 32768 ∧ (32768 < (s.cal false).inUse + (s.x 4).toNat * granCost false)) ∧
    (let s := calState [(0, ⟨0, 0, false⟩)] []
     s.pres.pkg.toNat < s.pres.group ∧ s.x 3 = granVA s.pres.pkg.toNat false 0 ∧ s.calLost s.pres.pkg.toNat false = false ∧ s.holds false s.myTen 0 1 = true ∧
     s.holds false s.myTen 0 2 = false) ∧
    (let s := { calState [(0, ⟨0, 0, false⟩)] [] with dev := { State.reset.dev with scrubs := [⟨3, .gran false 0⟩] } }
     s.dev.scrubs.find? (fun x => x.id == 3) = some ⟨3, .gran false 0⟩ ∧ (s.dev.acks.any fun a => a.1 == 3) = false) := by decide +kernel

/-- Core 0 with a vector length, and its vector queue. -/
def vlong (n : Word) : State :=
  (sup [(1, 0xFFF0000000000100), (2, 8)]).withMe fun c => c.csrSet false cVL n
theorem witness_VectorIssue :
    (vShape (.vadd true 1 2 (.reg 2)) = some ⟨true, false, some 2, elementPasses true⟩ ∧ vScalarDest (.vmvxs true 5 1) = some 5 ∧
      vScalarDest (.vadd true 1 2 (.reg 2)) = none) ∧
    ((vlong 32).onVent = false ∧ (vlong 32).me.cpois.contains cVL = false ∧ (vlong 0).vlen = 0 ∧ (vlong 32).vlen = 32 ∧
      (vlong 32).me.cpois.contains cFRM = false ∧ (vlong 32).readable 2 ∧ (vlong 32).noTiles ∧
      (vlong 0).onVent = false ∧ (vlong 0).me.cpois.contains cVL = false) ∧
    (32 < (vlong 33).vlen ∧ (box 65536).onVent = true ∧ (box 65536).noTiles) ∧
    ((vlong 2).vlen ≠ 0 ∧ (vlong 2).readable 1 ∧ (vlong 2).myCore.vq = [] ∧ (vlong 2).myCore.vpois.getLsbD 3 = false) ∧
    (∀ e ∈ [(⟨0, .vadd false 4 2 (.reg 3), 0, 2, 0, 7, 1, [], .ahead⟩ : VEnt), ⟨0, .vld .w 0 3 1, 0, 0, 0, 7, 0, [], .ahead⟩],
      e.vl = 0 ∨ vDest e.instr ≠ some 3) ∧
    (∀ a ∈ [0xFFF0000000000100, 0xFFF0000000000108], a % 4 = 0 ∧ (vlong 2).windowBad 0 a = false ∧
      (vlong 2).window 0 .vload a 4 = .ok (some (.lm 0 (a % 65536))) ∧ (vlong 2).window 0 .vstore a 4 = .ok (some (.lm 0 (a % 65536)))) :=
  ⟨⟨rfl, rfl, rfl⟩, by decide +kernel, by decide +kernel, by decide +kernel, by decide +kernel, by decide +kernel⟩
/-- Core 0 whose vector queue holds one instruction, in the last cycle that it is bound. -/
def queued (i : Instr) (n : Nat) : State :=
  ((user []).setCore 0 { Core.reset with vq := [⟨0, i, 0, n, 0, 7, 1, [], .ahead⟩] }).setCluster 0 { Cluster.reset with bound := [(0, 1)] }
set_option maxRecDepth 100000 in
theorem witness_VectorRetire :
    let e : VEnt := ⟨0, .vadd false 1 2 (.reg 3), 0, 2, 0, 7, 1, [], .ahead⟩
    let x : VEnt := ⟨0, .vmvxs false 5 1, 0, 2, 0, 7, 1, [], .ahead⟩
    (((queued e.instr 2).core 0).vq = [e] ∧ ((queued x.instr 2).core 0).vq = [x] ∧
      ((queued e.instr 0).core 0).vq = [⟨0, e.instr, 0, 0, 0, 7, 1, [], .ahead⟩] ∧
      SMap.find ((queued e.instr 2).cluster (0 / 4)).bound (0 % 4) = some 1 ∧ e.passes ≠ 0 ∧
      SMap.find (((queued e.instr 2).setCluster 0 Cluster.reset).cluster (0 / 4)).bound (0 % 4) = none) ∧
    vEffect ((queued e.instr 2).vin 0 e) e.instr = .reg [2] 1 32 [7, 7] 0 ∧
    vEffect ((queued x.instr 2).vin 0 x) x.instr = .scalar [1] 5 0 ∧
    ([1, 2] : List VReg).any (fun r => ((queued x.instr 2).core 0).vpois.getLsbD r.toNat) = false ∧
    { x with dest := Dest.passed }.dest = .passed ∧ ((queued e.instr 2).ctx 0).due = none :=
  ⟨⟨rfl, rfl, rfl, rfl, by decide, rfl⟩, rfl, rfl, by decide +kernel, rfl, rfl⟩
/-- What the clauses on a vector load or store ask of a head whose two elements overlap or are apart, and of one that meets a cause. -/
theorem witness_VectorRetire_memory :
    let els : List (Word × Word) := [(0xFFF0000000000100, 0), (0xFFF0000000100102, 0)]
    let at' := fun (k : Nat) => if k = 0 then ((0, 0x100) : Nat × Nat) else (0, 0x102)
    let loc := fun (k : Nat) => (Space.lm (at' k).1).loc (at' k).2
    (∀ i ∈ [Instr.vldx .h 0 1 1 2, .vsts .w 0 1 1 (.con 1)], (State.vMemForm i).isSome = true) ∧
    (State.elementAt 0 0xFFF0000000000100 0 0x100 ∧ State.elementAt 0 0xFFF0000000100102 0 0x102) ∧
    (∀ k < 2, ((user []).core (at' k).1).locked false (at' k).2 2 true = none ∧ (user []).poisoned (loc k) 2 = false) ∧
    els.length = 2 ∧ VMemFmt.h.stride * (1 + 1) ≤ 2048 ∧ loc 0 + 2 = loc 1 ∧
    (let c := { Core.reset with locks := [⟨false, 0x102, 2, true, 0⟩], vpois := 2 }
     (((user []).setCore 0 c).core 0).locked false 0x102 2 true ≠ none ∧ (((user []).setCore 0 c).core 0).locked false 0x100 2 true = none ∧
     ([1] : List VReg).any (fun r => c.vpois.getLsbD r.toNat) = true) ∧
    ({ user [] with pois := [loc 0] }).poisoned (loc 0) 2 = true ∧
    (let x : VIn := ⟨fun r => if r = 1 then 0x7F00000000 else 0, 2, .rne, 0⟩
     ∃ reads, vEffect x (.vcvt 0 3 false 2 1) = .cause reads 0x08 1) :=
  ⟨by decide +kernel, ⟨.inl (by decide +kernel), .inr ⟨0, by decide +kernel⟩⟩, by decide +kernel, rfl, by decide, by decide +kernel,
   by decide +kernel, by decide +kernel, _, rfl⟩
theorem witness_VectorElements :
    (0 < 32 ∧ ∀ x ∈ [5, 2 ^ 32 - 1], x < 2 ^ 32) ∧
    (let x : VIn := ⟨fun r => if r = 1 then 0x7F00000000 else 0, 2, .rne, 0⟩
     let bad := fun (v : VReg) (i : Nat) => lane (x.reg v) (cvtStride 3) (cvtWidth 3) i % 128 = 0x7F
     0 < x.n ∧ x.n ≤ 64 ∧ 1 < x.n ∧ bad 1 1 ∧ ¬bad 1 0 ∧ ¬bad 2 0 ∧ ¬bad 2 1) := by decide

/-- Window entries of core 0. -/
def tileEnt (i : Instr) (st : TSt) (num : Nat := 0) : TEnt :=
  let op : TOp := { word := (wordOf i).setWidth 32, opa := 0xFFF0000000000100, opb := 3, pc := 0, num := num }
  { op := op, origs := [op], count := 0, fresh := 0, rule := none, group := 0, sup := true, st := st, replay := none }
def windowed (w : List TEnt) : State := near.withMyCore fun c => { c with win := w }
theorem witness_TileIssue :
    tileForm (.tld 0 1 1) = some (1, 0, some 1) ∧
    (let s := windowed []
     s.onVent = false ∧ s.onControl = true ∧ s.me.busy 1 = false ∧ s.me.busy 0 = false ∧ s.me.tick.bad 1 = false ∧
     s.me.tick.bad 0 = false ∧ s.myCore.cpois.contains cRWPERM = false ∧ s.myCore.rules = [] ∧ (originals [] s.myCore.win).length < 8) ∧
    8 ≤ (originals [] (windowed ((List.range 8).map fun n => tileEnt (.tzero 1) .held n)).myCore.win).length :=
  ⟨rfl, by decide +kernel, by decide +kernel⟩
/-- What the clause on a start asks of a committed instruction at the front of core 0's window, and of its operands. -/
abbrev startable (s : State) (e : TEnt) (i : Instr) : Prop :=
  let c := s.core 0
  c.win = [e] ∧ e.st = .committed ∧ s.tileReady 0 = true ∧ e.rule = none ∧ tileWord e.op.word.toNat = some i ∧
  (∀ u ∈ c.tileUses i e.op, s.tileUseOk 0 e.early e.sup u) ∧ (∀ t ∈ tileReads i, c.tpois.getLsbD t.toNat = false)
def canStart (s : State) (e : TEnt) (i : Instr) : Bool := decide (startable s e i)
abbrev operandsIn (s : State) (e : TEnt) (i : Instr) : Prop :=
  let c := s.core 0
  let us := c.tileUses i e.op
  let a := ((us.find? fun u => !u.slot && !u.wr).map fun u => s.bytesAt ((Space.lm 0).loc (tileOff u.a)) u.n).getD []
  let slot := if us.any (·.slot) then s.bytesAt ((Space.bstore 0).loc (e.op.opb.toNat % 2 ^ 10 * 2048)) 2048 else []
  (∀ n ∈ c.tileCsrs i, c.cpois.contains n = false) ∧
  (isMma i = true → afmt c < 2 ∧ bfmt c < 2 ∧ (afmt c = 0 → State.noReserved a) ∧ (bfmt c = 0 → State.noReserved slot))
abbrev tileSamples : List Instr := [.tst 0 .f32 1 1 2, .tmma 1 1 2, .tbld 0 1 2, .tzero 1]
set_option maxRecDepth 100000 in
theorem witness_TileRun_starts : ∀ i ∈ tileSamples,
    let s := windowed [tileEnt i .committed]
    startable s (tileEnt i .committed) i ∧ (s.unfold 0).win = [tileEnt i .committed] := fun i h =>
  ⟨of_decide_eq_true ((by decide +kernel : ∀ i ∈ tileSamples, canStart (windowed [tileEnt i .committed]) (tileEnt i .committed) i = true) i h),
   (by decide +kernel : ∀ i ∈ tileSamples, ((windowed [tileEnt i .committed]).unfold 0).win = [tileEnt i .committed]) i h⟩
/-- Memory that nothing has written holds no reserved byte. -/
theorem unwritten_reads (n : Nat) : ∀ a, ∀ b ∈ Memory.reads [] a n, b.toNat % 128 ≠ 0x7F := by
  induction n with
  | zero => intro _ _ h; cases h
  | succ n ih =>
    intro a b h
    rcases List.mem_cons.mp h with rfl | h
    · exact (by decide : (0 : Byte).toNat % 128 ≠ 0x7F)
    · exact ih _ b h
theorem unwritten_noReserved (a n : Nat) : State.noReserved (Memory.reads [] a n) :=
  fun b h => unwritten_reads n a b (List.mem_of_mem_take h)
theorem pick_noReserved {α : Type} (o : Option α) (f : α → List Byte) (h : ∀ x, State.noReserved (f x)) :
    State.noReserved ((o.map f).getD []) := by
  cases o with
  | none => intro b h; cases h
  | some x => exact h x
theorem witness_TileRun_operands : ∀ i ∈ tileSamples,
    operandsIn (windowed [tileEnt i .committed]) (tileEnt i .committed) i := fun i h =>
  ⟨(by decide +kernel : ∀ i ∈ tileSamples,
      ∀ n ∈ ((windowed [tileEnt i .committed]).core 0).tileCsrs i, ((windowed [tileEnt i .committed]).core 0).cpois.contains n = false) i h,
   fun _ => ⟨(by decide +kernel : ∀ i ∈ tileSamples,
      afmt ((windowed [tileEnt i .committed]).core 0) < 2) i h, (by decide +kernel : ∀ i ∈ tileSamples,
      bfmt ((windowed [tileEnt i .committed]).core 0) < 2) i h,
    fun _ => pick_noReserved _ _ fun _ => unwritten_noReserved _ _,
    fun _ => by
      split
      · exact unwritten_noReserved _ _
      · intro b h; cases h⟩⟩
theorem witness_TileRun :
    ((windowed [tileEnt (.tzero 1) .held]).core 0).win = [tileEnt (.tzero 1) .held] ∧ (tileEnt (.tzero 1) .held).st ≠ .committed ∧
    (let els := List.replicate 1023 0 ++ [5]
     els.length = 1024 ∧ (∀ x ∈ els, x < 2 ^ 40) ∧
     (tileEnt (.tzero 1) (.started ⟨some 1, tileEntries 1 els, 0⟩)).st = .started ⟨some 1, tileEntries 1 els, 0⟩) ∧
    ((tileEnt (.tzero 1) .held).rule = none ∧ (tileEnt (.tzero 1) .held).ran = []) ∧
    (∀ b : Bool, let c := if b then Core.reset.csrSet cMFMT 1 else Core.reset
      (List.replicate (if afmt c = 0 then 1024 else 2048) (0 : Byte)).length = (if afmt c = 0 then 1024 else 2048) ∧
      (List.replicate 2048 (0 : Byte)).length = 2048 ∧ (List.replicate 32 (0 : Byte)).length = 32 ∧
      (List.replicate 4096 (0 : Byte)).length = 4096) := by decide +kernel
/-- Core 0 with a rewrite image at LOCAL 0x100: no rule is valid. -/
def imaged : State := { near with mem := Memory.writes [] ((Space.lm 0).loc 0x100) (leBytes 64 (0x9E61 + 2550316348 * 2 ^ 240 * 2 ^ 240)) }
set_option maxRecDepth 100000 in
theorem witness_RewriteTable :
    (let s := imaged
     s.onVent = false ∧ s.onControl = true ∧ s.readable 1 ∧ s.fenced ∧ (s.x 1).toNat % 64 = 0 ∧ exposed (s.x 1) = true ∧
     s.windowBad s.dev.cur (s.x 1).toNat = false ∧ s.window s.dev.cur .load (s.x 1).toNat 2112 = .ok (some (.lm 0 0x100)) ∧ (s.core 0).locked false 0x100 2112 false = none ∧
     s.poisoned ((Space.lm 0).loc 0x100) 2112 = false ∧ rulesOf (s.bytesAt ((Space.lm 0).loc 0x100) 2112) = some []) ∧
    rulesOf (near.bytesAt ((Space.lm 0).loc 0x100) 2112) = none ∧ near.fenced ∧ near.noTiles ∧
    (windowed [tileEnt (.tzero 1) .held]).myCore.win ≠ [] ∧
    (let c := { Core.reset with win := [tileEnt (.tzero 1) .held], dwell := 16 }
     (∃ e ∈ c.win, e.st = .held) ∧ 16 ≤ c.dwell) ∧
    leNat ((leBytes 4 7).take 2) ≠ 0x9E61 := by decide +kernel

/-- The control context of vent core 0 with a descriptor in its LOCAL, and its operations. -/
def vented (d : Nat) (ops : List VOp) : State :=
  let s := mapped ((box 65536).withMe fun c => { c with x := [(1, 0xFFF0000000000040), (2, 7)], sup := true })
  { s with mem := Memory.writes [] ((Space.lm 4096).loc 0x40) (leBytes 64 d), dev := { s.dev with vops := ops } }
/-- A push of four bytes, one of 100, and a decoding push with an empty directory entry. -/
def dPush : Nat := 4 * 2 ^ 192 + 0x2000 * 2 ^ 224 * 2 ^ 224
def dPush2 : Nat := 100 * 2 ^ 192 + 0x2000 * 2 ^ 224 * 2 ^ 224
def dDec : Nat := 0x6000 * 2 ^ 256 + 0x5000 * 2 ^ 160 * 2 ^ 160 + 0x3000 * 2 ^ 192 * 2 ^ 192 + 0x2000 * 2 ^ 224 * 2 ^ 224
def ventOp (func : Nat) (dec : Bool) (d : Nat) (status : Option (BitVec 8)) (done : Option Word) : VOp :=
  { id := 0, ctx := 65536, ten := 0, pnode := 1, func := BitVec.ofNat 4 func, dec := dec, nocq := false, nu := 0, desc := BitVec.ofNat 512 d,
    tag := 7, core := 0, pages := [(0, plain)], dir := 0, dirBad := false, status := status, done := done }

set_option maxRecDepth 100000 in
theorem witness_VentTransfers :
    (ventForm (.ventPush 0 false 1 2) = some (0, false, false, 0, 1, 2) ∧ ventForm (.ventPushDec 0 false 1 2) = some (0, true, false, 0, 1, 2)) ∧
    ((vented dPush []).onVent = true ∧ (vented dPush []).readable 1 ∧ (vented dPush []).readable 2 ∧ (vented dPush []).myOps.length < 8 ∧
      exposed ((vented dPush []).x 1) = true ∧ (vented dPush []).localAt .load ((vented dPush []).x 1) 64 4096 0x40 ∧
      (vented dPush []).poisoned ((Space.lm 4096).loc 0x40) 64 = false ∧ (vented dPush []).peek ((Space.lm 4096).loc 0x40) 64 = dPush ∧
      (vented dPush []).descOk (vented dPush []).myPart 0 false dPush = true ∧
      (vented 0 []).descOk (vented 0 []).myPart 0 false 0 = false ∧ (vented 0 []).peek ((Space.lm 4096).loc 0x40) 64 = 0 ∧
      (vented 0 []).localAt .load ((vented 0 []).x 1) 64 4096 0x40 ∧ (vented dDec []).descOk (vented dDec []).myPart 0 true dDec = true ∧
      (vented dDec []).localAt .load ((vented dDec []).x 1) 64 4096 0x40 ∧ (vented dDec []).peek ((Space.lm 4096).loc 0x40) 64 = dDec) ∧
    (let s := vented dPush []
     (ventPages (s.x 1) .vread ((vdRows 0 dPush).flatMap fun r => pieceStarts r.1 r.2.2) []).leads s.arrived s.arrived [(0, plain)]) ∧
    (let s := vented dDec []
     let o := { ventOp 0 true dDec none none with tag := 7 }
     let t := s.arrived.ran (do let _ ← readDir o; pure ())
     (ventPages (s.x 1) .vread (pieceStarts (vdDIR dDec + 8 * vdTILE dDec) 8) []).leads s.arrived s.arrived [(0, plain)] ∧
     (readDir o).leads s.arrived t (0, false) ∧
     (ventPages (s.x 1) .vread (pieceStarts (vdTAB dDec) 128 ++ pieceStarts (vdSCL dDec + 64 * vdTILE dDec) 64 ++
       pieceStarts (vdGA dDec + 32 * bitsOf 0 0 40) (32 * min (bitsOf 0 40 8) 64)) [(0, plain)]).leads t t [(0, plain)]) :=
  ⟨⟨rfl, rfl⟩, by decide +kernel, fun _ _ => rfl, fun _ _ => rfl, fun _ _ => rfl, fun _ _ => rfl⟩

set_option maxRecDepth 100000 in
set_option maxRecDepth 100000 in
theorem witness_VentCompletion :
    ((vented 0 []).onVent = true ∧ (vented 0 []).readable 1 ∧ (vented 0 []).readable 2 ∧ (vented 0 []).fenced ∧
      (vented 0 []).myOps.length < 8 ∧ ((vented 0 []).nodeCores (vented 0 []).myPart).contains (((vented 0 []).x 1).toNat % 4096) = true ∧
      (let s := { vented 0 [] with pres := { presReset with clpres := 1 } }
       s.fenced ∧ (s.nodeCores s.myPart).contains ((s.x 1).toNat % 4096) = false) ∧
      (vented 0 []).ventEntry (vented 0 []).dev.cur none = none) ∧
    (let o := ventOp 0 false dPush none none
     let x := ventOp 5 false 0 (some 0) (some 9)
     (vented 0 [o]).ventEntry 65536 (some 7) = some o ∧ o.done = none ∧ (vented 0 [x]).ventEntry 65536 none = some x ∧ x.done = some 9) ∧
    (let o := ventOp 5 false 0 (some 0) none
     let s := (vented 0 [o]).setCore 0 { Core.reset with cq := List.replicate 16 0 }
     (vented 0 [o]).dev.vops.find? (fun o => o.id == 0) = some o ∧ (vented 0 [o]).canFinish o = true ∧ s.canFinish o = false) ∧
    (let o := ventOp 0 false dPush none none
     let s := vented 0 [o]
     let u := s.ran (do let _ ← moveNext (.vop 0) o; pure ())
     let big := ventOp 0 false dPush2 none none
     let far := { o with pages := [(0, 0x1000000837)] }
     (s.pausedTen o.ten = false ∧ (s.setVf 0 { s.vf 0 with paused := true }).pausedTen o.ten = true ∧ o.status = none ∧ o.dec = false ∧
       vdBytes o.func.toNat false o.desc.toNat ≤ o.moved + 4 ∧ big.moved + 32 < vdBytes big.func.toNat false big.desc.toNat) ∧
     ((moveNext (.vop 0) o).leads s u (some (4, 0)) ∧ u.canFinish o = true) ∧
     (let b := vented 0 [big]
      (moveNext (.vop 0) big).leads b (b.ran (do let _ ← moveNext (.vop 0) big; pure ())) (some (32, 0))) ∧
     (let s := { vented 0 [far] with pres := { presReset with group := 2 } }
      let s := { s with dev := { s.dev with peers := [(1, { incarn := some 7, lost := true, ca1 := false, gone := false })] } }
      s.canFinish far = true ∧ (moveNext (.vop 0) far).leads s s none)) ∧
    (let d := ventOp 0 true dDec none none
     let e := { d with id := 1, dirBad := true }
     (∃ x ∈ (vented 0 [d, e]).dev.vops, x.dec = true ∧ x.core = e.core ∧ x.id < e.id ∧ x.status = none) ∧
     (¬∃ x ∈ (vented 0 [e]).dev.vops, x.dec = true ∧ x.core = e.core ∧ x.id < e.id ∧ x.status = none) ∧
     (decodePush e).leads (vented 0 [e]) (vented 0 [e]) 0x0D) ∧
    (let o := ventOp 0 false dPush none none
     let p := ventOp 1 false dPush none none
     let s := vented 0 [o]
     s.vopTgt o 0x2000 = .ok (.hbm 0x2000, false) ∧ s.holders (0x2000 / 64) = [] ∧ vIn o.func.toNat = true ∧ vIn p.func.toNat = false ∧
     nearSources (vdRows 0 dPush) (vdOFF dPush + o.moved) 4 = [(0x2000, 4)] ∧ s.poisoned 0x2000 4 = false ∧
     4 = min (32 - (vdOFF dPush + o.moved) % 32) (vdBytes 0 false dPush - o.moved) ∧
     beatAt (joinRows (vdRows 1 dPush)) p.moved = some (0x2000, 4, [(0, 4)]) ∧ s.poisoned (p.nearLoc 0) 4 = false) :=
  ⟨by decide +kernel, by decide +kernel, by decide +kernel, ⟨by decide +kernel, ⟨fun _ _ => rfl, by decide +kernel⟩, fun _ _ => rfl, by decide +kernel,
     M.leads_bind (vopBytes_lost (pkg := 1) (ca := false) (off := 8192) (by decide +kernel) (by decide +kernel)) (M.leads_pure none _)⟩,
   ⟨by decide +kernel, by decide +kernel, fun _ _ => rfl⟩, by decide +kernel⟩

/-- The package with cluster 0 as a partition of its own, and translations of page 0 in it. -/
def leafPart : Machine.Part := { Part.reset with st := .running, ten := some 0, futbase := 0x4000, futlog := 2 }
def leaf (q : Machine.Part) : State :=
  { State.reset with parts := [(1024, q)], vfs := [(0, { Vf.reset with s2 := [(0, 0)] })],
                     dev := { State.reset.dev with tlb := [⟨0, 0, 1024, 0, 19, plain⟩, ⟨0, 0, 1024, 1, 19, plain ||| 0x80040⟩] } }
def rec0 : DqRec := ⟨1024, 0, 0, 0, 0, 0, 0⟩

def dequed (v : Nat) (k : Core) : State := (leaf leafPart).setCore v k
def tookRec (s : State) (v : Nat) : State := s.setCore v { s.core v with deque := (s.core v).deque.filter fun x => x ≠ rec0 }
def readSlotAt (u : State) (core : Nat) : M (Nat × Bool) := readSlot { u.tabOf (.eng core) 1024 with core := core } 0

/-- Slot 0 of the table is two words of HBM in no cache. -/
theorem slot0_at (core : Nat) (s : State) (b : Bool)
    (h : ∀ va ∈ [0x4080, 0x40A0], s.stage1 core 0 1024 va .store false = .ok plain ∧ s.route 0 plain va = .ok (.hbm va, false))
    (hk : s.ran (keepLeaf core 0 1024 0x4080 plain) = s ∧ s.ran (keepLeaf core 0 1024 0x40A0 plain) = s) (hd : s.dev.dir = [])
    (ht : { s.tabOf (.eng core) 1024 with core := core } = (⟨.eng core, core, 0, 1024, 0x4000, 2, false⟩ : Tab))
    (v0 : (s.peek 0x4080 32, s.poisoned 0x4080 32) = (0, b)) (v1 : (s.peek 0x40A0 32, s.poisoned 0x40A0 32) = (0, false)) :
    (readSlotAt s core).leads s s (0, b) := by
  have no : ∀ k, s.holders k = [] := fun k => by unfold State.holders; rw [hd]; rfl
  unfold readSlotAt
  rw [ht]
  have l0 := tabLoc_at (tb := ⟨.eng core, core, 0, 1024, 0x4000, 2, false⟩) (by decide) (by decide) (h 0x4080 (by simp)).1 (h 0x4080 (by simp)).2
    (readyWalk_none no)
  have l1 := tabLoc_at (tb := ⟨.eng core, core, 0, 1024, 0x4000, 2, false⟩) (by decide) (by decide) (h 0x40A0 (by simp)).1 (h 0x40A0 (by simp)).2
    (readyWalk_none no)
  rw [hk.1] at l0
  rw [hk.2] at l1
  have r := readSlot_at (j := 0) (tabPeek_at l0 (by decide) (fun k _ => no k) v0) (tabPeek_at l1 (by decide) (fun k _ => no k) v1)
  cases b <;> exact r

theorem witness_Dispatch_slots :
    let s := dequed 0 { Core.reset with deque := [rec0] }
    (readSlotAt (tookRec s 0) 0).leads (tookRec s 0) (tookRec s 0) (0, false) ∧
    (let u := tookRec { s with pois := [0x4080] } 0
     (readSlotAt u 0).leads u u (0, true)) ∧
    (let u := tookRec (dequed 2 { Core.reset with deque := [rec0, rec0] }) 2
     (readSlotAt u 0).leads u u (0, false)) ∧
    (let u := tookRec (dequed 4096 { Core.reset with deque := [rec0] }) 4096
     (readSlotAt u 4096).leads u u (0, false)) := by
  refine ⟨?_, ?_, ?_, ?_⟩ <;>
    exact slot0_at _ _ _ (by decide +kernel) (by decide +kernel) (by decide +kernel) rfl (by decide +kernel) (by decide +kernel)
theorem witness_DispatchAndInterrupts :
    let s := dequed 0 { Core.reset with deque := [rec0] }
    let s2 := dequed 2 { Core.reset with deque := [rec0, rec0], task := some ⟨0, 1024, 0, false⟩ }
    let vent := dequed 4096 { Core.reset with deque := [rec0] }
    (s.dispatching 0 = true ∧ (s.core 0).csrGet cRESBYPASS &&& 0x10000 = 0 ∧ ownerTakes (s.core 0).deque = some rec0) ∧
    (s2.dispatching 0 = true ∧ ownerTakes (s2.core 0).deque = none ∧ s2.steal 0 = some (2, rec0) ∧ 2 ≠ 0 ∧
      (leaf leafPart).dispatching 0 = true ∧ ownerTakes ((leaf leafPart).core 0).deque = none ∧ (leaf leafPart).steal 0 = none ∧
      (leaf Part.reset).dispatching 0 = false) ∧
    (firstClass (fun k => oldestOf k ((vent.core 4096).deque.filter vent.mayRun)) = some rec0 ∧ isVent 4096 = true ∧
      (vent.ctx (ctxId 4096 0)).run = .idle ∧ (vent.core 4096).task = none) ∧
    (let s := (dequed 0 { Core.reset with hostInt := true }).setCtx 0 (({ Ctx.reset 0 with run := .ready } : Ctx).csrSet false cXTVEC 0x100)
     s.irq 0 = some 3 ∧ s.irqReady 0 = true ∧ (s.core 0).win = []) := by decide +kernel

set_option maxRecDepth 100000 in
theorem witness_BoundariesAndQuiescence :
    ((leaf Part.reset).liveP 1024 = false ∧ (leaf { leafPart with pool := [0] }).boundary 1024 = false ∧
      (leaf { leafPart with pool := [0] }).complete 1024 = false) ∧
    ((leaf leafPart).part? 1024 ≠ none ∧ (leaf leafPart).liveP 1024 = true ∧ (leaf leafPart).complete 1024 = true ∧
      (leaf { leafPart with armed := true }).complete 1024 = true ∧ (leaf { leafPart with armed := true }).boundary 1024 = true) ∧
    (let s := leaf { leafPart with armed := true, pool := [0] }
     let d := leaf { leafPart with st := .draining, pool := [0] }
     s.liveP 1024 = true ∧ s.complete 1024 = false ∧ s.boundary 1024 = true ∧ (s.part 1024).st = .running ∧ (s.part 1024).held = [] ∧
     d.liveP 1024 = true ∧ d.complete 1024 = false ∧ d.boundary 1024 = true ∧ (d.part 1024).st = .draining) ∧
    (let w : Wait := { cls := .event, seq := 0, acted := none, req := none }
     let s := (leaf leafPart).setCtx 0 { Ctx.reset 0 with run := .parked, wait := some w }
     s.couplingSet 1024 = [1024] ∧ s.quiescent [1024] = true ∧ (s.part 1024).dead = false ∧ s.resolve [1024] = .dead 1 0x3FF ∧
     (s.part? 1024).isSome = true ∧ (leaf leafPart).quiescent ((leaf leafPart).couplingSet 1024) = false) := by decide +kernel

/-- A port of the partition to itself with a seed, on which a receiver waits. -/
def seedLd : PortLd :=
  { freshLd with image := BitVec.ofNat 1024 (2 ^ 11 + 2 ^ 64 + 2 ^ 85 + 0x80000 * 2 ^ 256 + 0x2000 * 2 ^ 160 * 2 ^ 160 +
                                              0x200400 * 2 ^ 256 * 2 ^ 256), pnode := 1024 }
def seeding : State :=
  { (leaf leafPart).setCtx 0 { Ctx.reset 0 with run := .parked, wait := some { cls := .pget 0 0, seq := 0, acted := none, req := none } } with
    ports := [(0, { ten := some 0, ld := some seedLd })] }
set_option maxRecDepth 100000 in
theorem witness_Quiescence_seed :
    (seeding.quiescent [1024] = true ∧ seeding.resolve [1024] = .seed 0 ∧ (seeding.port 0).ld = some seedLd ∧ seedLd.asked = none ∧
      seeding.couplingSet 1024 = [1024] ∧ (seeding.part 1024).dead = false ∧ seeding.seeding (pTEN seedLd.img) = false ∧
      seeding.seedFar seedLd = false) ∧
    (publishSeed 0 seedLd).leads seeding (seeding.ran (publishSeed 0 seedLd)) () :=
  ⟨by decide +kernel, fun _ _ => rfl⟩
set_option maxRecDepth 100000 in
theorem witness_Quiescence_seed_far :
    (let q := { seedLd with image := BitVec.ofNat 1024 (2 ^ 11 + 2 ^ 64 + 2 ^ 85 + 0x80000 * 2 ^ 256 + (calVA 0 + 2 ^ 36) * 2 ^ 160 * 2 ^ 160 +
       0x200400 * 2 ^ 256 * 2 ^ 256) }
     let s := { seeding with ports := [(0, { ten := some 0, ld := some q })], pres := { presReset with group := 2 } }
     s.quiescent (s.couplingSet 1024) = true ∧ s.couplingSet 1024 = [1024] ∧ s.resolve [1024] = .seed 0 ∧ (s.port 0).ld = some q ∧
     q.asked = none ∧ (s.part 1024).dead = false ∧ s.seeding (pTEN q.img) = false ∧ s.seedFar q = true) ∧
    (let q := { seedLd with seeding := true }
     let s := { seeding with ports := [(0, { ten := some 0, ld := some q })] }
     s.quiescent (s.couplingSet 1024) = true ∧ s.couplingSet 1024 = [1024] ∧ s.resolve [1024] = .seed 0 ∧ (s.port 0).ld = some q ∧
     (s.part 1024).dead = false ∧ s.seeding (pTEN q.img) = true) := by decide +kernel

/-- A command of function fn on node 1024 (its own OP), with arguments. -/
def commanding (fn op : Nat) (a0 a1 : Word) (q : Machine.Part) : State :=
  (leaf q).setVf fn { (leaf q).vf fn with cmd := some (BitVec.ofNat 19 (1024 * 256 + op)), arg0 := a0, arg1 := a1 }
theorem commanding_is (fn op : Nat) (a0 a1 : Word) (q : Machine.Part)
    (h : ((commanding fn op a0 a1 q).vf fn).paused = false ∧ ((commanding fn op a0 a1 q).vf fn).cmd = some (BitVec.ofNat 19 (1024 * 256 + op)) ∧
      (BitVec.ofNat 19 (1024 * 256 + op)).toNat % 256 = op ∧ (BitVec.ofNat 19 (1024 * 256 + op)).toNat / 256 = 1024) :
    (commanding fn op a0 a1 q).commanded fn op 1024 := ⟨h.1, _, h.2⟩

/-- A launch descriptor, with its root table, placement map and root record in the pages of block 0. -/
def launchD : Nat :=
  0x9000 + 0x8000 * 2 ^ 64 + 0x10000 * 2 ^ 128 + 0x40000 * 2 ^ 192 + (10 + 1024 * 2 ^ 16) * 2 ^ 208 * 2 ^ 208
def rootRec : Nat := 1024 * 2 ^ 239 * 2 ^ 239
def launching : State :=
  { commanding 0 0x01 0x1000 0 { leafPart with st := .idle } with
    mem := [(0x1001, 0x90), (0x1009, 0x80), (0x1012, 1), (0x101A, 4), (0x1034, 10), (0x1037, 4), (0x903D, 1), (0x10000, 1), (0x10002, 8),
      (0x80000, 0x37), (0x80002, 2), (0x80008, 0x37), (0x8000A, 2)] }
def launchBytes : List PByte := (leBytes 128 launchD).map fun b => (b, false)

set_option maxRecDepth 100000 in
theorem witness_Launch_checks :
    (launching.commanded 0 0x01 1024 ∧ launching.owns 0 1024 = true ∧ (launching.part 1024).st = .idle ∧
      (launching.vf 0).arg0.toNat = 0x1000 ∧ 0x1000 % 128 = 0) ∧
    ((gpaBytes (fnWho 0) 0 (spansOf 0x1000 128)).leads launching launching (some launchBytes) ∧
      (∀ b ∈ launchBytes, b.2 = false) ∧ leNat (launchBytes.map (·.1)) = launchD) ∧
    (launchOk 0 1024 launchD = true ∧ launchOk 0 1024 0 = false) ∧
    ((launchReads (fnWho 0) (launching.serviceOf 1024) 0 (ldTROOT launchD)
        ((List.range 16).map fun k => (ldPMAP launchD + 16 * k, 16))).leads launching launching (.ok (List.replicate 16 0)) ∧
      (launchReads (fnWho 0) (launching.serviceOf 1024) 0 (ldTROOT launchD) [(ldROOT launchD, 64)]).leads launching launching
        (.ok [rootRec]) ∧
      (M.each (fun a => readyWalkFrom 0 a 3 1 (ldTROOT launchD)) (pagesOf (ldFUTBASE launchD) (104 * 2 ^ ldFUTLOG launchD))).leads
        launching launching ()) ∧
    (launching.launchTable 0 (ldTROOT launchD) (ldFUTBASE launchD) (ldFUTLOG launchD) = none ∧ launching.recordOk 0 1024 rootRec = true ∧
      hIndex (rcWait rootRec 0) = 0 ∧ hIndex (rcWait rootRec 1) = 0 ∧ launching.recordOk 0 1024 0 = false) := by
  refine ⟨⟨commanding_is 0 0x01 0x1000 0 { leafPart with st := .idle } (by decide +kernel), by decide +kernel⟩,
    ⟨fun _ _ => rfl, fun b hb => ?_, by decide +kernel⟩, by decide +kernel, ⟨fun _ _ => rfl, fun _ _ => rfl,
      M.leads_each _ fun _ _ => readyWalkFrom_none (fun _ => rfl) _ _ _⟩, by decide +kernel⟩
  unfold launchBytes at hb
  obtain ⟨_, _, rfl⟩ := List.mem_map.1 hb
  rfl

/-- The leaf of block 0 in a 2 GiB page. -/
def big : Word := 0x20037
theorem stage1_one {s : State} {core t p va : Nat} {k : AKind} {l : Word} {e : TlbEnt} (h : s.dev.tlb = [e])
    (he : e = ⟨interfaceOf (s.core core).pmap core va, t, p, va / 2 ^ entLog l, entLog l, l⟩) (hj : judge k false l = .ok l) :
    s.stage1 core t p va k false = .ok l := by
  unfold State.stage1 State.cached
  rw [h, he]
  simp [hj]
theorem keep_first {s : State} (core t p va : Nat) (l : Word) (h : s.dev.tlb = []) :
    s.ran (keepLeaf core t p va l) =
      { s with dev := { s.dev with tlb := [⟨interfaceOf (s.core core).pmap core va, t, p, va / 2 ^ entLog l, entLog l, l⟩] } } := by
  unfold keepLeaf
  show P.run s ((if s.dev.tlb.contains _ then (pure () : M Unit) else M.upd _) _) s = _
  rw [h]
  show { s with dev := { s.dev with tlb := _ :: s.dev.tlb.filter _ } } = _
  rw [h]
  rfl
/-- Addresses of one 512 KiB page are walked alike. -/
theorem walkFrom_page {s : State} {t va vb : Nat} (h : va / 2 ^ 19 = vb / 2 ^ 19) :
    ∀ f lv tb, lv + f ≤ 4 → s.walkFrom t va f lv tb = s.walkFrom t vb f lv tb
  | 0, _, _, _ => rfl
  | f + 1, lv, tb, hl => by
    have b : bitsOf va (63 - 11 * (lv + 1)) 11 = bitsOf vb (63 - 11 * (lv + 1)) 11 := by
      have e : 2 ^ (63 - 11 * (lv + 1)) = 2 ^ 19 * 2 ^ (44 - 11 * (lv + 1)) := by rw [← Nat.pow_add]; congr 1; omega
      unfold bitsOf
      rw [e, ← Nat.div_div_eq_div_mul, ← Nat.div_div_eq_div_mul, h]
    unfold State.walkFrom
    rw [b]
    simp only [walkFrom_page h f (lv + 1) _ (by omega)]
theorem stage1_walk {s : State} {core t p va : Nat} {k : AKind} {l : Word} (h : s.dev.tlb = []) (hw : s.walk t p va = .leaf l)
    (hj : judge k false l = .ok l) : s.stage1 core t p va k false = .ok l := by
  unfold State.stage1 State.cached
  rw [h, hw]
  exact hj
theorem route_big {s : State} {va : Nat} (h : SMap.find (s.vf 0).s2 0 = some 0) (hv : va < 2 ^ 19) :
    s.route 0 big va = .ok (.hbm va, false) := by
  have g : gpaOf big va = va := by
    show 0 * 2 ^ 19 + va % 2 ^ 31 = va
    omega
  have e : s.stage2 0 va = some va := by
    unfold State.stage2
    rw [Nat.div_eq_of_lt (by omega : va < 2 ^ 25), h]
    show some (0 * 2 ^ 25 + va % 2 ^ 25) = some va
    congr 1
    omega
  have a : lfAPT big = 0 := by decide +kernel
  have v : lfVER big = false := by decide +kernel
  unfold State.route
  rw [a, g]
  simp only [e, v]
/-- The table's page is mapped by one leaf that no interface keeps, and no cache holds a line. -/
abbrev tableReady (s : State) : Prop :=
  SMap.find s.dev.roots (asidKey 0 1024) = some 0x10000 ∧ s.walkFrom 0 0 3 1 0x10000 = .leaf big ∧
  SMap.find (s.vf 0).s2 0 = some 0 ∧ (s.core 0).pmap = List.replicate 16 0 ∧ s.dev.tlb = [] ∧ s.dev.dir = []
/-- A record is accepted into a table of 1,024 entries at 0x40000 whose translation is not cached yet. -/
theorem accept_first {s : State} {who : Who} {tb : Tab} {r : Nat} (ht : tb = ⟨who, 0, 0, 1024, 0x40000, 10, false⟩)
    (ready : tableReady s ∧ ((s.ran (do let _ ← takeSlot ⟨who, 0, 0, 1024, 0x40000, 10, false⟩; pure ())).part 1024).st = .running ∧
      hIndex (rcWait r 0) = 0 ∧ hIndex (rcWait r 1) = 0 ∧ rcNext r = false ∧ rcVent r = false) :
    ∃ u, (acceptRec tb r).leads s u () := by
  obtain ⟨⟨hroot, hwalk, hmap, hp, htlb, hd⟩, hs, h0, hw, hn, hv⟩ := ready
  have h1 : ∀ j < 1024, s.stage1 0 0 1024 (0x48000 + 64 * j) .store false = .ok big ∧
      s.route 0 big (0x48000 + 64 * j) = .ok (.hbm (0x48000 + 64 * j), false) ∧
      s.route 0 big (0x48000 + 64 * j + 32) = .ok (.hbm (0x48000 + 64 * j + 32), false) := fun j hj => by
    refine ⟨stage1_walk htlb ?_ (by decide +kernel), route_big hmap (by omega), route_big hmap (by omega)⟩
    unfold State.walk
    rw [hroot]
    exact (walkFrom_page (by omega) 3 1 _ (by omega)).trans hwalk
  subst ht
  have hb : ∀ j < 1024, interfaceOf (List.replicate 16 0) 0 (0x48000 + 64 * j) = 0 ∧
      interfaceOf (List.replicate 16 0) 0 (0x48000 + 64 * j + 32) = 0 := fun _ _ => ⟨rfl, rfl⟩
  let tb : Tab := ⟨who, 0, 0, 1024, 0x40000, 10, false⟩
  let s1 := s.ran (do let _ ← takeSlot tb; pure ())
  let j := freeFrom (s.part 1024).pool 1024 (s.part 1024).pool.length (Config.poolPick s.dev.freeIx)
  have hj : j < 1024 := freeFrom_lt _ (by decide) _ _
  have take : (takeSlot tb).leads s s1 j := fun _ _ => rfl
  have t1 := (hb j hj).1
  have t2 := (hb j hj).2
  rw [← hp] at t1 t2
  let e : TlbEnt := ⟨0, 0, 1024, 0, 30, big⟩
  let k1 : State := { s1 with dev := { s1.dev with tlb := [e] } }
  let s2 := (Upd.poke (0x48000 + 64 * j) (leBytes 32 r)).apply k1
  have q0 : (0x48000 + 64 * j) / 2 ^ 30 = 0 := by omega
  have q1 : (0x48000 + 64 * j + 32) / 2 ^ 30 = 0 := by omega
  have none' : ∀ (t : State) k, t.dev.dir = [] → t.holders k = [] := fun t k h => by
    unfold State.holders
    rw [h]
    rfl
  have l0 : (tabLoc tb (0x48000 + 64 * j)).leads s1 k1 (0x48000 + 64 * j) := by
    have h := tabLoc_at (tb := tb) (l := big) (s := s1) (va := 0x48000 + 64 * j) (by omega) (by unfold inCaldera; simp; omega) (h1 j hj).1
      (h1 j hj).2.1 (readyWalk_none fun k => none' s1 k hd)
    rw [keep_first (s := s1) _ _ _ _ _ htlb] at h
    have he : (⟨interfaceOf (s.core 0).pmap 0 (0x48000 + 64 * j), 0, 1024, (0x48000 + 64 * j) / 2 ^ 30, 30, big⟩ : TlbEnt) = e := by
      rw [t1, q0]
    have hk : ({ s1 with dev := { s1.dev with tlb :=
        [⟨interfaceOf (s.core 0).pmap 0 (0x48000 + 64 * j), 0, 1024, (0x48000 + 64 * j) / 2 ^ 30, 30, big⟩] } } : State) = k1 := by rw [he]
    rw [← hk]
    exact h
  have p0 : (tabPoke tb (0x48000 + 64 * j) (leBytes 32 r)).leads s1 s2 () := tabPoke_at l0 (by omega) fun k _ => none' k1 k hd
  have x1 : s2.stage1 0 0 1024 (0x48000 + 64 * j + 32) .store false = .ok big := by
    refine stage1_one (e := e) rfl ?_ (by decide +kernel)
    show e = ⟨interfaceOf (s.core 0).pmap 0 (0x48000 + 64 * j + 32), 0, 1024, (0x48000 + 64 * j + 32) / 2 ^ 30, 30, big⟩
    rw [t2, q1]
  have l1 : (tabLoc tb (0x48000 + 64 * j + 32)).leads s2 (s2.ran (keepLeaf 0 0 1024 (0x48000 + 64 * j + 32) big)) (0x48000 + 64 * j + 32) :=
    tabLoc_at (tb := tb) (l := big) (s := s2) (by omega) (by unfold inCaldera; simp; omega) x1 (h1 j hj).2.2
      (readyWalk_none fun k => none' s2 k hd)
  have kept : ∀ t : State, (t.ran (keepLeaf 0 0 1024 (0x48000 + 64 * j + 32) big)).dev.dir = t.dev.dir ∧
      (t.ran (keepLeaf 0 0 1024 (0x48000 + 64 * j + 32) big)).parts = t.parts := fun t => by
    unfold keepLeaf
    show (P.run t ((if _ then _ else _ : M Unit) _) t).dev.dir = _ ∧ (P.run t ((if _ then _ else _ : M Unit) _) t).parts = _
    split <;> exact ⟨rfl, rfl⟩
  have p1 := tabPoke_at (bs := leBytes 32 (r / 2 ^ 256)) l1 (by omega) fun k _ => none' _ k ((kept s2).1.trans hd)
  have sv : tb.slotVA j = 0x48000 + 64 * j := by
    show 0x40000 + 32 * 2 ^ 10 + 64 * j = _
    omega
  have same : ∀ (a : Nat) (bs : List Byte) (t : State), ((Upd.poke a bs).apply t).parts = t.parts := fun _ _ _ => rfl
  have w : ∀ u, (tabPoke tb (0x48000 + 64 * j + 32) (leBytes 32 (r / 2 ^ 256))).leads s2 u () → u.parts = s1.parts →
      ∃ v, (acceptRec tb r).leads s v () := fun u h hu => by
    have h0' : (tabPoke tb (tb.slotVA j) (leBytes 32 r)).leads s1 s2 () := by rw [sv]; exact p0
    rw [← sv] at h
    refine ⟨_, acceptRec_at take (writeSlot_at h0' h) h0 hw hn hv ?_⟩
    show (u.part 1024).st ≠ .saved
    unfold State.part at hs ⊢
    rw [hu, hs]
    decide
  exact w _ p1 ((same _ _ _).trans ((kept s2).2.trans (same _ _ k1)))

/-- The entries read on the way are those of any address in the page. -/
theorem walkReads_page {s : State} {t va vb : Nat} (h : va / 2 ^ 19 = vb / 2 ^ 19) :
    ∀ f lv tb, lv + f ≤ 4 → s.walkReads t va f lv tb = s.walkReads t vb f lv tb
  | 0, _, _, _ => rfl
  | f + 1, lv, tb, hl => by
    have b : bitsOf va (63 - 11 * (lv + 1)) 11 = bitsOf vb (63 - 11 * (lv + 1)) 11 := by
      have e : 2 ^ (63 - 11 * (lv + 1)) = 2 ^ 19 * 2 ^ (44 - 11 * (lv + 1)) := by rw [← Nat.pow_add]; congr 1; omega
      unfold bitsOf
      rw [e, ← Nat.div_div_eq_div_mul, ← Nat.div_div_eq_div_mul, h]
    unfold State.walkReads
    rw [b]
    simp only [walkReads_page h f (lv + 1) _ (by omega)]
set_option maxRecDepth 100000 in
theorem witness_Launch_ready : launching.LaunchReady 0 1024 launchD rootRec (fun h => 0x40000 + 32 * h) := by
  have d : ldTROOT launchD = 0x10000 ∧ ldFUTBASE launchD = 0x40000 ∧ ldFUTLOG launchD = 10 := by decide +kernel
  have m : ∀ va, va < 2 ^ 19 → ∀ wr, launching.rootMaps 0 0x10000 va wr va := fun va h wr =>
    ⟨by omega, by unfold inCaldera; simp; omega, by omega, big,
      (walkFrom_page (vb := 0) (by omega) 3 1 _ (by omega)).trans (by decide +kernel), by cases wr <;> decide +kernel,
      route_big (by decide +kernel) h⟩
  have w : launching.walkReads 0 0 3 1 0x10000 = [0x10000, 0x80000] := by decide +kernel
  refine ⟨fun _ => rfl, by decide +kernel, ⟨0x1000, by decide +kernel⟩, by decide +kernel, fun k hk => ?_, ?_, by decide +kernel,
    fun _ _ => ⟨rfl, rfl⟩, fun h hh => ?_, fun h hh => ?_⟩
  · rw [d.1]
    exact ⟨_, m _ (by show 0x8000 + 16 * k < _; omega) false, by unfold State.poisoned; simp [show launching.pois = [] from rfl]⟩
  · rw [d.1]
    exact ⟨_, m 0x9000 (by omega) false, rfl, by decide +kernel⟩
  · rw [d.2.2] at hh
    rw [d.1, d.2.1]
    exact ⟨m _ (by omega) true, by omega⟩
  · rw [d.2.2] at hh ⊢
    rw [d.1, d.2.1, walkReads_page (vb := 0) (by omega) 3 1 _ (by omega), w]
    simp only [List.mem_cons, List.not_mem_nil, or_false]
    rintro _ (rfl | rfl) <;> exact ⟨by decide, fun j hj => by omega⟩

/-- What launch does before it accepts the root record. -/
def launchParts : List (M Unit) :=
  [M.upd (.dev fun v => { v with roots := SMap.put v.roots (asidKey 0 1024) (ldTROOT launchD),
                                 tlb := v.tlb.filter fun e => !(e.ten == 0 && e.pnode == 1024) }),
   clearTable (fnWho 0) 0 (ldTROOT launchD) (ldFUTBASE launchD) (ldFUTLOG launchD),
   M.each (launchCore launchD (List.replicate 16 0)) (launching.nodeCores 1024),
   resetEvents 1024,
   setPartM 1024 fun q => { q.unbound with
     st := .running, mailbox := [], mbq := [], ebudget := ldEBUDGET launchD, erem := 1000 * ldEBUDGET launchD, futlog := ldFUTLOG launchD,
     futbase := csrMerge cFUTBASE 0 (BitVec.ofNat 64 (ldFUTBASE launchD)), sliceLeft := q.slice }]
def launchFront (n : Nat) : State := (launchParts.take n).foldl State.ran launching
set_option maxRecDepth 100000 in
theorem launch_part (n : Nat) (h : n < 5) : (launchParts[n]'h).leads (launchFront n) (launchFront (n + 1)) () := by
  match n, h with
  | 0, _ => exact fun _ _ => rfl
  | 1, _ => exact fun _ _ => rfl
  | 2, _ => exact fun _ _ => rfl
  | 3, _ => exact fun _ _ => rfl
  | 4, _ => exact fun _ _ => rfl
set_option maxRecDepth 100000 in
theorem witness_Launch_all : ∃ u, (launchAll 0 1024 launchD (List.replicate 16 0) rootRec).leads launching u () := by
  have ⟨u, a⟩ := accept_first (s := launchFront 5) (r := rootRec) (tb := (launchFront 5).tabOf (fnWho 0) 1024) rfl (by decide +kernel)
  exact ⟨u, M.leads_bind (M.leads_get _) (M.leads_bind (launch_part 0 (by decide)) (M.leads_bind (launch_part 1 (by decide))
    (M.leads_bind (launch_part 2 (by decide)) (M.leads_bind (launch_part 3 (by decide)) (M.leads_bind (launch_part 4 (by decide))
      (M.leads_bind (M.leads_get _) a))))))⟩

/-- A command of a function in progress on a node, with arguments, in a package with the given partitions. -/
def cmdOn (fn op p : Nat) (a0 a1 : Word) (parts : SMap Machine.Part) : State :=
  let s := { leaf leafPart with parts := parts }
  s.setVf fn { s.vf fn with cmd := some (BitVec.ofNat 19 (p * 256 + op)), arg0 := a0, arg1 := a1 }
/-- That it is in progress, without naming the word. -/
abbrev inCmd (s : State) (fn op p : Nat) : Prop :=
  (s.vf fn).paused = false ∧ ((s.vf fn).cmd.map fun c => (c.toNat % 256, c.toNat / 256)) = some (op, p)
theorem commanded_of {s : State} {fn op p : Nat} (h : inCmd s fn op p) : s.commanded fn op p := by
  obtain ⟨c, hc, e⟩ := Option.map_eq_some_iff.1 h.2
  exact ⟨h.1, c, hc, congrArg Prod.fst e, congrArg Prod.snd e⟩
def idleP : Machine.Part := { Part.reset with st := .idle, ten := some 0 }

theorem witness_Clocks : ((leaf leafPart).part? 1024).isSome = true ∧ SMap.rising 0 ((leaf leafPart).cache 0).mpc = true := by decide +kernel
theorem witness_CommandRules :
    (¬∃ p, (leaf leafPart).commanded 0 0x02 p) ∧
    ((∀ e ∈ partCommands, (cmdOn 0 e.2.1 1024 0 0 [(1024, { idleP with ten := some 1 })]).commanded 0 e.2.1 1024) ∧
      (∀ e ∈ partCommands, (cmdOn 0 e.2.1 1024 0 0 [(1024, { idleP with ten := some 1 })]).owns 0 1024 = false) ∧
      (cmdOn 0 0x02 1024 0 0 [(1024, idleP)]).commanded 0 0x02 1024 ∧ (.idle == PState.running) = false) ∧
    ((¬∃ p, (leaf leafPart).commanded 0 0x20 p) ∧ (∀ e ∈ ownerCommands, (cmdOn 0 e.2 1024 0 0 []).commanded 0 e.2 1024) ∧ 0 ≠ 64) := by
  have none' : ∀ op, ¬∃ p, (leaf leafPart).commanded 0 op p := by
    rintro op ⟨p, -, c, h, -⟩
    have : ((leaf leafPart).vf 0).cmd = none := by decide +kernel
    rw [this] at h
    cases h
  have a : ∀ op ∈ partCommands.map (·.2.1), inCmd (cmdOn 0 op 1024 0 0 [(1024, { idleP with ten := some 1 })]) 0 op 1024 ∧
    (cmdOn 0 op 1024 0 0 [(1024, { idleP with ten := some 1 })]).owns 0 1024 = false := by decide +kernel
  have b : ∀ op ∈ ownerCommands.map (·.2), inCmd (cmdOn 0 op 1024 0 0 []) 0 op 1024 := by decide +kernel
  exact ⟨none' _, ⟨fun e h => commanded_of (a _ (List.mem_map_of_mem h)).1, fun e h => (a _ (List.mem_map_of_mem h)).2,
    commanded_of (by decide +kernel), rfl⟩, none' _, fun e h => commanded_of (b _ (List.mem_map_of_mem h)), by decide⟩

set_option maxRecDepth 100000 in
theorem witness_PartitionCommands :
    (∀ st ∈ [PState.running, .saved, .idle, .draining], (cmdOn 0 0x02 1024 0 0 [(1024, { leafPart with st := st })]).owns 0 1024 = true) ∧
    (∀ e ∈ [(0x02, PState.running), (0x03, .saved), (0x04, .saved), (0x08, .idle), (0x09, .idle), (0x0A, .idle), (0x0B, .idle), (0x0C, .idle),
        (0x0D, .running)], (cmdOn 0 e.1 1024 0 0 [(1024, { leafPart with st := e.2 })]).commanded 0 e.1 1024 ∧
      ((cmdOn 0 e.1 1024 0 0 [(1024, { leafPart with st := e.2 })]).part 1024).st = e.2) ∧
    (let s := cmdOn 0 0x03 1024 0 0 [(1024, { leafPart with st := .saved })]
     let w := (s.ran (M.each resumeCore (s.nodeCores 1024))).setPart 1024
        fun q => { q with st := .running, sliceLeft := q.slice, wd := 0, held := [] }
     (M.each (placeHeld (s.tabOf (fnWho 0) 1024)) (s.part 1024).held).leads w w ()) ∧
    (let s := cmdOn 0 0x08 1024 0x1000 (0x10 + 8 * 2 ^ 18 + 0xFFF * 2 ^ 36) [(1024, { leafPart with st := .idle })]
     s.pickCores 1024 0xFFF = some [0, 1, 2, 3] ∧ s.pickCores 1024 4 = none ∧ (s.vf 0).arg1.toNat / 2 ^ 36 % 2 ^ 12 = 0xFFF ∧
     (s.vf 0).arg1.toNat % 2 ^ 18 = 0x10 ∧ (s.vf 0).arg1.toNat / 2 ^ 18 % 2 ^ 18 = 8 ∧ 0x10 + 8 ≤ 0x2F000) ∧
    (let s := cmdOn 0 0x08 1024 0x1000 (0x10 + 8 * 2 ^ 18 + 0xFFF * 2 ^ 36) [(1024, { leafPart with st := .idle })]
     (gpaBytes (fnWho 0) 0 (spansOf 0x1000 8)).leads s s (some (List.replicate 8 (0, false)))) := by
  have a : ∀ e ∈ [(0x02, PState.running), (0x03, .saved), (0x04, .saved), (0x08, .idle), (0x09, .idle), (0x0A, .idle), (0x0B, .idle), (0x0C, .idle),
      (0x0D, .running)], inCmd (cmdOn 0 e.1 1024 0 0 [(1024, { leafPart with st := e.2 })]) 0 e.1 1024 ∧
      ((cmdOn 0 e.1 1024 0 0 [(1024, { leafPart with st := e.2 })]).part 1024).st = e.2 := by decide +kernel
  exact ⟨by decide +kernel, fun e h => ⟨commanded_of (a e h).1, (a e h).2⟩, fun _ _ => rfl, by decide +kernel, fun _ _ => rfl⟩
theorem witness_TreeCommands :
    (cmdOn 64 0x20 1024 0 0 [(1024, Part.reset)]).commanded 64 0x20 1024 ∧
    ((cmdOn 0 0x05 1024 0 0 [(1024, idleP)]).commanded 0 0x05 1024 ∧ (cmdOn 0 0x05 1024 0 0 [(1024, idleP)]).owns 0 1024 = true ∧
      ((cmdOn 0 0x05 1024 0 0 [(1024, idleP)]).part 1024).st = .idle) ∧
    ((cmdOn 0 0x05 512 0 0 [(512, idleP)]).commanded 0 0x05 512 ∧ (cmdOn 0 0x05 512 0 0 [(512, idleP)]).owns 0 512 = true ∧
      ¬((cmdOn 0 0x05 512 0 0 [(512, idleP)]).nodeClusters 1024 = []) ∧ ¬((cmdOn 0 0x05 512 0 0 [(512, idleP)]).nodeClusters 1025 = [])) ∧
    (let s := cmdOn 0 0x06 512 0 0 [(1024, idleP), (1025, idleP)]
     let t := cmdOn 0 0x06 512 0 0 [(1024, leafPart), (1025, idleP)]
     let u := cmdOn 0 0x06 512 0 0 [(1024, { idleP with ten := some 1 }), (1025, idleP)]
     s.commanded 0 0x06 512 ∧ t.commanded 0 0x06 512 ∧ u.commanded 0 0x06 512 ∧ s.part? 1024 = some idleP ∧ s.part? 1025 = some idleP ∧
     t.part? 1024 = some leafPart ∧ t.part? 1025 = some idleP ∧ s.owns 0 1024 = true ∧ s.owns 0 1025 = true ∧ t.owns 0 1024 = true ∧
     t.owns 0 1025 = true ∧ u.owns 0 1024 = false ∧ u.part? 1025 = some idleP ∧ idleP.st = .idle ∧ leafPart.st ≠ idleP.st) ∧
    ((cmdOn 0 0x06 512 0 0 [(1024, idleP)]).commanded 0 0x06 512 ∧ (cmdOn 0 0x06 512 0 0 [(1024, idleP)]).part? 1025 = none) ∧
    (let s := cmdOn 0 0x07 1024 0 0 [(1024, idleP)]
     let t := cmdOn 64 0x21 1024 0 0 [(1024, idleP)]
     let op : VOp := { id := 0, ctx := 65536, ten := 0, pnode := 1024, func := 0, dec := false, nocq := false, nu := 0, desc := 0, tag := 0,
                       core := 0, pages := [], dir := 0, dirBad := false, status := none, done := none }
     s.commanded 0 0x07 1024 ∧ t.commanded 64 0x21 1024 ∧ s.owns 0 1024 = true ∧ (t.part? 1024).isSome = true ∧ (s.part 1024).st = .idle ∧
     (t.part 1024).st = .idle ∧ s.vented (s.nodeCores 1024) = false ∧
     ({ s with dev := { s.dev with vops := [op] } } : State).vented (s.nodeCores 1024) = true ∧
     ∀ d, (s.core d).l1 = [] ∧ (s.core d).sect = []) :=
  ⟨commanded_of (by decide +kernel), ⟨commanded_of (by decide +kernel), by decide +kernel⟩, ⟨commanded_of (by decide +kernel), by decide +kernel⟩,
   ⟨commanded_of (by decide +kernel), commanded_of (by decide +kernel), commanded_of (by decide +kernel), by decide +kernel⟩,
   ⟨commanded_of (by decide +kernel), by decide +kernel⟩,
   commanded_of (by decide +kernel), commanded_of (by decide +kernel), by decide +kernel, by decide +kernel, by decide +kernel,
   by decide +kernel, by decide +kernel, by decide +kernel, fun _ => ⟨rfl, rfl⟩⟩

set_option maxRecDepth 100000 in
theorem witness_TenantCommands :
    (∀ op ∈ [0x22, 0x23, 0x24], (cmdOn 64 op 1024 0 0 []).commanded 64 op 1024) ∧
    (let s := cmdOn 64 0x23 1024 0 0 [(1024, leafPart)]
     let c := s.setCtx 0 { Ctx.reset 0 with run := .ready }
     let cores := c.coresOf 0 ++ c.ventsOf 0
     (c.vf 0).paused = false ∧ (c.vf 0).cmd = none ∧ (∀ d ∈ cores, c.midway d = false) ∧ 0 ∈ c.coresOf 0 ∧ isVent 0 = false ∧
     (c.ctx (ctxId 0 0)).run = .ready ∧ ((c.setVf 0 { c.vf 0 with paused := true }).vf 0).paused = true ∧
     ((c.setVf 0 { c.vf 0 with cmd := some 0 }).vf 0).cmd ≠ none) ∧
    (let s := (cmdOn 64 0x24 1024 0 0 [(1024, leafPart)]).setVf 0 { Vf.reset with paused := true }
     (s.vf 0).paused = true ∧ (s.vf 0).aside = [] ∧ ((s.vf 64).arg0.toNat % 64 = 0) ∧ 1024 ∈ s.partsOf 0) := by
  have a : ∀ op ∈ [0x22, 0x23, 0x24], inCmd (cmdOn 64 op 1024 0 0 []) 64 op 1024 := by decide +kernel
  exact ⟨fun e h => commanded_of (a e h), by decide +kernel, by decide +kernel⟩

theorem witness_HostRegisters :
    (let s := leaf leafPart
     let b := s.setVf 0 { s.vf 0 with cmd := some 2 }
     (b.vf 0).cmd ≠ none ∧ (s.vf 0).cmd = none ∧ opOk 0 ((2 : Word).toNat % 256) = true ∧ opOk 0 ((0xFF : Word).toNat % 256) = false ∧
     (0x10000 : Word).getLsbD 16 = true ∧ (1 : Word).toNat % 2 ^ 32 ≠ 0 ∧ (1 : Word).getLsbD 0 = true ∧ 0x130 ≤ (0x130 : BitVec 16).toNat ∧
     HostReg.plcctl 0 ≠ .bar0 0 ∧ HostReg.plcctl 0 ≠ .msixMask 0 ∧ (s.vf 0).arrived = [] ∧
     ((s.setVf 0 { s.vf 0 with arrived := [.read 0 8] }).vf 0).arrived ≠ [] ∧ (s.vf 0).msix ≤ (1 : BitVec 11).toNat ∧
     (0 : BitVec 11).toNat < (s.vf 0).msix ∧ (s.vf 0).pending.contains 0 = false ∧
     ((s.setVf 0 { s.vf 0 with pending := [0] }).vf 0).pending.contains 0 = true) ∧
    (let s := leaf leafPart
     (s.cal false).lost = false ∧ (s.cal true).lost = false ∧ (383 < 384) ∧ (1 : Word).toNat = 1 ∧ (2048 : Word).toNat = 2048 ∧
     SMap.find (s.vf (1 : BitVec 7).toNat).s2 (5 : BitVec 23).toNat = none ∧ (24575 : Word).toNat < 24576 ∧
     s.blockPresent (24575 : Word).toNat = true ∧ (s.vf 64).arrived = [] ∧
     (∀ e ∈ s.vfs, ∀ m ∈ e.2.s2, m.2 ≠ (24575 : Word).toNat) ∧ s.dev.scrubs = []) := by decide +kernel

/-- A record of the host for node 1024, posted through the window of function 0. -/
def hostRec : BitVec 512 := BitVec.ofNat 512 (1024 * 2 ^ 239 * 2 ^ 239)
def posting : State :=
  { State.reset with
    parts := [(1024, { leafPart with futbase := 0x40000, futlog := 10 })],
    vfs := [(0, { Vf.reset with s2 := [(0, 0)], pwin := [hostRec] })],
    mem := [(0x1002, 1), (0x10000, 1), (0x10002, 8), (0x80000, 0x37), (0x80002, 2)],
    cores := [(0, { Core.reset with pmap := List.replicate 16 0 })],
    dev := { State.reset.dev with roots := [(asidKey 0 1024, 0x10000)] } }
theorem witness_HostRegisters_masked :
    (let s := leaf leafPart
     ((s.setVf 0 { s.vf 0 with arrived := [.reg (.bar0 0) 2] }).vf 0).arrived = [.reg (.bar0 0) 2] ∧
     (let late := (s.setVf 0 { s.vf 0 with arrived := [.reg (.bar0 0) 2, .reg (.bar0 0x128) 1] }).vf 0
      HostOp.reg (.bar0 0) 2 ∈ late.arrived ∧ HostOp.reg (.bar0 0x128) 1 ∈ late.arrived ∧ (1 : Word).getLsbD 0 = true ∧ late.arrived ≠ []) ∧
     (let quiet := (s.setVf 0 { s.vf 0 with arrived := [.reg (.bar0 8) 2] }).vf 0
      quiet.arrived ≠ [] ∧ quiet.cmd = none ∧ quiet.att = none ∧ ∀ o ∈ quiet.arrived, o = .reg (.bar0 8) 2) ∧
     HostReg.bar0 8 ≠ .bar0 0 ∧ HostReg.bar0 8 ≠ .bar0 0x128 ∧
     ((s.setVf 0 { s.vf 0 with fmask := true }).vf 0).fmask = true ∧ (s.vf 0).fmask = false ∧
     (0x4000 : Word).getLsbD 14 = true ∧ (0 : Word).getLsbD 14 = false ∧
     HostReg.plcctl 0 ≠ .msixControl ∧
     (let m := (s.setVf 0 { s.vf 0 with fmask := true, pending := [0], unmasked := [0] }).vf 0
      0 ∈ m.pending ∧ m.unmasked.contains 0 = true ∧ 0 < m.msix)) := by decide +kernel

set_option maxRecDepth 100000 in
theorem witness_HostMemory :
    (let s := leaf leafPart
     let t := s.setVf 0 { s.vf 0 with att := some [1, 2, 3, 4] }
     let a := (t.vf 0).attbuf.toNat
     let gone := 0xFF * 2 ^ 40 + 2 ^ 36
     let r := s.setVf 0 { s.vf 0 with arrived := [.read 0x1000 8] }
     let w := s.setVf 0 { s.vf 0 with arrived := [.write 0x1000 [7]] }
     (s.apertureBad 0 0x2000000 8 = some (some 0x2000000) ∧ s.apertureBad 0 gone 8 = some none ∧ s.apertureBad 0 0x1000 8 = none ∧
       s.apertureBad 0 0x1000 [(7 : Byte)].length = none ∧ s.unmapped 0 a 32768 = none ∧ 0x1000 / 2 ^ 40 ≠ 0xFF ∧ (s.vf 0).arrived = []) ∧
     ((apertureReads 0 (spansOf 0x1000 8)).leads r r (some (List.replicate 8 (0, false))) ∧
       (apertureWrites 0 (spansOf 0x1000 1) [7]).leads w (w.ran (do let _ ← apertureWrites 0 (spansOf 0x1000 1) [7]; pure ())) true ∧
       (gpaStore (reportWho 0) 0 (spansOf 0x1000 1) [7]).leads s (s.ran (gpaStore (reportWho 0) 0 (spansOf 0x1000 1) [7])) ()) ∧
     (0x1000 % 64 + 8 ≤ 64 ∧ s.stage2 0 0x1000 = some 0x1000 ∧ s.holders (0x1000 / 64) = [] ∧ (s.vf 0).att = none ∧
       (t.vf 0).att = some [1, 2, 3, 4] ∧ t.unmapped 0 a 32768 = none ∧
       ((t.setVf 0 { t.vf 0 with s2 := [] }).unmapped 0 a 32768).isSome = true) ∧
     (let c := s.setCal false { Cal.reset with gran := [(0, ⟨0, 0, false⟩)] }
      (c.cal false).lost = false ∧ (0x3FC0 : BitVec 14).toNat * 2 ^ 34 = 0xFF * 2 ^ 40 ∧
      (0xFF * 2 ^ 40 + 8) / 2 ^ 40 = 0xFF ∧ c.caldera 0 ((0xFF * 2 ^ 40 + 8) % 2 ^ 40) = .ok (.cal c.pres.pkg.toNat false 8, false) ∧
        (0xFF * 2 ^ 40 + 8) % 64 + [(7 : Byte)].length ≤ 64)) ∧
    (let s := leaf leafPart
     (¬(1 % 64 = 0 ∧ 64 = 64 ∧ 1 < 4096 ∧ (s.vf 0).pwin.length < 64)) ∧ (s.vf 0).pwin = [] ∧
     (4032 % 64 = 0 ∧ 4032 < 4096 ∧ (s.vf 0).pwin.length < 64) ∧ (s.vf 0).paused = false ∧
     ((s.setVf 0 { s.vf 0 with paused := true }).vf 0).paused = true ∧
     (let busy := (s.setVf 0 { s.vf 0 with arrived := [.read 0 8] }).vf 0
      let full := { busy with pwin := List.replicate 64 hostRec }
      busy.arrived ≠ [] ∧ ¬64 ≤ busy.pwin.length + busy.arrived.countP HostOp.wholeRecord ∧
      full.arrived ≠ [] ∧ 64 ≤ full.pwin.length + full.arrived.countP HostOp.wholeRecord)) ∧
    (let u := posting
     u.owns 0 1024 = true ∧ (u.part 1024).st = .running ∧ u.recordOk 0 1024 hostRec.toNat = true ∧ u.poolFull 1024 = false ∧
     u.owns 0 1025 = false) ∧
    (checkHandles (posting.tabOf (windowWho 0) 1024) [rcWait hostRec.toNat 0, rcWait hostRec.toNat 1]).leads posting posting none :=
  ⟨⟨by decide +kernel, ⟨fun _ _ => rfl, fun _ _ => rfl, fun _ _ => rfl⟩, by decide +kernel, by decide +kernel⟩, by decide +kernel,
   by decide +kernel, fun _ _ => rfl⟩
set_option maxRecDepth 100000 in
theorem witness_HostMemory_accept : ∃ t, (acceptRec (posting.tabOf (windowWho 0) 1024) hostRec.toNat).leads posting t () :=
  accept_first rfl (by decide +kernel)

theorem witness_Resets :
    (let s := leaf leafPart
     (s.setVf 0 { s.vf 0 with cmd := some 2 }).vf 0 ≠ s.vf 0 ∧ ((s.setVf 0 { s.vf 0 with cmd := some 2 }).vf 0).cmd ≠ none ∧ (s.vf 0).cmd = none ∧
     1024 ∈ s.partsOf 0 ∧ 0 ∈ s.coresOf 0 ∧ 64 ≤ 64 ∧ (∀ o ∈ (s.vf 0).arrived, o ∉ (s.vf 0).arrived) ∧
     HostOp.reg (.bar0 0) 2 ∈ ((s.setVf 0 { s.vf 0 with arrived := [.reg (.bar0 0) 2] }).vf 0).arrived) ∧
    (let s := { leaf leafPart with ports := [(0, { ten := some 1, ld := some seedLd })] }
     (s.port 0).ten ≠ some 0 ∧ (s.port 0).ld = some seedLd ∧ pSPNODE seedLd.img ∈ s.partsOf 0 ∧ pRPNODE seedLd.img ∈ s.partsOf 0) ∧
    (SMap.find ((leaf leafPart).vf 0).s2 1 = none ∧ SMap.find ((leaf leafPart).vf 0).s2 0 = some 0) := by decide +kernel

/-- A package of a group of two, with a link in service to the other, and memory of tenant 0. -/
def linked : State :=
  { leaf leafPart with
    pres := { presReset with group := 2 },
    cals := [(0, { Cal.reset with gran := [(0, ⟨0, 0, false⟩)], mc := [(5, 0x8000000001001000)] })],
    dev := { (leaf leafPart).dev with
      links := [(0, { Jalic.reset with peer := some 1, up := true })],
      peers := [(1, { incarn := some 7, lost := false, ca1 := false, gone := false })] } }
/-- A packet with the CRC that belongs to it. -/
def crcSet (p : Packet) : Packet := { p with crc := packetCrc p }
/-- A packet of the other package. -/
def pkt (kind addr : Nat) (payload : List Byte) : Packet :=
  crcSet
    { dend := 0, addr := BitVec.ofNat 56 addr, tag := 3, len := 0, prio := 0, ten := 0, sinc := 7, spkg := 1, dpkg := 0,
      kind := BitVec.ofNat 6 kind, payload := payload, seq := 0, ack := 0, ackv := false, poison := false, crc := 0 }

theorem witness_LinkFirst :
    (∀ k ∈ [0x01, 0x02, 0x03, 0x04, 0x05, 0x06, 0x07, 0x08, 0x09, 0x0A, 0x0B, 0x0C, 0x0D, 0x0E], linked.firstIn (pkt k 0x1001 [])) ∧
    (ROp.parse [1]).ver = false ∧
    (linked.arrives 0 (pkt 0x0E (2 ^ 55) []) 0x0E ∧ linked.firstIn (pkt 0x0E (2 ^ 55) []) ∧
      (pkt 0x0E (2 ^ 55) []).addr.toNat.testBit 55 = true ∧ (pkt 0x0E 0x1001 []).addr.toNat.testBit 55 = false) := by decide +kernel

theorem witness_LinkAnswers :
    (∀ k ∈ [0x02, 0x04, 0x06, 0x08, 0x0A, 0x0D], linked.arrives 0 (pkt k 0 []) k) ∧
    ((pkt 0 0 []).kind.toNat = 0 ∧ (linked.link 0).inService = true ∧ (linked.link 1).inService = false) ∧
    ((pkt 1 0 []).crc = packetCrc (pkt 1 0 []) ∧ { pkt 1 0 [] with seq := 1 }.seq ≠ (linked.link 0).seqIn ∧
     (let p := crcSet { pkt 1 0 [] with seq := 1 }
      p.crc = packetCrc p ∧ p.seq ≠ (linked.link 0).seqIn) ∧
     { pkt 1 0 [] with crc := (pkt 1 0 []).crc + 1 }.crc ≠ packetCrc { pkt 1 0 [] with crc := (pkt 1 0 []).crc + 1 }) ∧
    (let p := { pkt 0 0 [] with ack := 1, ackv := true }
     let l := { linked.link 0 with unacked := [pkt 1 0 []] }
     l.unacked = [pkt 1 0 []] ∧ p.ackv = true ∧ 0 < (p.ack - (pkt 1 0 []).seq).toNat ∧
     (p.ack - (pkt 1 0 []).seq).toNat ≤ l.unacked.length) := by decide +kernel

set_option maxRecDepth 100000 in
theorem witness_LinkServices :
    ((∀ k ∈ [0x01, 0x05, 0x07, 0x09, 0x0B, 0x0C, 0x0E], linked.arrives 0 (pkt k 0x1001 []) k) ∧ linked.noneHeld (pkt 1 0x1001 []) ∧
      linked.stage2 0 (0x1001 / 64 * 64) = some 0x1000 ∧ linked.holders (0x1000 / 64) = [] ∧
      (linked.linkTook 0 (pkt 1 0x1001 [])).portsTo false 1 = [0] ∧ ((linked.linkTook 0 (pkt 1 0x1001 [])).link 0).barred = false) ∧
    (let s := { linked with dev := { linked.dev with dir := [(0x40, [(peerPlc 1 2, LSt.m)])] } }
     s.arrives 0 (pkt 3 0x1008 (List.replicate 64 9)) 3 ∧ s.noneHeld (pkt 3 0x1008 (List.replicate 64 9)) ∧
     s.stage2 0 (0x1008 / 64 * 64) = some 0x1000 ∧ s.stateIn (0x1000 / 64) (peerPlc 1 2) = some .m) ∧
    (linked.noneHeld (pkt 5 0x1001 []) ∧ (0x1001 % 4 ≠ 0) ∧ linked.noneHeld (pkt 9 0 [1]) ∧ linked.noneHeld (pkt 7 0x1001 []) ∧
      (0x1001).testBit 55 = false ∧ (2 ^ 55).testBit 55 = true ∧ linked.dev.reqs = []) ∧
    (linked.stage2 0 0x1000 = some 0x1000 ∧ (ROp.parse [1]).op = roWrite ∧ (ROp.parse [2, 0, 1]).op = roAmo ∧
      linked.poisoned 0x1000 (widthBytes (ROp.parse [2, 0, 1]).w) = false ∧
      (let r := ROp.parse [2, 0, 1]
       (amoNew r.sub r.w (RMode.of (BitVec.ofNat 2 r.len)) (linked.peek 0x1000 (widthBytes r.w)) r.a.toNat r.b.toNat).1 = some 0)) ∧
    ((ROp.parse [1]).sub = 0 ∧ (linked.cal (calCa 0)).lost = false ∧ linked.caldera 0 0 = .ok (.cal 0 false 0, false)) ∧
    (linked.gbarOf 0x1 1 linked.pres.pkg.toNat = 0) ∧
    ((linked.inUse 0 1024 fun x l => false || samePage l x 0) = false) ∧
    (let p := { pkt 1 5 [] with dend := 0xFFF }
     let e := (SMap.get (fun _ => (0 : Word)) (linked.cal false).mc (p.addr.toNat % 256)).toNat
     p.dend = 0xFFF ∧ e.testBit 63 = true ∧ e.testBit (24 + linked.pres.pkg.toNat) = true) := by
  refine ⟨by decide +kernel, by decide +kernel, by decide +kernel, by decide +kernel, ⟨by decide +kernel, by decide +kernel, rfl⟩, by decide +kernel,
    by decide +kernel, by decide +kernel⟩
theorem witness_LinkServices_busy :
    let e : VEnt := { ctx := 0, instr := .vld .d 0 1 1, pc := 0, vl := 1, frm := 0, s2v := 0, passes := 0, els := [(0x1000, plain)] }
    let s := linked.setCore 0 { Core.reset with vq := [e] }
    0 ∈ s.nodeCores 1024 ∧ (s.inUse 0 1024 fun x l => true || samePage l x 0) = true := by decide +kernel

theorem witness_LinkLoss :
    let l := { linked.link 0 with replays := 16 }
    let s := linked.setLink 0 l
    let down := linked.setLink 0 { l with down := true }
    (portServes linked.pres 0 1 = true ∧ (linked.peer 1).gone = false ∧ linked.pres.lkpres.getLsbD 0 = true ∧ linked.peers.contains 1 = true ∧ (linked.link 0).down = false ∧ ¬(18 ≤ 0 ∧ (linked.cal true).lost = true) ∧
      linked.peers.contains 0 = false) ∧
    (l.inService = true ∧ 16 ≤ l.replays ∧ (s.link 0).inService = true ∧ ¬(16 ≤ (linked.link 0).replays)) ∧
    (down.peers.contains 1 = true ∧ (down.peer 1).incarn ≠ none ∧ (down.peer 1).lost = false ∧ down.unreachable 1 = true ∧
      linked.unreachable 1 = false) ∧
    (1 ≠ linked.pres.pkg.toNat ∧ (linked.peer 1).ca1 = false ∧ (linked.cal true).lost = false) := by decide +kernel

/-- A line of tenant 0 in an L2 slice. -/
def dirtyless : CLine := { tag := 64, code := 0, due := 0, ten := 0, slot := 0 }
/-- A flow entry that every frame matches, and one whose buffer is small. -/
def flowAll (log : Nat) : BitVec 512 := BitVec.ofNat 512 (2 ^ 343 + log * 2 ^ 314)
theorem witness_PatrolRecallIntake :
    ((∀ u, patrolled (2 ^ 61) = some u → (leaf leafPart).upsetDie u = none) ∧ patrolled 0x1000 = some (.word 0x1000) ∧
      (leaf leafPart).upsetDie (.word 0x1000) = some 0 ∧ 0x1000 < 2 ^ 60 ∧ (leaf leafPart).holders (0x1000 / 64) = []) ∧
    (∀ dirty : Bool, let s := (leaf leafPart).setCache 2 { Cache.reset 2 with lines := [(5, { dirtyless with dirty := dirty })] }
     patrolled (6 * 2 ^ 60 + (2 * 2 ^ 15 + 5) * 64 + 8) = some (.l2 2 5 1) ∧ s.upsetDie (.l2 2 5 1) = some 0 ∧
     SMap.find (s.cache 2).lines 5 = some { dirtyless with dirty := dirty }) ∧
    (let s := { leaf leafPart with dev := { (leaf leafPart).dev with dir := [(0x40, [((leaf leafPart).coreHolder 0, LSt.m)])] } }
     let h := s.coreHolder 0
     s.stateIn 0x41 h = none ∧ s.stateIn 0x40 h = some .m ∧ s.isOwn h = true ∧ s.isOwnPlc h = false) ∧
    (let s := leaf leafPart
     let f := List.replicate 65 (0 : Byte)
     let u := s.setCal false { Cal.reset with flow := [(2, flowAll 0)] }
     ((s.setCal false { Cal.reset with lost := true }).cal false).lost = true ∧ (s.cal false).lost = false ∧ (s.cal false).frames = [] ∧
     s.flowFor false (parseFrame f) = none ∧ (u.cal false).lost = false ∧ (u.cal false).frames = [] ∧
     u.flowFor false (parseFrame f) = some (2, (flowAll 0).toNat) ∧ 2 ^ (flBUFLOG (flowAll 0).toNat + 6) < f.length) := by decide +kernel

theorem witness_Patrol_states :
    (∀ n, ((leaf leafPart).cache n).lines = []) ∧
    (let s := (leaf leafPart).setCache 2 { Cache.reset 2 with lines := [(5, { dirtyless with dirty := true })] }
     s.modified dirtyless.tag = false ∧
     { s with dev := { s.dev with dir := [(64, [(s.coreHolder 0, LSt.m)])] } }.modified dirtyless.tag = true) ∧
    (let s := leaf leafPart
     let a := 5 * 2 ^ 60 + 0x1008
     let p := { s with dev := { s.dev with dir := [(a / 64, [(s.plcHolder 0, LSt.m)])] } }
     patrolled (8 * 2 ^ 60 + 0x1008) = some (.plc 0 a) ∧ p.upsetDie (.plc 0 a) = some 0 ∧ p.stateIn (a / 64) (p.plcHolder 0) = some .m ∧
     p.coreModified (a / 64) = false) :=
  ⟨fun _ => rfl, by decide +kernel, by decide +kernel⟩

/-- A flow entry with one buffer of 64 bytes at 0x2000 and its retire count at 0x3000, for partition 1024, and a package whose CA0 holds it
and the translations it needs. -/
def flowOne : Nat := 2 ^ 343 + 1024 * 2 ^ 324 + 0x80 * 2 ^ 202 + 0x600 * 2 ^ 153
def framing : State :=
  let s := (leaf leafPart).setCal false { Cal.reset with flow := [(2, BitVec.ofNat 512 flowOne)] }
  { s with dev := { s.dev with tlb := s.dev.tlb ++ [⟨4, 0, 1024, 0, 19, plain⟩] } }
set_option maxRecDepth 100000 in
theorem witness_Intake_ready :
    framing.FrameReady false 2 flowOne (List.replicate 64 0) (0x2000 + ·) (fun h => 0x4080 + 32 * h) := by
  have at' : ∀ va, va < 2 ^ 19 → ∀ k ∈ [AKind.load, .store], framing.intakeAt false 0 1024 va k va := fun va h k hk => by
    refine ⟨⟨4, 0, 1024, 0, 19, plain⟩, ?_, by decide +kernel, by decide +kernel, ?_, ?_, rfl, ?_⟩
    · have q : va / 2 ^ 19 = 0 := by omega
      unfold State.cached
      simpa [framing, leaf, State.setCal, entLog, q] using h
    · simp only [List.mem_cons, List.not_mem_nil, or_false] at hk
      rcases hk with rfl | rfl <;> decide +kernel
    · have g : gpaOf plain va = va := by
        show 0 * 2 ^ 19 + va % 2 ^ 19 = va
        omega
      rw [g]
      have f : SMap.find (framing.vf 0).s2 0 = some 0 := by decide +kernel
      unfold State.stage2
      rw [Nat.div_eq_of_lt (by omega : va < 2 ^ 25), f]
      show some (0 * 2 ^ 25 + va % 2 ^ 25) = some va
      congr 1
      omega
    · have q : va / 2 ^ entLog plain = 0 := by
        have e : entLog plain = 19 := by decide +kernel
        rw [e]
        omega
      rw [q]
      decide +kernel
  have e : flPNODE flowOne = 1024 ∧ flTEN flowOne = 0 ∧ flBUFLOG flowOne = 0 ∧ State.frameAt flowOne = 0x2000 ∧ flRETW flowOne * 8 = 0x3000 ∧
      flPOOL flowOne * 64 = 0x2000 := by decide +kernel
  have p : (framing.part 1024).futlog = 2 ∧ (framing.part 1024).futbase.toNat = 0x4000 ∧ framing.serviceOf 1024 = 0 := by decide +kernel
  refine ⟨by decide +kernel, by decide +kernel, by decide +kernel, by decide +kernel, by decide +kernel, ?_, ?_, fun k hk => ?_, ?_,
    by decide +kernel, fun h hh => ?_⟩
  · rw [e.1, e.2.1, e.2.2.2.2.1]
    exact ⟨0x3000, at' _ (by decide) _ (by simp), by decide +kernel⟩
  · rw [e.1, e.2.1, e.2.2.2.2.2]
    exact ⟨_, at' 0x2000 (by decide) _ (by simp)⟩
  · rw [e.2.2.1] at hk
    rw [e.1, e.2.1, e.2.2.2.1]
    exact at' _ (by omega) _ (by simp)
  · intro h
    exact absurd h (by decide +kernel)
  · rw [e.1, p.1] at hh
    rw [e.1, e.2.1, p.1, p.2.1, p.2.2]
    have c : ∀ h < 8, let va := 0x4000 + 32 * 2 ^ 2 + 32 * h
        (0x4080 + 32 * h) % 32 = 0 ∧ 0x4080 + 32 * h + 32 ≤ 2 ^ 60 ∧ va < 2 ^ 52 ∧ inCaldera va = false ∧
        framing.cached (interfaceOf (framing.core 0).pmap 0 va) 0 1024 va = some ⟨0, 0, 1024, 0, 19, plain⟩ ∧ judge .store false plain = .ok plain ∧
        framing.dev.tlb.contains ⟨interfaceOf (framing.core 0).pmap 0 va, 0, 1024, va / 2 ^ entLog plain, entLog plain, plain⟩ = true ∧
        framing.route 0 plain va = .ok (.hbm (0x4080 + 32 * h), false) := by decide +kernel
    have c := c h hh
    exact ⟨⟨c.2.2.1, c.2.2.2.1, rfl, _, _, c.2.2.2.2⟩, c.1, c.2.1⟩

/-- A context in user mode whose pc is 0x1000 in an executable page, where the word of an instruction stands. -/
def fetching : State :=
  let s := mapped (user [])
  { s.withMe (fun c => { c with pc := 0x1000 }) with
    dev := { s.dev with tlb := [⟨0, 0, 1, 0, 19, plain ||| 8⟩], agenda := [.issue 0] }, mem := [(0x1000, 0x05), (0x1003, 0x01)] }
set_option maxRecDepth 100000 in
theorem witness_FetchRules :
    (fetching.noTiles ∧ fetching.me.pc.toNat % 4 = 0 ∧ fetching.me.pc.toNat < 2 ^ 52 ∧ inCaldera fetching.me.pc.toNat = false ∧
      fetching.route fetching.myTen (plain ||| 8) fetching.me.pc.toNat = .ok (.hbm 0x1000, false) ∧
      (∀ k ∈ linesOf 0x1000 4, fetching.holders k = []) ∧ fetching.poisoned 0x1000 4 = false) ∧
    (xlate .fetch fetching.me.pc).leads fetching fetching (plain ||| 8) ∧
    (((fetching.withMe fun c => { c with pc := 2 }).me.pc.toNat % 4 ≠ 0) ∧
      (2 ^ 52 ≤ (fetching.withMe fun c => { c with pc := 0xFFF0000000000000 }).me.pc.toNat)) :=
  ⟨by decide +kernel, fun _ _ => rfl, by decide +kernel⟩

set_option maxRecDepth 100000 in
theorem witness_StepKeepsInv :
    let s := { box 0 with dev := { (box 0).dev with agenda := [.event .pwrmeasRefresh] } }
    Inv s ∧ ∃ t, step s = .next t :=
  ⟨⟨by decide +kernel, by decide +kernel, by decide +kernel, by decide +kernel, by decide +kernel⟩, _, rfl⟩

set_option maxRecDepth 100000 in
theorem witness_StepRuns :
    let s := { fetching with dev := { fetching.dev with cur := 0 } }
    let b := State.begin { s with dev := { s.dev with agenda := [] } } 0
    let c := b.core 0
    s.dev.stopped = false ∧ s.wake = none ∧ s.dev.agenda = [.issue 0] ∧ s.hasCtx 0 = true ∧ (s.ctx 0).run = .ready ∧ (b.ctx 0).due = none ∧
    b.irqReady 0 = false ∧ c.dwell < 16 ∧ (∀ e ∈ c.win, e.replay = none) ∧ b.fetched.dev.word = some 0x01000005 := by decide +kernel
theorem witness_StepRuns_word : ∃ i, decode 0x01000005 = .ok i := ⟨_, rfl⟩

theorem witness_DecodeEncode : ∃ w, (Instr.fenceI).wellFormed = true ∧ encode .fenceI = some w := ⟨_, by decide, rfl⟩

theorem witness_Frames :
    (near.me.pend = [] ∧ near.readable 1 ∧ near.readable 2 ∧ near.s2Readable (.reg 1)) ∧
    (∀ e ∈ loadTable, near.localAt .load (eaOf (near.x 1) 0 e.2.1) e.2.1 0 0x100 ∧ near.poisoned ((Space.lm 0).loc 0x100) e.2.1 = false) ∧
    (∀ e ∈ storeTable, near.localAt .store (eaOf (near.x 1) 0 e.2) e.2 0 0x100) := by
  refine ⟨by decide +kernel, ?_, ?_⟩
  · have h : ∀ n ∈ loadTable.map (·.2.1), near.localAt .load (eaOf (near.x 1) 0 n) n 0 0x100 ∧ near.poisoned ((Space.lm 0).loc 0x100) n = false := by
      decide +kernel
    exact fun e he => h _ (List.mem_map_of_mem he)
  · have h : ∀ n ∈ storeTable.map (·.2), near.localAt .store (eaOf (near.x 1) 0 n) n 0 0x100 := by decide +kernel
    exact fun e he => h _ (List.mem_map_of_mem he)

end Sys2Proof.Tests
end

section
/-!
SUPPORT. The invariant of the machine (R22, R23, R96, R386): each primitive update keeps it, and so does every program over them, every
meaning and every choice of a step. The one idea: every change of the state is one of the updates of `Upd`, or touches only parts that
the invariant does not speak of.
-/

namespace Sys2Proof.Machine

/-! ### Entries of a map -/

namespace SMap

variable {α : Type}

theorem mem_of_find {m : SMap α} {k : Nat} {v : α} (h : find m k = some v) : (k, v) ∈ m := by
  induction m with
  | nil => cases h
  | cons e m ih =>
    obtain ⟨j, w⟩ := e
    simp only [find] at h
    split at h
    · next hj =>
      obtain rfl := Option.some.inj h
      exact hj ▸ List.mem_cons_self
    · exact List.mem_cons_of_mem _ (ih h)

/-- What a key reads as is its default or an entry. -/
theorem get_default_or_mem (d : Nat → α) (m : SMap α) (k : Nat) : get d m k = d k ∨ (k, get d m k) ∈ m := by
  induction m with
  | nil => exact .inl rfl
  | cons e m ih =>
    obtain ⟨j, w⟩ := e
    simp only [get]
    split
    · next hj => exact .inr (hj ▸ List.mem_cons_self)
    · exact ih.imp id (List.mem_cons_of_mem _)

theorem mem_erase {m : SMap α} {k : Nat} {e : Nat × α} : e ∈ m.erase k ↔ e ∈ m ∧ e.1 ≠ k := by
  simp [erase]

theorem perm_insert (k : Nat) (v : α) (m : SMap α) : (insert k v m).Perm ((k, v) :: m) := by
  induction m with
  | nil => exact .refl _
  | cons e m ih =>
    simp only [insert]
    split
    · exact .refl _
    · exact (ih.cons e).trans (.swap ..)

end SMap

/-! ### Poison marks (R386) -/

theorem risingFrom_iff (lo : Nat) (m : List Nat) : risingFrom lo m = true ↔ (∀ k ∈ m, lo ≤ k) ∧ m.Pairwise (· < ·) := by
  induction m generalizing lo with
  | nil => simp [risingFrom]
  | cons j m ih =>
    simp only [risingFrom, Bool.and_eq_true, decide_eq_true_eq, ih, List.pairwise_cons, List.forall_mem_cons]
    constructor
    · rintro ⟨hj, hm, hp⟩
      exact ⟨⟨hj, fun k hk => by have := hm k hk; omega⟩, hm, hp⟩
    · rintro ⟨⟨hj, -⟩, hm, hp⟩
      exact ⟨hj, hm, hp⟩

theorem poisWf_iff (m : List Nat) : poisWf m = true ↔ m.Pairwise (· < ·) ∧ ∀ w ∈ m, w % 8 = 0 := by
  simp [poisWf, risingFrom_iff]

theorem poisWf_filter (f : Nat → Bool) {m : List Nat} (h : poisWf m = true) : poisWf (m.filter f) = true := by
  rw [poisWf_iff] at *
  exact ⟨h.1.filter f, fun w hw => h.2 w (List.mem_filter.1 hw).1⟩

theorem mem_nsInsert {k w : Nat} {m : List Nat} : w ∈ nsInsert k m ↔ w = k ∨ w ∈ m := by
  induction m with
  | nil => simp [nsInsert]
  | cons j m ih =>
    simp only [nsInsert]
    split
    · simp
    · split
      · next h => simp [h]
      · simp [ih, or_left_comm]

theorem pairwise_nsInsert {m : List Nat} (k : Nat) (h : m.Pairwise (· < ·)) : (nsInsert k m).Pairwise (· < ·) := by
  induction m with
  | nil => simp [nsInsert]
  | cons j m ih =>
    obtain ⟨hj, hm⟩ := List.pairwise_cons.1 h
    simp only [nsInsert]
    split
    · next hk => exact List.pairwise_cons.2 ⟨List.forall_mem_cons.2 ⟨hk, fun w hw => hk.trans (hj w hw)⟩, h⟩
    · split
      · exact h
      · refine List.pairwise_cons.2 ⟨fun w hw => ?_, ih hm⟩
        rcases mem_nsInsert.1 hw with rfl | hw
        · omega
        · exact hj w hw

/-- A mark on the aligned word of a byte. -/
theorem poisWf_insert (w : Nat) {m : List Nat} (h : poisWf m = true) : poisWf (nsInsert (w / 8 * 8) m) = true := by
  rw [poisWf_iff] at *
  refine ⟨pairwise_nsInsert _ h.1, fun v hv => ?_⟩
  rcases mem_nsInsert.1 hv with rfl | hv
  · omega
  · exact h.2 v hv

/-! ### Versions of a word (R96) -/

theorem fallingBelow_cons (hi : Option Nat) (a : Nat × Word) (m : List (Nat × Word)) :
    fallingBelow hi (a :: m) = true ↔ (∀ h ∈ hi, a.1 < h) ∧ fallingBelow (some a.1) m = true := by
  cases hi <;> simp [fallingBelow]

theorem fallingBelow_iff (hi : Option Nat) (m : List (Nat × Word)) :
    fallingBelow hi m = true ↔ (∀ e ∈ m, ∀ h ∈ hi, e.1 < h) ∧ m.Pairwise (fun a b => b.1 < a.1) := by
  induction m generalizing hi with
  | nil => simp [fallingBelow]
  | cons a m ih =>
    simp only [fallingBelow_cons, ih, List.pairwise_cons, List.forall_mem_cons, Option.mem_some_iff, forall_eq']
    constructor
    · rintro ⟨ha, hm, hp⟩
      exact ⟨⟨ha, fun e he h hh => (hm e he).trans (ha h hh)⟩, hm, hp⟩
    · rintro ⟨⟨ha, -⟩, hm, hp⟩
      exact ⟨ha, hm, hp⟩

theorem VWord.wf_iff (x : VWord) :
    x.wf = true ↔ x.live.length ≤ 4 ∧ x.live.Pairwise (fun a b => b.1 < a.1) ∧ ∀ e ∈ x.live.head?, ∃ h ∈ x.high, e.1 ≤ h := by
  obtain ⟨live, high, bad⟩ := x
  cases live with
  | nil => simp [VWord.wf, fallingBelow]
  | cons e m => cases high <;> simp [VWord.wf, fallingBelow_iff, and_assoc]

theorem VWord.reset_wf : VWord.reset.wf = true := rfl

/-- Every live version is at most HIGH. -/
theorem VWord.live_le_high {x : VWord} (hx : x.wf = true) {e : Nat × Word} (he : e ∈ x.live) : ∃ h ∈ x.high, e.1 ≤ h := by
  obtain ⟨-, hp, hh⟩ := x.wf_iff.1 hx
  cases hl : x.live with
  | nil => simp [hl] at he
  | cons a m =>
    rw [hl] at he hp hh
    obtain ⟨h, hm, hle⟩ := hh a rfl
    rcases List.mem_cons.1 he with rfl | he
    · exact ⟨h, hm, hle⟩
    · exact ⟨h, hm, ((List.rel_of_pairwise_cons hp he).le).trans hle⟩

/-- A version is created above HIGH, where fewer than four are live, or nothing changes. -/
theorem VWord.create_cases (x : VWord) (v : Nat) (val : Word) (bad : Bool) : x.create v val bad = x ∨
    (∀ h ∈ x.high, h < v) ∧ x.live.length < 4 ∧
      x.create v val bad = { live := (v, val) :: x.live, high := some v, bad := if bad then v :: x.bad else x.bad } := by
  obtain ⟨live, high, marks⟩ := x
  cases high with
  | none =>
    simp only [VWord.create]
    split <;> simp_all
  | some h =>
    simp only [VWord.create]
    split <;> simp_all

theorem VWord.create_wf {x : VWord} (hx : x.wf = true) (v : Nat) (val : Word) (bad : Bool) : (x.create v val bad).wf = true := by
  rcases x.create_cases v val bad with e | ⟨hv, hl, e⟩
  · rw [e, hx]
  · rw [e, VWord.wf_iff]
    refine ⟨hl, List.pairwise_cons.2 ⟨fun a ha => ?_, (x.wf_iff.1 hx).2.1⟩, by simp⟩
    obtain ⟨h, hh, hle⟩ := VWord.live_le_high hx ha
    exact hle.trans_lt (hv h hh)

theorem VWord.reclaim_wf {x : VWord} (hx : x.wf = true) (v : Nat) : (x.reclaim v).wf = true := by
  obtain ⟨hl, hp, hh⟩ := x.wf_iff.1 hx
  unfold VWord.reclaim
  split
  · exact hx
  · next n rest hn =>
    rw [hn] at hl hp hh
    have sub : (n :: rest.filter fun e => v ≤ e.1).Sublist (n :: rest) := List.filter_sublist.cons_cons n
    exact (VWord.wf_iff _).2 ⟨sub.length_le.trans hl, hp.sublist sub, hh⟩

theorem VWord.tarnish_wf {x : VWord} (hx : x.wf = true) (v : Option Nat) : (x.tarnish v).wf = true := hx

theorem versWf_iff (m : SMap VWord) : versWf m = true ↔ ∀ e ∈ m, e.2.wf = true := by simp [versWf]

theorem versWf_filter (f : Nat × VWord → Bool) {m : SMap VWord} (h : versWf m = true) : versWf (m.filter f) = true := by
  rw [versWf_iff] at *
  exact fun e he => h e (List.mem_filter.1 he).1

theorem versWf_set {d : Nat → VWord} {m : SMap VWord} {x : VWord} (w : Nat) (h : versWf m = true) (hx : x.wf = true) :
    versWf (SMap.set d m w x) = true := by
  rw [versWf_iff] at *
  intro e he
  rcases SMap.mem_set he with rfl | he
  · exact hx
  · exact h e he.1

theorem State.vword_wf {s : State} (h : versWf s.vers = true) (w : Nat) : (s.vword w).wf = true := by
  rcases SMap.get_default_or_mem (fun _ => VWord.reset) s.vers w with e | e
  · exact (congrArg VWord.wf e).trans VWord.reset_wf
  · exact (versWf_iff _).1 h _ e

/-! ### The partition tree (R22, R23) -/

theorem nodeDepth_left {p : Nat} (h : 1 ≤ p) : nodeDepth (2 * p) = nodeDepth p + 1 := by
  rw [nodeDepth, Nat.log2_def, if_pos (by omega), Nat.mul_div_cancel_left p (by omega)]
  rfl

theorem nodeDepth_right {p : Nat} (h : 1 ≤ p) : nodeDepth (2 * p + 1) = nodeDepth p + 1 := by
  rw [nodeDepth, Nat.log2_def, if_pos (by omega), show (2 * p + 1) / 2 = p by omega]
  rfl

/-- The two children of an inner node share its clusters: a cluster lies in the node when it lies in one of them, and never in both. -/
theorem nodeCovers_children {p : Nat} (h : 1 ≤ p) (h' : p < 1024) (k : Nat) :
    (nodeCovers p k = true ∧ nodeCovers (2 * p) k = true ∧ nodeCovers (2 * p + 1) k = false) ∨
    (nodeCovers p k = true ∧ nodeCovers (2 * p) k = false ∧ nodeCovers (2 * p + 1) k = true) ∨
    (nodeCovers p k = false ∧ nodeCovers (2 * p) k = false ∧ nodeCovers (2 * p + 1) k = false) := by
  have hd : nodeDepth p < 10 := (Nat.log2_lt (by omega)).2 h'
  have lo : 2 ^ nodeDepth p ≤ p := Nat.log2_self_le (by omega)
  obtain ⟨z, hz⟩ : ∃ z, z = 2 ^ (10 - (nodeDepth p + 1)) := ⟨_, rfl⟩
  obtain ⟨i, hi⟩ : ∃ i, i = p - 2 ^ nodeDepth p := ⟨_, rfl⟩
  have sz : nodeSize p = 2 * z := by rw [hz, nodeSize, ← Nat.pow_succ', show 10 - nodeDepth p = 10 - (nodeDepth p + 1) + 1 by omega]
  have szl : nodeSize (2 * p) = z := by rw [hz, nodeSize, nodeDepth_left h]
  have szr : nodeSize (2 * p + 1) = z := by rw [hz, nodeSize, nodeDepth_right h]
  have f : nodeFirst p = 2 * (i * z) := by rw [nodeFirst, sz, ← hi, Nat.mul_left_comm]
  have fl : nodeFirst (2 * p) = 2 * (i * z) := by
    rw [nodeFirst, szl, nodeDepth_left h, Nat.pow_succ', ← Nat.mul_sub, ← hi, Nat.mul_assoc]
  have fr : nodeFirst (2 * p + 1) = 2 * (i * z) + z := by
    rw [nodeFirst, szr, nodeDepth_right h, Nat.pow_succ', show 2 * p + 1 - 2 * 2 ^ nodeDepth p = 2 * i + 1 by omega]
    ring
  simp only [nodeCovers, sz, szl, szr, f, fl, fr, decide_eq_true_eq, decide_eq_false_iff_not]
  generalize i * z = a
  omega

/-- How many of the listed partitions cover a cluster. -/
def coverCount (m : SMap Part) (k : Nat) : Nat := m.countP fun e => nodeCovers e.1 k

theorem partsCover_iff (m : SMap Part) : PartsCover m ↔ (∀ e ∈ m, 1 ≤ e.1 ∧ e.1 < 2048) ∧ ∀ k < 1024, coverCount m k = 1 := by
  simp only [PartsCover, coverCount, List.countP_eq_length_filter]

/-- The cover depends on the numbers of the partitions alone. -/
theorem PartsCover.map {m : SMap Part} (h : PartsCover m) {f : Nat × Part → Nat × Part} (hf : ∀ e, (f e).1 = e.1) : PartsCover (m.map f) := by
  obtain ⟨hr, hc⟩ := (partsCover_iff m).1 h
  refine (partsCover_iff _).2 ⟨fun e he => ?_, fun k hk => ?_⟩
  · obtain ⟨x, hx, rfl⟩ := List.mem_map.1 he
    exact hf x ▸ hr x hx
  · rw [coverCount, List.countP_map, ← hc k hk, coverCount]
    exact congrArg (List.countP · m) (funext fun e => by simp [hf e])

theorem coverCount_put (m : SMap Part) (p k : Nat) (a : Part) :
    coverCount (m.put p a) k = coverCount (m.erase p) k + if nodeCovers p k then 1 else 0 := by
  rw [coverCount, SMap.put, (SMap.perm_insert p a _).countP_eq, List.countP_cons, coverCount]

/-- A node that does not cover a cluster counts for nothing there. -/
theorem coverCount_erase_of_not (m : SMap Part) {p k : Nat} (h : nodeCovers p k = false) : coverCount (m.erase p) k = coverCount m k := by
  rw [coverCount, SMap.erase, List.countP_filter, coverCount]
  refine List.countP_congr fun e _ => ?_
  by_cases he : e.1 = p <;> simp [he, h]

/-- The one node that covers a cluster gone, none does. -/
theorem coverCount_erase_of_covers {m : SMap Part} {p k : Nat} {a : Part} (h : coverCount m k = 1) (hm : (p, a) ∈ m)
    (hp : nodeCovers p k = true) : coverCount (m.erase p) k = 0 := by
  have hs : coverCount m k = (m.filter fun e => e.1 == p).countP (fun e => nodeCovers e.1 k) + coverCount (m.erase p) k :=
    List.countP_eq_countP_filter_add m _ _
  have hpos : 0 < (m.filter fun e => e.1 == p).countP fun e => nodeCovers e.1 k :=
    List.countP_pos_iff.2 ⟨_, List.mem_filter.2 ⟨hm, by simp⟩, hp⟩
  omega

theorem coverCount_put_of_not (m : SMap Part) {p k : Nat} (a : Part) (h : nodeCovers p k = false) :
    coverCount (m.put p a) k = coverCount m k := by
  rw [coverCount_put, h, coverCount_erase_of_not m h]
  rfl

/-- A node put where none covers a cluster is the one that does. -/
theorem coverCount_put_of_zero {m : SMap Part} {p k : Nat} (a : Part) (h : coverCount m k = 0) (hp : nodeCovers p k = true) :
    coverCount (m.put p a) k = 1 := by
  have le : coverCount (m.erase p) k ≤ coverCount m k := List.filter_sublist.countP_le
  rw [coverCount_put, hp, Nat.le_zero.1 (le.trans_eq h)]
  rfl

theorem PartsCover.split {m : SMap Part} (h : PartsCover m) (p : Nat) : PartsCover (splitParts m p) := by
  unfold splitParts
  split
  · next a hf =>
    split
    · next hp =>
      have hm := SMap.mem_of_find hf
      obtain ⟨hr, hc⟩ := (partsCover_iff m).1 h
      have hp1 : 1 ≤ p := (hr _ hm).1
      refine (partsCover_iff _).2 ⟨fun e he => ?_, fun k hk => ?_⟩
      · rcases SMap.mem_put he with rfl | ⟨he, -⟩
        · constructor <;> dsimp only <;> omega
        · rcases SMap.mem_put he with rfl | ⟨he, -⟩
          · constructor <;> dsimp only <;> omega
          · exact hr e (SMap.mem_erase.1 he).1
      · rcases nodeCovers_children hp1 hp k with ⟨cp, cl, cr⟩ | ⟨cp, cl, cr⟩ | ⟨cp, cl, cr⟩
        · rw [coverCount_put_of_not _ _ cr]
          exact coverCount_put_of_zero a (coverCount_erase_of_covers (hc k hk) hm cp) cl
        · refine coverCount_put_of_zero _ ?_ cr
          rw [coverCount_put_of_not _ _ cl, coverCount_erase_of_covers (hc k hk) hm cp]
        · rw [coverCount_put_of_not _ _ cr, coverCount_put_of_not _ _ cl, coverCount_erase_of_not _ cp, hc k hk]
    · exact h
  · exact h

theorem PartsCover.merge {m : SMap Part} (h : PartsCover m) (p : Nat) : PartsCover (mergeParts m p) := by
  unfold mergeParts
  split
  · next a b hfa hfb =>
    have ha := SMap.mem_of_find hfa
    have hb := SMap.mem_of_find hfb
    obtain ⟨hr, hc⟩ := (partsCover_iff m).1 h
    have hp : 1 ≤ 2 * p ∧ 2 * p < 2048 := hr _ ha
    refine (partsCover_iff _).2 ⟨fun e he => ?_, fun k hk => ?_⟩
    · rcases SMap.mem_put he with rfl | ⟨he, -⟩
      · constructor <;> dsimp only <;> omega
      · exact hr e (SMap.mem_erase.1 (SMap.mem_erase.1 he).1).1
    · rcases nodeCovers_children (p := p) (by omega) (by omega) k with ⟨cp, cl, cr⟩ | ⟨cp, cl, cr⟩ | ⟨cp, cl, cr⟩
      · refine coverCount_put_of_zero _ ?_ cp
        rw [coverCount_erase_of_not _ cr, coverCount_erase_of_covers (hc k hk) ha cl]
      · have hb' : (2 * p + 1, b) ∈ m.erase (2 * p) := SMap.mem_erase.2 ⟨hb, by simp⟩
        exact coverCount_put_of_zero _ (coverCount_erase_of_covers ((coverCount_erase_of_not m cl).trans (hc k hk)) hb' cr) cp
      · rw [coverCount_put_of_not _ _ cp, coverCount_erase_of_not _ cr, coverCount_erase_of_not _ cl, hc k hk]
  · exact h

/-- Node 1 alone covers the package. -/
theorem PartsCover.root (a : Part) : PartsCover [(1, a)] := by
  refine (partsCover_iff _).2 ⟨by simp, fun k hk => ?_⟩
  have : nodeCovers 1 k = true := by simpa [nodeCovers, nodeFirst, nodeSize, nodeDepth, Nat.log2_def] using hk
  simp [coverCount, this]

/-! ### Programs and meanings -/

/-- The invariant speaks of memory, marks, versions and partitions alone. -/
theorem Inv.congr {s t : State} (h : Inv s) (hm : t.mem = s.mem) (hp : t.pois = s.pois) (hv : t.vers = s.vers) (hc : t.parts = s.parts) :
    Inv t := ⟨hm ▸ h.mem, hp ▸ h.pois, hv ▸ h.vers, hc ▸ h.cover⟩

theorem Inv.with_dev {s : State} (h : Inv s) (d : Dev) : Inv { s with dev := d } := h.congr rfl rfl rfl rfl

theorem Inv.setCore {s : State} (h : Inv s) (n : Nat) (c : Core) : Inv (s.setCore n c) := h.congr rfl rfl rfl rfl

theorem Inv.setCluster {s : State} (h : Inv s) (n : Nat) (c : Cluster) : Inv (s.setCluster n c) := h.congr rfl rfl rfl rfl

theorem Inv.setVers {s : State} (h : Inv s) (w : Nat) {x : VWord} (hx : x.wf = true) :
    Inv { s with vers := SMap.set (fun _ => VWord.reset) s.vers w x } := 
  ⟨h.mem, h.pois, versWf_set (d := fun _ => VWord.reset) w h.vers hx, h.cover⟩

theorem Inv.mapParts {s : State} (h : Inv s) {f : Nat × Part → Nat × Part} (hf : ∀ e, (f e).1 = e.1) :
    Inv { s with parts := s.parts.map f } := ⟨h.mem, h.pois, h.vers, h.cover.map hf⟩

theorem Inv.begin {s : State} (h : Inv s) (id : Nat) : Inv (s.begin id) := h.congr rfl rfl rfl rfl

/-- The machine after reset meets the invariant: nothing is listed but node 1 (R24). -/
theorem inv_reset : Inv State.reset := ⟨rfl, rfl, rfl, .root _⟩

/-- Every primitive update keeps the invariant. -/
theorem Upd.apply_inv (u : Upd) {s : State} (h : Inv s) : Inv (u.apply s) := by
  cases u with
  | ctx | core | cluster | vf | port | cache | cal | dev => exact h.congr rfl rfl rfl rfl
  | part p f =>
    refine h.mapParts fun e => ?_
    split
    · next he => exact he.symm
    · rfl
  | splitPart p => exact ⟨h.mem, h.pois, h.vers, h.cover.split p⟩
  | mergePart p => exact ⟨h.mem, h.pois, h.vers, h.cover.merge p⟩
  | poke a bs => exact ⟨Memory.writes_wf a bs h.mem, poisWf_filter _ h.pois, h.vers, h.cover⟩
  | scrub lo hi => exact ⟨Memory.eraseRange_wf lo hi h.mem, poisWf_filter _ h.pois, versWf_filter _ h.vers, h.cover⟩
  | poison w => exact ⟨h.mem, poisWf_insert w h.pois, h.vers, h.cover⟩
  | version w v x bad => exact h.setVers w (VWord.create_wf (State.vword_wf h.vers w) v x bad)
  | retire w v => exact h.setVers w (VWord.reclaim_wf (State.vword_wf h.vers w) v)
  | tarnish w v => exact h.setVers w (VWord.tarnish_wf (State.vword_wf h.vers w) v)
  | shadow k e => cases e <;> exact h.congr rfl rfl rfl rfl
  | reset p => exact ⟨Memory.filter_wf _ h.mem, poisWf_filter _ h.pois, rfl, .root _⟩

/-- Every program keeps it, also one that gives up and goes on from the state it began with. -/
theorem P.run_inv {s0 : State} (h0 : Inv s0) (p : P) {s : State} (h : Inv s) : Inv (p.run s0 s) := by
  induction p generalizing s with
  | done => exact h
  | upd u k ih => exact ih (u.apply_inv h)
  | get k ih => exact ih s h
  | abort k ih => exact ih h0

/-- A meaning whose next states keep the invariant. -/
def KeepsInv (f : State → Outcome) : Prop := ∀ ⦃s t : State⦄, Inv s → f s = .next t → Inv t

/-- A meaning that runs one program, as those of instructions and of events do. -/
theorem keepsInv_program (p : P) : KeepsInv fun s => .next (p.run s s) := fun _ _ h e => by
  cases e
  exact P.run_inv h p h

theorem keepsInv_event (m : M Unit) : KeepsInv (event m) := keepsInv_program _

theorem keepsInv_andThen {a b : State → Outcome} (ha : KeepsInv a) (hb : ∀ t, Inv t → ∀ u, b t = .next u → Inv u) : KeepsInv (andThen a b) := by
  intro s t h e
  unfold andThen at e
  split at e
  · next u hu => exact hb u (ha h hu) t e
  · cases e
  · cases e

theorem inv_of_ite {c : Prop} [Decidable c] {a b : Outcome} {t : State} (e : (if c then a else b) = .next t)
    (ha : a = .next t → Inv t) (hb : b = .next t → Inv t) : Inv t := by
  split at e
  · exact ha e
  · exact hb e

/-- A second event that happens under a condition on the state before or after the first. -/
theorem inv_of_ite_event {c : Prop} [Decidable c] {m : M Unit} {t u : State} (h : Inv t)
    (e : (if c then event m t else .next t) = .next u) : Inv u :=
  inv_of_ite e (keepsInv_event m h ·) fun e => by cases e; exact h

theorem keepsInv_hostAccess (fn : Nat) (o : HostOp) : KeepsInv (hostAccess fn o) := fun _ _ h e =>
  inv_of_ite e (keepsInv_event _ h ·) (keepsInv_andThen (keepsInv_event _) (fun _ hu _ => inv_of_ite_event hu) h ·)

theorem keepsInv_received (i : Nat) (p : Packet) (kind : Nat) : KeepsInv (received i p kind) := fun _ _ h e =>
  keepsInv_andThen (keepsInv_event _) (fun _ hu _ => inv_of_ite_event hu) h e

theorem keepsInv_execIntakeFrame (ca good : Bool) (frame : List Byte) : KeepsInv (execIntakeFrame ca good frame) := fun _ _ h e =>
  keepsInv_andThen (keepsInv_event _) (fun _ hu _ => inv_of_ite_event hu) h e

/-- Every row of the opcode table keeps the invariant: all but the accesses of the host, packets and frames run one program. -/
theorem keepsInv_exec (i : Instr) : KeepsInv (exec i) := by
  cases i with
  | postWindowWrite fn => exact keepsInv_andThen (keepsInv_hostAccess fn _) fun _ h _ => keepsInv_event _ h
  | attcmdGo | wdlimWrite | registerWrite | hostApertureAccess => exact keepsInv_hostAccess _ _
  | cmdstatLostClear fn => exact (keepsInv_hostAccess _ _ : KeepsInv (execCmdstatLostClear fn))
  | hndropClear fn => exact (keepsInv_hostAccess _ _ : KeepsInv (execHndropClear fn))
  | s2faultClear => exact (keepsInv_hostAccess _ _ : KeepsInv execS2faultClear)
  | multicastEntryWrite ca k v => exact (keepsInv_hostAccess _ _ : KeepsInv (execMulticastEntryWrite ca k v))
  | lineReadRequest | lineDataResponse | lineWriteBack | writeAcknowledgement | probe | probeResponse | farAtomic | atomicResponse
  | calderaAccess | calderaResponse | groupBarrier | translationInvalidation | translationInvalidationAck | scrubInvalidation =>
    exact keepsInv_received _ _ _
  | intakeFrame => exact keepsInv_execIntakeFrame _ _ _
  | _ => exact keepsInv_program _

/-! ### Choices of a step -/

theorem keepsInv_perform (i : Instr) : KeepsInv (perform i) := fun _ _ h e => keepsInv_exec i (h.with_dev _) e

theorem keepsInv_performWord (w : IWord) : KeepsInv (performWord w) := by
  intro s t h e
  unfold performWord at e
  split at e
  · exact keepsInv_perform _ h e
  · exact keepsInv_exec (.reservedEncoding w) (h.with_dev _) e

theorem keepsInv_fetchAndPerform : KeepsInv fetchAndPerform := by
  intro s t h e
  unfold fetchAndPerform at e
  dsimp only at e
  split at e
  · exact keepsInv_performWord _ (P.run_inv h _ h) e
  · exact keepsInv_exec .fetchFault h e

theorem keepsInv_issue (id : Nat) : KeepsInv (issue id) := by
  intro s t h e
  have hb := h.begin id
  unfold issue at e
  dsimp only at e
  split_ifs at e
  · exact keepsInv_event _ hb e
  · exact keepsInv_exec (.interruptTaken _) hb e
  · exact keepsInv_exec (.dwellFlush _) hb e
  · cases e
    exact hb
  · exact keepsInv_fetchAndPerform hb e

theorem keepsInv_again (id : Nat) (w : Wait) : KeepsInv (again id w) := by
  intro s t h e
  unfold again at e
  dsimp only at e
  split at e
  · exact keepsInv_perform _ (h.begin id) e
  · exact keepsInv_fetchAndPerform (h.begin id) e

theorem causeFirst_inv {s t : State} (hs : Inv s) (ht : Inv t) (id : Nat) : Inv (causeFirst s id t) := by
  unfold causeFirst
  dsimp only
  split
  · exact ht
  · generalize hr : List.findSome? _ _ = r
    cases r with
    | none => exact ht
    | some u =>
      obtain ⟨i, -, hi⟩ := List.exists_of_findSome?_eq_some hr
      split at hi
      · split at hi
        · next hu =>
          split at hi
          · obtain rfl := Option.some.inj hi
            exact keepsInv_again _ _ hs hu
          · cases hi
        · cases hi
      · cases hi

theorem wakeFirst_inv {s t : State} (h : Inv s) {l : List (Nat × Wait)} (e : wakeFirst s l = some t) : Inv t := by
  induction l with
  | nil => cases e
  | cons a r ih =>
    obtain ⟨id, w⟩ := a
    unfold wakeFirst at e
    split at e
    · next u hu =>
      split_ifs at e
      · exact ih e
      · split at e
        · next v hv =>
          split_ifs at e
          · exact ih e
          · obtain rfl := Option.some.inj e
            exact keepsInv_exec (.interruptTaken _) h hv
        · exact ih e
      · obtain rfl := Option.some.inj e
        exact causeFirst_inv h (keepsInv_again id w h hu) id
    · exact ih e

theorem firstWork_inv {s t : State} (h : Inv s) {l : List (M Unit)} (e : firstWork s l = some t) : Inv t := by
  induction l with
  | nil => cases e
  | cons m ms ih =>
    simp only [firstWork] at e
    split at e
    · exact ih e
    · obtain rfl := Option.some.inj e
      exact P.run_inv h _ h

theorem State.wake_inv {s t : State} (h : Inv s) (e : s.wake = some t) : Inv t := by
  unfold State.wake at e
  split at e
  · next hu =>
    obtain rfl := Option.some.inj e
    exact firstWork_inv h hu
  · exact wakeFirst_inv h e

theorem keepsInv_takeTurn (u : Turn) : KeepsInv (takeTurn · u) := by
  intro s t h e
  cases u with
  | issue id =>
    simp only [takeTurn] at e
    split_ifs at e
    · exact keepsInv_issue id h e
    · cases e
      exact h
  | event i =>
    simp only [takeTurn] at e
    split_ifs at e
    · exact keepsInv_exec i (h.with_dev _) e
    · cases e
      exact h
  | dropTlb ni =>
    cases e
    exact h.with_dev _
  | dropL1 | upset | corrected | leaves => exact keepsInv_event _ h e

theorem firstTurn_inv {s t : State} (h : Inv s) {l : List Nat} (e : firstTurn s l = .next t) : Inv t := by
  induction l with
  | nil =>
    cases e
    exact h
  | cons id r ih =>
    unfold firstTurn at e
    split at e
    · next hu =>
      split_ifs at e
      · exact ih e
      · cases e
        exact keepsInv_issue id h hu
    · cases e
    · cases e

/-! ### Events that happen by themselves -/

/-- A list of meanings that all keep the invariant. -/
def EachKeepsInv (l : List (State → Outcome)) : Prop := ∀ f ∈ l, KeepsInv f

theorem EachKeepsInv.nil : EachKeepsInv [] := List.forall_mem_nil _

theorem EachKeepsInv.cons {f : State → Outcome} {l : List (State → Outcome)} (hf : KeepsInv f) (h : EachKeepsInv l) : EachKeepsInv (f :: l) :=
  List.forall_mem_cons.2 ⟨hf, h⟩

theorem EachKeepsInv.one {f : State → Outcome} (hf : KeepsInv f) : EachKeepsInv [f] := .cons hf .nil

theorem EachKeepsInv.append {l m : List (State → Outcome)} (hl : EachKeepsInv l) (hm : EachKeepsInv m) : EachKeepsInv (l ++ m) :=
  List.forall_mem_append.2 ⟨hl, hm⟩

section
variable {α : Type} {l : List α}

theorem EachKeepsInv.map {f : α → State → Outcome} (h : ∀ a, KeepsInv (f a)) : EachKeepsInv (l.map f) :=
  List.forall_mem_map.2 fun a _ => h a

theorem EachKeepsInv.flatMap {f : α → List (State → Outcome)} (h : ∀ a, EachKeepsInv (f a)) : EachKeepsInv (l.flatMap f) := by
  intro g hg
  obtain ⟨a, -, ha⟩ := List.mem_flatMap.1 hg
  exact h a g ha

theorem EachKeepsInv.filterMap {f : α → Option (State → Outcome)} (h : ∀ a, ∀ g ∈ f a, KeepsInv g) : EachKeepsInv (l.filterMap f) := by
  intro g hg
  obtain ⟨a, -, ha⟩ := List.mem_filterMap.1 hg
  exact h a g ha

/-- The entries with a property, each with one event. -/
theorem EachKeepsInv.filterMap_some {c : α → Prop} [DecidablePred c] {f : α → State → Outcome} (h : ∀ a, KeepsInv (f a)) :
    EachKeepsInv (l.filterMap fun a => if c a then some (f a) else none) :=
  .filterMap fun a g hg => by
    split at hg
    · exact Option.some.inj hg ▸ h a
    · cases hg

theorem EachKeepsInv.filterMap_none {c : α → Prop} [DecidablePred c] {f : α → State → Outcome} (h : ∀ a, KeepsInv (f a)) :
    EachKeepsInv (l.filterMap fun a => if c a then none else some (f a)) :=
  .filterMap fun a g hg => by
    split at hg
    · cases hg
    · exact Option.some.inj hg ▸ h a

end

theorem cmdEvent_eachKeepsInv (fn op : Nat) : EachKeepsInv (cmdEvent fn op) := by
  unfold cmdEvent
  split
  case h_19 => exact .nil
  all_goals exact .one (keepsInv_program _)

theorem State.events_eachKeepsInv (s : State) : EachKeepsInv s.events := by
  unfold State.events
  dsimp only
  repeat' apply EachKeepsInv.append
  · exact .flatMap fun e => by
      split
      · exact cmdEvent_eachKeepsInv _ _
      · exact .nil
  · exact .filterMap_none fun _ => keepsInv_exec (.mailboxPost _)
  · exact .map fun _ => keepsInv_exec (.interruptTaken _)
  · exact .flatMap fun c => .cons (keepsInv_exec (.tileRetire c)) (.one (keepsInv_exec (.tileStart c)))
  · exact .flatMap fun _ => .map fun c => keepsInv_exec (.vectorRetire c)
  · exact .filterMap_some fun _ => keepsInv_exec (.portPublish _)
  · exact .filterMap_some fun _ => keepsInv_exec (.ventOpComplete _)
  · exact .filterMap_some fun _ => keepsInv_exec (.ventDispatch _)
  · exact .map fun _ => keepsInv_exec (.dispatch _)
  · exact .map fun _ => keepsInv_exec (.superstepBoundary _)
  · exact .map fun _ => keepsInv_exec (.quiescenceDetected _)
  · exact .map fun _ => keepsInv_exec (.sliceTimerExpiry _)
  · exact .map fun _ => keepsInv_exec (.energyMeterUpdate _)
  · exact .map fun _ => keepsInv_exec (.watchdogExpiry _)
  · exact .filterMap_some fun _ => keepsInv_exec (.mpcHalving _)
  · exact .one (keepsInv_exec .pwrmeasRefresh)
  · exact .map fun _ => keepsInv_exec (.scrubComplete _)
  · exact .filterMap_some fun _ => keepsInv_exec (.attestationReportDone _)
  · exact .filterMap_some fun _ => keepsInv_exec (.linkPortDown _)
  · exact .map fun _ => keepsInv_exec (.peerLost _)

theorem firstEvent_inv {s t : State} (h : Inv s) {l : List (State → Outcome)} (hl : EachKeepsInv l) (e : firstEvent s l = some t) :
    Inv t := by
  induction l with
  | nil => cases e
  | cons f fs ih =>
    obtain ⟨hf, hfs⟩ := List.forall_mem_cons.1 hl
    unfold firstEvent at e
    split at e
    · next hu =>
      split_ifs at e
      · exact ih hfs e
      · obtain rfl := Option.some.inj e
        exact hf h hu
    · exact ih hfs e

theorem keepsInv_proceed : KeepsInv proceed := by
  intro s t h e
  unfold proceed at e
  split at e
  · next hu =>
    cases e
    exact firstWork_inv h hu
  · dsimp only at e
    split at e
    · next hu =>
      cases e
      exact firstEvent_inv (h.with_dev _) (State.events_eachKeepsInv _) hu
    · exact firstTurn_inv (h.with_dev _) e

theorem keepsInv_choose : KeepsInv choose := by
  intro s t h e
  unfold choose at e
  split at e
  · split at e
    · exact keepsInv_takeTurn _ (h.with_dev _) e
    · cases e
      exact h.with_dev _
    · cases e
      exact h
  · split at e
    · next hu =>
      cases e
      exact State.wake_inv h hu
    · split at e
      · exact keepsInv_takeTurn _ (h.with_dev _) e
      · exact keepsInv_proceed h e

/-! ### The end of a step -/

theorem State.settle_inv {s : State} (h : Inv s) : Inv s.settle := h.mapParts fun e => by split <;> rfl

theorem State.arbitrateAll_inv {s : State} (h : Inv s) : Inv s.arbitrateAll := by
  unfold State.arbitrateAll
  exact List.foldlRecOn _ _ h fun t ht k _ => ht.setCluster k _

theorem State.tickPart_key (s : State) (unit : Bool) (e : Nat × Part) : (s.tickPart unit e).1 = e.1 := by
  unfold State.tickPart
  dsimp only
  split <;> rfl

theorem State.tick_inv {s : State} (h : Inv s) : Inv s.tick :=
  ((State.arbitrateAll_inv h).mapParts (State.tickPart_key _ _)).congr rfl rfl rfl rfl

theorem State.after_inv {s : State} (h : Inv s) : Inv s.after := State.tick_inv (State.settle_inv h)

theorem step_inv {s t : State} (h : Inv s) (e : step s = .next t) : Inv t := by
  unfold step at e
  split at e
  · next hu =>
    cases e
    exact State.after_inv (keepsInv_choose h hu)
  · cases e
  · cases e

/-- Settles O60: a step is a choice, which runs programs over the primitive updates, and one cycle of time; each keeps the invariant. -/
theorem stepKeepsInv : Obligations.StepKeepsInv := fun _ _ => step_inv

/-- Settles O59: the invariant holds at reset, and each value is read off the state after reset. -/
theorem resetState : Obligations.ResetState :=
  ⟨inv_reset, rfl, rfl, rfl, fun _ => rfl, fun _ => ⟨rfl, rfl⟩, fun _ => ⟨rfl, rfl, rfl⟩, fun _ => ⟨rfl, rfl, rfl⟩,
    fun _ h => if_pos h, fun _ => ⟨rfl, rfl, rfl⟩, fun _ => rfl, fun _ => rfl, rfl⟩

end Sys2Proof.Machine
end

section
/-!
SUPPORT. The step of the program counter queue and the landing of exposed loads (R39, R40); a step that runs the decoded instruction (R36, R163).
-/

namespace Sys2Proof.Machine

open M

/-! ### A step runs the decoded instruction -/

/-- An issue with nothing in front of the instruction, and a fetch that finds the word of an instruction, performs it. -/
theorem issue_of_word {id : Nat} {w : IWord} {i : Instr} {s : State} (hd : ((s.begin id).ctx id).due = none)
    (hi : ctxOf id = 0 → (s.begin id).irqReady (coreOf id) = false)
    (hw : ctxOf id = 0 → ((s.begin id).core (coreOf id)).dwell < 16 ∨ ∀ e ∈ ((s.begin id).core (coreOf id)).win, e.st ≠ .held)
    (hr : ctxOf id = 0 → ∀ e ∈ ((s.begin id).core (coreOf id)).win, e.replay = none)
    (hf : (s.begin id).fetched.dev.word = some w) (h : decode w = .ok i) : issue id s = perform i (s.begin id).fetched := by
  have due : ((s.begin id).ctx id).due.isSome = false := by rw [hd]; rfl
  have irq : (ctxOf id == 0 && (s.begin id).irqReady (coreOf id)) = false := by
    by_cases c : ctxOf id = 0
    · simp [hi c]
    · simp [c]
  have dwell : (ctxOf id == 0 && decide (16 ≤ ((s.begin id).core (coreOf id)).dwell) &&
      ((s.begin id).core (coreOf id)).win.any TEnt.held) = false := by
    by_cases c : ctxOf id = 0
    · rcases hw c with hw | hw
      · simp [Nat.not_le.2 hw]
      · have : ((s.begin id).core (coreOf id)).win.any TEnt.held = false := by
          simpa [TEnt.held] using hw
        simp [this]
    · simp [c]
  have replay : (ctxOf id == 0 && ((s.begin id).core (coreOf id)).replaying) = false := by
    by_cases c : ctxOf id = 0
    · have : ((s.begin id).core (coreOf id)).replaying = false := by simpa [Core.replaying] using hr c
      simp [this]
    · simp [c]
  unfold issue
  simp only [due, irq, dwell, replay, Bool.false_eq_true, if_false, fetchAndPerform, hf, performWord, h]

theorem takeTurn_issue {id : Nat} {s : State} (hc : s.hasCtx id = true) (hr : (s.ctx id).run = .ready) :
    takeTurn s (.issue id) = issue id s := by
  simp [takeTurn, hc, hr]

/-- The head of the agenda has the turn when no wait ends first. -/
theorem choose_of_agenda {u : Turn} {rest : List Turn} {s : State} (hs : s.dev.stopped = false) (hw : s.wake = none)
    (ha : s.dev.agenda = u :: rest) : choose s = takeTurn { s with dev := { s.dev with agenda := rest } } u := by
  rw [choose, if_neg (by simp [hs]), hw]
  dsimp only
  rw [ha]

/-- Settles O55: the head of the agenda has the turn, its issue performs the word that the fetch has found, and a cycle passes. -/
theorem stepRuns : Obligations.StepRuns := by
  intro id rest w i s hs hw ha hc hr b c hd hi hdw hrp hf h
  have turn := (choose_of_agenda hs hw ha).trans (takeTurn_issue hc hr)
  have runs := turn.trans (issue_of_word hd hi hdw hrp hf h)
  unfold step
  rw [runs]
  rfl

/-! ### The step of the queue, and the landing of loads (R39, R40) -/

/-- What a register reads after a write: x0 discards it (R157). -/
theorem Ctx.rd_wr (c : Ctx) (r q : XReg) (v : Word) : (c.wr r v).rd q = if q = r ∧ q ≠ 0 then v else c.rd q := by
  by_cases h : q = r
  · subst h
    by_cases z : q = 0
    · subst z
      rfl
    · rw [if_pos ⟨rfl, z⟩, Ctx.rd_wr_self c v z]
  · rw [if_neg fun e => h e.1, Ctx.rd_wr_ne c v h]

theorem Ctx.rd_congr {c d : Ctx} (h : c.x = d.x) (r : XReg) : c.rd r = d.rd r := by
  unfold Ctx.rd
  rw [h]

section
variable (c : Ctx) (l : List Pend)

/-- Landing loads changes registers alone: any part of the context that a register write keeps stands. -/
theorem Ctx.land_keeps {α : Type} (f : Ctx → α) (h : ∀ (c : Ctx) r v, f (c.wr r v) = f c) : f (c.land l) = f c := by
  induction l generalizing c with
  | nil => rfl
  | cons p l ih => exact (ih _).trans (h c p.rd p.val)

/-- What a register reads once loads have landed in it, in program order (R39). -/
theorem Ctx.land_rd (r : XReg) : (c.land l).rd r = l.foldl (fun v p => if r = p.rd ∧ r ≠ 0 then p.val else v) (c.rd r) := by
  induction l generalizing c with
  | nil => rfl
  | cons p l ih => rw [List.foldl_cons, ← Ctx.rd_wr, ← ih, Ctx.land]

theorem Ctx.land_rd_of_ne {r : XReg} (h : ∀ p ∈ l, p.rd ≠ r) : (c.land l).rd r = c.rd r := by
  induction l generalizing c with
  | nil => rfl
  | cons p l ih =>
    obtain ⟨hp, hl⟩ := List.forall_mem_cons.1 h
    exact (ih _ hl).trans (Ctx.rd_wr_ne c p.val hp.symm)

/-- So does a tick, which also counts the pending loads down. -/
theorem Ctx.tick_keeps {α : Type} (f : Ctx → α) (h : ∀ (c : Ctx) r v, f (c.wr r v) = f c) (hp : ∀ (c : Ctx) ps, f { c with pend := ps } = f c) :
    f c.tick = f c := (hp _ _).trans (c.land_keeps _ f h)

@[simp] theorem Ctx.tick_pc : c.tick.pc = c.pc := c.tick_keeps (·.pc) (fun _ _ _ => Ctx.wr_pc ..) fun _ _ => rfl
@[simp] theorem Ctx.tick_q1 : c.tick.q1 = c.q1 := c.tick_keeps (·.q1) (fun _ _ _ => Ctx.wr_q1 ..) fun _ _ => rfl
@[simp] theorem Ctx.tick_q2 : c.tick.q2 = c.q2 := c.tick_keeps (·.q2) (fun _ _ _ => Ctx.wr_q2 ..) fun _ _ => rfl
@[simp] theorem Ctx.tick_a1 : c.tick.a1 = c.a1 := c.tick_keeps (·.a1) (fun _ _ _ => Ctx.wr_a1 ..) fun _ _ => rfl
@[simp] theorem Ctx.tick_a2 : c.tick.a2 = c.a2 := c.tick_keeps (·.a2) (fun _ _ _ => Ctx.wr_a2 ..) fun _ _ => rfl

end

/-- The program counter queue and the annul bits of a context (R40). -/
def Ctx.queue (c : Ctx) : Word × Word × Word × Bool × Bool := (c.pc, c.q1, c.q2, c.a1, c.a2)

/-- The queue after a retirement: the annulled entries that reach pc retire in the same step. -/
theorem Ctx.retire_queue (f : Fin) (c : Ctx) :
    let n := f.target.getD (c.q2 + 4)
    let a1 := c.a1 || (f.annul && f.target.isNone)
    let a2 := c.a2 || (f.annul && f.target.isNone)
    (c.retire f).queue =
      if a1 && a2 then (n, n + 4, n + 8, false, false)
      else if a1 then (c.q2, n, n + 4, false, false)
      else (c.q1, c.q2, n, a2, false) := by
  intro n a1 a2
  show Ctx.queue (Ctx.skipAnnulled 2 a1 (Ctx.tick _)) = _
  cases h1 : a1 with
  | false => simp [Ctx.skipAnnulled, Ctx.queue, a2, n]
  | true =>
    cases h2 : (c.a2 || (f.annul && f.target.isNone)) with
    | false => simp [Ctx.skipAnnulled, Ctx.queue, Ctx.advance, h2, a2, n]
    | true => simp [Ctx.skipAnnulled, Ctx.queue, Ctx.advance, h2, a2, n, BitVec.add_assoc]

/-- An instruction's end acts on the executing context alone. -/
@[simp] theorem State.retired_me (s : State) (f : Fin) : (s.retired f).me = s.me.retire f := SMap.get_set_self ..
@[simp] theorem State.retired_cur (s : State) (f : Fin) : (s.retired f).dev.cur = s.dev.cur := rfl

/-- Without an annulled entry in front, one step lands the loads that have come due, and counts the others down. -/
theorem Ctx.retire_lands {c : Ctx} (h : c.a1 = false) :
    let ps := c.pend.map fun p => { p with left := p.left - 1 }
    (c.retire {}).pend = ps.filter (fun p => p.left != 0) ∧
    ∀ r, (c.retire {}).rd r = (ps.filter fun p => p.left == 0).foldl (fun v p => if r = p.rd ∧ r ≠ 0 then p.val else v) (c.rd r) := by
  intro ps
  simp only [Ctx.retire, Ctx.advance, h, Bool.false_and, Bool.or_false, Ctx.skipAnnulled]
  exact ⟨rfl, fun r => Ctx.land_rd ..⟩

/-- Settles O4: the queue moves as the pseudocode of R40 says, and a tick lands the loads that have come due. -/
theorem queueStep : Obligations.QueueStep := by
  constructor
  · intro f s _
    rw [State.retired_me]
    exact Ctx.retire_queue f s.me
  · intro s p q h1 hp p0 q0
    rw [State.retired_me]
    obtain ⟨pend, regs⟩ := Ctx.retire_lands h1
    rw [hp] at pend regs
    have due : ∀ n : Nat, 0 < n → (n - 1 == 0) = decide (n = 1) := fun n h => by
      rw [Bool.eq_iff_iff, beq_iff_eq, decide_eq_true_eq]
      omega
    have later : ∀ n : Nat, (n - 1 != 0) = decide (1 < n) := fun n => by
      rw [Bool.eq_iff_iff, bne_iff_ne, decide_eq_true_eq]
      omega
    refine ⟨pend.trans ?_, fun r => (regs r).trans ?_⟩
    · rw [List.filter_map]
      simp only [Function.comp_def, later]
    · rw [List.filter_map]
      simp only [Function.comp_def]
      by_cases p1 : p.left = 1 <;> by_cases q1 : q.left = 1 <;> simp [due p.left p0, due q.left q0, p1, q1]

end Sys2Proof.Machine
end

section
/-!
SUPPORT. What scalar operations, branches and local loads and stores leave unchanged (R39, R40, R216, R217). The one idea: each changes at most
rd, or some bytes, and then retires; and a retirement keeps the frame of what came before it.
-/

namespace Sys2Proof.Machine

open M

/-! ### What the end of an instruction leaves unchanged (R39, R40) -/

/-- The parts of a context that only particular instructions change. -/
def Ctx.kept (c : Ctx) : Bool × SMap Word × List Msg × Option (Msg × Nat) := (c.sup, c.csr, c.recvq, c.slot)

@[simp] theorem Ctx.wr_kept (c : Ctx) (r : XReg) (v : Word) : (c.wr r v).kept = c.kept := by simp [Ctx.kept]

theorem Ctx.tick_kept (c : Ctx) : c.tick.kept = c.kept := c.tick_keeps _ Ctx.wr_kept fun _ _ => rfl

theorem Ctx.skipAnnulled_kept (n : Nat) (a : Bool) (c : Ctx) : (Ctx.skipAnnulled n a c).kept = c.kept := by
  induction n generalizing a c with
  | zero => rfl
  | succ n ih =>
    cases a with
    | false => rfl
    | true => exact (ih _ _).trans (Ctx.tick_kept _)

theorem Ctx.retire_kept (f : Fin) (c : Ctx) : (c.retire f).kept = c.kept :=
  (Ctx.skipAnnulled_kept _ _ _).trans (Ctx.tick_kept _)

/-- No pending load is for a register. -/
def Ctx.notPending (r : XReg) (c : Ctx) : Prop := ∀ p ∈ c.pend, p.rd ≠ r

theorem Ctx.tick_of_notPending {r : XReg} {c : Ctx} (h : c.notPending r) : c.tick.notPending r ∧ c.tick.rd r = c.rd r := by
  have hm : ∀ p ∈ c.pend.map fun p => { p with left := p.left - 1 }, p.rd ≠ r := List.forall_mem_map.2 h
  exact ⟨fun p hp => hm p (List.mem_filter.1 hp).1, Ctx.land_rd_of_ne _ _ fun p hp => hm p (List.mem_filter.1 hp).1⟩

theorem Ctx.skipAnnulled_rd {r : XReg} (n : Nat) (a : Bool) {c : Ctx} (h : c.notPending r) : (Ctx.skipAnnulled n a c).rd r = c.rd r := by
  induction n generalizing a c with
  | zero => rfl
  | succ n ih =>
    cases a with
    | false => rfl
    | true =>
      have ht := Ctx.tick_of_notPending (r := r) (c := (c.advance (c.q2 + 4)).2) h
      exact (ih _ ht.1).trans ht.2

/-- A register that no pending load is for keeps its value. -/
theorem Ctx.retire_rd {r : XReg} (f : Fin) {c : Ctx} (h : c.notPending r) : (c.retire f).rd r = c.rd r := by
  obtain ⟨a, d, e, hx, hp⟩ : ∃ (a : Bool) (d : Ctx), c.retire f = Ctx.skipAnnulled 2 a d.tick ∧ d.x = c.x ∧ d.pend = c.pend := ⟨_, _, rfl, rfl, rfl⟩
  obtain ⟨ht, hr⟩ := Ctx.tick_of_notPending (c := d) (r := r) fun p hm => h p (hp ▸ hm)
  rw [e, Ctx.skipAnnulled_rd _ _ ht, hr, Ctx.rd_congr hx]

/-- The parts of a core that only particular instructions change. -/
def Core.kept (c : Core) := ((c.v, c.t, c.win, c.task), c.vq, c.cq, c.locks, c.deque, c.l1, c.stash)

section
variable (f : Fin) (n : Nat) (control : Bool) (c : Core)

theorem Core.retire_kept : (c.retire f n control).kept = c.kept := by
  unfold Core.retire
  dsimp only
  split <;> split <;> rfl

/-- A retirement changes one register of the core, TRC (R86). -/
theorem Core.retire_csr (k : Nat) :
    (c.retire f n control).csrGet k = if k = cTRC ∧ f.trc = true then c.csrGet cTRC + 1 else c.csrGet k := by
  have e : (c.retire f n control).csr = if f.trc then (c.csrBump cTRC (c.csrGet cTRC + 1)).csr else c.csr := by
    unfold Core.retire
    dsimp only
    split <;> split <;> rfl
  unfold Core.csrGet
  rw [e]
  by_cases ht : f.trc = true
  · by_cases hk : k = cTRC
    · subst hk
      rw [if_pos ht, if_pos ⟨rfl, ht⟩]
      exact SMap.get_set_self ..
    · rw [if_pos ht, if_neg fun e => hk e.1]
      exact SMap.get_set_ne _ _ _ hk
  · rw [if_neg ht, if_neg fun e => ht e.2]

end

/-! ### Frames -/

namespace State

@[simp] theorem retired_myCore (s : State) (f : Fin) :
    (s.retired f).myCore = s.myCore.retire f (1 + s.me.annulled f) (ctxOf s.dev.cur == 0) := SMap.get_set_self ..

theorem retired_ctx_ne (s : State) (f : Fin) {k : Nat} (h : k ≠ s.dev.cur) : (s.retired f).ctx k = s.ctx k := ctx_setCtx_ne _ _ h

theorem retired_core_ne (s : State) (f : Fin) {k : Nat} (h : k ≠ coreOf s.dev.cur) : (s.retired f).core k = s.core k := core_setCore_ne _ _ h

/-- The end of an instruction that has changed rd at most, and loads rd at most, keeps its frame. -/
theorem framed_retired {s t : State} {rd : XReg} (f : Fin) (h : s.framed t rd false) (hp : ∀ r, r ≠ rd → t.me.notPending r) :
    s.framed (t.retired f) rd f.trc := by
  obtain ⟨cur, regs, csrs, sup, trc, coreCsrs, units, vq, queues, msgs, ctxs, cores, blocks, rest⟩ := h
  have hk := Ctx.retire_kept f t.me
  have hc := Core.retire_kept f (1 + t.me.annulled f) (ctxOf t.dev.cur == 0) t.myCore
  simp only [Ctx.kept, Core.kept, Prod.mk.injEq] at hk hc
  obtain ⟨ksup, kcsr, krecvq, kslot⟩ := hk
  obtain ⟨⟨kv, kt, kwin, ktask⟩, kvq, kcq, klocks, kdeque, kl1, kstash⟩ := hc
  refine ⟨cur, fun r hr => ?_, fun n => ?_, ?_, ?_, fun n hn => ?_, ?_, ?_, ?_, ?_, fun k hk => ?_, fun c hc => ?_, blocks, rest⟩
  · rw [retired_me, Ctx.retire_rd f (hp r hr), regs r hr]
  · rw [← csrs n]
    unfold myCsr Ctx.csrGet
    rw [retired_me, kcsr]
    rfl
  · rw [retired_me, ksup, sup]
  · rw [retired_myCore, Core.retire_csr]
    cases f.trc <;> simp [trc]
  · rw [retired_myCore, Core.retire_csr, if_neg fun e => hn e.1, coreCsrs n hn]
  · rw [retired_myCore, kv, kt, kwin, ktask, units]
  · rw [retired_myCore, kvq]
    exact vq
  · rw [retired_myCore, kcq, klocks, kdeque, kl1, kstash, queues]
  · rw [retired_me, krecvq, kslot, msgs]
  · rw [retired_ctx_ne t f (cur ▸ hk), ctxs k hk]
  · rw [retired_core_ne t f (cur ▸ hc), cores c hc]

theorem framed_refl (s : State) (rd : XReg) : s.framed s rd false :=
  ⟨rfl, fun _ _ => rfl, fun _ => rfl, rfl, by simp, fun _ _ => rfl, rfl, .inl rfl, rfl, rfl, fun _ _ => rfl, fun _ _ => rfl, rfl, rfl⟩

@[simp] theorem withMe_me (s : State) (f : Ctx → Ctx) : (s.withMe f).me = f s.me := SMap.get_set_self ..
@[simp] theorem withMyCore_myCore (s : State) (f : Core → Core) : (s.withMyCore f).myCore = f s.myCore := SMap.get_set_self ..

/-- A change of the executing context that keeps every register but rd. -/
theorem framed_withMe {s t : State} {rd : XReg} {f : Ctx → Ctx} (h : s.framed t rd false) (regs : ∀ r, r ≠ rd → (f t.me).rd r = t.me.rd r)
    (hk : (f t.me).kept = t.me.kept) : s.framed (t.withMe f) rd false := by
  obtain ⟨cur, hregs, csrs, sup, trc, coreCsrs, units, vq, queues, msgs, ctxs, cores, blocks, rest⟩ := h
  simp only [Ctx.kept, Prod.mk.injEq] at hk
  obtain ⟨ksup, kcsr, krecvq, kslot⟩ := hk
  refine ⟨cur, fun r hr => ?_, fun n => ?_, ?_, trc, coreCsrs, units, vq, queues, ?_, fun k hk => ?_, cores, blocks, rest⟩
  · rw [withMe_me, regs r hr, hregs r hr]
  · rw [← csrs n]
    unfold myCsr Ctx.csrGet
    rw [withMe_me, kcsr]
    rfl
  · rw [withMe_me, ksup, sup]
  · rw [withMe_me, krecvq, kslot, msgs]
  · exact (ctx_setCtx_ne _ _ (cur ▸ hk)).trans (ctxs k hk)

/-- Queued `vmvxs` to rd learn that it is written (R287). -/
theorem framed_overtake {s : State} {rd : XReg} (h : s.me.busy rd = true) (d : Dest) :
    s.framed (s.withMyCore (Core.overtake s.dev.cur rd d)) rd false := by
  have e := withMyCore_myCore s (Core.overtake s.dev.cur rd d)
  refine ⟨rfl, fun _ _ => rfl, fun _ => rfl, rfl, ?_, fun n _ => ?_, ?_, .inr ⟨h, d, ?_⟩, ?_, rfl, fun _ _ => rfl, fun c hc => ?_, rfl, rfl⟩
  · rw [e]
    simp [Core.csrGet, Core.overtake]
  · rw [e]
    rfl
  · rw [e]
    rfl
  · rw [e]
  · rw [e]
    rfl
  · exact core_setCore_ne _ _ hc

theorem framed_wrote (s : State) (rd : XReg) (v : Word) : s.framed (s.wrote rd v) rd false := by
  unfold wrote
  split
  · next hb => exact framed_withMe (framed_overtake hb _) (fun r hr => Ctx.rd_wr_ne _ _ hr) (Ctx.wr_kept ..)
  · exact framed_withMe (framed_refl ..) (fun r hr => Ctx.rd_wr_ne _ _ hr) (Ctx.wr_kept ..)

@[simp] theorem wrote_pend (s : State) (rd : XReg) (v : Word) : (s.wrote rd v).me.pend = s.me.pend := by
  unfold wrote
  split
  · rw [withMe_me]
    exact Ctx.wr_pend ..
  · rw [withMe_me, Ctx.wr_pend]

theorem framed_loaded (s : State) (rd : XReg) (va v : Word) : s.framed (s.loaded rd va v) rd false := by
  unfold loaded
  split
  · dsimp only
    have h : s.framed (if s.me.busy rd then s.withMyCore (Core.overtake s.dev.cur rd .loading) else s) rd false := by
      split
      · next hb => exact framed_overtake hb _
      · exact framed_refl ..
    split
    · exact h
    · exact framed_withMe h (fun _ _ => rfl) rfl
  · exact framed_wrote ..

/-- A load makes at most rd wait for a value. -/
theorem loaded_notPending {s : State} (h : s.me.pend = []) (rd : XReg) (va v : Word) {r : XReg} (hr : r ≠ rd) :
    (s.loaded rd va v).me.notPending r := by
  suffices hp : ∀ p ∈ (s.loaded rd va v).me.pend, p.rd = rd from fun p hm e => hr (e ▸ hp p hm)
  unfold loaded
  split
  · have hu : (if s.me.busy rd then s.withMyCore (Core.overtake s.dev.cur rd .loading) else s).me.pend = [] := by
      split <;> exact h
    dsimp only
    split
    · simp [hu]
    · simp [hu]
  · simp [h]

@[simp] theorem retired_mem (s : State) (f : Fin) : (s.retired f).mem = s.mem := rfl
@[simp] theorem retired_pois (s : State) (f : Fin) : (s.retired f).pois = s.pois := rfl
@[simp] theorem wrote_mem (s : State) (rd : XReg) (v : Word) : (s.wrote rd v).mem = s.mem := by unfold wrote; split <;> rfl
@[simp] theorem wrote_pois (s : State) (rd : XReg) (v : Word) : (s.wrote rd v).pois = s.pois := by unfold wrote; split <;> rfl

@[simp] theorem loaded_mem (s : State) (rd : XReg) (va v : Word) : (s.loaded rd va v).mem = s.mem := by
  unfold loaded
  dsimp only
  split
  · split <;> split <;> rfl
  · exact wrote_mem ..

@[simp] theorem loaded_pois (s : State) (rd : XReg) (va v : Word) : (s.loaded rd va v).pois = s.pois := by
  unfold loaded
  dsimp only
  split
  · split <;> split <;> rfl
  · exact wrote_pois ..

end State

/-! ### What scalar instructions and local accesses do, as far as their frames need it -/

section
variable (rd rs1 : XReg) (o : S2) (s : State)

theorem run_opRK (f : Word → Word → Word) (h1 : s.readable rs1) (h2 : s.s2Readable o) :
    instr (opRK f rd rs1 o) s = .next (s.wrote rd (f (s.x rs1) (s.s2 o))).retired := by
  simp only [run_instr, opRK, bind_apply, pure_apply, run_rx _ _ h1, run_s2Val _ _ h2, run_wx, run_retireM, run_done]

theorem run_opR (f : Word → Word) (h1 : s.readable rs1) : instr (opR f rd rs1) s = .next (s.wrote rd (f (s.x rs1))).retired := by
  simp only [run_instr, opR, bind_apply, pure_apply, run_rx _ _ h1, run_wx, run_retireM, run_done]

theorem run_branch (f : Word → Word → Bool) (annul : Bool) (off : BitVec 9) (h1 : s.readable rs1) (h2 : s.s2Readable o) :
    instr (branch f annul rs1 o off) s =
      .next (s.retired { target := if f (s.x rs1) (s.s2 o) then some (target s.me.pc off) else none, annul := annul }) := by
  simp only [run_instr, branch, bind_apply, pure_apply, run_rx _ _ h1, run_s2Val _ _ h2, run_me, run_retireM, run_done]

theorem exec_jal (imm : BitVec 20) :
    exec (.jal rd imm) s = .next ((s.wrote rd (s.me.pc + 12)).retired { target := some (target s.me.pc imm) }) := by
  show execJal rd imm s = _
  simp only [execJal, run_instr, bind_apply, pure_apply, run_me, run_wx, run_retireM, run_done]

theorem exec_jalr (imm : BitVec 12) (h1 : s.readable rs1) : exec (.jalr rd rs1 imm) s =
    .next ((s.wrote rd (s.me.pc + 12)).retired { target := some ((s.x rs1 + immS imm) &&& ~~~3) }) := by
  show execJalr rd rs1 imm s = _
  simp only [execJalr, run_instr, bind_apply, pure_apply, run_rx _ _ h1, run_me, run_wx, run_retireM, run_done]

end

/-! ### Local loads and stores (R216, R217) -/

theorem addrM_eq (base : Word) (off : BitVec 8) (n : Nat) : addrM base off n = eaOf base off n := by
  unfold addrM eaOf
  rw [BitVec.ofInt_mul, BitVec.ofInt_natCast]
  rfl

/-- What a window serves is no global address (R73). -/
theorem not_inGlobal_of_window {s : State} {id va n : Nat} {use : Use} {x : Tgt} (h : s.window id use va n = .ok (some x)) :
    inGlobal va = false := by
  refine decide_eq_false fun hv => ?_
  unfold State.window at h
  rw [if_pos (Nat.div_eq_of_lt hv)] at h
  cases h

/-- An access to byte o of the local memory of core c. -/
structure Acc.local (a : Acc) (c o : Nat) : Prop where
  tgt : a.tgt = .lm c o
  leaf : a.leaf = 0
  ver : a.ver = false
  window : inGlobal a.va.toNat = false

section
variable (s0 s : State) (b : By) {a : Acc} {c o : Nat} (n nu : Nat)

theorem run_aligned {va : Word} (h : va.toNat % n = 0) (k : Unit → P) : P.run s0 (aligned va n k) s = P.run s0 (k ()) s := by
  simp [aligned, h]

variable (h : a.local c o)
include h

theorem run_codeFail_local (k : Unit → P) : P.run s0 (codeFail b failMe a nu k) s = P.run s0 (k ()) s := by
  have e : s.codeBad (coreOf b.id) a nu = false := by
    unfold State.codeBad
    rw [h.tgt]
  simp [codeFail, e]

theorem away_local (core : Nat) : s.away core a = false := by
  unfold State.away
  rw [h.tgt]

/-- Outside the global window no stash frame turns an access away (R398). -/
theorem unstashable_local (core : Nat) : s.unstashable core a = false := by
  simp [State.unstashable, h.window]

theorem run_stashFail_local (k : Unit → P) : P.run s0 (stashFail b failMe a k) s = P.run s0 (k ()) s := by
  simp [stashFail, unstashable_local s h]

theorem run_farFirst_local (rs : List ROp) (k : Unit → P) : P.run s0 (farFirst b failMe a rs k) s = P.run s0 (k ()) s := by
  simp [farFirst, unstashable_local s h]

/-- A local access makes no RaceStep (R91, R121). -/
theorem run_raceOf_local (store : Bool) (k : Option Shadow × M Unit → P) :
    P.run s0 (raceOf b a n store k) s = P.run s0 (k (none, pure ())) s := by
  refine run_raceOf s0 s ?_ n store k
  unfold State.raceLoc
  rw [h.tgt]
  split <;> rfl

theorem run_loadPlain_local (hp : s.poisoned ((Space.lm c).loc o) n = false) (k : Nat → P) :
    P.run s0 (loadPlain b failMe a n nu (pure ()) k) s = P.run s0 (k (s.peek ((Space.lm c).loc o) n)) s := by
  simp [loadPlain, h.tgt, h.ver, hp, -bind_pure_comp]

theorem run_loadAt_local (hp : s.poisoned ((Space.lm c).loc o) n = false) (k : Word → P) :
    P.run s0 (loadAt b failMe a n nu k) s = P.run s0 (k (BitVec.ofNat 64 (s.peek ((Space.lm c).loc o) n))) s := by
  simp only [loadAt, loadNat, loadChecks, bind_apply, pure_apply, run_codeFail_local s0 s b nu h, get_apply, run_getP, ite_apply,
    away_local s h, Bool.false_eq_true, if_false, run_loadPlain_local s0 s b n nu h hp, run_stashFail_local s0 s b h,
    run_raceOf_local s0 s b n h]

theorem run_storeAt_local (v : Word) (k : Unit → P) :
    P.run s0 (storeAt b failMe a n nu v k) s = P.run s0 (k ()) (s.stored ((Space.lm c).loc o) n v.toNat) := by
  simp only [storeAt, storePlain, h.ver, h.tgt, bind_apply, pure_apply, run_codeFail_local s0 s b nu h, get_apply, run_getP, ite_apply,
    away_local s h, Bool.false_and, Bool.false_eq_true, if_false, run_farFirst_local s0 s b h, run_stashFail_local s0 s b h,
    run_raceOf_local s0 s b n h, upd_apply, run_updP]
  rfl

end

section
variable (s : State) (rd rs1 : XReg) (off : BitVec 8) (nu : BitVec 4) (n : Nat) {c o : Nat}

theorem run_loadInto (s0 : State) (va v : Word) (k : Unit → P) : P.run s0 (loadInto rd va v k) s = P.run s0 (k ()) (s.loaded rd va v) := by
  by_cases he : exposed va
  · simp only [loadInto, State.loaded, bind_apply, run_me, ite_apply, he, if_true, pure_apply]
    split <;> split <;> rfl
  · simp [loadInto, State.loaded, run_me, he, run_wx]

/-- A load from local memory. -/
theorem run_loadOp_local (ext : Word → Word) (h1 : s.readable rs1) (hl : s.localAt .load (eaOf (s.x rs1) off n) n c o)
    (hp : s.poisoned ((Space.lm c).loc o) n = false) : instr (loadOp n ext rd rs1 off nu) s =
      .next ((s.loaded rd (eaOf (s.x rs1) off n) (ext (BitVec.ofNat 64 (s.peek ((Space.lm c).loc o) n)))).retired { trc := true }) := by
  obtain ⟨ha, hw, hb, hf, hk⟩ := hl
  have ho : Acc.local ⟨eaOf (s.x rs1) off n, .lm c o, 0, false⟩ c o := ⟨rfl, rfl, rfl, not_inGlobal_of_window hw⟩
  simp only [run_instr, loadOp, byMe, bind_apply, pure_apply, get_apply, run_getP, addrM_eq, run_rx _ _ h1, run_aligned s s n ha, run_locate s s hf hb hw hk,
    run_loadAt_local s s _ n _ ho hp, run_loadInto, run_retireM, run_done]

/-- A store to local memory. -/
theorem run_storeOp_local (h1 : s.readable rs1) (h2 : s.readable rd) (hl : s.localAt .store (eaOf (s.x rs1) off n) n c o) :
    instr (storeOp n rd rs1 off nu) s = .next ((s.stored ((Space.lm c).loc o) n (s.x rd).toNat).retired { trc := true }) := by
  obtain ⟨ha, hw, hb, hf, hk⟩ := hl
  have ho : Acc.local ⟨eaOf (s.x rs1) off n, .lm c o, 0, false⟩ c o := ⟨rfl, rfl, rfl, not_inGlobal_of_window hw⟩
  simp only [run_instr, storeOp, byMe, bind_apply, pure_apply, get_apply, run_getP, addrM_eq, run_rx _ _ h1, run_rx _ _ h2, run_aligned s s n ha,
    run_locate s s hf hb hw hk, run_storeAt_local s s _ n _ ho, run_retireM, run_done]

end

/-! ### The frames -/

section
variable (rd rs1 : XReg) (o : S2) (s : State)

/-- An instruction of three operands writes some value to rd and ends. -/
theorem exec_operation (h1 : s.readable rs1) (h2 : s.s2Readable o) :
    (∀ e ∈ opTable ++ divTable, ∃ v, exec (e.1 rd rs1 o) s = .next (s.wrote rd v).retired) ∧
    (∀ e ∈ wordTable, ∃ v, exec (e.1 rd rs1 o) s = .next (s.wrote rd v).retired) := by
  have h : ∀ f, ∃ v, instr (opRK f rd rs1 o) s = .next (s.wrote rd v).retired := fun f => ⟨_, run_opRK rd rs1 o s f h1 h2⟩
  simp only [opTable, divTable, wordTable, List.cons_append, List.nil_append, List.forall_mem_cons]
  exact ⟨⟨h _, h _, h _, h _, h _, h _, h _, h _, h _, h _, h _, h _, h _, h _, h _, h _, h _, h _, h _, h _, h _, h _, List.forall_mem_nil _⟩,
    h _, h _, h _, h _, h _, h _, List.forall_mem_nil _⟩

/-- So does one of two operands, or with an immediate. -/
theorem exec_operation1 (h1 : s.readable rs1) :
    (∀ e ∈ bitTable, ∃ v, exec (e.1 rd rs1) s = .next (s.wrote rd v).retired) ∧
    (∀ e ∈ immTable, ∀ imm, ∃ v, exec (e.1 rd rs1 imm) s = .next (s.wrote rd v).retired) ∧
    (∀ e ∈ shiftTable, ∀ sh, ∃ v, exec (e.1 rd rs1 sh) s = .next (s.wrote rd v).retired) := by
  have h : ∀ f, ∃ v, instr (opR f rd rs1) s = .next (s.wrote rd v).retired := fun f => ⟨_, run_opR rd rs1 s f h1⟩
  simp only [bitTable, immTable, shiftTable, List.forall_mem_cons]
  exact ⟨⟨h _, h _, h _, h _, List.forall_mem_nil _⟩,
    ⟨fun _ => h _, fun _ => h _, fun _ => h _, fun _ => h _, fun _ => h _, fun _ => h _, List.forall_mem_nil _⟩,
    fun _ => h _, fun _ => h _, fun _ => h _, List.forall_mem_nil _⟩

/-- A branch only ends. -/
theorem exec_branch (h1 : s.readable rs1) (h2 : s.s2Readable o) (annul : Bool) (off : BitVec 9) :
    ∀ e ∈ branchTable, ∃ f : Fin, f.trc = false ∧ exec (e.1 annul rs1 o off) s = .next (s.retired f) := by
  have h : ∀ g, ∃ f : Fin, f.trc = false ∧ instr (branch g annul rs1 o off) s = .next (s.retired f) :=
    fun g => ⟨_, rfl, run_branch rs1 o s g annul off h1 h2⟩
  simp only [branchTable, List.forall_mem_cons]
  exact ⟨h _, h _, h _, h _, h _, h _, List.forall_mem_nil _⟩

theorem exec_load_local (off : BitVec 8) (nu : BitVec 4) (c a : Nat) (h1 : s.readable rs1) : ∀ e ∈ loadTable,
    s.localAt .load (eaOf (s.x rs1) off e.2.1) e.2.1 c a → s.poisoned ((Space.lm c).loc a) e.2.1 = false →
    ∃ va v, exec (e.1 rd rs1 off nu) s = .next ((s.loaded rd va v).retired { trc := true }) := by
  have h : ∀ n ext, s.localAt .load (eaOf (s.x rs1) off n) n c a → s.poisoned ((Space.lm c).loc a) n = false →
    ∃ va v, instr (loadOp n ext rd rs1 off nu) s = .next ((s.loaded rd va v).retired { trc := true }) :=
    fun n ext hl hp => ⟨_, _, run_loadOp_local s rd rs1 off nu n ext h1 hl hp⟩
  simp only [loadTable, List.forall_mem_cons]
  exact ⟨h _ _, h _ _, h _ _, h _ _, h _ _, h _ _, h _ _, List.forall_mem_nil _⟩

theorem exec_store_local (off : BitVec 8) (nu : BitVec 4) (c a : Nat) (h1 : s.readable rs1) (h2 : s.readable rd) : ∀ e ∈ storeTable,
    s.localAt .store (eaOf (s.x rs1) off e.2) e.2 c a →
    exec (e.1 rd rs1 off nu) s = .next ((s.stored ((Space.lm c).loc a) e.2 (s.x rd).toNat).retired { trc := true }) := by
  have h := fun n => run_storeOp_local s rd rs1 off nu n h1 h2 (c := c) (o := a)
  simp only [storeTable, List.forall_mem_cons]
  exact ⟨h _, h _, h _, h _, List.forall_mem_nil _⟩

end

section
variable {s : State} {rd : XReg} (hp : s.me.pend = []) (f : Fin)
include hp

theorem State.framed_wrote_retired (v : Word) : s.framed ((s.wrote rd v).retired f) rd f.trc ∧
    (∀ a, ((s.wrote rd v).retired f).byte a = s.byte a) ∧ ((s.wrote rd v).retired f).pois = s.pois := by
  refine ⟨framed_retired f (framed_wrote s rd v) fun r _ => ?_, fun a => ?_, ?_⟩
  · simp [Ctx.notPending, hp]
  · simp [State.byte]
  · simp

theorem State.framed_loaded_retired (va v : Word) : s.framed ((s.loaded rd va v).retired f) rd f.trc ∧
    (∀ a, ((s.loaded rd va v).retired f).byte a = s.byte a) ∧ ((s.loaded rd va v).retired f).pois = s.pois := by
  refine ⟨framed_retired f (framed_loaded s rd va v) fun r hr => loaded_notPending hp rd va v hr, fun a => ?_, ?_⟩
  · simp [State.byte]
  · simp

theorem State.framed_stored_retired (loc n v : Nat) : s.framed ((s.stored loc n v).retired f) 0 f.trc :=
  framed_retired f (framed_refl s 0 : s.framed (s.stored loc n v) 0 false) fun r _ => by
    show s.me.notPending r
    simp [Ctx.notPending, hp]

theorem State.framed_branch : s.framed (s.retired f) 0 f.trc ∧ (∀ a, (s.retired f).byte a = s.byte a) ∧ (s.retired f).pois = s.pois :=
  ⟨framed_retired f (framed_refl s 0) fun r _ => by simp [Ctx.notPending, hp], fun _ => rfl, rfl⟩

end

/-- Settles O58: each instruction is a change of rd, a store or nothing, followed by a retirement, and a retirement keeps the frame. -/
theorem frames : Obligations.Frames := by
  intro rd rs1 o s hp h1
  obtain ⟨bits, imms, shifts⟩ := exec_operation1 rd rs1 s h1
  refine ⟨fun h2 => ?_, fun e he => ?_, fun e he imm => ?_, fun e he sh => ?_, fun imm => ?_, fun imm => ?_, fun off nu core a => ⟨?_, ?_⟩⟩
  · obtain ⟨ops, words⟩ := exec_operation rd rs1 o s h1 h2
    refine ⟨fun e he => ?_, fun e he => ?_, fun e he annul off => ?_⟩
    · obtain ⟨v, hv⟩ := ops e he
      exact ⟨_, hv, State.framed_wrote_retired hp {} v⟩
    · obtain ⟨v, hv⟩ := words e he
      exact ⟨_, hv, State.framed_wrote_retired hp {} v⟩
    · obtain ⟨f, ht, hf⟩ := exec_branch rs1 o s h1 h2 annul off e he
      exact ⟨_, hf, ht ▸ State.framed_branch hp f⟩
  · obtain ⟨v, hv⟩ := bits e he
    exact ⟨_, hv, State.framed_wrote_retired hp {} v⟩
  · obtain ⟨v, hv⟩ := imms e he imm
    exact ⟨_, hv, State.framed_wrote_retired hp {} v⟩
  · obtain ⟨v, hv⟩ := shifts e he sh
    exact ⟨_, hv, State.framed_wrote_retired hp {} v⟩
  · exact ⟨_, exec_jal rd s imm, State.framed_wrote_retired hp _ _⟩
  · exact ⟨_, exec_jalr rd rs1 s imm h1, State.framed_wrote_retired hp _ _⟩
  · intro e he hl hq
    obtain ⟨va, v, hv⟩ := exec_load_local rd rs1 s off nu core a h1 e he hl hq
    exact ⟨_, hv, State.framed_loaded_retired hp { trc := true } va v⟩
  · intro e he h2 hl
    refine ⟨_, exec_store_local rd rs1 s off nu core a h1 h2 e he hl, State.framed_stored_retired hp { trc := true } _ _ _, fun b hb => ?_, ?_⟩
    · exact Memory.read_writes_ne _ _ _ (by rwa [leBytes_length])
    · have h := Memory.reads_writes s.mem ((Space.lm core).loc a) (leBytes e.2 (s.x rd).toNat)
      rw [leBytes_length] at h
      refine (congrArg leNat h).trans ?_
      rw [leNat_leBytes, show 256 = 2 ^ 8 from rfl, ← Nat.pow_mul]

end Sys2Proof.Machine
end

section
/-!
SUPPORT. The host's commands on a partition (R24, R47, R119, R155, R345, R367, R395). A command ends with the result of its body, and the body
is run part by part: either update by update, or by a relation of before and after that every part keeps.
-/

namespace Sys2Proof.Machine

open M

/-! ### Partitions by number -/

namespace SMap

variable {α : Type}

theorem get_eq_find (d : Nat → α) (m : SMap α) (k : Nat) : get d m k = (find m k).getD (d k) := by
  induction m with
  | nil => rfl
  | cons e m ih =>
    obtain ⟨j, v⟩ := e
    simp only [get, find]
    split
    · rfl
    · exact ih

/-- The entry of one key changed in place. -/
theorem find_map (f : α → α) (p k : Nat) (m : SMap α) :
    find (m.map fun e => if e.1 = p then (p, f e.2) else e) k = if k = p then (find m p).map f else find m k := by
  induction m with
  | nil => simp [find]
  | cons e m ih =>
    obtain ⟨j, v⟩ := e
    by_cases hj : j = p <;> by_cases hk : k = p <;> by_cases hjk : j = k <;> simp_all [find]

end SMap

namespace State

variable {s : State} {p : Nat}

theorem part_eq (s : State) (p : Nat) : s.part p = (s.part? p).getD Part.reset := SMap.get_eq_find ..

theorem part_of_some {q : Part} (h : s.part? p = some q) : s.part p = q := by rw [part_eq, h, Option.getD_some]

theorem partOpt_setPart (s : State) (p k : Nat) (f : Part → Part) :
    (s.setPart p f).part? k = if k = p then (s.part? p).map f else s.part? k := SMap.find_map f p k s.parts

@[simp] theorem partOpt_setPart_isSome (k : Nat) (f : Part → Part) : ((s.setPart p f).part? k).isSome = (s.part? k).isSome := by
  rw [partOpt_setPart]
  split
  · next h => rw [Option.isSome_map, h]
  · rfl

theorem part_setPart_self (h : (s.part? p).isSome = true) (f : Part → Part) : (s.setPart p f).part p = f (s.part p) := by
  obtain ⟨q, hq⟩ := Option.isSome_iff_exists.1 h
  simp [part_eq, partOpt_setPart, hq]

theorem part_setPart_ne {k : Nat} (h : k ≠ p) (f : Part → Part) : (s.setPart p f).part k = s.part k := by
  rw [part_eq, part_eq, partOpt_setPart, if_neg h]

theorem owns_isSome {fn : Nat} (h : s.owns fn p = true) : (s.part? p).isSome = true := by
  unfold owns at h
  split at h
  · next q hq => rw [hq]; rfl
  · cases h

end State

/-! ### Parts of a meaning that run through -/

theorem M.leads_upd_bind {α : Type} {u : Upd} {f : Unit → M α} {s t : State} {a : α} (h : (f ()).leads (u.apply s) t a) :
    (upd u >>= f).leads s t a := M.leads_bind (M.leads_upd u s) h

theorem M.leads_get_bind {α : Type} {f : State → M α} {s t : State} {a : α} (h : (f s).leads s t a) : (get >>= f).leads s t a :=
  M.leads_bind (M.leads_get s) h

/-- What a part of a meaning leaves is what it leads to. -/
theorem M.leads.ran_eq {m : M Unit} {s t : State} (h : m.leads s t ()) : s.ran m = t := h s fun _ => .done

theorem M.leads.event_eq {m : M Unit} {s t : State} (h : m.leads s t ()) : event m s = .next t := congrArg _ h.ran_eq

/-- The updates of a list, in order. -/
theorem M.leads_each_upd {α : Type} (g : α → Upd) (l : List α) (s : State) :
    (each (fun a => upd (g a)) l).leads s (l.foldl (fun t a => (g a).apply t) s) () := by
  induction l generalizing s with
  | nil => exact M.leads_pure () s
  | cons a l ih => exact M.leads_upd_bind (ih _)

section
variable {α : Type} (g : α → Upd)

/-- A part of the state that no update of a list touches. -/
theorem foldl_keeps {β : Type} (π : State → β) (h : ∀ a t, π ((g a).apply t) = π t) (l : List α) (s : State) :
    π (l.foldl (fun t a => (g a).apply t) s) = π s := by
  induction l generalizing s with
  | nil => rfl
  | cons a l ih => exact (ih _).trans (h a s)

/-- A part of the state that each update for its number changes in one way, and no other. -/
theorem foldl_iterate {β : Type} (π : State → β) (f : β → β) (k : Nat) (n : α → Nat)
    (h : ∀ a t, π ((g a).apply t) = if n a = k then f (π t) else π t) (l : List α) (s : State) :
    π (l.foldl (fun t a => (g a).apply t) s) = f^[(l.map n).count k] (π s) := by
  induction l generalizing s with
  | nil => rfl
  | cons a l ih =>
    rw [List.foldl_cons, ih, h, List.map_cons, List.count_cons]
    by_cases e : n a = k
    · simp [e]
    · simp [e]

end

/-- A change made several times is made once when the second time changes nothing. -/
theorem iterate_idem {β : Type} {f : β → β} (h : ∀ b, f (f b) = f b) (b : β) (n : Nat) : f^[n] b = if n = 0 then b else f b := by
  induction n generalizing b with
  | zero => rfl
  | succ n ih =>
    rw [Function.iterate_succ_apply, ih]
    split
    · rfl
    · exact h b

/-- What an update of one core does to each. -/
theorem State.core_upd_core (c : Nat) (f : Core → Core) (s : State) (k : Nat) :
    ((Upd.core c f).apply s).core k = if k = c then f (s.core k) else s.core k := by
  split
  · next e =>
    subst e
    exact State.core_setCore_self ..
  · next e => exact State.core_setCore_ne _ _ e

/-- What an update of one context does to each. -/
theorem State.ctx_upd_ctx (c : Nat) (f : Ctx → Ctx) (s : State) (k : Nat) :
    ((Upd.ctx c f).apply s).ctx k = if k = c then f (s.ctx k) else s.ctx k := by
  split
  · next e =>
    subst e
    exact State.ctx_setCtx_self ..
  · next e => exact State.ctx_setCtx_ne _ _ e

theorem foldl_core (f : Core → Core) (l : List Nat) (s : State) (k : Nat) :
    (l.foldl (fun t c => (Upd.core c f).apply t) s).core k = f^[l.count k] (s.core k) := by
  refine (foldl_iterate (fun c => Upd.core c f) (·.core k) f k (·) (fun a t => ?_) l s).trans (by rw [List.map_id'])
  rw [State.core_upd_core]
  exact if_congr eq_comm rfl rfl

theorem foldl_ctx (f : Ctx → Ctx) (n : Nat → Nat) (l : List Nat) (s : State) (k : Nat) :
    (l.foldl (fun t c => (Upd.ctx (n c) f).apply t) s).ctx k = f^[(l.map n).count k] (s.ctx k) := by
  refine foldl_iterate (fun c => Upd.ctx (n c) f) (·.ctx k) f k n (fun a t => ?_) l s
  rw [State.ctx_upd_ctx]
  exact if_congr eq_comm rfl rfl

/-! ### Commands (R344, R345) -/

section
variable {fn op p : Nat} {s t : State} {r : BitVec 8}

/-- A command in progress runs its body, and ends with the result of it. -/
theorem run_command {body : Nat → M (BitVec 8)} (h : s.commanded fn op p) (hb : (body p).leads s t r) :
    event (command fn op body) s = .next (t.cmdDone fn r) := by
  obtain ⟨hp, c, hc, rfl, rfl⟩ := h
  have hb' := hb s fun r => .upd (.vf fn fun v => { v with cmd := none, result := r }) (forget (fnWho fn) fun _ => .done)
  simp only [command, run_event, bind_apply, get_apply, run_getP, hc, ite_apply, hp, ne_eq, not_true, decide_false, Bool.or_self,
    Bool.false_eq_true, if_false, upd_apply]
  exact congrArg _ hb'

theorem leads_onPart {ok : PState → Bool} {body : M (BitVec 8)} (ho : s.owns fn p = true) (hs : ok (s.part p).st = true)
    (hb : body.leads s t r) : (onPart fn p ok body).leads s t r := by
  refine M.leads_get_bind ?_
  rwa [ho, hs, Bool.and_self, if_pos rfl]

/-- What the host sees when a command ends that has changed no function's registers. -/
theorem State.ended_cmdDone (h : t.vfs = s.vfs) (fn : Nat) (r : BitVec 8) : s.ended (t.cmdDone fn r) fn r := by
  have e : (t.cmdDone fn r).vf fn = { t.vf fn with cmd := none, result := r } := SMap.get_set_self ..
  refine ⟨by rw [e], by rw [e], fun g hg => ?_⟩
  refine (SMap.get_set_ne _ _ _ hg).trans ?_
  rw [h]
  rfl

end

namespace State

section
variable (s : State) (fn : Nat) (r : BitVec 8)

@[simp] theorem cmdDone_get_partOpt (k : Nat) : (s.cmdDone fn r).part? k = s.part? k := rfl
@[simp] theorem cmdDone_result : ((s.cmdDone fn r).vf fn).result = r := congrArg Vf.result (SMap.get_set_self ..)

end

end State

/-! ### The commands on a partition that is owned (R24, R47, R119, R155) -/

section
variable {fn p : Nat} {s : State} (ho : s.owns fn p = true)
include ho

theorem exec_drain (hc : s.commanded fn 0x02 p) (hs : (s.part p).st = .running) :
    exec (.drain fn) s = .next ((s.setPart p fun q => { q with st := .draining, wd := 0 }).cmdDone fn 0) :=
  run_command hc (leads_onPart ho (by rw [hs]; rfl) (M.leads_upd_bind (M.leads_pure _ _)))

theorem exec_resume {w u : State} (hc : s.commanded fn 0x03 p) (hs : (s.part p).st = .saved)
    (hr : (each resumeCore (s.nodeCores p)).leads s w ())
    (hu : (each (placeHeld (s.tabOf (fnWho fn) p)) (s.part p).held).leads
      (w.setPart p fun q => { q with st := .running, sliceLeft := q.slice, wd := 0, held := [] }) u ()) :
    exec (.resume fn) s = .next (u.cmdDone fn 0) :=
  run_command hc (leads_onPart ho (by rw [hs]; rfl)
    (M.leads_get_bind (M.leads_bind hr (M.leads_upd_bind (M.leads_bind hu (M.leads_pure _ _))))))

theorem exec_setslice (hc : s.commanded fn 0x0A p) (hs : (s.part p).st ≠ .unowned) :
    exec (.setslice fn) s = .next ((s.setPart p fun q =>
      { q with slice := (s.vf fn).arg0.toNat, sliceLeft := if q.st = .running then (s.vf fn).arg0.toNat else q.sliceLeft }).cmdDone fn 0) := by
  refine (run_command hc (leads_onPart ho (by simpa using hs) (M.leads_get_bind ?_))).trans rfl
  simp only [beq_iff_eq]
  exact M.leads_upd_bind (M.leads_pure _ _)

theorem exec_setprio (hc : s.commanded fn 0x0B p) (hs : (s.part p).st ≠ .unowned) :
    exec (.setprio fn) s = .next (((s.nodeCores p).foldl (fun t c =>
      (Upd.core c (·.csrSet cPRIO (BitVec.ofNat 64 ((s.vf fn).arg0.toNat % 4)))).apply t) s).cmdDone fn 0) :=
  run_command hc (leads_onPart ho (by simpa using hs) (M.leads_get_bind (M.leads_bind (M.leads_each_upd _ _ s) (M.leads_pure _ _))))

end

/-! ### Parts of a meaning that run through from every state, under a relation of before and after -/

/-- A relation of states before and after that a part which does nothing has, and that parts in sequence keep. -/
structure Stable (R : State → State → Prop) : Prop where
  refl : ∀ s, R s s
  trans : ∀ {s t u}, R s t → R t u → R s u

/-- A part of a meaning that runs through from every state, whatever comes after it, to one in the relation. -/
def M.Keeps (R : State → State → Prop) (m : M Unit) : Prop := ∀ s, m.leads s (s.ran m) () ∧ R s (s.ran m)

namespace M.Keeps

variable {R : State → State → Prop}

theorem pure (hR : Stable R) : (Pure.pure () : M Unit).Keeps R := fun s => ⟨M.leads_pure () s, hR.refl s⟩

theorem upd {u : Upd} (h : ∀ s, R s (u.apply s)) : (M.upd u).Keeps R := fun s => ⟨M.leads_upd u s, h s⟩

theorem get {f : State → M Unit} (h : ∀ s, (f s).Keeps R) : (M.get >>= f).Keeps R := fun s =>
  ⟨M.leads_get_bind (h s s).1, (h s s).2⟩

theorem seq (hR : Stable R) {m : M Unit} {f : Unit → M Unit} (hm : m.Keeps R) (hf : (f ()).Keeps R) : (m >>= f).Keeps R := by
  intro s
  obtain ⟨lm, rm⟩ := hm s
  obtain ⟨lf, rf⟩ := hf (s.ran m)
  have l := M.leads_bind lm lf
  have e := l.ran_eq
  rw [← e] at l rf
  exact ⟨l, hR.trans rm rf⟩

theorem ite {c : Prop} [Decidable c] {a b : M Unit} (ha : a.Keeps R) (hb : b.Keeps R) : (if c then a else b).Keeps R := by
  split
  · exact ha
  · exact hb

theorem each (hR : Stable R) {α : Type} {f : α → M Unit} (h : ∀ x, (f x).Keeps R) : ∀ l : List α, (M.each f l).Keeps R
  | [] => pure hR
  | x :: l => seq hR (h x) (each hR h l)

/-- A weaker relation. -/
theorem mono {Q : State → State → Prop} {m : M Unit} (h : m.Keeps R) (hQ : ∀ s t, R s t → Q s t) : m.Keeps Q := fun s =>
  ⟨(h s).1, hQ _ _ (h s).2⟩

theorem leads {m : M Unit} (h : m.Keeps R) (s : State) : m.leads s (s.ran m) () := (h s).1

theorem rel {m : M Unit} (h : m.Keeps R) (s : State) : R s (s.ran m) := (h s).2

/-- What each part of a list establishes holds after all of them, when the others keep it. -/
theorem each_establishes (hR : Stable R) {α : Type} {f : α → M Unit} (h : ∀ x, (f x).Keeps R) {Q : α → State → Prop}
    (hk : ∀ x s t, R s t → Q x s → Q x t) : ∀ (l : List α) (s : State), (∀ x ∈ l, ∀ t, R s t → Q x (t.ran (f x))) →
      ∀ x ∈ l, Q x (s.ran (M.each f l))
  | [], _, _ => List.forall_mem_nil _
  | y :: l, s, hq => by
    have hl := each hR h l
    have e : s.ran (M.each f (y :: l)) = (s.ran (f y)).ran (M.each f l) := (M.leads_bind ((h y).leads s) (hl.leads _)).ran_eq
    rw [e]
    refine List.forall_mem_cons.2 ⟨hk y _ _ (hl.rel _) (hq y List.mem_cons_self s (hR.refl s)), ?_⟩
    exact each_establishes hR h hk l _ fun x hx t ht => hq x (List.mem_cons_of_mem _ hx) t (hR.trans ((h y).rel s) ht)

end M.Keeps

theorem State.ran_bind {R Q : State → State → Prop} {m n : M Unit} (hm : m.Keeps R) (hn : n.Keeps Q) (s : State) :
    s.ran (m >>= fun _ => n) = (s.ran m).ran n := (M.leads_bind (hm.leads s) (hn.leads _)).ran_eq

/-! ### Lines that leave a core (R80, R82, R84) -/

/-- Lines have been written back or given up: of the parts named, only the lines of L1s and stashes have become fewer. -/
structure Flushed (s t : State) : Prop where
  ctxs : t.ctxs = s.ctxs
  clusters : t.clusters = s.clusters
  parts : t.parts = s.parts
  vfs : t.vfs = s.vfs
  ports : t.ports = s.ports
  pres : t.pres = s.pres
  cores : ∀ c, ∃ a b, a.Sublist (s.core c).l1 ∧ b.Sublist (s.core c).sect ∧ t.core c = { s.core c with l1 := a, sect := b }

theorem Flushed.same_cores {s t : State} (h : t.ctxs = s.ctxs) (hk : t.clusters = s.clusters) (hp : t.parts = s.parts) (hv : t.vfs = s.vfs)
    (hn : t.ports = s.ports) (hs : t.pres = s.pres) (hc : t.cores = s.cores) : Flushed s t :=
  ⟨h, hk, hp, hv, hn, hs, fun c => ⟨_, _, .refl _, .refl _, by unfold State.core; rw [hc]⟩⟩

theorem stable_flushed : Stable Flushed where
  refl _ := .same_cores rfl rfl rfl rfl rfl rfl rfl
  trans h k := ⟨k.ctxs.trans h.ctxs, k.clusters.trans h.clusters, k.parts.trans h.parts, k.vfs.trans h.vfs, k.ports.trans h.ports,
    k.pres.trans h.pres, fun c => by
      obtain ⟨a, b, ha, hb, e⟩ := h.cores c
      obtain ⟨a', b', ha', hb', e'⟩ := k.cores c
      rw [e] at ha' hb' e'
      exact ⟨a', b', ha'.trans ha, hb'.trans hb, e'⟩⟩

/-- An update of one core that drops lines. -/
theorem flushed_core (c : Nat) (p q : Nat × Line → Bool) (s : State) :
    Flushed s ((Upd.core c fun k => { k with l1 := k.l1.filter p, sect := k.sect.filter q }).apply s) := by
  refine ⟨rfl, rfl, rfl, rfl, rfl, rfl, fun k => ?_⟩
  rw [State.core_upd_core]
  split
  · exact ⟨_, _, List.filter_sublist, List.filter_sublist, rfl⟩
  · exact ⟨_, _, .refl _, .refl _, rfl⟩

theorem keeps_dev (f : Dev → Dev) : (upd (.dev f)).Keeps Flushed := .upd fun _ => .same_cores rfl rfl rfl rfl rfl rfl rfl

theorem keeps_combine1 (loc : Nat) (p : Partial) : (combine1 loc p).Keeps Flushed := by
  refine .get fun s => .seq stable_flushed (.upd fun _ => .same_cores rfl rfl rfl rfl rfl rfl rfl) (.ite ?_ (.pure stable_flushed))
  exact .upd fun _ => .same_cores rfl rfl rfl rfl rfl rfl rfl

theorem keeps_soilHome (line : Nat) : (soilHome line).Keeps Flushed :=
  .get fun _ => .ite (.upd fun _ => .same_cores rfl rfl rfl rfl rfl rfl rfl) (.pure stable_flushed)

theorem keeps_dropCopies (h line : Nat) : (dropCopies h line).Keeps Flushed :=
  .get fun _ => .ite (.pure stable_flushed) (.ite (.upd fun _ => flushed_core ..) (.upd fun _ => .same_cores rfl rfl rfl rfl rfl rfl rfl))

theorem keeps_leaveLine (h line : Nat) : (leaveLine h line).Keeps Flushed := by
  have rest : (dropCopies h line >>= fun _ => setHolder line h none).Keeps Flushed := .seq stable_flushed (keeps_dropCopies h line) (keeps_dev _)
  have soiled := M.Keeps.seq stable_flushed (keeps_soilHome line) (f := fun _ => dropCopies h line >>= fun _ => setHolder line h none) rest
  refine .get fun s => ?_
  dsimp only
  split
  · exact .seq stable_flushed (.each stable_flushed (keeps_combine1 _) _) soiled
  · exact soiled
  · exact rest

theorem keeps_collect (line : Nat) : (collect line).Keeps Flushed := by
  refine .get fun s => ?_
  dsimp only
  refine .seq stable_flushed (.each stable_flushed (fun w => .each stable_flushed (fun e => .each stable_flushed (keeps_combine1 _) _) _) _) ?_
  have gone : ∀ us : List (Nat × List Partial), (each (fun e => do dropCopies e.1 line; setHolder line e.1 none) us).Keeps Flushed :=
    .each stable_flushed fun e => .seq stable_flushed (keeps_dropCopies _ _) (keeps_dev _)
  exact .ite (gone _) (.seq stable_flushed (keeps_soilHome line) (gone _))

theorem keeps_expelLine (h line : Nat) : (expelLine h line).Keeps Flushed := by
  refine .get fun s => ?_
  split
  · exact keeps_collect line
  · exact keeps_leaveLine h line

theorem keeps_flushFrame (core f : Nat) : (flushFrame core f).Keeps Flushed := by
  refine .get fun s => .seq stable_flushed (.each stable_flushed (fun e => .ite (keeps_expelLine _ _) (.pure stable_flushed)) _) (.upd fun t => ?_)
  simpa using flushed_core core (fun _ => true) (fun e => e.1 / 64 != f) t

theorem keeps_flushLines (core : Nat) (p : Line → Bool) (sectors : Bool) : (flushLines core p sectors).Keeps Flushed := by
  have out : ∀ (h : Nat) (l : SMap Line), (each (fun e => if p e.2 then leaveLine h (e.2.loc / 64) else pure ()) l).Keeps Flushed :=
    fun h => .each stable_flushed fun e => .ite (keeps_leaveLine _ _) (.pure stable_flushed)
  refine .get fun s => .seq stable_flushed (out _ _) (.seq stable_flushed (.upd fun t => ?_) (.ite ?_ (.pure stable_flushed)))
  · simpa using flushed_core core (fun e => !p e.2) (fun _ => true) t
  · refine .seq stable_flushed (out _ _) (.upd fun t => ?_)
    simpa using flushed_core core (fun _ => true) (fun e => !p e.2) t

/-! ### Ports that are freed with their component (R123) -/

/-- Only the port table and the records of the device have changed. -/
def Ported (s t : State) : Prop := ∃ p d, t = { s with ports := p, dev := d }

theorem stable_ported : Stable Ported where
  refl s := ⟨s.ports, s.dev, rfl⟩
  trans := by
    rintro s _ _ ⟨p, d, rfl⟩ ⟨q, e, rfl⟩
    exact ⟨q, e, rfl⟩

theorem keeps_forgetPort (p : Nat) : (forgetPort p).Keeps Ported :=
  .seq stable_ported (.upd fun s => ⟨s.ports, _, rfl⟩) (.upd fun s => ⟨s.ports, _, rfl⟩)

theorem keeps_freeIdlePorts : freeIdlePorts.Keeps Ported := by
  refine .get fun s => .each stable_ported (fun e => ?_) _
  split
  · exact .ite (.seq stable_ported (.upd fun s => ⟨_, s.dev, rfl⟩) (keeps_forgetPort _)) (.pure stable_ported)
  · exact .pure stable_ported

/-- A core with the host's interrupt pending (INTERRUPT). -/
def Core.interrupted (x : Core) : Core := { x with hostInt := true }

/-- A context's CSR loaded under its field map (LOADCSR). -/
def Ctx.load (n : Nat) (v : Word) (x : Ctx) : Ctx := x.csrSet false n (csrMerge n (x.csrGet false n) v)

section
variable {fn p : Nat} {s : State} (ho : s.owns fn p = true)
include ho

theorem exec_discard (hc : s.commanded fn 0x04 p) (hs : (s.part p).st = .saved) :
    exec (.discard fn) s = .next (((s.setPart p Part.unbound).ran freeIdlePorts).cmdDone fn 0) :=
  run_command hc (leads_onPart ho (by rw [hs]; rfl) (M.leads_upd_bind (M.leads_bind (keeps_freeIdlePorts.leads _) (M.leads_pure _ _))))

theorem exec_loadcsr {cs : List Nat} {k : Nat} (hc : s.commanded fn 0x09 p) (hs : (s.part p).st = .idle)
    (hp : s.pickCores p (bitsOf (s.vf fn).arg1.toNat 36 12) = some cs) (hk : bitsOf (s.vf fn).arg1.toNat 0 4 = k) (h : k ≤ 10) :
    exec (.loadcsr fn) s = .next ((cs.foldl (fun t c => (Upd.ctx (ctxId c k)
      (Ctx.load (if (s.vf fn).arg1.toNat.testBit 4 then cXSCRATCH else cXTVEC) (s.vf fn).arg0)).apply t) s).cmdDone fn 0) := by
  refine run_command hc (leads_onPart ho (by rw [hs]; rfl) (M.leads_get_bind ?_))
  dsimp only
  rw [hp]
  dsimp only
  rw [hk, if_neg h.not_gt]
  exact M.leads_bind (M.leads_each_upd _ _ s) (M.leads_pure _ _)

/-- A CORE field that names no core, or a context number above 10, is out of range. -/
theorem exec_loadcsr_range {k : Nat} (hc : s.commanded fn 0x09 p) (hs : (s.part p).st = .idle) (hk : bitsOf (s.vf fn).arg1.toNat 0 4 = k)
    (h : s.pickCores p (bitsOf (s.vf fn).arg1.toNat 36 12) = none ∨ 10 < k) :
    exec (.loadcsr fn) s = .next (s.cmdDone fn 6) := by
  subst hk
  refine run_command hc (leads_onPart ho (by rw [hs]; rfl) (M.leads_get_bind ?_))
  dsimp only
  split
  · exact M.leads_pure _ _
  · next cs hp =>
    rw [if_pos (h.resolve_left (by simp [hp]))]
    exact M.leads_pure _ _

theorem exec_interrupt {cs : List Nat} (hc : s.commanded fn 0x0D p) (hs : (s.part p).st = .running ∨ (s.part p).st = .draining)
    (hp : s.pickCores p (bitsOf (s.vf fn).arg1.toNat 36 12) = some cs) :
    exec (.interrupt fn) s = .next ((cs.foldl (fun t c => (Upd.core c Core.interrupted).apply t) s).cmdDone fn 0) := by
  refine run_command hc (leads_onPart ho (by rcases hs with h | h <;> rw [h] <;> rfl) (M.leads_get_bind ?_))
  rw [hp]
  exact M.leads_bind (M.leads_each_upd _ _ s) (M.leads_pure _ _)

theorem exec_interrupt_range (hc : s.commanded fn 0x0D p) (hs : (s.part p).st = .running ∨ (s.part p).st = .draining)
    (hp : s.pickCores p (bitsOf (s.vf fn).arg1.toNat 36 12) = none) : exec (.interrupt fn) s = .next (s.cmdDone fn 6) := by
  refine run_command hc (leads_onPart ho (by rcases hs with h | h <;> rw [h] <;> rfl) (M.leads_get_bind ?_))
  rw [hp]
  exact M.leads_pure _ _

theorem exec_loadlm_range {off len : Nat} (hc : s.commanded fn 0x08 p) (hs : (s.part p).st = .idle)
    (ha : bitsOf (s.vf fn).arg1.toNat 0 18 = off) (hl : bitsOf (s.vf fn).arg1.toNat 18 18 = len)
    (h : s.pickCores p (bitsOf (s.vf fn).arg1.toNat 36 12) = none ∨ len = 0 ∨ 0x2F000 < off + len) :
    exec (.loadlm fn) s = .next (s.cmdDone fn 6) := by
  subst ha hl
  refine run_command hc (leads_onPart ho (by rw [hs]; rfl) (M.leads_get_bind ?_))
  dsimp only
  split
  · exact M.leads_pure _ _
  · next cs hp =>
    rw [if_pos (by simpa using h.resolve_left (by simp [hp]))]
    exact M.leads_pure _ _

end

/-! ### Memory that is cleared, or written in one place and read in another -/

namespace SMap

variable {α : Type}

theorem get_filter (d : Nat → α) (P : Nat → Bool) (m : SMap α) (k : Nat) :
    get d (m.filter fun e => P e.1) k = if P k = true then get d m k else d k := by
  induction m with
  | nil => simp [get]
  | cons e m ih =>
    obtain ⟨j, v⟩ := e
    by_cases hj : P j = true
    · by_cases hk : j = k
      · subst hk
        simp [hj, get]
      · simp [hj, get, hk, ih]
    · rw [List.filter_cons_of_neg (by simpa using hj), ih]
      split
      · next hk =>
        have : j ≠ k := fun e => hj (e ▸ hk)
        simp [get, this]
      · rfl

end SMap

namespace Memory

theorem read_eraseRange (m : List Host.Cell) (lo hi a : Nat) :
    read (SMap.eraseRange m lo hi) a = if a < lo ∨ hi ≤ a then read m a else 0 := by
  refine (SMap.get_filter memDefault (fun a => decide (a < lo) || decide (hi ≤ a)) m a).trans ?_
  simp [read, memDefault]

theorem reads_congr {m m' : List Host.Cell} {n a : Nat} (h : ∀ k, a ≤ k → k < a + n → read m k = read m' k) : reads m a n = reads m' a n := by
  induction n generalizing a with
  | zero => rfl
  | succ n ih => rw [reads, reads, h a (by omega) (by omega), ih fun k h1 h2 => h k (by omega) (by omega)]

theorem reads_writes_ne (m : List Host.Cell) (a : Nat) (bs : List Byte) {b n : Nat} (h : b + n ≤ a ∨ a + bs.length ≤ b) :
    reads (writes m a bs) b n = reads m b n :=
  reads_congr fun k h1 h2 => read_writes_ne m a bs (by omega)

end Memory

/-- Bytes are cleared: those that read zero still do. -/
theorem State.byte_scrub (s : State) (lo hi a : Nat) : ((Upd.scrub lo hi).apply s).byte a = if a < lo ∨ hi ≤ a then s.byte a else 0 :=
  Memory.read_eraseRange ..

/-! ### Cores that a resumed partition gets (R47) -/

/-- Some cores have been made ready for a partition that resumes. -/
structure Rested (s t : State) : Prop where
  parts : t.parts = s.parts
  deque : ∀ c, (t.core c).deque = (s.core c).deque
  empty : ∀ c, (s.core c).v = [] ∧ (s.core c).t = [] → (t.core c).v = [] ∧ (t.core c).t = []
  zero : ∀ a, s.byte a = 0 → t.byte a = 0

theorem stable_rested : Stable Rested where
  refl _ := ⟨rfl, fun _ => rfl, fun _ => id, fun _ => id⟩
  trans h k := ⟨k.parts.trans h.parts, fun c => (k.deque c).trans (h.deque c), fun c => k.empty c ∘ h.empty c, fun a => k.zero a ∘ h.zero a⟩

theorem rested_scrub (lo hi : Nat) (s : State) : Rested s ((Upd.scrub lo hi).apply s) where
  parts := rfl
  deque _ := rfl
  empty _ := id
  zero a h := by rw [State.byte_scrub, h, ite_self]

theorem rested_core (c : Nat) (s : State) :
    Rested s ((Upd.core c fun c => { c with v := [], t := [], vpois := 0, tpois := 0, fresh := 0 }).apply s) where
  parts := rfl
  deque k := by
    rw [State.core_upd_core]
    split <;> rfl
  empty k h := by
    rw [State.core_upd_core]
    split
    · exact ⟨rfl, rfl⟩
    · exact h
  zero _ := id

theorem keeps_resumeCore (c : Nat) : (resumeCore c).Keeps Rested :=
  .seq stable_rested (.upd fun _ => rested_scrub ..) (.upd fun _ => rested_core ..)

/-- What one resumed core holds. -/
def State.restedAt (c : Nat) (s : State) : Prop :=
  ((s.core c).v = [] ∧ (s.core c).t = []) ∧ ∀ a, (Space.bstore c).loc 0 ≤ a → a < (Space.bstore c).loc (2 ^ 21) → s.byte a = 0

theorem restedAt_resumeCore (c : Nat) (s : State) : (s.ran (resumeCore c)).restedAt c := by
  have e : s.ran (resumeCore c) = _ := (M.leads_upd_bind (M.leads_upd _ _)).ran_eq
  rw [e]
  refine ⟨by simp [Upd.apply], fun a h1 h2 => ?_⟩
  refine (State.byte_scrub s _ _ a).trans (if_neg ?_)
  omega

theorem restedAt_resumeCores (l : List Nat) (s : State) : ∀ c ∈ l, (s.ran (each resumeCore l)).restedAt c :=
  M.Keeps.each_establishes stable_rested keeps_resumeCore (Q := State.restedAt)
    (fun c _ _ h hq => ⟨h.empty c hq.1, fun a h1 h2 => h.zero a (hq.2 a h1 h2)⟩) l s fun c _ t _ => restedAt_resumeCore c t

/-! ### Local memories that are loaded (LOADLM) -/

/-- Bytes with their marks stand in every local memory where they have been put at an offset. -/
def Loaded (off : Nat) (bs : List PByte) (s t : State) : Prop :=
  ∀ c, Memory.reads s.mem ((Space.lm c).loc off) bs.length = bs.map (·.1) → Memory.reads t.mem ((Space.lm c).loc off) bs.length = bs.map (·.1)

theorem stable_loaded (off : Nat) (bs : List PByte) : Stable (Loaded off bs) := ⟨fun _ _ => id, fun h k c => k c ∘ h c⟩

theorem keeps_putMarked {off : Nat} {bs : List PByte} (h : off + bs.length ≤ 2 ^ 18) (c : Nat) :
    (putMarked ((Space.lm c).loc off) bs).Keeps (Loaded off bs) := by
  refine .seq (stable_loaded off bs) (.upd fun s d hd => ?_)
    (.each (stable_loaded off bs) (fun e => .ite (.upd fun s d => id) (.pure (stable_loaded off bs))) _)
  by_cases e : d = c
  · subst e
    simpa [Upd.apply] using Memory.reads_writes s.mem ((Space.lm d).loc off) (bs.map (·.1))
  · refine (Memory.reads_writes_ne _ _ _ ?_).trans hd
    simp only [Space.loc, List.length_map]
    omega

/-- Marks of poison change no byte. -/
theorem mem_putMarked (loc : Nat) (bs : List PByte) (s : State) : (s.ran (putMarked loc bs)).mem = Memory.writes s.mem loc (bs.map (·.1)) := by
  have sm : Stable fun s t : State => t.mem = s.mem := ⟨fun _ => rfl, fun h k => k.trans h⟩
  have marks : (each (fun (e : Nat × PByte) => if e.2.2 then upd (.poison (loc + e.1)) else pure ()) ((List.range bs.length).zip bs)).Keeps
      fun s t => t.mem = s.mem := .each sm (fun e => .ite (.upd fun _ => rfl) (.pure sm)) _
  have e : s.ran (putMarked loc bs) = _ := (M.leads_upd_bind (marks.leads _)).ran_eq
  rw [e, marks.rel]
  rfl

theorem loaded_putMarked {off : Nat} {bs : List PByte} (h : off + bs.length ≤ 2 ^ 18) (cs : List Nat) (s : State) :
    ∀ c ∈ cs, Memory.reads (s.ran (each (fun c => putMarked ((Space.lm c).loc off) bs) cs)).mem ((Space.lm c).loc off) bs.length =
      bs.map (·.1) :=
  M.Keeps.each_establishes (stable_loaded off bs) (keeps_putMarked h)
    (Q := fun c s => Memory.reads s.mem ((Space.lm c).loc off) bs.length = bs.map (·.1)) (fun c _ _ ht => ht c) cs s fun c _ t _ => by
      rw [mem_putMarked]
      simpa using Memory.reads_writes t.mem ((Space.lm c).loc off) (bs.map (·.1))

/-! ### Shadow entries of a partition that are cleared (SETRDCTL) -/

/-- The shadow entries whose key none of a list's entries of the partition has. -/
def shadowWithout (p : Nat) (l sh : SMap Shadow) : SMap Shadow := sh.filter fun e => decide (∀ x ∈ l, ¬(x.1 = e.1 ∧ x.2.pnode = p))

theorem mem_shadowWithout {p : Nat} {l sh : SMap Shadow} {e : Nat × Shadow} :
    e ∈ shadowWithout p l sh ↔ e ∈ sh ∧ ¬∃ x ∈ l, x.1 = e.1 ∧ x.2.pnode = p := by
  simp only [shadowWithout, List.mem_filter, decide_eq_true_eq, not_exists, not_and]

theorem shadowWithout_cons_of_eq {p : Nat} {e : Nat × Shadow} (h : e.2.pnode = p) (l sh : SMap Shadow) :
    shadowWithout p (e :: l) sh = shadowWithout p l (sh.erase e.1) := by
  rw [shadowWithout, shadowWithout, SMap.erase, List.filter_filter]
  refine List.filter_congr fun x _ => ?_
  rw [Bool.eq_iff_iff, Bool.and_eq_true, decide_eq_true_eq, decide_eq_true_eq, bne_iff_ne, List.forall_mem_cons, and_comm]
  simp only [h, and_true, ne_eq, eq_comm]

theorem shadowWithout_cons_of_ne {p : Nat} {e : Nat × Shadow} (h : e.2.pnode ≠ p) (l sh : SMap Shadow) :
    shadowWithout p (e :: l) sh = shadowWithout p l sh := by
  refine List.filter_congr fun x _ => ?_
  simp [h]

theorem leads_eraseShadow (p : Nat) : ∀ (l : SMap Shadow) (s : State),
    (each (fun (e : Nat × Shadow) => if e.2.pnode = p then upd (.shadow e.1 none) else pure ()) l).leads s
      { s with shadow := shadowWithout p l s.shadow } ()
  | [], s => by
    have e : shadowWithout p [] s.shadow = s.shadow := List.filter_eq_self.2 (by simp)
    rw [e]
    exact M.leads_pure () s
  | e :: l, s => by
    by_cases h : e.2.pnode = p
    · rw [shadowWithout_cons_of_eq h, each, if_pos h]
      exact M.leads_upd_bind (leads_eraseShadow p l _)
    · rw [shadowWithout_cons_of_ne h, each, if_neg h]
      exact M.leads_bind (M.leads_pure _ s) (leads_eraseShadow p l s)

/-- The detector of a partition set (R119, R395): its log begins anew, and its shadow entries are cleared. -/
def State.raceControl (s : State) (p : Nat) (ctl log : Word) : State :=
  { s.setPart p fun q => { q with rdctl := ctl.setWidth 3, raceLog := log &&& 0xFFFFFFFFFE001, raceSeq := 0 } with
    shadow := shadowWithout p s.shadow s.shadow }

section
variable {fn p : Nat} {s : State} (ho : s.owns fn p = true)
include ho

theorem exec_setrdctl (hc : s.commanded fn 0x0C p) (hs : (s.part p).st ≠ .unowned) :
    exec (.setrdctl fn) s = .next ((s.raceControl p (s.vf fn).arg0 (s.vf fn).arg1).cmdDone fn 0) :=
  run_command hc (leads_onPart ho (by simpa using hs)
    (M.leads_get_bind (M.leads_upd_bind (M.leads_bind (leads_eraseShadow p s.shadow _) (M.leads_pure _ _)))))

theorem exec_loadlm {off len : Nat} {cs : List Nat} {bs : List PByte} {u : State} (hc : s.commanded fn 0x08 p) (hs : (s.part p).st = .idle)
    (ha : bitsOf (s.vf fn).arg1.toNat 0 18 = off) (hl : bitsOf (s.vf fn).arg1.toNat 18 18 = len)
    (hp : s.pickCores p (bitsOf (s.vf fn).arg1.toNat 36 12) = some cs) (h0 : 0 < len) (h1 : off + len ≤ 0x2F000) (hb : bs.length = len)
    (hu : (gpaBytes (fnWho fn) fn (spansOf (s.vf fn).arg0.toNat len)).leads s u (some bs)) :
    exec (.loadlm fn) s = .next ((u.ran (each (fun c => putMarked ((Space.lm c).loc off) bs) cs)).cmdDone fn 0) := by
  refine run_command hc (leads_onPart ho (by rw [hs]; rfl) (M.leads_get_bind ?_))
  dsimp only
  rw [hp]
  dsimp only
  rw [ha, hl, if_neg (by simp only [Bool.or_eq_true, decide_eq_true_eq]; omega)]
  exact M.leads_bind hu (M.leads_bind ((M.Keeps.each (stable_loaded _ bs) (keeps_putMarked (by omega)) cs).leads u) (M.leads_pure _ _))

end

theorem bitsOf_zero (v n : Nat) : bitsOf v 0 n = v % 2 ^ n := by rw [bitsOf, pow_zero, Nat.div_one]

theorem csrMerge_csrMerge (n : Nat) (v w : Word) : csrMerge n (csrMerge n w v) v = csrMerge n w v := by
  ext i hi
  simp only [csrMerge, BitVec.getElem_or, BitVec.getElem_and, BitVec.getElem_not]
  cases (csrMask n)[i] <;> simp

/-- A context CSR loaded once or more often from one value. -/
theorem Ctx.csrGet_load (n : Nat) (v : Word) {k : Nat} (h : k ≠ 0) (x : Ctx) :
    ((Ctx.load n v)^[k] x).csrGet false n = csrMerge n (x.csrGet false n) v := by
  obtain ⟨k, rfl⟩ := Nat.exists_eq_succ_of_ne_zero h
  clear h
  induction k generalizing x with
  | zero => exact Ctx.csrGet_csrSet_self ..
  | succ k ih => rw [Function.iterate_succ_apply, ih, Ctx.load, Ctx.csrGet_csrSet_self, csrMerge_csrMerge]

theorem Core.csrGet_iterate_csrSet (n : Nat) (v : Word) {k : Nat} (h : k ≠ 0) (x : Core) : ((·.csrSet n v)^[k] x).csrGet n = v := by
  obtain ⟨k, rfl⟩ := Nat.exists_eq_succ_of_ne_zero h
  rw [Function.iterate_succ_apply']
  exact Core.csrGet_csrSet_self ..

theorem count_ne_zero_of_mem {l : List Nat} {k : Nat} (h : k ∈ l) : l.count k ≠ 0 := (List.count_pos_iff.2 h).ne'

/-- The cores of a resumed partition before its held records are placed. -/
theorem State.resumed_core {s : State} {l : List Nat} {c : Nat} (hc : c ∈ l) (p : Nat) (f : Part → Part) :
    let w := (s.ran (each resumeCore l)).setPart p f
    (w.core c).v = [] ∧ (w.core c).t = [] ∧ (w.core c).deque = (s.core c).deque ∧
      ∀ a, (Space.bstore c).loc 0 ≤ a → a < (Space.bstore c).loc (2 ^ 21) → w.byte a = 0 := by
  obtain ⟨⟨hv, ht⟩, hz⟩ := restedAt_resumeCores l s c hc
  exact ⟨hv, ht, ((M.Keeps.each stable_rested keeps_resumeCore l).rel s).deque c, hz⟩

/-- What a component that is discarded leaves of the state. -/
theorem State.ended_discard {s : State} {fn p : Nat} (ho : s.owns fn p = true) :
    let t := ((s.setPart p Part.unbound).ran freeIdlePorts).cmdDone fn 0
    s.ended t fn 0 ∧ t.part p = (s.part p).unbound ∧ t.mem = s.mem ∧ (∀ k, k ≠ p → t.part k = s.part k) ∧ ∀ k, t.ctx k = s.ctx k := by
  obtain ⟨q, d, e⟩ := keeps_freeIdlePorts.rel (s.setPart p Part.unbound)
  rw [e]
  exact ⟨State.ended_cmdDone rfl fn 0, part_setPart_self (owns_isSome ho) _, rfl, fun k hk => part_setPart_ne hk _, fun _ => rfl⟩

theorem State.ended_setrdctl {s : State} {fn p : Nat} (ho : s.owns fn p = true) (ctl log : Word) :
    let t := (s.raceControl p ctl log).cmdDone fn 0
    s.ended t fn 0 ∧ t.mem = s.mem ∧ (t.part p).rdctl = ctl.setWidth 3 ∧ (t.part p).raceLog = log &&& 0xFFFFFFFFFE001 ∧
      (t.part p).raceSeq = 0 ∧ ∀ e, e ∈ t.shadow ↔ e ∈ s.shadow ∧ ¬∃ x ∈ s.shadow, x.1 = e.1 ∧ x.2.pnode = p := by
  have h : ((s.raceControl p ctl log).cmdDone fn 0).part p =
    { s.part p with rdctl := ctl.setWidth 3, raceLog := log &&& 0xFFFFFFFFFE001, raceSeq := 0 } :=
    part_setPart_self (owns_isSome ho) fun q => { q with rdctl := ctl.setWidth 3, raceLog := log &&& 0xFFFFFFFFFE001, raceSeq := 0 }
  refine ⟨State.ended_cmdDone rfl fn 0, rfl, ?_, ?_, ?_, fun e => mem_shadowWithout⟩ <;> rw [h]

/-- A command that changes only cores. -/
theorem ended_foldl_core (f : Core → Core) (l : List Nat) (s : State) (fn : Nat) :
    let t := (l.foldl (fun t c => (Upd.core c f).apply t) s).cmdDone fn 0
    s.ended t fn 0 ∧ t.mem = s.mem ∧ ∀ c, t.core c = f^[l.count c] (s.core c) :=
  ⟨State.ended_cmdDone (foldl_keeps (fun c => Upd.core c f) State.vfs (fun _ _ => rfl) l s) fn 0,
    foldl_keeps (fun c => Upd.core c f) State.mem (fun _ _ => rfl) l s, foldl_core f l s⟩

/-- A command that changes only contexts. -/
theorem ended_foldl_ctx (f : Ctx → Ctx) (n : Nat → Nat) (l : List Nat) (s : State) (fn : Nat) :
    let t := (l.foldl (fun t c => (Upd.ctx (n c) f).apply t) s).cmdDone fn 0
    s.ended t fn 0 ∧ t.mem = s.mem ∧ ∀ k, t.ctx k = f^[(l.map n).count k] (s.ctx k) :=
  ⟨State.ended_cmdDone (foldl_keeps (fun c => Upd.ctx (n c) f) State.vfs (fun _ _ => rfl) l s) fn 0,
    foldl_keeps (fun c => Upd.ctx (n c) f) State.mem (fun _ _ => rfl) l s, foldl_ctx f n l s⟩

section
variable {fn p : Nat} {s : State} (ho : s.owns fn p = true)
include ho

theorem loadcsr_loads {cs : List Nat} {k : Nat} (hc : s.commanded fn 0x09 p) (hs : (s.part p).st = .idle)
    (hp : s.pickCores p (bitsOf (s.vf fn).arg1.toNat 36 12) = some cs) (hk : bitsOf (s.vf fn).arg1.toNat 0 4 = k) (h : k ≤ 10) :
    let n := if (s.vf fn).arg1.toNat.testBit 4 then cXSCRATCH else cXTVEC
    ∃ t, exec (.loadcsr fn) s = .next t ∧ s.ended t fn 0 ∧ t.mem = s.mem ∧
      ∀ c ∈ cs, (t.ctx (ctxId c k)).csrGet false n = csrMerge n ((s.ctx (ctxId c k)).csrGet false n) (s.vf fn).arg0 := by
  obtain ⟨he, hm, hx⟩ := ended_foldl_ctx
    (Ctx.load (if (s.vf fn).arg1.toNat.testBit 4 then cXSCRATCH else cXTVEC) (s.vf fn).arg0) (ctxId · k) cs s fn
  refine ⟨_, exec_loadcsr ho hc hs hp hk h, he, hm, fun c hc => ?_⟩
  rw [hx]
  exact Ctx.csrGet_load _ _ (count_ne_zero_of_mem (List.mem_map_of_mem (f := (ctxId · k)) hc)) _

theorem setprio_sets (hc : s.commanded fn 0x0B p) (hs : (s.part p).st ≠ .unowned) :
    ∃ t, exec (.setprio fn) s = .next t ∧ s.ended t fn 0 ∧ t.mem = s.mem ∧
      (∀ c ∈ s.nodeCores p, (t.core c).csrGet cPRIO = BitVec.ofNat 64 ((s.vf fn).arg0.toNat % 4)) ∧
      ∀ c, c ∉ s.nodeCores p → t.core c = s.core c := by
  obtain ⟨he, hm, hx⟩ := ended_foldl_core (·.csrSet cPRIO (BitVec.ofNat 64 ((s.vf fn).arg0.toNat % 4))) (s.nodeCores p) s fn
  refine ⟨_, exec_setprio ho hc hs, he, hm, fun c hc => ?_, fun c hc => ?_⟩
  · rw [hx]
    exact Core.csrGet_iterate_csrSet _ _ (count_ne_zero_of_mem hc) _
  · rw [hx, List.count_eq_zero.2 hc]
    rfl

theorem interrupt_sets {cs : List Nat} (hc : s.commanded fn 0x0D p) (hs : (s.part p).st = .running ∨ (s.part p).st = .draining)
    (hp : s.pickCores p (bitsOf (s.vf fn).arg1.toNat 36 12) = some cs) :
    ∃ t, exec (.interrupt fn) s = .next t ∧ s.ended t fn 0 ∧ t.mem = s.mem ∧
      ∀ c, (t.core c).hostInt = if c ∈ cs then true else (s.core c).hostInt := by
  obtain ⟨he, hm, hx⟩ := ended_foldl_core Core.interrupted cs s fn
  refine ⟨_, exec_interrupt ho hc hs hp, he, hm, fun c => ?_⟩
  rw [hx, iterate_idem (f := Core.interrupted) fun _ => rfl]
  by_cases h : c ∈ cs
  · rw [if_neg (count_ne_zero_of_mem h), if_pos h]
    rfl
  · rw [if_pos (List.count_eq_zero.2 h), if_neg h]

theorem loadlm_loads {off len : Nat} {cs : List Nat} {bs : List PByte} {u : State} (hc : s.commanded fn 0x08 p) (hs : (s.part p).st = .idle)
    (ha : bitsOf (s.vf fn).arg1.toNat 0 18 = off) (hl : bitsOf (s.vf fn).arg1.toNat 18 18 = len)
    (hp : s.pickCores p (bitsOf (s.vf fn).arg1.toNat 36 12) = some cs) (h0 : 0 < len) (h1 : off + len ≤ 0x2F000) (hb : bs.length = len)
    (hu : (gpaBytes (fnWho fn) fn (spansOf (s.vf fn).arg0.toNat len)).leads s u (some bs)) :
    ∃ t, exec (.loadlm fn) s = .next t ∧ (t.vf fn).result = 0 ∧
      ∀ c ∈ cs, Memory.reads t.mem ((Space.lm c).loc off) len = bs.map (·.1) := by
  refine ⟨_, exec_loadlm ho hc hs ha hl hp h0 h1 hb hu, State.cmdDone_result .., fun c hc => ?_⟩
  rw [← hb]
  exact loaded_putMarked (by omega) cs u c hc

end

/-- Settles O43: each command ends as its own lemma says. -/
theorem partitionCommands : Obligations.PartitionCommands := by
  unfold Obligations.PartitionCommands
  intro fn p s ho q v cores pick go
  refine ⟨exec_drain ho, fun u hc hs => ⟨fun c hc => State.resumed_core hc p _, fun hu => ?resume⟩,
    fun hc hs => ⟨_, exec_discard ho hc hs, State.ended_discard ho⟩,
    fun hc hs => ⟨exec_loadlm_range ho hc hs (bitsOf_zero ..) rfl, fun cs bs u => loadlm_loads ho hc hs (bitsOf_zero ..) rfl⟩,
    fun hc hs => ⟨exec_loadcsr_range ho hc hs (bitsOf_zero ..), fun cs hp => loadcsr_loads ho hc hs hp (bitsOf_zero ..)⟩,
    exec_setslice ho, setprio_sets ho, fun hc hs => ⟨_, exec_setrdctl ho hc hs, State.ended_setrdctl ho _ _⟩,
    fun hc hs => ⟨exec_interrupt_range ho hc hs, fun cs => interrupt_sets ho hc hs⟩⟩
  case resume => exact exec_resume ho hc hs ((M.Keeps.each stable_rested keeps_resumeCore _).leads s) hu

end Sys2Proof.Machine
end

section
/-!
SUPPORT. The host's commands on the partition tree (R23 to R26, R348): the table of partitions after a split and a merge, and what clearing the cores
of a partition leaves.
-/

namespace Sys2Proof.Machine

open M

/-! ### Partitions that are listed and dropped (R23, R25) -/

namespace SMap

variable {α : Type}

@[simp] theorem find_erase_self (m : SMap α) (k : Nat) : find (m.erase k) k = none := by
  induction m with
  | nil => rfl
  | cons e m ih =>
    obtain ⟨j, v⟩ := e
    by_cases h : j = k
    · simpa [erase, h] using ih
    · simpa [erase, h, find] using ih

theorem find_erase_ne {k j : Nat} (h : j ≠ k) (m : SMap α) : find (m.erase k) j = find m j := by
  induction m with
  | nil => rfl
  | cons e m ih =>
    obtain ⟨i, v⟩ := e
    by_cases hi : i = k
    · have hij : i ≠ j := fun e => h (e.symm.trans hi)
      rw [show erase ((i, v) :: m) k = erase m k by simp [erase, hi], ih, find, if_neg hij]
    · rw [show erase ((i, v) :: m) k = (i, v) :: erase m k by simp [erase, hi], find, find, ih]

theorem find_insert_self (k : Nat) (v : α) {m : SMap α} (h : ∀ e ∈ m, e.1 ≠ k) : find (insert k v m) k = some v := by
  induction m with
  | nil => simp [insert, find]
  | cons e m ih =>
    obtain ⟨j, w⟩ := e
    have hj : j ≠ k := h _ List.mem_cons_self
    simp only [insert]
    split
    · simp [find]
    · rw [find, if_neg hj, ih fun e he => h e (List.mem_cons_of_mem _ he)]

theorem find_insert_ne {k j : Nat} (h : j ≠ k) (v : α) (m : SMap α) : find (insert k v m) j = find m j := by
  induction m with
  | nil => simp [insert, find, h.symm]
  | cons e m ih =>
    obtain ⟨i, w⟩ := e
    simp only [insert]
    split
    · simp [find, h.symm]
    · simp [find, ih]

@[simp] theorem find_put_self (m : SMap α) (k : Nat) (v : α) : find (m.put k v) k = some v :=
  find_insert_self k v fun _ => mem_erase_ne

theorem find_put_ne {k j : Nat} (h : j ≠ k) (m : SMap α) (v : α) : find (m.put k v) j = find m j := by
  rw [put, find_insert_ne h, find_erase_ne h]

end SMap

namespace State

variable {s : State} {p : Nat}

/-- The partitions after a split: the node is gone, and both children hold what it held, the right one without its messages. -/
theorem partOpt_split {a : Part} (ha : s.part? p = some a) (h1 : p < 1024) (k : Nat) :
    ((Upd.splitPart p).apply s).part? k = if k = 2 * p + 1 then some { a with mailbox := [], mbq := [] }
      else if k = 2 * p then some a else if k = p then none else s.part? k := by
  have e : ((Upd.splitPart p).apply s).part? k =
      SMap.find (SMap.put (SMap.put (s.parts.erase p) (2 * p) a) (2 * p + 1) { a with mailbox := [], mbq := [] }) k := by
    change SMap.find (splitParts s.parts p) k = _
    rw [splitParts, show SMap.find s.parts p = some a from ha]
    dsimp only
    rw [if_pos h1]
  rw [e]
  split_ifs with h2 h3 h4
  · rw [h2, SMap.find_put_self]
  · rw [SMap.find_put_ne h2, h3, SMap.find_put_self]
  · rw [SMap.find_put_ne h2, SMap.find_put_ne h3, h4, SMap.find_erase_self]
  · rw [SMap.find_put_ne h2, SMap.find_put_ne h3, SMap.find_erase_ne h4]
    rfl

/-- The messages of a node that has split moved to the right child. -/
def mailRight (p : Nat) (a : Part) (t : State) : State :=
  (t.setPart (2 * p) fun x => { x with mailbox := [], mbq := [] }).setPart (2 * p + 1) fun x => { x with mailbox := a.mailbox, mbq := a.mbq }

theorem partOpt_split_mailRight {a : Part} (ha : s.part? p = some a) (h1 : p < 1024) (k : Nat) :
    (((Upd.splitPart p).apply s).mailRight p a).part? k = if k = 2 * p + 1 then some a
      else if k = 2 * p then some { a with mailbox := [], mbq := [] } else if k = p then none else s.part? k := by
  have hn : 2 * p ≠ 2 * p + 1 := by omega
  rw [mailRight, partOpt_setPart, partOpt_setPart, partOpt_setPart, if_neg hn.symm]
  simp only [partOpt_split ha h1, if_neg hn, ↓reduceIte, Option.map_some]
  split_ifs <;> rfl

/-- The partitions after two siblings merge into their parent. -/
theorem partOpt_merge {a b : Part} (ha : s.part? (2 * p) = some a) (hb : s.part? (2 * p + 1) = some b) (k : Nat) :
    ((Upd.mergePart p).apply s).part? k = if k = p then some (a.joined b)
      else if k = 2 * p + 1 then none else if k = 2 * p then none else s.part? k := by
  have e : ((Upd.mergePart p).apply s).part? k = SMap.find (SMap.put ((s.parts.erase (2 * p)).erase (2 * p + 1)) p (a.joined b)) k := by
    change SMap.find (mergeParts s.parts p) k = _
    rw [mergeParts, show SMap.find s.parts (2 * p) = some a from ha, show SMap.find s.parts (2 * p + 1) = some b from hb]
  rw [e]
  split_ifs with h2 h3 h4
  · rw [h2, SMap.find_put_self]
  · rw [SMap.find_put_ne h2, h3, SMap.find_erase_self]
  · rw [SMap.find_put_ne h2, SMap.find_erase_ne h3, h4, SMap.find_erase_self]
  · rw [SMap.find_put_ne h2, SMap.find_erase_ne h3, SMap.find_erase_ne h4]
    rfl

/-- No shadow entry stays with a node that has split. -/
theorem pnode_split {a : Part} (ha : s.part? p = some a) (h0 : 0 < p) (h1 : p < 1024) :
    ∀ e ∈ ((Upd.splitPart p).apply s).shadow, e.2.pnode ≠ p := by
  have e : ((Upd.splitPart p).apply s).shadow = s.shadow.map fun e => (e.1, e.2.splitAt p) := by
    change splitShadow s.parts p s.shadow = _
    rw [splitShadow, show SMap.find s.parts p = some a from ha]
    simp [h1]
  rw [e, List.forall_mem_map]
  intro x _
  dsimp only
  unfold Shadow.splitAt
  split
  · next h => exact h
  · dsimp only
    split <;> omega

/-- No shadow entry stays with a child that has merged. -/
theorem pnode_merge {a b : Part} (ha : s.part? (2 * p) = some a) (hb : s.part? (2 * p + 1) = some b) (h0 : 0 < p) :
    ∀ e ∈ ((Upd.mergePart p).apply s).shadow, e.2.pnode ≠ 2 * p ∧ e.2.pnode ≠ 2 * p + 1 := by
  have e : ((Upd.mergePart p).apply s).shadow = s.shadow.map fun e => (e.1, e.2.mergeAt p) := by
    change mergeShadow s.parts p s.shadow = _
    rw [mergeShadow, show SMap.find s.parts (2 * p) = some a from ha, show SMap.find s.parts (2 * p + 1) = some b from hb]
    simp
  rw [e, List.forall_mem_map]
  intro x _
  dsimp only
  unfold Shadow.mergeAt
  split
  · dsimp only
    omega
  · omega

end State

/-! ### ASSIGN, SPLIT and MERGE -/

theorem exec_assign {p : Nat} {s : State} (hc : s.commanded 64 0x20 p) :
    exec (.assign 64) s = .next (if (s.part? p).isSome = true ∧ (s.part p).st = .unowned ∧ s.nodeClusters p ≠ []
      then (s.setPart p fun q => { q with st := .idle, ten := some ((s.vf 64).arg0.toNat % 64) }).cmdDone 64 0 else s.cmdDone 64 2) := by
  have iff : ((s.part? p).isSome && (s.part p).st == .unowned && !(s.nodeClusters p).isEmpty) = true ↔
      (s.part? p).isSome = true ∧ (s.part p).st = .unowned ∧ s.nodeClusters p ≠ [] := by
    simp [and_assoc]
  by_cases h : (s.part? p).isSome = true ∧ (s.part p).st = .unowned ∧ s.nodeClusters p ≠ []
  · rw [if_pos h]
    refine run_command hc (M.leads_get_bind ?_)
    rw [if_neg (by decide), if_pos (iff.2 h)]
    exact M.leads_upd_bind (M.leads_pure _ _)
  · rw [if_neg h]
    refine run_command hc (M.leads_get_bind ?_)
    rw [if_neg (by decide), if_neg (h ∘ iff.1)]
    exact M.leads_pure _ _

section
variable {fn p : Nat} {s : State} (ho : s.owns fn p = true)
include ho

theorem split_refused (hc : s.commanded fn 0x05 p) (hs : (s.part p).st = .idle ∨ (s.part p).st = .unowned)
    (h : 1024 ≤ p ∨ ((s.part p).ten ≠ none ∧ s.nodeClusters (2 * p) = []) ∨ ((s.part p).ten ≠ none ∧ s.nodeClusters (2 * p + 1) = [])) :
    exec (.split fn) s = .next (s.cmdDone fn 5) := by
  refine run_command hc (leads_onPart ho (by rcases hs with h | h <;> rw [h] <;> rfl) (M.leads_get_bind ?_))
  dsimp only
  rw [if_pos (by simpa [Option.isSome_iff_ne_none, List.isEmpty_iff, or_assoc] using h)]
  exact M.leads_pure _ _

/-- A split where the left child has a present cluster: it keeps the messages. -/
theorem split_left (hc : s.commanded fn 0x05 p) (hs : (s.part p).st = .idle ∨ (s.part p).st = .unowned) (hp : p < 1024)
    (hl : s.nodeClusters (2 * p) ≠ []) (hr : ¬((s.part p).ten ≠ none ∧ s.nodeClusters (2 * p + 1) = [])) :
    exec (.split fn) s = .next (((Upd.splitPart p).apply s).cmdDone fn 0) := by
  refine run_command hc (leads_onPart ho (by rcases hs with h | h <;> rw [h] <;> rfl) (M.leads_get_bind ?_))
  dsimp only
  rw [if_neg (by simpa [Option.isSome_iff_ne_none, List.isEmpty_iff, hl, hp] using hr)]
  refine M.leads_upd_bind ?_
  rw [if_neg (by simpa [List.isEmpty_iff] using hl)]
  exact M.leads_pure _ _

/-- A split where it has none: the messages move to the right child. -/
theorem split_right (hc : s.commanded fn 0x05 p) (hs : (s.part p).st = .idle ∨ (s.part p).st = .unowned) (hp : p < 1024)
    (hl : s.nodeClusters (2 * p) = []) (ht : (s.part p).ten = none) :
    exec (.split fn) s = .next ((((Upd.splitPart p).apply s).mailRight p (s.part p)).cmdDone fn 0) := by
  refine run_command hc (leads_onPart ho (by rcases hs with h | h <;> rw [h] <;> rfl) (M.leads_get_bind ?_))
  dsimp only
  rw [if_neg (by simp [ht, hp])]
  refine M.leads_upd_bind ?_
  rw [if_pos (by simpa [List.isEmpty_iff] using hl)]
  exact M.leads_upd_bind (M.leads_upd_bind (M.leads_pure _ _))

/-- What a split leaves: the child with the first present cluster holds what the node held, the other one has no messages. -/
theorem split_splits (hc : s.commanded fn 0x05 p) (hs : (s.part p).st = .idle ∨ (s.part p).st = .unowned) (h0 : 0 < p) (hp : p < 1024)
    (hl : ¬((s.part p).ten ≠ none ∧ s.nodeClusters (2 * p) = [])) (hr : ¬((s.part p).ten ≠ none ∧ s.nodeClusters (2 * p + 1) = [])) :
    ∃ t, exec (.split fn) s = .next t ∧ s.ended t fn 0 ∧ t.part? p = none ∧
      let other := if s.nodeClusters (2 * p) = [] then 2 * p else 2 * p + 1
      let own := if s.nodeClusters (2 * p) = [] then 2 * p + 1 else 2 * p
      t.part? own = some (s.part p) ∧ t.part? other = some { s.part p with mailbox := [], mbq := [] } ∧ t.cores = s.cores ∧ t.mem = s.mem ∧
      (∀ e ∈ t.shadow, e.2.pnode ≠ p) ∧ ∀ k, k ≠ p → k ≠ 2 * p → k ≠ 2 * p + 1 → t.part? k = s.part? k := by
  obtain ⟨q, hq⟩ := Option.isSome_iff_exists.1 (State.owns_isSome ho)
  have e := State.part_of_some hq
  have away := State.pnode_split hq h0 hp
  have hn : p ≠ 2 * p ∧ p ≠ 2 * p + 1 ∧ 2 * p ≠ 2 * p + 1 := by omega
  obtain ⟨hn0, hn1, hn2⟩ := hn
  by_cases hk : s.nodeClusters (2 * p) = []
  · have parts := State.partOpt_split_mailRight hq hp
    have ht : (s.part p).ten = none := by simpa [hk] using hl
    rw [if_pos hk, if_pos hk]
    refine ⟨_, split_right ho hc hs hp hk ht, State.ended_cmdDone rfl fn 0, ?_, ?_, ?_, rfl, rfl, away, fun k h1 h2 h3 => ?_⟩
    all_goals
      rw [State.cmdDone_get_partOpt, e, parts]
      simp [*]
  · have parts := State.partOpt_split hq hp
    rw [if_neg hk, if_neg hk]
    refine ⟨_, split_left ho hc hs hp hk hr, State.ended_cmdDone rfl fn 0, ?_, ?_, ?_, rfl, rfl, away, fun k h1 h2 h3 => ?_⟩
    all_goals
      rw [State.cmdDone_get_partOpt, parts]
      simp [*]

end

section
variable {fn p : Nat} {s : State}

theorem merge_without (hc : s.commanded fn 0x06 p) (h : s.part? (2 * p) = none ∨ s.part? (2 * p + 1) = none) :
    exec (.merge fn) s = .next (s.cmdDone fn 5) := by
  refine run_command hc (M.leads_get_bind ?_)
  split
  · next ha hb => simp [ha, hb] at h
  · exact M.leads_pure _ _

variable {a b : Part} (ha : s.part? (2 * p) = some a) (hb : s.part? (2 * p + 1) = some b)
include ha hb

theorem merge_unowned (hc : s.commanded fn 0x06 p) (h : s.owns fn (2 * p) = false ∨ s.owns fn (2 * p + 1) = false) :
    exec (.merge fn) s = .next (s.cmdDone fn 2) := by
  refine run_command hc (M.leads_get_bind ?_)
  simp only [ha, hb]
  rw [if_pos (by simpa using h)]
  exact M.leads_pure _ _

theorem merge_refused (hc : s.commanded fn 0x06 p) (hl : s.owns fn (2 * p) = true) (hr : s.owns fn (2 * p + 1) = true)
    (h : ¬(a.st = b.st ∧ (a.st = .idle ∨ a.st = .unowned))) : exec (.merge fn) s = .next (s.cmdDone fn 5) := by
  refine run_command hc (M.leads_get_bind ?_)
  simp only [ha, hb]
  rw [if_neg (by simp [hl, hr]), if_neg (by simpa using h)]
  exact M.leads_pure _ _

theorem exec_merge (hc : s.commanded fn 0x06 p) (hl : s.owns fn (2 * p) = true) (hr : s.owns fn (2 * p + 1) = true)
    (he : a.st = b.st) (h : a.st = .idle ∨ a.st = .unowned) : exec (.merge fn) s = .next (((Upd.mergePart p).apply s).cmdDone fn 0) := by
  refine run_command hc (M.leads_get_bind ?_)
  simp only [ha, hb]
  rw [if_neg (by simp [hl, hr]), if_pos (by simpa using And.intro he h)]
  exact M.leads_upd_bind (M.leads_pure _ _)

theorem merge_merges (h0 : 0 < p) (hc : s.commanded fn 0x06 p) (hl : s.owns fn (2 * p) = true) (hr : s.owns fn (2 * p + 1) = true)
    (he : a.st = b.st) (h : a.st = .idle ∨ a.st = .unowned) :
    ∃ t, exec (.merge fn) s = .next t ∧ s.ended t fn 0 ∧ t.part? (2 * p) = none ∧ t.part? (2 * p + 1) = none ∧
      t.part? p = some (a.joined b) ∧
      t.cores = s.cores ∧ t.mem = s.mem ∧ (∀ e ∈ t.shadow, e.2.pnode ≠ 2 * p ∧ e.2.pnode ≠ 2 * p + 1) ∧
      ∀ k, k ≠ p → k ≠ 2 * p → k ≠ 2 * p + 1 → t.part? k = s.part? k := by
  have hn : 2 * p ≠ p ∧ 2 * p + 1 ≠ p := by omega
  obtain ⟨hn0, hn1⟩ := hn
  refine ⟨_, exec_merge ha hb hc hl hr he h, State.ended_cmdDone rfl fn 0, ?_, ?_, ?_, rfl, rfl, State.pnode_merge ha hb h0,
    fun k h1 h2 h3 => ?_⟩
  all_goals
    rw [State.cmdDone_get_partOpt, State.partOpt_merge ha hb]
    simp [*]

end

/-! ### Cores that are cleared (R26) -/

/-- No cache of a core holds a line. -/
def State.noLines (s : State) : Prop := ∀ d, (s.core d).l1 = [] ∧ (s.core d).sect = []

theorem Flushed.noLines {s t : State} (h : Flushed s t) (hs : s.noLines) : t.noLines := fun d => by
  obtain ⟨a, b, ha, hb, e⟩ := h.cores d
  obtain ⟨h1, h2⟩ := hs d
  rw [h1, List.sublist_nil] at ha
  rw [h2, List.sublist_nil] at hb
  rw [e]
  exact ⟨ha, hb⟩

/-- A flush that finds no line writes no memory. -/
theorem mem_flushFrame {s : State} (hs : s.noLines) (core f : Nat) : (s.ran (flushFrame core f)).mem = s.mem := by
  have l : (flushFrame core f).leads s _ () := M.leads_get_bind (by rw [(hs core).2]; exact M.leads_bind (M.leads_pure () s) (M.leads_upd _ s))
  rw [l.ran_eq]
  rfl

theorem mem_flushLines {s : State} (hs : s.noLines) (core : Nat) (p : Line → Bool) : (s.ran (flushLines core p true)).mem = s.mem := by
  have l : (flushLines core p true).leads s _ () := M.leads_get_bind (by
    dsimp only
    rw [(hs core).1, (hs core).2]
    exact M.leads_bind (M.leads_pure () s) (M.leads_upd_bind (M.leads_bind (M.leads_pure () _) (M.leads_upd _ _))))
  rw [l.ran_eq]
  rfl

/-- Some cores have been cleared, or part of one: what is clear already stays so, and bytes that are zero too while no line is held. -/
structure Cleared (s t : State) : Prop where
  parts : t.parts = s.parts
  vfs : t.vfs = s.vfs
  pres : t.pres = s.pres
  core : ∀ c, s.core c = Core.reset → t.core c = Core.reset
  ctx : ∀ k, s.ctx k = Ctx.reset k → t.ctx k = Ctx.reset k
  noLines : s.noLines → t.noLines
  zero : s.noLines → ∀ a, s.byte a = 0 → t.byte a = 0

theorem stable_cleared : Stable Cleared where
  refl _ := ⟨rfl, rfl, rfl, fun _ => id, fun _ => id, id, fun _ _ => id⟩
  trans h k := ⟨k.parts.trans h.parts, k.vfs.trans h.vfs, k.pres.trans h.pres, fun c => k.core c ∘ h.core c, fun c => k.ctx c ∘ h.ctx c,
    k.noLines ∘ h.noLines, fun hs a => k.zero (h.noLines hs) a ∘ h.zero hs a⟩

/-- A flush clears nothing that was clear. -/
theorem Flushed.cleared {s t : State} (h : Flushed s t) (hm : s.noLines → t.mem = s.mem) : Cleared s t where
  parts := h.parts
  vfs := h.vfs
  pres := h.pres
  core c hc := by
    obtain ⟨a, b, ha, hb, e⟩ := h.cores c
    rw [hc] at ha hb e
    rw [e, List.sublist_nil.1 ha, List.sublist_nil.1 hb]
    rfl
  ctx k hk := by
    unfold State.ctx
    rwa [h.ctxs]
  noLines := h.noLines
  zero hs a ha := by
    unfold State.byte
    rwa [hm hs]

theorem cleared_dev (f : Dev → Dev) (s : State) : Cleared s ((Upd.dev f).apply s) :=
  ⟨rfl, rfl, rfl, fun _ => id, fun _ => id, id, fun _ _ => id⟩

theorem cleared_scrub (lo hi : Nat) (s : State) : Cleared s ((Upd.scrub lo hi).apply s) :=
  ⟨rfl, rfl, rfl, fun _ => id, fun _ => id, id, fun _ a ha => by rw [State.byte_scrub, ha, ite_self]⟩

/-- An update of a core that changes no core after reset and brings no line. -/
theorem cleared_core (c : Nat) {f : Core → Core} (hf : f Core.reset = Core.reset)
    (hl : ∀ x : Core, x.l1 = [] ∧ x.sect = [] → (f x).l1 = [] ∧ (f x).sect = []) (s : State) : Cleared s ((Upd.core c f).apply s) where
  parts := rfl
  vfs := rfl
  pres := rfl
  core k hk := by rw [State.core_upd_core, hk, hf, ite_self]
  ctx _ := id
  noLines hs d := by
    rw [State.core_upd_core]
    split
    · exact hl _ (hs d)
    · exact hs d
  zero _ _ := id

theorem cleared_ctx (k : Nat) (s : State) : Cleared s ((Upd.ctx k fun _ => Ctx.reset k).apply s) where
  parts := rfl
  vfs := rfl
  pres := rfl
  core _ := id
  ctx j hj := by
    rw [State.ctx_upd_ctx, hj]
    split
    · next e => rw [e]
    · rfl
  noLines := id
  zero _ _ := id

theorem keeps_unmapFrame (core f : Nat) : (flushFrame core f).Keeps Cleared := fun s =>
  ⟨(keeps_flushFrame core f).leads s, ((keeps_flushFrame core f).rel s).cleared (mem_flushFrame · core f)⟩

theorem keeps_unmapAll (core : Nat) : (unmapAll core).Keeps Cleared :=
  .get fun _ => .seq stable_cleared (.each stable_cleared (fun _ => keeps_unmapFrame core _) _)
    (.upd fun _ => cleared_core core (f := fun c => { c with stash := [] }) rfl (fun _ => id) _)

theorem keeps_flushAll (core : Nat) : (flushLines core (fun _ => true) true).Keeps Cleared := fun s =>
  ⟨(keeps_flushLines core _ true).leads s, ((keeps_flushLines core _ true).rel s).cleared (mem_flushLines · core _)⟩

theorem keeps_resetCore (core : Nat) : (upd (.core core fun _ => Core.reset)).Keeps Cleared :=
  .upd fun _ => cleared_core core (f := fun _ => Core.reset) rfl (fun _ _ => ⟨rfl, rfl⟩) _

/-- A context as after reset. -/
def resetCtx (k : Nat) : M Unit := do
  forget (.ctx k)
  upd (.ctx k fun _ => Ctx.reset k)

/-- The last part of clearing a core: its registers and its contexts. -/
def wipeCore (core : Nat) : M Unit := do
  upd (.core core fun _ => Core.reset)
  each resetCtx (ctxsOf core)

/-- The part before: bytes cleared in two places. -/
def scrubTwo (a b c d : Nat) : M Unit := do
  upd (.scrub a b)
  upd (.scrub c d)

theorem keeps_resetCtx (k : Nat) : (resetCtx k).Keeps Cleared :=
  .seq stable_cleared (.upd fun _ => cleared_dev _ _) (.upd fun _ => cleared_ctx _ _)

theorem keeps_wipeCore (core : Nat) : (wipeCore core).Keeps Cleared :=
  .seq stable_cleared (keeps_resetCore core) (.each stable_cleared keeps_resetCtx _)

theorem keeps_scrubTwo (a b c d : Nat) : (scrubTwo a b c d).Keeps Cleared :=
  .seq stable_cleared (.upd fun _ => cleared_scrub ..) (.upd fun _ => cleared_scrub ..)

theorem State.byte_scrubTwo {a b c d k : Nat} (h0 : a ≤ k) (h1 : k < b) (s : State) : (s.ran (scrubTwo a b c d)).byte k = 0 := by
  have e : s.ran (scrubTwo a b c d) = _ := (M.leads_upd_bind (M.leads_upd _ _)).ran_eq
  rw [e, State.byte_scrub, State.byte_scrub, if_neg (by omega : ¬(k < a ∨ b ≤ k)), ite_self]

/-- A cleared core: its lines go, its memories are scrubbed, and its registers are wiped. -/
theorem clearCore_eq (core : Nat) : clearCore core = (do
    unmapAll core
    flushLines core (fun _ => true) true
    scrubTwo ((Space.lm core).loc 0) ((Space.lm core).loc Config.lmBytes) ((Space.bstore core).loc 0) ((Space.bstore core).loc (2 ^ 21))
    wipeCore core) := rfl

theorem keeps_clearCore (core : Nat) : (clearCore core).Keeps Cleared :=
  clearCore_eq core ▸ .seq stable_cleared (keeps_unmapAll core) (.seq stable_cleared (keeps_flushAll core)
    (.seq stable_cleared (keeps_scrubTwo _ _ _ _) (keeps_wipeCore core)))

/-- The state before a core is wiped. -/
theorem State.ran_clearCore (core : Nat) (s : State) : ∃ t, Cleared s t ∧ s.ran (clearCore core) = t.ran (wipeCore core) ∧
    ∀ a, (Space.lm core).loc 0 ≤ a → a < (Space.lm core).loc Config.lmBytes → t.byte a = 0 := by
  have scrub := keeps_scrubTwo ((Space.lm core).loc 0) ((Space.lm core).loc Config.lmBytes) ((Space.bstore core).loc 0)
    ((Space.bstore core).loc (2 ^ 21))
  have rest := M.Keeps.seq stable_cleared (f := fun _ => wipeCore core) scrub (keeps_wipeCore core)
  refine ⟨_, stable_cleared.trans ((keeps_unmapAll core).rel s) (stable_cleared.trans ((keeps_flushAll core).rel _) (scrub.rel _)), ?_,
    fun a h0 h1 => State.byte_scrubTwo h0 h1 _⟩
  rw [clearCore_eq, State.ran_bind (keeps_unmapAll core) (.seq stable_cleared (keeps_flushAll core) rest),
    State.ran_bind (keeps_flushAll core) rest, State.ran_bind scrub (keeps_wipeCore core)]

theorem State.ran_wipeCore (core : Nat) (s : State) :
    s.ran (wipeCore core) = ((Upd.core core fun _ => Core.reset).apply s).ran (each resetCtx (ctxsOf core)) :=
  (M.leads_upd_bind ((M.Keeps.each stable_cleared keeps_resetCtx _).leads _)).ran_eq

/-- A wiped core is as after reset. -/
theorem State.core_wipeCore (core : Nat) (s : State) : (s.ran (wipeCore core)).core core = Core.reset := by
  rw [State.ran_wipeCore]
  exact ((M.Keeps.each stable_cleared keeps_resetCtx _).rel _).core core (by rw [State.core_upd_core, if_pos rfl])

/-- So are its contexts. -/
theorem State.ctx_wipeCore {core k : Nat} (hk : k ∈ ctxsOf core) (s : State) : (s.ran (wipeCore core)).ctx k = Ctx.reset k := by
  rw [State.ran_wipeCore]
  refine M.Keeps.each_establishes stable_cleared keeps_resetCtx (Q := fun k s => s.ctx k = Ctx.reset k) (fun k _ _ h => h.ctx k) _ _
    (fun k _ t _ => ?_) k hk
  have e : t.ran (resetCtx k) = _ := (M.leads_upd_bind (M.leads_upd _ _)).ran_eq
  rw [e, State.ctx_upd_ctx, if_pos rfl]

section
variable (cores : List Nat) (s : State)

theorem keeps_clearCores : (each clearCore cores).Keeps Cleared := .each stable_cleared keeps_clearCore cores

theorem State.core_clearCores : ∀ c ∈ cores, (s.ran (each clearCore cores)).core c = Core.reset :=
  M.Keeps.each_establishes stable_cleared keeps_clearCore (Q := fun c s => s.core c = Core.reset) (fun c _ _ h => h.core c) cores s
    fun c _ t _ => by
      obtain ⟨u, -, e, -⟩ := State.ran_clearCore c t
      rw [e, State.core_wipeCore]

theorem State.ctx_clearCores : ∀ c ∈ cores, ∀ k ∈ ctxsOf c, (s.ran (each clearCore cores)).ctx k = Ctx.reset k :=
  M.Keeps.each_establishes stable_cleared keeps_clearCore (Q := fun c s => ∀ k ∈ ctxsOf c, s.ctx k = Ctx.reset k)
    (fun c _ _ h hq k hk => h.ctx k (hq k hk)) cores s fun c _ t _ k hk => by
      obtain ⟨u, -, e, -⟩ := State.ran_clearCore c t
      rw [e, State.ctx_wipeCore hk]

theorem State.byte_clearCores (hs : s.noLines) : ∀ c ∈ cores, ∀ a, (Space.lm c).loc 0 ≤ a → a < (Space.lm c).loc Config.lmBytes →
    (s.ran (each clearCore cores)).byte a = 0 := by
  intro c hc
  refine (M.Keeps.each_establishes stable_cleared keeps_clearCore
    (Q := fun c s => s.noLines ∧ ∀ a, (Space.lm c).loc 0 ≤ a → a < (Space.lm c).loc Config.lmBytes → s.byte a = 0)
    (fun c _ _ h hq => ⟨h.noLines hq.1, fun a h0 h1 => h.zero hq.1 a (hq.2 a h0 h1)⟩) cores s (fun c _ t ht => ?_) c hc).2
  have hn := ht.noLines hs
  obtain ⟨u, hu, e, hz⟩ := State.ran_clearCore c t
  exact ⟨((keeps_clearCore c).rel t).noLines hn, fun a h0 h1 => e ▸ ((keeps_wipeCore c).rel u).zero (hu.noLines hn) a (hz a h0 h1)⟩

end

/-! ### Event units that are reset (R26, R139) -/

/-- Only the records of the device have changed. -/
def OnlyDev (s t : State) : Prop := ∃ d, t = { s with dev := d }

theorem stable_onlyDev : Stable OnlyDev where
  refl s := ⟨s.dev, rfl⟩
  trans := by
    rintro s _ _ ⟨d, rfl⟩ ⟨e, rfl⟩
    exact ⟨e, rfl⟩

theorem onlyDev_dev (f : Dev → Dev) : (upd (.dev f)).Keeps OnlyDev := .upd fun _ => ⟨_, rfl⟩

theorem keeps_sendPacket (ca : Bool) (p : Packet) : (sendPacket ca p).Keeps OnlyDev := by
  refine .get fun s => ?_
  split
  · exact .pure stable_onlyDev
  · exact onlyDev_dev _

theorem keeps_tellGroup (p b flags : Nat) : (tellGroup p b flags).Keeps OnlyDev :=
  .get fun _ => .each stable_onlyDev (fun _ => .ite (.pure stable_onlyDev) (keeps_sendPacket _ _)) _

/-- Barriers, mutexes and lines of a cluster dropped. -/
def Cluster.quiet (c : Cluster) : Cluster := { c with bars := [], lines := 0, mutex := [] }

theorem foldl_cluster (f : Cluster → Cluster) (l : List Nat) (s : State) (k : Nat) :
    (l.foldl (fun t c => (Upd.cluster c f).apply t) s).cluster k = f^[l.count k] (s.cluster k) := by
  refine (foldl_iterate (fun c => Upd.cluster c f) (·.cluster k) f k (·) (fun a t => ?_) l s).trans (by rw [List.map_id'])
  by_cases e : a = k
  · subst e
    rw [if_pos rfl]
    exact State.cluster_setCluster_self ..
  · rw [if_neg e]
    exact State.cluster_setCluster_ne _ _ (Ne.symm e)

theorem leads_resetEvents (p : Nat) (s : State) :
    ∃ t, OnlyDev s t ∧ (resetEvents p).leads s ((s.nodeClusters p).foldl (fun t k => (Upd.cluster k Cluster.quiet).apply t) t) () := by
  have h : (each (fun b => if (s.groupMembers p b).isEmpty then pure () else do
      tellGroup p b 2
      each (fun q => setGbar p b q 0) (List.range 16)) (List.range 4)).Keeps OnlyDev :=
    .each stable_onlyDev (fun b => .ite (.pure stable_onlyDev)
      (.seq stable_onlyDev (keeps_tellGroup p b 2) (.each stable_onlyDev (fun _ => onlyDev_dev _) _))) _
  exact ⟨_, h.rel s, M.leads_get_bind (M.leads_bind (h.leads s) (M.leads_each_upd _ _ _))⟩

/-! ### RELEASE and RECLAIM -/

/-- A command whose body waits for something stays in progress. -/
theorem command_waits {fn op p : Nat} {s : State} {body : Nat → M (BitVec 8)} (h : s.commanded fn op p)
    (hb : ∀ k, P.run s (body p k) s = s) : event (command fn op body) s = .next s := by
  obtain ⟨hp, c, hc, rfl, rfl⟩ := h
  simp only [command, run_event, bind_apply, get_apply, run_getP, hc, ite_apply, hp, ne_eq, not_true, decide_false, Bool.or_self,
    Bool.false_eq_true, if_false]
  exact congrArg _ (hb _)

/-- A partition that is nobody's again keeps the number of its interval alone. -/
def Part.released (q : Part) : Part := { Part.reset with intv := q.intv }

/-- The state after the cores and event units of a partition are cleared, and it is nobody's. -/
theorem State.releases {s : State} {p : Nat} (fn : Nat) (hp : (s.part? p).isSome = true) (hv : s.vented (s.nodeCores p) = false) :
    ∃ u, (releasePart p).leads s u 0 ∧
      s.ended (u.cmdDone fn 0) fn 0 ∧ u.part p = { Part.reset with intv := (s.part p).intv } ∧
      (∀ k ∈ s.nodeClusters p, (u.cluster k).bars = [] ∧ (u.cluster k).mutex = [] ∧ (u.cluster k).lines = 0) ∧
      (∀ c ∈ s.nodeCores p, u.core c = Core.reset ∧ ∀ k < 16, k < ctxCount c → u.ctx (ctxId c k) = Ctx.reset (ctxId c k)) ∧
      (∀ c ∈ s.nodeCores p, s.noLines → ∀ a, (Space.lm c).loc 0 ≤ a → a < (Space.lm c).loc 0x30000 → u.byte a = 0) := by
  have clear := (keeps_clearCores (s.nodeCores p)).rel s
  have nodes : (s.ran (each clearCore (s.nodeCores p))).nodeClusters p = s.nodeClusters p := by
    unfold State.nodeClusters State.clPresent
    rw [clear.pres]
  obtain ⟨t, ⟨d, rfl⟩, hl⟩ := leads_resetEvents p (s.ran (each clearCore (s.nodeCores p)))
  rw [nodes] at hl
  generalize hw : (s.nodeClusters p).foldl (fun t k => (Upd.cluster k Cluster.quiet).apply t) _ = w at hl
  have keeps {β : Type} (π : State → β) (h : ∀ k t, π ((Upd.cluster k Cluster.quiet).apply t) = π t) :=
    foldl_keeps (fun k => Upd.cluster k Cluster.quiet) π h (s.nodeClusters p) { s.ran (each clearCore (s.nodeCores p)) with dev := d }
  rw [hw] at keeps
  have parts : w.parts = s.parts := (keeps State.parts fun _ _ => rfl).trans clear.parts
  obtain ⟨q, e, hu⟩ := keeps_freeIdlePorts.rel (w.setPart p Part.released)
  refine ⟨(w.setPart p Part.released).ran freeIdlePorts, M.leads_get_bind ?_, ?_⟩
  · rw [if_neg (by simp [hv])]
    exact M.leads_bind ((keeps_clearCores _).leads s)
      (M.leads_bind hl (M.leads_upd_bind (M.leads_bind (keeps_freeIdlePorts.leads _) (M.leads_pure _ _))))
  · rw [hu]
    refine ⟨State.ended_cmdDone ((keeps State.vfs fun _ _ => rfl).trans clear.vfs) fn 0, ?_, fun k hk => ?_, fun c hc => ⟨?_, fun k _ hk => ?_⟩,
      fun c hc hs a h0 h1 => ?_⟩
    · have hwp : (w.part? p).isSome = true := by
        unfold State.part?
        rwa [parts]
      have hw : w.part p = s.part p := by
        unfold State.part
        rw [parts]
      exact (State.part_setPart_self hwp Part.released).trans (congrArg Part.released hw)
    · have h : w.cluster k = Cluster.quiet^[_] _ := hw ▸ foldl_cluster _ _ _ k
      change (w.cluster k).bars = [] ∧ (w.cluster k).mutex = [] ∧ (w.cluster k).lines = 0
      rw [h, iterate_idem (f := Cluster.quiet) fun _ => rfl, if_neg (count_ne_zero_of_mem hk)]
      exact ⟨rfl, rfl, rfl⟩
    · exact (keeps (·.core c) fun _ _ => rfl).trans (State.core_clearCores _ s c hc)
    · exact (keeps (·.ctx (ctxId c k)) fun _ _ => rfl).trans (State.ctx_clearCores _ s c hc _ (List.mem_map_of_mem (List.mem_range.2 hk)))
    · exact (keeps (·.byte a) fun _ _ => rfl).trans (State.byte_clearCores _ s hs c hc a h0 h1)

/-- While a vent operation targets a core of the partition, its release waits. -/
theorem run_releasePart_vented {s : State} {p : Nat} (hv : s.vented (s.nodeCores p) = true) (k : BitVec 8 → P) :
    P.run s (releasePart p k) s = s := by
  simp only [releasePart, bind_apply, get_apply, run_getP, hv, if_true, stall_apply, run_abort, run_done]

section
variable {fn p : Nat} {s : State}

theorem release_waits (hc : s.commanded fn 0x07 p) (ho : s.owns fn p = true) (hs : (s.part p).st = .idle)
    (hv : s.vented (s.nodeCores p) = true) : exec (.release fn) s = .next s := by
  refine command_waits hc fun k => ?_
  have hs' : ((s.part p).st == .idle) = true := by rw [hs]; rfl
  simp only [onPart, bind_apply, get_apply, run_getP, ho, hs', Bool.and_self, if_true]
  exact run_releasePart_vented hv k

theorem reclaim_waits (hc : s.commanded 64 0x21 p) (hp : (s.part? p).isSome = true) (hs : (s.part p).st = .idle)
    (hv : s.vented (s.nodeCores p) = true) : exec (.reclaim 64) s = .next s := by
  refine command_waits hc fun k => ?_
  have hs' : ((s.part p).st == .idle) = true := by rw [hs]; rfl
  simp only [bind_apply, get_apply, run_getP, hp, hs', Bool.and_self, if_true]
  exact run_releasePart_vented hv k

theorem exec_release {u : State} (hc : s.commanded fn 0x07 p) (ho : s.owns fn p = true) (hs : (s.part p).st = .idle)
    (hu : (releasePart p).leads s u 0) : exec (.release fn) s = .next (u.cmdDone fn 0) :=
  run_command hc (leads_onPart ho (by rw [hs]; rfl) hu)

theorem exec_reclaim {u : State} (hc : s.commanded 64 0x21 p) (hp : (s.part? p).isSome = true) (hs : (s.part p).st = .idle)
    (hu : (releasePart p).leads s u 0) : exec (.reclaim 64) s = .next (u.cmdDone 64 0) := by
  refine run_command hc (M.leads_get_bind ?_)
  rw [if_neg (by decide), if_pos (by rw [hp, hs]; rfl)]
  exact hu

end

/-- Settles O44: each command ends as its own lemma says; RELEASE and RECLAIM clear in one way. -/
theorem treeCommands : Obligations.TreeCommands := by
  unfold Obligations.TreeCommands
  intro fn p s q
  refine ⟨exec_assign, fun hc ho hs => ⟨split_refused ho hc hs, fun h0 h1 hl hr => split_splits ho hc hs h0 h1 hl hr⟩,
    fun a b h0 hc ha hb => ⟨merge_unowned ha hb hc, fun hl hr => ⟨merge_refused ha hb hc hl hr, merge_merges ha hb h0 hc hl hr⟩⟩,
    fun h hc => merge_without hc h, ?_⟩
  rintro i f (⟨rfl, rfl, hc, ho⟩ | ⟨rfl, rfl, hc, hp⟩) hs
  · refine ⟨release_waits hc ho hs, fun hv => ?_⟩
    obtain ⟨u, hu, h⟩ := State.releases f (State.owns_isSome ho) hv
    exact ⟨_, exec_release hc ho hs hu, h⟩
  · refine ⟨reclaim_waits hc hp hs, fun hv => ?_⟩
    obtain ⟨u, hu, h⟩ := State.releases 64 hp hv
    exact ⟨_, exec_reclaim hc hp hs hu, h⟩

end Sys2Proof.Machine
end

section
/-!
SUPPORT. Superstep boundaries and quiescence (R28, R46 to R48, R135, R136, R369). A boundary is its own step and one of three ends; the report of a
quiescent set keeps what it has reported.
-/

namespace Sys2Proof.Machine

open M

/-! ### Chain requests at a boundary (R231) -/

/-- Only event units and the records of the device have changed. -/
def Clustered (s t : State) : Prop := ∃ k d, t = { s with clusters := k, dev := d }

theorem stable_clustered : Stable Clustered where
  refl s := ⟨s.clusters, s.dev, rfl⟩
  trans := by
    rintro s _ _ ⟨k, d, rfl⟩ ⟨l, e, rfl⟩
    exact ⟨l, e, rfl⟩

theorem OnlyDev.clustered {s t : State} : OnlyDev s t → Clustered s t := by
  rintro ⟨d, rfl⟩
  exact ⟨s.clusters, d, rfl⟩

theorem keeps_updCluster (k : Nat) (f : Cluster → Cluster) : (upd (.cluster k f)).Keeps Clustered := .upd fun s => ⟨_, s.dev, rfl⟩

theorem keeps_completeBars (b : Nat) (ks : List Nat) : (each (completeBar b) ks).Keeps Clustered :=
  .each stable_clustered (fun _ => keeps_updCluster _ _) ks

theorem keeps_telling (p b flags : Nat) : (tellGroup p b flags).Keeps Clustered := (keeps_tellGroup p b flags).mono fun _ _ => OnlyDev.clustered

theorem keeps_setGbar (p b q n : Nat) : (setGbar p b q n).Keeps Clustered := (onlyDev_dev _).mono fun _ _ => OnlyDev.clustered

theorem keeps_groupCheck (p b : Nat) : (groupCheck p b).Keeps Clustered :=
  .get fun _ => .ite (.seq stable_clustered (.each stable_clustered (fun _ => keeps_setGbar _ _ _ _) _)
    (.seq stable_clustered (keeps_setGbar _ _ _ _) (keeps_completeBars _ _))) (.pure stable_clustered)

theorem keeps_barrierCheck (k b : Nat) : (barrierCheck k b).Keeps Clustered := by
  refine .get fun s => .ite (.pure stable_clustered) (.ite (keeps_updCluster _ _) (.ite (.pure stable_clustered) (.ite (keeps_completeBars _ _) ?_)))
  exact .ite (.seq stable_clustered (keeps_telling _ _ _) (.seq stable_clustered (keeps_setGbar _ _ _ _) (keeps_groupCheck _ _)))
    (keeps_groupCheck _ _)

theorem keeps_applyChains (p : Nat) : (applyChains p).Keeps Clustered := by
  refine .get fun s => .each stable_clustered (fun b => ?_) _
  have checks := M.Keeps.each stable_clustered (keeps_barrierCheck · b) (s.nodeClusters p)
  refine .get fun s => .seq stable_clustered (.each stable_clustered (fun _ => keeps_updCluster _ _) _) (.get fun t => ?_)
  exact .ite (.seq stable_clustered (keeps_telling _ _ _) checks) (.ite (.seq stable_clustered (keeps_telling _ _ _)
    (.seq stable_clustered (.each stable_clustered (fun _ => keeps_setGbar _ _ _ _) _) checks)) checks)

/-! ### Superstep boundaries (R28, R46, R47) -/

/-- The cores of a partition are listed once each. -/
theorem State.nodup_nodeCores (s : State) (p : Nat) : (s.nodeCores p).Nodup := by
  have hk : (s.nodeClusters p).Nodup := (List.nodup_range.map fun a b h => Nat.add_left_cancel h).filter _
  refine List.nodup_flatMap.2 ⟨fun k _ => by simp, hk.imp fun {a b} h => ?_⟩
  simp only [Function.onFun, List.disjoint_left, List.mem_cons, List.not_mem_nil, or_false]
  omega

/-- What comes after the boundary itself: completion, the saving of a partition that drains, or the next superstep. -/
def boundaryEnd (p : Nat) (s : State) : M Unit :=
  if s.complete p then do
    setPartM p Part.unbound
    freeIdlePorts
  else if (s.part p).st == .draining then savePart p
  else do
    setPartM p fun q => { q with held := [] }
    let s' ← get
    each (placeHeld (s'.tabOf (.eng (10000 + p)) p)) (s.part p).held
    forget (.eng (10000 + p))

/-- The superstep number of a core advances. -/
def Core.nextStep (k : Core) : Core := k.csrBump cSSNUM (k.csrGet cSSNUM + 1)

/-- A partition's interval ends, and its superstep is disarmed. -/
def Part.nextStep (q : Part) : Part := { q with intv := q.intv + 1, armed := false, wd := 0 }

theorem exec_superstepBoundary_eq (p : Nat) (s : State) : exec (.superstepBoundary p) s =
    event (if !s.liveP p || !(s.boundary p || s.complete p) then stall
      else if s.boundary p then boundaryStep p >>= fun _ => boundaryEnd p s else boundaryEnd p s) s := rfl

section
variable {p : Nat} {s : State}

theorem superstepBoundary_waits (h : s.liveP p = false ∨ (s.boundary p = false ∧ s.complete p = false)) :
    exec (.superstepBoundary p) s = .next s := by
  rw [exec_superstepBoundary_eq, if_pos]
  · rfl
  · rcases h with h | ⟨h, h'⟩
    · rw [h]
      rfl
    · rw [h, h', Bool.or_false, Bool.not_false, Bool.or_true]

theorem exec_superstepBoundary {t u : State} (hl : s.liveP p = true) (hb : s.boundary p = true) (ht : (boundaryStep p).leads s t ())
    (hu : (boundaryEnd p s).leads t u ()) : exec (.superstepBoundary p) s = .next u := by
  rw [exec_superstepBoundary_eq, if_neg (by simp [hl, hb]), if_pos hb]
  exact (M.leads_bind ht hu).event_eq

theorem exec_superstepBoundary_complete {u : State} (hl : s.liveP p = true) (hb : s.boundary p = false) (hc : s.complete p = true)
    (hu : (boundaryEnd p s).leads s u ()) : exec (.superstepBoundary p) s = .next u := by
  rw [exec_superstepBoundary_eq, if_neg (by simp [hl, hc]), if_neg (by simp [hb])]
  exact hu.event_eq

/-- What a boundary does whatever follows it. -/
theorem leads_boundaryStep (hp : (s.part? p).isSome = true) : ∃ t, (boundaryStep p).leads s t () ∧ t.part p = (s.part p).nextStep ∧
    (t.part? p).isSome = true ∧ t.ctxs = s.ctxs ∧ ∀ c ∈ s.nodeCores p, (t.core c).csrGet cSSNUM = (s.core c).csrGet cSSNUM + 1 := by
  set u := (s.nodeCores p).foldl (fun t c => (Upd.core c Core.nextStep).apply t) s with hu
  have keeps {β : Type} (π : State → β) (h : ∀ k t, π ((Upd.core k Core.nextStep).apply t) = π t) : π u = π s :=
    foldl_keeps (fun k => Upd.core k Core.nextStep) π h (s.nodeCores p) s
  have hup : (u.part? p).isSome = true := (congrArg Option.isSome (keeps (·.part? p) fun _ _ => rfl)).trans hp
  obtain ⟨k, d, e⟩ := (keeps_applyChains p).rel (u.setPart p Part.nextStep)
  refine ⟨(u.setPart p Part.nextStep).ran (applyChains p),
    M.leads_get_bind (M.leads_bind (M.leads_each_upd _ _ s) (M.leads_upd_bind ((keeps_applyChains p).leads _))), ?_⟩
  rw [e]
  refine ⟨(State.part_setPart_self hup _).trans (congrArg Part.nextStep (keeps (·.part p) fun _ _ => rfl)),
    (State.partOpt_setPart_isSome _ _).trans hup, keeps State.ctxs fun _ _ => rfl, fun c hc => ?_⟩
  have hcore : u.core c = (s.core c).nextStep := by
    rw [hu, foldl_core, List.count_eq_one_of_mem (s.nodup_nodeCores p) hc]
    rfl
  change (u.core c).csrGet cSSNUM = _
  rw [hcore]
  exact SMap.get_set_self ..

end

/-! ### What follows a boundary (R24, R28, R47) -/

/-- Caches have been written back: partitions and core CSRs stand. -/
structure Saved (s t : State) : Prop where
  parts : t.parts = s.parts
  csr : ∀ c, (t.core c).csr = (s.core c).csr

theorem stable_saved : Stable Saved where
  refl _ := ⟨rfl, fun _ => rfl⟩
  trans h k := ⟨k.parts.trans h.parts, fun c => (k.csr c).trans (h.csr c)⟩

theorem Flushed.saved {s t : State} (h : Flushed s t) : Saved s t where
  parts := h.parts
  csr c := by
    obtain ⟨a, b, -, -, e⟩ := h.cores c
    rw [e]

theorem keeps_saveCore (c : Nat) :
    (do flushLines c (fun _ => true) true; upd (.core c fun k => { k with fresh := 0 }) : M Unit).Keeps Saved := by
  refine .seq stable_saved ((keeps_flushLines c _ true).mono fun _ _ => Flushed.saved) (.upd fun s => ⟨rfl, fun k => ?_⟩)
  rw [State.core_upd_core]
  split <;> rfl

/-- A partition of which nothing is bound or left to run but what it saves. -/
def Part.saved (q : Part) : Part := { q with st := .saved }

/-- A partition that goes on into its next superstep, its HELD records released. -/
def Part.unheld (q : Part) : Part := { q with held := [] }

section
variable {p : Nat} {s : State}

theorem leads_boundaryEnd_complete (hc : s.complete p = true) (t : State) :
    (boundaryEnd p s).leads t ((t.setPart p Part.unbound).ran freeIdlePorts) () := by
  unfold boundaryEnd
  rw [if_pos hc]
  exact M.leads_upd_bind (keeps_freeIdlePorts.leads _)

theorem leads_boundaryEnd_draining (hc : s.complete p = false) (hs : (s.part p).st = .draining) (t : State) :
    ∃ u, Saved t u ∧ (boundaryEnd p s).leads t (u.setPart p Part.saved) () := by
  have k := M.Keeps.each stable_saved keeps_saveCore (t.nodeCores p)
  refine ⟨_, k.rel t, ?_⟩
  unfold boundaryEnd
  rw [if_neg (by simp [hc]), if_pos (by rw [hs]; rfl)]
  exact M.leads_get_bind (M.leads_bind (k.leads t) (M.leads_upd _ _))

theorem leads_boundaryEnd_running (hc : s.complete p = false) (hs : (s.part p).st = .running) (hh : (s.part p).held = []) (t : State) :
    ∃ u, OnlyDev (t.setPart p Part.unheld) u ∧ (boundaryEnd p s).leads t u () := by
  refine ⟨_, (onlyDev_dev fun d => { d.forget (· == .eng (10000 + p)) with ord := 0 }).rel _, ?_⟩
  unfold boundaryEnd
  rw [if_neg (by simp [hc]), if_neg (by rw [hs]; decide), hh]
  exact M.leads_upd_bind (M.leads_get_bind (M.leads_bind (M.leads_pure () _) (M.leads_upd _ _)))

end

/-- A partition that a boundary has advanced: its interval, its superstep number, its arming. -/
def State.advanced (s t : State) (p : Nat) : Prop :=
  (t.part p).intv = (s.part p).intv + 1 ∧ (t.part p).armed = false ∧
    ∀ c ∈ s.nodeCores p, (t.core c).csrGet cSSNUM = (s.core c).csrGet cSSNUM + 1

section
variable {p : Nat} {s : State} (hp : (s.part? p).isSome = true) (hl : s.liveP p = true)
include hp hl

theorem boundary_completes (hc : s.complete p = true) : ∃ t, exec (.superstepBoundary p) s = .next t ∧
    (t.part p).st = .idle ∧ (t.part p).pool = [] ∧ (t.part p).armed = false ∧ (s.boundary p = true → s.advanced t p) := by
  cases hb : s.boundary p with
  | false =>
    refine ⟨_, exec_superstepBoundary_complete hl hb hc (leads_boundaryEnd_complete hc s), ?_⟩
    obtain ⟨q, d, e⟩ := keeps_freeIdlePorts.rel (s.setPart p Part.unbound)
    have h : ((s.setPart p Part.unbound).ran freeIdlePorts).part p = (s.part p).unbound := by
      rw [e]
      exact State.part_setPart_self hp _
    rw [h]
    exact ⟨rfl, rfl, rfl, fun h => nomatch h⟩
  | true =>
    obtain ⟨u, hu, hq, hup, -, hn⟩ := leads_boundaryStep hp
    refine ⟨_, exec_superstepBoundary hl hb hu (leads_boundaryEnd_complete hc u), ?_⟩
    obtain ⟨q, d, e⟩ := keeps_freeIdlePorts.rel (u.setPart p Part.unbound)
    have h : ((u.setPart p Part.unbound).ran freeIdlePorts).part p = (s.part p).nextStep.unbound := by
      rw [e, ← hq]
      exact State.part_setPart_self hup _
    rw [State.advanced, h]
    refine ⟨rfl, rfl, rfl, fun _ => ⟨rfl, rfl, ?_⟩⟩
    rw [e]
    exact hn

theorem boundary_saves (hc : s.complete p = false) (hb : s.boundary p = true) (hs : (s.part p).st = .draining) :
    ∃ t, exec (.superstepBoundary p) s = .next t ∧ (t.part p).st = .saved ∧ s.advanced t p := by
  obtain ⟨u, hu, hq, hup, -, hn⟩ := leads_boundaryStep hp
  obtain ⟨w, hw, he⟩ := leads_boundaryEnd_draining hc hs u
  have hwp : (w.part? p).isSome = true := by
    unfold State.part?
    rwa [hw.parts]
  have h : (w.setPart p Part.saved).part p = (s.part p).nextStep.saved := by
    have : w.part p = u.part p := by
      unfold State.part
      rw [hw.parts]
    rw [State.part_setPart_self hwp, this, hq]
  refine ⟨_, exec_superstepBoundary hl hb hu he, ?_⟩
  rw [State.advanced, h]
  refine ⟨rfl, rfl, rfl, fun c hc => Eq.trans ?_ (hn c hc)⟩
  change (w.core c).csrGet cSSNUM = _
  unfold Core.csrGet
  rw [hw.csr]

theorem boundary_advances (hc : s.complete p = false) (hb : s.boundary p = true) (hs : (s.part p).st = .running) (hh : (s.part p).held = []) :
    ∃ t, exec (.superstepBoundary p) s = .next t ∧ (t.part p).st = .running ∧ s.advanced t p ∧ ∀ k, t.ctx k = s.ctx k := by
  obtain ⟨u, hu, hq, hup, hx, hn⟩ := leads_boundaryStep hp
  obtain ⟨v, ⟨d, rfl⟩, he⟩ := leads_boundaryEnd_running hc hs hh u
  refine ⟨_, exec_superstepBoundary hl hb hu he, ?_⟩
  have h : (u.setPart p Part.unheld).part p = (s.part p).nextStep.unheld := by rw [State.part_setPart_self hup, hq]
  change ((u.setPart p Part.unheld).part p).st = _ ∧ s.advanced (u.setPart p Part.unheld) p ∧ ∀ k, u.ctx k = _
  rw [State.advanced, h]
  refine ⟨hs, ⟨rfl, rfl, hn⟩, fun k => ?_⟩
  unfold State.ctx
  rw [hx]

end

/-! ### Quiescence (R48, R135, R369) -/

theorem event_get (f : State → M Unit) (s : State) : event (get >>= f) s = event (f s) s := rfl

/-- A node that a change of one partition has changed, or has not. -/
theorem State.part_setPart (s : State) (p q : Nat) (f : Part → Part) :
    (s.setPart p f).part q = s.part q ∨ (s.setPart p f).part q = f (s.part q) := by
  by_cases e : q = p
  · subst e
    cases h : (s.part? q).isSome with
    | true => exact .inr (State.part_setPart_self h f)
    | false =>
      rw [Option.isSome_eq_false_iff, Option.isNone_iff_eq_none] at h
      exact .inl (by simp [State.part_eq, State.partOpt_setPart, h])
  · exact .inl (State.part_setPart_ne e f)

/-- The first byte of a message is its kind (R358). -/
theorem Mail.kind_byte (m : Mail) : (m.bytes.getD 0 0).toNat = m.kind.code := by
  have hk : m.kind.code < 256 := by cases m.kind <;> decide
  rw [Mail.bytes, leBytes, List.getD_cons_zero, BitVec.toNat_ofNat]
  omega

/-- Some partitions have been reported as DEADLOCKED, and some messages posted. -/
structure Reported (s t : State) : Prop where
  mem : t.mem = s.mem
  isSome : ∀ q, (t.part? q).isSome = (s.part? q).isSome
  dead : ∀ q, (s.part q).dead = true → (t.part q).dead = true
  mail : ∀ q, ∀ m ∈ (s.part q).mbq, m ∈ (t.part q).mbq

theorem stable_reported : Stable Reported where
  refl _ := ⟨rfl, fun _ => rfl, fun _ => id, fun _ _ => id⟩
  trans h k := ⟨k.mem.trans h.mem, fun q => (k.isSome q).trans (h.isSome q), fun q => k.dead q ∘ h.dead q, fun q m => k.mail q m ∘ h.mail q m⟩

/-- A partition changed without taking back its report or a message. -/
theorem reported_setPart (p : Nat) {f : Part → Part} (hd : ∀ q : Part, q.dead = true → (f q).dead = true)
    (hm : ∀ q : Part, ∀ m ∈ q.mbq, m ∈ (f q).mbq) (s : State) : Reported s (s.setPart p f) := by
  refine ⟨rfl, fun q => State.partOpt_setPart_isSome q f, fun q h => ?_, fun q m h => ?_⟩
  · rcases State.part_setPart s p q f with e | e <;> rw [e]
    · exact h
    · exact hd _ h
  · rcases State.part_setPart s p q f with e | e <;> rw [e]
    · exact h
    · exact hm _ m h

/-- A partition with a message posted, and one reported as DEADLOCKED. -/
def Part.posted (m : Msg) (q : Part) : Part := { q with mbq := q.mbq ++ [m] }
def Part.deadlocked (q : Part) : Part := { q with dead := true }

theorem leads_tellNobody (p core : Nat) (m : Mail) (s : State) :
    (tellNobody p core m).leads s (s.setPart p (Part.posted ⟨m.bytes, s.nobody core, []⟩)) () :=
  M.leads_get_bind (M.leads_upd (.part p (Part.posted ⟨m.bytes, s.nobody core, []⟩)) s)

theorem leads_tellDeadlock (ps : List Nat) (reason port q : Nat) (s : State) :
    ∃ m : Msg, (m.payload.getD 0 0).toNat = 5 ∧ (tellDeadlock ps reason port q).leads s (s.setPart q (Part.posted m)) () := by
  refine ⟨⟨Mail.bytes _, _, []⟩, ?_, M.leads_get_bind (leads_tellNobody q _ _ s)⟩
  exact Mail.kind_byte _

/-- The report of one partition. -/
def reportDead (ps : List Nat) (reason port q : Nat) : M Unit := do
  tellDeadlock ps reason port q
  setPartM q Part.deadlocked

theorem leads_reportDead (ps : List Nat) (reason port q : Nat) (s : State) : ∃ m : Msg, (m.payload.getD 0 0).toNat = 5 ∧
    (reportDead ps reason port q).leads s ((s.setPart q (Part.posted m)).setPart q Part.deadlocked) () := by
  obtain ⟨m, hm, h⟩ := leads_tellDeadlock ps reason port q s
  exact ⟨m, hm, M.leads_bind h (M.leads_upd _ _)⟩

theorem keeps_reportDead (ps : List Nat) (reason port q : Nat) : (reportDead ps reason port q).Keeps Reported := by
  intro s
  obtain ⟨m, -, h⟩ := leads_reportDead ps reason port q s
  rw [h.ran_eq]
  refine ⟨h, stable_reported.trans (reported_setPart q (f := Part.posted m) (fun _ => id) (fun _ _ => List.mem_append_left _) s)
    (reported_setPart q (f := Part.deadlocked) (fun _ _ => rfl) (fun _ _ => id) _)⟩

/-- What one report leaves. -/
theorem reportDead_reports {s : State} {q : Nat} (hq : (s.part? q).isSome = true) (ps : List Nat) (reason port : Nat) :
    let t := s.ran (reportDead ps reason port q)
    (t.part q).dead = true ∧ ∃ m ∈ (t.part q).mbq, (m.payload.getD 0 0).toNat = 5 := by
  obtain ⟨m, hm, h⟩ := leads_reportDead ps reason port q s
  intro t
  rw [show t = _ from h.ran_eq, State.part_setPart_self (by rwa [State.partOpt_setPart_isSome]), State.part_setPart_self hq]
  exact ⟨rfl, m, List.mem_append_right _ (List.mem_singleton_self m), hm⟩

section
variable {p : Nat} {s : State}

theorem quiescence_waits (h : s.quiescent (s.couplingSet p) = false ∨ ∃ q ∈ s.couplingSet p, (s.part q).dead = true) :
    exec (.quiescenceDetected p) s = .next s := by
  refine (event_get _ s).trans ?_
  dsimp only
  rw [if_pos]
  · rfl
  · simpa using h

variable (hq : s.quiescent (s.couplingSet p) = true) (hd : ∀ q ∈ s.couplingSet p, (s.part q).dead = false)
include hq hd

theorem quiescence_reports {reason port : Nat} (hr : s.resolve (s.couplingSet p) = .dead reason port) :
    ∃ t, exec (.quiescenceDetected p) s = .next t ∧ t.mem = s.mem ∧ ∀ q ∈ s.couplingSet p, (s.part? q).isSome = true →
      (t.part q).dead = true ∧ ∃ m ∈ (t.part q).mbq, (m.payload.getD 0 0).toNat = 5 := by
  have k := M.Keeps.each stable_reported (keeps_reportDead (s.couplingSet p) reason port) (s.couplingSet p)
  refine ⟨s.ran (each (reportDead (s.couplingSet p) reason port) (s.couplingSet p)), ?_, (k.rel s).mem, ?_⟩
  · refine M.leads.event_eq (M.leads_get_bind ?_)
    dsimp only
    rw [if_neg (by simpa [hq] using hd), hr]
    exact k.leads s
  · intro q hq hs
    refine M.Keeps.each_establishes stable_reported (keeps_reportDead _ reason port)
      (Q := fun q t => (t.part? q).isSome = true → (t.part q).dead = true ∧ ∃ m ∈ (t.part q).mbq, (m.payload.getD 0 0).toNat = 5)
      (fun q t u h ht hu => ?_) _ s (fun q _ t _ ht => reportDead_reports ?_ _ reason port) q hq (((k.rel s).isSome q).trans hs)
    · obtain ⟨hd, m, hm, h5⟩ := ht ((h.isSome q).symm.trans hu)
      exact ⟨h.dead q hd, m, h.mail q m hm, h5⟩
    · exact (((keeps_reportDead _ reason port q).rel t).isSome q).symm.trans ht

theorem quiescence_seeds {n : Nat} {q : PortLd} (hr : s.resolve (s.couplingSet p) = .seed n) (hl : (s.port n).ld = some q)
    (ha : q.asked = none) (hs : s.seeding (pTEN q.img) = false) {t : State} (hf : s.seedFar q = false) (ht : (publishSeed n q).leads s t ()) :
    exec (.quiescenceDetected p) s = .next t := by
  refine M.leads.event_eq (M.leads_get_bind ?_)
  dsimp only
  rw [if_neg (by simpa [hq] using hd), hr]
  dsimp only
  rw [hl]
  dsimp only
  rw [if_neg (by simp [ha, hs]), if_neg (by simp [hf])]
  exact ht

theorem quiescence_copies {n : Nat} {q : PortLd} (hr : s.resolve (s.couplingSet p) = .seed n) (hl : (s.port n).ld = some q)
    (ha : q.asked = none) (hs : s.seeding (pTEN q.img) = false) (hf : s.seedFar q = true) :
    exec (.quiescenceDetected p) s = .next (s.withLoaded n { q with seeding := true }) := by
  refine (M.leads.event_eq (t := (Upd.port n fun x => { x with ld := x.ld.map fun q => { q with seeding := true } }).apply s)
    (M.leads_get_bind ?_)).trans ?_
  · dsimp only
    rw [if_neg (by simpa [hq] using hd), hr]
    dsimp only
    rw [hl]
    dsimp only
    rw [if_neg (by simp [ha, hs]), if_pos hf]
    exact M.leads_upd _ _
  · simp [Upd.apply, State.withLoaded, hl]

theorem quiescence_seeding {n : Nat} {q : PortLd} (hr : s.resolve (s.couplingSet p) = .seed n) (hl : (s.port n).ld = some q)
    (hs : s.seeding (pTEN q.img) = true) : exec (.quiescenceDetected p) s = .next s := by
  refine (event_get _ s).trans ?_
  dsimp only
  rw [if_neg (by simpa [hq] using hd), hr]
  dsimp only
  rw [hl]
  dsimp only
  rw [if_pos (by simp [hs])]
  rfl

end

/-- Settles O40: a boundary ends as what follows it does, and a quiescent set as its resolution says. -/
theorem boundariesAndQuiescence : Obligations.BoundariesAndQuiescence := by
  unfold Obligations.BoundariesAndQuiescence
  refine ⟨fun p s => ⟨superstepBoundary_waits, boundary_completes, fun hp hl hc hb => ⟨boundary_saves hp hl hc hb,
    boundary_advances hp hl hc hb⟩⟩, fun p s => ⟨quiescence_waits, fun hq hd => ⟨fun reason port hr => quiescence_reports hq hd hr,
    fun n q hr hl ha hs => ⟨fun t hf ht => quiescence_seeds hq hd hr hl ha hs hf ht, fun hf => quiescence_copies hq hd hr hl ha hs hf⟩,
    fun n q hr hl hs => quiescence_seeding hq hd hr hl hs⟩⟩⟩

end Sys2Proof.Machine
end

section
/-!
SUPPORT. Dispatch and interrupts (R31, R43, R147 to R150, R204, R387): the start of a task, the record that a dispatcher takes, and what trap entry
leaves in the control context.
-/

namespace Sys2Proof.Machine

open M

/-! ### The start of a task (R31, R137, R270) -/

namespace SMap

theorem find_eq_none {α : Type} {m : SMap α} {k : Nat} (h : k ∉ m.map Prod.fst) : find m k = none := by
  induction m with
  | nil => rfl
  | cons e m ih =>
    obtain ⟨j, v⟩ := e
    rw [List.map_cons, List.mem_cons, not_or] at h
    rw [find, if_neg (Ne.symm h.1), ih h.2]

/-- Entries equal to the default list nothing, when no key is listed twice. -/
theorem get_filter_ne {α : Type} [DecidableEq α] (d : α) (m : SMap α) (h : (m.map Prod.fst).Nodup) (k : Nat) :
    get (fun _ => d) (m.filter fun e => e.2 != d) k = get (fun _ => d) m k := by
  induction m with
  | nil => rfl
  | cons e m ih =>
    obtain ⟨j, v⟩ := e
    obtain ⟨hj, hm⟩ := List.nodup_cons.1 h
    by_cases hv : v = d
    · rw [List.filter_cons_of_neg (by simp [hv]), ih hm, get]
      split
      · next e =>
        rw [get_eq_find, find_eq_none (e ▸ hj), Option.getD_none, hv]
      · rfl
    · rw [List.filter_cons_of_pos (by simpa using hv), get, get, ih hm]

end SMap

/-- The operands of a task, by register. -/
def taskRegs (r : Nat) : List (Nat × Word) :=
  [(1, BitVec.ofNat 64 (rcData r)), (2, BitVec.ofNat 64 (rcArg r 0)), (3, BitVec.ofNat 64 (rcArg r 1)), (4, BitVec.ofNat 64 (rcArg r 2)),
    (5, BitVec.ofNat 64 (rcArg r 3)), (6, BitVec.ofNat 64 (rcPnode r + 2048 * rcTen r))]

namespace Ctx

theorem rd_start (vent : Bool) (r : Nat) (c : Ctx) {x : XReg} (hx : x ≠ 0) :
    (c.start vent r).rd x = SMap.get (fun _ => 0) (taskRegs r) x.toNat := by
  rw [rd, if_neg hx]
  exact SMap.get_filter_ne 0 (taskRegs r) (by simp [taskRegs]) _

/-- The operands of a record in X1 to X6, and zero in every register above. -/
theorem start_operands (vent : Bool) (r : Nat) (c : Ctx) :
    ((c.start vent r).rd 1, (c.start vent r).rd 6) = (BitVec.ofNat 64 (rcData r), BitVec.ofNat 64 (rcPnode r + 2048 * rcTen r)) ∧
    (∀ k, k < 4 → (c.start vent r).rd (BitVec.ofNat 5 (k + 2)) = BitVec.ofNat 64 (rcArg r k)) ∧
    ∀ x : XReg, 7 ≤ x.toNat → (c.start vent r).rd x = 0 := by
  refine ⟨?_, fun k hk => ?_, fun x hx => ?_⟩
  · rw [rd_start vent r c (by decide), rd_start vent r c (by decide)]
    rfl
  · have h : k = 0 ∨ k = 1 ∨ k = 2 ∨ k = 3 := by omega
    rcases h with rfl | rfl | rfl | rfl <;> exact rd_start vent r c (by decide)
  · rw [rd_start vent r c (by rintro rfl; simp at hx)]
    simp only [taskRegs, SMap.get]
    simp only [show 1 ≠ x.toNat by omega, show 2 ≠ x.toNat by omega, show 3 ≠ x.toNat by omega, show 4 ≠ x.toNat by omega,
      show 5 ≠ x.toNat by omega, show 6 ≠ x.toNat by omega, if_false]

theorem start_csrs (vent : Bool) (r : Nat) (c : Ctx) : (c.start vent r).csrGet vent cFFLAGS = 0 ∧ (c.start vent r).csrGet vent cFRM = 0 ∧
    (c.start vent r).csrGet vent cVL = 0 := by
  change (((c.csrSet vent cFFLAGS 0).csrSet vent cFRM 0).csrSet vent cVL 0).csrGet vent cFFLAGS = 0 ∧
    (((c.csrSet vent cFFLAGS 0).csrSet vent cFRM 0).csrSet vent cVL 0).csrGet vent cFRM = 0 ∧
    (((c.csrSet vent cFFLAGS 0).csrSet vent cFRM 0).csrSet vent cVL 0).csrGet vent cVL = 0
  refine ⟨?_, ?_, csrGet_csrSet_self ..⟩
  · rw [csrGet_csrSet_ne _ _ _ (by decide : cFFLAGS ≠ cVL), csrGet_csrSet_ne _ _ _ (by decide : cFFLAGS ≠ cFRM), csrGet_csrSet_self]
  · rw [csrGet_csrSet_ne _ _ _ (by decide : cFRM ≠ cVL), csrGet_csrSet_self]

end Ctx

/-- A slot taken out of the pool of a partition. -/
def Part.freed (j : Nat) (q : Part) : Part := { q with pool := nsErase q.pool j }

theorem State.pool_freed (s : State) (p j : Nat) : ((s.setPart p (Part.freed j)).part p).pool = nsErase (s.part p).pool j := by
  cases h : (s.part? p).isSome with
  | true => rw [State.part_setPart_self h, Part.freed]
  | false =>
    rw [Option.isSome_eq_false_iff, Option.isNone_iff_eq_none] at h
    simp [State.part_eq, State.partOpt_setPart, h, Part.reset, nsErase]

/-- The core of a task that starts: its numbers, its task, its address space. -/
def Core.begin (core tid t : Nat) (q : DqRec) (c : Core) : Core :=
  { (c.csrSet cTASKID (BitVec.ofNat 64 tid)).csrSet cTRC 0 with
    task := some ⟨t, q.pnode, q.cls, isVent core⟩, asid := if isVent core then none else some (t, q.pnode) }

/-- A state in which the task of a record has begun on a core, from one in which the record's slot is free. -/
def State.begun (w : State) (core tid t : Nat) (q : DqRec) (r : Nat) : State :=
  (Upd.ctx (ctxId core 0) (Ctx.start (isVent core) r)).apply ((Upd.core core (Core.begin core tid t q)).apply w)

/-- The end of the start of a task. -/
def beginTask (core tid t : Nat) (q : DqRec) (r : Nat) : M Unit := do
  upd (.core core (Core.begin core tid t q))
  upd (.ctx (ctxId core 0) (Ctx.start (isVent core) r))

theorem leads_beginTask (core tid t : Nat) (q : DqRec) (r : Nat) (w : State) : (beginTask core tid t q r).leads w (w.begun core tid t q r) () :=
  M.leads_upd_bind (M.leads_upd _ _)

/-- A core that takes a readable record frees its slot, may give its lines up, and begins the task. -/
theorem leads_startTask {core r : Nat} {q : DqRec} {s : State}
    (h : (readSlot { s.tabOf (.eng core) q.pnode with core := core } q.slot).leads s s (r, false)) :
    ∃ w tid, Flushed (s.setPart q.pnode (Part.freed q.slot)) w ∧
      (startTask core q).leads s (w.begun core tid (((s.part q.pnode).ten).getD 0) q r) () := by
  set v := (Upd.dev fun d => { d with freeIx := d.freeIx + 1 }).apply (s.setPart q.pnode (Part.freed q.slot)) with hv
  obtain ⟨tid, start⟩ : ∃ tid, ∀ t, (if (v.core core).asid.any fun a => a != (((s.part q.pnode).ten).getD 0, q.pnode)
      then flushLines core (fun _ => true) true >>= fun _ => beginTask core tid (((s.part q.pnode).ten).getD 0) q r
      else beginTask core tid (((s.part q.pnode).ten).getD 0) q r).leads v t () → (startTask core q).leads s t () :=
    ⟨_, fun t ht => M.leads_get_bind (M.leads_bind h (M.leads_upd_bind (M.leads_bind
      (M.leads_get_bind (M.leads_upd_bind (M.leads_pure _ _))) (M.leads_get_bind ht))))⟩
  have freed : Flushed (s.setPart q.pnode (Part.freed q.slot)) v := .same_cores rfl rfl rfl rfl rfl rfl rfl
  have k := keeps_flushLines core (fun _ => true) true
  by_cases ha : ((v.core core).asid.any fun a => a != (((s.part q.pnode).ten).getD 0, q.pnode)) = true
  · refine ⟨v.ran (flushLines core (fun _ => true) true), tid, stable_flushed.trans freed (k.rel v), start _ ?_⟩
    rw [if_pos ha]
    exact M.leads_bind (k.leads v) (leads_beginTask _ _ _ _ _ _)
  · refine ⟨v, tid, freed, start _ ?_⟩
    rw [if_neg ha]
    exact leads_beginTask _ _ _ _ _ _

/-- A record in a poisoned slot is retired unrun: its slot is free, and the failure is reported. -/
theorem leads_startTask_poisoned {core r : Nat} {q : DqRec} {s : State}
    (h : (readSlot { s.tabOf (.eng core) q.pnode with core := core } q.slot).leads s s (r, true)) :
    ∃ m : Msg, (startTask core q).leads s ((s.setPart q.pnode (Part.freed q.slot)).setPart q.pnode (Part.posted m)) () :=
  ⟨_, M.leads_get_bind (M.leads_bind h (M.leads_upd_bind (leads_tellNobody _ _ _ _)))⟩

theorem Flushed.deque {s t : State} (h : Flushed s t) (c : Nat) : (t.core c).deque = (s.core c).deque := by
  obtain ⟨a, b, -, -, e⟩ := h.cores c
  rw [e]

theorem Flushed.part {s t : State} (h : Flushed s t) (p : Nat) : t.part p = s.part p := by
  unfold State.part
  rw [h.parts]

/-- The task has started, and every deque stands. -/
theorem State.started_begun {s w : State} {core tid r : Nat} {q : DqRec} (h : Flushed (s.setPart q.pnode (Part.freed q.slot)) w) :
    let t := w.begun core tid (((s.part q.pnode).ten).getD 0) q r
    s.started t core q r ∧ ∀ v, (t.core v).deque = (s.core v).deque := by
  intro t
  have hcore (v : Nat) : t.core v = if v = core then (w.core v).begin core tid (((s.part q.pnode).ten).getD 0) q else w.core v :=
    State.core_upd_core ..
  have hctx : t.ctx (ctxId core 0) = (w.ctx (ctxId core 0)).start (isVent core) r :=
    (State.ctx_upd_ctx ..).trans (if_pos rfl)
  have hpart : t.part q.pnode = (s.setPart q.pnode (Part.freed q.slot)).part q.pnode := h.part _
  obtain ⟨h16, hargs, hzero⟩ := Ctx.start_operands (isVent core) r (w.ctx (ctxId core 0))
  obtain ⟨hflags, hfrm, hvl⟩ := Ctx.start_csrs (isVent core) r (w.ctx (ctxId core 0))
  refine ⟨?_, fun v => ?_⟩
  · rw [State.started, hctx, hpart, hcore, if_pos rfl]
    exact ⟨rfl, Core.csrGet_csrSet_self ((w.core core).csrSet cTASKID (BitVec.ofNat 64 tid)) cTRC 0, State.pool_freed ..,
      rfl, rfl, rfl, rfl, rfl, h16, hargs, hzero, hflags, hfrm, hvl⟩
  · rw [hcore]
    split
    · exact h.deque v
    · exact h.deque v

/-! ### Dispatch (R147 to R150, R387) -/

/-- A record taken from the deque of a core. -/
def State.dequeued (s : State) (v : Nat) (q : DqRec) : State :=
  s.setCore v { s.core v with deque := (s.core v).deque.filter fun x => x ≠ q }

theorem State.dequeued_eq (s : State) (v : Nat) (q : DqRec) :
    (Upd.core v fun c => { c with deque := c.deque.filter fun x => x != q }).apply s = s.dequeued v q := by
  have e : (fun x : DqRec => x != q) = fun x => decide (x ≠ q) := funext fun x => by rw [Bool.eq_iff_iff, bne_iff_ne, decide_eq_true_eq]
  rw [e]
  rfl

theorem State.deque_dequeued (s : State) (v : Nat) (q : DqRec) : ∀ x ∈ ((s.dequeued v q).core v).deque, x ≠ q := by
  intro x hx
  rw [State.dequeued, State.core_setCore_self] at hx
  simpa using (List.mem_filter.1 hx).2

/-- A message posted takes no slot. -/
theorem State.pool_posted (s : State) (p : Nat) (m : Msg) : ((s.setPart p (Part.posted m)).part p).pool = (s.part p).pool := by
  rcases s.part_setPart p p (Part.posted m) with e | e <;> rw [e]
  rfl

/-- What a dispatcher reads of a record's slot. -/
def State.slotReads (s : State) (core : Nat) (q : DqRec) (r : Nat) (bad : Bool) : Prop :=
  (readSlot { s.tabOf (.eng core) q.pnode with core := core } q.slot).leads s s (r, bad)

/-- A core takes a record from a deque, its own or another's. -/
def takeFrom (core v : Nat) (q : DqRec) : M Unit := do
  upd (.core v fun c => { c with deque := c.deque.filter fun x => x != q })
  startTask core q

section
variable {core v r : Nat} {q : DqRec} {s : State}

theorem takeFrom_starts (h : (s.dequeued v q).slotReads core q r false) :
    ∃ t, (takeFrom core v q).leads s t () ∧ s.started t core q r ∧ ∀ x ∈ (t.core v).deque, x ≠ q := by
  obtain ⟨w, tid, hw, hl⟩ := leads_startTask h
  obtain ⟨hs, hd⟩ := State.started_begun (core := core) (tid := tid) (r := r) hw
  refine ⟨_, M.leads_upd_bind ((State.dequeued_eq s v q).symm ▸ hl), hs, ?_⟩
  rw [hd]
  exact s.deque_dequeued v q

theorem takeFrom_retires (h : (s.dequeued core q).slotReads core q r true) (ht : (s.core core).task = none) :
    ∃ t, (takeFrom core core q).leads s t () ∧ (t.core core).task = none ∧
      (t.part q.pnode).pool = nsErase (s.part q.pnode).pool q.slot ∧ t.ctx (ctxId core 0) = s.ctx (ctxId core 0) := by
  obtain ⟨m, hl⟩ := leads_startTask_poisoned h
  refine ⟨((s.dequeued core q).setPart q.pnode (Part.freed q.slot)).setPart q.pnode (Part.posted m),
    M.leads_upd_bind ((State.dequeued_eq s core q).symm ▸ hl), ?_, ?_, rfl⟩
  · change ((s.dequeued core q).core core).task = none
    rw [State.dequeued, State.core_setCore_self]
    exact ht
  · rw [State.pool_posted]
    exact State.pool_freed ..

theorem dispatch_idle (h : s.dispatching core = false) : exec (.dispatch core) s = .next s := by
  refine (event_get _ s).trans ?_
  rw [if_pos (by simp [h])]
  rfl

section
variable (hd : s.dispatching core = true) (hr : (s.core core).csrGet cRESBYPASS &&& 0x10000 = 0)
include hd hr

theorem dispatch_takes (ho : ownerTakes (s.core core).deque = some q) : exec (.dispatch core) s = event (takeFrom core core q) s := by
  refine (event_get _ s).trans ?_
  rw [if_neg (by simp [hd]), if_neg (by rw [hr]; simp), ho]
  rfl

theorem dispatch_steals (ho : ownerTakes (s.core core).deque = none) (hv : s.steal core = some (v, q)) :
    exec (.dispatch core) s = event (takeFrom core v q) s := by
  refine (event_get _ s).trans ?_
  rw [if_neg (by simp [hd]), if_neg (by rw [hr]; simp), ho]
  dsimp only
  rw [hv]
  rfl

theorem dispatch_nothing (ho : ownerTakes (s.core core).deque = none) (hv : s.steal core = none) : exec (.dispatch core) s = .next s := by
  refine (event_get _ s).trans ?_
  rw [if_neg (by simp [hd]), if_neg (by rw [hr]; simp), ho]
  dsimp only
  rw [hv]
  rfl

end

theorem ventDispatch_takes (h : firstClass (fun k => oldestOf k ((s.core core).deque.filter s.mayRun)) = some q) (hv : isVent core = true)
    (hi : (s.ctx (ctxId core 0)).run = .idle) (ht : (s.core core).task = none) : exec (.ventDispatch core) s = event (takeFrom core core q) s := by
  refine (event_get _ s).trans ?_
  unfold State.mayRun at h
  dsimp only
  rw [h]
  dsimp only
  rw [if_neg (by simp [hv, hi, ht])]
  rfl

/-- A dispatcher that runs has no task. -/
theorem task_of_dispatching (h : s.dispatching core = true) : (s.core core).task = none := by
  simp only [State.dispatching, Bool.and_eq_true, Option.isNone_iff_eq_none] at h
  obtain ⟨⟨⟨⟨-, ht⟩, -⟩, -⟩, -⟩ := h
  exact ht

end

/-! ### Interrupts (R43, R204) -/

/-- Exposed loads land in registers alone. -/
theorem Ctx.landAll_csrGet (vent : Bool) (c : Ctx) (n : Nat) : c.landAll.csrGet vent n = c.csrGet vent n :=
  c.land_keeps _ (fun c => c.csrGet vent n) fun c r v => by rw [Ctx.csrGet, Ctx.csrGet, Ctx.wr_csr]

/-- The trap CSRs written, in the order of R42, on a context. -/
def Ctx.trapCsrs (i : TrapInfo) (c : Ctx) : Ctx :=
  ((((((c.overtaken.landAll.csrSet false cXSTAT (i.xstat c c.hasActed)).csrSet false cXRESUME c.pc).csrSet false cXPC2 c.q2).csrSet false cXPC1
    c.q1).csrSet false cXPC0 (i.xpc0.getD c.pc)).csrSet false cXVAL i.val).csrSet false cXCAUSE (i.code.setWidth 64 ||| (i.isrc.setWidth 64 <<< 8))

theorem Ctx.trap_csrGet (i : TrapInfo) (c : Ctx) (n : Nat) : (c.trap false i).csrGet false n = (c.trapCsrs i).csrGet false n := rfl

theorem Ctx.trap_pc (i : TrapInfo) (c : Ctx) : (c.trap false i).pc = c.csrGet false cXTVEC := by
  change (c.trapCsrs i).csrGet false cXTVEC = _
  have ne : ∀ n ∈ [cXSTAT, cXRESUME, cXPC2, cXPC1, cXPC0, cXVAL, cXCAUSE], cXTVEC ≠ n := by decide
  simp only [List.forall_mem_cons] at ne
  obtain ⟨h0, h1, h2, h3, h4, h5, h6, -⟩ := ne
  rw [trapCsrs, csrGet_csrSet_ne _ _ _ h6, csrGet_csrSet_ne _ _ _ h5, csrGet_csrSet_ne _ _ _ h4, csrGet_csrSet_ne _ _ _ h3,
    csrGet_csrSet_ne _ _ _ h2, csrGet_csrSet_ne _ _ _ h1, csrGet_csrSet_ne _ _ _ h0, landAll_csrGet]
  rfl

/-- What trap entry leaves in the CSRs of the cause and the queue. -/
theorem Ctx.trap_csrs (i : TrapInfo) (c : Ctx) :
    (c.trap false i).csrGet false cXCAUSE = (i.code.setWidth 64 ||| (i.isrc.setWidth 64 <<< 8)) ∧
    (c.trap false i).csrGet false cXPC0 = i.xpc0.getD c.pc ∧ (c.trap false i).csrGet false cXPC1 = c.q1 ∧
    (c.trap false i).csrGet false cXPC2 = c.q2 := by
  simp only [trap_csrGet, trapCsrs]
  refine ⟨csrGet_csrSet_self .., ?_, ?_, ?_⟩
  · rw [csrGet_csrSet_ne _ _ _ (by decide : cXPC0 ≠ cXCAUSE), csrGet_csrSet_ne _ _ _ (by decide : cXPC0 ≠ cXVAL), csrGet_csrSet_self]
  · rw [csrGet_csrSet_ne _ _ _ (by decide : cXPC1 ≠ cXCAUSE), csrGet_csrSet_ne _ _ _ (by decide : cXPC1 ≠ cXVAL),
      csrGet_csrSet_ne _ _ _ (by decide : cXPC1 ≠ cXPC0), csrGet_csrSet_self]
  · rw [csrGet_csrSet_ne _ _ _ (by decide : cXPC2 ≠ cXCAUSE), csrGet_csrSet_ne _ _ _ (by decide : cXPC2 ≠ cXVAL),
      csrGet_csrSet_ne _ _ _ (by decide : cXPC2 ≠ cXPC0), csrGet_csrSet_ne _ _ _ (by decide : cXPC2 ≠ cXPC1), csrGet_csrSet_self]

section
variable {core : Nat} {s : State}

theorem interrupt_waits (h : s.irqReady core = false) : exec (.interruptTaken core) s = .next s := by
  refine (event_get _ s).trans ?_
  dsimp only
  rw [h]
  cases s.irq core <;> rfl

/-- A core whose interrupt of a source has been taken. -/
def Core.served (n : BitVec 4) (k : Core) : Core := { k with sliceInt := k.sliceInt && n != 2, hostInt := k.hostInt && n != 3 }

theorem exec_interruptTaken {n : BitVec 4} (hi : s.irq core = some n) (hr : s.irqReady core = true) (hw : (s.core core).win = []) :
    exec (.interruptTaken core) s = .next ((Upd.core core (Core.served n)).apply ((Upd.dev (Dev.forget (· == .ctx (ctxId core 0)))).apply
      ((Upd.ctx (ctxId core 0) (Ctx.trap false { code := INTERRUPT, isrc := n, idle := (s.ctx (ctxId core 0)).run == .idle })).apply s))) := by
  refine M.leads.event_eq (M.leads_get_bind ?_)
  dsimp only
  rw [hi, hr]
  dsimp only
  rw [if_neg (by simp [Core.tilesPending, hw])]
  exact M.leads_upd_bind (M.leads_upd_bind (M.leads_upd _ _))

theorem interruptTaken_enters {n : BitVec 4} (hi : s.irq core = some n) (hr : s.irqReady core = true) (hw : (s.core core).win = []) :
    ∃ t, exec (.interruptTaken core) s = .next t ∧
      let c := t.ctx (ctxId core 0)
      let was := s.ctx (ctxId core 0)
      c.csrGet false cXCAUSE = (0x11 ||| (n.setWidth 64 <<< 8)) ∧ c.csrGet false cXPC0 = was.pc ∧ c.csrGet false cXPC1 = was.q1 ∧
      c.csrGet false cXPC2 = was.q2 ∧ c.sup = true ∧ c.run = .ready ∧ c.pc = was.csrGet false cXTVEC ∧ c.a1 = false ∧ c.a2 = false ∧
      (t.core core).sliceInt = ((s.core core).sliceInt && n ≠ 2) ∧ (t.core core).hostInt = ((s.core core).hostInt && n ≠ 3) ∧
      t.mem = s.mem ∧ ∀ k, k ≠ ctxId core 0 → t.ctx k = s.ctx k := by
  refine ⟨_, exec_interruptTaken hi hr hw, ?_⟩
  generalize ht : (Upd.core core (Core.served n)).apply _ = t
  set i : TrapInfo := { code := INTERRUPT, isrc := n, idle := (s.ctx (ctxId core 0)).run == .idle }
  have hctx (k : Nat) : t.ctx k = if k = ctxId core 0 then (s.ctx k).trap false i else s.ctx k := by
    rw [← ht]
    exact State.ctx_upd_ctx (ctxId core 0) (Ctx.trap false i) s k
  have hcore : t.core core = (s.core core).served n := by
    rw [← ht, State.core_upd_core, if_pos rfl]
    rfl
  obtain ⟨hcause, hpc0, hpc1, hpc2⟩ := (s.ctx (ctxId core 0)).trap_csrs i
  have ne (m : BitVec 4) : (n != m) = decide (n ≠ m) := by rw [Bool.eq_iff_iff, bne_iff_ne, decide_eq_true_eq]
  dsimp only
  rw [hctx, if_pos rfl, hcore]
  refine ⟨hcause, hpc0, hpc1, hpc2, rfl, rfl, Ctx.trap_pc .., rfl, rfl, ?_, ?_, ?_, fun k hk => (hctx k).trans (if_neg hk)⟩
  · rw [← ne]
    rfl
  · rw [← ne]
    rfl
  · rw [← ht]
    rfl

end

/-- Settles O39: a record taken from a deque starts its task or is retired, and an interrupt taken enters its handler. -/
theorem dispatchAndInterrupts : Obligations.DispatchAndInterrupts := by
  unfold Obligations.DispatchAndInterrupts
  refine ⟨fun core q r s => ⟨fun hd hr => ⟨fun ho => ⟨fun h => ?own, fun h => ?poisoned⟩, fun v ho hv _ h => ?steal,
      dispatch_nothing hd hr⟩, dispatch_idle, fun hf hv hi ht h => ?vent⟩, fun core n s => ⟨interruptTaken_enters, interrupt_waits⟩⟩
  case own =>
    obtain ⟨t, hl, ht⟩ := takeFrom_starts h
    exact ⟨t, (dispatch_takes hd hr ho).trans hl.event_eq, ht⟩
  case poisoned =>
    obtain ⟨t, hl, ht⟩ := takeFrom_retires h (task_of_dispatching hd)
    exact ⟨t, (dispatch_takes hd hr ho).trans hl.event_eq, ht⟩
  case steal =>
    obtain ⟨t, hl, ht⟩ := takeFrom_starts h
    exact ⟨t, (dispatch_steals hd hr ho hv).trans hl.event_eq, ht⟩
  case vent =>
    obtain ⟨t, hl, hs⟩ := takeFrom_starts h
    exact ⟨t, (ventDispatch_takes hf hv hi ht).trans hl.event_eq, hs⟩

end Sys2Proof.Machine
end

section
/-!
SUPPORT. Fetching an instruction (R93, R163, R361, R429): a fetch takes the cause of its first check that fails, and otherwise finds the four
bytes at the translated pc, in HBM that no cache holds.
-/

namespace Sys2Proof.Machine

open M

theorem routeMe_leads {s : State} {l va : Word} {x : Tgt} {v : Bool} (h : s.route s.myTen l va.toNat = .ok (x, v)) :
    (routeMe l va).leads s s ⟨va, x, l, v⟩ := by
  refine M.leads_get_bind ?_
  dsimp only
  rw [show s.tenOf (coreOf s.dev.cur) = s.myTen from rfl, h]
  exact M.leads_pure _ s

/-- An engine that is no port reads bytes of HBM that no cache holds. -/
theorem readTgt_hbm {who : Who} {core t va a n : Nat} {s : State} (hw : ∀ p, who ≠ .port p) (hl : ∀ k ∈ linesOf a n, s.holders k = [])
    (hp : s.poisoned a n = false) : (readTgt who core t va (.hbm a) false n).leads s s (.ok (s.peek a n)) := by
  refine M.leads_get_bind (M.leads_bind (t := s) (a := ()) ?_ (M.leads_bind (M.leads_each _ fun k hk => homeRead_none who k none (hl k hk)) ?_))
  · cases who with
    | port p => exact absurd rfl (hw p)
    | _ => exact M.leads_pure () s
  · refine M.leads_get_bind ?_
    have e : s.plain (Space.hbm.loc a) n false = some (s.peek a n) := by simp [State.plain, Space.loc, hp]
    rw [e]
    exact M.leads_pure _ s

/-- A fetch that has found a word: it stands in the device's fetch register, and what the fetch has asked is forgotten. -/
def State.foundWord (s : State) (w : IWord) : State :=
  { s with dev := { ({ s.dev with word := some w } : Dev).forget (· == fetchWho s.dev.cur) with ord := 0 } }

theorem fetchWord_hbm {s : State} {l : Word} {x : Nat} (ha : s.me.pc.toNat % 4 = 0) (hg : s.me.pc.toNat < 2 ^ 52)
    (hc : inCaldera s.me.pc.toNat = false) (hx : (xlate .fetch s.me.pc).leads s s l)
    (hr : s.route s.myTen l s.me.pc.toNat = .ok (.hbm x, false)) (hl : ∀ k ∈ linesOf x 4, s.holders k = [])
    (hp : s.poisoned x 4 = false) : fetchWord.leads s (s.foundWord (BitVec.ofNat 32 (s.peek x 4))) () := by
  have global : inGlobal s.me.pc.toNat = true := decide_eq_true hg
  have found : (readTgt (fetchWho s.dev.cur) (coreOf s.dev.cur) s.myTen s.me.pc.toNat (.hbm x) false 4).leads s s _ :=
    readTgt_hbm (fun _ => Who.noConfusion) hl hp
  refine M.leads_get_bind ?_
  dsimp only
  rw [show s.ctx s.dev.cur = s.me from rfl, show s.tenOf (coreOf s.dev.cur) = s.myTen from rfl, if_neg (not_not.2 ha), global,
    if_neg (by simp), hc, if_neg (by simp)]
  refine M.leads_bind (M.leads_bind hx (M.leads_bind (routeMe_leads hr) (M.leads_pure _ s))) (M.leads_bind found ?_)
  exact M.leads_upd_bind (M.leads_upd _ _)

/-- A fetch that fails its first check takes the cause of that check, with the pc as XVAL. -/
theorem fetchFault_misaligned {s : State} (h : s.noTiles) (ha : s.me.pc.toNat % 4 ≠ 0) :
    exec .fetchFault s = .next (s.took { code := MISALIGNED, val := s.me.pc }) := by
  refine congrArg Host.Outcome.next (Eq.trans ?_ (run_raise s MISALIGNED s.me.pc h (fun _ : Unit => (stall : M Unit) fun _ => .done)))
  show P.run s ((if s.me.pc.toNat % 4 ≠ 0 then raise MISALIGNED s.me.pc else _ : M Unit) _) s = _
  rw [if_pos ha]

theorem fetchFault_outside {s : State} (h : s.noTiles) (ha : s.me.pc.toNat % 4 = 0) (hg : 2 ^ 52 ≤ s.me.pc.toNat) :
    exec .fetchFault s = .next (s.took { code := ILLEGAL_OPERAND, val := s.me.pc }) := by
  have out : inGlobal s.me.pc.toNat = false := decide_eq_false hg.not_gt
  refine congrArg Host.Outcome.next (Eq.trans ?_ (run_raise s ILLEGAL_OPERAND s.me.pc h (fun _ : Unit => (stall : M Unit) fun _ => .done)))
  show P.run s ((if s.me.pc.toNat % 4 ≠ 0 then _ else if !inGlobal s.me.pc.toNat then raise ILLEGAL_OPERAND s.me.pc else _ : M Unit) _) s = _
  rw [if_neg (not_not.2 ha), out]
  rfl

/-- Settles O54: a fetch takes the cause of its first check that fails, and otherwise finds the word at the translated pc. -/
theorem fetchRules : Obligations.FetchRules := by
  unfold Obligations.FetchRules
  intro s h pc
  refine ⟨fun w => congrArg Host.Outcome.next (run_raise s _ _ h _), fetchFault_misaligned h, fetchFault_outside h,
    fun l x ha hg hc hx hr hl hp => ?_⟩
  have e : s.fetched = s.foundWord (BitVec.ofNat 32 (s.peek x 4)) := (fetchWord_hbm ha hg hc hx hr hl hp).ran_eq
  rw [e]
  exact ⟨rfl, rfl, rfl⟩

end Sys2Proof.Machine
end

section
/-!
SUPPORT. The local guard (R41, R73, R74): an access of a compute core to its own LOCAL window that is no stash is judged by the reserved area and by
the four guards alone.
-/

namespace Sys2Proof.Machine

open M

/-- A guard of window LOCAL, by the fields of its register (R74). -/
def guardCovers (use : Use) (off n : Nat) (g : Word) : Prop :=
  g.getLsbD 63 = true ∧ (use.writes = true → g.getLsbD 62 = true) ∧ (use.reads = true → g.getLsbD 61 = true) ∧ g.toNat / 2 ^ 59 % 4 = 0 ∧
    g.toNat % 2 ^ 21 ≤ off ∧ off + n ≤ g.toNat / 2 ^ 32 % 2 ^ 21

/-- Some one of the four guards covers the bytes. -/
theorem guarded_iff (c : Ctx) (use : Use) (off n : Nat) : c.guarded false 0 off n use.reads use.writes = true ↔
    guardCovers use off n (c.csrGet false 0x404) ∨ guardCovers use off n (c.csrGet false 0x405) ∨
      guardCovers use off n (c.csrGet false 0x406) ∨ guardCovers use off n (c.csrGet false 0x407) := by
  have one : ∀ g : Word, (g.getLsbD 63 && (!use.writes || g.getLsbD 62) && (!use.reads || g.getLsbD 61) && bitsOf g.toNat 59 2 == 0 &&
      decide (bitsOf g.toNat 0 21 ≤ off) && decide (off + n ≤ bitsOf g.toNat 32 21) && !(false && (0 : Nat) != 0)) = true ↔ guardCovers use off n g := by
    intro g
    simp only [Bool.and_eq_true, Bool.or_eq_true, Bool.not_eq_true', beq_iff_eq, decide_eq_true_eq, Bool.false_and, Bool.not_false, and_true,
      and_assoc, bitsOf_zero, guardCovers, imp_iff_not_or, Bool.not_eq_true]
    rfl
  have four : List.range 4 = [0, 1, 2, 3] := rfl
  simp only [Ctx.guarded, four, List.any_cons, List.any_nil, Bool.or_eq_true, Bool.or_false, one]
  rfl

/-- What the own LOCAL window of a compute core answers where no byte is stash. -/
theorem window_local {use : Use} {off n : Nat} {s : State} (h : off + n ≤ 0x30000) (hu : use ≠ .ver) (hw : use ≠ .verW) (hv : s.onVent = false) (hs : s.myCore.isStash off n = false) :
    s.window s.dev.cur use (0xFFF0000000000000 + off) n =
      if s.me.sup = false ∧ 0x2F000 < off + n then .error LOCAL_GUARD
      else if s.me.sup = true ∨ s.me.guarded false 0 off n use.reads use.writes = true then .ok (some (.lm (coreOf s.dev.cur) off))
      else .error LOCAL_GUARD := by
  have va : (0xFFF0000000000000 + off) / 2 ^ 52 = 0xFFF := by omega
  have o : (0xFFF0000000000000 + off) % 2 ^ 52 = off := by omega
  have vent : isVent (coreOf s.dev.cur) = false := hv
  have stash : (s.core (coreOf s.dev.cur)).isStash off n = false := hs
  have len : off + n ≤ Config.lmBytes := h
  have res : Config.lmReserved = 0x2F000 := rfl
  simp only [State.window, va, o, vent, stash, beq_eq_false_iff_ne.2 hu, beq_eq_false_iff_ne.2 hw, len, res, if_true, if_false, Bool.false_eq_true, Bool.not_false, Bool.true_and, or_false, ne_eq,
    not_true, Nat.reduceEqDiff, reservedArea, Bool.and_eq_true, Bool.not_eq_true', Bool.or_eq_true, Bool.not_not, decide_eq_true_eq]
  rfl

/-- Settles O12: the window's answer, its guards read field by field. -/
theorem localGuard : Obligations.LocalGuard := by
  unfold Obligations.LocalGuard
  intro use off n s hn h hu hw hv hs covers ok w
  have hw : w = _ := window_local h hu hw hv hs
  have hg : s.me.guarded false 0 off n use.reads use.writes = true ↔
      covers (s.myCsr 0x404) ∨ covers (s.myCsr 0x405) ∨ covers (s.myCsr 0x406) ∨ covers (s.myCsr 0x407) := by
    unfold State.myCsr
    rw [hv]
    exact guarded_iff ..
  have hok : ok ↔ ¬0x2F000 < off + n ∧ s.me.guarded false 0 off n use.reads use.writes = true := by rw [hg, not_lt]
  rw [hw, hok]
  refine ⟨fun k => ?_, fun k hk => ?_⟩
  · rw [if_neg, if_pos (k.imp_right And.right)]
    rintro ⟨k1, k2⟩
    exact (k.resolve_left (by simp [k1])).1 k2
  · rw [k]
    split
    · rfl
    · next h1 => exact if_neg fun h2 => hk ⟨fun h3 => h1 ⟨rfl, h3⟩, h2.resolve_left (by simp)⟩

end Sys2Proof.Machine
end

section
/-!
SUPPORT. Timers and meters (R89, R151, R155, R348, R370): each event does nothing where its condition fails, and otherwise changes a partition, then
each of its cores once.
-/

namespace Sys2Proof.Machine

open M

/-! ### Signals to the host (R347) -/

theorem leads_sendMsix (fn v : Nat) (s : State) : (sendMsix fn v).leads s (s.signalled fn v) () := by
  refine M.leads_get_bind ?_
  unfold State.signalled
  split
  · exact M.leads_pure () s
  · split
    · exact M.leads_upd _ s
    · exact M.leads_upd _ s

/-- What a signal of a function depends on: what has been sent, and the registers of the function's table. -/
def State.signals (s : State) (fn : Nat) : List Out × Nat × List Nat × Bool × List Nat :=
  (s.dev.out, (s.vf fn).msix, (s.vf fn).unmasked, (s.vf fn).fmask, (s.vf fn).pending)

theorem State.hasSignalled_of_signals {s u : State} {fn : Nat} (h : u.signals fn = s.signals fn) (v : Nat) :
    s.hasSignalled (u.signalled fn v) fn v := by
  simp only [State.signals, Prod.mk.injEq] at h
  obtain ⟨ho, hm, hu, hf, hp⟩ := h
  unfold State.hasSignalled State.signalled
  rw [hm, hu, hf]
  split
  · exact ⟨ho, hp⟩
  · split
    · exact ⟨congrArg (· ++ _) ho, hp⟩
    · rw [State.vf_setVf_self, State.vf_setVf_self, hp]
      exact ⟨ho, rfl⟩

theorem State.signalled_vf (s : State) (fn v t : Nat) :
    ∃ l, (s.signalled fn v).vf t = { s.vf t with pending := l } := by
  unfold State.signalled
  split
  · exact ⟨_, rfl⟩
  · split
    · exact ⟨_, rfl⟩
    · by_cases e : t = fn
      · subst e
        exact ⟨_, State.vf_setVf_self ..⟩
      · exact ⟨_, SMap.get_set_ne _ _ _ e⟩

theorem State.signalled_parts (s : State) (fn v : Nat) : (s.signalled fn v).parts = s.parts := by
  unfold State.signalled
  split
  · rfl
  · split <;> rfl

/-! ### The cores of a partition changed -/

/-- An update of each of several cores changes each once. -/
theorem foldl_core_of_mem (f : Core → Core) {l : List Nat} (h : l.Nodup) (s : State) {c : Nat} (hc : c ∈ l) :
    (l.foldl (fun t c => (Upd.core c f).apply t) s).core c = f (s.core c) := by
  rw [foldl_core, List.count_eq_one_of_mem h hc]
  rfl

/-- It leaves what is no core. -/
theorem foldl_core_keeps {β : Type} (f : Core → Core) (π : State → β) (h : ∀ s n c, π (State.setCore s n c) = π s) (l : List Nat) (s : State) :
    π (l.foldl (fun t c => (Upd.core c f).apply t) s) = π s := foldl_keeps (fun c => Upd.core c f) π (fun _ t => h t _ _) l s

/-! ### Slices (R155) -/

/-- A core that runs a task has the slice interrupt pending. -/
def Core.sliced (k : Core) : Core := if k.task.isSome then { k with sliceInt := true } else k

theorem sliceTimer_waits {p : Nat} {s : State}
    (h : ¬((s.part p).st = .running ∧ s.liveP p = true ∧ (s.part p).slice ≠ 0 ∧ (s.part p).sliceLeft = 0)) :
    exec (.sliceTimerExpiry p) s = .next s := by
  refine (event_get _ s).trans ?_
  dsimp only
  rw [if_neg (by simpa [and_assoc] using h)]
  rfl

theorem sliceTimer_drains {p : Nat} {s : State} (hp : (s.part? p).isSome = true)
    (h : (s.part p).st = .running ∧ s.liveP p = true ∧ (s.part p).slice ≠ 0 ∧ (s.part p).sliceLeft = 0) :
    ∃ t, exec (.sliceTimerExpiry p) s = .next t ∧ (t.part p).st = .draining ∧ t.mem = s.mem ∧
      ∀ c ∈ s.nodeCores p, (s.core c).task.isSome = true → (t.core c).sliceInt = true := by
  have e : exec (.sliceTimerExpiry p) s = .next ((s.nodeCores p).foldl (fun t c => (Upd.core c Core.sliced).apply t)
      (s.setPart p fun q => { q with st := .draining, wd := 0 })) := by
    refine (event_get _ s).trans ?_
    dsimp only
    rw [if_pos (by simpa [and_assoc] using h)]
    exact (M.leads_upd_bind (M.leads_each_upd (fun c => .core c Core.sliced) _ _)).event_eq
  refine ⟨_, e, ?_, foldl_core_keeps _ State.mem (fun _ _ _ => rfl) _ _, fun c hc ht => ?_⟩
  · rw [foldl_core_keeps Core.sliced (·.part p) (fun _ _ _ => rfl)]
    exact congrArg Part.st (State.part_setPart_self hp _)
  · rw [foldl_core_of_mem _ (s.nodup_nodeCores p) _ hc, Core.sliced]
    exact (congrArg Core.sliceInt (if_pos ht)).trans rfl

/-! ### Energy (R151) -/

/-- A core whose partition's budget is exhausted. -/
def Core.exhausted (full : Nat) (k : Core) : Core :=
  (k.csrSet cPRIO (BitVec.ofNat 64 (min 3 ((k.csrGet cPRIO).toNat % 4 + 1)))).csrSet cENERGY (BitVec.ofNat 64 full)

/-- A partition with its budget whole. -/
def Part.refilled (full : Nat) (q : Part) : Part := { q with erem := full }

/-- A partition whose budget is exhausted: the class of its cores has dropped, and the budget begins anew. -/
def State.exhausted (s : State) (p : Nat) : State :=
  (s.nodeCores p).foldl (fun t c => (Upd.core c (Core.exhausted (1000 * (s.part p).ebudget))).apply t)
    (s.setPart p (Part.refilled (1000 * (s.part p).ebudget)))

theorem leads_exhaust (p : Nat) (s : State) : (exhaust p).leads s (s.exhausted p) () :=
  M.leads_get_bind (M.leads_upd_bind (M.leads_each_upd (fun c => .core c (Core.exhausted _)) _ _))

section
variable {p : Nat} {s : State}

theorem State.exhausted_mem : (s.exhausted p).mem = s.mem := foldl_core_keeps _ State.mem (fun _ _ _ => rfl) _ _

theorem State.exhausted_part (hp : (s.part? p).isSome = true) : (s.exhausted p).part p = (s.part p).refilled (1000 * (s.part p).ebudget) :=
  (foldl_core_keeps _ (·.part p) (fun _ _ _ => rfl) _ _).trans (State.part_setPart_self hp _)

theorem State.exhausted_core {c : Nat} (hc : c ∈ s.nodeCores p) :
    ((s.exhausted p).core c).csrGet cPRIO = BitVec.ofNat 64 (min 3 (((s.core c).csrGet cPRIO).toNat % 4 + 1)) ∧
    ((s.exhausted p).core c).csrGet cENERGY = BitVec.ofNat 64 (1000 * (s.part p).ebudget) := by
  have e : (s.exhausted p).core c = (s.core c).exhausted (1000 * (s.part p).ebudget) := foldl_core_of_mem _ (s.nodup_nodeCores p) _ hc
  rw [e]
  refine ⟨?_, Core.csrGet_csrSet_self ..⟩
  exact (Core.csrGet_csrSet_ne _ _ (by decide)).trans (Core.csrGet_csrSet_self ..)

theorem energyBudget_waits (h : ¬((s.part p).live = true ∧ (s.part p).ebudget ≠ 0 ∧ (s.part p).erem = 0)) :
    exec (.energyBudgetExhausted p) s = .next s := by
  refine (event_get _ s).trans ?_
  dsimp only
  rw [if_neg (by simpa [and_assoc] using h)]
  rfl

theorem energyBudget_exhausts (h : (s.part p).live = true ∧ (s.part p).ebudget ≠ 0 ∧ (s.part p).erem = 0) :
    exec (.energyBudgetExhausted p) s = .next (s.exhausted p) := by
  refine (event_get _ s).trans ?_
  dsimp only
  rw [if_pos (by simpa [and_assoc] using h)]
  exact (leads_exhaust p s).event_eq

theorem energyMeter_waits (h : s.liveP p = false ∨ (s.part p).ebudget = 0 ∨ (s.part p).meter < 1000) :
    exec (.energyMeterUpdate p) s = .next s := by
  refine (event_get _ s).trans ?_
  dsimp only
  rw [if_pos (by simpa [or_assoc] using h)]
  rfl

/-- A partition with an interval metered. -/
def Part.metered (left : Nat) (q : Part) : Part := { q with erem := left, meter := q.meter - 1000 }

/-- An interval metered, and `left` shown by the cores of the partition. -/
def State.metered (s : State) (p left : Nat) : State :=
  (s.nodeCores p).foldl (fun t c => (Upd.core c (·.csrSet cENERGY (BitVec.ofNat 64 left))).apply t)
    (({ s with dev := { s.dev with freeIx := s.dev.freeIx + 1 } } : State).setPart p (Part.metered left))

theorem State.metered_part (hp : (s.part? p).isSome = true) (left : Nat) : (s.metered p left).part p = (s.part p).metered left :=
  (foldl_core_keeps _ (·.part p) (fun _ _ _ => rfl) _ _).trans (State.part_setPart_self (s := { s with dev := _ }) hp _)

theorem State.metered_isSome (hp : (s.part? p).isSome = true) (left : Nat) : ((s.metered p left).part? p).isSome = true :=
  (foldl_core_keeps _ (fun t => (t.part? p).isSome) (fun _ _ _ => rfl) _ _).trans (by rwa [State.partOpt_setPart_isSome])

theorem State.metered_mem (left : Nat) : (s.metered p left).mem = s.mem := foldl_core_keeps _ State.mem (fun _ _ _ => rfl) _ _

theorem State.metered_nodeCores (left : Nat) : (s.metered p left).nodeCores p = s.nodeCores p :=
  foldl_core_keeps _ (·.nodeCores p) (fun _ _ _ => rfl) _ _

theorem State.metered_core {c : Nat} (hc : c ∈ s.nodeCores p) (left : Nat) :
    (s.metered p left).core c = (s.core c).csrSet cENERGY (BitVec.ofNat 64 left) := foldl_core_of_mem _ (s.nodup_nodeCores p) _ hc

theorem energyMeter_meters (h : ¬(s.liveP p = false ∨ (s.part p).ebudget = 0 ∨ (s.part p).meter < 1000)) {left : Nat}
    (hl : (s.part p).erem - Config.energyCost s.dev.freeIx = left) :
    exec (.energyMeterUpdate p) s = .next (if left = 0 then (s.metered p left).exhausted p else s.metered p left) := by
  subst hl
  refine (event_get _ s).trans ?_
  dsimp only
  rw [if_neg (by simpa [or_assoc] using h)]
  have tick : freeIx.leads s { s with dev := { s.dev with freeIx := s.dev.freeIx + 1 } } s.dev.freeIx :=
    M.leads_get_bind (M.leads_upd_bind (M.leads_pure _ _))
  refine M.leads.event_eq (M.leads_bind tick (M.leads_upd_bind (M.leads_bind
    (M.leads_each_upd (fun c => .core c (·.csrSet cENERGY _)) _ _) ?_)))
  split
  · exact leads_exhaust p _
  · exact M.leads_pure () _

/-- The meter's event in the terms of its partition and cores. -/
theorem energyMeter_changes (hp : (s.part? p).isSome = true) (h : ¬(s.liveP p = false ∨ (s.part p).ebudget = 0 ∨ (s.part p).meter < 1000)) :
    let left := (s.part p).erem - Config.energyCost s.dev.freeIx
    ∃ t, exec (.energyMeterUpdate p) s = .next t ∧ (t.part p).meter = (s.part p).meter - 1000 ∧ t.mem = s.mem ∧
      (left ≠ 0 → (t.part p).erem = left ∧ ∀ c ∈ s.nodeCores p, (t.core c).csrGet cENERGY = BitVec.ofNat 64 left) ∧
      (left = 0 → (t.part p).erem = 1000 * (s.part p).ebudget ∧ ∀ c ∈ s.nodeCores p,
        (t.core c).csrGet cPRIO = BitVec.ofNat 64 (min 3 (((s.core c).csrGet cPRIO).toNat % 4 + 1)) ∧
        (t.core c).csrGet cENERGY = BitVec.ofNat 64 (1000 * (s.part p).ebudget)) := by
  intro left
  have part := State.metered_part hp left
  refine ⟨_, energyMeter_meters h rfl, ?_⟩
  by_cases hl : left = 0
  · rw [if_pos hl, State.exhausted_part (State.metered_isSome hp left), part]
    refine ⟨rfl, State.exhausted_mem.trans (State.metered_mem left), fun k => absurd hl k, fun _ => ⟨rfl, fun c hc => ?_⟩⟩
    have core := State.exhausted_core (s := s.metered p left) (p := p) (c := c) (by rwa [State.metered_nodeCores])
    rwa [State.metered_core hc, Core.csrGet_csrSet_ne _ _ (by decide : cPRIO ≠ cENERGY), part] at core
  · rw [if_neg hl, part]
    refine ⟨rfl, State.metered_mem left, fun _ => ⟨rfl, fun c hc => ?_⟩, fun k => absurd k hl⟩
    rw [State.metered_core hc]
    exact Core.csrGet_csrSet_self ..

end

/-! ### Watchdogs (R370) -/

section
variable {p : Nat} {s : State}

theorem watchdog_waits (h : ¬(s.liveP p = true ∧ s.wdLimit p ≠ 0 ∧ s.wdLimit p ≤ (s.part p).wd)) : exec (.watchdogExpiry p) s = .next s := by
  refine (event_get _ s).trans ?_
  dsimp only
  rw [if_neg (by simpa [and_assoc] using h)]
  rfl

/-- A function that has counted a watchdog expiry. -/
def Vf.bitten (p : Nat) (v : Vf) : Vf := { v with wdcount := v.wdcount + 1, wdpnode := BitVec.ofNat 11 p }

theorem State.signals_bitten (s : State) (p t fn : Nat) : (s.setVf t ((s.vf t).bitten p)).signals fn = s.signals fn := by
  by_cases e : fn = t
  · subst e
    simp [State.signals, Vf.bitten]
  · simp [State.signals, State.vf_setVf_ne _ _ e]

theorem watchdog_reports (hp : (s.part? p).isSome = true) (h : s.liveP p = true ∧ s.wdLimit p ≠ 0 ∧ s.wdLimit p ≤ (s.part p).wd) :
    let ten := (s.part p).ten.getD 0
    ∃ t, exec (.watchdogExpiry p) s = .next t ∧ (t.vf ten).wdcount = (s.vf ten).wdcount + 1 ∧
      (t.vf ten).wdpnode = BitVec.ofNat 11 p ∧ (t.part p).wd = 0 ∧ (∃ m : Msg, (t.part p).mbq = (s.part p).mbq ++ [m]) ∧
      s.hasSignalled t 64 0 := by
  intro ten
  set u := s.setVf ten ((s.vf ten).bitten p) with hu
  obtain ⟨m, -, told⟩ := leads_tellDeadlock (s.couplingSet p) 3 (s.lowPort (s.couplingSet p)) p u
  have e : exec (.watchdogExpiry p) s = .next (((u.setPart p (Part.posted m)).signalled 64 0).setPart p fun q => { q with wd := 0 }) := by
    refine (event_get _ s).trans ?_
    dsimp only
    rw [if_pos (by simpa [and_assoc] using h)]
    have rest : (sendMsix PF 0 >>= fun _ => setPartM p fun q => { q with wd := 0 }).leads (u.setPart p (Part.posted m)) _ () :=
      M.leads_bind (leads_sendMsix 64 0 _) (M.leads_upd _ _)
    exact M.leads.event_eq (M.leads_upd_bind (M.leads_bind told rest))
  obtain ⟨l, hl⟩ := (u.setPart p (Part.posted m)).signalled_vf 64 0 ten
  have hs : ((u.setPart p (Part.posted m)).setPart p fun q => { q with wd := 0 }).part p = { (s.part p).posted m with wd := 0 } := by
    rw [State.part_setPart_self (by simpa [hu] using hp), State.part_setPart_self (by simpa [hu] using hp), hu, State.setVf_get_part]
  have ht : (((u.setPart p (Part.posted m)).signalled 64 0).setPart p fun q => { q with wd := 0 }).part p = { (s.part p).posted m with wd := 0 } := by
    rw [← hs]
    unfold State.part State.setPart
    rw [State.signalled_parts]
  refine ⟨_, e, ?_, ?_, by rw [ht], ⟨m, by rw [ht]; rfl⟩, ?_⟩
  · rw [State.setPart_get_vf, hl, State.setPart_get_vf, hu, State.vf_setVf_self]
    rfl
  · rw [State.setPart_get_vf, hl, State.setPart_get_vf, hu, State.vf_setVf_self]
    rfl
  · exact State.hasSignalled_of_signals (u := u.setPart p (Part.posted m)) (s.signals_bitten p ten 64) 0

end

/-! ### Miss predictions (R89) -/

theorem SMap.find_eq_none_of_rising {α : Type} {m : SMap α} {lo k : Nat} (h : SMap.rising lo m = true) (hk : k < lo) : SMap.find m k = none := by
  induction m generalizing lo with
  | nil => rfl
  | cons e m ih =>
    obtain ⟨j, v⟩ := e
    simp only [SMap.rising, Bool.and_eq_true, decide_eq_true_eq] at h
    rw [SMap.find, if_neg (by omega), ih h.2 (by omega)]

/-- The predictions of the tenants of a list are set to half of what it lists, those of others stand. -/
theorem mpc_foldl_setMpc {l : SMap Nat} {lo : Nat} (h : SMap.rising lo l = true) (c : Cache) (k : Nat) :
    SMap.get (fun _ => 0) (l.foldl (fun (c : Cache) e => c.setMpc e.1 (e.2 / 2)) c).mpc k =
      ((SMap.find l k).map fun v => min (v / 2) 0xFFFF).getD (SMap.get (fun _ => 0) c.mpc k) := by
  induction l generalizing c lo with
  | nil => rfl
  | cons e l ih =>
    obtain ⟨j, v⟩ := e
    simp only [SMap.rising, Bool.and_eq_true, decide_eq_true_eq] at h
    rw [List.foldl_cons, ih h.2, SMap.find]
    by_cases e : j = k
    · subst e
      rw [SMap.find_eq_none_of_rising h.2 (Nat.lt_succ_self j), if_pos rfl]
      exact SMap.get_set_self ..
    · rw [if_neg e]
      congr 1
      exact SMap.get_set_ne _ _ _ (Ne.symm e)

section
variable {n : Nat} {s : State}

theorem mpcHalving_waits (h : ¬(s.cache n).halved < (s.cache n).sclk / 2 ^ 20) : exec (.mpcHalving n) s = .next s := by
  refine (event_get _ s).trans ?_
  dsimp only
  rw [if_neg h]
  rfl

theorem mpcHalving_halves (hr : SMap.rising 0 (s.cache n).mpc = true) (h : (s.cache n).halved < (s.cache n).sclk / 2 ^ 20) :
    ∃ t, exec (.mpcHalving n) s = .next t ∧ (t.cache n).halved = (s.cache n).halved + 1 ∧
      ∀ k, SMap.get (fun _ => 0) (t.cache n).mpc k = min (SMap.get (fun _ => 0) (s.cache n).mpc k / 2) 0xFFFF := by
  have e : exec (.mpcHalving n) s = .next (s.setCache n { (s.cache n).mpc.foldl (fun (c : Cache) e => c.setMpc e.1 (e.2 / 2)) (s.cache n) with
      halved := (s.cache n).halved + 1 }) := by
    refine (event_get _ s).trans ?_
    dsimp only
    rw [if_pos h]
    rfl
  refine ⟨_, e, ?_, fun k => ?_⟩
  · rw [State.cache_setCache_self]
  · rw [State.cache_setCache_self]
    refine (mpc_foldl_setMpc hr _ k).trans ?_
    rw [SMap.get_eq_find]
    cases SMap.find (s.cache n).mpc k <;> rfl

end

/-! ### Power (R348) -/

theorem pwrmeas_waits {s : State} (h : s.dev.pwrAge < 1000000) : exec .pwrmeasRefresh s = .next s := by
  refine (event_get _ s).trans ?_
  rw [if_pos h]
  rfl

theorem pwrmeas_refreshes {s : State} (h : ¬s.dev.pwrAge < 1000000) : exec .pwrmeasRefresh s =
    .next { s with dev := { s.dev with pwr := Config.pwrMeas s.dev.freeIx, pwrAge := 0, freeIx := s.dev.freeIx + 1 } } := by
  refine (event_get _ s).trans ?_
  rw [if_neg h]
  rfl

/-- Settles O41: each timer event does nothing unless its condition holds, and otherwise what the lemmas above say of its partition, its cores, its
function or its cache. -/
theorem clocks : Obligations.Clocks := by
  unfold Obligations.Clocks
  intro p s hp q cores exhausted
  refine ⟨?slice, ?budget, ?meter, ?watchdog, fun n hr => ?mpc, ?power⟩
  case slice =>
    split
    · next h => exact sliceTimer_drains hp h
    · next h => exact sliceTimer_waits h
  case budget =>
    split
    · next h =>
      refine ⟨_, energyBudget_exhausts h, ⟨congrArg Part.erem (State.exhausted_part hp), fun c hc => State.exhausted_core hc⟩, State.exhausted_mem⟩
    · next h => exact energyBudget_waits h
  case meter =>
    intro left
    split
    · next h => exact energyMeter_waits h
    · next h => exact energyMeter_changes hp h
  case watchdog =>
    intro ten
    split
    · next h => exact watchdog_reports hp h
    · next h => exact watchdog_waits h
  case mpc =>
    split
    · next h => exact mpcHalving_halves hr h
    · next h => exact mpcHalving_waits h
  case power =>
    split
    · next h => exact pwrmeas_waits h
    · next h => exact pwrmeas_refreshes h

end Sys2Proof.Machine
end

section
/-!
SUPPORT. A `stv` that waits (R219): the place it takes in its word's queue names the partition whose leaf resolved it (R416).
-/

namespace Sys2Proof.Machine

/-- A control context of partition 1, READY in supervisor mode, with the address of a versioned granule of caldera die 0 in X1 and version 10 in X2;
four versions of the granule's first word are live. -/
def fullWord : State :=
  { State.reset with
    ctxs := [(0, { Ctx.reset 0 with run := .ready, sup := true, x := [(1, 0xFFF0000000000), (2, 10)] })]
    cores := [(0, { Core.reset with task := some ⟨0, 1, 0, false⟩ })]
    parts := [(1, { Part.reset with st := .running, ten := some 0 })]
    cals := [(0, { Cal.reset with gran := [(0, ⟨0, 0, true⟩)] })]
    vers := [((Space.cal false).loc 0, ⟨[(9, 1), (8, 1), (7, 1), (6, 1)], some 9, []⟩)] }

/-- The partitions named by the places of the `stv` queues after an instruction. -/
def stvNodes (i : Instr) (s : State) : List Nat :=
  match exec i s with
  | .next t => t.dev.stvq.map (·.node)
  | _ => []

theorem stvNodes_fullWord : stvNodes (.stv .core 2 1 (.reg 2)) fullWord = [1] := by decide +kernel

/-- Refutes O17: a `stv` that has to wait joins the queue with its partition noted, here 1 in `fullWord`, where the statement has the place of no
partition (2048, the default of `StvWait.node`). -/
theorem not_versionedWords : ¬ Obligations.VersionedWords := by
  unfold Obligations.VersionedWords
  rintro ⟨h, -⟩
  have granule : fullWord.versionedAt (fullWord.x 1) ((Space.cal false).loc 0) :=
    ⟨by decide +kernel, by decide +kernel, by decide +kernel, false, 0, by decide +kernel, rfl⟩
  obtain ⟨-, -, -, -, -, parks⟩ := h .core 2 1 (.reg 2) _ fullWord (by decide +kernel) (by decide +kernel) (by decide +kernel) granule
  obtain ⟨t, ht, -, -, hq⟩ := parks rfl (.inl (by decide +kernel))
  have nodes : stvNodes (.stv .core 2 1 (.reg 2)) fullWord = [2048] := by
    rw [stvNodes, ht]
    exact congrArg (List.map (·.node)) hq
  exact absurd (stvNodes_fullWord.symm.trans nodes) (by decide)

end Sys2Proof.Machine
end

section
/-!
SUPPORT. Resets and unmapping (R95, R391, R413, R417, R422, R423): what a package reset leaves, what a function-level reset empties, and what
the release of a guest block does.
-/

namespace Sys2Proof.Machine

open M

/-! ### Package resets (R413, R417, R423) -/

/-- What the host and a program find after a package reset that found presence `pr`. -/
abbrev State.AfterReset (s t : State) (pr : Presence) (stopped : Bool) : Prop :=
  (t.ctxs, t.cores, t.clusters, t.parts, t.vfs) = ([], [], [], [(1, Part.reset)], []) ∧
  (t.ports, t.caches, t.cals, t.vers, t.shadow) = ([], [], [], [], []) ∧ t.pres = pr ∧ t.cycle = 0 ∧ t.ref = 0 ∧
  t.dev.incarn = s.dev.incarn + 1 ∧ (t.dev.roots, t.dev.tlb, t.dev.dir, t.dev.vops) = ([], [], [], []) ∧
  t.dev.out = s.dev.out ++ [.reset] ∧ t.dev.stopped = stopped ∧ ∀ a, t.byte a = if hostLoc a then s.byte a else 0

/-- The state after a package reset, its last report included. -/
def State.afterReset (s : State) (pres : Presence) : State :=
  (Upd.dev fun d => { d with out := s.dev.out ++ [.reset] }).apply ((Upd.reset pres).apply s)

theorem leads_resetPackage (pres : Presence) (s : State) : (resetPackage pres).leads s (s.afterReset pres) () :=
  M.leads_get_bind (M.leads_upd_bind (M.leads_upd _ _))

theorem State.afterReset_spec (s : State) (pres : Presence) : s.AfterReset (s.afterReset pres) pres false :=
  ⟨rfl, rfl, rfl, rfl, rfl, rfl, rfl, rfl, rfl, fun _ => SMap.get_filter ..⟩

theorem exec_deviceReset (pres : Presence) (s : State) :
    exec (.deviceReset pres) s = .next (s.afterReset (if 1 < s.pres.group
      then { pres with pkg := s.pres.pkg, group := max pres.group (s.pres.pkg.toNat + 1) } else pres)) :=
  (M.leads_get_bind (leads_resetPackage _ s)).event_eq

theorem exec_thermalShutdown (s : State) :
    exec .thermalShutdown s = .next ((Upd.dev fun d => { d with stopped := true }).apply (s.afterReset s.pres)) :=
  M.leads.event_eq (M.leads_get_bind (M.leads_bind (leads_resetPackage _ s) (M.leads_upd _ _)))

theorem exec_calderaDieLost_own (s : State) : exec (.calderaDieLost s.pres.pkg.toNat false) s = .next (s.afterReset s.pres) := by
  refine M.leads.event_eq (M.leads_get_bind ?_)
  rw [if_pos rfl]
  exact leads_resetPackage _ s

theorem exec_resets (pres : Presence) (s : State) :
    (∃ t, exec (.deviceReset pres) s = .next t ∧ s.AfterReset t (if 1 < s.pres.group
      then { pres with pkg := s.pres.pkg, group := max pres.group (s.pres.pkg.toNat + 1) } else pres) false) ∧
    (∃ t, exec .thermalShutdown s = .next t ∧ s.AfterReset t s.pres true) ∧
    (∃ t, exec (.calderaDieLost s.pres.pkg.toNat false) s = .next t ∧ s.AfterReset t s.pres false) := by
  refine ⟨⟨_, exec_deviceReset pres s, s.afterReset_spec _⟩, ⟨_, exec_thermalShutdown s, ?_⟩, _, exec_calderaDieLost_own s, s.afterReset_spec _⟩
  obtain ⟨h1, h2, h3, h4, h5, h6, h7, h8, -, h9⟩ := s.afterReset_spec s.pres
  exact ⟨h1, h2, h3, h4, h5, h6, h7, h8, rfl, h9⟩

/-- A part with a result in front of a part that runs through. -/
theorem M.Keeps.bind {R : State → State → Prop} (hR : Stable R) {α : Type} {m : M α} {f : α → M Unit}
    (hm : ∀ s, ∃ t a, m.leads s t a ∧ R s t) (hf : ∀ a, (f a).Keeps R) : (m >>= f).Keeps R := by
  intro s
  obtain ⟨t, a, lm, rm⟩ := hm s
  have l := M.leads_bind lm ((hf a).leads t)
  have e := l.ran_eq
  have rf := (hf a).rel t
  rw [← e] at l rf
  exact ⟨l, hR.trans rm rf⟩

/-! ### A guest block that is unmapped (R95, R391) -/

/-- The stage-2 misses have been noted and the other packages told: memory, translations, scrubs, waiting `stv`s and the directory stand. -/
structure Told (s t : State) : Prop where
  mem : t.mem = s.mem
  s2 : ∀ f, (t.vf f).s2 = (s.vf f).s2
  tlb : t.dev.tlb = s.dev.tlb
  scrubs : t.dev.scrubs = s.dev.scrubs
  stvq : t.dev.stvq = s.dev.stvq
  dir : t.dev.dir = s.dev.dir

theorem stable_told : Stable Told where
  refl _ := ⟨rfl, fun _ => rfl, rfl, rfl, rfl, rfl⟩
  trans h k := ⟨k.mem.trans h.mem, fun f => (k.s2 f).trans (h.s2 f), k.tlb.trans h.tlb, k.scrubs.trans h.scrubs, k.stvq.trans h.stvq,
    k.dir.trans h.dir⟩

theorem told_signalled (s : State) (fn v : Nat) : Told s (s.signalled fn v) := by
  have hs2 : ∀ f, ((s.signalled fn v).vf f).s2 = (s.vf f).s2 := fun f => by
    obtain ⟨l, e⟩ := s.signalled_vf fn v f
    rw [e]
  refine ⟨?_, hs2, ?_, ?_, ?_, ?_⟩
  all_goals
    unfold State.signalled
    split
    · rfl
    · split <;> rfl

theorem told_sendMsix (fn v : Nat) : (sendMsix fn v).Keeps Told := fun s =>
  (leads_sendMsix fn v s).ran_eq ▸ ⟨leads_sendMsix fn v s, told_signalled s fn v⟩

theorem told_sendPacket (ca : Bool) (p : Packet) : (sendPacket ca p).Keeps Told := by
  refine .get fun s => ?_
  split
  · exact .pure stable_told
  · exact .upd fun _ => ⟨rfl, fun _ => rfl, rfl, rfl, rfl, rfl⟩

theorem told_noteMiss (t gpa : Nat) : (noteMiss t gpa).Keeps Told :=
  .seq stable_told (.upd fun _ => ⟨rfl, fun _ => rfl, rfl, rfl, rfl, rfl⟩) (told_sendMsix 64 1)

theorem told_tellScrub (ids : List Nat) (t addr : Nat) : (tellScrub ids t addr).Keeps Told :=
  .get fun _ => .each stable_told (fun _ => .get fun _ => .ite (.pure stable_told)
    (.seq stable_told (.upd fun _ => ⟨rfl, fun _ => rfl, rfl, rfl, rfl, rfl⟩) (told_sendPacket _ _))) _

/-- Only copies of lines in cores and caches have gone: memory, functions, presence and the records of the device stand. -/
structure Copies (s t : State) : Prop where
  mem : t.mem = s.mem
  vfs : t.vfs = s.vfs
  pres : t.pres = s.pres
  dev : t.dev = s.dev

theorem stable_copies : Stable Copies where
  refl _ := ⟨rfl, rfl, rfl, rfl⟩
  trans h k := ⟨k.mem.trans h.mem, k.vfs.trans h.vfs, k.pres.trans h.pres, k.dev.trans h.dev⟩

/-- The directory without the lines of a range of locations. -/
def dirWithout (lo hi : Nat) (d : Dev) : Dev := { d with dir := d.dir.filter fun e => !(lo / 64 ≤ e.1 && e.1 < hi / 64) }

theorem leads_dropRange (lo hi : Nat) (s : State) : ∃ t, Copies s t ∧ (dropRange lo hi).leads s ((Upd.dev (dirWithout lo hi)).apply t) () := by
  have hc : ∀ l : List (Nat × Core), (each (fun (e : Nat × Core) => upd (.core e.1 fun c =>
    { c with l1 := c.l1.filter fun l => !(lo / 64 ≤ l.2.loc / 64 && l.2.loc / 64 < hi / 64),
             sect := c.sect.filter fun l => !(lo / 64 ≤ l.2.loc / 64 && l.2.loc / 64 < hi / 64) })) l).Keeps Copies :=
    .each stable_copies fun _ => .upd fun _ => ⟨rfl, rfl, rfl, rfl⟩
  have hl : ∀ l : List (Nat × Cache), (each (fun (e : Nat × Cache) => if 384 ≤ e.1 then
    upd (.cache e.1 (Cache.leaveAll fun l => lo / 64 ≤ l.tag && l.tag < hi / 64)) else pure ()) l).Keeps Copies :=
    .each stable_copies fun _ => .ite (.upd fun _ => ⟨rfl, rfl, rfl, rfl⟩) (.pure stable_copies)
  exact ⟨_, stable_copies.trans ((hc s.cores).rel s) ((hl s.caches).rel _),
    M.leads_get_bind (M.leads_bind ((hc _).leads s) (M.leads_bind ((hl _).leads _) (M.leads_upd _ _)))⟩

/-- What the start of a scrub does to the records of the device. -/
def Dev.scrubbing (x : ScrubOf) (cause : BitVec 8) (d : Dev) : Dev :=
  { d with seq := d.seq + 1, scrubs := d.scrubs ++ [⟨d.seq, x⟩]
           stvq := d.stvq.map fun e => if !e.far && x.covers e.loc && e.res.isNone then { e with res := some cause } else e }

theorem leads_beginScrub (x : ScrubOf) (cause : BitVec 8) (s : State) :
    (beginScrub x cause).leads s ((Upd.dev (Dev.scrubbing x cause)).apply s) s.dev.seq :=
  M.leads_bind (M.leads_get_bind (M.leads_upd_bind (M.leads_pure _ _))) (M.leads_upd_bind (M.leads_pure _ _))

section
variable {t g phys : Nat} {s : State}

/-- A released block, up to what is told of it. -/
theorem leads_releaseBlock (h : SMap.find (s.vf t).s2 g = some phys) :
    ∃ c u, Copies ((Upd.vf t fun v => { v with s2 := v.s2.erase g }).apply s) c ∧
      Told ((Upd.dev (Dev.scrubbing (.block phys) POISON ∘ (fun d => { d with tlb := d.tlb.filter fun e => !e.inBlock t g }) ∘
        dirWithout (phys * 2 ^ 25) ((phys + 1) * 2 ^ 25))).apply c) u ∧ (releaseBlock t g).leads s u () := by
  obtain ⟨c, hc, lc⟩ := leads_dropRange (phys * 2 ^ 25) ((phys + 1) * 2 ^ 25) ((Upd.vf t fun v => { v with s2 := v.s2.erase g }).apply s)
  have hn : ∀ l : List StvWait, (each (fun e => noteMiss t (g * 2 ^ 25 + e.loc % 2 ^ 25)) l).Keeps Told := .each stable_told fun _ => told_noteMiss _ _
  have hw := fun l => M.Keeps.seq stable_told (f := fun _ => tellScrub [c.dev.seq] t (g * 2 ^ 25)) (hn l) (told_tellScrub _ _ _)
  refine ⟨c, _, hc, (hw (c.dev.stvq.filter fun e => !e.far && (ScrubOf.block phys).covers e.loc && e.res.isNone)).rel _, M.leads_get_bind ?_⟩
  rw [h]
  exact M.leads_upd_bind (M.leads_bind lc (M.leads_upd_bind (M.leads_get_bind (M.leads_bind (leads_beginScrub _ _ _) ((hw _).leads _)))))

theorem holders_dirWithout (lo hi line : Nat) (h : lo / 64 ≤ line ∧ line < hi / 64) (d : Dev) :
    SMap.get (fun _ => []) (dirWithout lo hi d).dir line = [] := by
  refine (SMap.get_filter _ (fun k => !(lo / 64 ≤ k && k < hi / 64)) _ _).trans (if_neg ?_)
  simp [h]

theorem Dev.scrubbing_res (b : Nat) (cause : BitVec 8) (d : Dev) : ∀ e ∈ (d.scrubbing (.block b) cause).stvq, e.far = false →
    (ScrubOf.block b).covers e.loc = true → e.res ≠ none := by
  intro e he hf hc hr
  obtain ⟨x, -, rfl⟩ := List.mem_map.1 he
  by_cases h : (!x.far && (ScrubOf.block b).covers x.loc && x.res.isNone) = true
  · rw [if_pos h] at hr
    cases hr
  · rw [if_neg h] at hf hc hr
    exact h (by rw [hf, hc, hr]; rfl)

theorem stage2Unmapping_waits (h : SMap.find (s.vf t).s2 g = none) : exec (.stage2Unmapping t g) s = .next s := by
  show event _ s = _
  rw [event_get, h]
  rfl

theorem stage2Unmapping_releases (h : SMap.find (s.vf t).s2 g = some phys) : ∃ u, exec (.stage2Unmapping t g) s = .next u ∧
    SMap.find (u.vf t).s2 g = none ∧ u.dev.scrubs = s.dev.scrubs ++ [⟨s.dev.seq, .block phys⟩] ∧
    (∀ e ∈ u.dev.tlb, e.inBlock t g = false) ∧ u.mem = s.mem ∧
    (∀ e ∈ u.dev.stvq, e.far = false → (ScrubOf.block phys).covers e.loc = true → e.res ≠ none) ∧
    ∀ line, phys * 2 ^ 25 ≤ line * 64 → line * 64 < (phys + 1) * 2 ^ 25 → u.holders line = [] := by
  obtain ⟨c, u, hc, hu, lu⟩ := leads_releaseBlock h
  have run : exec (.stage2Unmapping t g) s = .next u := by
    refine M.leads.event_eq (M.leads_get_bind ?_)
    rw [h]
    exact lu
  refine ⟨u, run, ?_, ?_, ?_, hu.mem.trans hc.mem, ?_, fun line h0 h1 => ?_⟩
  · have e : (c.vf t).s2 = (s.vf t).s2.erase g := by
      unfold State.vf
      rw [hc.vfs]
      exact congrArg Vf.s2 (State.vf_setVf_self ..)
    rw [hu.s2 t]
    exact (congrArg (SMap.find · g) e).trans (SMap.find_erase_self ..)
  · rw [hu.scrubs, show s.dev = c.dev from hc.dev.symm]
    rfl
  · rw [hu.tlb]
    intro e he
    simpa using (List.mem_filter.1 he).2
  · rw [hu.stvq]
    exact Dev.scrubbing_res _ _ _
  · unfold State.holders
    rw [hu.dir]
    exact holders_dirWithout _ _ _ (by omega) _

end

theorem M.Keeps.reaches {R : State → State → Prop} {m : M Unit} (h : m.Keeps R) (s : State) : ∃ t, m.leads s t () ∧ R s t :=
  ⟨_, h.leads s, h.rel s⟩

/-! ### Relations that lines leaving their holders keep -/

/-- A relation that every update by which a line leaves a holder keeps (R80, R82, R84). -/
structure LineStable (R : State → State → Prop) : Prop extends Stable R where
  poke : ∀ a bs s, R s ((Upd.poke a bs).apply s)
  poison : ∀ w s, R s ((Upd.poison w).apply s)
  cache : ∀ n f s, R s ((Upd.cache n f).apply s)
  lines : ∀ c p q s, R s ((Upd.core c fun k => { k with l1 := k.l1.filter p, sect := k.sect.filter q }).apply s)
  dir : ∀ (f : SMap (List (Nat × LSt)) → SMap (List (Nat × LSt))) s, R s ((Upd.dev fun d => { d with dir := f d.dir }).apply s)

namespace LineStable

variable {R : State → State → Prop} (h : LineStable R)
include h

theorem combine1 (loc : Nat) (p : Partial) : (combine1 loc p).Keeps R :=
  .get fun _ => .seq h.toStable (.upd (h.poke _ _)) (.ite (.upd (h.poison _)) (.pure h.toStable))

theorem soilHome (line : Nat) : (soilHome line).Keeps R := .get fun _ => .ite (.upd (h.cache _ _)) (.pure h.toStable)

theorem dropCopies (k line : Nat) : (dropCopies k line).Keeps R :=
  .get fun _ => .ite (.pure h.toStable) (.ite (.upd (h.lines _ _ _)) (.upd (h.cache _ _)))

theorem setHolder (line k : Nat) (x : Option LSt) : (setHolder line k x).Keeps R := by
  cases x with
  | none => exact .upd (h.dir fun m => SMap.set (fun _ => []) m line (SMap.erase (SMap.get (fun _ => []) m line) k))
  | some x => exact .upd (h.dir fun m => SMap.set (fun _ => []) m line (SMap.put (SMap.get (fun _ => []) m line) k x))

theorem gone (k line : Nat) : (Machine.dropCopies k line >>= fun _ => Machine.setHolder line k none).Keeps R :=
  .seq h.toStable (h.dropCopies k line) (h.setHolder line k none)

theorem leaveLine (k line : Nat) : (leaveLine k line).Keeps R := by
  have soiled := M.Keeps.seq h.toStable (h.soilHome line) (f := fun _ => Machine.dropCopies k line >>= fun _ => Machine.setHolder line k none)
    (h.gone k line)
  refine .get fun s => ?_
  dsimp only
  split
  · exact .seq h.toStable (.each h.toStable (h.combine1 _) _) soiled
  · exact soiled
  · exact h.gone k line

theorem collect (line : Nat) : (collect line).Keeps R := by
  have gone : ∀ us : List (Nat × List Partial), (each (fun e => do Machine.dropCopies e.1 line; Machine.setHolder line e.1 none) us).Keeps R :=
    .each h.toStable fun e => h.gone e.1 line
  exact .get fun s => .seq h.toStable (.each h.toStable (fun w => .each h.toStable (fun e => .each h.toStable (h.combine1 _) _) _) _)
    (.ite (gone _) (.seq h.toStable (h.soilHome line) (gone _)))

theorem expelLine (k line : Nat) : (expelLine k line).Keeps R := by
  refine .get fun s => ?_
  split
  · exact h.collect line
  · exact h.leaveLine k line

theorem sectors (c : Nat) (q : Nat × Line → Bool) (s : State) :
    R s ((Upd.core c fun k => { k with sect := k.sect.filter q }).apply s) := by
  simpa using h.lines c (fun _ => true) q s

theorem flushFrame (core f : Nat) : (flushFrame core f).Keeps R :=
  .get fun _ => .seq h.toStable (.each h.toStable (fun _ => .ite (h.expelLine _ _) (.pure h.toStable)) _) (.upd (h.sectors core _))

end LineStable

/-! ### What a function-level reset empties (R422) -/

/-- A partition as R422 leaves it. -/
structure Part.rested (q : Part) : Prop where
  st : q.st = .idle
  pool : q.pool = []
  mailbox : q.mailbox = []

/-- What has been emptied stays so, and nothing that a reset keeps has changed. -/
structure Emptied (s t : State) : Prop where
  pres : t.pres = s.pres
  wdlim : ∀ f, (t.vf f).wdlim = (s.vf f).wdlim
  pwref : ∀ f, (t.vf f).pwref = (s.vf f).pwref
  known : ∀ p, (t.part? p).isSome = (s.part? p).isSome
  rested : ∀ p, (s.part p).rested → (t.part p).rested
  idle : ∀ id, ctxOf id = 0 → (s.ctx id).run = .idle → (t.ctx id).run = .idle
  recvq : ∀ id, (s.ctx id).recvq = [] → (t.ctx id).recvq = []
  ctxCsr : ∀ id, (s.ctx id).csr = [] → (t.ctx id).csr = []
  task : ∀ c, (s.core c).task = none → (t.core c).task = none
  coreCsr : ∀ c, (s.core c).csr = [] → (t.core c).csr = []
  win : ∀ c, (s.core c).win = [] → (t.core c).win = []
  intv : ∀ k, (s.cluster k).intv = 0 → (t.cluster k).intv = 0
  bars : ∀ k, (s.cluster k).bars = [] → (t.cluster k).bars = []
  mutex : ∀ k, (s.cluster k).mutex = [] → (t.cluster k).mutex = []
  ports : ∀ p, (t.port p).ld = (s.port p).ld ∨ (t.port p).ld = none
  vops : ∀ o ∈ t.dev.vops, o ∈ s.dev.vops

theorem stable_emptied : Stable Emptied where
  refl _ := ⟨rfl, fun _ => rfl, fun _ => rfl, fun _ => rfl, fun _ => id, fun _ _ => id, fun _ => id, fun _ => id, fun _ => id, fun _ => id,
    fun _ => id, fun _ => id, fun _ => id, fun _ => id, fun _ => .inl rfl, fun _ => id⟩
  trans h k := {
    pres := k.pres.trans h.pres
    wdlim := fun f => (k.wdlim f).trans (h.wdlim f)
    pwref := fun f => (k.pwref f).trans (h.pwref f)
    known := fun p => (k.known p).trans (h.known p)
    rested := fun p => k.rested p ∘ h.rested p
    idle := fun id e => k.idle id e ∘ h.idle id e
    recvq := fun id => k.recvq id ∘ h.recvq id
    ctxCsr := fun id => k.ctxCsr id ∘ h.ctxCsr id
    task := fun c => k.task c ∘ h.task c
    coreCsr := fun c => k.coreCsr c ∘ h.coreCsr c
    win := fun c => k.win c ∘ h.win c
    intv := fun c => k.intv c ∘ h.intv c
    bars := fun c => k.bars c ∘ h.bars c
    mutex := fun c => k.mutex c ∘ h.mutex c
    ports := fun p => by
      rcases k.ports p with e | e
      · rw [e]
        exact h.ports p
      · exact .inr e
    vops := fun o => h.vops o ∘ k.vops o }

/-- An update that touches none of the parts named. -/
theorem Emptied.of_same {s t : State} (hp : t.pres = s.pres) (hv : t.vfs = s.vfs) (hq : t.parts = s.parts) (hx : t.ctxs = s.ctxs)
    (hc : t.cores = s.cores) (hk : t.clusters = s.clusters) (ho : t.ports = s.ports) (hd : ∀ o ∈ t.dev.vops, o ∈ s.dev.vops) : Emptied s t := by
  obtain ⟨mem, pois, vers, shadow, ctxs, cores, clusters, parts, vfs, ports, caches, cals, dev, pres, cycle, ref, refPh⟩ := t
  subst hp hv hq hx hc hk ho
  exact { stable_emptied.refl s with vops := hd }

/-! ### The updates of a reset -/

section
variable (s : State)

theorem emptied_dev {f : Dev → Dev} (h : ∀ d, ∀ o ∈ (f d).vops, o ∈ d.vops) : Emptied s ((Upd.dev f).apply s) :=
  .of_same rfl rfl rfl rfl rfl rfl rfl (h s.dev)

theorem emptied_cache (n : Nat) (f : Cache → Cache) : Emptied s ((Upd.cache n f).apply s) :=
  .of_same rfl rfl rfl rfl rfl rfl rfl fun _ => id

/-- What every core has and the update keeps, they have after it. -/
theorem State.core_upd_of {P : Core → Prop} {f : Core → Core} (h : ∀ x, P x → P (f x)) (c k : Nat) (e : P (s.core k)) :
    P (((Upd.core c f).apply s).core k) := by
  rw [State.core_upd_core]
  split
  · exact h _ e
  · exact e

theorem emptied_core (c : Nat) {f : Core → Core} (ht : ∀ x, x.task = none → (f x).task = none) (hc : ∀ x, x.csr = [] → (f x).csr = [])
    (hw : ∀ x, x.win = [] → (f x).win = []) : Emptied s ((Upd.core c f).apply s) where
  __ := stable_emptied.refl s
  task := State.core_upd_of s (P := (·.task = none)) ht c
  coreCsr := State.core_upd_of s (P := (·.csr = [])) hc c
  win := State.core_upd_of s (P := (·.win = [])) hw c

theorem State.ctx_upd_of {P : Ctx → Prop} {f : Ctx → Ctx} (h : ∀ x, P x → P (f x)) (id k : Nat) (e : P (s.ctx k)) :
    P (((Upd.ctx id f).apply s).ctx k) := by
  rw [State.ctx_upd_ctx]
  split
  · exact h _ e
  · exact e

theorem emptied_ctx (id : Nat) {f : Ctx → Ctx} (hi : ctxOf id = 0 → ∀ x, x.run = .idle → (f x).run = .idle)
    (hq : ∀ x, x.recvq = [] → (f x).recvq = []) (hc : ∀ x, x.csr = [] → (f x).csr = []) : Emptied s ((Upd.ctx id f).apply s) where
  __ := stable_emptied.refl s
  idle k h e := by
    rw [State.ctx_upd_ctx]
    split
    · next he => exact hi (he ▸ h) _ e
    · exact e
  recvq := State.ctx_upd_of s (P := (·.recvq = [])) hq id
  ctxCsr := State.ctx_upd_of s (P := (·.csr = [])) hc id

/-- What an update of one cluster does to each. -/
theorem State.cluster_upd_cluster (c : Nat) (f : Cluster → Cluster) (k : Nat) :
    ((Upd.cluster c f).apply s).cluster k = if k = c then f (s.cluster k) else s.cluster k := by
  split
  · next e =>
    subst e
    exact State.cluster_setCluster_self ..
  · next e => exact State.cluster_setCluster_ne _ _ e

theorem State.cluster_upd_of {P : Cluster → Prop} {f : Cluster → Cluster} (h : ∀ x, P x → P (f x)) (c k : Nat) (e : P (s.cluster k)) :
    P (((Upd.cluster c f).apply s).cluster k) := by
  rw [State.cluster_upd_cluster]
  split
  · exact h _ e
  · exact e

theorem emptied_cluster (c : Nat) {f : Cluster → Cluster} (hi : ∀ x, x.intv = 0 → (f x).intv = 0)
    (hb : ∀ x, x.bars = [] → (f x).bars = []) (hm : ∀ x, x.mutex = [] → (f x).mutex = []) : Emptied s ((Upd.cluster c f).apply s) where
  __ := stable_emptied.refl s
  intv := State.cluster_upd_of s (P := (·.intv = 0)) hi c
  bars := State.cluster_upd_of s (P := (·.bars = [])) hb c
  mutex := State.cluster_upd_of s (P := (·.mutex = [])) hm c

theorem emptied_part (p : Nat) {f : Part → Part} (hf : ∀ x, (f x).rested) : Emptied s ((Upd.part p f).apply s) where
  __ := stable_emptied.refl s
  known k := State.partOpt_setPart_isSome k f
  rested k e := by
    show ((s.setPart p f).part k).rested
    by_cases h : k = p
    · subst h
      rw [State.part_eq, State.partOpt_setPart, if_pos rfl]
      cases hq : s.part? k with
      | none => rwa [State.part_eq, hq] at e
      | some q => exact hf q
    · rwa [State.part_setPart_ne h]

theorem emptied_vf (t : Nat) {f : Vf → Vf} (hw : ∀ x, (f x).wdlim = x.wdlim) (hp : ∀ x, (f x).pwref = x.pwref) :
    Emptied s ((Upd.vf t f).apply s) where
  __ := stable_emptied.refl s
  wdlim k := by
    by_cases h : k = t
    · subst h
      exact (congrArg Vf.wdlim (State.vf_setVf_self ..)).trans (hw _)
    · exact congrArg Vf.wdlim (State.vf_setVf_ne _ _ h)
  pwref k := by
    by_cases h : k = t
    · subst h
      exact (congrArg Vf.pwref (State.vf_setVf_self ..)).trans (hp _)
    · exact congrArg Vf.pwref (State.vf_setVf_ne _ _ h)

/-- What an update that unloads a port does to each. -/
theorem State.port_unloaded (c k : Nat) :
    (((Upd.port c fun q => { q with ld := none }).apply s).port k).ld = if k = c then none else (s.port k).ld := by
  split
  · next e =>
    subst e
    exact congrArg Port.ld (SMap.get_set_self ..)
  · next e => exact congrArg Port.ld (SMap.get_set_ne _ _ _ e)

theorem emptied_port (p : Nat) : Emptied s ((Upd.port p fun q => { q with ld := none }).apply s) where
  __ := stable_emptied.refl s
  ports k := by
    rw [State.port_unloaded]
    split
    · exact .inr rfl
    · exact .inl rfl

end

theorem lines_emptied : LineStable Emptied where
  __ := stable_emptied
  poke _ _ _ := .of_same rfl rfl rfl rfl rfl rfl rfl fun _ => id
  poison _ _ := .of_same rfl rfl rfl rfl rfl rfl rfl fun _ => id
  cache n f s := emptied_cache s n f
  lines c _ _ s := emptied_core s c (fun _ => id) (fun _ => id) (fun _ => id)
  dir _ s := emptied_dev s fun _ _ => id

/-! ### The parts of a reset keep what is empty -/

theorem keepsEmptied_dev {f : Dev → Dev} (h : ∀ d, (f d).vops = d.vops) : (upd (.dev f)).Keeps Emptied :=
  .upd fun s => emptied_dev s fun d _ ho => h d ▸ ho

theorem keepsEmptied_forget (w : Who) : (forget w).Keeps Emptied := keepsEmptied_dev fun _ => rfl

theorem keepsEmptied_sendPacket (ca : Bool) (p : Packet) : (sendPacket ca p).Keeps Emptied := by
  refine .get fun s => ?_
  split
  · exact .pure stable_emptied
  · exact keepsEmptied_dev fun _ => rfl

theorem keepsEmptied_post (ca : Bool) (p : Packet) : (post ca p).Keeps Emptied :=
  .get fun _ => .ite (.pure stable_emptied) (.seq stable_emptied (keepsEmptied_dev fun _ => rfl) (keepsEmptied_sendPacket _ _))

theorem keepsEmptied_sendMsix (fn v : Nat) : (sendMsix fn v).Keeps Emptied :=
  .get fun _ => .ite (.pure stable_emptied) (.ite (keepsEmptied_dev fun _ => rfl)
    (.upd fun s => emptied_vf s fn (fun _ => rfl) (fun _ => rfl)))

theorem keepsEmptied_noteMiss (t gpa : Nat) : (noteMiss t gpa).Keeps Emptied :=
  .seq stable_emptied (keepsEmptied_dev fun _ => rfl) (keepsEmptied_sendMsix 64 1)

theorem keepsEmptied_tellScrub (ids : List Nat) (t addr : Nat) : (tellScrub ids t addr).Keeps Emptied := by
  refine .get fun _ => .each stable_emptied (fun q => .get fun s => .ite (.pure stable_emptied) ?_) _
  exact .seq stable_emptied (keepsEmptied_dev fun _ => rfl) (keepsEmptied_sendPacket _ _)

theorem reaches_beginScrub (x : ScrubOf) (cause : BitVec 8) (s : State) : ∃ t q, (beginScrub x cause).leads s t q ∧ Emptied s t :=
  ⟨_, _, leads_beginScrub x cause s, emptied_dev s fun _ _ => id⟩

theorem reaches_mapL {R : State → State → Prop} (hR : Stable R) {α β : Type} {f : α → M β} (h : ∀ x s, ∃ t b, (f x).leads s t b ∧ R s t) :
    ∀ (l : List α) (s : State), ∃ t bs, (mapL f l).leads s t bs ∧ R s t
  | [], s => ⟨s, [], M.leads_pure _ s, hR.refl s⟩
  | x :: l, s => by
    obtain ⟨t, b, ht, rt⟩ := h x s
    obtain ⟨u, bs, hu, ru⟩ := reaches_mapL hR h l t
    exact ⟨u, b :: bs, M.leads_bind ht (M.leads_bind hu (M.leads_pure _ u)), hR.trans rt ru⟩

theorem keepsEmptied_releaseRun (ca : Bool) (t g n : Nat) : (releaseRun ca t g n).Keeps Emptied :=
  .get fun _ => .seq stable_emptied (keepsEmptied_dev fun _ => rfl)
    (.bind stable_emptied (reaches_mapL stable_emptied (fun _ => reaches_beginScrub _ _) _) fun _ => keepsEmptied_tellScrub _ _ _)

theorem keepsEmptied_flrGranules (t : Nat) : (flrGranules t).Keeps Emptied :=
  .get fun _ => .each stable_emptied (fun _ => .seq stable_emptied
    (.get fun _ => .each stable_emptied (fun _ => keepsEmptied_releaseRun _ _ _ _) _)
    (.each stable_emptied (fun _ => .get fun _ => keepsEmptied_post _ _) _)) _

theorem keepsEmptied_dropRange (lo hi : Nat) : (dropRange lo hi).Keeps Emptied :=
  .get fun _ => .seq stable_emptied (.each stable_emptied (fun _ => .upd fun s => lines_emptied.lines _ _ _ s) _)
    (.seq stable_emptied (.each stable_emptied (fun _ => .ite (.upd fun s => emptied_cache s _ _) (.pure stable_emptied)) _)
      (keepsEmptied_dev fun _ => rfl))

theorem keepsEmptied_releaseBlock (t g : Nat) : (releaseBlock t g).Keeps Emptied := by
  refine .get fun s => ?_
  split
  · exact .pure stable_emptied
  · exact .seq stable_emptied (.upd fun s => emptied_vf s t (fun _ => rfl) (fun _ => rfl))
      (.seq stable_emptied (keepsEmptied_dropRange _ _) (.seq stable_emptied (keepsEmptied_dev fun _ => rfl)
        (.get fun _ => .bind stable_emptied (reaches_beginScrub _ _) fun _ => .seq stable_emptied
          (.each stable_emptied (fun _ => keepsEmptied_noteMiss _ _) _) (keepsEmptied_tellScrub _ _ _))))

theorem keepsEmptied_unmapAll (core : Nat) : (unmapAll core).Keeps Emptied :=
  .get fun _ => .seq stable_emptied (.each stable_emptied (fun _ => lines_emptied.flushFrame core _) _)
    (.upd fun s => emptied_core s core (fun _ => id) (fun _ => id) (fun _ => id))

theorem keepsEmptied_tellGroup (p b flags : Nat) : (tellGroup p b flags).Keeps Emptied :=
  .get fun _ => .each stable_emptied (fun _ => .ite (.pure stable_emptied) (keepsEmptied_sendPacket _ _)) _

theorem keepsEmptied_setGbar (p b q n : Nat) : (setGbar p b q n).Keeps Emptied := keepsEmptied_dev fun _ => rfl

theorem keepsEmptied_groupLeft (p : Nat) (s : State) : (each (fun b => if (s.groupMembers p b).isEmpty then pure () else do
    tellGroup p b 2
    each (fun q => setGbar p b q 0) (List.range 16)) (List.range 4)).Keeps Emptied :=
  .each stable_emptied (fun b => .ite (.pure stable_emptied) (.seq stable_emptied (keepsEmptied_tellGroup p b 2)
    (.each stable_emptied (fun _ => keepsEmptied_setGbar _ _ _ _) _))) _

theorem keepsEmptied_quiet (k : Nat) : (upd (.cluster k Cluster.quiet)).Keeps Emptied :=
  .upd fun s => emptied_cluster s k (fun _ => id) (fun _ _ => rfl) (fun _ _ => rfl)

theorem keepsEmptied_resetEvents (p : Nat) : (resetEvents p).Keeps Emptied :=
  .get fun s => .seq stable_emptied (keepsEmptied_groupLeft p s) (.each stable_emptied keepsEmptied_quiet _)

theorem keepsEmptied_forgetPort (p : Nat) : (forgetPort p).Keeps Emptied :=
  .seq stable_emptied (keepsEmptied_forget _) (keepsEmptied_forget _)

/-! ### Cores whose task ends (R211, R422) -/

/-- A core of the tenant as R422 leaves it. -/
structure State.CoreEmpty (s : State) (c : Nat) : Prop where
  task : (s.core c).task = none
  idle : (s.ctx (ctxId c 0)).run = .idle
  recvq : (s.ctx (ctxId c 0)).recvq = []
  csr : (s.core c).csr = []
  win : (s.core c).win = []
  ctxCsr : ∀ k < ctxCount c, (s.ctx (ctxId c k)).csr = []

theorem ctxOf_ctxId_zero (c : Nat) : ctxOf (ctxId c 0) = 0 := Nat.mul_mod_left c 16

theorem State.CoreEmpty.mono {s t : State} {c : Nat} (h : Emptied s t) (e : s.CoreEmpty c) : t.CoreEmpty c :=
  ⟨h.task c e.task, h.idle _ (ctxOf_ctxId_zero c) e.idle, h.recvq _ e.recvq, h.coreCsr c e.csr, h.win c e.win,
    fun k hk => h.ctxCsr _ (e.ctxCsr k hk)⟩

/-- A context of a core whose task ends (R211). -/
def Ctx.ending (id : Nat) (c : Ctx) : Ctx :=
  if ctxOf id == 0 then Ctx.ended .idle c else if c.run == .free then c else Ctx.ended .free c

theorem Ctx.ending_cases (id : Nat) (x : Ctx) : x.ending id = x ∨ ∃ r, x.ending id = x.ended r := by
  unfold Ctx.ending
  split
  · exact .inr ⟨_, rfl⟩
  · split
    · exact .inl rfl
    · exact .inr ⟨_, rfl⟩

theorem Ctx.ending_zero {id : Nat} (h : ctxOf id = 0) (x : Ctx) : x.ending id = x.ended .idle := if_pos (by rw [h]; rfl)

theorem keepsEmptied_ending (id : Nat) : (upd (.ctx id (Ctx.ending id))).Keeps Emptied := .upd fun s => by
  refine emptied_ctx s id (fun h x _ => by rw [Ctx.ending_zero h]; rfl) (fun x e => ?_) (fun x e => ?_)
  all_goals
    rcases Ctx.ending_cases id x with h | ⟨r, h⟩ <;> rw [h]
  · exact e
  · rfl
  · exact e
  · exact e

/-- A core whose task has ended (R211). -/
def Core.taskless (k : Core) : Core :=
  { k with task := none, vq := [], dwell := 0, win := k.win.filter fun e => match e.st with | .started _ => true | _ => false }

theorem keepsEmptied_taskless (core : Nat) : (upd (.core core Core.taskless)).Keeps Emptied :=
  .upd fun s => emptied_core s core (fun _ _ => rfl) (fun _ => id) (fun x e => by unfold Core.taskless; rw [e]; rfl)

/-- A task has ended: what of R422 has been reached. -/
theorem reaches_endTask (core : Nat) (s : State) : ∃ t, (endTask core).leads s t () ∧ Emptied s t ∧
    (t.core core).task = none ∧ (t.ctx (ctxId core 0)).run = .idle ∧ (t.ctx (ctxId core 0)).recvq = [] := by
  have ke : (each (fun id => upd (.ctx id (Ctx.ending id))) (ctxsOf core)).Keeps Emptied := .each stable_emptied keepsEmptied_ending _
  have h0 : ctxId core 0 ∈ ctxsOf core := List.mem_map_of_mem (List.mem_range.2 (by unfold ctxCount; split <;> decide))
  have hq := M.Keeps.each_establishes stable_emptied keepsEmptied_ending
    (Q := fun id u => ctxOf id = 0 → (u.ctx id).run = .idle ∧ (u.ctx id).recvq = [])
    (fun id _ _ h e z => ⟨h.idle id z (e z).1, h.recvq id (e z).2⟩) (ctxsOf core) s
    (fun id _ t _ z => by
      rw [(M.leads_upd (.ctx id (Ctx.ending id)) t).ran_eq, State.ctx_upd_ctx, if_pos rfl, Ctx.ending_zero z]
      exact ⟨rfl, rfl⟩) _ h0 (ctxOf_ctxId_zero core)
  have kr := M.Keeps.seq stable_emptied (keepsEmptied_taskless core) (f := fun _ => upd (.dev (Dev.forget fun w =>
    match w with | .ctx id => coreOf id == core | .vec c => c == core | _ => false))) (keepsEmptied_dev fun _ => rfl)
  have er := kr.rel (s.ran (each (fun id => upd (.ctx id (Ctx.ending id))) (ctxsOf core)))
  refine ⟨_, M.leads_bind (ke.leads s) (kr.leads _), stable_emptied.trans (ke.rel s) er, ?_,
    er.idle _ (ctxOf_ctxId_zero core) hq.1, er.recvq _ hq.2⟩
  rw [(M.leads_upd_bind (M.leads_upd _ _)).ran_eq]
  exact congrArg Core.task ((State.core_upd_core core Core.taskless _ core).trans (if_pos rfl))

/-- A core whose CSRs and windows a reset has cleared (R5, R422). -/
def Core.csrless (c : Core) : Core :=
  { c with csr := [], cpois := [], fresh := 0, win := [], cq := [], rules := [], locks := [], sliceInt := false, hostInt := false }

theorem keepsEmptied_csrless (core : Nat) : (upd (.core core Core.csrless)).Keeps Emptied :=
  .upd fun s => emptied_core s core (fun _ => id) (fun _ _ => rfl) (fun _ _ => rfl)

theorem keepsEmptied_csrlessCtx (k : Nat) : (upd (.ctx k fun c => { c with csr := [], cpois := [] })).Keeps Emptied :=
  .upd fun s => emptied_ctx s k (f := fun c => { c with csr := [], cpois := [] }) (fun _ _ => id) (fun _ => id) (fun _ _ => rfl)

theorem keepsEmptied_unslot (k : Nat) : (forget (.ctx k) >>= fun _ => upd (.ctx k fun c =>
    { c with slot := none, spilled := 0, saved := [] })).Keeps Emptied :=
  .seq stable_emptied (keepsEmptied_forget _) (.upd fun s =>
    emptied_ctx s k (f := fun c => { c with slot := none, spilled := 0, saved := [] }) (fun _ _ => id) (fun _ => id) (fun _ => id))

theorem keepsEmptied_scrub (lo hi : Nat) : (upd (.scrub lo hi)).Keeps Emptied :=
  .upd fun _ => .of_same rfl rfl rfl rfl rfl rfl rfl fun _ => id

/-- The second part of what R422 does to a core that is no vent core: stash frames, memory and CSRs. -/
def flrClean (core : Nat) : M Unit := do
  unmapAll core
  let s ← get
  upd (.scrub ((Space.lm core).loc (s.core core).stashBase) ((Space.lm core).loc 0x2F000))
  each (fun k => upd (.ctx k fun c => { c with csr := [], cpois := [] })) (ctxsOf core)
  upd (.core core Core.csrless)

theorem flrCore_eq (core : Nat) : flrCore core = (do
    endTask core
    each (fun k => forget (.ctx k) >>= fun _ => upd (.ctx k fun c => { c with slot := none, spilled := 0, saved := [] })) (ctxsOf core)
    if isVent core then pure () else flrClean core) := rfl

theorem reaches_flrClean (core : Nat) (s : State) : ∃ t, (flrClean core).leads s t () ∧ Emptied s t ∧ (t.core core).csr = [] ∧
    (t.core core).win = [] ∧ ∀ k ∈ ctxsOf core, (t.ctx k).csr = [] := by
  have ku := keepsEmptied_unmapAll core
  have ks := keepsEmptied_scrub ((Space.lm core).loc ((s.ran (unmapAll core)).core core).stashBase) ((Space.lm core).loc 0x2F000)
  have kc := M.Keeps.each stable_emptied keepsEmptied_csrlessCtx (ctxsOf core)
  have kw := keepsEmptied_csrless core
  have hcsr := fun u => M.Keeps.each_establishes stable_emptied keepsEmptied_csrlessCtx (Q := fun k u => (u.ctx k).csr = [])
    (fun k _ _ e => e.ctxCsr k) (ctxsOf core) u fun k _ t _ => by
      rw [(M.leads_upd _ t).ran_eq, State.ctx_upd_ctx, if_pos rfl]
  refine ⟨_, M.leads_bind (ku.leads s) (M.leads_get_bind (M.leads_bind (ks.leads _) (M.leads_bind (kc.leads _) (M.leads_upd _ _)))),
    stable_emptied.trans (ku.rel s) (stable_emptied.trans (ks.rel _) (stable_emptied.trans (kc.rel _) ?_)), ?_, ?_, hcsr _⟩
  · rw [← (M.leads_upd _ _).ran_eq]
    exact kw.rel _
  · rw [State.core_upd_core, if_pos rfl]
    rfl
  · rw [State.core_upd_core, if_pos rfl]
    rfl

theorem keepsEmptied_flrCore (core : Nat) : (flrCore core).Keeps Emptied := by
  refine flrCore_eq core ▸ .bind stable_emptied (fun s => ?_) fun _ => .seq stable_emptied
    (.each stable_emptied keepsEmptied_unslot _) (.ite (.pure stable_emptied) fun s => ?_)
  · obtain ⟨t, l, e, -⟩ := reaches_endTask core s
    exact ⟨t, (), l, e⟩
  · obtain ⟨t, l, e, -⟩ := reaches_flrClean core s
    rw [l.ran_eq]
    exact ⟨l, e⟩

theorem State.coreEmpty_flrCore {core : Nat} (h : core < 4096) (s : State) : (s.ran (flrCore core)).CoreEmpty core := by
  obtain ⟨a, la, -, ht, hi, hq⟩ := reaches_endTask core s
  have kb := M.Keeps.each stable_emptied keepsEmptied_unslot (ctxsOf core)
  obtain ⟨u, lu, eu, hc, hw, hx⟩ := reaches_flrClean core (a.ran (each (fun k => forget (.ctx k) >>= fun _ =>
    upd (.ctx k fun c => { c with slot := none, spilled := 0, saved := [] })) (ctxsOf core)))
  have e := stable_emptied.trans (kb.rel a) eu
  have l : (flrCore core).leads s u () := by
    rw [flrCore_eq, if_neg (by simpa [isVent] using h)]
    exact M.leads_bind la (M.leads_bind (kb.leads a) lu)
  rw [l.ran_eq]
  exact ⟨e.task core ht, e.idle _ (ctxOf_ctxId_zero core) hi, e.recvq _ hq, hc, hw,
    fun k hk => hx _ (List.mem_map_of_mem (List.mem_range.2 hk))⟩

/-- The tenant's cores, and vent cores that run for it, have been reset. -/
theorem State.coreEmpty_flrCores (cs : List Nat) (s : State) : ∀ c ∈ cs, c < 4096 → (s.ran (each flrCore cs)).CoreEmpty c :=
  M.Keeps.each_establishes stable_emptied keepsEmptied_flrCore (Q := fun c s => c < 4096 → s.CoreEmpty c)
    (fun _ _ _ e h hc => (h hc).mono e) cs s fun _ _ t _ hc => State.coreEmpty_flrCore hc t

/-! ### Operations, ports, clusters and partitions of the tenant -/

theorem keepsEmptied_forgetOp (t : Nat) (o : VOp) : (if o.ten == t then (do
      upd (.core o.core fun c => { c with locks := c.locks.filter fun l => l.op != o.id })
      forget (.vop o.id))
    else pure () : M Unit).Keeps Emptied :=
  .ite (.seq stable_emptied (.upd fun s => emptied_core s o.core (f := fun c => { c with locks := c.locks.filter fun l => l.op != o.id })
    (fun _ => id) (fun _ => id) (fun _ => id)) (keepsEmptied_forget _)) (.pure stable_emptied)

theorem keepsEmptied_unload (p : Nat) : (upd (.port p fun q => { q with ld := none }) >>= fun _ => forgetPort p).Keeps Emptied :=
  .seq stable_emptied (.upd fun s => emptied_port s p) (keepsEmptied_forgetPort p)

theorem State.port_unload (p : Nat) (s : State) : ((s.ran (upd (.port p fun q => { q with ld := none }) >>= fun _ => forgetPort p)).port p).ld
    = none := by
  rw [State.ran_bind (R := Emptied) (.upd fun s => emptied_port s p) (keepsEmptied_forgetPort p), (M.leads_upd _ s).ran_eq]
  rcases ((keepsEmptied_forgetPort p).rel _).ports p with e | e
  · rw [e, State.port_unloaded, if_pos rfl]
  · exact e

/-- A port that the tenant's number is on is unloaded. -/
def flrPort (t : Nat) (e : Nat × Port) : M Unit :=
  if e.2.ten = some t && e.2.ld.isSome then (do
    upd (.port e.1 fun q => { q with ld := none })
    forgetPort e.1)
  else pure ()

theorem keepsEmptied_flrPort (t : Nat) (e : Nat × Port) : (flrPort t e).Keeps Emptied :=
  .ite (keepsEmptied_unload e.1) (.pure stable_emptied)

theorem State.port_flrPorts (t : Nat) (l : SMap Port) (s : State) : ∀ e ∈ l, e.2.ten = some t → e.2.ld.isSome = true →
    ((s.ran (each (flrPort t) l)).port e.1).ld = none :=
  M.Keeps.each_establishes stable_emptied (keepsEmptied_flrPort t)
    (Q := fun e s => e.2.ten = some t → e.2.ld.isSome = true → (s.port e.1).ld = none)
    (fun e a b h q ht hl => by
      rcases h.ports e.1 with h | h
      · exact h.trans (q ht hl)
      · exact h) l s fun e _ u _ ht hl => by
    unfold flrPort
    rw [ht, hl, if_pos (by simp)]
    exact State.port_unload e.1 u

theorem State.bars_resetEvents (p : Nat) (s : State) : ∀ k ∈ s.nodeClusters p, ((s.ran (resetEvents p)).cluster k).bars = [] ∧
    ((s.ran (resetEvents p)).cluster k).mutex = [] := by
  have kg := keepsEmptied_groupLeft p s
  have l : (resetEvents p).leads s _ () := M.leads_get_bind (M.leads_bind (kg.leads s)
    ((M.Keeps.each stable_emptied keepsEmptied_quiet (s.nodeClusters p)).leads _))
  rw [l.ran_eq]
  exact M.Keeps.each_establishes stable_emptied keepsEmptied_quiet (Q := fun k u => (u.cluster k).bars = [] ∧ (u.cluster k).mutex = [])
    (fun k _ _ e h => ⟨e.bars k h.1, e.mutex k h.2⟩) _ _ fun k _ t _ => by
      rw [(M.leads_upd _ t).ran_eq, State.cluster_upd_cluster, if_pos rfl]
      exact ⟨rfl, rfl⟩

theorem nodeClusters_of_pres {s t : State} (h : t.pres = s.pres) (p : Nat) : t.nodeClusters p = s.nodeClusters p := by
  unfold State.nodeClusters State.clPresent
  rw [h]

theorem State.bars_flr (ps : List Nat) (s : State) : ∀ p ∈ ps, ∀ k ∈ s.nodeClusters p, ((s.ran (each resetEvents ps)).cluster k).bars = [] ∧
    ((s.ran (each resetEvents ps)).cluster k).mutex = [] :=
  M.Keeps.each_establishes stable_emptied keepsEmptied_resetEvents
    (Q := fun p u => ∀ k ∈ s.nodeClusters p, (u.cluster k).bars = [] ∧ (u.cluster k).mutex = [])
    (fun _ _ _ e h k hk => ⟨e.bars k (h k hk).1, e.mutex k (h k hk).2⟩) ps s fun p _ t e k hk =>
      State.bars_resetEvents p t k (nodeClusters_of_pres e.pres p ▸ hk)

theorem keepsEmptied_intv (k : Nat) : (upd (.cluster k fun c => { c with intv := 0 })).Keeps Emptied :=
  .upd fun s => emptied_cluster s k (f := fun c => { c with intv := 0 }) (fun _ _ => rfl) (fun _ => id) (fun _ => id)

theorem State.intv_flr (ks : List Nat) (s : State) : ∀ k ∈ ks,
    ((s.ran (each (fun k => upd (.cluster k fun c => { c with intv := 0 })) ks)).cluster k).intv = 0 :=
  M.Keeps.each_establishes stable_emptied keepsEmptied_intv (Q := fun k u => (u.cluster k).intv = 0) (fun k _ _ e => e.intv k) ks s
    fun k _ t _ => by rw [(M.leads_upd _ t).ran_eq, State.cluster_upd_cluster, if_pos rfl]

/-- A partition that a reset leaves to its tenant. -/
def Part.bare (q : Part) : Part := { Part.reset with st := .idle, ten := q.ten, intv := q.intv }

theorem Part.bare_rested (q : Part) : q.bare.rested := ⟨rfl, rfl, rfl⟩

theorem keepsEmptied_bare (p : Nat) : (upd (.part p Part.bare)).Keeps Emptied := .upd fun s => emptied_part s p Part.bare_rested

theorem State.rested_flr (ps : List Nat) (s : State) (h : ∀ p ∈ ps, (s.part? p).isSome = true) :
    ∀ p ∈ ps, ((s.ran (each (fun p => upd (.part p Part.bare)) ps)).part p).rested :=
  M.Keeps.each_establishes stable_emptied keepsEmptied_bare (Q := fun p u => (u.part p).rested) (fun p _ _ e => e.rested p) ps s
    fun p hp t e => by
      rw [(M.leads_upd _ t).ran_eq]
      show ((t.setPart p Part.bare).part p).rested
      rw [State.part_setPart_self ((e.known p).trans (h p hp))]
      exact Part.bare_rested _

/-- One port of the table, freed when both its ends are idle (R123). -/
def freeIdle (idle : Nat → Bool) (e : Nat × Port) : M Unit :=
  match e.2.ld with
  | some q => if idle (pSPNODE q.img) && idle (pRPNODE q.img) then (do
      upd (.port e.1 fun x => { x with ld := none })
      forgetPort e.1)
    else pure ()
  | none => pure ()

/-- Whether a partition is one that holds no port: idle, of nobody, or none. -/
def State.atRest (s : State) (n : Nat) : Bool :=
  match s.part? n with
  | some x => x.st == .idle || x.st == .unowned
  | none => true

theorem freeIdlePorts_eq : freeIdlePorts = (do
    let s ← get
    each (freeIdle s.atRest) s.ports) := rfl

theorem State.atRest_of_rested {s : State} {p : Nat} (h : (s.part p).rested) : s.atRest p = true := by
  unfold State.atRest
  rw [State.part_eq] at h
  split
  · next q hq =>
    rw [hq, Option.getD_some] at h
    rw [h.st]
    rfl
  · rfl

theorem keepsEmptied_freeIdle (idle : Nat → Bool) (e : Nat × Port) : (freeIdle idle e).Keeps Emptied := by
  unfold freeIdle
  split
  · exact .ite (keepsEmptied_unload e.1) (.pure stable_emptied)
  · exact .pure stable_emptied

theorem keepsEmptied_freeIdlePorts : freeIdlePorts.Keeps Emptied :=
  freeIdlePorts_eq ▸ .get fun _ => .each stable_emptied (keepsEmptied_freeIdle _) _

/-- A port between two partitions at rest is freed. -/
theorem State.port_freeIdlePorts {s : State} {p : Nat} {q : PortLd} (h : (s.port p).ld = some q) (hs : s.atRest (pSPNODE q.img) = true)
    (hr : s.atRest (pRPNODE q.img) = true) : ((s.ran freeIdlePorts).port p).ld = none := by
  have l : freeIdlePorts.leads s _ () :=
    freeIdlePorts_eq ▸ M.leads_get_bind ((M.Keeps.each stable_emptied (keepsEmptied_freeIdle s.atRest) s.ports).leads s)
  have hm : (p, s.port p) ∈ s.ports := by
    rcases SMap.get_default_or_mem (fun _ => Port.reset) s.ports p with e | e
    · rw [show s.port p = Port.reset from e] at h
      cases h
    · exact e
  rw [l.ran_eq]
  refine M.Keeps.each_establishes stable_emptied (keepsEmptied_freeIdle s.atRest)
    (Q := fun e u => e.2.ld = some q → (u.port e.1).ld = none) (fun e _ _ k a b => ?_) s.ports s (fun e _ t _ he => ?_) _ hm h
  · rcases k.ports e.1 with k | k
    · exact k.trans (a b)
    · exact k
  · unfold freeIdle
    rw [he]
    dsimp only
    rw [hs, hr, Bool.and_self, if_pos rfl]
    exact State.port_unload e.1 t

/-! ### FUNCTION_LEVEL_RESET -/

/-- What a function-level reset leaves in the device's records of a tenant. -/
def Dev.withoutTenant (t : Nat) (d : Dev) : Dev :=
  { d with vops := d.vops.filter fun o => !(o.ten == t), roots := d.roots.filter fun e => e.1 / 2048 != t }

theorem emptied_withoutTenant (t : Nat) (s : State) : Emptied s ((Upd.dev (Dev.withoutTenant t)).apply s) :=
  emptied_dev s fun _ _ h => (List.mem_filter.1 h).1

/-- The function's registers after its reset. -/
def Vf.afterFlr (ref : Word) (v : Vf) : Vf :=
  { Vf.reset with wdlim := v.wdlim, wdcount := v.wdcount, wdpnode := v.wdpnode, pwref := v.pwref, res := v.res, save := v.save, toff := 0 - ref }

/-- Deque entries of a tenant's partitions dropped. -/
def Core.withoutNodes (ps : List Nat) (c : Core) : Core := { c with deque := c.deque.filter fun r => !ps.contains r.pnode }

section
variable {t : Nat} {s : State}

theorem busy_of_arrived {v : Vf} {w : Word} (h : HostOp.reg (.bar0 0) w ∈ v.arrived) : v.busy = true := by
  unfold Vf.busy Vf.waitsFor
  rw [List.any_eq_true.2 ⟨_, h, rfl⟩, Bool.or_true]

theorem not_busy {v : Vf} (h0 : v.cmd = none) (h : ∀ w, HostOp.reg (.bar0 0) w ∉ v.arrived) : v.busy = false := by
  unfold Vf.busy Vf.waitsFor
  rw [h0, Option.isSome_none, Bool.false_or, List.any_eq_false]
  intro o ho
  split
  · next x w =>
    intro e
    have hx : x = 0 := by simpa using e
    exact h w (hx ▸ ho)
  · simp

theorem functionLevelReset_waits (h : 64 ≤ t ∨ (s.vf t).cmd ≠ none ∨ ∃ w, HostOp.reg (.bar0 0) w ∈ (s.vf t).arrived) :
    exec (.functionLevelReset t) s = .next s := by
  have hb : (decide (PF ≤ t) || (s.vf t).busy) = true := by
    rcases h with h | h | ⟨w, h⟩
    · rw [decide_eq_true (show PF ≤ t from h), Bool.true_or]
    · unfold Vf.busy
      rw [Option.isSome_iff_ne_none.2 h, Bool.true_or, Bool.or_true]
    · rw [busy_of_arrived h, Bool.or_true]
  show event _ s = _
  rw [event_get, hb, if_pos rfl]
  rfl

theorem SMap.find_isSome_of_mem {α : Type} {m : SMap α} {e : Nat × α} (h : e ∈ m) : (SMap.find m e.1).isSome = true := by
  induction m with
  | nil => cases h
  | cons x m ih =>
    obtain ⟨j, v⟩ := x
    rw [SMap.find]
    split
    · rfl
    · next hj => exact ih ((List.mem_cons.1 h).resolve_left fun e => hj (by rw [e]))

theorem mem_partsOf {p : Nat} (h : p ∈ s.partsOf t) : (s.part? p).isSome = true := by
  obtain ⟨e, he, h⟩ := List.mem_filterMap.1 h
  split at h
  · cases h
    exact SMap.find_isSome_of_mem he
  · cases h

theorem coresOf_lt {c : Nat} (h : c ∈ s.coresOf t) : c < 4096 := by
  obtain ⟨p, -, h⟩ := List.mem_flatMap.1 h
  obtain ⟨k, hk, h⟩ := List.mem_flatMap.1 h
  have h1 : k < 1024 := by
    by_contra hn
    have e := (List.mem_filter.1 hk).2
    unfold State.clPresent at e
    rw [BitVec.getLsbD_of_ge _ _ (by omega)] at e
    cases e
  simp only [List.mem_cons, List.not_mem_nil, or_false] at h
  omega

/-- The steps of a function-level reset that is not refused, from state `s` on. -/
def flrSteps (t : Nat) (s : State) : M Unit := do
  each flrCore (s.coresOf t ++ s.ventsOf t)
  each (fun (o : VOp) => if o.ten == t then do
      upd (.core o.core fun c => { c with locks := c.locks.filter fun l => l.op != o.id })
      forget (.vop o.id)
    else pure ()) s.dev.vops
  upd (.dev (Dev.withoutTenant t))
  each (flrPort t) s.ports
  each (fun (e : Nat × Core) => upd (.core e.1 (Core.withoutNodes (s.partsOf t)))) s.cores
  each resetEvents (s.partsOf t)
  each (fun k => upd (.cluster k fun c => { c with intv := 0 })) ((s.partsOf t).flatMap s.nodeClusters)
  each (fun p => upd (.part p Part.bare)) (s.partsOf t)
  freeIdlePorts
  each forget [fnWho t, apertureWho t, windowWho t, reportWho t]
  flrGranules t
  each (fun (e : Nat × Nat) => releaseBlock t e.1) (s.vf t).s2
  forgetStalls t fun _ => true
  upd (.vf t (Vf.afterFlr s.ref))

theorem execFunctionLevelReset_eq (t : Nat) : execFunctionLevelReset t = event (do
    let s ← get
    if PF ≤ t || (s.vf t).busy then stall else flrSteps t s) := rfl

/-- What the statement says of a state after a function-level reset. -/
structure State.FlrDone (s : State) (t : Nat) (u : State) : Prop where
  fn : (u.vf t).paused = false ∧ (u.vf t).s2 = [] ∧ (u.vf t).pwin = []
  counts : (u.vf t).wdlim = (s.vf t).wdlim ∧ (u.vf t).pwref = (s.vf t).pwref
  parts : ∀ p ∈ s.partsOf t, (u.part p).rested
  cores : ∀ c ∈ s.coresOf t, u.CoreEmpty c
  clusters : ∀ p ∈ s.partsOf t, ∀ k ∈ s.nodeClusters p, (u.cluster k).intv = 0 ∧ (u.cluster k).bars = [] ∧ (u.cluster k).mutex = []
  numbered : ∀ p, (s.port p).ten = some t → (u.port p).ld = none
  vops : ∀ o ∈ u.dev.vops, o.ten ≠ t
  between : ∀ p q, (s.port p).ld = some q → pSPNODE q.img ∈ s.partsOf t → pRPNODE q.img ∈ s.partsOf t → (u.port p).ld = none

theorem reaches_flrSteps (t : Nat) (s : State) : ∃ u, (flrSteps t s).leads s u () ∧ s.FlrDone t u := by
  have k1 := M.Keeps.each stable_emptied keepsEmptied_flrCore (s.coresOf t ++ s.ventsOf t)
  have k2 := M.Keeps.each stable_emptied (keepsEmptied_forgetOp t) s.dev.vops
  have k4 := M.Keeps.each stable_emptied (keepsEmptied_flrPort t) s.ports
  have k5 := M.Keeps.each stable_emptied (fun e : Nat × Core => M.Keeps.upd (u := .core e.1 (Core.withoutNodes (s.partsOf t)))
    fun s => emptied_core s e.1 (fun _ => id) (fun _ => id) (fun _ => id)) s.cores
  have k6 := M.Keeps.each stable_emptied keepsEmptied_resetEvents (s.partsOf t)
  have k7 := M.Keeps.each stable_emptied keepsEmptied_intv ((s.partsOf t).flatMap s.nodeClusters)
  have k8 := M.Keeps.each stable_emptied keepsEmptied_bare (s.partsOf t)
  have k10 := M.Keeps.each stable_emptied keepsEmptied_forget [fnWho t, apertureWho t, windowWho t, reportWho t]
  have k12 := M.Keeps.each stable_emptied (fun e : Nat × Nat => keepsEmptied_releaseBlock t e.1) (s.vf t).s2
  have k13 : (forgetStalls t fun _ => true).Keeps Emptied := keepsEmptied_dev fun _ => rfl
  obtain ⟨s1, l1, e1, q1⟩ : ∃ u, (each flrCore (s.coresOf t ++ s.ventsOf t)).leads s u () ∧ Emptied s u ∧ ∀ c ∈ s.coresOf t, u.CoreEmpty c :=
    ⟨_, k1.leads s, k1.rel s, fun c hc => State.coreEmpty_flrCores _ s c (List.mem_append_left _ hc) (coresOf_lt hc)⟩
  obtain ⟨s2, l2, e2⟩ := k2.reaches s1
  obtain ⟨s3, l3, e3, q3⟩ : ∃ u, (upd (.dev (Dev.withoutTenant t))).leads s2 u () ∧ Emptied s2 u ∧ ∀ o ∈ u.dev.vops, o.ten ≠ t :=
    ⟨_, M.leads_upd _ _, emptied_withoutTenant t s2, fun o ho => by simpa using (List.mem_filter.1 ho).2⟩
  obtain ⟨s4, l4, e4, q4⟩ : ∃ u, (each (flrPort t) s.ports).leads s3 u () ∧ Emptied s3 u ∧
      ∀ e ∈ s.ports, e.2.ten = some t → e.2.ld.isSome = true → (u.port e.1).ld = none :=
    ⟨_, k4.leads s3, k4.rel s3, State.port_flrPorts t s.ports s3⟩
  obtain ⟨s5, l5, e5⟩ := k5.reaches s4
  obtain ⟨s6, l6, e6, q6⟩ : ∃ u, (each resetEvents (s.partsOf t)).leads s5 u () ∧ Emptied s5 u ∧
      ∀ p ∈ s.partsOf t, ∀ k ∈ s5.nodeClusters p, (u.cluster k).bars = [] ∧ (u.cluster k).mutex = [] :=
    ⟨_, k6.leads s5, k6.rel s5, State.bars_flr _ s5⟩
  obtain ⟨s7, l7, e7, q7⟩ : ∃ u, (each (fun k => upd (.cluster k fun c => { c with intv := 0 })) ((s.partsOf t).flatMap s.nodeClusters)).leads
      s6 u () ∧ Emptied s6 u ∧ ∀ k ∈ (s.partsOf t).flatMap s.nodeClusters, (u.cluster k).intv = 0 :=
    ⟨_, k7.leads s6, k7.rel s6, State.intv_flr _ s6⟩
  have e15 := stable_emptied.trans e1 (stable_emptied.trans e2 (stable_emptied.trans e3 (stable_emptied.trans e4 e5)))
  have e17 := stable_emptied.trans e15 (stable_emptied.trans e6 e7)
  obtain ⟨s8, l8, e8, q8⟩ : ∃ u, (each (fun p => upd (.part p Part.bare)) (s.partsOf t)).leads s7 u () ∧ Emptied s7 u ∧
      ∀ p ∈ s.partsOf t, (u.part p).rested :=
    ⟨_, k8.leads s7, k8.rel s7, State.rested_flr _ s7 fun p hp => (e17.known p).trans (mem_partsOf hp)⟩
  have e18 := stable_emptied.trans e17 e8
  obtain ⟨s9, l9, e9, q9⟩ : ∃ u, freeIdlePorts.leads s8 u () ∧ Emptied s8 u ∧ ∀ p q, (s8.port p).ld = some q →
      s8.atRest (pSPNODE q.img) = true → s8.atRest (pRPNODE q.img) = true → (u.port p).ld = none :=
    ⟨_, keepsEmptied_freeIdlePorts.leads s8, keepsEmptied_freeIdlePorts.rel s8, fun p q => State.port_freeIdlePorts⟩
  obtain ⟨s10, l10, e10⟩ := k10.reaches s9
  obtain ⟨s11, l11, e11⟩ := (keepsEmptied_flrGranules t).reaches s10
  obtain ⟨s12, l12, e12⟩ := k12.reaches s11
  obtain ⟨s13, l13, e13⟩ := k13.reaches s12
  obtain ⟨u, l14, e14, q14⟩ : ∃ u, (upd (.vf t (Vf.afterFlr s.ref))).leads s13 u () ∧ Emptied s13 u ∧
      (u.vf t).paused = false ∧ (u.vf t).s2 = [] ∧ (u.vf t).pwin = [] :=
    ⟨_, M.leads_upd _ _, emptied_vf s13 t (fun _ => rfl) (fun _ => rfl), by
      rw [show ((Upd.vf t (Vf.afterFlr s.ref)).apply s13).vf t = _ from State.vf_setVf_self ..]
      exact ⟨rfl, rfl, rfl⟩⟩
  have e9u := stable_emptied.trans (stable_emptied.trans e10 (stable_emptied.trans e11 (stable_emptied.trans e12 e13))) e14
  have e8u := stable_emptied.trans e9 e9u
  have e6u := stable_emptied.trans (stable_emptied.trans e7 e8) e8u
  have e4u := stable_emptied.trans (stable_emptied.trans e5 e6) e6u
  have esu := stable_emptied.trans e18 e8u
  refine ⟨u, M.leads_bind l1 (M.leads_bind l2 (M.leads_bind l3 (M.leads_bind l4 (M.leads_bind l5 (M.leads_bind l6 (M.leads_bind l7
    (M.leads_bind l8 (M.leads_bind l9 (M.leads_bind l10 (M.leads_bind l11 (M.leads_bind l12 (M.leads_bind l13 l14)))))))))))), ?_⟩
  exact {
    fn := q14
    counts := ⟨esu.wdlim t, esu.pwref t⟩
    parts := fun p hp => e8u.rested p (q8 p hp)
    cores := fun c hc => (q1 c hc).mono (stable_emptied.trans (stable_emptied.trans e2 (stable_emptied.trans e3 e4)) e4u)
    clusters := fun p hp k hk => by
      obtain ⟨hb, hm⟩ := q6 p hp k (nodeClusters_of_pres e15.pres p ▸ hk)
      exact ⟨(stable_emptied.trans e8 e8u).intv k (q7 k (List.mem_flatMap.2 ⟨p, hp, hk⟩)), e6u.bars k hb, e6u.mutex k hm⟩
    numbered := fun p hp => by
      rcases SMap.get_default_or_mem (fun _ => Port.reset) s.ports p with e | e
      · rw [show s.port p = Port.reset from e] at hp
        cases hp
      · cases hl : (s.port p).ld with
        | none => exact (esu.ports p).elim (·.trans hl) id
        | some q =>
          have h4 := q4 _ e hp (Option.isSome_iff_exists.2 ⟨q, hl⟩)
          exact (e4u.ports p).elim (·.trans h4) id
    vops := fun o ho => q3 o ((stable_emptied.trans e4 e4u).vops o ho)
    between := fun p q hl hs hr => by
      rcases e18.ports p with e | e
      · have h9 := q9 p q (e.trans hl) (State.atRest_of_rested (q8 _ hs)) (State.atRest_of_rested (q8 _ hr))
        exact (e9u.ports p).elim (·.trans h9) id
      · exact (e8u.ports p).elim (·.trans e) id }

theorem functionLevelReset_empties (ht : t < 64) (h0 : (s.vf t).cmd = none) (h : ∀ w, HostOp.reg (.bar0 0) w ∉ (s.vf t).arrived) :
    ∃ u, exec (.functionLevelReset t) s = .next u ∧ s.FlrDone t u := by
  obtain ⟨u, l, d⟩ := reaches_flrSteps t s
  refine ⟨u, ?_, d⟩
  show execFunctionLevelReset t s = _
  rw [execFunctionLevelReset_eq]
  refine M.leads.event_eq (M.leads_get_bind ?_)
  rwa [not_busy h0 h, decide_eq_false (show ¬PF ≤ t from by unfold PF; omega), Bool.or_self, if_neg Bool.false_ne_true]

end

/-- Settles O49: the package resets run their updates; a function-level reset keeps what each of its steps has emptied (`Emptied`), and an
unmapped block is told of without changing what its release has left (`Told`). -/
theorem resets : Obligations.Resets := by
  unfold Obligations.Resets
  refine ⟨exec_resets, fun t s => ⟨functionLevelReset_waits, fun ht h0 h => ?_⟩,
    fun t g s => ⟨stage2Unmapping_waits, fun phys h => stage2Unmapping_releases h⟩⟩
  obtain ⟨u, run, d⟩ := functionLevelReset_empties ht h0 h
  obtain ⟨hp, hs, hw⟩ := d.fn
  refine ⟨u, run, hp, hs, hw, d.counts.1, d.counts.2, fun p h => ?_, fun c h => ?_, d.clusters, d.numbered, d.vops, d.between⟩
  · obtain ⟨h1, h2, h3⟩ := d.parts p h
    exact ⟨h1, h2, h3⟩
  · obtain ⟨h1, h2, h3, h4, h5, h6⟩ := d.cores c h
    exact ⟨h1, h2, h3, h4, h5, h6⟩

end Sys2Proof.Machine
end

section
/-!
SUPPORT. A frame whose flow entry has a number beyond the table (R143): its record's words overflow, and the frame waits for ever.
-/

namespace Sys2Proof.Machine

/-- A leaf that lets a supervisor read and write its 512 KiB, and its entry at the interface of CA0 and at that of core 0. -/
def openLeaf : Word := 0x37
def openEnt (ni : Nat) : TlbEnt := ⟨ni, 0, 1024, 0, 19, openLeaf⟩

/-- A flow entry of partition 1024 that every frame matches: one buffer of 64 bytes at 0x2000, its retire count at 0x3000. -/
def anyFlow : Nat := 2 ^ 343 + 1024 * 2 ^ 324 + 0x80 * 2 ^ 202 + 0x600 * 2 ^ 153

/-- The number of the entry. R143 has 256 of them; bit 206 of INDEX is bit 14 of the record's WAIT0. -/
def strayIx : Nat := 2 ^ 206

/-- Partition 1024 of tenant 0 runs, with a future table of one entry at 0x4000; CA0 has the flow entry under the stray number. -/
def strayFlow : State :=
  { State.reset with
    parts := [(1024, { Part.reset with st := .running, ten := some 0, futbase := 0x4000, futlog := 0 })]
    vfs := [(0, { Vf.reset with s2 := [(0, 0)] })]
    cals := [(0, { Cal.reset with flow := [(strayIx, BitVec.ofNat 512 anyFlow)] })]
    dev := { State.reset.dev with tlb := [openEnt 0, openEnt 4] } }

/-- A frame of zeros. -/
def blankFrame : List Byte := List.replicate 64 0

/-- A part of a meaning that ends in an interlock. -/
def M.Stalls {α : Type} (m : M α) (s : State) : Prop := ∀ s0 k, P.run s0 (m k) s = s0

theorem M.Stalls.bind {α β : Type} {m : M α} {f : α → M β} {s : State} (h : m.Stalls s) : (m >>= f).Stalls s := fun s0 _ => h s0 _

theorem M.leads.stalls {α β : Type} {m : M α} {f : α → M β} {s t : State} {a : α} (h : m.leads s t a) (hf : (f a).Stalls t) :
    (m >>= f).Stalls s := fun s0 k => (h s0 _).trans (hf s0 k)

section
variable {ca : Bool} {i e x : Nat} {f : List Byte} {s u : State}

/-- A frame whose record is accepted only once something has happened: every check of R144 and R408 passes, and the frame waits. -/
theorem intakeMatched_stalls
    (part : s.owns (flTEN e) (flPNODE e) = true ∧
      ((s.part (flPNODE e)).st = .running ∨ (s.part (flPNODE e)).st = .draining ∨ (s.part (flPNODE e)).st = .saved))
    (record : s.recordOk (flTEN e) (flPNODE e) (flowRecord i e (State.frameAt e) f.length) = true)
    (fits : f.length ≤ 2 ^ (flBUFLOG e + 6))
    (count : (intakeLoc ca (flTEN e) (flPNODE e) (flRETW e * 8) .load).leads s s (some x))
    (read : (homeRead (.eng (30000 + ca.toNat)) (x / 64) none).leads s s ())
    (free : s.poisoned x 8 = false ∧ (flPUT e + 2 ^ 32 - s.peek x 4) % 2 ^ 32 < flNBUF e + 1)
    (pages : (intakePages ca (flTEN e) (flPNODE e) (flPOOL e * 64 :: pagesOf (State.frameAt e) (2 ^ (flBUFLOG e + 6)))).leads s s true)
    (room : s.poolFull (flPNODE e) = false)
    (slot : (slotReach (s.tabOf (.eng (30000 + ca.toNat)) (flPNODE e))).leads s s true)
    (store : (intakeStore ca (flTEN e) (flPNODE e) (spansOf (State.frameAt e) f.length) f).leads s u ())
    (accept : (acceptRec (s.tabOf (.eng (30000 + ca.toNat)) (flPNODE e)) (flowRecord i e (State.frameAt e) f.length)).Stalls u) :
    (intakeMatched ca i e f).Stalls s := by
  refine (M.leads_get s).stalls ?_
  dsimp only
  have live : ((s.part (flPNODE e)).st == .running || (s.part (flPNODE e)).st == .draining || (s.part (flPNODE e)).st == .saved) = true := by
    rcases part.2 with k | k | k <;> rw [k] <;> rfl
  rw [if_neg (by rw [part.1, live, show s.recordOk _ _ (flowRecord i e (flPOOL e * 64 + _) f.length) = true from record]; decide),
    if_neg (by omega)]
  refine count.stalls (read.stalls ((M.leads_get s).stalls ?_))
  rw [if_neg (by obtain ⟨h, k⟩ := free; simpa [Space.loc, h] using k)]
  refine pages.stalls ?_
  rw [if_neg (by simp), if_neg (by simp [room, Space.loc, free.1])]
  refine slot.stalls ?_
  rw [if_neg (by simp)]
  exact store.stalls accept.bind

end

/-- CA0 with the frame, its record, and its partition's table as the intake goes to it. -/
def strayArrived : State := strayFlow.setCal false { strayFlow.cal false with frames := [blankFrame] }
def strayRec : Nat := flowRecord strayIx anyFlow (State.frameAt anyFlow) blankFrame.length
def strayTab : Tab := ⟨.eng 30000, 0, 0, 1024, 0x4000, 0, false⟩

/-- What the entry says (R143). -/
theorem anyFlow_fields : flTEN anyFlow = 0 ∧ flPNODE anyFlow = 1024 ∧ State.frameAt anyFlow = 0x2000 ∧ flPOOL anyFlow * 64 = 0x2000 ∧
    flRETW anyFlow * 8 = 0x3000 ∧ flBUFLOG anyFlow = 0 := by decide +kernel

theorem strayTab_eq : strayArrived.tabOf (.eng (30000 + false.toNat)) 1024 = strayTab := by
  have h : strayArrived.serviceOf 1024 = 0 := by decide +kernel
  unfold State.tabOf
  rw [h]
  rfl

/-- After the frame has been written to its buffer; after its record has taken the only slot; after it has been written there. -/
def strayStored : State := strayArrived.ran (intakeStore false 0 1024 (spansOf 0x2000 64) blankFrame)
def straySlot : State :=
  (Upd.part 1024 fun q => { q with pool := [0] }).apply ((Upd.dev fun d => { d with freeIx := d.freeIx + 1 }).apply strayStored)
def strayWritten (r : Nat) : State :=
  (Upd.poke 0x4040 (leBytes 32 (r / 2 ^ 256))).apply ((Upd.poke 0x4020 (leBytes 32 r)).apply straySlot)

/-- The pool's only slot is taken, whichever is asked for first. -/
theorem slot_of_one (x : Nat) : freeFrom [] (2 ^ 0) 0 x = 0 := Nat.mod_one x

theorem leads_strayTake : (takeSlot strayTab).leads strayStored straySlot 0 := by
  intro s0 k
  show P.run s0 (k (freeFrom [] (2 ^ 0) 0 (Config.poolPick strayStored.dev.freeIx))) ((Upd.part 1024 fun q => { q with
    pool := nsInsert (freeFrom [] (2 ^ 0) 0 (Config.poolPick strayStored.dev.freeIx)) q.pool }).apply
      ((Upd.dev fun d => { d with freeIx := d.freeIx + 1 }).apply strayStored)) = _
  rw [slot_of_one]
  rfl

theorem leads_strayWrite (r : Nat) : (writeSlot strayTab 0 r).leads straySlot (strayWritten r) () :=
  writeSlot_at (tabPoke_at (fun _ _ => rfl) (by decide) fun _ _ => rfl) (tabPoke_at (fun _ _ => rfl) (by decide) fun _ _ => rfl)

/-- The future table has no entry 16384: its address is not mapped. -/
theorem stalls_strayRead (r : Nat) : (readEntry strayTab 16384).Stalls (strayWritten r) := fun _ _ => rfl

theorem stalls_strayWait {r : Nat} (h : hIndex (rcWait r 0) = 16384) : (waitFirst strayTab 0 r).Stalls (strayWritten r) := by
  unfold waitFirst
  dsimp only
  rw [h, if_neg (by decide)]
  exact (stalls_strayRead r).bind

theorem stalls_strayAccept : (acceptRec strayTab strayRec).Stalls strayStored :=
  leads_strayTake.stalls ((leads_strayWrite _).stalls (stalls_strayWait (by decide +kernel)))

theorem leads_straySlot : (slotReach strayTab).leads strayArrived strayArrived true := by
  intro s0 k
  show P.run s0 (((do
    return (← wordReach strayTab (strayTab.slotVA (freeFrom [] (2 ^ 0) 0 (Config.poolPick strayArrived.dev.freeIx)))) &&
      (← wordReach strayTab (strayTab.slotVA (freeFrom [] (2 ^ 0) 0 (Config.poolPick strayArrived.dev.freeIx)) + 32))) : M Bool) k) strayArrived = _
  rw [slot_of_one]
  rfl

theorem stalls_strayMatched : (intakeMatched false strayIx anyFlow blankFrame).Stalls strayArrived := by
  obtain ⟨h1, h2, h3, h4, h5, h6⟩ := anyFlow_fields
  refine intakeMatched_stalls (x := 0x3000) (u := strayStored) (by decide +kernel) (by decide +kernel) (by decide +kernel) ?_ (fun _ _ => rfl)
    (by decide +kernel) ?_ (by decide +kernel) ?_ ?_ ?_
  · rw [h1, h2, h5]
    exact fun _ _ => rfl
  · rw [h1, h2, h3, h4, h6]
    exact fun _ _ => rfl
  · rw [h2, strayTab_eq]
    exact leads_straySlot
  · rw [h1, h2, h3]
    exact fun _ _ => rfl
  · rw [h2, strayTab_eq]
    exact stalls_strayAccept

theorem stalls_strayHead : (intakeHead false).Stalls strayArrived := by
  have hf : strayArrived.flowFor false (parseFrame blankFrame) = some (strayIx, anyFlow) := by decide +kernel
  refine (M.leads_get _).stalls ?_
  rw [show (strayArrived.cal false).frames = [blankFrame] from rfl]
  dsimp only
  rw [hf]
  exact stalls_strayMatched.bind

/-- The frame arrives and stays. -/
theorem strayFlow_waits : exec (.intakeFrame false true blankFrame) strayFlow = .next strayArrived := by
  have arrives : event (intakeArrives false true blankFrame) strayFlow = .next strayArrived :=
    M.leads.event_eq (M.leads_get_bind (M.leads_upd _ _))
  have head : event (intakeHead false) strayArrived = .next strayArrived := congrArg _ (stalls_strayHead _ _)
  show execIntakeFrame false true blankFrame strayFlow = _
  unfold execIntakeFrame andThen
  rw [arrives]
  exact head

/-- An address of the page that the interface of CA0 translates. -/
theorem intakeAt_strayFlow {va : Nat} {k : AKind} (h : strayFlow.cached 4 0 1024 va = some (openEnt 4) ∧ judge k false openLeaf = .ok openLeaf ∧
    strayFlow.stage2 0 (gpaOf openLeaf va) = some va ∧ strayFlow.dev.tlb.contains ⟨4, 0, 1024, va / 2 ^ entLog openLeaf, entLog openLeaf, openLeaf⟩ = true) :
    strayFlow.intakeAt false 0 1024 va k va :=
  ⟨openEnt 4, h.1, by decide +kernel, by decide +kernel, h.2.1, h.2.2.1, rfl, h.2.2.2⟩

/-- The intake has all that the statement asks for. -/
theorem strayFlow_ready : strayFlow.FrameReady false strayIx anyFlow blankFrame (0x2000 + ·) (0x4020 + 32 * ·) where
  there := by decide +kernel
  matched := by decide +kernel
  part := by decide +kernel
  record := by decide +kernel
  fits := by decide +kernel
  free := by
    obtain ⟨h1, h2, -, -, h5, -⟩ := anyFlow_fields
    rw [h1, h2, h5]
    exact ⟨0x3000, intakeAt_strayFlow (by decide +kernel), by decide +kernel⟩
  pool := by
    obtain ⟨h1, h2, -, h4, -, -⟩ := anyFlow_fields
    rw [h1, h2, h4]
    exact ⟨0x2000, intakeAt_strayFlow (by decide +kernel)⟩
  buffer k hk := by
    obtain ⟨h1, h2, h3, -, -, h6⟩ := anyFlow_fields
    rw [h6] at hk
    rw [h1, h2, h3]
    exact intakeAt_strayFlow ((by decide +kernel : ∀ k < 64, strayFlow.cached 4 0 1024 (0x2000 + k) = some (openEnt 4) ∧
      judge .store false openLeaf = .ok openLeaf ∧ strayFlow.stage2 0 (gpaOf openLeaf (0x2000 + k)) = some (0x2000 + k) ∧
      strayFlow.dev.tlb.contains ⟨4, 0, 1024, (0x2000 + k) / 2 ^ entLog openLeaf, entLog openLeaf, openLeaf⟩ = true) k hk)
  vent h := absurd h (by decide +kernel)
  room := by decide +kernel
  table h hh := by
    obtain ⟨h1, h2, -⟩ := anyFlow_fields
    obtain ⟨hl, hb, hs⟩ : (strayFlow.part 1024).futlog = 0 ∧ (strayFlow.part 1024).futbase.toNat = 0x4000 ∧ strayFlow.serviceOf 1024 = 0 := by
      decide +kernel
    rw [h2, hl] at hh
    rw [h1, h2, hl, hb, hs]
    obtain ⟨k1, k2, k3, k4, k5, k6, k7, k8⟩ := (by decide +kernel : ∀ h < 2, let va := 0x4000 + 32 * 2 ^ 0 + 32 * h
      va < 2 ^ 52 ∧ inCaldera va = false ∧ strayFlow.cached (interfaceOf (strayFlow.core 0).pmap 0 va) 0 1024 va = some (openEnt 0) ∧
      judge .store false openLeaf = .ok openLeaf ∧ strayFlow.dev.tlb.contains
        ⟨interfaceOf (strayFlow.core 0).pmap 0 va, 0, 1024, va / 2 ^ entLog openLeaf, entLog openLeaf, openLeaf⟩ = true ∧
      strayFlow.route 0 openLeaf va = .ok (.hbm (0x4020 + 32 * h), false) ∧ (0x4020 + 32 * h) % 32 = 0 ∧
      0x4020 + 32 * h + 32 ≤ 2 ^ 60) h hh
    exact ⟨⟨k1, k2, rfl, _, _, k3, k4, k5, k6⟩, k7, k8⟩

/-- Refutes O53: in `strayFlow` the flow entry has a number beyond those of R143, so that INDEX overflows into the WAIT0 of the frame's record;
the wait is for an entry outside the future table, and the frame stays where it is. -/
theorem not_patrolRecallIntake : ¬ Obligations.PatrolRecallIntake := by
  unfold Obligations.PatrolRecallIntake
  rintro ⟨-, -, h⟩
  obtain ⟨-, there⟩ := h false blankFrame strayFlow
  obtain ⟨-, -, -, taken⟩ := there (by decide +kernel)
  obtain ⟨t, j, run, ⟨noFrames, -⟩, -⟩ := taken _ _ _ _ strayFlow_ready
  rw [strayFlow_waits] at run
  cases run
  cases noFrames

end Sys2Proof.Machine
end

section
/-!
SUPPORT. A `cwb` of a modified line of another package while every tag is in use (R333, R412): it does not park, it is tried again.
-/

namespace Sys2Proof.Machine

/-- The copy of a line of package 1 that core 0 holds, by a leaf that lets a user read and write it. -/
def peerLine : Line := ⟨0x80, 0x37, (Space.plc 1 0).loc 0x2000, 0, 0, 0⟩

/-- The control context of core 0, READY, with the line's address in X1; the core has the line modified. Package 1 is reached by link 0, and has
still to acknowledge the release of 16384 granules, each of which counts as a tag in use. -/
def tagless : State :=
  { State.reset with
    ctxs := [(0, { Ctx.reset 0 with run := .ready, x := [(1, 0x2000)] })]
    cores := [(0, { Core.reset with task := some ⟨0, 1, 0, false⟩, l1 := [(0x800, peerLine)] })]
    parts := [(1, { Part.reset with st := .running, ten := some 0 })]
    pres := { presReset with group := 2 }
    dev := { State.reset.dev with
      dir := [(peerLine.loc / 64, [(0, .m)])]
      links := [(0, { Jalic.reset with peer := some 1, up := true })]
      acks := (List.range 16384).map fun n => (n, 1) } }

/-- Whether the executing context is READY after an instruction. -/
def staysReady (i : Instr) (s : State) : Bool :=
  match exec i s with
  | .next t => t.me.run == .ready
  | _ => false

theorem tagless_staysReady : staysReady (.cwb 1 0) tagless = true := by decide +kernel

/-- Refutes O18: a `cwb` of a modified line of another package that finds every tag in use does not park, as the statement has it without a
condition on tags: in `tagless` it is an interlock (R39), to be tried again once a tag is free. -/
theorem not_cacheControl : ¬ Obligations.CacheControl := by
  unfold Obligations.CacheControl
  rintro ⟨h, -⟩
  obtain ⟨-, -, -, parks, -⟩ := h 1 0 0 0 tagless (by decide +kernel) (by decide +kernel)
  obtain ⟨t, run, ⟨parked, -⟩, -⟩ := parks peerLine (by decide +kernel) (by decide +kernel) (by decide +kernel) (by decide +kernel)
    (by decide +kernel) (by decide +kernel) (by decide +kernel) _ (List.mem_cons_self ..)
  have ready : (t.me.run == .ready) = true := by
    have h := tagless_staysReady
    rwa [staysReady, run] at h
  rw [parked] at ready
  cases ready

end Sys2Proof.Machine
end

section
/-!
SUPPORT. What a package does for the requests of a peer (R334 to R340): the reception of a packet that no other comes before, what each agent
leaves, and the answer on the port of the line.
-/

namespace Sys2Proof.Machine

open M

/-! ### Changes of links only -/

/-- Only the ports' records have changed. -/
def OnlyLinks (s t : State) : Prop := ∃ L, t = { s with dev := { s.dev with links := L } }

theorem stable_onlyLinks : Stable OnlyLinks where
  refl s := ⟨s.dev.links, rfl⟩
  trans := by
    rintro s _ _ ⟨L, rfl⟩ ⟨M, rfl⟩
    exact ⟨M, rfl⟩

theorem keepsLinks_updLink (i : Nat) (f : Jalic → Jalic) : (updLink i f).Keeps OnlyLinks := .upd fun _ => ⟨_, rfl⟩

theorem keepsLinks_releaseHeld (i : Nat) : (releaseHeld i).Keeps OnlyLinks :=
  .get fun _ => .ite (.each stable_onlyLinks (fun _ => keepsLinks_updLink _ _) _) (.pure stable_onlyLinks)

theorem keepsLinks_sendPacket (ca : Bool) (p : Packet) : (sendPacket ca p).Keeps OnlyLinks := by
  refine .get fun s => ?_
  split
  · exact .pure stable_onlyLinks
  · exact keepsLinks_updLink _ _

theorem keepsLinks_respond (p : Packet) (kind : Nat) (payload : List Byte) (pois : Bool) (flag : Nat) :
    (respond p kind payload pois flag).Keeps OnlyLinks :=
  .get fun _ => .ite (.pure stable_onlyLinks) (keepsLinks_sendPacket _ _)

theorem onlyLinks_linkTook (s : State) (i : Nat) (p : Packet) : OnlyLinks s (s.linkTook i p) :=
  stable_onlyLinks.trans ⟨_, rfl⟩ ((keepsLinks_releaseHeld i).rel _)

section
variable {s t : State} (h : OnlyLinks s t)
include h

theorem OnlyLinks.mem : t.mem = s.mem := by obtain ⟨L, rfl⟩ := h; rfl
theorem OnlyLinks.pres : t.pres = s.pres := by obtain ⟨L, rfl⟩ := h; rfl
theorem OnlyLinks.shadow : t.shadow = s.shadow := by obtain ⟨L, rfl⟩ := h; rfl
theorem OnlyLinks.tlb : t.dev.tlb = s.dev.tlb := by obtain ⟨L, rfl⟩ := h; rfl
theorem OnlyLinks.dir : t.dev.dir = s.dev.dir := by obtain ⟨L, rfl⟩ := h; rfl
theorem OnlyLinks.inq : t.dev.inq = s.dev.inq := by obtain ⟨L, rfl⟩ := h; rfl
theorem OnlyLinks.holders (k : Nat) : t.holders k = s.holders k := by unfold State.holders; rw [h.dir]
theorem OnlyLinks.stateIn (k n : Nat) : t.stateIn k n = s.stateIn k n := by unfold State.stateIn; rw [h.holders]

end

/-! ### Parts of a meaning that lead to a state of which something is known -/

/-- A part of a meaning that runs through from a state, to one of which something holds. -/
def M.Reaches {α : Type} (m : M α) (s : State) (Q : State → α → Prop) : Prop := ∃ t a, m.leads s t a ∧ Q t a

namespace M.Reaches

variable {α β : Type} {s : State}

theorem pure {a : α} {Q : State → α → Prop} (h : Q s a) : (Pure.pure a : M α).Reaches s Q := ⟨s, a, M.leads_pure a s, h⟩

theorem upd {u : Upd} {Q : State → Unit → Prop} (h : Q (u.apply s) ()) : (M.upd u).Reaches s Q := ⟨_, (), M.leads_upd u s, h⟩

theorem get {f : State → M α} {Q : State → α → Prop} (h : (f s).Reaches s Q) : (M.get >>= f).Reaches s Q := by
  obtain ⟨t, a, l, q⟩ := h
  exact ⟨t, a, M.leads_get_bind l, q⟩

theorem bind {m : M α} {f : α → M β} {P : State → α → Prop} {Q : State → β → Prop} (hm : m.Reaches s P)
    (hf : ∀ t a, P t a → (f a).Reaches t Q) : (m >>= f).Reaches s Q := by
  obtain ⟨t, a, l, p⟩ := hm
  obtain ⟨u, b, k, q⟩ := hf t a p
  exact ⟨u, b, M.leads_bind l k, q⟩

theorem led {m : M α} {f : α → M β} {t : State} {a : α} {Q : State → β → Prop} (l : m.leads s t a) (h : (f a).Reaches t Q) :
    (m >>= f).Reaches s Q := by
  obtain ⟨u, b, k, q⟩ := h
  exact ⟨u, b, M.leads_bind l k, q⟩

theorem upd_bind {u : Upd} {f : Unit → M β} {Q : State → β → Prop} (h : (f ()).Reaches (u.apply s) Q) : (M.upd u >>= f).Reaches s Q :=
  led (M.leads_upd u s) h

theorem keeps_bind {R : State → State → Prop} {m : M Unit} {f : Unit → M β} {Q : State → β → Prop} (hm : m.Keeps R)
    (h : ∀ t, R s t → (f ()).Reaches t Q) : (m >>= f).Reaches s Q := led (hm.leads s) (h _ (hm.rel s))

theorem of_leads {m : M α} {t : State} {a : α} {Q : State → α → Prop} (h : m.leads s t a) (q : Q t a) : m.Reaches s Q := ⟨t, a, h, q⟩

theorem mono {m : M α} {P Q : State → α → Prop} (h : m.Reaches s P) (hpq : ∀ t a, P t a → Q t a) : m.Reaches s Q := by
  obtain ⟨t, a, l, p⟩ := h
  exact ⟨t, a, l, hpq t a p⟩

theorem of_keeps {R : State → State → Prop} {m : M Unit} (h : m.Keeps R) {Q : State → Unit → Prop} (q : ∀ t, R s t → Q t ()) :
    m.Reaches s Q := ⟨_, (), h.leads s, q _ (h.rel s)⟩

end M.Reaches

/-! ### Reception (R336, R338, R409) -/

/-- The caldera dies of lines once a packet that asks for one has come by a port (R337). -/
def viaWith (p : Packet) (i : Nat) (v : List Nat) : List Nat :=
  if asksLine p then (if 18 ≤ i then nsInsert (packetLine p) v else nsErase v (packetLine p)) else v

/-- The state in which a packet that has arrived stands at the end of the queue. -/
def State.holding (s : State) (i : Nat) (p : Packet) : State :=
  { s with dev := { s.dev with links := (s.linkTook i p).dev.links, via := viaWith p i s.dev.via, inq := s.dev.inq ++ [p] } }

section
variable {s : State} {i kind : Nat} {p : Packet}

theorem leads_acceptPacket (h : s.arrives i p kind) (hk : kind ≠ 0) : (acceptPacket i p kind).leads s (s.holding i p) () := by
  obtain ⟨h1, h2, h3, h4, h5, -, h7, h8⟩ := h
  obtain ⟨L, hL⟩ := onlyLinks_linkTook s i p
  refine M.leads_get_bind ?_
  dsimp only
  rw [if_neg (by simp [h1, h2]), if_neg (by simpa using h3), if_neg (by simp [h4])]
  refine M.leads_bind (a := ()) (t := s.setLink i (Jalic.acked p { s.link i with seqIn := (s.link i).seqIn + 1 })) ?_
    (M.leads_bind ((keepsLinks_releaseHeld i).leads _) ?_)
  · simp only [if_neg hk]
    exact M.leads_upd _ s
  rw [if_neg (by simp [hk, h5, h7, h8])]
  show M.leads _ (s.linkTook i p) _ _
  have hl : (s.linkTook i p).dev.links = L := by rw [hL]
  unfold State.holding viaWith
  rw [hl, hL]
  by_cases ha : asksLine p = true
  · rw [if_pos ha, if_pos ha]
    refine M.leads_upd_bind ?_
    simp only [decide_eq_true_eq]
    exact M.leads_upd _ _
  · rw [if_neg ha, if_neg ha]
    exact M.leads_upd _ _

/-- A packet of a class that no other waits in, or that no packet at all waits before, is the first to be served (R152). -/
theorem classOrder_first {ps : List Packet} (h : ∀ x ∈ ps, p.prio.toNat < x.prio.toNat) :
    (classOrder false (ps ++ [p])).head? = some ps.length := by
  have at' : ∀ i < ps.length, ∃ x ∈ ps, (ps ++ [p])[i]? = some x := fun i hi =>
    ⟨ps[i], List.getElem_mem hi, by rw [List.getElem?_append_left hi, List.getElem?_eq_getElem hi]⟩
  have none' : ∀ k < p.prio.toNat, ((List.range (ps ++ [p]).length).filter fun i => ((ps ++ [p])[i]?).any fun q => q.prio.toNat == k) = [] := by
    intro k hk
    refine List.filter_eq_nil_iff.2 fun i hi => ?_
    rw [List.mem_range, List.length_append, List.length_singleton] at hi
    rcases Nat.lt_succ_iff_lt_or_eq.1 hi with hi | rfl
    · obtain ⟨x, hx, e⟩ := at' i hi
      have := h x hx
      simp [e]
      omega
    · simp
      omega
  have one : ((List.range (ps ++ [p]).length).filter fun i => ((ps ++ [p])[i]?).any fun q => q.prio.toNat == p.prio.toNat) = [ps.length] := by
    rw [List.length_append, List.length_singleton, List.range_succ, List.filter_append, List.filter_eq_nil_iff.2 ?_]
    · simp
    · intro i hi
      obtain ⟨x, hx, e⟩ := at' i (List.mem_range.1 hi)
      have := h x hx
      simp [e]
      omega
  have hp := p.prio.isLt
  unfold classOrder
  rw [if_neg Bool.false_ne_true]
  have r4 : List.range 4 = List.range p.prio.toNat ++ (p.prio.toNat :: (List.range' (p.prio.toNat + 1) (3 - p.prio.toNat))) := by
    generalize p.prio.toNat = n at hp ⊢
    interval_cases n <;> rfl
  rw [r4, List.flatMap_append, List.flatMap_cons, one, List.flatMap_eq_nil_iff.2 fun k hk => none' k (List.mem_range.1 hk)]
  rfl

/-- What serving a packet leaves of the queues: the packet is gone, and with it what its agent has asked of other packages. -/
def State.served (t : State) (k : Nat) (p : Packet) : State :=
  { t with dev := { ({ t.dev with inq := t.dev.inq.eraseIdx k, grants := t.dev.grants + 1 } : Dev).forget (· == pktWho p) with ord := 0 } }

/-- A packet that no other comes before is served as soon as it has arrived. -/
theorem received_serves {t : State} (h : s.arrives i p kind) (hk : kind ≠ 0) (hf : s.firstIn p) (hn : pktOrdered p = true → s.noneHeld p)
    (hs : (servePacket p).leads (s.holding i p) t ()) : received i p kind s = .next (t.served s.dev.inq.length p) := by
  have hq : (s.holding i p).dev.inq = s.dev.inq ++ [p] := rfl
  have hg : (s.holding i p).dev.grants = s.dev.grants := rfl
  have turn : (classOrder ((s.holding i p).dev.grants % 64 == 63) (s.holding i p).dev.inq).head? = some s.dev.inq.length := by
    rw [hq, hg]
    by_cases g : s.dev.grants % 64 = 63
    · rw [hf.1 g, g]
      rfl
    · rw [show (s.dev.grants % 64 == 63) = false by simpa using g]
      exact classOrder_first hf.2
  have serve : (processPacket s.dev.inq.length).leads (s.holding i p) (t.served s.dev.inq.length p) () := by
    refine M.leads_get_bind ?_
    rw [hq, List.getElem?_append_right (Nat.le_refl _), Nat.sub_self]
    dsimp only [List.getElem?_cons_zero]
    rw [if_neg ?_]
    · exact M.leads_bind hs (M.leads_upd_bind (M.leads_upd _ _))
    · rw [List.take_left, Bool.and_eq_true, List.any_eq_true]
      rintro ⟨ho, x, hx, e⟩
      simp only [Bool.and_eq_true, beq_iff_eq] at e
      obtain ⟨⟨⟨hox, hsx⟩, hkx⟩, -⟩ := e
      exact hn ho x hx hox hsx hkx
  unfold received andThen
  rw [(leads_acceptPacket h hk).event_eq]
  dsimp only
  rw [turn, hq, if_pos (by simp)]
  exact serve.event_eq

theorem servePacket_read (h : p.kind.toNat = 1) : servePacket p = serveRead p := by simp only [servePacket, h]
theorem servePacket_writeBack (h : p.kind.toNat = 3) : servePacket p = serveWriteBack p := by simp only [servePacket, h]
theorem servePacket_probe (h : p.kind.toNat = 5) : servePacket p = serveProbe p := by simp only [servePacket, h]
theorem servePacket_far (h : p.kind.toNat = 7) : servePacket p = serveFar p := by simp only [servePacket, h]
theorem servePacket_caldera (h : p.kind.toNat = 9) : servePacket p = serveCaldera p := by simp only [servePacket, h]
theorem servePacket_barrier (h : p.kind.toNat = 11) : servePacket p = serveBarrier p := by simp only [servePacket, h]
theorem servePacket_tlbi (h : p.kind.toNat = 12) : servePacket p = serveTlbi p := by simp only [servePacket, h]
theorem servePacket_scrub (h : p.kind.toNat = 14) : servePacket p = serveScrub p := by simp only [servePacket, h]

/-- Requests for lines and accesses at banks keep an order; the other kinds are served in any (R97, R102). -/
theorem asksLine_of_kind (h : p.kind.toNat ∈ [1, 3, 5, 7]) : asksLine p = true := by
  unfold asksLine
  simp only [List.mem_cons, List.not_mem_nil, or_false] at h
  rcases h with h | h | h | h <;> rw [h] <;> rfl

theorem pktOrdered_of_kind (h : p.kind.toNat ∈ [0x0B, 0x0C, 0x0E]) : pktOrdered p = false := by
  unfold pktOrdered asksLine
  simp only [List.mem_cons, List.not_mem_nil, or_false] at h
  rcases h with h | h | h <;> rw [h] <;> rfl

/-! ### Answers (R335, R337) -/

/-- The caldera die by which a request is answered (R337). -/
def answerCa (v : State) (p : Packet) : Bool :=
  if asksLine p then v.viaCa1 (packetLine p) else p.kind.toNat == 9 && calCa p.addr.toNat

/-- ADDR of an answer. -/
def answerAddr (p : Packet) (flag : Nat) : Nat := if asksLine p then p.addr.toNat / 64 * 64 + flag else p.addr.toNat

theorem portFor_single {v : State} {ca : Bool} {r : Packet} {j : Nat} (h : v.portsTo ca r.dpkg.toNat = [j]) : v.portFor ca r = some j := by
  unfold State.portFor
  simp [h, Nat.mod_one]

/-- The answer to a request, before its port seals it. -/
def answerPacket (v : State) (p : Packet) (ans : Nat) (payload : List Byte) (pois : Bool) (flag : Nat) : Packet :=
  { v.packet ans p.spkg.toNat (answerEnd p) (answerAddr p flag) p.tag.toNat p.ten.toNat p.prio.toNat payload with poison := pois }

theorem respond_eq (p : Packet) (ans : Nat) (payload : List Byte) (pois : Bool) (flag : Nat) : respond p ans payload pois flag = (do
    let v ← get
    if p.spkg.toNat = v.pres.pkg.toNat then pure () else sendPacket (answerCa v p) (answerPacket v p ans payload pois flag)) := rfl

theorem leads_sendPacket {v : State} {ca : Bool} {r : Packet} {j : Nat} (hf : v.portFor ca r = some j) (hb : (v.link j).barred = false) :
    (sendPacket ca r).leads v (v.setLink j ((v.link j).transmit r)) () := by
  have l : (updLink j fun l => if l.barred then { l with unsent := l.unsent ++ [r] } else l.transmit r).leads v
      (v.setLink j (if (v.link j).barred then { v.link j with unsent := (v.link j).unsent ++ [r] } else (v.link j).transmit r)) () :=
    M.leads_upd _ v
  rw [hb, if_neg Bool.false_ne_true] at l
  refine M.leads_get_bind ?_
  rw [hf]
  exact l

/-- An answer goes on the only port to the requester's package, unless that port is held back. -/
theorem leads_respond {v : State} (hq : p.spkg ≠ v.pres.pkg) {j : Nat} (hj : v.portsTo (answerCa v p) p.spkg.toNat = [j])
    (hb : (v.link j).barred = false) (ans : Nat) (payload : List Byte) (pois : Bool) (flag : Nat) :
    (respond p ans payload pois flag).leads v (v.setLink j ((v.link j).transmit (answerPacket v p ans payload pois flag))) () := by
  have hf : v.portFor (answerCa v p) (answerPacket v p ans payload pois flag) = some j :=
    portFor_single (by rwa [show (answerPacket v p ans payload pois flag).dpkg = p.spkg from BitVec.ofNat_toNat ..])
  rw [respond_eq]
  refine M.leads_get_bind ?_
  rw [if_neg fun e => hq (BitVec.eq_of_toNat_eq e)]
  exact leads_sendPacket hf hb

/-- What the requester is sent. -/
theorem respond_answers {v : State} (hq : p.spkg ≠ v.pres.pkg) {j : Nat} (hj : v.portsTo (answerCa v p) p.spkg.toNat = [j])
    (hb : (v.link j).barred = false) (ans : Nat) (payload : List Byte) (pois : Bool) (flag : Nat) :
    ∃ q ∈ ((v.ran (respond p ans payload pois flag)).link j).unacked, q.kind = BitVec.ofNat 6 ans ∧ q.tag = p.tag ∧ q.dpkg = p.spkg ∧
      q.payload = payload ∧ q.dend = BitVec.ofNat 12 (answerEnd p) ∧ q.addr = BitVec.ofNat 56 (answerAddr p flag) ∧ q.poison = pois := by
  rw [(leads_respond hq hj hb ans payload pois flag).ran_eq]
  refine ⟨sealPacket (answerPacket v p ans payload pois flag) (v.link j), ?_, rfl, BitVec.ofNat_toNat .., BitVec.ofNat_toNat .., rfl, rfl, rfl, rfl⟩
  rw [show (v.setLink j ((v.link j).transmit (answerPacket v p ans payload pois flag))).link j = _ from SMap.get_set_self ..]
  exact List.mem_append_right _ (List.mem_singleton_self _)

theorem linkTook_pres (s : State) (i : Nat) (p : Packet) : (s.linkTook i p).pres = s.pres := by
  obtain ⟨L, h⟩ := onlyLinks_linkTook s i p
  rw [h]

/-- What the requester is sent once its request has been served, by the port as it was when the request had come. -/
theorem answered_on {w : State} {ca : Bool} (hp : w.pres = s.pres) (hl : w.dev.links = (s.linkTook i p).dev.links) (hq : p.spkg ≠ s.pres.pkg)
    (hca : answerCa w p = ca) (ans : Nat) (payload : List Byte) (pois : Bool) (flag : Nat) (k : Nat) :
    ∀ j, (s.linkTook i p).portsTo ca p.spkg.toNat = [j] → ((s.linkTook i p).link j).barred = false →
      ∃ q ∈ (((w.ran (respond p ans payload pois flag)).served k p).link j).unacked, q.kind = BitVec.ofNat 6 ans ∧ q.tag = p.tag ∧
        q.dpkg = p.spkg ∧ q.payload = payload ∧ q.dend = BitVec.ofNat 12 (answerEnd p) ∧ q.addr = BitVec.ofNat 56 (answerAddr p flag) ∧
        q.poison = pois := by
  intro j hj hb
  have el : ∀ n, w.link n = (s.linkTook i p).link n := fun n => by
    unfold State.link
    rw [hl]
  have ep : w.portsTo ca p.spkg.toNat = (s.linkTook i p).portsTo ca p.spkg.toNat := by
    unfold State.portsTo
    simp only [el, hp, linkTook_pres]
  exact respond_answers (hp ▸ hq) (by rw [hca, ep, hj]) (by rw [el, hb]) ans payload pois flag

theorem viaCa1_holding (ha : asksLine p = true) {w : State} (hv : w.dev.via = viaWith p i s.dev.via) : answerCa w p = decide (18 ≤ i) := by
  unfold answerCa State.viaCa1
  rw [if_pos ha, hv, viaWith, if_pos ha]
  split
  · next h => simp [h, mem_nsInsert]
  · next h => simp [h, nsErase]

/-! ### Line reads and write-backs at the home (R80, R334) -/

/-- After a lookup of a line of HBM in its slice; and after its holders have been set. -/
def State.looked (v : State) (x ten : Nat) (wr : Bool) : State :=
  (Upd.cache (v.channel x) fun c => c.touch 2048 (x / 64) 8 ten unitSlot wr).apply v

theorem leads_touchL2 (x ten : Nat) (wr : Bool) (v : State) : (touchL2 x 8 ten unitSlot wr).leads v (v.looked x ten wr) () :=
  M.leads_get_bind (M.leads_upd _ v)

def State.withHolder (v : State) (line h : Nat) (st : Option LSt) : State := v.ran (setHolder line h st)

theorem leads_setHolder (line h : Nat) (st : Option LSt) (v : State) : (setHolder line h st).leads v (v.withHolder line h st) () := by
  have l := M.leads_upd (.dev fun d => { d with dir := SMap.set (fun _ => []) d.dir line ((fun m => match st with
    | some x => SMap.put m h x
    | none => SMap.erase m h) (SMap.get (fun _ => []) d.dir line)) }) v
  exact l

theorem State.holders_withHolder (v : State) (line h : Nat) (st : Option LSt) : (v.withHolder line h st).holders line =
    match st with | some x => SMap.put (v.holders line) h x | none => SMap.erase (v.holders line) h := SMap.get_set_self ..

/-- The state a line is given to its reader in. -/
def grantedSt (a : Nat) : LSt := if a.testBit 0 then .m else .e

/-- The home after it has given a line that nobody held. -/
def State.gaveLine (v : State) (p : Packet) (x : Nat) : State :=
  if p.addr.toNat.testBit 1 then v.looked x p.ten.toNat false
  else (v.looked x p.ten.toNat false).withHolder (x / 64) (peerPlc p.spkg.toNat (p.addr.toNat / 4 % 4)) (some (grantedSt p.addr.toNat))

/-- Whether a reader is told that its copy is the only one, by the low bits of ADDR. -/
theorem sole_flag (a : Nat) : (if a % 4 = 0 then 2 else 0) = if a.testBit 0 then 0 else if a.testBit 1 then 0 else 2 := by
  have h0 : a.testBit 0 = decide (a % 2 = 1) := Nat.testBit_zero a
  have h1 : a.testBit 1 = decide (a / 2 % 2 = 1) := by simp [Nat.testBit_succ]
  rw [h0, h1]
  simp only [decide_eq_true_eq]
  split_ifs <;> omega

theorem leads_serveRead {v : State} {x : Nat} (hx : v.stage2 p.ten.toNat (p.addr.toNat / 64 * 64) = some x) (h : v.holders (x / 64) = []) :
    (serveRead p).leads v ((v.gaveLine p x).ran (respond p 2 (v.bytesAt (x / 64 * 64) 64) (v.poisoned (x / 64 * 64) 64)
      (if p.addr.toNat % 4 = 0 then 2 else 0))) () := by
  have h' : (v.looked x p.ten.toNat false).holders (x / 64) = [] := h
  have sent := fun (u : State) (flag : Nat) => (keepsLinks_respond p 2 (v.bytesAt (x / 64 * 64) 64) (v.poisoned (x / 64 * 64) 64) flag).leads u
  refine M.leads_get_bind ?_
  dsimp only
  rw [hx]
  refine M.leads_bind (leads_touchL2 x p.ten.toNat false v) ?_
  rw [sole_flag]
  unfold State.gaveLine grantedSt
  split
  · refine M.leads_bind (homeWrite_none _ _ _ h') (M.leads_get_bind ?_)
    cases p.addr.toNat.testBit 1
    · exact M.leads_bind (leads_setHolder _ _ _ _) (sent _ 0)
    · exact sent _ 0
  · refine M.leads_bind (homeRead_none _ _ _ h') (M.leads_get_bind ?_)
    rw [show (v.looked x p.ten.toNat false).holders (Space.hbm.loc x / 64) = [] from h]
    cases p.addr.toNat.testBit 1
    · exact M.leads_bind (leads_setHolder _ _ _ _) (sent _ 2)
    · exact sent _ 0

theorem State.gaveLine_dev (v : State) (x : Nat) : (v.gaveLine p x).mem = v.mem ∧ (v.gaveLine p x).pres = v.pres ∧
    (v.gaveLine p x).dev.links = v.dev.links ∧ (v.gaveLine p x).dev.via = v.dev.via := by
  unfold State.gaveLine
  split <;> exact ⟨rfl, rfl, rfl, rfl⟩

theorem State.gaveLine_holders {v : State} {x : Nat} (h : v.holders (x / 64) = []) : (v.gaveLine p x).holders (x / 64) =
    if p.addr.toNat.testBit 1 then [] else [(peerPlc p.spkg.toNat (p.addr.toNat / 4 % 4), grantedSt p.addr.toNat)] := by
  have h' : (v.looked x p.ten.toNat false).holders (x / 64) = [] := h
  unfold State.gaveLine
  split
  · exact h'
  · rw [State.holders_withHolder, h']
    rfl

theorem lineReadRequest_serves {x : Nat} (h : s.arrives i p 1) (hf : s.firstIn p) (hn : s.noneHeld p)
    (hx : s.stage2 p.ten.toNat (p.addr.toNat / 64 * 64) = some x) (he : s.holders (x / 64) = []) :
    ∃ t, exec (.lineReadRequest i p) s = .next t ∧ t.mem = s.mem ∧
      t.holders (x / 64) = (if p.addr.toNat.testBit 1 then [] else [(peerPlc p.spkg.toNat (p.addr.toNat / 4 % 4), grantedSt p.addr.toNat)]) ∧
      ∀ j, (s.linkTook i p).portsTo (decide (18 ≤ i)) p.spkg.toNat = [j] → ((s.linkTook i p).link j).barred = false →
        ∃ q ∈ (t.link j).unacked, q.kind = BitVec.ofNat 6 2 ∧ q.tag = p.tag ∧ q.dpkg = p.spkg ∧ q.payload = s.bytesAt (x / 64 * 64) 64 ∧
          q.dend = BitVec.ofNat 12 (answerEnd p) ∧ q.addr = BitVec.ofNat 56 (answerAddr p (if p.addr.toNat % 4 = 0 then 2 else 0)) ∧
          q.poison = s.poisoned (x / 64 * 64) 64 := by
  have hs : (serveRead p).leads (s.holding i p) (((s.holding i p).gaveLine p x).ran (respond p 2 (s.bytesAt (x / 64 * 64) 64)
    (s.poisoned (x / 64 * 64) 64) (if p.addr.toNat % 4 = 0 then 2 else 0))) () := leads_serveRead hx he
  rw [← servePacket_read h.1] at hs
  have ha : asksLine p = true := asksLine_of_kind (by rw [h.1]; decide)
  obtain ⟨hm, hp, hl, hv⟩ := State.gaveLine_dev (p := p) (s.holding i p) x
  have links := (keepsLinks_respond p 2 (s.bytesAt (x / 64 * 64) 64) (s.poisoned (x / 64 * 64) 64)
    (if p.addr.toNat % 4 = 0 then 2 else 0)).rel ((s.holding i p).gaveLine p x)
  exact ⟨_, received_serves h (by decide) hf (fun _ => hn) hs, links.mem.trans hm, (links.holders _).trans (State.gaveLine_holders (v := s.holding i p) he),
    answered_on (s := s) (i := i) hp hl h.2.2.2.2.2.1 (viaCa1_holding ha hv) 2 (s.bytesAt (x / 64 * 64) 64) (s.poisoned (x / 64 * 64) 64) _ _⟩

/-- The home after a write-back has been taken. -/
def State.tookBack (v : State) (p : Packet) (x : Nat) : State :=
  ((Upd.poke (x / 64 * 64) (p.payload.take 64)).apply (v.looked x p.ten.toNat true)).withHolder (x / 64)
    (peerPlc p.spkg.toNat (p.addr.toNat / 4 % 4)) (if p.addr.toNat.testBit 0 then some .e else none)

theorem reaches_serveWriteBack {v : State} {x : Nat} {st : LSt} (hb : p.poison = false)
    (hx : v.stage2 p.ten.toNat (p.addr.toNat / 64 * 64) = some x)
    (h : v.stateIn (x / 64) (peerPlc p.spkg.toNat (p.addr.toNat / 4 % 4)) = some st) (hst : st = .m ∨ st = .e) :
    (serveWriteBack p).Reaches v fun t _ => OnlyLinks (v.tookBack p x) t := by
  have sent : (respond p 4 [] false 0).Reaches (v.tookBack p x) fun t _ => OnlyLinks (v.tookBack p x) t :=
    .of_keeps (keepsLinks_respond _ _ _ _ _) fun _ => id
  refine .get ?_
  dsimp only
  rw [hx]
  dsimp only [Space.loc]
  rw [h, hb]
  rcases hst with rfl | rfl
  all_goals exact .led (leads_touchL2 x p.ten.toNat true v) (.upd_bind (.led (leads_setHolder _ _ _ _) sent))

/-- A packet that no other comes before is served as soon as it has arrived: what its agent reaches. -/
theorem received_reaches {Q : State → Unit → Prop} {T : State → Prop} (h : s.arrives i p kind) (hk : kind ≠ 0) (hf : s.firstIn p)
    (hn : pktOrdered p = true → s.noneHeld p) (hs : (servePacket p).Reaches (s.holding i p) Q)
    (hT : ∀ t k, Q t () → T (t.served k p)) : ∃ t, received i p kind s = .next t ∧ T t := by
  obtain ⟨t, _, l, q⟩ := hs
  exact ⟨_, received_serves h hk hf hn l, hT t _ q⟩

theorem lineWriteBack_serves {x : Nat} {st : LSt} (h : s.arrives i p 3) (hf : s.firstIn p) (hn : s.noneHeld p) (hb : p.poison = false)
    (hx : s.stage2 p.ten.toNat (p.addr.toNat / 64 * 64) = some x)
    (hs : s.stateIn (x / 64) (peerPlc p.spkg.toNat (p.addr.toNat / 4 % 4)) = some st) (hst : st = .m ∨ st = .e) :
    ∃ t, exec (.lineWriteBack i p) s = .next t ∧ t.mem = Memory.writes s.mem (x / 64 * 64) (p.payload.take 64) ∧
      t.stateIn (x / 64) (peerPlc p.spkg.toNat (p.addr.toNat / 4 % 4)) = if p.addr.toNat.testBit 0 then some .e else none := by
  refine received_reaches h (by decide) hf (fun _ => hn)
    (servePacket_writeBack h.1 ▸ reaches_serveWriteBack (v := s.holding i p) hb hx hs hst) fun t k links => ⟨links.mem, (links.stateIn _ _).trans ?_⟩
  unfold State.stateIn State.tookBack
  rw [State.holders_withHolder]
  cases p.addr.toNat.testBit 0
  · exact SMap.find_erase_self ..
  · exact SMap.find_put_self ..

/-! ### Probes (R80, R82) -/

/-- Every state is related to every other: that a part runs through is all that is wanted. -/
theorem anyLines : LineStable fun _ _ => True :=
  { refl := fun _ => trivial, trans := fun _ _ => trivial, poke := fun _ _ _ => trivial, poison := fun _ _ => trivial,
    cache := fun _ _ _ => trivial, lines := fun _ _ _ _ => trivial, dir := fun _ _ => trivial }

/-- The line of a probe (log 12). -/
def probeLine (p : Packet) : Nat := (Space.plc p.spkg.toNat p.ten.toNat).loc (p.addr.toNat / 64 * 64) / 64

theorem reaches_serveProbe (v : State) (ha : p.addr.toNat % 4 ≠ 0) :
    (serveProbe p).Reaches v fun t _ => t.stateIn (probeLine p) (v.plcHolder (p.dend.toNat % 4)) = none := by
  have gone : ∀ l : List (Nat × LSt), (each (fun e => leaveLine e.1 (probeLine p)) l).Keeps fun _ _ => True :=
    .each anyLines.toStable fun e => anyLines.leaveLine e.1 (probeLine p)
  have copies := anyLines.dropCopies (v.plcHolder (p.dend.toNat % 4)) (probeLine p)
  refine .get ?_
  dsimp only
  rw [if_neg ha]
  refine .upd_bind (.keeps_bind (gone _) fun _ _ => .keeps_bind copies fun t _ => .led (leads_setHolder _ _ _ _)
    (.of_keeps (keepsLinks_respond _ _ _ _ _) fun u links => (links.stateIn _ _).trans ?_))
  show SMap.find ((t.withHolder (probeLine p) _ none).holders (probeLine p)) _ = none
  rw [State.holders_withHolder]
  exact SMap.find_erase_self ..

theorem probe_serves (h : s.arrives i p 5) (hf : s.firstIn p) (hn : s.noneHeld p) (ha : p.addr.toNat % 4 ≠ 0) :
    ∃ t, exec (.probe i p) s = .next t ∧ t.stateIn (probeLine p) (s.plcHolder (p.dend.toNat % 4)) = none :=
  received_reaches h (by decide) hf (fun _ => hn) (servePacket_probe h.1 ▸ reaches_serveProbe (s.holding i p) ha) fun _ _ => id

/-! ### Far writes and atomics at the home (R91, R334) -/

/-- Memory has not changed. -/
def SameMem (s t : State) : Prop := t.mem = s.mem

theorem stable_sameMem : Stable SameMem := ⟨fun _ => rfl, fun h k => Eq.trans k h⟩

theorem keepsMem_spoil (bad : Bool) (loc n : Nat) : (spoil bad loc n).Keeps SameMem :=
  .ite (.each stable_sameMem (fun w => .upd (u := .poison w) fun _ => rfl) _) (.pure stable_sameMem)

section
variable {v : State} {who : Who} {ten g x : Nat} {r : ROp} {bad : Bool} (hx : v.stage2 ten g = some x) (h : v.holders (x / 64) = [])
include hx h

theorem reaches_homeOp_write (ho : r.op = roWrite) : (homeOp who ten g r bad).Reaches v fun t _ =>
    t.mem = Memory.writes v.mem x ((leBytes 8 r.a.toNat ++ leBytes 8 r.b.toNat).take r.len) := by
  refine .get ?_
  rw [hx]
  dsimp only
  rw [ho]
  refine .led (leads_touchL2 x ten _ v) ?_
  rw [if_neg (by decide)]
  refine .led (homeWrite_none _ _ _ (s := v.looked x ten (roWrite != roRead)) h) ?_
  rw [if_pos rfl]
  exact .upd_bind (.keeps_bind (keepsMem_spoil bad _ _) fun _ hm => .pure hm)

theorem reaches_homeOp_amo {y : Nat} {fl : Flags} (ho : r.op = roAmo) (hp : v.poisoned x (widthBytes r.w) = false)
    (hy : amoNew r.sub r.w (RMode.of (BitVec.ofNat 2 r.len)) (v.peek x (widthBytes r.w)) r.a.toNat r.b.toNat = (some y, fl)) :
    (homeOp who ten g r bad).Reaches v fun t _ => t.mem = Memory.writes v.mem x (leBytes (widthBytes r.w) y) := by
  refine .get ?_
  rw [hx]
  dsimp only
  rw [ho]
  refine .led (leads_touchL2 x ten _ v) ?_
  rw [if_neg (by decide)]
  refine .led (homeWrite_none _ _ _ (s := v.looked x ten (roAmo != roRead)) h) ?_
  rw [if_neg (by decide), if_neg (by decide)]
  refine .get ?_
  rw [show (v.looked x ten (roAmo != roRead)).poisoned (Space.hbm.loc x) (widthBytes r.w) = false from hp, if_neg Bool.false_ne_true]
  rw [show amoNew r.sub r.w _ ((v.looked x ten (roAmo != roRead)).peek (Space.hbm.loc x) (widthBytes r.w)) _ _ = _ from hy]
  exact .upd_bind (.keeps_bind (keepsMem_spoil bad _ _) fun _ hm => .pure hm)

end

theorem farAtomic_serves {P : SMap Byte → Prop} (h : s.arrives i p 7) (hf : s.firstIn p) (hn : s.noneHeld p)
    (ho : (homeOp (pktWho p) p.ten.toNat p.addr.toNat (ROp.parse p.payload) p.poison).Reaches (s.holding i p) fun t _ => P t.mem) :
    ∃ t, exec (.farAtomic i p) s = .next t ∧ P t.mem :=
  received_reaches (Q := fun t _ => P t.mem) h (by decide) hf (fun _ => hn) (servePacket_far h.1 ▸ .bind ho fun _ _ hp =>
    .of_keeps (keepsLinks_respond _ _ _ _ _) fun _ links => links.mem.symm ▸ hp) fun _ _ => id

/-! ### Writes at a caldera bank (R97, R339) -/

theorem keepsMem_marks (loc : Nat) (l : List (Nat × PByte)) :
    (each (fun e => if e.2.2 then upd (.poison (loc + e.1)) else pure ()) l).Keeps SameMem :=
  .each stable_sameMem (fun e => .ite (.upd (u := .poison (loc + e.1)) fun _ => rfl) (.pure stable_sameMem)) l

theorem map_fst_unmask (loc mask : Nat) (bs : List Byte) : (unmask loc mask bs).map (·.1) = bs := by
  unfold unmask
  rw [List.map_map]
  exact List.map_snd_zip (by simp)

theorem reaches_putMarked (loc mask : Nat) (bs : List Byte) (v : State) :
    (putMarked loc (unmask loc mask bs)).Reaches v fun t _ => t.mem = Memory.writes v.mem loc bs :=
  .upd_bind (.of_keeps (keepsMem_marks loc _) fun _ hm => hm.trans (congrArg (Memory.writes v.mem loc) (map_fst_unmask loc mask bs)))

theorem reaches_dieOp_write {v : State} {r : ROp} {tgt : Tgt} (ho : r.op = roWrite) (hr : r.ver = false)
    (hl : (v.cal (calCa p.addr.toNat)).lost = false) (hc : v.caldera p.ten.toNat p.addr.toNat = .ok (tgt, false)) :
    (dieOp p r).Reaches v fun t a =>
      t.mem = Memory.writes v.mem ((Space.cal (calCa p.addr.toNat)).loc (calOff p.addr.toNat)) (r.data.take r.len) ∧ ∃ q, a = some q := by
  refine .get ?_
  dsimp only
  rw [hl, if_neg Bool.false_ne_true, ho, if_neg (by decide), if_neg (by decide), if_neg (by decide), if_neg (by decide), hc]
  dsimp only
  rw [hr, if_neg (by simp [roWrite, roStv])]
  refine .bind (P := fun t _ => t.mem = Memory.writes v.mem ((Space.cal (calCa p.addr.toNat)).loc (calOff p.addr.toNat)) (r.data.take r.len)) ?_
    fun _ q hm => .pure ⟨hm, q, rfl⟩
  refine .get ?_
  dsimp only
  rw [ho]
  iterate 7 rw [if_neg (by decide)]
  rw [if_pos rfl]
  exact .bind (reaches_putMarked _ _ _ _) fun _ _ hm => .keeps_bind (keepsMem_spoil _ _ _) fun _ hs => .pure (Eq.trans hs hm)

theorem calderaAccess_serves {tgt : Tgt} (h : s.arrives i p 9) (hf : s.firstIn p) (hn : s.noneHeld p) (ho : (ROp.parse p.payload).op = roWrite)
    (hr : (ROp.parse p.payload).ver = false) (hl : (s.cal (calCa p.addr.toNat)).lost = false)
    (hc : s.caldera p.ten.toNat p.addr.toNat = .ok (tgt, false)) :
    ∃ t, exec (.calderaAccess i p) s = .next t ∧ t.mem = Memory.writes s.mem ((Space.cal (calCa p.addr.toNat)).loc (calOff p.addr.toNat))
      ((ROp.parse p.payload).data.take (ROp.parse p.payload).len) := by
  refine received_reaches (Q := fun t _ => t.mem = _) h (by decide) hf (fun _ => hn) (servePacket_caldera h.1 ▸
    .bind (reaches_dieOp_write (v := s.holding i p) ho hr hl hc) ?_) fun _ _ => id
  rintro t a ⟨hm, q, rfl⟩
  exact .of_keeps (keepsLinks_respond _ _ _ _ _) fun _ links => links.mem.trans hm

/-! ### Group barriers (R231) -/

/-- The count of a member of a group barrier set. -/
def State.withGbar (v : State) (n b q m : Nat) : State := v.ran (setGbar n b q m)

theorem leads_setGbar (n b q m : Nat) (v : State) : (setGbar n b q m).leads v (v.withGbar n b q m) () :=
  M.leads_upd (.dev fun d => { d with gbar := SMap.set (fun _ => 0) d.gbar (gKey n b q) m }) v

theorem State.gbarOf_withGbar_self (v : State) (n b q m : Nat) : (v.withGbar n b q m).gbarOf n b q = m := SMap.get_set_self ..

theorem State.gbarOf_withGbar_ne (v : State) (n b m : Nat) {q k : Nat} (h : k ≠ q) : (v.withGbar n b q m).gbarOf n b k = v.gbarOf n b k :=
  SMap.get_set_ne _ _ _ (by unfold gKey; omega)

/-- What a packet of a group barrier makes of its sender's count. -/
def countAfter (f n : Nat) : Nat := if f = 0 then max 1 n + 1 else if f = 1 then max 1 n else 0

theorem groupCheck_waits {v : State} {n b : Nat} (h : v.gbarOf n b v.pres.pkg.toNat = 0) : (groupCheck n b).leads v v () := by
  refine M.leads_get_bind ?_
  dsimp only
  rw [h]
  exact M.leads_pure () v

theorem reaches_count {v : State} {n b q : Nat} (m : Nat) (hq : v.pres.pkg.toNat ≠ q) (hg : v.gbarOf n b v.pres.pkg.toNat = 0) :
    (setGbar n b q m >>= fun _ => groupCheck n b).Reaches v fun t _ => t.mem = v.mem ∧ t.gbarOf n b q = m :=
  .led (leads_setGbar n b q m v) ⟨_, (), groupCheck_waits ((State.gbarOf_withGbar_ne v n b m hq).trans hg), rfl,
    State.gbarOf_withGbar_self v n b q m⟩

theorem reaches_serveBarrier {v : State} {n b : Nat} (hn : p.addr.toNat % 2 ^ 11 = n) (hb : p.addr.toNat / 2 ^ 11 % 4 = b)
    (hq : v.pres.pkg.toNat ≠ p.spkg.toNat) (hg : v.gbarOf n b v.pres.pkg.toNat = 0) : (serveBarrier p).Reaches v fun t _ =>
      t.mem = v.mem ∧ t.gbarOf n b p.spkg.toNat = countAfter (p.addr.toNat / 2 ^ 13) (v.gbarOf n b p.spkg.toNat) := by
  refine .get ?_
  dsimp only
  rw [hn, hb]
  unfold countAfter
  split
  · exact reaches_count _ hq hg
  · split
    · exact reaches_count _ hq hg
    · exact reaches_count _ hq hg

theorem groupBarrier_serves {n b : Nat} (h : s.arrives i p 0x0B) (hf : s.firstIn p) (hn : p.addr.toNat % 2 ^ 11 = n)
    (hb : p.addr.toNat / 2 ^ 11 % 4 = b) (hg : s.gbarOf n b s.pres.pkg.toNat = 0) :
    ∃ t, exec (.groupBarrier i p) s = .next t ∧ t.mem = s.mem ∧
      t.gbarOf n b p.spkg.toNat = countAfter (p.addr.toNat / 2 ^ 13) (s.gbarOf n b p.spkg.toNat) := by
  have hq : s.pres.pkg.toNat ≠ p.spkg.toNat := fun e => h.2.2.2.2.2.1 (BitVec.eq_of_toNat_eq e.symm)
  have ho : pktOrdered p = false := pktOrdered_of_kind (by rw [h.1]; decide)
  have r := reaches_serveBarrier (v := s.holding i p) hn hb hq hg
  rw [← servePacket_barrier h.1] at r
  exact received_reaches h (by decide) hf (fun e => absurd e (by rw [ho]; decide)) r fun _ _ => id

/-! ### Translations dropped for a peer (R207) -/

/-- The translations of an address space that an invalidation leaves. -/
def tlbWithout (ten n va : Nat) (all : Bool) (tlb : List TlbEnt) : List TlbEnt :=
  tlb.filter fun e => !(e.ten == ten && e.pnode == n && (all || e.inPage va))

theorem inUse_holding (s : State) (i : Nat) (p : Packet) (ten n : Nat) (f : Nat → Word → Bool) : (s.holding i p).inUse ten n f = s.inUse ten n f := rfl

theorem translationInvalidation_serves (h : s.arrives i p 0x0C) (hf : s.firstIn p)
    (hb : s.inUse p.ten.toNat (p.addr.toNat / 2 ^ 40 % 2 ^ 11) (fun x l => p.addr.toNat.testBit 55 || samePage l x (p.addr.toNat % 2 ^ 40 * 2 ^ 19)) = false) :
    ∃ t, exec (.translationInvalidation i p) s = .next t ∧ t.mem = s.mem ∧ t.dev.tlb = tlbWithout p.ten.toNat (p.addr.toNat / 2 ^ 40 % 2 ^ 11)
      (p.addr.toNat % 2 ^ 40 * 2 ^ 19) (p.addr.toNat.testBit 55) s.dev.tlb := by
  have ho : pktOrdered p = false := pktOrdered_of_kind (by rw [h.1]; decide)
  refine received_reaches (Q := fun t _ => t.mem = s.mem ∧ t.dev.tlb = _) h (by decide) hf (fun e => absurd e (by rw [ho]; decide)) ?_ fun _ _ => id
  rw [servePacket_tlbi h.1]
  refine .get ?_
  dsimp only
  rw [inUse_holding, hb, if_neg Bool.false_ne_true]
  exact .upd_bind (.of_keeps (keepsLinks_respond _ _ _ _ _) fun _ links => ⟨links.mem, links.tlb⟩)

/-- A packet whose agent cannot serve it yet stays in the queue. -/
theorem received_waits (h : s.arrives i p kind) (hk : kind ≠ 0) (hs : (servePacket p).Stalls (s.holding i p)) :
    received i p kind s = .next (s.holding i p) := by
  have wait : (processPacket s.dev.inq.length).Stalls (s.holding i p) := by
    refine (M.leads_get _).stalls ?_
    rw [show (s.holding i p).dev.inq = s.dev.inq ++ [p] from rfl, List.getElem?_append_right (Nat.le_refl _), Nat.sub_self]
    dsimp only [List.getElem?_cons_zero]
    split
    · exact fun _ _ => rfl
    · exact hs.bind
  unfold received andThen
  rw [(leads_acceptPacket h hk).event_eq]
  dsimp only
  split
  · exact congrArg _ (wait _ _)
  · rfl

theorem translationInvalidation_waits (h : s.arrives i p 0x0C)
    (hb : s.inUse p.ten.toNat (p.addr.toNat / 2 ^ 40 % 2 ^ 11) (fun x l => p.addr.toNat.testBit 55 || samePage l x (p.addr.toNat % 2 ^ 40 * 2 ^ 19)) = true) :
    exec (.translationInvalidation i p) s =
      .next { s.linkTook i p with dev := { (s.linkTook i p).dev with inq := s.dev.inq ++ [p] } } := by
  have hs : (servePacket p).Stalls (s.holding i p) := by
    rw [servePacket_tlbi h.1]
    refine (M.leads_get _).stalls ?_
    dsimp only
    rw [inUse_holding, hb, if_pos rfl]
    exact fun _ _ => rfl
  have same : s.holding i p = { s.linkTook i p with dev := { (s.linkTook i p).dev with inq := s.dev.inq ++ [p] } } := by
    obtain ⟨L, hL⟩ := onlyLinks_linkTook s i p
    have ha : asksLine p = false := by
      unfold asksLine
      rw [h.1]
      rfl
    unfold State.holding viaWith
    rw [hL, ha]
    rfl
  exact same ▸ received_waits h (by decide) hs

/-! ### Blocks and granules of a peer that are released (R95, R391) -/

/-- An acknowledgement has gone to the sender on its only port, unless that is held back. -/
def State.Acked (s : State) (i : Nat) (p : Packet) (t : State) : Prop :=
  ∀ j, (s.linkTook i p).portsTo false p.spkg.toNat = [j] → ((s.linkTook i p).link j).barred = false →
    ∃ q ∈ (t.link j).unacked, q.kind.toNat = 0x0D ∧ q.tag = p.tag ∧ q.dpkg = p.spkg

theorem reaches_ack {w : State} (hp : w.pres = s.pres) (hl : w.dev.links = (s.linkTook i p).dev.links) (h : s.arrives i p 0x0E) :
    (respond p 0x0D [] false 0).Reaches w fun t _ => OnlyLinks w t ∧ s.Acked i p t := by
  have hca : answerCa w p = false := by
    unfold answerCa asksLine
    rw [h.1]
    rfl
  refine .of_leads ((keepsLinks_respond p 0x0D [] false 0).leads w) ⟨(keepsLinks_respond p 0x0D [] false 0).rel w, fun j hj hb => ?_⟩
  obtain ⟨q, hq, hk, ht, hd, -⟩ := answered_on (s := s) (i := i) hp hl h.2.2.2.2.2.1 hca 0x0D [] false 0 0 j hj hb
  exact ⟨q, hq, by rw [hk]; rfl, ht, hd⟩

theorem find_eraseRange {α : Type} (m : SMap α) {lo hi k : Nat} (h0 : lo ≤ k) (h1 : k < hi) : SMap.find (SMap.eraseRange m lo hi) k = none := by
  refine SMap.find_eq_none fun hk => ?_
  obtain ⟨e, he, rfl⟩ := List.mem_map.1 hk
  have := (List.mem_filter.1 he).2
  simp only [Bool.or_eq_true, decide_eq_true_eq] at this
  omega

/-- What a package has left of a released block of a peer (R95). -/
structure State.BlockGone (s : State) (lo : Nat) (t : State) : Prop where
  bytes : ∀ b, b < lo ∨ lo + 2 ^ 25 ≤ b → t.byte b = s.byte b
  holders : ∀ line, lo ≤ line * 64 → line * 64 < lo + 2 ^ 25 → t.holders line = []
  shadow : ∀ k, lo ≤ k * 32 → k * 32 < lo + 2 ^ 25 → SMap.find t.shadow k = none

theorem State.BlockGone.links {v t u : State} {lo : Nat} (h : v.BlockGone lo t) (k : OnlyLinks t u) : v.BlockGone lo u where
  bytes b hb := by
    unfold State.byte
    rw [k.mem]
    exact h.bytes b hb
  holders line h0 h1 := (k.holders line).trans (h.holders line h0 h1)
  shadow n h0 h1 := by
    rw [k.shadow]
    exact h.shadow n h0 h1

/-- The location in the PLCs of a guest block that a peer releases. -/
def blockLo (p : Packet) : Nat := (Space.plc p.spkg.toNat p.ten.toNat).loc (p.addr.toNat / 2 ^ 25 * 2 ^ 25)

theorem blockLo_mod (p : Packet) : blockLo p % 64 = 0 := by
  show (5 * 2 ^ 60 + (p.spkg.toNat + 16 * p.ten.toNat) * 2 ^ 48 + p.addr.toNat / 2 ^ 25 * 2 ^ 25) % 64 = 0
  omega

/-- Whether a request is for a line of the block that a peer releases. -/
def ofBlock (p x : Packet) : Bool := x.dpkg == p.spkg && x.ten == p.ten && x.addr.toNat / 2 ^ 25 == p.addr.toNat / 2 ^ 25

/-- The bytes and the shadow entries of a range of locations, once the directory has nothing of it. -/
theorem blockGone_scrub {v : State} {lo : Nat} (h0 : lo % 64 = 0) (h : ∀ line, lo ≤ line * 64 → line * 64 < lo + 2 ^ 25 → v.holders line = []) :
    v.BlockGone lo ((Upd.scrub lo (lo + 2 ^ 25)).apply v) where
  bytes b hb := (State.byte_scrub v lo (lo + 2 ^ 25) b).trans (if_pos hb)
  holders := h
  shadow k _ _ := find_eraseRange v.shadow (by omega) (by omega)

theorem reaches_scrubBlock (h : s.arrives i p 0x0E) (ha : p.addr.toNat.testBit 55 = false)
    (hr : ∀ r ∈ s.dev.reqs, r.keepsLine = true → r.pkt.dpkg = p.spkg → r.ans ≠ none ∨ r.lost = true) :
    (serveScrub p).Reaches (s.holding i p) fun t _ => s.Acked i p t ∧ s.BlockGone (blockLo p) t := by
  have answered : ¬(s.dev.reqs.any fun r => r.keepsLine && r.ans.isNone && !r.lost && ofBlock p r.pkt) = true := by
    simp only [List.any_eq_true, Bool.and_eq_true, Option.isNone_iff_eq_none, Bool.not_eq_true', ofBlock, beq_iff_eq]
    rintro ⟨r, hm, ⟨⟨hk, hn⟩, hl⟩, ⟨hd, -⟩, -⟩
    rcases hr r hm hk hd with e | e
    · exact e hn
    · exact absurd (hl.symm.trans e) Bool.false_ne_true
  unfold serveScrub
  dsimp only
  rw [ha, if_neg Bool.false_ne_true]
  refine .get ?_
  rw [if_neg ?guard]
  case guard => exact answered
  refine .upd_bind ?_
  obtain ⟨c, hc, lc⟩ := leads_dropRange (blockLo p) (blockLo p + 2 ^ 25)
    ((Upd.dev fun d => { d with reqs := d.reqs.filter fun r => !(r.keepsLine && r.ans.isSome && ofBlock p r.pkt) }).apply (s.holding i p))
  have m0 := blockLo_mod p
  have gone := blockGone_scrub (v := (Upd.dev (dirWithout (blockLo p) (blockLo p + 2 ^ 25))).apply c) m0 fun line h0 h1 =>
    holders_dirWithout _ _ _ (by omega) _
  have bytes : ∀ b, c.byte b = s.byte b := fun b => by
    unfold State.byte
    rw [hc.mem]
    rfl
  have links : c.dev.links = (s.linkTook i p).dev.links := by
    rw [hc.dev]
    rfl
  refine .led lc (.upd_bind (.upd_bind ((reaches_ack (s := s) (i := i) ?_ ?_ h).mono fun t _ ⟨only, ack⟩ =>
    ⟨ack, State.BlockGone.links ?_ only⟩)))
  · exact hc.pres
  · exact links
  · exact ⟨fun b hb => (gone.bytes b hb).trans (bytes b), gone.holders, gone.shadow⟩

theorem reaches_scrubGranules (h : s.arrives i p 0x0E) (ha : p.addr.toNat.testBit 55 = true) :
    (serveScrub p).Reaches (s.holding i p) fun t _ => s.Acked i p t ∧ ∀ e ∈ t.dev.tlb,
      e.overWindow (p.addr.toNat % 2 ^ 40 / 2 ^ 16 * 2 ^ 16)
        (p.addr.toNat % 2 ^ 40 / 2 ^ 16 * 2 ^ 16 + (p.addr.toNat % 2 ^ 16 + 1) * 2 ^ 16) = false := by
  unfold serveScrub
  dsimp only
  rw [ha, if_pos rfl]
  refine .upd_bind (.upd_bind ((reaches_ack (s := s) (i := i) ?_ ?_ h).mono fun t _ ⟨links, ack⟩ => ⟨ack, fun e he => ?_⟩))
  · rfl
  · rfl
  rw [links.tlb] at he
  simpa using (List.mem_filter.1 he).2

theorem scrub_serves {Q : State → Unit → Prop} {T : State → Prop} (h : s.arrives i p 0x0E) (hf : s.firstIn p)
    (hs : (serveScrub p).Reaches (s.holding i p) Q) (hT : ∀ t k, Q t () → T (t.served k p)) :
    ∃ t, exec (.scrubInvalidation i p) s = .next t ∧ T t :=
  have ho : pktOrdered p = false := pktOrdered_of_kind (by rw [h.1]; decide)
  received_reaches h (by decide) hf (fun e => absurd e (by rw [ho]; decide)) (servePacket_scrub h.1 ▸ hs) hT

end

/-! ### Multicast (R340, R341, R415) -/

/-- The copy of a multicast packet that the own package gets. -/
def State.copyHere (s : State) (e : Nat) (p : Packet) : Packet :=
  { p with dend := BitVec.ofNat 12 (bitsOf e 12 12), dpkg := s.pres.pkg, spkg := s.pres.pkg, sinc := s.dev.incarn }

/-- The copies that the own package gets when those for a list of packages are made. -/
def State.copies (s : State) (e : Nat) (p : Packet) (l : List Nat) : List Packet :=
  List.replicate (if e.testBit (24 + s.pres.pkg.toNat) then l.count s.pres.pkg.toNat else 0) (s.copyHere e p)

/-- What the copies for a list of packages leave: memory, the own package and its incarnation, and the queue with the own copies at its end. -/
structure State.Copied (s : State) (e : Nat) (p : Packet) (l : List Nat) (t : State) : Prop where
  mem : t.mem = s.mem
  pres : t.pres = s.pres
  incarn : t.dev.incarn = s.dev.incarn
  inq : t.dev.inq = s.dev.inq ++ s.copies e p l

theorem OnlyLinks.copied {s t : State} {e : Nat} {p : Packet} {l : List Nat} (h : OnlyLinks s t) (hl : s.copies e p l = []) : s.Copied e p l t := by
  obtain ⟨L, rfl⟩ := h
  exact ⟨rfl, rfl, rfl, by rw [hl, List.append_nil]⟩

theorem State.Copied.append {s t u : State} {e : Nat} {p : Packet} {l m : List Nat} (h : s.Copied e p l t) (k : t.Copied e p m u) :
    s.Copied e p (l ++ m) u where
  mem := k.mem.trans h.mem
  pres := k.pres.trans h.pres
  incarn := k.incarn.trans h.incarn
  inq := by
    have same : t.copies e p m = s.copies e p m := by
      unfold State.copies State.copyHere
      rw [h.pres, h.incarn]
    rw [k.inq, h.inq, same, List.append_assoc]
    unfold State.copies
    rw [List.replicate_append_replicate, List.count_append]
    split <;> rfl

theorem State.copies_range (s : State) (e : Nat) (p : Packet) :
    s.copies e p (List.range 16) = if e.testBit (24 + s.pres.pkg.toNat) then [s.copyHere e p] else [] := by
  unfold State.copies
  rw [List.count_eq_one_of_mem List.nodup_range (List.mem_range.2 s.pres.pkg.isLt)]
  split <;> rfl

/-- One copy of a multicast packet, for package q. -/
def copyTo (ca : Bool) (p : Packet) (e q : Nat) : M Unit :=
  if !e.testBit (24 + q) then pure ()
  else do
    let s ← get
    let c := { p with dend := BitVec.ofNat 12 (bitsOf e 12 12), dpkg := BitVec.ofNat 4 q, spkg := s.pres.pkg, sinc := s.dev.incarn }
    if q = s.pres.pkg.toNat then upd (.dev fun d => { d with inq := d.inq ++ [c] })
    else if (s.peer q).lost || s.unreachable q then upd (.dev fun d => { d with mcdrop := d.mcdrop + 1 })
    else sendPacket ca c

theorem reaches_copyTo (ca : Bool) (p : Packet) (e q : Nat) (v : State) : (copyTo ca p e q).Reaches v fun t _ => v.Copied e p [q] t := by
  unfold copyTo
  by_cases hq : q = v.pres.pkg.toNat
  · subst hq
    cases hb : e.testBit (24 + v.pres.pkg.toNat)
    · exact .pure (stable_onlyLinks.refl v |>.copied (by simp [State.copies, hb]))
    · refine .get ?_
      dsimp only
      rw [if_pos rfl]
      refine .upd ⟨rfl, rfl, rfl, ?_⟩
      simp [State.copies, State.copyHere, hb, Upd.apply]
  · have none' : v.copies e p [q] = [] := by simp [State.copies, hq]
    split
    · exact .pure ((stable_onlyLinks.refl v).copied none')
    · refine .get ?_
      dsimp only
      rw [if_neg hq]
      split
      · exact .upd ⟨rfl, rfl, rfl, by rw [none', List.append_nil]; rfl⟩
      · exact .of_keeps (keepsLinks_sendPacket _ _) fun _ links => links.copied none'

theorem reaches_copies (ca : Bool) (p : Packet) (e : Nat) : ∀ (l : List Nat) (v : State),
    (each (copyTo ca p e) l).Reaches v fun t _ => v.Copied e p l t
  | [], v => .pure ((stable_onlyLinks.refl v).copied (by simp [State.copies]))
  | q :: l, v => .bind (reaches_copyTo ca p e q v) fun t _ h =>
      have ⟨u, b, k, r⟩ := reaches_copies ca p e l t
      ⟨u, b, k, h.append r⟩

section
variable {s : State} {ca : Bool} {p : Packet} {e : Nat} (he : (SMap.get (fun _ => (0 : Word)) (s.cal ca).mc (p.addr.toNat % 256)).toNat = e)
include he

theorem multicastReplication_unserved (h : ¬((s.cal ca).lost = false ∧ p.dend = 0xFFF ∧ e.testBit 63 = true)) :
    exec (.multicastReplication ca p) s = .next s := by
  have hs : ((s.cal ca).lost || decide (p.dend ≠ 0xFFF) || !e.testBit 63) = true := by
    by_contra c
    simp only [Bool.or_eq_true, decide_eq_true_eq, Bool.not_eq_true', not_or, Bool.not_eq_true, Bool.not_eq_false, not_not] at c
    exact h ⟨c.1.1, c.1.2, c.2⟩
  show execMulticastReplication ca p s = _
  unfold execMulticastReplication
  rw [event_get]
  dsimp only
  rw [he, if_pos hs]
  rfl

theorem multicastReplication_copies (h : (s.cal ca).lost = false ∧ p.dend = 0xFFF ∧ e.testBit 63 = true) :
    ∃ t, exec (.multicastReplication ca p) s = .next t ∧ t.mem = s.mem ∧
      t.dev.inq = if e.testBit (24 + s.pres.pkg.toNat) then s.dev.inq ++ [s.copyHere e p] else s.dev.inq := by
  obtain ⟨t, _, l, c⟩ := reaches_copies ca p e (List.range 16) s
  refine ⟨t, ?_, c.mem, ?_⟩
  · have go : ((s.cal ca).lost || decide (p.dend ≠ 0xFFF) || !e.testBit 63) = false := by simp [h]
    refine (M.leads_get_bind (f := fun s => _) ?_).event_eq
    dsimp only
    rw [he, if_neg (by rw [go]; decide)]
    exact l
  · rw [c.inq, State.copies_range]
    split
    · rfl
    · exact List.append_nil _

end

/-! ### The fields of a line answer (log 12) -/

theorem grantedSt_eq (a : Nat) : grantedSt a = if a % 2 = 1 then .m else .e := by
  unfold grantedSt
  rw [Nat.testBit_zero]
  simp only [decide_eq_true_eq]

theorem answerEnd_toNat {p : Packet} (h : p.kind.toNat = 1) : (BitVec.ofNat 12 (answerEnd p)).toNat = 0x200 + p.addr.toNat / 4 % 4 := by
  simp only [answerEnd, h, BitVec.toNat_ofNat]
  omega

theorem answerAddr_flag {p : Packet} (h : asksLine p = true) {flag : Nat} (hf : flag < 4) :
    (BitVec.ofNat 56 (answerAddr p flag)).toNat % 4 = flag := by
  unfold answerAddr
  rw [if_pos h, BitVec.toNat_ofNat]
  omega

theorem overWindow_iff (lo hi : Nat) (e : TlbEnt) : e.overWindow lo hi = true ↔
    lfAPT e.leaf = 2 ∧ lfFRAME e.leaf * 2 ^ 19 < hi ∧ lo < lfFRAME e.leaf * 2 ^ 19 + 2 ^ lfLog e.leaf := by
  unfold TlbEnt.overWindow
  rw [Bool.and_eq_true, Bool.and_eq_true, beq_iff_eq, decide_eq_true_iff, decide_eq_true_iff, and_assoc]

/-- Settles O51: each kind of request is taken by its agent as soon as it has arrived, when no packet comes before it, and answered by the port
that the requester's package is reached by. -/
theorem linkServices : Obligations.LinkServices := by
  intro port p s
  refine ⟨?read, ?writeBack, ?probe, ?far, ?caldera, ?barrier, ?tlbi, ?scrub, ?multicast⟩
  case read =>
    intro x h hf hn hx he
    have ha : asksLine p = true := asksLine_of_kind (by rw [h.1]; decide)
    obtain ⟨t, ht, hm, hh, hq⟩ := lineReadRequest_serves h hf hn hx he
    refine ⟨t, ht, hm, by rw [hh, grantedSt_eq], fun j hj hb => ?_⟩
    obtain ⟨q, hq, hk, htag, hd, hpl, hend, haddr, hp⟩ := hq j hj hb
    exact ⟨q, hq, by rw [hk]; rfl, htag, hd, hpl, by rw [hend, answerEnd_toNat h.1],
      by rw [haddr, answerAddr_flag ha (by split <;> decide)], hp⟩
  case writeBack => exact fun x st h hf hn hb hx hs hst => lineWriteBack_serves h hf hn hb hx hs hst
  case probe => exact fun h hf hn ha => probe_serves h hf hn ha
  case far =>
    intro x h hf hn hx he
    exact ⟨fun ho => farAtomic_serves (P := fun m => m = _) h hf hn (reaches_homeOp_write (v := s.holding port p) hx he ho),
      fun v fl ho hp hy => farAtomic_serves (P := fun m => m = _) h hf hn (reaches_homeOp_amo (v := s.holding port p) hx he ho hp hy)⟩
  case caldera => exact fun tgt h hf hn ho _ hr hl hc => calderaAccess_serves h hf hn ho hr hl hc
  case barrier => exact fun h hf _ hg => groupBarrier_serves h hf rfl rfl hg
  case tlbi => exact fun h => ⟨translationInvalidation_waits h, fun hb hf => translationInvalidation_serves h hf hb⟩
  case scrub =>
    intro h hf
    refine ⟨fun ha hr => ?_, fun ha => ?_⟩
    · obtain ⟨t, ht, hack, hgone⟩ := scrub_serves (T := fun t => s.Acked port p t ∧ s.BlockGone (blockLo p) t) h hf
        (reaches_scrubBlock h ha hr) fun _ _ ⟨ack, gone⟩ => ⟨ack, gone.bytes, gone.holders, gone.shadow⟩
      exact ⟨t, ht, hack, hgone.bytes, hgone.holders, hgone.shadow⟩
    · obtain ⟨t, ht, hack, htlb⟩ := scrub_serves (T := fun t => s.Acked port p t ∧ ∀ e ∈ t.dev.tlb, e.overWindow _ _ = false) h hf
        (reaches_scrubGranules h ha) fun _ _ => id
      exact ⟨t, ht, hack, fun e he => by rw [← overWindow_iff, htlb e he]; decide⟩
  case multicast => exact fun ca => ⟨multicastReplication_unserved rfl, multicastReplication_copies rfl⟩

end Sys2Proof.Machine
end

section
/-!
SUPPORT. `ev.arrive` at an unchained barrier (R230, R120): what an arrival makes of a cluster, as a function of the cluster alone, and the
instruction as that function followed by a retirement.
-/

namespace Sys2Proof.Machine

open M

/-! ### Barriers of a cluster (R229, R230) -/

/-- A barrier at which position p has arrived, and one whose generation is complete. -/
def Bar.arrive (p : Nat) (x : Bar) : Bar :=
  { x with arr := x.arr ||| 1#4 <<< p, join := SMap.set (fun _ => 0xFFFF_FFFF) x.join p x.gen }
def Bar.complete (x : Bar) : Bar := { x with gen := x.gen + 1, arr := 0 }

/-- A cluster after the completion of a barrier: the next cluster interval begins (R120). -/
def Cluster.complete (b : Nat) (c : Cluster) : Cluster := { c.setBar b Bar.complete with intv := c.intv + 1 }

/-- A cluster after an arrival at an unchained barrier, which the last arrival completes. -/
def Cluster.arrive (b p : Nat) (c : Cluster) : Cluster :=
  if (c.bar b).arr ||| 1#4 <<< p = (c.bar b).pmask then (c.setBar b (Bar.arrive p)).complete b else c.setBar b (Bar.arrive p)

@[simp] theorem Bar.arrive_joined (p : Nat) (x : Bar) : (x.arrive p).joined p = x.gen := SMap.get_set_self ..
@[simp] theorem Bar.complete_joined (p : Nat) (x : Bar) : x.complete.joined p = x.joined p := rfl

namespace Cluster

variable (c : Cluster) (b p : Nat) (f g : Bar → Bar)

@[simp] theorem bar_setBar_self : (c.setBar b f).bar b = f (c.bar b) := SMap.get_set_self ..
theorem bar_setBar_ne {j : Nat} (h : j ≠ b) : (c.setBar b f).bar j = c.bar j := SMap.get_set_ne _ _ _ h

@[simp] theorem complete_bar_self : (c.complete b).bar b = (c.bar b).complete := bar_setBar_self ..
theorem complete_bar_ne {j : Nat} (h : j ≠ b) : (c.complete b).bar j = c.bar j := bar_setBar_ne _ _ _ h

variable {c b p}

/-- An arrival that is not the last. -/
theorem arrive_of_ne (h : (c.bar b).arr ||| 1#4 <<< p ≠ (c.bar b).pmask) : c.arrive b p = c.setBar b (Bar.arrive p) := if_neg h

/-- The last arrival. -/
theorem arrive_of_eq (h : (c.bar b).arr ||| 1#4 <<< p = (c.bar b).pmask) : c.arrive b p = (c.setBar b (Bar.arrive p)).complete b := if_pos h

/-- The event lines and the mutexes are no matter of an arrival. -/
theorem arrive_lines_mutex : (c.arrive b p).lines = c.lines ∧ (c.arrive b p).mutex = c.mutex := by
  unfold arrive
  split <;> exact ⟨rfl, rfl⟩

theorem arrive_bar_ne {j : Nat} (h : j ≠ b) : (c.arrive b p).bar j = c.bar j := by
  unfold arrive
  split
  · rw [complete_bar_ne _ _ h, bar_setBar_ne _ _ _ h]
  · exact bar_setBar_ne _ _ _ h

theorem arrive_joined_pmask : ((c.arrive b p).bar b).joined p = (c.bar b).gen ∧ ((c.arrive b p).bar b).pmask = (c.bar b).pmask := by
  unfold arrive
  split
  · rw [complete_bar_self, bar_setBar_self, Bar.complete_joined, Bar.arrive_joined]
    exact ⟨rfl, rfl⟩
  · rw [bar_setBar_self, Bar.arrive_joined]
    exact ⟨rfl, rfl⟩

theorem arrive_waits (h : (c.bar b).arr ||| 1#4 <<< p ≠ (c.bar b).pmask) :
    ((c.arrive b p).bar b).gen = (c.bar b).gen ∧ ((c.arrive b p).bar b).arr = (c.bar b).arr ||| 1#4 <<< p ∧ (c.arrive b p).intv = c.intv := by
  rw [arrive_of_ne h, bar_setBar_self]
  exact ⟨rfl, rfl, rfl⟩

theorem arrive_completes (h : (c.bar b).arr ||| 1#4 <<< p = (c.bar b).pmask) :
    ((c.arrive b p).bar b).gen = (c.bar b).gen + 1 ∧ ((c.arrive b p).bar b).arr = 0 ∧ (c.arrive b p).intv = c.intv + 1 := by
  rw [arrive_of_eq h, complete_bar_self, bar_setBar_self]
  exact ⟨rfl, rfl, rfl⟩

end Cluster

/-! ### The end of an instruction -/

@[simp] theorem Ctx.tick_run (c : Ctx) : c.tick.run = c.run := c.tick_keeps (·.run) (fun _ _ _ => Ctx.wr_run ..) fun _ _ => rfl

theorem Ctx.skipAnnulled_run (n : Nat) (a : Bool) (c : Ctx) : (Ctx.skipAnnulled n a c).run = c.run := by
  induction n generalizing a c with
  | zero => rfl
  | succ n ih =>
    cases a with
    | false => rfl
    | true => exact (ih _ _).trans (Ctx.tick_run _)

/-- A context that has retired an instruction is READY (R37). -/
@[simp] theorem Ctx.retire_run (f : Fin) (c : Ctx) : (c.retire f).run = .ready := (Ctx.skipAnnulled_run _ _ _).trans (Ctx.tick_run _)

@[simp] theorem State.retired_cluster (s : State) (f : Fin) (k : Nat) : (s.retired f).cluster k = s.cluster k := rfl

theorem M.leads.instr_eq {m : M Fin} {s t : State} {f : Fin} (h : m.leads s t f) : instr m s = .next (t.retired f) :=
  congrArg _ (h s fun f => retireM f fun _ => .done)

/-! ### What an event instruction does before its effect (R107, R428) -/

theorem leads_flushWindow {s : State} (h : s.noTiles) : flushWindow.leads s s () := fun s0 k => run_flushWindow s0 s h k

theorem leads_fenceAll {s : State} (h : s.fenced) : fenceAll.leads s s () := fun s0 k => run_fenceAll s0 s h k

theorem leads_agent (i : Instr) {ok : Nat → Bool} {s : State} (h : ok s.dev.cur = true) : (agent i ok).leads s s () := by
  refine M.leads_bind (fun s0 k => run_meId s0 s k) ?_
  rw [if_pos h]
  exact M.leads_pure () s

/-- A compute core learns its cluster and its position. -/
theorem leads_evSetup (i : Instr) {s : State} (hv : s.onVent = false) (ht : s.noTiles) :
    (evSetup i).leads s s (s.myCluster, s.myPosition, s.cluster s.myCluster) := by
  have compute : onCompute s.dev.cur = true := congrArg (!·) hv
  exact M.leads_bind (leads_agent i compute) (M.leads_bind (leads_flushWindow ht) (M.leads_get_bind (M.leads_pure _ s)))

/-! ### `ev.arrive` (R230) -/

/-- A barrier with an arrival still to come does not complete. -/
theorem leads_barrierCheck_of_ne {k b : Nat} {s : State} (h : ((s.cluster k).bar b).arr ≠ ((s.cluster k).bar b).pmask) :
    (barrierCheck k b).leads s s () := by
  refine M.leads_get_bind ?_
  rw [if_pos (by simp [h])]
  exact M.leads_pure () s

/-- An unchained barrier at which every position has arrived completes alone. -/
theorem leads_barrierCheck_of_eq {k b : Nat} {s : State} (h : ((s.cluster k).bar b).arr = ((s.cluster k).bar b).pmask)
    (marked : ((s.cluster k).bar b).arr ≠ 0) (alone : ((s.cluster k).bar b).chain = 0) :
    (barrierCheck k b).leads s (s.setCluster k ((s.cluster k).complete b)) () := by
  refine M.leads_get_bind ?_
  rw [if_neg (by simpa [h] using marked), if_pos alone]
  exact M.leads_upd _ s

/-- The check after an arrival at an unchained barrier makes of the cluster what `Cluster.arrive` says. -/
theorem leads_barrierCheck_arrive {k b p : Nat} {s : State} (member : ((s.cluster k).bar b).pmask.getLsbD p = true)
    (alone : ((s.cluster k).bar b).chain = 0) :
    (barrierCheck k b).leads (s.setCluster k ((s.cluster k).setBar b (Bar.arrive p))) (s.setCluster k ((s.cluster k).arrive b p)) () := by
  by_cases last : ((s.cluster k).bar b).arr ||| 1#4 <<< p = ((s.cluster k).bar b).pmask
  · have marked : ((s.cluster k).bar b).arr ||| 1#4 <<< p ≠ 0 := fun e => by simp [← last, e] at member
    have l := leads_barrierCheck_of_eq (k := k) (b := b) (s := s.setCluster k ((s.cluster k).setBar b (Bar.arrive p)))
    rw [State.cluster_setCluster_self, Cluster.bar_setBar_self, State.setCluster_setCluster, ← Cluster.arrive_of_eq last] at l
    exact l last marked alone
  · rw [Cluster.arrive_of_ne last]
    refine leads_barrierCheck_of_ne ?_
    rw [State.cluster_setCluster_self, Cluster.bar_setBar_self]
    exact last

/-- `ev.arrive` at an unchained barrier changes the cluster of its core alone, and retires. -/
theorem exec_evArrive {b : BitVec 2} {s : State} (hv : s.onVent = false) (hf : s.fenced)
    (member : ((s.cluster s.myCluster).bar b.toNat).pmask.getLsbD s.myPosition = true)
    (first : ((s.cluster s.myCluster).bar b.toNat).arr.getLsbD s.myPosition = false)
    (alone : ((s.cluster s.myCluster).bar b.toNat).chain = 0) :
    exec (.evArrive b) s = .next (s.setCluster s.myCluster ((s.cluster s.myCluster).arrive b.toNat s.myPosition)).retired := by
  refine M.leads.instr_eq (f := {}) (M.leads_bind (leads_evSetup _ hv hf.1) ?_)
  dsimp only
  rw [member, first, if_neg (by decide), if_neg (by decide)]
  exact M.leads_bind (leads_fenceAll hf) (M.leads_upd_bind (M.leads_bind (leads_barrierCheck_arrive member alone) (M.leads_pure _ _)))

/-- Settles O19: the instruction makes of its cluster what `Cluster.arrive` says, of which each part is a lemma above, and retires. -/
theorem barrierArrive : Obligations.BarrierArrive := by
  intro b s hv hf c x p arr member first alone
  refine ⟨_, exec_evArrive hv hf member first alone, ?_, rfl, ?_⟩
  · rw [State.retired_me, Ctx.retire_run]
  · rw [State.retired_cluster, State.cluster_setCluster_self]
    obtain ⟨joined, pmask⟩ := Cluster.arrive_joined_pmask (c := c) (b := b.toNat) (p := p)
    obtain ⟨lines, mutex⟩ := Cluster.arrive_lines_mutex (c := c) (b := b.toNat) (p := p)
    exact ⟨joined, pmask, Cluster.arrive_waits, Cluster.arrive_completes, lines, mutex, fun j => Cluster.arrive_bar_ne,
      fun k hk => (State.retired_cluster ..).trans (State.cluster_setCluster_ne _ _ hk)⟩

end Sys2Proof.Machine
end

section
/-!
SUPPORT. Publications of a version by a port unit (R130, R133, R136): when one can begin, the version that the tables of the port give, and
the record of the port after it.
-/

namespace Sys2Proof.Machine

open M

/-- What the record of a port itself needs for a publication. -/
theorem PortLd.ready_iff (q : PortLd) :
    q.ready = true ↔ q.cl.length = pNSSL q.img ∧ q.live < pDEPTH q.img ∧ q.asked = none ∧ q.owes = false := by
  simp [PortLd.ready, and_assoc]

/-! ### The version that is published (R130, R131) -/

namespace PortLd

variable (q : PortLd) (tb : PTables)

/-- The cells of the receivers, with the flags of their roundings. -/
def remapped : List ((Word × Bool) × Flags) := tb.rows.map (remapRow q.img (averages q tb.sl).1)

/-- The bytes of the version, with the flags of their roundings. -/
def encoded : List (Byte × Bool) × Flags := versionBytes q.img ((q.remapped tb).map (·.1))

/-- The record after the publication: the next version is open, with every slice, cell and time as at the start. -/
def published : PortLd :=
  { q with nextv := q.nextv + 1, acc := [], accPois := [], dt := [], cl := [],
           pflags := q.pflags ||| (averages q tb.sl).2 ||| (q.remapped tb).foldl (fun f r => f ||| r.2) 0 ||| (q.encoded tb).2 }

end PortLd

/-- The words of the version stored in the buffer. -/
def storeWords (p : Nat) (q : PortLd) (tb : PTables) : M Unit :=
  let ws := versionWords (q.encoded tb).1
  each (fun e => storeVersion p q q.nextv (pRBUF q.img + 8 * e.1) e.2) ((List.range ws.length).zip ws)

/-! ### The publication -/

section
variable {p : Nat} {q : PortLd} {s : State} (hl : (s.port p).ld = some q)
include hl

theorem portPublish_waits (h : ¬(q.cl.length = pNSSL q.img ∧ q.live < pDEPTH q.img ∧ q.asked = none ∧ q.owes = false ∧
    s.seeding (pTEN q.img) = false)) : exec (.portPublish p) s = .next s := by
  have waits : (!q.ready || s.pausedTen (pTEN q.img) || s.seeding (pTEN q.img)) = true := by
    by_contra go
    simp only [Bool.not_eq_true, Bool.or_eq_false_iff, Bool.not_eq_false'] at go
    obtain ⟨⟨ready, -⟩, unseeding⟩ := go
    obtain ⟨closed, room, unasked, reclaimed⟩ := q.ready_iff.1 ready
    exact h ⟨closed, room, unasked, reclaimed, unseeding⟩
  show event (get >>= _) s = _
  rw [event_get, hl]
  dsimp only
  rw [if_pos waits]
  rfl

theorem exec_portPublish (ready : q.ready = true) (unseeding : s.seeding (pTEN q.img) = false) (going : (s.vf (pTEN q.img)).paused = false)
    {tb : PTables} {s1 s2 t : State} (read : (readTables (portRead p q) (fun _ _ => stop (breakPort p)) q.img).leads s s1 tb)
    (check : (checkBuffer (portLeaf p q) (fun _ _ => stop (breakPort p)) q.img).leads s1 s2 ())
    (store : (storeWords p q tb).leads s2 t ()) (kept : (t.port p).ld = some q) :
    exec (.portPublish p) s = .next ((t.withLoaded p (q.published tb)).forgotFor (.port p)) := by
  have goes : (!q.ready || s.pausedTen (pTEN q.img) || s.seeding (pTEN q.img)) = false := by
    rw [ready, unseeding, State.pausedTen, going]
    rfl
  have loaded : t.withLoaded p (q.published tb) = (Upd.port p fun x => { x with ld := x.ld.map fun r =>
      { r with nextv := r.nextv + 1, acc := [], accPois := [], dt := [], cl := [], pflags := r.pflags ||| (averages q tb.sl).2 |||
          (q.remapped tb).foldl (fun f r => f ||| r.2) 0 ||| (q.encoded tb).2 } }).apply t := by
    rw [Upd.apply, kept]
    rfl
  rw [loaded]
  refine M.leads.event_eq (M.leads_get_bind ?_)
  rw [hl]
  dsimp only
  rw [goes, if_neg Bool.false_ne_true]
  exact M.leads_bind read (M.leads_bind check (M.leads_bind store (M.leads_upd_bind (M.leads_upd _ _))))

end

/-- Settles O29: a publication that cannot begin waits, and one that begins, reads its tables and stores its words, opens the next version. -/
theorem portPublish : Obligations.PortPublish := by
  unfold Obligations.PortPublish
  intro p q s hl
  refine ⟨portPublish_waits hl, ?_⟩
  intro closed room unasked reclaimed unseeding going tb s1 s2 t bad xbar rows ver ws read check store kept
  have ready : q.ready = true := q.ready_iff.2 ⟨closed, room, unasked, reclaimed⟩
  exact ⟨_, exec_portPublish hl ready unseeding going read check store kept, rfl, rfl, congrArg Port.ld (State.port_setPort_self ..)⟩

end Sys2Proof.Machine
end

section
/-!
SUPPORT. The commands of the physical function on a port number and on a paused tenant (R122, R350, R372, R373): what pausing does to a
context, and what a context that goes on leaves of the tenant's functions and partitions.
-/

namespace Sys2Proof.Machine

open M

theorem exec_portset {p : Nat} {s : State} (hc : s.commanded 64 0x22 p) :
    let a := (s.vf 64).arg0.toNat
    exec (.portset 64) s = .next ((s.setPort (a % 1024)
      { s.port (a % 1024) with ten := if a.testBit 16 then some (a / 2 ^ 17 % 64) else none }).cmdDone 64 0) := by
  refine run_command hc (M.leads_get_bind ?_)
  rw [if_neg (by decide)]
  exact M.leads_upd_bind (M.leads_pure _ _)

/-! ### Contexts that are paused (R372) -/

/-- A list of which each part runs through. -/
theorem M.Keeps.each_of_mem {R : State → State → Prop} (hR : Stable R) {α : Type} {f : α → M Unit} :
    ∀ l : List α, (∀ x ∈ l, (f x).Keeps R) → (M.each f l).Keeps R
  | [], _ => .pure hR
  | x :: l, h => .seq hR (h x List.mem_cons_self) (each_of_mem hR l fun y hy => h y (List.mem_cons_of_mem _ hy))

/-- A context that a pause has met. -/
def Ctx.paused (c : Ctx) : Ctx :=
  match c.run with
  | .ready | .parked => { c.stopped with held := some c.run }
  | .idle => { c with held := some .idle }
  | .free | .stopped => c

theorem Ctx.paused_of_ready {c : Ctx} (h : c.run = .ready) : c.paused.run = .stopped ∧ c.paused.held = some .ready := by
  unfold Ctx.paused
  rw [h]
  exact ⟨rfl, rfl⟩

/-- A context that has been paused is paused. -/
theorem Ctx.paused_paused (c : Ctx) : c.paused.paused = c.paused := by
  cases h : c.run <;> simp [Ctx.paused, Ctx.stopped, h]

/-- Contexts of compute cores have been paused or left as they were. -/
def Pausing (s t : State) : Prop := ∀ id, isVent (coreOf id) = false → t.ctx id = s.ctx id ∨ t.ctx id = (s.ctx id).paused

theorem stable_pausing : Stable Pausing where
  refl _ _ _ := .inl rfl
  trans h k id hv := by
    rcases k id hv with e | e <;> rw [e]
    · exact h id hv
    · rcases h id hv with e' | e' <;> rw [e']
      · exact .inr rfl
      · exact .inr (Ctx.paused_paused _)

theorem Pausing.same_ctxs {s t : State} (h : t.ctxs = s.ctxs) : Pausing s t := fun _ _ => .inl (by unfold State.ctx; rw [h])

/-- A pause changes the one context it meets, to `Ctx.paused` of it. -/
theorem leads_pauseCtx (id : Nat) (s : State) :
    ∃ t, (pauseCtx id).leads s t () ∧ t.ctx id = (s.ctx id).paused ∧ ∀ k, k ≠ id → t.ctx k = s.ctx k := by
  cases h : (s.ctx id).run
  case ready | parked =>
    have l : (pauseCtx id).leads s (((Upd.ctx id fun c => { c.stopped with held := some c.run }).apply s).forgotFor (.ctx id)) () := by
      refine M.leads_get_bind ?_
      rw [h]
      exact M.leads_upd_bind (M.leads_upd _ _)
    exact ⟨_, l, (State.ctx_setCtx_self ..).trans (by simp only [Ctx.paused, h]), fun _ => State.ctx_setCtx_ne _ _⟩
  case idle =>
    have l : (pauseCtx id).leads s (s.setCtx id { s.ctx id with held := some .idle }) () := by
      refine M.leads_get_bind ?_
      rw [h]
      exact M.leads_upd _ _
    exact ⟨_, l, (State.ctx_setCtx_self ..).trans (by simp only [Ctx.paused, h]), fun _ => State.ctx_setCtx_ne _ _⟩
  case free | stopped =>
    refine ⟨s, M.leads_get_bind ?_, by simp only [Ctx.paused, h], fun _ _ => rfl⟩
    rw [h]
    exact M.leads_pure _ _

theorem keepsPausing_pauseCtx (id : Nat) : (pauseCtx id).Keeps Pausing := fun s => by
  obtain ⟨t, l, self, other⟩ := leads_pauseCtx id s
  rw [l.ran_eq]
  refine ⟨l, fun k _ => ?_⟩
  by_cases h : k = id
  · exact .inr (h ▸ self)
  · exact .inl (other k h)

theorem keepsPausing_flushCore (core : Nat) : (upd (.core core (Core.flush false)) >>= fun _ => flushLines core (fun _ => true) true).Keeps Pausing :=
  .seq stable_pausing (.upd fun _ => .same_ctxs rfl) ((keeps_flushLines _ _ _).mono fun _ _ h => .same_ctxs h.ctxs)

theorem keepsPausing_pauseCore (core : Nat) : (pauseCore core).Keeps Pausing :=
  .seq stable_pausing (.each stable_pausing keepsPausing_pauseCtx _) (.ite (.pure stable_pausing) (keepsPausing_flushCore core))

theorem coreOf_of_mem_ctxsOf {id core : Nat} (h : id ∈ ctxsOf core) : coreOf id = core := by
  obtain ⟨k, hk, rfl⟩ := List.mem_map.1 h
  have hk : k < 11 := lt_of_lt_of_le (List.mem_range.1 hk) (by unfold ctxCount; split <;> decide)
  unfold coreOf ctxId
  omega

/-- A vent core whose work is set aside has no context of a compute core (R373). -/
theorem keepsPausing_setAside (t core : Nat) (hv : isVent core = true) : (setAside t core).Keeps Pausing := by
  refine .get fun s => .seq stable_pausing (.each stable_pausing (fun _ => .upd fun _ => .same_ctxs rfl) _)
    (.seq stable_pausing (.upd fun _ => .same_ctxs rfl) (.seq stable_pausing (.upd fun _ => .same_ctxs rfl)
      (.seq stable_pausing (.upd fun _ => .same_ctxs rfl) (.each_of_mem stable_pausing _ fun id hid => .upd fun u k hk => ?_))))
  have other : k ≠ id := fun e => by
    rw [e, coreOf_of_mem_ctxsOf hid, hv] at hk
    cases hk
  exact .inl ((State.ctx_upd_ctx ..).trans (if_neg other))

/-- A context that a pause leaves as it is: one that it has met. -/
def State.halted (s : State) (id : Nat) : Prop := (s.ctx id).paused = s.ctx id

theorem Pausing.halted {s t : State} (h : Pausing s t) {id : Nat} (hv : isVent (coreOf id) = false) (e : s.halted id) : t.halted id := by
  rcases h id hv with k | k <;> unfold State.halted <;> rw [k]
  · exact e
  · exact Ctx.paused_paused _

/-- A context that a pause has met is the context before it, paused. -/
theorem Pausing.ctx_of_halted {s t : State} (h : Pausing s t) {id : Nat} (hv : isVent (coreOf id) = false) (e : t.halted id) :
    t.ctx id = (s.ctx id).paused := by
  rcases h id hv with k | k
  · rw [← k]
    exact e.symm
  · exact k

theorem State.halted_pauseCtx (id : Nat) (s : State) : (s.ran (pauseCtx id)).halted id := by
  obtain ⟨t, l, self, -⟩ := leads_pauseCtx id s
  rw [l.ran_eq, State.halted, self]
  exact Ctx.paused_paused _

theorem State.halted_pauseCore {core : Nat} (hv : isVent core = false) (s : State) : ∀ id ∈ ctxsOf core, (s.ran (pauseCore core)).halted id := by
  have km := M.Keeps.each stable_pausing keepsPausing_pauseCtx (ctxsOf core)
  have hm := M.Keeps.each_establishes stable_pausing keepsPausing_pauseCtx (Q := fun id u => isVent (coreOf id) = false → u.halted id)
    (fun _ _ _ h e hv => h.halted hv (e hv)) (ctxsOf core) s fun id _ t _ _ => State.halted_pauseCtx id t
  have kr : (if isVent core then pure () else upd (.core core (Core.flush false)) >>= fun _ => flushLines core (fun _ => true) true).Keeps Pausing :=
    .ite (.pure stable_pausing) (keepsPausing_flushCore core)
  intro id hid
  have hc : isVent (coreOf id) = false := by rwa [coreOf_of_mem_ctxsOf hid]
  rw [show s.ran (pauseCore core) = _ from State.ran_bind km kr s]
  exact (kr.rel _).halted hc (hm id hid hc)

theorem State.halted_pauseCores (cores : List Nat) (s : State) :
    ∀ c ∈ cores, isVent c = false → ∀ id ∈ ctxsOf c, (s.ran (each pauseCore cores)).halted id :=
  M.Keeps.each_establishes stable_pausing keepsPausing_pauseCore (Q := fun c u => isVent c = false → ∀ id ∈ ctxsOf c, u.halted id)
    (fun _ _ _ h e hv id hid => h.halted (by rwa [coreOf_of_mem_ctxsOf hid]) (e hv id hid)) cores s
    fun _ _ t _ hv => State.halted_pauseCore hv t

/-! ### VFPAUSE -/

/-- A function whose TIME is held (R372). -/
def Vf.held (now : Word) (v : Vf) : Vf := { v with save := now, paused := true }

theorem isVent_of_mem_ventsOf {s : State} {t c : Nat} (h : c ∈ s.ventsOf t) : isVent c = true := by
  obtain ⟨e, -, h⟩ := List.mem_filterMap.1 h
  split at h
  · next hv =>
    cases h
    exact (Bool.and_eq_true_iff.1 hv).1
  · cases h

section
variable {p t : Nat} {s : State} (hc : s.commanded 64 0x23 p) (ht : (s.vf 64).arg0.toNat % 64 = t)
include hc ht

theorem vfpause_again (hp : (s.vf t).paused = true) : exec (.vfpause 64) s = .next (s.cmdDone 64 0) := by
  refine run_command hc (M.leads_get_bind ?_)
  dsimp only
  rw [if_neg (by decide), ht, if_pos hp]
  exact M.leads_pure _ _

theorem vfpause_waits (hp : (s.vf t).paused = false) (h : (s.vf t).cmd ≠ none ∨ ∃ c ∈ s.coresOf t ++ s.ventsOf t, s.midway c = true) :
    exec (.vfpause 64) s = .next s := by
  have busy : ((s.vf t).cmd.isSome || (s.coresOf t ++ s.ventsOf t).any s.midway) = true := by
    rw [Bool.or_eq_true, List.any_eq_true, Option.isSome_iff_ne_none]
    exact h
  refine command_waits hc ((M.leads_get s).stalls ?_ s)
  dsimp only
  rw [if_neg (by decide), ht, hp, if_neg Bool.false_ne_true, if_pos busy]
  exact fun _ _ => rfl

theorem vfpause_pauses (hp : (s.vf t).paused = false) (h0 : (s.vf t).cmd = none) (h : ∀ c ∈ s.coresOf t ++ s.ventsOf t, s.midway c = false) :
    ∃ w, exec (.vfpause 64) s = .next ((w.setVf t ((w.vf t).held (s.time t))).cmdDone 64 0) ∧ Pausing s w ∧
      ∀ c ∈ s.coresOf t, isVent c = false → ∀ id ∈ ctxsOf c, w.halted id := by
  have free : ((s.vf t).cmd.isSome || (s.coresOf t ++ s.ventsOf t).any s.midway) = false := by
    rw [h0, Option.isSome_none, Bool.false_or, List.any_eq_false]
    exact fun c hm => Bool.eq_false_iff.1 (h c hm)
  have k1 := M.Keeps.each stable_pausing keepsPausing_pauseCore (s.coresOf t ++ s.ventsOf t)
  have k2 := M.Keeps.each_of_mem stable_pausing (f := setAside t) (s.ventsOf t) fun c hm => keepsPausing_setAside t c (isVent_of_mem_ventsOf hm)
  refine ⟨_, run_command hc (M.leads_get_bind ?_), stable_pausing.trans (k1.rel s) (k2.rel _), fun c hm hv id hid => ?_⟩
  · dsimp only
    rw [if_neg (by decide), ht, hp, if_neg Bool.false_ne_true, free, if_neg Bool.false_ne_true]
    exact M.leads_bind (k1.leads s) (M.leads_bind (k2.leads _) (M.leads_upd_bind (M.leads_pure _ _)))
  · exact (k2.rel _).halted (by rwa [coreOf_of_mem_ctxsOf hid])
      (State.halted_pauseCores _ s c (List.mem_append_left _ hm) hv id hid)

end

/-! ### Contexts that go on after a pause (R107, R372) -/

/-- Contexts have gone on, or watchdogs have started anew: the registers of the functions and REF stand. -/
structure Resuming (s t : State) : Prop where
  vfs : t.vfs = s.vfs
  ref : t.ref = s.ref
  known : ∀ p, (t.part? p).isSome = (s.part? p).isSome
  wd : ∀ p, (s.part p).wd = 0 → (t.part p).wd = 0

theorem stable_resuming : Stable Resuming where
  refl _ := ⟨rfl, rfl, fun _ => rfl, fun _ => id⟩
  trans h k := ⟨k.vfs.trans h.vfs, k.ref.trans h.ref, fun p => (k.known p).trans (h.known p), fun p => k.wd p ∘ h.wd p⟩

theorem resuming_ctx (k : Nat) (f : Ctx → Ctx) : (upd (.ctx k f)).Keeps Resuming := .upd fun _ => ⟨rfl, rfl, fun _ => rfl, fun _ => id⟩
theorem resuming_core (c : Nat) (f : Core → Core) : (upd (.core c f)).Keeps Resuming := .upd fun _ => ⟨rfl, rfl, fun _ => rfl, fun _ => id⟩
theorem resuming_dev (f : Dev → Dev) : (upd (.dev f)).Keeps Resuming := .upd fun _ => ⟨rfl, rfl, fun _ => rfl, fun _ => id⟩

theorem resuming_nextSeq {f : Nat → M Unit} (h : ∀ q, (f q).Keeps Resuming) : (nextSeq >>= f).Keeps Resuming :=
  .bind stable_resuming (fun s => ⟨_, _, M.leads_get_bind (M.leads_upd_bind (M.leads_pure s.dev.seq _)), ⟨rfl, rfl, fun _ => rfl, fun _ => id⟩⟩) h

theorem resuming_endTask (core : Nat) : (endTask core).Keeps Resuming :=
  .seq stable_resuming (.each stable_resuming (fun _ => resuming_ctx _ _) _) (.seq stable_resuming (resuming_core _ _) (resuming_dev _))

theorem resuming_endContext (id : Nat) : (endContext id).Keeps Resuming :=
  .ite (resuming_endTask _) (.seq stable_resuming (resuming_ctx _ _) (.seq stable_resuming (resuming_core _ _) (resuming_dev _)))

theorem resuming_resumeTrap (id : Nat) : (resumeTrap id).Keeps Resuming := by
  refine .get fun s => ?_
  have rest : (nextSeq >>= fun q => upd (.ctx id (Ctx.resume (isVent (coreOf id)) q))).Keeps Resuming := resuming_nextSeq fun _ => resuming_ctx _ _
  exact .ite (.seq stable_resuming (resuming_core _ _) (resuming_nextSeq fun _ => .seq stable_resuming (resuming_core _ _)
    (.seq stable_resuming (resuming_ctx _ _) rest))) rest

theorem resuming_deliverReply (id : Nat) (code : BitVec 8) (val : Word) (already : Bool) : (deliverReply id code val already).Keeps Resuming :=
  .get fun _ => .ite (resuming_endContext id) (.ite (resuming_ctx _ _) (.ite (resuming_ctx _ _) (resuming_ctx _ _)))

theorem resuming_actReply (id : Nat) (fault : Bool) (r : Reply) : (actReply id fault r).Keeps Resuming :=
  .ite (.ite (resuming_resumeTrap id) (resuming_ctx _ _))
    (.ite (.seq stable_resuming (resuming_ctx _ _) (resuming_deliverReply id _ _ _)) (resuming_endContext id))

theorem resuming_takeLatched (id : Nat) : (takeLatched id).Keeps Resuming := by
  refine .get fun s => ?_
  dsimp only
  split
  · exact .ite (.seq stable_resuming (resuming_ctx _ _) (resuming_actReply id _ _)) (.pure stable_resuming)
  · exact .pure stable_resuming

theorem resuming_resumeCtx (id : Nat) : (resumeCtx id).Keeps Resuming := by
  refine .get fun s => ?_
  split
  · exact .pure stable_resuming
  · exact resuming_ctx _ _
  · exact .ite (.pure stable_resuming) (resuming_nextSeq fun _ => .seq stable_resuming (resuming_ctx _ _) (resuming_takeLatched id))

/-- A partition whose watchdog starts anew (R370). -/
def Part.rewound (q : Part) : Part := { q with wd := 0 }

theorem resuming_rewound (p : Nat) : (upd (.part p Part.rewound)).Keeps Resuming :=
  .upd fun s => ⟨rfl, rfl, fun _ => State.partOpt_setPart_isSome .., fun k h => by
    rcases State.part_setPart s p k Part.rewound with e | e
    · exact (congrArg Part.wd e).trans h
    · exact congrArg Part.wd e⟩

theorem State.wd_rewound (ps : List Nat) (s : State) (h : ∀ p ∈ ps, (s.part? p).isSome = true) :
    ∀ p ∈ ps, ((s.ran (each (fun p => upd (.part p Part.rewound)) ps)).part p).wd = 0 :=
  M.Keeps.each_establishes stable_resuming resuming_rewound (Q := fun p u => (u.part p).wd = 0) (fun p _ _ e => e.wd p) ps s
    fun p hp t e => by
      rw [(M.leads_upd _ t).ran_eq]
      exact congrArg Part.wd (State.part_setPart_self ((e.known p).trans (h p hp)) _)

/-! ### VFRESUME -/

/-- A function that goes on: its TIME from the later of VFTSAVE and VFRES (R372). -/
def Vf.resumed (ref : Word) (v : Vf) : Vf :=
  { v with aside := [], paused := false, toff := (if v.res.toNat < v.save.toNat then v.save else v.res) - ref }

theorem vfresume_resumes {p t : Nat} {s : State} (hc : s.commanded 64 0x24 p) (ht : (s.vf 64).arg0.toNat % 64 = t) (ha : (s.vf t).aside = []) :
    ∃ w, exec (.vfresume 64) s = .next ((w.setVf t ((w.vf t).resumed s.ref)).cmdDone 64 0) ∧ Resuming s w ∧
      ∀ k ∈ s.partsOf t, (w.part k).wd = 0 := by
  have k1 := M.Keeps.each stable_resuming (fun c => M.Keeps.each stable_resuming resuming_resumeCtx (ctxsOf c)) (s.coresOf t)
  have k2 := M.Keeps.each stable_resuming resuming_rewound (s.partsOf t)
  have r1 := k1.rel s
  have r := stable_resuming.trans r1 (k2.rel _)
  refine ⟨_, run_command hc (M.leads_get_bind ?_), r, State.wd_rewound _ _ fun k hk => (r1.known k).trans (mem_partsOf hk)⟩
  dsimp only
  rw [if_neg (by decide), ht, ha, List.any_nil, if_neg Bool.false_ne_true, List.map_nil, List.append_nil]
  exact M.leads_bind (M.leads_pure _ _) (M.leads_bind (k1.leads s) (M.leads_bind (k2.leads _) (M.leads_upd_bind (M.leads_pure _ _))))

/-! ### The time of a tenant (R350, R372) -/

theorem State.time_of_paused {s : State} {t : Nat} (h : (s.vf t).paused = true) : s.time t = (s.vf t).save := if_pos h

theorem State.time_of_going {s : State} {t : Nat} (h : (s.vf t).paused = false) : s.time t = s.ref + (s.vf t).toff :=
  if_neg (by rw [h]; exact Bool.false_ne_true)

/-! ### What a command of the physical function leaves that has changed one tenant's function -/

namespace State

section
variable (w : State) (fn : Nat) (r : BitVec 8)

@[simp] theorem cmdDone_get_ctx (k : Nat) : (w.cmdDone fn r).ctx k = w.ctx k := rfl
@[simp] theorem cmdDone_get_part (k : Nat) : (w.cmdDone fn r).part k = w.part k := rfl
@[simp] theorem cmdDone_ref : (w.cmdDone fn r).ref = w.ref := rfl

end

theorem vf_setVf_cmdDone {t : Nat} (ht : t < 64) (w : State) (v : Vf) :
    let u := (w.setVf t v).cmdDone 64 0
    (u.vf 64).cmd = none ∧ (u.vf 64).result = 0 ∧ u.vf t = v := by
  obtain ⟨done, result, others⟩ := State.ended_cmdDone (s := w.setVf t v) rfl 64 0
  exact ⟨done, result, (others t ht.ne).trans (State.vf_setVf_self ..)⟩

end State

section
variable {p t : Nat} {s : State} (ht : (s.vf 64).arg0.toNat % 64 = t)
include ht

theorem vfpause_stops (hc : s.commanded 64 0x23 p) (hp : (s.vf t).paused = false) (h0 : (s.vf t).cmd = none)
    (h : ∀ c ∈ s.coresOf t ++ s.ventsOf t, s.midway c = false) :
    ∃ u, exec (.vfpause 64) s = .next u ∧ (u.vf 64).cmd = none ∧ (u.vf 64).result = 0 ∧ (u.vf t).paused = true ∧
      (u.vf t).save = s.time t ∧ u.time t = s.time t ∧ ∀ c ∈ s.coresOf t, isVent c = false → ∀ k < ctxCount c,
        (s.ctx (ctxId c k)).run = .ready → (u.ctx (ctxId c k)).run = .stopped ∧ (u.ctx (ctxId c k)).held = some .ready := by
  obtain ⟨w, run, paused, halted⟩ := vfpause_pauses hc ht hp h0 h
  obtain ⟨done, result, e⟩ := State.vf_setVf_cmdDone (ht ▸ Nat.mod_lt _ (by decide)) w ((w.vf t).held (s.time t))
  refine ⟨_, run, done, result, congrArg Vf.paused e, congrArg Vf.save e, ?_, fun c hm hv k hk ready => ?_⟩
  · exact (State.time_of_paused (congrArg Vf.paused e)).trans (congrArg Vf.save e)
  · have hid : ctxId c k ∈ ctxsOf c := List.mem_map_of_mem (List.mem_range.2 hk)
    rw [State.cmdDone_get_ctx, State.setVf_get_ctx, paused.ctx_of_halted (by rwa [coreOf_of_mem_ctxsOf hid]) (halted c hm hv _ hid)]
    exact Ctx.paused_of_ready ready

theorem vfresume_goesOn (hc : s.commanded 64 0x24 p) (ha : (s.vf t).aside = []) :
    ∃ u, exec (.vfresume 64) s = .next u ∧ (u.vf 64).cmd = none ∧ (u.vf 64).result = 0 ∧ (u.vf t).paused = false ∧
      u.time t = (if (s.vf t).res.toNat < (s.vf t).save.toNat then (s.vf t).save else (s.vf t).res) ∧
      ∀ k ∈ s.partsOf t, (u.part k).wd = 0 := by
  obtain ⟨w, run, resumed, wd⟩ := vfresume_resumes hc ht ha
  obtain ⟨done, result, e⟩ := State.vf_setVf_cmdDone (ht ▸ Nat.mod_lt _ (by decide)) w ((w.vf t).resumed s.ref)
  have stands : w.vf t = s.vf t := by unfold State.vf; rw [resumed.vfs]
  refine ⟨_, run, done, result, congrArg Vf.paused e, ?_, fun k hk => by rw [State.cmdDone_get_part, State.setVf_get_part, wd k hk]⟩
  rw [State.time_of_going (congrArg Vf.paused e), e, stands, State.cmdDone_ref, State.setVf_ref, resumed.ref, Vf.resumed, add_sub_cancel]

end

/-- Settles O46: a port number is assigned at once; VFPAUSE has paused each context it meets (`Pausing`), and what VFRESUME does to contexts
changes neither the functions nor REF (`Resuming`). -/
theorem tenantCommands : Obligations.TenantCommands := by
  unfold Obligations.TenantCommands
  intro p s a t cores
  exact ⟨exec_portset, fun hc => ⟨vfpause_again hc rfl, vfpause_waits hc rfl, vfpause_stops rfl hc⟩,
    fun hc _ _ ha => vfresume_goesOn rfl hc ha⟩

end Sys2Proof.Machine
end

section
/-!
SUPPORT. A record that arrives at the post window behind an access that waits (R140, R346): the head of the window is taken up in the same step.
-/

namespace Sys2Proof.Machine

open M

section
variable {fn : Nat} {s : State}

/-- A record waits behind an earlier access of its function, and then the head of the window has its turn. -/
theorem postWindowWrite_behind (h : (s.vf fn).arrived ≠ []) (off len : Nat) (rec : BitVec 512) :
    exec (.postWindowWrite fn off len rec) s = event (acceptHead fn) (s.setVf fn { s.vf fn with
      arrived := (s.vf fn).arrived ++ [(s.vf fn).onArrival (.record off len rec)] }) := by
  have waits : (s.vf fn).arrived.isEmpty = false := by simpa using h
  show execPostWindowWrite fn off len rec s = _
  unfold execPostWindowWrite andThen hostAccess
  simp only [waits, Bool.false_and, Bool.false_eq_true, if_false, andThen, (M.leads_upd _ s).event_eq]
  rfl

/-- A head for a partition that is not the function's is discarded. -/
theorem acceptHead_discards {r : BitVec 512} {rest : List (BitVec 512)} (hw : (s.vf fn).pwin = r :: rest) (going : (s.vf fn).paused = false)
    (other : s.owns fn (rcPnode r.toNat) = false) : (acceptHead fn).Reaches s fun t _ => (t.vf fn).pwin = rest := by
  refine .get ?_
  dsimp only
  rw [hw]
  dsimp only
  rw [going, if_neg Bool.false_ne_true, other, Bool.and_false, Bool.false_and, Bool.false_and, if_neg Bool.false_ne_true]
  refine .led (M.leads_upd_bind (M.leads_upd _ _)) (.upd ?_)
  show (((Upd.vf fn fun v => { v with pwref := v.pwref + 1 }).apply ((Upd.vf fn fun v => { v with pwin := v.pwin.tail }).apply s)).vf fn).pwin = rest
  rw [Upd.apply, State.vf_setVf_self, Upd.apply, State.vf_setVf_self, hw, List.tail_cons]

end

/-- The window of function 0 has a record for a partition that is not there, and a read of its aperture waits. -/
def staleHead : State := { State.reset with vfs := [(0, { Vf.reset with arrived := [.read 0 8], pwin := [0] })] }

/-- Refutes O48: in `staleHead` a record that arrives waits behind the read, as the statement has it, but the same step discards the head of the
window, which the statement leaves there. -/
theorem not_hostMemory : ¬ Obligations.HostMemory := by
  unfold Obligations.HostMemory
  intro h
  obtain ⟨-, -, behind, -⟩ := h 0 staleHead
  have waits : (staleHead.vf 0).arrived ≠ [] := by decide +kernel
  have stands := behind 0 64 0 waits
  rw [if_neg (by decide +kernel), postWindowWrite_behind waits] at stands
  obtain ⟨t, _, run, gone⟩ := acceptHead_discards (r := 0) (rest := []) (fn := 0) (s := staleHead.setVf 0 { staleHead.vf 0 with
    arrived := (staleHead.vf 0).arrived ++ [(staleHead.vf 0).onArrival (.record 0 64 0)] }) (by decide +kernel) (by decide +kernel) (by decide +kernel)
  rw [run.event_eq] at stands
  cases stands
  rw [State.vf_setVf_self] at gone
  revert gone
  decide +kernel

end Sys2Proof.Machine
end

section
/-!
SUPPORT. A launch (R138, R139, R367): what its checks read, the registers it gives a core, and the state in which its root record is stored.
-/

namespace Sys2Proof.Machine

open M

/-! ### The registers of a launched core (R139) -/

/-- A register after several have been set in turn. -/
theorem Core.csrGet_foldl_csrSet (l : List (Nat × Word)) (n : Nat) (c : Core) :
    (l.foldl (fun c e => c.csrSet e.1 e.2) c).csrGet n = ((l.reverse.find? fun e => e.1 == n).map (·.2)).getD (c.csrGet n) := by
  induction l generalizing c with
  | nil => rfl
  | cons e l ih =>
    rw [List.foldl_cons, ih, List.reverse_cons, List.find?_append]
    cases List.find? (fun e => e.1 == n) l.reverse with
    | some x => rfl
    | none =>
      by_cases h : e.1 = n
      · subst h
        simp
      · simp [h, Core.csrGet_csrSet_ne c e.2 (Ne.symm h)]

theorem Core.foldl_csrSet_deque (l : List (Nat × Word)) (c : Core) : (l.foldl (fun c e => c.csrSet e.1 e.2) c).deque = c.deque := by
  induction l generalizing c with
  | nil => rfl
  | cons e l ih => exact ih _

theorem Core.foldl_csrSet_lines (l : List (Nat × Word)) (c : Core) : (l.foldl (fun c e => c.csrSet e.1 e.2) c).l1 = c.l1 ∧
    (l.foldl (fun c e => c.csrSet e.1 e.2) c).sect = c.sect := by
  induction l generalizing c with
  | nil => exact ⟨rfl, rfl⟩
  | cons e l ih => exact ih _

/-- What a launch sets the registers of a core to, in order: the last value for a number stands. -/
def launchCsrs (d : Nat) : List (Nat × Word) :=
  let w := fun (n : Nat) => BitVec.ofNat 64 n
  ([cVSHARE, cRWPERM, cSTASHCFG, cRDEF, cMFMT, cMSCA, cMSCB, cMCODE].map fun n => (n, coreCsrReset n)) ++
    [(cFUTBASE, csrMerge cFUTBASE 0 (w (ldFUTBASE d))), (cPORTBASE, csrMerge cPORTBASE 0 (w (ldPORTBASE d))),
     (cMBOXBASE, csrMerge cMBOXBASE 0 (w (ldMBOXBASE d))), (cPRIO, w (ldPRIO d)), (cENERGY, w (1000 * ldEBUDGET d)),
     (cSSNUM, 0), (cRWSTAT, 0), (cRESBYPASS, coreCsrReset cRESBYPASS + w (2 ^ 16 * (ldRES d).toNat))]

theorem Core.csrGet_launched {d n : Nat} {v : Word} (h : (launchCsrs d).reverse.find? (fun e => e.1 == n) = some (n, v))
    (pmap : List (BitVec 128)) (c : Core) : (c.launched d pmap).csrGet n = v := by
  refine (Core.csrGet_foldl_csrSet (launchCsrs d) n c).trans ?_
  rw [h]
  rfl

theorem Ctx.csrGet_foldl_csrSet (vent : Bool) (f : Nat → Word) (l : List Nat) {n : Nat} (h : n ∈ l) (x : Ctx) :
    (l.foldl (fun c n => c.csrSet vent n (f n)) x).csrGet vent n = f n := by
  induction l generalizing x with
  | nil => cases h
  | cons k l ih =>
    by_cases hl : n ∈ l
    · exact ih hl _
    · obtain rfl : n = k := (List.mem_cons.1 h).resolve_right hl
      have keeps : ∀ (l : List Nat) (x : Ctx), n ∉ l → (l.foldl (fun c n => c.csrSet vent n (f n)) x).csrGet vent n = x.csrGet vent n := by
        intro l
        induction l with
        | nil => exact fun _ _ => rfl
        | cons k l ih =>
          intro x hn
          rw [List.mem_cons, not_or] at hn
          exact (ih _ hn.2).trans (Ctx.csrGet_csrSet_ne _ _ _ hn.1)
      exact (keeps l _ hl).trans (Ctx.csrGet_csrSet_self ..)

theorem Ctx.csrGet_launched (x : Ctx) : ∀ n ∈ [0x404, 0x405, 0x406, 0x407], x.launched.csrGet false n = ctxCsrReset false n :=
  fun _ h => Ctx.csrGet_foldl_csrSet false (ctxCsrReset false) [0x404, 0x405, 0x406, 0x407] h x

theorem launched_registers (d : Nat) (pmap : List (BitVec 128)) (c : Core) (x : Ctx) :
    let k := c.launched d pmap
    k.csrGet cPRIO = BitVec.ofNat 64 (ldPRIO d) ∧ k.csrGet cENERGY = BitVec.ofNat 64 (1000 * ldEBUDGET d) ∧ k.csrGet cSSNUM = 0 ∧
    k.csrGet cRWSTAT = 0 ∧ k.csrGet cRDEF = 8 ∧ k.csrGet cVSHARE = 4 ∧ k.csrGet cRWPERM = 0 ∧ k.csrGet cSTASHCFG = 0 ∧
    k.csrGet cRESBYPASS = 0x710 + (if ldRES d then 0x10000 else 0) ∧ k.rules = [] ∧ k.cq = [] ∧ k.pmap = pmap ∧ k.deque = c.deque ∧
    (∀ n ∈ [0x404, 0x405, 0x406, 0x407], x.launched.csrGet false n = ctxCsrReset false n) ∧ x.launched.recvq = [] ∧ x.launched.slot = none := by
  refine ⟨Core.csrGet_launched rfl pmap c, Core.csrGet_launched rfl pmap c, Core.csrGet_launched rfl pmap c, Core.csrGet_launched rfl pmap c,
    Core.csrGet_launched rfl pmap c, Core.csrGet_launched rfl pmap c, Core.csrGet_launched rfl pmap c, Core.csrGet_launched rfl pmap c, ?_,
    rfl, rfl, rfl, Core.foldl_csrSet_deque (launchCsrs d) c, Ctx.csrGet_launched x, rfl, rfl⟩
  refine (Core.csrGet_launched rfl pmap c).trans ?_
  cases ldRES d <;> rfl

/-! ### The checks of a launch (R138, R367) -/

/-- What a launch does once it has its descriptor. -/
def launchFrom (fn p core d : Nat) : M (BitVec 8) := do
  if !launchOk fn p d then return rDesc
  else do
    match ← launchReads (fnWho fn) core fn (ldTROOT d) ((List.range 16).map fun k => (ldPMAP d + 16 * k, 16)) with
    | .error e => return e
    | .ok es => do
      match ← launchReads (fnWho fn) core fn (ldTROOT d) [(ldROOT d, 64)] with
      | .error e => return e
      | .ok rs => do
        each (fun a => readyWalkFrom fn a 3 1 (ldTROOT d)) (pagesOf (ldFUTBASE d) (104 * 2 ^ ldFUTLOG d))
        let s ← get
        let r := rs.headD 0
        match s.launchTable fn (ldTROOT d) (ldFUTBASE d) (ldFUTLOG d) with
        | some e => return e
        | none =>
          if !s.recordOk fn p r || hIndex (rcWait r 0) ≠ 0 || hIndex (rcWait r 1) ≠ 0 then return rRoot
          else do
            launchAll fn p d (es.map (BitVec.ofNat 128)) r
            return rOk

section
variable {fn p d r : Nat} {es : List Nat} {bs : List PByte} {s s1 s2 s3 s4 t : State}

/-- A descriptor out of place, or of which a byte is not mapped, ends the launch. -/
theorem launch_undescribed (hc : s.commanded fn 0x01 p) (ho : s.owns fn p = true) (hs : (s.part p).st = .idle) :
    ((s.vf fn).arg0.toNat % 128 ≠ 0 → exec (.launch fn) s = .next (s.cmdDone fn 3)) ∧
    ((s.vf fn).arg0.toNat % 128 = 0 → (gpaBytes (fnWho fn) fn (spansOf (s.vf fn).arg0.toNat 128)).leads s s1 none →
      exec (.launch fn) s = .next (s1.cmdDone fn 7)) := by
  refine ⟨fun hg => ?_, fun hg hb => ?_⟩ <;> refine run_command hc (leads_onPart ho (by rw [hs]; rfl) (M.leads_get_bind ?_)) <;> dsimp only
  · rw [if_pos hg]
    exact M.leads_pure _ _
  · rw [if_neg (not_not.2 hg)]
    exact M.leads_bind hb (M.leads_pure _ _)

/-- A launch with a descriptor that can be read goes on from it. -/
theorem launch_described (hc : s.commanded fn 0x01 p) (ho : s.owns fn p = true) (hs : (s.part p).st = .idle)
    (hg : (s.vf fn).arg0.toNat % 128 = 0) (hb : (gpaBytes (fnWho fn) fn (spansOf (s.vf fn).arg0.toNat 128)).leads s s1 (some bs))
    (hm : ∀ b ∈ bs, b.2 = false) (hd : leNat (bs.map (·.1)) = d) {x : BitVec 8} (h : (launchFrom fn p (s.serviceOf p) d).leads s1 t x) :
    exec (.launch fn) s = .next (t.cmdDone fn x) := by
  refine run_command hc (leads_onPart ho (by rw [hs]; rfl) (M.leads_get_bind ?_))
  dsimp only
  rw [if_neg (not_not.2 hg)]
  refine M.leads_bind hb ?_
  dsimp only
  rw [if_neg (by simpa using fun a b hb => hm (a, b) hb), hd]
  exact h

theorem launchFrom_malformed {core : Nat} (h : launchOk fn p d = false) : (launchFrom fn p core d).leads s s 3 := by
  unfold launchFrom
  rw [h, if_pos (by decide)]
  exact M.leads_pure _ _

/-- A launch of which everything can be read ends with the root record's check, or takes the steps of R139. -/
theorem launchFrom_read {core : Nat} (hok : launchOk fn p d = true)
    (hp : (launchReads (fnWho fn) core fn (ldTROOT d) ((List.range 16).map fun k => (ldPMAP d + 16 * k, 16))).leads s1 s2 (.ok es))
    (hr : (launchReads (fnWho fn) core fn (ldTROOT d) [(ldROOT d, 64)]).leads s2 s3 (.ok [r]))
    (hw : (each (fun a => readyWalkFrom fn a 3 1 (ldTROOT d)) (pagesOf (ldFUTBASE d) (104 * 2 ^ ldFUTLOG d))).leads s3 s4 ())
    (ht : s4.launchTable fn (ldTROOT d) (ldFUTBASE d) (ldFUTLOG d) = none) :
    (¬(s4.recordOk fn p r = true ∧ hIndex (rcWait r 0) = 0 ∧ hIndex (rcWait r 1) = 0) → (launchFrom fn p core d).leads s1 s4 4) ∧
    (s4.recordOk fn p r = true → hIndex (rcWait r 0) = 0 → hIndex (rcWait r 1) = 0 →
      (launchAll fn p d (es.map (BitVec.ofNat 128)) r).leads s4 t () → (launchFrom fn p core d).leads s1 t 0) := by
  have enter : ∀ {u : State} {x : BitVec 8}, (if (!s4.recordOk fn p r || hIndex (rcWait r 0) ≠ 0 || hIndex (rcWait r 1) ≠ 0) = true then
      return rRoot else do launchAll fn p d (es.map (BitVec.ofNat 128)) r; return rOk : M (BitVec 8)).leads s4 u x →
      (launchFrom fn p core d).leads s1 u x := by
    intro u x h
    unfold launchFrom
    rw [hok, if_neg (by decide)]
    refine M.leads_bind hp (M.leads_bind hr (M.leads_bind hw (M.leads_get_bind ?_)))
    dsimp only
    rw [ht]
    exact h
  refine ⟨fun bad => enter ?_, fun good h0 h1 ha => enter ?_⟩
  · rw [if_pos]
    · exact M.leads_pure _ _
    · by_contra ok
      simp at ok
      exact bad ⟨ok.1.1, ok.1.2, ok.2⟩
  · rw [if_neg (by simp [good, h0, h1])]
    exact M.leads_bind ha (M.leads_pure _ _)

end

/-! ### Bytes with their marks (R386) -/

theorem word_mem_wordsOf {n k : Nat} (h : k < n) (a : Nat) : (a + k) / 8 * 8 ∈ wordsOf a n := by
  unfold wordsOf
  rw [if_neg (by omega)]
  exact List.mem_map.2 ⟨(a + k) / 8 - a / 8, List.mem_range.2 (by omega), by omega⟩

namespace State

section
variable {s : State} {t : Nat}

theorem marked_append (s : State) (loc n m : Nat) : s.marked loc n ++ s.marked (loc + n) m = s.marked loc (n + m) := by
  simp [State.marked, List.range_add, Nat.add_assoc]

theorem map_fst_marked (s : State) (loc n : Nat) : (s.marked loc n).map (·.1) = Memory.reads s.mem loc n := by
  induction n generalizing loc with
  | zero => rfl
  | succ n ih =>
    calc (s.marked loc (n + 1)).map (·.1) = (s.marked loc 1 ++ s.marked (loc + 1) n).map (·.1) := by rw [marked_append, Nat.add_comm]
      _ = Memory.reads s.mem loc (n + 1) := by rw [List.map_append, ih]; rfl

/-- Bytes of words of which none is poisoned have no mark. -/
theorem marked_clean {loc n : Nat} (h : s.poisoned loc n = false) : ∀ b ∈ s.marked loc n, b.2 = false := by
  intro b hb
  obtain ⟨k, hk, rfl⟩ := List.mem_map.1 hb
  exact Bool.eq_false_iff.2 (List.any_eq_false.1 h _ (word_mem_wordsOf (List.mem_range.1 hk) loc))

/-! ### Translation (R90, R93, R94) -/

theorem stage2_eq_some {g a : Nat} : s.stage2 t g = some a ↔ ∃ b, SMap.find (s.vf t).s2 (g / 2 ^ 25) = some b ∧ b * 2 ^ 25 + g % 2 ^ 25 = a :=
  Option.map_eq_some_iff

/-- Addresses of one guest block lie in one physical block. -/
theorem stage2_add {g a n : Nat} (h : s.stage2 t g = some a) (hn : g % 2 ^ 25 + n < 2 ^ 25) : s.stage2 t (g + n) = some (a + n) := by
  obtain ⟨b, hb, rfl⟩ := stage2_eq_some.1 h
  exact stage2_eq_some.2 ⟨b, by rwa [show (g + n) / 2 ^ 25 = g / 2 ^ 25 by omega], by omega⟩

/-- A caldera access that is not refused goes to a bank. -/
theorem caldera_target {o : Nat} {x : Tgt} {v : Bool} (h : s.caldera t o = .ok (x, v)) : ∃ pkg ca off, x = .cal pkg ca off := by
  unfold State.caldera at h
  split_ifs at h
  · cases h
    exact ⟨_, _, _, rfl⟩
  · split at h
    · split at h
      · cases h
        exact ⟨_, _, _, rfl⟩
      · cases h
    · cases h
  · cases h
    exact ⟨_, _, _, rfl⟩

/-- The leaves that lead to HBM of the package. -/
theorem route_hbm {l : Word} {va a : Nat} {v : Bool} : s.route t l va = .ok (.hbm a, v) ↔
    lfAPT l = 0 ∧ s.stage2 t (gpaOf l va) = some a ∧ lfVER l = v := by
  unfold State.route
  dsimp only
  split
  · next h => cases s.stage2 t (gpaOf l va) <;> simp [h]
  · next h => simp [h]
  · next h =>
    rw [h]
    refine ⟨fun k => ?_, fun k => absurd k.1 (by decide)⟩
    split at k
    · next x w hx =>
      obtain ⟨_, _, _, rfl⟩ := caldera_target hx
      cases k
    · cases k
  · next h _ _ => exact ⟨fun k => (by cases k), fun k => absurd k.1 h⟩

end

end State

theorem bitsOf_congr {e sh va vb : Nat} (h : va / 2 ^ e = vb / 2 ^ e) (he : e ≤ sh) (n : Nat) : bitsOf va sh n = bitsOf vb sh n := by
  obtain ⟨k, rfl⟩ := Nat.exists_eq_add_of_le he
  unfold bitsOf
  rw [Nat.pow_add, ← Nat.div_div_eq_div_mul, ← Nat.div_div_eq_div_mul, h]

theorem entLog_le (l : Word) : 19 ≤ entLog l ∧ entLog l ≤ 30 := by
  unfold entLog
  split <;> decide

/-- A leaf at the last level serves 512 KiB by its own entry. -/
theorem entLog_of_leafOk {l : Word} (h : leafOk 3 l = true) : entLog l = 19 := by
  have sz : lfSZ l ≠ 2 := by
    intro e
    simp [leafOk, e] at h
  exact if_neg sz

section
variable {s t : State} {ten va vb : Nat}

/-- A walk finds a leaf in the entry that it reads first, or from the table that this entry points to. -/
theorem walkFrom_leaf_iff {l : Word} {f lv tb : Nat} : s.walkFrom ten va (f + 1) lv tb = .leaf l ↔
    ∃ a, s.stage2 ten (tb + 8 * bitsOf va (63 - 11 * (lv + 1)) 11) = some a ∧ s.poisoned a 8 = false ∧
      let e := BitVec.ofNat 64 (s.peek a 8)
      lfV e = true ∧ (isPointer e = true ∧ lv < 3 ∧ pointerOk e = true ∧ s.walkFrom ten va f (lv + 1) (lfFRAME e * 2 ^ 19) = .leaf l ∨
        isPointer e = false ∧ leafOk lv e = true ∧ e = l) := by
  conv_lhs => unfold State.walkFrom
  dsimp only [Space.loc]
  cases s.stage2 ten (tb + 8 * bitsOf va (63 - 11 * (lv + 1)) 11) with
  | none => simp
  | some a =>
    simp only [Option.some.injEq, exists_eq_left']
    generalize BitVec.ofNat 64 (s.peek a 8) = e
    by_cases p : s.poisoned a 8 = true
    · simp [p]
    by_cases v : lfV e = true
    · by_cases q : isPointer e = true
      · by_cases ok : lv < 3 ∧ pointerOk e = true <;> simp [p, v, q, ok]
        exact fun h1 h2 => absurd ⟨h1, h2⟩ ok
      · by_cases ok : leafOk lv e = true <;> simp [p, v, q, ok]
    · simp [p, v]

/-- A walk that finds a leaf finds it for every address that the entry serves (R90). -/
theorem walkFrom_sameEntry {l : Word} (e : va / 2 ^ entLog l = vb / 2 ^ entLog l) :
    ∀ f lv tb, lv + f = 4 → s.walkFrom ten va f lv tb = .leaf l → s.walkFrom ten vb f lv tb = .leaf l
  | 0, _, _, _, h => by cases h
  | f + 1, lv, tb, hl, h => by
    obtain ⟨a, ha, clean, valid, h⟩ := walkFrom_leaf_iff.1 h
    have fits : entLog l ≤ 63 - 11 * (lv + 1) := by
      by_cases h3 : lv < 3
      · have := (entLog_le l).2
        omega
      · obtain rfl : lv = 3 := by omega
        obtain ⟨-, ok, rfl⟩ := h.resolve_left fun h => h3 h.2.1
        exact (entLog_of_leafOk ok).le
    rw [bitsOf_congr e fits 11] at ha
    refine walkFrom_leaf_iff.2 ⟨a, ha, clean, valid, h.imp_left ?_⟩
    exact fun ⟨ptr, deeper, ok, h⟩ => ⟨ptr, deeper, ok, walkFrom_sameEntry e f _ _ (by omega) h⟩

/-- A walk is decided by the entries that it reads. -/
theorem walkFrom_congr (hv : t.vfs = s.vfs) : ∀ f lv tb,
    (∀ w ∈ s.walkReads ten va f lv tb, t.peek w 8 = s.peek w 8 ∧ t.poisoned w 8 = s.poisoned w 8) →
      t.walkFrom ten va f lv tb = s.walkFrom ten va f lv tb
  | 0, _, _, _ => rfl
  | f + 1, lv, tb, h => by
    have s2 : ∀ g, t.stage2 ten g = s.stage2 ten g := fun g => by
      unfold State.stage2 State.vf
      rw [hv]
    unfold State.walkReads at h
    unfold State.walkFrom
    dsimp only at h ⊢
    rw [s2]
    cases hg : s.stage2 ten (tb + 8 * bitsOf va (63 - 11 * (lv + 1)) 11) with
    | none => rfl
    | some a =>
      rw [hg] at h
      dsimp only at h ⊢
      obtain ⟨peek, poison⟩ : t.peek (Space.hbm.loc a) 8 = s.peek (Space.hbm.loc a) 8 ∧
        t.poisoned (Space.hbm.loc a) 8 = s.poisoned (Space.hbm.loc a) 8 := h a List.mem_cons_self
      rw [peek, poison]
      by_cases ptr : isPointer (BitVec.ofNat 64 (s.peek (Space.hbm.loc a) 8)) = true
      · rw [if_pos ptr] at h
        rw [walkFrom_congr hv f _ _ fun w hw => h w (List.mem_cons_of_mem a hw)]
      · rw [if_neg ptr, if_neg ptr]

/-- The entries of aligned tables are aligned words. -/
theorem walkReads_aligned : ∀ f lv tb, tb % 8 = 0 → ∀ w ∈ s.walkReads ten va f lv tb, w % 8 = 0
  | 0, _, _, _, _, h => by cases h
  | f + 1, lv, tb, ht, w, h => by
    unfold State.walkReads at h
    split at h
    · cases h
    · next a ha =>
      obtain ⟨b, -, rfl⟩ := State.stage2_eq_some.1 ha
      rcases List.mem_cons.1 h with rfl | h
      · omega
      · split at h
        · exact walkReads_aligned f _ _ (by omega) w h
        · cases h

end

/-! ### Addresses that the page tables at a root map to HBM -/

section
variable {s : State} {ten root va vb a b : Nat} {wr : Bool}

theorem launchTgt_of_rootMaps (h : s.rootMaps ten root va wr a) : s.launchTgt ten root va wr = .ok (.hbm a, false) := by
  obtain ⟨h1, h2, -, l, hw, perm, hr⟩ := h
  unfold State.launchTgt
  rw [h2, if_neg (by simp; omega), hw]
  dsimp only
  rw [if_pos, hr]
  cases wr
  · exact perm
  · exact perm.1

/-- Addresses of one 512 KiB page are mapped to one run of bytes. -/
theorem rootMaps_samePage {wa wb : Bool} (ha : s.rootMaps ten root va wa a) (hb : s.rootMaps ten root vb wb b)
    (e : va / 2 ^ 19 = vb / 2 ^ 19) (le : va ≤ vb) :
    b = a + (vb - va) := by
  obtain ⟨-, -, -, l, wa, -, ra⟩ := ha
  obtain ⟨-, -, -, k, wb, -, rb⟩ := hb
  have same : va / 2 ^ entLog l = vb / 2 ^ entLog l := by
    obtain ⟨k, hk⟩ := Nat.exists_eq_add_of_le (entLog_le l).1
    rw [hk, Nat.pow_add, ← Nat.div_div_eq_div_mul, ← Nat.div_div_eq_div_mul, e]
  rw [walkFrom_sameEntry same 3 1 root rfl wa] at wb
  cases wb
  obtain ⟨-, ga, -⟩ := State.route_hbm.1 ra
  obtain ⟨-, gb, -⟩ := State.route_hbm.1 rb
  have g : gpaOf l vb = gpaOf l va + (vb - va) ∧ gpaOf l va % 2 ^ 25 + (vb - va) < 2 ^ 25 := by
    unfold gpaOf lfLog
    split
    · omega
    · split <;> omega
  rw [g.1, State.stage2_add ga g.2] at gb
  exact (Option.some.inj gb).symm

end

/-! ### What the checks read -/

section
variable {s : State} (clean : ∀ k, s.holders k = [])
include clean

/-- A descriptor in its place is read in two lines. -/
theorem leads_gpaBytes {who : Who} {t g x : Nat} (hg : g % 128 = 0) (h : s.stage2 t g = some x) :
    (gpaBytes who t (spansOf g 128)).leads s s (some (s.marked x 128)) := by
  have spans : spansOf g 128 = [(g, 64), (g + 64, 64)] := by
    have h0 : g % 64 = 0 := by omega
    simp [spansOf, lineSpans, h0]
  have line : ∀ (a y : Nat) (m : List (Nat × Nat)) (r : List PByte), s.stage2 t a = some y → (gpaBytes who t m).leads s s (some r) →
      (gpaBytes who t ((a, 64) :: m)).leads s s (some (s.marked y 64 ++ r)) := by
    intro a y m r ha hm
    refine M.leads_get_bind ?_
    rw [ha]
    exact M.leads_bind (homeRead_none _ _ _ (clean _)) (M.leads_get_bind (M.leads_bind hm (M.leads_pure _ _)))
  have both := line g x _ _ h (line (g + 64) (x + 64) [] [] (State.stage2_add h (by omega)) (M.leads_pure _ _))
  rw [List.append_nil, State.marked_append] at both
  rw [spans]
  exact both

theorem leads_launchReads_cons {fn core root a n x : Nat} {m : List (Nat × Nat)} {vs : List Nat} (h : s.rootMaps fn root a false x)
    (hp : s.poisoned x n = false) (hm : (launchReads (fnWho fn) core fn root m).leads s s (.ok vs)) :
    (launchReads (fnWho fn) core fn root ((a, n) :: m)).leads s s (.ok (s.peek x n :: vs)) := by
  have plain : s.plain (Space.hbm.loc x) n false = some (s.peek x n) := by simp [State.plain, Space.loc, hp]
  have read : (readTgt (fnWho fn) core fn a (.hbm x) false n).leads s s (.ok (s.peek x n)) := by
    refine M.leads_get_bind (M.leads_bind (M.leads_pure () s) (M.leads_bind (M.leads_each _ fun k _ => homeRead_none _ _ _ (clean k))
      (M.leads_get_bind ?_)))
    rw [plain]
    exact M.leads_pure _ _
  refine M.leads_bind (readyWalkFrom_none clean _ _ _) (M.leads_get_bind ?_)
  rw [launchTgt_of_rootMaps h]
  exact M.leads_bind read (M.leads_bind hm (M.leads_pure _ _))

theorem leads_launchReads {fn core root n : Nat} : ∀ l : List Nat, (∀ a ∈ l, ∃ x, s.rootMaps fn root a false x ∧ s.poisoned x n = false) →
    ∃ vs, (launchReads (fnWho fn) core fn root (l.map fun a => (a, n))).leads s s (.ok vs)
  | [], _ => ⟨[], M.leads_pure _ _⟩
  | a :: l, h => by
    obtain ⟨x, hx, hp⟩ := h a List.mem_cons_self
    obtain ⟨vs, hl⟩ := leads_launchReads l fun b hb => h b (List.mem_cons_of_mem _ hb)
    exact ⟨_, leads_launchReads_cons clean hx hp hl⟩

end

theorem mem_pagesOf {a base n : Nat} (hn : 0 < n) (h : a ∈ pagesOf base n) : base ≤ a ∧ a < base + n ∧ (a = base ∨ a % 2 ^ 19 = 0) := by
  obtain ⟨k, hk, rfl⟩ := List.mem_map.1 h
  have hk := List.mem_range.1 hk
  omega

/-- The addresses of pages that a table of 32-byte pieces touches are those of pieces. -/
theorem mem_pagesOf_piece {a base n : Nat} (hn : 0 < n) (hb : base % 32 = 0) (h : a ∈ pagesOf base n) : ∃ i, a = base + 32 * i ∧ 32 * i < n := by
  obtain ⟨h0, h1, h2⟩ := mem_pagesOf hn h
  exact ⟨(a - base) / 32, by omega, by omega⟩

theorem launchTable_none {s : State} {fn root base log : Nat} {loc : Nat → Nat} (hb : base % 32 = 0)
    (h : ∀ i, 32 * i < 104 * 2 ^ log → s.rootMaps fn root (base + 32 * i) true (loc i)) : s.launchTable fn root base log = none := by
  refine List.findSome?_eq_none_iff.2 fun a ha => ?_
  obtain ⟨i, rfl, hi⟩ := mem_pagesOf_piece (Nat.mul_pos (by decide) (Nat.two_pow_pos _)) hb ha
  rw [launchTgt_of_rootMaps (h i hi)]
  rfl

/-- An invariant that each part of a list keeps. -/
theorem M.Reaches.each {α : Type} {f : α → M Unit} {I : State → Prop} : ∀ (l : List α),
    (∀ x ∈ l, ∀ t, I t → (f x).Reaches t fun u _ => I u) →
    ∀ s, I s → (M.each f l).Reaches s fun u _ => I u
  | [], _, _, hs => .pure hs
  | x :: l, h, s, hs => .bind (h x List.mem_cons_self s hs) fun t _ ht =>
    Reaches.each l (fun y hy => h y (List.mem_cons_of_mem _ hy)) t ht

theorem wordsOf_word {w : Nat} (h : w % 8 = 0) : wordsOf w 8 = [w] := by
  unfold wordsOf
  rw [if_neg (by decide), show (w + 8 - 1) / 8 - w / 8 + 1 = 1 by omega]
  simp
  omega

/-! ### The future table while it is cleared and written (R33, R139) -/

/-- A future table with its waiter pool and link array, in pieces of 32 bytes, as the page tables of a tenant map it to HBM. -/
structure LaunchMap where
  fn : Nat
  root : Nat
  base : Nat
  size : Nat
  loc : Nat → Nat

namespace LaunchMap

/-- The address of a piece. -/
def va (m : LaunchMap) (i : Nat) : Nat := m.base + 32 * i

/-- The physical addresses of the page table entries by which a piece is found. -/
def reads (m : LaunchMap) (s : State) (i : Nat) : List Nat := s.walkReads m.fn (m.va i) 3 1 m.root

/-- The pieces are mapped to HBM, writable, and lie apart from the page tables, which are aligned. -/
structure Good (m : LaunchMap) (s : State) : Prop where
  aligned : m.base % 32 = 0 ∧ m.root % 8 = 0
  mapped : ∀ i, 32 * i < m.size → s.rootMaps m.fn m.root (m.va i) true (m.loc i)
  apart : ∀ i, 32 * i < m.size → ∀ w ∈ m.reads s i, ∀ j, 32 * j < m.size → w + 8 ≤ m.loc j ∨ m.loc j + 32 ≤ w

/-- A later state of the launch: no cache has taken a line, and the page tables stand. -/
structure Stands (m : LaunchMap) (s t : State) : Prop where
  vfs : t.vfs = s.vfs
  clean : ∀ k, t.holders k = []
  words : ∀ i, 32 * i < m.size → ∀ w ∈ m.reads s i, t.peek w 8 = s.peek w 8 ∧ t.poisoned w 8 = s.poisoned w 8

section
variable {m : LaunchMap} {s t u : State}

theorem Stands.refl (clean : ∀ k, s.holders k = []) : m.Stands s s := ⟨rfl, clean, fun _ _ _ _ => ⟨rfl, rfl⟩⟩

theorem Stands.stage2 (h : m.Stands s t) (ten g : Nat) : t.stage2 ten g = s.stage2 ten g := by
  unfold State.stage2 State.vf
  rw [h.vfs]

theorem Stands.mapped (h : m.Stands s t) (good : m.Good s) {i : Nat} (hi : 32 * i < m.size) : t.rootMaps m.fn m.root (m.va i) true (m.loc i) := by
  obtain ⟨low, noCal, small, l, walk, perm, route⟩ := good.mapped i hi
  refine ⟨low, noCal, small, l, ?_, perm, ?_⟩
  · rw [walkFrom_congr h.vfs 3 1 _ (h.words i hi), walk]
  · rw [State.route_hbm] at route ⊢
    rwa [h.stage2]

/-- Bytes of the table are written or cleared: the page tables stand. -/
theorem Stands.written (h : m.Stands s t) (good : m.Good s) {lo hi : Nat} (vfs : u.vfs = t.vfs) (dir : u.dev.dir = t.dev.dir)
    (bytes : ∀ a, a < lo ∨ hi ≤ a → u.byte a = t.byte a) (marks : ∀ w, w < lo ∨ hi ≤ w → u.pois.contains w = t.pois.contains w)
    (apart : ∀ i, 32 * i < m.size → ∀ w ∈ m.reads s i, w + 8 ≤ lo ∨ hi ≤ w) : m.Stands s u where
  vfs := vfs.trans h.vfs
  clean k := by
    unfold State.holders
    rw [dir]
    exact h.clean k
  words i hi' w hw := by
    have out := apart i hi' w hw
    obtain ⟨peek, poison⟩ := h.words i hi' w hw
    rw [← peek, ← poison]
    refine ⟨congrArg leNat (Memory.reads_congr fun k h1 h2 => bytes k (by omega)), ?_⟩
    unfold State.poisoned
    rw [wordsOf_word (walkReads_aligned 3 1 _ good.aligned.2 w hw), List.any_cons, List.any_cons, marks w (by omega)]
    rfl

/-- A run of pieces in one page is one run of bytes. -/
theorem Good.run (good : m.Good s) {i j : Nat} (hj : 32 * j < m.size) (le : i ≤ j) (page : m.va i / 2 ^ 19 = m.va j / 2 ^ 19) :
    m.loc j = m.loc i + 32 * (j - i) := by
  rw [rootMaps_samePage (good.mapped i (by omega)) (good.mapped j hj) page (by unfold va; omega)]
  unfold va
  omega

/-- So no page table entry lies in it. -/
theorem Good.apart_run (good : m.Good s) {i n : Nat} (hn : 32 * i + n ≤ m.size) (page : m.va i % 2 ^ 19 + n ≤ 2 ^ 19) (pos : 0 < n) {k w : Nat}
    (hk : 32 * k < m.size) (hw : w ∈ m.reads s k) : w + 8 ≤ m.loc i ∨ m.loc i + n ≤ w := by
  by_contra inside
  have first := good.apart k hk w hw i (by omega)
  have run := good.run (i := i) (j := i + (w - m.loc i) / 32) (by omega) (by omega) (by unfold va at page ⊢; omega)
  have last := good.apart k hk w hw (i + (w - m.loc i) / 32) (by omega)
  omega

end

end LaunchMap

theorem contains_filter {p : Nat → Bool} {l : List Nat} {w : Nat} (h : p w = true) : (l.filter p).contains w = l.contains w := by
  rw [Bool.eq_iff_iff, List.contains_iff_mem, List.contains_iff_mem, List.mem_filter]
  exact and_iff_left h

/-- Only memory and what is kept of its words have changed. -/
def OnlyMemory (s t : State) : Prop := ∃ m p v h, t = { s with mem := m, pois := p, vers := v, shadow := h }

theorem stable_onlyMemory : Stable OnlyMemory where
  refl s := ⟨s.mem, s.pois, s.vers, s.shadow, rfl⟩
  trans := by
    rintro s _ _ ⟨_, _, _, _, rfl⟩ ⟨_, _, _, _, rfl⟩
    exact ⟨_, _, _, _, rfl⟩

section
variable {m : LaunchMap} {s : State} (good : m.Good s)
include good

/-- Clearing the future entries clears nothing of the page tables (R33). -/
theorem reaches_clearTable {who : Who} {log : Nat} (hn : 32 * 2 ^ log ≤ m.size) {t : State} (h : m.Stands s t) :
    (clearTable who m.fn m.root m.base log).Reaches t fun u _ => m.Stands s u ∧ OnlyMemory t u := by
  refine .each _ (fun a ha u ⟨hu, only⟩ => ?_) t ⟨h, stable_onlyMemory.refl t⟩
  obtain ⟨i, rfl, hi⟩ := mem_pagesOf_piece (Nat.mul_pos (by decide) (Nat.two_pow_pos _)) good.aligned.1 ha
  refine .get ?_
  dsimp only
  rw [show u.launchTgt m.fn m.root (m.base + 32 * i) true = _ from launchTgt_of_rootMaps (hu.mapped good (by omega))]
  refine .led (M.leads_each _ fun e _ => ?_) (.upd ⟨?_, stable_onlyMemory.trans only ⟨_, _, _, _, rfl⟩⟩)
  · split
    · exact homeWrite_none _ _ _ (hu.clean _)
    · exact M.leads_pure _ _
  · refine hu.written good rfl rfl (fun a ha => (State.byte_scrub ..).trans (if_pos ha)) (fun w hw => contains_filter (by simpa using hw))
      fun k hk w hw => good.apart_run (by omega) (by unfold LaunchMap.va; omega) (by omega) hk hw

end

/-! ### Cores that are launched (R139 step 4) -/

/-- No cache of a core holds a line. -/
def Core.unlined (c : Core) : Prop := c.l1 = [] ∧ c.sect = []

/-- What the statement asks of a launched core. -/
def Core.armed (d : Nat) (c : Core) : Prop := c.csrGet cPRIO = BitVec.ofNat 64 (ldPRIO d) ∧ c.csrGet cSSNUM = 0 ∧ c.rules = []

theorem Core.armed_launched (d : Nat) (pmap : List (BitVec 128)) (c : Core) : (c.launched d pmap).armed d :=
  ⟨Core.csrGet_launched rfl pmap c, Core.csrGet_launched rfl pmap c, rfl⟩

theorem Core.unlined_launched {c : Core} (h : c.unlined) (d : Nat) (pmap : List (BitVec 128)) : (c.launched d pmap).unlined :=
  ⟨(Core.foldl_csrSet_lines (launchCsrs d) c).1.trans h.1, (Core.foldl_csrSet_lines (launchCsrs d) c).2.trans h.2⟩

/-- Cores and contexts alone have changed: no core has got a line, and one that is launched is still so. -/
structure LaunchingCores (d : Nat) (s t : State) : Prop where
  only : ∃ k x, t = { s with cores := k, ctxs := x }
  unlined : ∀ c, (s.core c).unlined → (t.core c).unlined
  armed : ∀ c, (s.core c).armed d → (t.core c).armed d

theorem stable_launchingCores (d : Nat) : Stable (LaunchingCores d) where
  refl s := ⟨⟨s.cores, s.ctxs, rfl⟩, fun _ => id, fun _ => id⟩
  trans h k := ⟨by
    obtain ⟨_, _, rfl⟩ := h.only
    obtain ⟨_, _, rfl⟩ := k.only
    exact ⟨_, _, rfl⟩, fun c => k.unlined c ∘ h.unlined c, fun c => k.armed c ∘ h.armed c⟩

section
variable {d core : Nat} {f : Core → Core} (lines : ∀ c, c.unlined → (f c).unlined) (regs : ∀ c, c.armed d → (f c).armed d)
include lines regs

theorem launchingCores_core (s : State) : LaunchingCores d s ((Upd.core core f).apply s) where
  only := ⟨_, _, rfl⟩
  unlined c h := by
    rw [State.core_upd_core]
    split
    · exact lines _ h
    · exact h
  armed c h := by
    rw [State.core_upd_core]
    split
    · exact regs _ h
    · exact h

end

section
variable {d core : Nat} {s : State} (noLine : (s.core core).unlined)
include noLine

theorem reaches_flushFrame (f : Nat) : (flushFrame core f).Reaches s fun t _ => LaunchingCores d s t := by
  refine .get ?_
  rw [noLine.2]
  exact .led (M.leads_pure () s) (.upd (launchingCores_core (f := fun c => { c with sect := c.sect.filter fun e => e.1 / 64 != f })
    (fun c h => ⟨h.1, by rw [h.2]; rfl⟩) (fun _ => id) s))

theorem reaches_unmapAll : (unmapAll core).Reaches s fun t _ => LaunchingCores d s t := by
  refine .get (.bind (.each (I := LaunchingCores d s) _ (fun e _ t h => ?_) s ((stable_launchingCores d).refl s)) fun t _ h => ?_)
  · exact (reaches_flushFrame (h.unlined core noLine) e.1).mono fun u _ k => (stable_launchingCores d).trans h k
  · exact .upd ((stable_launchingCores d).trans h (launchingCores_core (f := fun c => { c with stash := [] }) (fun _ => id) (fun _ => id) t))

theorem reaches_flushLines (p : Line → Bool) : (flushLines core p true).Reaches s fun t _ => LaunchingCores d s t := by
  refine .get ?_
  dsimp only
  rw [noLine.1, noLine.2]
  have l1 := launchingCores_core (d := d) (core := core) (f := fun c => { c with l1 := c.l1.filter fun e => !p e.2 })
    (fun c h => ⟨by rw [h.1]; rfl, h.2⟩) (fun _ => id)
  have sect := launchingCores_core (d := d) (core := core) (f := fun c => { c with sect := c.sect.filter fun e => !p e.2 })
    (fun c h => ⟨h.1, by rw [h.2]; rfl⟩) (fun _ => id)
  exact .led (M.leads_pure () s) (.upd_bind (.led (M.leads_pure () _) (.upd ((stable_launchingCores d).trans (l1 s) (sect _)))))

theorem reaches_launchCore (pmap : List (BitVec 128)) : (launchCore d pmap core).Reaches s fun t _ =>
    LaunchingCores d s t ∧ (t.core core).armed d := by
  have st := stable_launchingCores d
  refine .bind (reaches_unmapAll (d := d) noLine) fun t _ ht => .bind (reaches_flushLines (d := d) (ht.unlined core noLine) _) fun u _ hu => .upd_bind ?_
  have launched : LaunchingCores d u ((Upd.core core (Core.launched d pmap)).apply u) :=
    launchingCores_core (fun c h => c.unlined_launched h d pmap) (fun c _ => c.armed_launched d pmap) u
  have contexts : (each (fun id => upd (.ctx id Ctx.launched)) (ctxsOf core)).Keeps (LaunchingCores d) :=
    .each st (fun _ => .upd fun _ => ⟨⟨_, _, rfl⟩, fun _ => id, fun _ => id⟩) _
  refine .of_keeps contexts fun v hv => ⟨st.trans (st.trans ht hu) (st.trans launched hv), hv.armed core ?_⟩
  rw [State.core_upd_core, if_pos rfl]
  exact Core.armed_launched ..

end

theorem reaches_launchCores {d : Nat} (pmap : List (BitVec 128)) : ∀ (l : List Nat) {s : State}, (∀ c ∈ l, (s.core c).unlined) →
    (each (launchCore d pmap) l).Reaches s fun t _ => LaunchingCores d s t ∧ ∀ c ∈ l, (t.core c).armed d
  | [], s, _ => .pure ⟨(stable_launchingCores d).refl s, List.forall_mem_nil _⟩
  | c :: l, _, h => .bind (reaches_launchCore (h c List.mem_cons_self) pmap) fun _ _ ⟨ht, hc⟩ =>
    (reaches_launchCores pmap l fun e he => ht.unlined e (h e (List.mem_cons_of_mem _ he))).mono fun _ _ ⟨hu, hl⟩ =>
      ⟨(stable_launchingCores d).trans ht hu, List.forall_mem_cons.2 ⟨hu.armed c hc, hl⟩⟩

/-! ### Event units at a launch (R139) -/

/-- Only event units, links and the counts of group barriers have changed. -/
def OnlyEvents (s t : State) : Prop := ∃ k l g, t = { s with clusters := k, dev := { s.dev with links := l, gbar := g } }

theorem stable_onlyEvents : Stable OnlyEvents where
  refl s := ⟨s.clusters, s.dev.links, s.dev.gbar, rfl⟩
  trans := by
    rintro s _ _ ⟨_, _, _, rfl⟩ ⟨_, _, _, rfl⟩
    exact ⟨_, _, _, rfl⟩

theorem keepsEvents_resetEvents (p : Nat) : (resetEvents p).Keeps OnlyEvents := by
  have st := stable_onlyEvents
  have sent : ∀ b, (tellGroup p b 2).Keeps OnlyEvents := fun b => .get fun s => .each st (fun q => .ite (.pure st)
    ((keepsLinks_sendPacket _ _).mono fun s t ⟨l, e⟩ => ⟨s.clusters, l, s.dev.gbar, e⟩)) _
  have counts : ∀ b q n, (setGbar p b q n).Keeps OnlyEvents := fun b q n => .upd fun s => ⟨s.clusters, s.dev.links, _, rfl⟩
  exact .get fun s => .seq st (.each st (fun b => .ite (.pure st) (.seq st (sent b) (.each st (fun q => counts b q 0) _))) _)
    (.each st (fun k => .upd fun s => ⟨_, s.dev.links, s.dev.gbar, rfl⟩) _)

/-! ### The root record in its slot (R137, R139 step 6) -/

theorem judge_store {l : Word} (write : lfW l = true) (still : lfMIG l = false) : judge .store false l = .ok l := by
  simp [judge, permits, holdUp, write, still]

/-- What an interface keeps of a translation: the entry for it, and some of those that it had. -/
theorem reaches_keepLeaf (core ten p va : Nat) (l : Word) (s : State) : (keepLeaf core ten p va l).Reaches s fun t _ =>
    ∃ b, t = { s with dev := { s.dev with tlb := b } } ∧
      ∀ e ∈ b, e = ⟨interfaceOf (s.core core).pmap core va, ten, p, va / 2 ^ entLog l, entLog l, l⟩ ∨ e ∈ s.dev.tlb := by
  refine .get ?_
  dsimp only
  split
  · exact .pure ⟨s.dev.tlb, rfl, fun _ => .inr⟩
  · exact .upd ⟨_, rfl, fun e he => (List.mem_cons.1 he).imp_right fun h => (List.mem_filter.1 h).1⟩

namespace LaunchMap

/-- The address space of a partition has the page tables for its root, and no interface keeps of it another leaf for a piece. -/
structure Opened (m : LaunchMap) (p : Nat) (s t : State) : Prop extends m.Stands s t where
  root : SMap.find t.dev.roots (asidKey m.fn p) = some m.root
  kept : ∀ e ∈ t.dev.tlb, e.ten = m.fn → e.pnode = p → ∀ i, 32 * i < m.size → m.va i / 2 ^ e.lg = e.va →
    s.walkFrom m.fn (m.va i) 3 1 m.root = .leaf e.leaf

/-- Memory, marks and kept translations alone have changed. -/
def OnlyStored (s t : State) : Prop := ∃ m p b, t = { s with mem := m, pois := p, dev := { s.dev with tlb := b } }

theorem stable_onlyStored : Stable OnlyStored where
  refl s := ⟨s.mem, s.pois, s.dev.tlb, rfl⟩
  trans := by
    rintro s _ _ ⟨_, _, _, rfl⟩ ⟨_, _, _, rfl⟩
    exact ⟨_, _, _, rfl⟩

section
variable {m : LaunchMap} {p : Nat} {s t : State} (h : m.Opened p s t)
include h

/-- A store to a piece goes through the leaf that the page tables have for it, from an interface or by a walk. -/
theorem Opened.stage1 {i : Nat} {l : Word} (hi : 32 * i < m.size) (walk : s.walkFrom m.fn (m.va i) 3 1 m.root = .leaf l) (write : lfW l = true)
    (still : lfMIG l = false) (core : Nat) : t.stage1 core m.fn p (m.va i) .store false = .ok l := by
  have walks : t.walk m.fn p (m.va i) = .leaf l := by
    unfold State.walk
    rw [h.root]
    exact (walkFrom_congr h.vfs 3 1 _ (h.words i hi)).trans walk
  unfold State.stage1
  dsimp only
  rw [walks]
  cases hc : t.cached (interfaceOf (t.core core).pmap core (m.va i)) m.fn p (m.va i) with
  | none => exact judge_store write still
  | some e =>
    have found := List.find?_some hc
    simp only [Bool.and_eq_true, beq_iff_eq] at found
    obtain ⟨⟨⟨-, ten⟩, pnode⟩, va⟩ := found
    have same := (h.kept e (List.mem_of_find?_eq_some hc) ten pnode i hi va).symm.trans walk
    cases same
    dsimp only
    rw [judge_store write still]

variable (good : m.Good s)
include good

theorem Opened.leads_tabLoc {tb : Tab} (ten : tb.t = m.fn) (pnode : tb.p = p) {i : Nat} (hi : 32 * i < m.size) :
    ∃ b, (tabLoc tb (m.va i)).leads t { t with dev := { t.dev with tlb := b } } (m.loc i) ∧
      m.Opened p s { t with dev := { t.dev with tlb := b } } := by
  obtain ⟨low, noCal, -, l, walk, ⟨write, still⟩, route⟩ := good.mapped i hi
  obtain ⟨_, _, keep, b, rfl, entries⟩ := reaches_keepLeaf tb.core tb.t tb.p (m.va i) l t
  have route' : t.route tb.t l (m.va i) = .ok (.hbm (m.loc i), false) := by
    rw [ten]
    rw [State.route_hbm] at route ⊢
    rwa [h.stage2]
  have loc := tabLoc_at low noCal (by rw [ten, pnode]; exact h.stage1 hi walk write still tb.core) route' (readyWalk_none h.clean)
  rw [keep.ran_eq] at loc
  refine ⟨b, loc, ⟨⟨h.vfs, h.clean, h.words⟩, h.root, fun e he et ep j hj hv => ?_⟩⟩
  rcases entries e he with rfl | old
  · exact walkFrom_sameEntry hv.symm 3 1 _ rfl walk
  · exact h.kept e old et ep j hj hv

/-- A piece is written. -/
theorem Opened.reaches_tabPoke {tb : Tab} (ten : tb.t = m.fn) (pnode : tb.p = p) {i : Nat} (hi : 32 * i < m.size) {bs : List Byte}
    (len : bs.length = 32) : (tabPoke tb (m.va i) bs).Reaches t fun u _ => m.Opened p s u ∧ OnlyStored t u := by
  obtain ⟨b, loc, opened⟩ := h.leads_tabLoc good ten pnode hi
  obtain ⟨-, -, small, -⟩ := good.mapped i hi
  refine .of_leads (tabPoke_at loc small fun k _ => opened.clean k) ⟨?_, _, _, _, rfl⟩
  refine ⟨opened.toStands.written good (lo := m.loc i) (hi := m.loc i + 32) rfl rfl
    (fun a ha => Memory.read_writes_ne _ _ _ (by rwa [len])) (fun w hw => contains_filter ?_)
    (fun k hk w hw => good.apart k hk w hw i hi), opened.root, opened.kept⟩
  rw [Bool.not_eq_true', ← Bool.not_eq_true, List.contains_iff_mem]
  intro inside
  have covered := (List.mem_filter.1 inside).2
  simp only [Bool.and_eq_true, decide_eq_true_eq, len] at covered
  omega

/-- A slot of the waiter pool is written in two pieces. -/
theorem Opened.reaches_writeSlot {tb : Tab} (ten : tb.t = m.fn) (pnode : tb.p = p) (base : tb.base = m.base) {j : Nat} (hj : j < 2 ^ tb.log)
    (size : 96 * 2 ^ tb.log ≤ m.size) (r : Nat) : (writeSlot tb j r).Reaches t fun u _ => OnlyStored t u := by
  have first : tb.slotVA j = m.va (2 ^ tb.log + 2 * j) := by
    unfold Tab.slotVA va
    omega
  have second : tb.slotVA j + 32 = m.va (2 ^ tb.log + 2 * j + 1) := by
    rw [first]
    unfold va
    omega
  unfold writeSlot
  rw [second, first]
  refine .bind (h.reaches_tabPoke good ten pnode (by omega) (leBytes_length ..)) fun u _ ⟨hu, lo⟩ => ?_
  exact (hu.reaches_tabPoke good ten pnode (by omega) (leBytes_length ..)).mono fun v _ ⟨_, hi⟩ => stable_onlyStored.trans lo hi

end

end LaunchMap

theorem firstPresent_of_pres {s t : State} (h : t.pres = s.pres) : ∀ n k, t.firstPresent k n = s.firstPresent k n
  | 0, _ => rfl
  | n + 1, k => by
    unfold State.firstPresent State.clPresent
    rw [h, firstPresent_of_pres h n]

theorem nodeCores_of_pres {s t : State} (h : t.pres = s.pres) (p : Nat) : t.nodeCores p = s.nodeCores p := by
  unfold State.nodeCores
  rw [nodeClusters_of_pres h]

theorem serviceOf_of_pres {s t : State} (h : t.pres = s.pres) (p : Nat) : t.serviceOf p = s.serviceOf p := by
  unfold State.serviceOf State.serviceCore
  rw [firstPresent_of_pres h]

/-- The core that a record goes to depends on the cores that are present and on placement maps alone (R145). -/
theorem dequeOf_congr {s t : State} (h : t.pres = s.pres) (maps : ∀ c, (t.core c).pmap = (s.core c).pmap) (p r : Nat) :
    t.dequeOf p r = s.dequeOf p r := by
  unfold State.dequeOf
  rw [nodeCores_of_pres h, serviceOf_of_pres h, maps]

/-- A partition that has accepted its first record, in a slot: queued, or held with NEXT. -/
def Part.accepted (r j : Nat) (q : Part) : Part := if rcNext r then { q with pool := [j], held := [j], armed := true } else { q with pool := [j] }

/-- A core with a record at the newest end of its deque. -/
def Core.queued (p j r die : Nat) (c : Core) : Core :=
  { c with deque := c.deque ++ [⟨p, j, max (rcPrio r) ((c.csrGet cPRIO).toNat % 4), rcAff r, die, BitVec.ofNat 64 (rcData r), 0⟩] }

/-- What accepting the first record of a partition leaves. -/
structure AcceptedFirst (p r j : Nat) (s t : State) : Prop where
  vfs : t.vfs = s.vfs
  pres : t.pres = s.pres
  part : t.part p = (s.part p).accepted r j
  core : ∀ c, ∃ l, t.core c = { s.core c with deque := l }
  queued : rcNext r = false → ∃ x ∈ (t.core (t.dequeOf p r)).deque, x.pnode = p ∧ x.slot = j ∧ x.data = BitVec.ofNat 64 (rcData r)

/-- A slot of a partition's pool is taken. -/
def State.tookSlot (s : State) (p j : Nat) : State :=
  ((Upd.dev fun d => { d with freeIx := d.freeIx + 1 }).apply s).setPart p fun q => { q with pool := nsInsert j q.pool }

theorem leads_takeSlot (tb : Tab) (s : State) : ∃ j < 2 ^ tb.log, (takeSlot tb).leads s (s.tookSlot tb.p j) j :=
  ⟨freeFrom (s.part tb.p).pool (2 ^ tb.log) (s.part tb.p).pool.length (Config.poolPick s.dev.freeIx), freeFrom_lt _ (Nat.two_pow_pos _) _ _,
    fun _ _ => rfl⟩

theorem State.known_tookSlot {s : State} {p : Nat} (known : (s.part? p).isSome = true) (j : Nat) : ((s.tookSlot p j).part? p).isSome = true :=
  (State.partOpt_setPart_isSome ..).trans known

theorem State.part_tookSlot {s : State} {p : Nat} (known : (s.part? p).isSome = true) (pool : (s.part p).pool = []) (j : Nat) :
    (s.tookSlot p j).part p = { s.part p with pool := [j] } := by
  refine (State.part_setPart_self (s := (Upd.dev fun d => { d with freeIx := d.freeIx + 1 }).apply s) known _).trans ?_
  rw [show ((Upd.dev fun d => { d with freeIx := d.freeIx + 1 }).apply s).part p = s.part p from rfl, pool]
  rfl

/-- A record with NEXT that waits on nothing takes its slot and is held (R46, R137). -/
theorem acceptRec_held {tb : Tab} {r j : Nat} {s t u : State} (h : (takeSlot tb).leads s t j) (w : (writeSlot tb j r).leads t u ())
    (h0 : hIndex (rcWait r 0) = 0) (h1 : hIndex (rcWait r 1) = 0) (hn : rcNext r = true) :
    (acceptRec tb r).leads s (u.setPart tb.p fun q => { q with held := q.held ++ [j], armed := true }) () := by
  refine M.leads_bind h (M.leads_bind w ?_)
  unfold waitFirst waitSecond readyRec
  rw [if_pos h0, if_pos h1]
  refine M.leads_get_bind ?_
  rw [hn]
  exact M.leads_upd _ _

/-- The state in which a record has been queued. -/
def State.withQueued (s : State) (c p j r : Nat) : State := s.setCore c ((s.core c).queued p j r (dieOf c))

theorem State.core_withQueued (s : State) (c p j r k : Nat) : ∃ l, (s.withQueued c p j r).core k = { s.core k with deque := l } := by
  by_cases h : k = c
  · subst h
    exact ⟨_, State.core_setCore_self ..⟩
  · exact ⟨_, State.core_setCore_ne _ _ h⟩

/-- A record is queued on the deque that it goes to. -/
theorem State.mem_withQueued (s : State) (p j r : Nat) : let t := s.withQueued (s.dequeOf p r) p j r
    ∃ x ∈ (t.core (t.dequeOf p r)).deque, x.pnode = p ∧ x.slot = j ∧ x.data = BitVec.ofNat 64 (rcData r) := by
  have same : (s.withQueued (s.dequeOf p r) p j r).dequeOf p r = s.dequeOf p r := by
    refine dequeOf_congr (s := s) (t := s.withQueued (s.dequeOf p r) p j r) rfl (fun k => ?_) p r
    obtain ⟨l, e⟩ := s.core_withQueued (s.dequeOf p r) p j r k
    rw [e]
  dsimp only
  rw [same, State.withQueued, State.core_setCore_self]
  exact ⟨_, List.mem_append_right _ List.mem_cons_self, rfl, rfl, rfl⟩

/-- The first record of a partition that runs, which waits on nothing, is accepted when its slot can be written. -/
theorem reaches_acceptRec_first {tb : Tab} {r : Nat} {s : State} (known : (s.part? tb.p).isSome = true) (pool : (s.part tb.p).pool = [])
    (held : (s.part tb.p).held = []) (running : (s.part tb.p).st = .running)
    (h0 : hIndex (rcWait r 0) = 0) (h1 : hIndex (rcWait r 1) = 0) (hv : rcVent r = false)
    (write : ∀ j < 2 ^ tb.log, (writeSlot tb j r).Reaches (s.tookSlot tb.p j) fun u _ => LaunchMap.OnlyStored (s.tookSlot tb.p j) u) :
    (acceptRec tb r).Reaches s fun t _ => ∃ j, AcceptedFirst tb.p r j s t := by
  obtain ⟨j, hj, take⟩ := leads_takeSlot tb s
  obtain ⟨u, _, stored, only⟩ := write j hj
  have part : u.part tb.p = { s.part tb.p with pool := [j] } := by
    obtain ⟨_, _, _, rfl⟩ := only
    exact State.part_tookSlot known pool j
  have known' : (u.part? tb.p).isSome = true := by
    obtain ⟨_, _, _, rfl⟩ := only
    exact State.known_tookSlot known j
  obtain ⟨vfs, pres, core⟩ : u.vfs = s.vfs ∧ u.pres = s.pres ∧ u.core = s.core := by
    obtain ⟨_, _, _, rfl⟩ := only
    exact ⟨rfl, rfl, rfl⟩
  cases hn : rcNext r
  case true =>
    refine .of_leads (acceptRec_held take stored h0 h1 hn) ⟨j, vfs, pres, ?_, fun c => ⟨(s.core c).deque, congrFun core c⟩, by simp [hn]⟩
    rw [State.part_setPart_self known', part, Part.accepted, if_pos hn]
    dsimp only
    rw [held]
    rfl
  case false =>
    refine .of_leads (acceptRec_at take stored h0 h1 hn hv (by rw [part, running]; decide)) ⟨j, vfs, pres, ?_, fun c => ?_, fun _ => ?_⟩
    · rw [Part.accepted, if_neg (by rw [hn]; decide)]
      exact part
    · obtain ⟨l, e⟩ := u.core_withQueued (u.dequeOf tb.p r) tb.p j r c
      exact ⟨l, e.trans (by rw [core])⟩
    · exact u.mem_withQueued tb.p j r

/-! ### The steps of a launch (R139) -/

/-- The address of a future table that a launch keeps is that of its descriptor, when it lies on 32 bytes below 2^52. -/
theorem toNat_csrMerge_futbase {a : Nat} (low : a < 2 ^ 52) (align : a % 32 = 0) : (csrMerge cFUTBASE 0 (BitVec.ofNat 64 a)).toNat = a := by
  have field : ∀ i < 64, (csrMask cFUTBASE).getLsbD i = (decide (5 ≤ i) && decide (i < 52)) := by decide
  have inside : BitVec.ofNat 64 a &&& csrMask cFUTBASE = BitVec.ofNat 64 a := by
    refine BitVec.eq_of_getLsbD_eq fun i hi => ?_
    rw [BitVec.getLsbD_and, field i hi, BitVec.getLsbD_ofNat]
    by_cases below : i < 5
    · have zero : a.testBit i = (a % 2 ^ 5).testBit i := by rw [Nat.testBit_mod_two_pow, decide_eq_true below, Bool.true_and]
      rw [zero, show a % 2 ^ 5 = 0 from align, Nat.zero_testBit, Bool.and_false, Bool.false_and]
    by_cases above : i < 52
    · simp [above]; omega
    · rw [Nat.testBit_lt_two_pow (low.trans_le (Nat.pow_le_pow_right (by decide) (Nat.not_lt.1 above))), Bool.and_false, Bool.false_and]
  calc (csrMerge cFUTBASE 0 (BitVec.ofNat 64 a)).toNat = (BitVec.ofNat 64 a).toNat := by
        rw [csrMerge, inside, show (0 : Word) &&& ~~~csrMask cFUTBASE = 0#64 from BitVec.zero_and, BitVec.zero_or]
    _ = a := by rw [BitVec.toNat_ofNat]; omega

/-- A partition that has been launched with a descriptor, and has no record yet. -/
def Part.launched (d : Nat) (q : Part) : Part :=
  { q.unbound with
    st := .running, mailbox := [], mbq := [], ebudget := ldEBUDGET d, erem := 1000 * ldEBUDGET d, futlog := ldFUTLOG d,
    futbase := csrMerge cFUTBASE 0 (BitVec.ofNat 64 (ldFUTBASE d)), sliceLeft := q.slice }

/-- A partition has its new address space, of which no interface keeps anything. -/
def State.respaced (s : State) (fn p root : Nat) : State :=
  (Upd.dev fun v => { v with roots := SMap.put v.roots (asidKey fn p) root, tlb := v.tlb.filter fun e => !(e.ten == fn && e.pnode == p) }).apply s

theorem launchOk_iff {fn p d : Nat} : launchOk fn p d = true ↔
    ldRes d = 0 ∧ bitsOf d 448 6 = fn ∧ bitsOf d 432 11 = p ∧ 10 ≤ ldFUTLOG d ∧ ldFUTLOG d ≤ 20 ∧
      ldFUTBASE d % 32 = 0 ∧ ldTROOT d % 2 ^ 14 = 0 ∧ ldPMAP d % 16 = 0 ∧ ldROOT d % 64 = 0 := by
  simp [launchOk, and_assoc]

theorem State.ten_of_owns {s : State} {fn p : Nat} (h : s.owns fn p = true) (vf : fn < PF) : (s.part p).ten = some fn := by
  unfold State.owns at h
  split at h
  · next q hq =>
    rw [State.part_of_some hq]
    rw [if_pos vf] at h
    exact eq_of_beq h
  · cases h

/-- The future table of a descriptor. -/
def launchMap (fn d : Nat) (loc : Nat → Nat) : LaunchMap := ⟨fn, ldTROOT d, ldFUTBASE d, 104 * 2 ^ ldFUTLOG d, loc⟩

theorem LaunchMap.Stands.opened {m : LaunchMap} {p : Nat} {s t : State} (h : m.Stands s t)
    (roots : t.dev.roots = (s.respaced m.fn p m.root).dev.roots) (tlb : t.dev.tlb = (s.respaced m.fn p m.root).dev.tlb) : m.Opened p s t where
  toStands := h
  root := roots ▸ SMap.find_put_self ..
  kept e he ten pnode := by
    rw [tlb] at he
    have other := (List.mem_filter.1 he).2
    rw [ten, pnode] at other
    simp at other

/-- The state of a launch before its root record is accepted. -/
structure Launched (m : LaunchMap) (p d : Nat) (s t : State) : Prop where
  opened : m.Opened p s t
  pres : t.pres = s.pres
  known : (t.part? p).isSome = true
  part : t.part p = (s.part p).launched d
  armed : ∀ c ∈ s.nodeCores p, (t.core c).armed d

/-- Accepting the root record in the table of a launched partition. -/
def acceptRoot (fn p r : Nat) : M Unit := do
  let s ← get
  acceptRec (s.tabOf (fnWho fn) p) r

/-- The first five steps of a launch on the cores of a partition, with what follows them. -/
theorem launchAll_eq (fn p d : Nat) (pmap : List (BitVec 128)) (r : Nat) : launchAll fn p d pmap r = (do
    let s ← get
    upd (.dev fun v => { v with roots := SMap.put v.roots (asidKey fn p) (ldTROOT d),
                                tlb := v.tlb.filter fun e => !(e.ten == fn && e.pnode == p) })
    clearTable (fnWho fn) fn (ldTROOT d) (ldFUTBASE d) (ldFUTLOG d)
    each (launchCore d pmap) (s.nodeCores p)
    resetEvents p
    setPartM p (Part.launched d)
    acceptRoot fn p r) := rfl

section
variable {fn p d r : Nat} {loc : Nat → Nat} {s : State} (h : s.LaunchReady fn p d r loc)
include h

theorem good_launchMap : (launchMap fn d loc).Good s where
  aligned := by
    obtain ⟨-, -, -, -, -, base, root, -⟩ := launchOk_iff.1 h.ok
    exact ⟨base, show ldTROOT d % 8 = 0 by omega⟩
  mapped i hi := (h.table i hi).1
  apart i hi w hw := (h.apart i hi w hw).2

/-- A launch comes to its root record. -/
theorem reaches_launchAll (ho : s.owns fn p = true) (pmap : List (BitVec 128)) {Q : State → Unit → Prop}
    (go : ∀ t, Launched (launchMap fn d loc) p d s t → (acceptRoot fn p r).Reaches t Q) : (launchAll fn p d pmap r).Reaches s Q := by
  rw [launchAll_eq]
  refine .get (.upd_bind ?_)
  have respaced : (launchMap fn d loc).Stands s (s.respaced fn p (ldTROOT d)) := ⟨rfl, h.clean, fun _ _ _ _ => ⟨rfl, rfl⟩⟩
  refine .bind (reaches_clearTable (good_launchMap h) (Nat.mul_le_mul_right _ (by decide)) respaced) fun t _ ⟨stands, memory⟩ => ?_
  have opened : (launchMap fn d loc).Opened p s t := by
    obtain ⟨_, _, _, _, rfl⟩ := memory
    exact stands.opened rfl rfl
  have unlined : ∀ c ∈ s.nodeCores p, (t.core c).unlined := by
    obtain ⟨_, _, _, _, rfl⟩ := memory
    exact h.empty
  refine .bind (reaches_launchCores pmap _ unlined) fun u _ ⟨cores, armed⟩ => .keeps_bind (keepsEvents_resetEvents p) fun v events =>
    .upd_bind (go _ ?_)
  obtain ⟨_, _, _, _, rfl⟩ := memory
  obtain ⟨_, _, rfl⟩ := cores.only
  obtain ⟨_, _, _, rfl⟩ := events
  exact ⟨⟨⟨opened.vfs, opened.clean, opened.words⟩, opened.root, opened.kept⟩, rfl,
    (State.partOpt_setPart_isSome ..).trans (State.owns_isSome ho), State.part_setPart_self (State.owns_isSome ho) _, armed⟩

/-- The root record is accepted in the table of the launched partition. -/
theorem reaches_acceptRoot (ho : s.owns fn p = true) {t : State} (launched : Launched (launchMap fn d loc) p d s t) :
    (acceptRoot fn p r).Reaches t fun u _ => ∃ j, AcceptedFirst p r j t u := by
  obtain ⟨-, h0, h1, hv⟩ := h.record
  obtain ⟨-, function, -⟩ := launchOk_iff.1 h.ok
  have vf : fn < PF := function ▸ Nat.mod_lt _ (by decide)
  obtain ⟨low, -⟩ := (good_launchMap h).mapped 0 (Nat.mul_pos (by decide) (Nat.two_pow_pos _))
  refine .get (reaches_acceptRec_first launched.known ?_ ?_ ?_ h0 h1 hv fun j hj => ?_)
  · exact congrArg Part.pool launched.part
  · exact congrArg Part.held launched.part
  · exact congrArg Part.st launched.part
  have took : (launchMap fn d loc).Opened p s (t.tookSlot p j) :=
    ⟨⟨launched.opened.vfs, launched.opened.clean, launched.opened.words⟩, launched.opened.root, launched.opened.kept⟩
  have log : (t.tabOf (fnWho fn) p).log = ldFUTLOG d := congrArg Part.futlog launched.part
  refine took.reaches_writeSlot (good_launchMap h) ?_ rfl ?_ hj ?_ r
  · show ((t.part p).ten).getD 0 = fn
    rw [launched.part]
    exact congrArg (Option.getD · 0) (State.ten_of_owns ho vf)
  · show (t.part p).futbase.toNat = ldFUTBASE d
    rw [launched.part]
    exact toNat_csrMerge_futbase low (good_launchMap h).aligned.1
  · rw [log]
    exact Nat.mul_le_mul_right _ (by decide)

/-- A launch whose descriptor, placement map, root record and table are mapped to HBM, and in order, completes. -/
theorem launch_completes (hc : s.commanded fn 0x01 p) (ho : s.owns fn p = true) (hs : (s.part p).st = .idle) :
    ∃ t u j, exec (.launch fn) s = .next (u.cmdDone fn 0) ∧ Launched (launchMap fn d loc) p d s t ∧ AcceptedFirst p r j t u := by
  obtain ⟨x, desc, descClean, hd⟩ := h.desc
  obtain ⟨y, root, rootClean, hr⟩ := h.root
  obtain ⟨record, h0, h1, -⟩ := h.record
  obtain ⟨es, pmap⟩ := leads_launchReads (fn := fn) (core := s.serviceOf p) (root := ldTROOT d) (n := 16) h.clean
    ((List.range 16).map fun k => ldPMAP d + 16 * k) fun a ha => by
      obtain ⟨k, hk, rfl⟩ := List.mem_map.1 ha
      exact h.pmap k (List.mem_range.1 hk)
  rw [List.map_map] at pmap
  obtain ⟨u, _, all, t, launched, j, accepted⟩ := reaches_launchAll h ho (es.map (BitVec.ofNat 128))
    (Q := fun u _ => ∃ t, Launched (launchMap fn d loc) p d s t ∧ ∃ j, AcceptedFirst p r j t u)
    fun t launched => (reaches_acceptRoot h ho launched).mono fun u _ accepted => ⟨t, launched, accepted⟩
  have readRoot := leads_launchReads_cons (core := s.serviceOf p) (m := []) h.clean root rootClean (M.leads_pure _ _)
  rw [hr] at readRoot
  refine ⟨t, u, j, ?_, launched, accepted⟩
  refine launch_described hc ho hs h.aligned (leads_gpaBytes h.clean h.aligned desc) (State.marked_clean descClean)
    ((congrArg leNat (State.map_fst_marked ..)).trans hd) ?_
  have walks := M.leads_each (pagesOf (ldFUTBASE d) (104 * 2 ^ ldFUTLOG d)) fun a _ => readyWalkFrom_none (t := fn) (va := a) h.clean 3 1 (ldTROOT d)
  have table := launchTable_none (good_launchMap h).aligned.1 fun i hi => (h.table i hi).1
  exact (launchFrom_read h.ok pmap readRoot walks table).2 record h0 h1 all

end

/-- Settles O45: every check of R367 ends the launch with its RESULT, and what the steps of R139 change leaves the page tables of the launched
address space as they are, so that the root record can be stored in its slot. -/
theorem launchCommand : Obligations.LaunchCommand := by
  refine ⟨fun fn p d r es bs s s1 s2 s3 s4 u hc ho hs => ?_, fun fn p d r loc s hc ho hs h => ?_, launched_registers⟩
  · have early := launch_undescribed (s1 := s1) hc ho hs
    refine ⟨early.1, early.2, fun hg hb hm hd => ⟨fun bad => ?_, fun hok hp hr hw ht => ?_⟩⟩
    · exact launch_described hc ho hs hg hb hm hd (launchFrom_malformed bad)
    · have read := launchFrom_read (fn := fn) (p := p) (t := u) hok hp hr hw ht
      exact ⟨fun bad => launch_described hc ho hs hg hb hm hd (read.1 bad),
        fun good h0 h1 ha => launch_described hc ho hs hg hb hm hd (read.2 good h0 h1 ha)⟩
  · obtain ⟨t, u, j, run, launched, accepted⟩ := launch_completes h hc ho hs
    have part : (u.cmdDone fn 0).part p = ((s.part p).launched d).accepted r j := accepted.part.trans (congrArg _ launched.part)
    refine ⟨_, j, run, State.ended_cmdDone (accepted.vfs.trans launched.opened.vfs) fn 0, ?_⟩
    rw [part]
    have armed : ∀ c ∈ s.nodeCores p, (u.core c).armed d := fun c hc => by
      obtain ⟨l, same⟩ := accepted.core c
      rw [same]
      exact launched.armed c hc
    cases next : rcNext r
    case true =>
      rw [Part.accepted, if_pos next, if_pos rfl]
      exact ⟨rfl, rfl, rfl, rfl, rfl, rfl, armed⟩
    case false =>
      have deque : (u.cmdDone fn 0).dequeOf p r = u.dequeOf p r := dequeOf_congr (s := u) (t := u.cmdDone fn 0) rfl (fun _ => rfl) p r
      rw [deque, Part.accepted, if_neg (by rw [next]; decide), if_neg (by decide)]
      exact ⟨rfl, rfl, rfl, rfl, rfl, accepted.queued next, armed⟩

end Sys2Proof.Machine
end

section
/-!
SUPPORT. The decoder on the words of the encoder: the fields of each format (R164), the operands read back from their codes (R166, R167,
R173), and the decoder that each opcode selects. A slice of a concatenation is the slice of its part; the bit arithmetic of that is left to `grind`.
-/

namespace Sys2Proof.Dec

/-! ### The fields of a word of each format (R164) -/

section
variable {o : BitVec 7} {d r a : BitVec 5}

@[simp] theorem fields_rk (f : BitVec 8) (s : BitVec 7) :
    op (Enc.rk f s r d o) = o ∧ rd (Enc.rk f s r d o) = d ∧ rs1 (Enc.rk f s r d o) = r ∧
      s2 (Enc.rk f s r d o) = s ∧ f8 (Enc.rk f s r d o) = f := by
  simp only [op, rd, rs1, s2, f8, Enc.rk]
  grind

@[simp] theorem fields_rka (f : BitVec 8) (w : Bool) :
    op (Enc.rka f w a r d o) = o ∧ rd (Enc.rka f w a r d o) = d ∧ rs1 (Enc.rka f w a r d o) = r ∧
      rs2 (Enc.rka f w a r d o) = a ∧ bit22 (Enc.rka f w a r d o) = 0#1 ∧ bitW (Enc.rka f w a r d o) = Enc.b1 w := by
  simp only [op, rd, rs1, rs2, bit22, bitW, Enc.rka]
  grind

@[simp] theorem fields_i (f : BitVec 3) (k : BitVec 12) :
    op (Enc.i f k r d o) = o ∧ rd (Enc.i f k r d o) = d ∧ rs1 (Enc.i f k r d o) = r ∧ imm12 (Enc.i f k r d o) = k ∧
      f3 (Enc.i f k r d o) = f := by
  simp only [op, rd, rs1, imm12, f3, Enc.i]
  grind

@[simp] theorem fields_u (k : BitVec 20) : op (Enc.u k d o) = o ∧ rd (Enc.u k d o) = d ∧ imm20 (Enc.u k d o) = k := by
  simp only [op, rd, imm20, Enc.u]
  grind

@[simp] theorem fields_m (f : BitVec 8) (n : BitVec 4) (z : BitVec 3) :
    op (Enc.m f n z r d o) = o ∧ rd (Enc.m f n z r d o) = d ∧ rs1 (Enc.m f n z r d o) = r ∧ size (Enc.m f n z r d o) = z ∧
      reuseM (Enc.m f n z r d o) = n ∧ f8 (Enc.m f n z r d o) = f := by
  simp only [op, rd, rs1, size, reuseM, f8, Enc.m]
  grind

@[simp] theorem fields_b (f : BitVec 9) (s : BitVec 7) (an : Bool) (c : BitVec 3) :
    op (Enc.b f s r an c) = 0x06 ∧ cond (Enc.b f s r an c) = c ∧ annul (Enc.b f s r an c) = Enc.b1 an ∧
      bRs1 (Enc.b f s r an c) = r ∧ bS2 (Enc.b f s r an c) = s ∧ off9 (Enc.b f s r an c) = f := by
  simp only [op, cond, annul, bRs1, bS2, off9, Enc.b]
  grind

@[simp] theorem fields_v (f : BitVec 6) (m : BitVec 2) (s : BitVec 7) :
    op (Enc.v f m s r d o) = o ∧ rd (Enc.v f m s r d o) = d ∧ rs1 (Enc.v f m s r d o) = r ∧ s2 (Enc.v f m s r d o) = s ∧
      fmt (Enc.v f m s r d o) = m ∧ f6 (Enc.v f m s r d o) = f := by
  simp only [op, rd, rs1, s2, fmt, f6, Enc.v]
  grind

@[simp] theorem fields_t (f n : BitVec 4) (x y : BitVec 2) (l : BitVec 3) :
    op (Enc.t f n x y l a r o) = o ∧ tRs1 (Enc.t f n x y l a r o) = r ∧ tRs2 (Enc.t f n x y l a r o) = a ∧
      tfl (Enc.t f n x y l a r o) = l ∧ ts (Enc.t f n x y l a r o) = y ∧ td (Enc.t f n x y l a r o) = x ∧
      reuseT (Enc.t f n x y l a r o) = n ∧ func (Enc.t f n x y l a r o) = f := by
  simp only [op, tRs1, tRs2, tfl, ts, td, reuseT, func, Enc.t]
  grind

end

/-! ### Operands read back from their codes (R166, R167, R173) -/

@[simp] theorem tb_b1 (b : Bool) : tb (Enc.b1 b) = b := by cases b <;> rfl

@[simp] theorem s2of_s2 (x : S2) (k : S2 → D) : s2of (Enc.s2 x) k = k x := by
  cases x with
  | reg r =>
    have bits : (0#2 ++ r : BitVec 7).extractLsb' 6 1 = 0#1 ∧ (0#2 ++ r : BitVec 7).extractLsb' 5 1 = 0#1 ∧
        (0#2 ++ r : BitVec 7).extractLsb' 0 5 = r := by grind
    simp [s2of, Enc.s2, bits]
  | con c =>
    have bits : (1#1 ++ c : BitVec 7).extractLsb' 6 1 = 1#1 ∧ (1#1 ++ c : BitVec 7).extractLsb' 0 6 = c := by grind
    simp [s2of, Enc.s2, bits]

@[simp] theorem vs2of_vs2 (x : VS2) (k : VS2 → D) : vs2of (Enc.vs2 x) k = k x := by
  cases x with
  | vec v =>
    have bits : (0#3 ++ v : BitVec 7).extractLsb' 6 1 = 0#1 ∧ (0#3 ++ v : BitVec 7).extractLsb' 5 1 = 0#1 ∧
        (0#3 ++ v : BitVec 7).extractLsb' 4 1 = 0#1 ∧ (0#3 ++ v : BitVec 7).extractLsb' 0 4 = v := by grind
    simp [vs2of, Enc.vs2, bits]
  | reg r =>
    have bits : (1#2 ++ r : BitVec 7).extractLsb' 6 1 = 0#1 ∧ (1#2 ++ r : BitVec 7).extractLsb' 5 1 = 1#1 ∧
        (1#2 ++ r : BitVec 7).extractLsb' 0 5 = r := by grind
    simp [vs2of, Enc.vs2, bits]
  | con c =>
    have bits : (1#1 ++ c : BitVec 7).extractLsb' 6 1 = 1#1 ∧ (1#1 ++ c : BitVec 7).extractLsb' 0 6 = c := by grind
    simp [vs2of, Enc.vs2, bits]

@[simp] theorem vecOnly_vs2 (v : VReg) (k : VReg → D) : vecOnly (Enc.vs2 (.vec v)) k = k v := by
  simp [vecOnly]

@[simp] theorem scalarOnly_ss2 (x : S2) (k : S2 → D) : scalarOnly (Enc.ss2 x) k = k x := by
  cases x <;> simp [scalarOnly, Enc.ss2]

@[simp] theorem vr_v5 (v : VReg) (k : VReg → D) : vr (Enc.v5 v) k = k v := by
  have bits : (Enc.v5 v).extractLsb' 4 1 = 0#1 ∧ (Enc.v5 v).extractLsb' 0 4 = v := by
    simp only [Enc.v5]
    grind
  simp [vr, bits]

@[simp] theorem scopeOf_scope (s : Scope) (k : Scope → D) : scopeOf (Enc.scope s) k = k s := by cases s <;> rfl

@[simp] theorem vmemFmt_vmem (f : VMemFmt) : vmemFmt (Enc.vmem f) = f := by cases f <;> rfl

@[simp] theorem need_true (k : D) : need true k = k := rfl

/-! ### Slices of a field -/

section
variable {o : BitVec 7} {d r a : BitVec 5}

@[simp] theorem slice_rk_f8 {i n : Nat} (f : BitVec 8) (s : BitVec 7) (h : 24 ≤ i) :
    (Enc.rk f s r d o).extractLsb' i n = f.extractLsb' (i - 24) n := by
  simp only [Enc.rk]
  grind

@[simp] theorem slice_rka_f8 {i n : Nat} (f : BitVec 8) (w : Bool) (h : 24 ≤ i) :
    (Enc.rka f w a r d o).extractLsb' i n = f.extractLsb' (i - 24) n := by
  simp only [Enc.rka]
  grind

@[simp] theorem slice_i_imm {i n : Nat} (f : BitVec 3) (k : BitVec 12) (h : 17 ≤ i) (hn : i + n ≤ 29) :
    (Enc.i f k r d o).extractLsb' i n = k.extractLsb' (i - 17) n := by
  simp only [Enc.i]
  grind

@[simp] theorem slice_i_rd {i n : Nat} (f : BitVec 3) (k : BitVec 12) (h : 7 ≤ i) (hn : i + n ≤ 12) :
    (Enc.i f k r d o).extractLsb' i n = d.extractLsb' (i - 7) n := by
  simp only [Enc.i]
  grind

@[simp] theorem slice_v_fmt {i n : Nat} (f : BitVec 6) (m : BitVec 2) (s : BitVec 7) (h : 24 ≤ i) (hn : i + n ≤ 26) :
    (Enc.v f m s r d o).extractLsb' i n = m.extractLsb' (i - 24) n := by
  simp only [Enc.v]
  grind

@[simp] theorem slice_v_f6 {i n : Nat} (f : BitVec 6) (m : BitVec 2) (s : BitVec 7) (h : 26 ≤ i) :
    (Enc.v f m s r d o).extractLsb' i n = f.extractLsb' (i - 26) n := by
  simp only [Enc.v]
  grind

@[simp] theorem slice_t_tfl {i n : Nat} (f m : BitVec 4) (x y : BitVec 2) (l : BitVec 3) (h : 17 ≤ i) (hn : i + n ≤ 20) :
    (Enc.t f m x y l a r o).extractLsb' i n = l.extractLsb' (i - 17) n := by
  simp only [Enc.t]
  grind

end

/-! ### Fields made of parts (R170 to R175) -/

/-- `ldv` and `stv`: SCOPE and the kind of access. -/
@[simp] theorem parts_version (s k : BitVec 3) :
    (0#2 ++ s ++ k : BitVec 8).extractLsb' 0 3 = k ∧ (0#2 ++ s ++ k : BitVec 8).extractLsb' 3 3 = s ∧
      (0#2 ++ s ++ k : BitVec 8).extractLsb' 6 2 = 0#2 := by
  grind

/-- `amo`: operation and ORD. -/
@[simp] theorem parts_amo (f m : BitVec 4) :
    (f ++ m : BitVec 8).extractLsb' 0 4 = m ∧ (f ++ m : BitVec 8).extractLsb' 4 4 = f := by
  grind

/-- `red`: operation and three zero bits, then the unsigned bit. -/
@[simp] theorem parts_red (c : BitVec 7) (u : BitVec 1) :
    (c ++ u : BitVec 8).extractLsb' 0 1 = u ∧ (c ++ u : BitVec 8).extractLsb' 1 3 = c.extractLsb' 0 3 ∧
      (c ++ u : BitVec 8).extractLsb' 4 4 = c.extractLsb' 3 4 := by
  grind

/-- `slli`, `srli`, `srai`: the kind of shift and its amount. -/
@[simp] theorem parts_shift (c h : BitVec 6) :
    (c ++ h : BitVec 12).extractLsb' 0 6 = h ∧ (c ++ h : BitVec 12).extractLsb' 6 2 = c.extractLsb' 0 2 ∧
      (c ++ h : BitVec 12).extractLsb' 8 4 = c.extractLsb' 2 4 := by
  grind

/-- `fence`: SCOPE and kind. -/
@[simp] theorem parts_fence (s : BitVec 3) (k : BitVec 2) :
    (0#7 ++ s ++ k : BitVec 12).extractLsb' 0 2 = k ∧ (0#7 ++ s ++ k : BitVec 12).extractLsb' 2 3 = s ∧
      (0#7 ++ s ++ k : BitVec 12).extractLsb' 5 7 = 0#7 := by
  grind

/-- `cpf`: the reuse field in place of rd. -/
@[simp] theorem parts_reuse (n : BitVec 4) :
    (0#1 ++ n : BitVec 5).extractLsb' 0 4 = n ∧ (0#1 ++ n : BitVec 5).extractLsb' 4 1 = 0#1 := by
  grind

/-- `smap` and `sunmap`: the frame. -/
@[simp] theorem parts_frame (f : BitVec 5) :
    (0#7 ++ f : BitVec 12).extractLsb' 0 5 = f ∧ (0#7 ++ f : BitVec 12).extractLsb' 5 7 = 0#7 := by
  grind

/-- `ev.arrive`, `ev.wait`, `ev.chain`: the barrier below what else the immediate holds. -/
@[simp] theorem parts_barrier (c : BitVec 10) (b : BitVec 2) :
    (c ++ b : BitVec 12).extractLsb' 0 2 = b ∧ (c ++ b : BitVec 12).extractLsb' 2 10 = c ∧
      (c ++ b : BitVec 12).extractLsb' 4 1 = c.extractLsb' 2 1 ∧ (c ++ b : BitVec 12).extractLsb' 2 3 = c.extractLsb' 0 3 ∧
      (c ++ b : BitVec 12).extractLsb' 5 3 = c.extractLsb' 3 3 ∧ (c ++ b : BitVec 12).extractLsb' 8 4 = c.extractLsb' 6 4 := by
  grind

/-- `ev.wait.e` and `ev.signal`: bit 4 of the immediate tells the line from the barrier. -/
@[simp] theorem parts_line (c : BitVec 8) (l : BitVec 4) :
    (c ++ l : BitVec 12).extractLsb' 0 4 = l ∧ (c ++ l : BitVec 12).extractLsb' 4 8 = c ∧
      (c ++ l : BitVec 12).extractLsb' 4 1 = c.extractLsb' 0 1 ∧ (c ++ l : BitVec 12).extractLsb' 5 7 = c.extractLsb' 1 7 := by
  grind

/-- `ev.lock` and `ev.unlock`: the lock. -/
@[simp] theorem parts_lock (k : BitVec 3) :
    (0#9 ++ k : BitVec 12).extractLsb' 0 3 = k ∧ (0#9 ++ k : BitVec 12).extractLsb' 3 9 = 0#9 := by
  grind

/-- `hjoin`: the helper mask. -/
@[simp] theorem parts_join (k : BitVec 10) :
    (0#1 ++ k ++ 0#1 : BitVec 12).extractLsb' 0 1 = 0#1 ∧ (0#1 ++ k ++ 0#1 : BitVec 12).extractLsb' 1 10 = k ∧
      (0#1 ++ k ++ 0#1 : BitVec 12).extractLsb' 11 1 = 0#1 := by
  grind

/-- The V format without a format code: one flag. -/
@[simp] theorem parts_fmt (b : BitVec 1) :
    (0#1 ++ b : BitVec 2).extractLsb' 0 1 = b ∧ (0#1 ++ b : BitVec 2).extractLsb' 1 1 = 0#1 := by
  grind

/-- Vector memory: the reuse field and the addressing form. -/
@[simp] theorem parts_vmem (n : BitVec 4) (c : BitVec 2) :
    (n ++ c : BitVec 6).extractLsb' 0 2 = c ∧ (n ++ c : BitVec 6).extractLsb' 2 4 = n := by
  grind

/-- `vcvt`: destination and source format. -/
@[simp] theorem parts_vcvt (x y : BitVec 3) :
    (x ++ y : BitVec 6).extractLsb' 0 3 = y ∧ (x ++ y : BitVec 6).extractLsb' 3 3 = x := by
  grind

/-- `vent`: the flags NOCQ and DEC. -/
@[simp] theorem parts_vent (q d : BitVec 1) :
    (0#1 ++ q ++ d : BitVec 3).extractLsb' 0 1 = d ∧ (0#1 ++ q ++ d : BitVec 3).extractLsb' 1 1 = q ∧
      (0#1 ++ q ++ d : BitVec 3).extractLsb' 2 1 = 0#1 := by
  grind

@[simp] theorem b1_false_beq_zero : (Enc.b1 false == 0#1) = true := rfl
@[simp] theorem v5_zero : Enc.v5 0#4 = 0#5 := rfl

/-! ### The shapes of the RK format (R164) -/

section
variable {f : BitVec 8} {o : BitVec 7} {d r : BitVec 5}

@[simp] theorem rk3_rk (x : S2) (c : XReg → XReg → S2 → Instr) : rk3 (Enc.rk f (Enc.s2 x) r d o) c = .ok (c d r x) := by
  simp [rk3]

@[simp] theorem rk2_rk (c : XReg → XReg → Instr) : rk2 (Enc.rk f 0#7 r d o) c = .ok (c d r) := by
  simp [rk2]

@[simp] theorem rk1s_rk (x : S2) (c : XReg → S2 → Instr) : rk1s (Enc.rk f (Enc.s2 x) r 0#5 o) c = .ok (c r x) := by
  simp [rk1s]

@[simp] theorem rk1_rk (c : XReg → Instr) : rk1 (Enc.rk f 0#7 r 0#5 o) c = .ok (c r) := by
  simp [rk1]

@[simp] theorem rkd_rk (c : XReg → Instr) : rkd (Enc.rk f 0#7 0#5 d o) c = .ok (c d) := by
  simp [rkd]

end

/-! ### The opcode selects the decoder of its table (R170 to R175) -/

section
variable {d r a : BitVec 5} {s : BitVec 7}

@[simp] theorem decode_rk (f : BitVec 8) :
    decode (Enc.rk f s r d 0x01#7) = decOp (Enc.rk f s r d 0x01#7) ∧
    decode (Enc.rk f s r d 0x02#7) = decOpw (Enc.rk f s r d 0x02#7) ∧
    decode (Enc.rk f s r d 0x0B#7) = decVersion (Enc.rk f s r d 0x0B#7) ∧
    decode (Enc.rk f s r d 0x11#7) = decMsg (Enc.rk f s r d 0x11#7) ∧
    decode (Enc.rk f s r d 0x13#7) = decFuture (Enc.rk f s r d 0x13#7) ∧
    decode (Enc.rk f s r d 0x14#7) = decPort (Enc.rk f s r d 0x14#7) ∧
    decode (Enc.rk f s r d 0x15#7) = decCaldera (Enc.rk f s r d 0x15#7) := by
  simp [decode]

@[simp] theorem decode_rka (f : BitVec 8) (w : Bool) :
    decode (Enc.rka f w a r d 0x0C#7) = decAmo (Enc.rka f w a r d 0x0C#7) ∧
    decode (Enc.rka f w a r d 0x0D#7) = decRed (Enc.rka f w a r d 0x0D#7) := by
  simp [decode]

@[simp] theorem decode_i (f : BitVec 3) (k : BitVec 12) :
    decode (Enc.i f k r d 0x03#7) = decOpi (Enc.i f k r d 0x03#7) ∧
    decode (Enc.i f k r d 0x0E#7) = decFence (Enc.i f k r d 0x0E#7) ∧
    decode (Enc.i f k r d 0x0F#7) = decStash (Enc.i f k r d 0x0F#7) ∧
    decode (Enc.i f k r d 0x10#7) = decEvent (Enc.i f k r d 0x10#7) ∧
    decode (Enc.i f k r d 0x12#7) = decTask (Enc.i f k r d 0x12#7) ∧
    decode (Enc.i f k r d 0x16#7) = decSystem (Enc.i f k r d 0x16#7) := by
  simp [decode]

@[simp] theorem decode_m (f : BitVec 8) (n : BitVec 4) (z : BitVec 3) :
    decode (Enc.m f n z r d 0x09#7) = decLoad (Enc.m f n z r d 0x09#7) ∧
    decode (Enc.m f n z r d 0x0A#7) = decStore (Enc.m f n z r d 0x0A#7) := by
  simp [decode]

@[simp] theorem decode_b (f : BitVec 9) (an : Bool) (c : BitVec 3) : decode (Enc.b f s r an c) = decBranch (Enc.b f s r an c) := by
  simp [decode]

@[simp] theorem decode_v (f : BitVec 6) (m : BitVec 2) :
    decode (Enc.v f m s r d 0x20#7) = decVcfg (Enc.v f m s r d 0x20#7) ∧
    decode (Enc.v f m s r d 0x21#7) = decVmem (Enc.v f m s r d 0x21#7) .vld .vlds .vldx ∧
    decode (Enc.v f m s r d 0x22#7) = decVmem (Enc.v f m s r d 0x22#7) .vst .vsts .vstx ∧
    decode (Enc.v f m s r d 0x23#7) = decVint (Enc.v f m s r d 0x23#7) ∧
    decode (Enc.v f m s r d 0x24#7) = decVflt (Enc.v f m s r d 0x24#7) ∧
    decode (Enc.v f m s r d 0x25#7) = decVcvt (Enc.v f m s r d 0x25#7) := by
  simp [decode]

@[simp] theorem decode_t (f n : BitVec 4) (x y : BitVec 2) (l : BitVec 3) :
    decode (Enc.t f n x y l a r 0x30#7) = decTarith (Enc.t f n x y l a r 0x30#7) ∧
    decode (Enc.t f n x y l a r 0x31#7) = decTmem (Enc.t f n x y l a r 0x31#7) ∧
    decode (Enc.t f n x y l a r 0x34#7) = decRewrite (Enc.t f n x y l a r 0x34#7) ∧
    decode (Enc.t f n x y l a r 0x38#7) = decVent (Enc.t f n x y l a r 0x38#7) := by
  simp [decode]

end

end Sys2Proof.Dec
end

section
/-!
SUPPORT. Decoding is a left inverse of encoding on well-formed instructions (R164, R171, R429, R430).
-/

namespace Sys2Proof

open Dec Enc in
/-- Every row of the encoding tables reads back, opcode by opcode; well-formedness is what `csrr` to `csrc`, `ctxrd`, `ctxwr` and `vcvt` need. -/
theorem decode_encode {i : Instr} {w : IWord} (wf : i.wellFormed = true) (h : encode i = some w) : decode w = .ok i := by
  cases i with
  | add | sub | and | or | xor | andn | sll | srl | sra | slt | sltu | min | max | minu | maxu | sel | mul | mulh | mulhu
  | quo | quou | mod | modu | ext | ins =>
    cases h; simp [decOp, opf]
  | clz | ctz | popc | bswap => cases h; simp [decOp]
  | lea n =>
    cases h
    obtain rfl | rfl | rfl | rfl : n = 0 ∨ n = 1 ∨ n = 2 ∨ n = 3 := by grind
    all_goals simp [decOp, opf]
  | addw | subw | sllw | srlw | sraw | mulw => cases h; simp [decOpw, opwf]
  | addi | andi | ori | xori | slti | sltiu | slli | srli | srai => cases h; simp [decOpi, opi]
  | lui | auipc | jal | jalr => cases h; simp [decode]
  | beq | bne | blt | bge | bltu | bgeu => cases h; simp [decBranch]
  | lb | lh | lw | ld | lbu | lhu | lwu => cases h; simp [decLoad, Dec.m]
  | sb | sh | sw | sd => cases h; simp [decStore, Dec.m]
  | ldv | stv | rclm => cases h; simp [decVersion]
  | amoAdd | amoMin | amoMax | amoMinu | amoMaxu | amoAnd | amoOr | amoXor | amoSwap | amoCas | amoFadd =>
    cases h; simp [decAmo, amo]
  | redAdd | redFadd | redMin | redMax | redOr => cases h; simp [decRed, red]
  | fence k => cases h; cases k <;> simp [decFence, kind]
  | cwb | cinv | cpf => cases h; simp [decFence]
  | smap | sunmap => cases h; simp [decStash]
  | evArrive | evWait | evWaitE | evSignal | evLock | evUnlock => cases h; simp [decEvent, ev]
  | evChain s => cases h; cases s <;> simp [decEvent, ev, chain]
  | msend | mrecv | mpoll | cqPop => cases h; simp [decMsg]
  | post | taskEnd | ssEnd | hstart | hjoin | hexit => cases h; simp [decTask]
  | futNew | futSet | futGet | futChk | futFree => cases h; simp [decFuture]
  | pload | pput | pclose | pget | prel | pstat => cases h; simp [decPort]
  | cmAlloc | cmFree | cmQuery => cases h; simp [decCaldera]
  | csrr | csrw | csrs | csrc => cases h; simp [decSystem, show csrListed _ = true from wf]
  | ecall | brk | xret | park | fenceI | hnotify | ctxres | ctxkill => cases h; simp [decSystem, sys]
  | tlbi k => cases k <;> cases h <;> simp [decSystem, sys]
  | ctxrd | ctxwr => cases h; simp [decSystem, show ctxSelListed _ = true from wf]
  | vsetvl => cases h; simp [decVcfg]
  | vld | vlds | vldx | vst | vsts | vstx => cases h; simp [decVmem, func]
  | vadd | vsub | vmul | vand | vor | vxor | vsll | vsrl | vsra | vmin | vmax | vsel | vmand | vmor | vmnot | vslide | vbcast
  | vmvxs | vmvsx | vredsum | vredmax | vredmin => cases h; simp [decVint, vi]
  | vcmp c => cases h; cases c <;> simp [decVint, vi, vcond]
  | vfadd f | vfsub f | vfmul f | vfdiv f | vfsqrt f | vfmin f | vfmax f | vfabs f | vfneg f | vfma f | vfms f | vfnma f
  | vfredsum f => cases h; cases f <;> simp [decVflt, vf, vfmt]
  | vfcmp c f => cases h; cases c <;> cases f <;> simp [decVflt, vf, vfmt, vfcond]
  | vcvt => cases h; simp [decVcvt, show (_ != _) = true from wf]
  | tzero | tmma | tmmat | tadd | tscl | ttr | tmov => cases h; simp [decTarith]
  | tld | tbld => cases h; simp [decTmem]
  | tst n f => cases h; cases f <;> simp [decTmem, tst]
  | rwload | rwflush => cases h; simp [decRewrite]
  | ventPush | ventPushDec | ventPull | ventGath | ventScat | ventWait | ventNote => cases h; simp [decVent, vent]
  | _ => cases h -- the rows of the host, the links and the engines have no word

/-- Settles O57, by the rows of the encoding tables. -/
theorem decodeEncode : Obligations.DecodeEncode := fun _ _ => decode_encode

/-- Settles O56: each of the nine words is the encoding of its instruction, and neither 0 nor 0xFFFFFFFF has an opcode of the tables. -/
theorem decodeWords : Obligations.DecodeWords :=
  ⟨decode_encode rfl rfl, decode_encode rfl rfl, decode_encode rfl rfl, decode_encode rfl rfl, decode_encode rfl rfl,
    decode_encode rfl rfl, decode_encode rfl rfl, decode_encode rfl rfl, decode_encode rfl rfl, ⟨.opcode, rfl⟩, ⟨.opcode, rfl⟩⟩

end Sys2Proof
end

section
/-!
SUPPORT. The scalar operations, branches and jumps (R188 to R197): what the model computes for a row is the value that the row's table gives,
and each instruction of a shape runs as that shape does.
-/

namespace Sys2Proof.Machine

/-! ### The values of the rows -/

section
variable {w : Nat} (a : BitVec w) (n : Nat)

theorem shiftLeft_eq_ofNat : a <<< n = BitVec.ofNat w (a.toNat * 2 ^ n) := by
  apply BitVec.eq_of_toNat_eq
  rw [BitVec.toNat_shiftLeft, Nat.shiftLeft_eq, BitVec.toNat_ofNat]

theorem ushiftRight_eq_ofNat : a >>> n = BitVec.ofNat w (a.toNat / 2 ^ n) := by
  apply BitVec.eq_of_toNat_eq
  rw [BitVec.toNat_ushiftRight, Nat.shiftRight_eq_div_pow, BitVec.toNat_ofNat,
    Nat.mod_eq_of_lt ((Nat.div_le_self ..).trans_lt a.isLt)]

theorem sshiftRight_eq_ofInt : a.sshiftRight n = BitVec.ofInt w (a.toInt / 2 ^ n) := by
  rw [BitVec.sshiftRight_eq, Int.shiftRight_eq_div_pow]
  norm_cast

theorem mul_eq_ofNat (b : BitVec w) : a * b = BitVec.ofNat w (a.toNat * b.toNat) := by
  rw [BitVec.ofNat_mul, BitVec.ofNat_toNat, BitVec.ofNat_toNat, BitVec.setWidth_eq, BitVec.setWidth_eq]

end

theorem ofBool_decide (p : Prop) [Decidable p] : ofBool (decide p) = if p then 1 else 0 := by simp [ofBool]

theorem eq_intMin_iff (a : Word) : a = intMin ↔ a.toInt = -2 ^ 63 := BitVec.toInt_inj.symm

theorem eq_neg_one_iff (b : Word) : b = -1 ↔ b.toInt = -1 := BitVec.toInt_inj.symm

/-- R189: a zero divisor saturates by the sign of a, which is not zero there. -/
theorem quoS_eq (a b : Word) : quoS a b =
    if b = 0 then if a = 0 then 0 else if 0 < a.toInt then BitVec.ofInt 64 (2 ^ 63 - 1) else BitVec.ofInt 64 (-2 ^ 63)
    else if a.toInt = -2 ^ 63 ∧ b.toInt = -1 then BitVec.ofInt 64 (2 ^ 63 - 1)
    else BitVec.ofInt 64 (a.toInt.tdiv b.toInt) := by
  have max : intMax = BitVec.ofInt 64 (2 ^ 63 - 1) := by decide
  have min : intMin = BitVec.ofInt 64 (-2 ^ 63) := by decide
  simp only [quoS, eq_intMin_iff, eq_neg_one_iff]
  rw [← max, ← min]
  by_cases ha : a = 0
  · simp only [ha, if_true]
  · have nonzero : a.toInt ≠ 0 := fun h => ha (BitVec.toInt_inj.1 h)
    by_cases neg : a.toInt < 0
    · simp only [ha, neg, if_false, if_true, not_lt.2 neg.le]
    · simp only [ha, neg, if_false, if_true, lt_of_le_of_ne (not_lt.1 neg) nonzero.symm]

theorem modS_eq (a b : Word) : modS a b =
    if b = 0 then a
    else if a.toInt = -2 ^ 63 ∧ b.toInt = -1 then 0
    else BitVec.ofInt 64 (a.toInt - b.toInt * a.toInt.fdiv b.toInt) := by
  simp only [modS, eq_intMin_iff, eq_neg_one_iff]

theorem quoU_eq (a b : Word) : quoU a b =
    if b = 0 then if a = 0 then 0 else BitVec.ofNat 64 (2 ^ 64 - 1) else BitVec.ofNat 64 (a.toNat / b.toNat) := by
  rw [quoU, BitVec.udiv_def]
  rfl

theorem modU_eq (a b : Word) : modU a b = if b = 0 then a else BitVec.ofNat 64 (a.toNat - b.toNat * (a.toNat / b.toNat)) := by
  rw [modU, BitVec.umod_def, Nat.mod_eq_sub_mul_div]

theorem lea_eq (a b : Word) (n : Nat) : a + b * BitVec.ofNat 64 (2 ^ n) = BitVec.ofNat 64 (a.toNat + b.toNat * 2 ^ n) := by
  rw [BitVec.ofNat_add, BitVec.ofNat_mul, BitVec.ofNat_toNat, BitVec.ofNat_toNat, BitVec.setWidth_eq, BitVec.setWidth_eq]

/-- imm20 stands above twelve zero bits (R195). -/
theorem immU_eq (imm : BitVec 20) : immU imm = BitVec.ofInt 64 (imm.toInt * 2 ^ 12) := by
  show BitVec.ofInt 64 (imm ++ 0#12).toInt = _
  rw [BitVec.toInt_append]
  congr 1
  simp [mul_comm]

theorem target_eq {n : Nat} (pc : Word) (off : BitVec n) : target pc off = pc + BitVec.ofInt 64 (4 * off.toInt) := by
  rw [target, BitVec.ofInt_mul]
  rfl

theorem shiftAmount (sh : BitVec 6) : (sh.setWidth 64).toNat % 64 = sh.toNat := by
  rw [BitVec.toNat_setWidth]
  omega

/-! ### Each row runs as its shape does -/

/-- An instruction whose value is that of another function. -/
theorem opRK_congr {f g : Word → Word → Word} (h : ∀ a b, f a b = g a b) (rd rs1 : XReg) (o : S2) (s : State) :
    instr (opRK f rd rs1 o) s = instr (opRK g rd rs1 o) s := by rw [funext fun a => funext (h a)]

theorem opR_congr {f g : Word → Word} (h : ∀ a, f a = g a) (rd rs1 : XReg) (s : State) :
    instr (opR f rd rs1) s = instr (opR g rd rs1) s := by rw [funext h]

theorem branch_congr {f g : Word → Word → Bool} (h : ∀ a b, f a b = g a b) (annul : Bool) (rs1 : XReg) (o : S2) (off : BitVec 9) (s : State) :
    instr (branch f annul rs1 o off) s = instr (branch g annul rs1 o off) s := by rw [funext fun a => funext (h a)]

theorem exec_opTable : ∀ e ∈ opTable, ∀ (rd rs1 : XReg) (o : S2) (s : State), exec (e.1 rd rs1 o) s = instr (opRK e.2 rd rs1 o) s := by
  simp only [opTable, List.forall_mem_cons]
  refine ⟨opRK_congr fun _ _ => rfl, opRK_congr fun _ _ => rfl, opRK_congr fun _ _ => rfl, opRK_congr fun _ _ => rfl,
    opRK_congr fun _ _ => rfl, opRK_congr fun _ _ => rfl, ?sll, ?srl, ?sra, ?slt, ?sltu, ?min, ?max, ?minu, ?maxu, ?mul,
    opRK_congr fun _ _ => rfl, opRK_congr fun _ _ => rfl, List.forall_mem_nil _⟩
  case sll => exact opRK_congr fun a b => shiftLeft_eq_ofNat a _
  case srl => exact opRK_congr fun a b => ushiftRight_eq_ofNat a _
  case sra => exact opRK_congr fun a b => sshiftRight_eq_ofInt a _
  case slt => exact opRK_congr fun a b => ofBool_decide _
  case sltu => exact opRK_congr fun a b => ofBool_decide _
  case min => exact opRK_congr fun a b => by simp only [BitVec.slt_eq_decide, decide_eq_true_eq]
  case max => exact opRK_congr fun a b => by simp only [BitVec.slt_eq_decide, decide_eq_true_eq]
  case minu => exact opRK_congr fun a b => by simp only [BitVec.ult_eq_decide, decide_eq_true_eq]
  case maxu => exact opRK_congr fun a b => by simp only [BitVec.ult_eq_decide, decide_eq_true_eq]
  case mul => exact opRK_congr fun a b => mul_eq_ofNat a b

theorem exec_divTable : ∀ e ∈ divTable, ∀ (rd rs1 : XReg) (o : S2) (s : State), exec (e.1 rd rs1 o) s = instr (opRK e.2 rd rs1 o) s := by
  simp only [divTable, List.forall_mem_cons]
  exact ⟨opRK_congr quoS_eq, opRK_congr modS_eq, opRK_congr quoU_eq, opRK_congr modU_eq, List.forall_mem_nil _⟩

/-- The result of a word operation on the low halves (R193). -/
def wordValue (f : BitVec 32 → BitVec 32 → BitVec 32) (a b : Word) : Word := (f (a.setWidth 32) (b.setWidth 32)).signExtend 64

theorem wordValue_congr {f g : BitVec 32 → BitVec 32 → BitVec 32} (h : ∀ a b, f a b = g a b) (rd rs1 : XReg) (o : S2) (s : State) :
    instr (opW f rd rs1 o) s = instr (opRK (wordValue g) rd rs1 o) s :=
  opRK_congr (fun a b => congrArg (BitVec.signExtend 64) (h (a.setWidth 32) (b.setWidth 32))) rd rs1 o s

theorem exec_wordTable : ∀ e ∈ wordTable, ∀ (rd rs1 : XReg) (o : S2) (s : State),
    exec (e.1 rd rs1 o) s = instr (opRK (wordValue e.2) rd rs1 o) s := by
  simp only [wordTable, List.forall_mem_cons]
  exact ⟨wordValue_congr fun _ _ => rfl, wordValue_congr fun _ _ => rfl, wordValue_congr fun a b => shiftLeft_eq_ofNat a _,
    wordValue_congr fun a b => ushiftRight_eq_ofNat a _, wordValue_congr fun a b => sshiftRight_eq_ofInt a _,
    wordValue_congr fun a b => mul_eq_ofNat a b, List.forall_mem_nil _⟩

theorem exec_bitTable : ∀ e ∈ bitTable, ∀ (rd rs1 : XReg) (s : State), exec (e.1 rd rs1) s = instr (opR e.2 rd rs1) s := by
  simp only [bitTable, List.forall_mem_cons]
  exact ⟨opR_congr fun _ => rfl, opR_congr fun _ => rfl, opR_congr fun _ => congrArg _ List.countP_eq_length_filter,
    opR_congr fun _ => rfl, List.forall_mem_nil _⟩

theorem exec_immTable : ∀ e ∈ immTable, ∀ (rd rs1 : XReg) (imm : BitVec 12) (s : State),
    exec (e.1 rd rs1 imm) s = instr (opR (e.2 · imm) rd rs1) s := by
  simp only [immTable, List.forall_mem_cons]
  refine ⟨fun _ _ _ => opR_congr (fun _ => rfl) _ _, fun _ _ _ => opR_congr (fun _ => rfl) _ _, fun _ _ _ => opR_congr (fun _ => rfl) _ _,
    fun _ _ _ => opR_congr (fun _ => rfl) _ _, fun _ _ imm => opR_congr (fun a => (ofBool_decide _).trans ?_) _ _,
    fun _ _ _ => opR_congr (fun a => ofBool_decide _) _ _, List.forall_mem_nil _⟩
  rw [immS, BitVec.toInt_signExtend_of_le (by decide)]

theorem exec_shiftTable : ∀ e ∈ shiftTable, ∀ (rd rs1 : XReg) (sh : BitVec 6) (s : State),
    exec (e.1 rd rs1 sh) s = instr (opR (e.2 · sh) rd rs1) s := by
  simp only [shiftTable, List.forall_mem_cons]
  refine ⟨fun _ _ sh => opR_congr (fun a => ?_) _ _, fun _ _ sh => opR_congr (fun a => ?_) _ _, fun _ _ sh => opR_congr (fun a => ?_) _ _,
    List.forall_mem_nil _⟩
  · rw [shSll, shiftAmount, shiftLeft_eq_ofNat]
  · rw [shSrl, shiftAmount, ushiftRight_eq_ofNat]
  · rw [shSra, shiftAmount, sshiftRight_eq_ofInt]

theorem exec_branchTable : ∀ e ∈ branchTable, ∀ (annul : Bool) (rs1 : XReg) (o : S2) (off : BitVec 9) (s : State),
    exec (e.1 annul rs1 o off) s = instr (branch e.2 annul rs1 o off) s := by
  simp only [branchTable, List.forall_mem_cons]
  have ge (m n : Int) : (!decide (m < n)) = decide (n ≤ m) := by simp only [← decide_not, not_lt]
  have geu (m n : Nat) : (!decide (m < n)) = decide (n ≤ m) := by simp only [← decide_not, not_lt]
  have ne (a b : Word) : (a != b) = decide (a ≠ b) := decide_not.symm
  exact ⟨branch_congr fun _ _ => rfl, branch_congr ne, branch_congr fun _ _ => rfl, branch_congr fun _ _ => ge _ _,
    branch_congr fun _ _ => rfl, branch_congr fun _ _ => geu _ _, List.forall_mem_nil _⟩

/-- Settles O1: each row runs as `opRK` does with the value of its table. -/
theorem registerOps : Obligations.RegisterOps := by
  unfold Obligations.RegisterOps
  refine ⟨fun e he rd rs1 o s h1 h2 => ?_, fun e he rd rs1 o s h1 h2 => ?_, fun e he rd rs1 o s h1 h2 => ?_⟩
  · rw [exec_opTable e he, run_opRK rd rs1 o s _ h1 h2]
  · rw [exec_divTable e he, run_opRK rd rs1 o s _ h1 h2]
  · rw [exec_wordTable e he, run_opRK rd rs1 o s _ h1 h2]
    rfl

/-! ### Operations that read rd, and those without a source (R190, R191, R195) -/

section
variable (rd rs1 : XReg) (o : S2) (s : State) (h1 : s.readable rs1) (h2 : s.s2Readable o) (hd : s.readable rd)
include h1 h2 hd

theorem exec_ins : exec (.ins rd rs1 o) s = .next (s.wrote rd (insField (s.x rd) (s.x rs1) (s.s2 o))).retired := by
  show execIns rd rs1 o s = _
  simp only [execIns, run_instr, bind_apply, pure_apply, run_rx _ _ hd, run_rx _ _ h1, run_s2Val _ _ h2, run_wx, run_retireM, run_done]

theorem exec_sel : exec (.sel rd rs1 o) s = .next (s.wrote rd (if s.x rd = 0 then s.s2 o else s.x rs1)).retired := by
  show execSel rd rs1 o s = _
  simp only [execSel, run_instr, bind_apply, pure_apply, run_rx _ _ hd, run_rx _ _ h1, run_s2Val _ _ h2, run_wx, run_retireM, run_done]

end

section
variable (rd : XReg) (imm : BitVec 20) (s : State)

theorem exec_lui : exec (.lui rd imm) s = .next (s.wrote rd (immU imm)).retired := by
  show execLui rd imm s = _
  simp only [execLui, run_instr, bind_apply, pure_apply, run_wx, run_retireM, run_done]

theorem exec_auipc : exec (.auipc rd imm) s = .next (s.wrote rd (s.me.pc + immU imm)).retired := by
  show execAuipc rd imm s = _
  simp only [execAuipc, run_instr, bind_apply, pure_apply, run_me, run_wx, run_retireM, run_done]

end

/-- Settles O2: each row runs as its shape does, with the value that R190 to R195 give. -/
theorem bitAndImmediateOps : Obligations.BitAndImmediateOps := by
  unfold Obligations.BitAndImmediateOps
  refine ⟨⟨fun e he rd rs1 s h1 => ?bits, fun rd rs1 o s h1 h2 hd => ⟨?ext, exec_ins rd rs1 o s h1 h2 hd, ?sel⟩,
    fun n rd rs1 o s h1 h2 => ?lea⟩, fun e he rd rs1 imm s h1 => ?imm, fun e he rd rs1 sh s h1 => ?shift, fun rd imm s => ⟨?lui, ?auipc⟩⟩
  case bits => rw [exec_bitTable e he, run_opR rd rs1 s _ h1]
  case ext => exact run_opRK rd rs1 o s extField h1 h2
  case sel => rw [exec_sel rd rs1 o s h1 h2 hd, ite_not]
  case lea => exact (run_opRK rd rs1 o s _ h1 h2).trans (by rw [lea_eq])
  case imm => rw [exec_immTable e he, run_opR rd rs1 s _ h1]
  case shift => rw [exec_shiftTable e he, run_opR rd rs1 s _ h1]
  case lui => rw [exec_lui, immU_eq]
  case auipc => rw [exec_auipc, immU_eq]

/-- Settles O3: a branch runs as its condition says, and the target of each is that of R165. -/
theorem branchesAndJumps : Obligations.BranchesAndJumps := by
  unfold Obligations.BranchesAndJumps
  refine ⟨fun e he annul rs1 o off s h1 h2 => ?_, fun rd imm s => ?_, fun rd rs1 imm s h1 => exec_jalr rd rs1 s imm h1⟩
  · rw [exec_branchTable e he, run_branch rs1 o s _ annul off h1 h2, target_eq]
  · rw [exec_jal, target_eq]

end Sys2Proof.Machine
end

section
/-!
SUPPORT. CSR access (R6, R160, R198): the checks of a CSR instruction pass where its class and core allow it, a CSR without a mark is read,
and a write merges under the field map.
-/

namespace Sys2Proof.Machine

open M

/-! ### Register 0 (R157) -/

@[simp] theorem State.readable_zero (s : State) : s.readable 0 := ⟨rfl, rfl⟩

/-- Whatever is written to x0 is discarded. -/
theorem State.wrote_zero (s : State) (v w : Word) : s.wrote 0 v = s.wrote 0 w := rfl

/-! ### The parts of a CSR instruction -/

section
variable (s0 s : State) (i : Instr) {n : Nat}

theorem run_privilege {i : Instr} {ok : Bool → Bool} (h : ok s.me.sup = true) (k : Unit → P) :
    P.run s0 (privilege i ok k) s = P.run s0 (k ()) s := by
  simp only [privilege, bind_apply, run_me, ite_apply, h, if_true, pure_apply]

/-- The checks pass where the class allows the access, on a core that lists the CSR. -/
theorem run_csrCheck (write : Bool) (listed : ¬(s.onVent = true ∧ csrVentReserved n = true))
    (supervisor : csrClass n = .supervisor → s.me.sup = true)
    (writable : write = true → csrClass n ≠ .readOnly ∧ (csrClass n = .guarded → s.me.sup = true)) (k : Unit → P) :
    P.run s0 (csrCheck i n write k) s = P.run s0 (k ()) s := by
  have reserved : (isVent (coreOf s.dev.cur) && csrVentReserved n) = false := by
    rw [Bool.and_eq_false_iff, ← Bool.not_eq_true, ← Bool.not_eq_true]
    exact not_and_or.1 listed
  simp only [csrCheck, bind_apply, get_apply, run_getP, ite_apply, reserved, Bool.false_eq_true, if_false]
  refine run_privilege s0 s ?_ k
  cases hc : csrClass n with
  | user => rfl
  | guarded =>
    cases write with
    | false => rfl
    | true => exact (writable rfl).2 hc
  | supervisor => exact supervisor hc
  | readOnly =>
    cases write with
    | false => rfl
    | true => exact absurd hc (writable rfl).1

theorem run_csrCheck_read (h : s.csrReadOk n) (k : Unit → P) : P.run s0 (csrCheck i n false k) s = P.run s0 (k ()) s :=
  run_csrCheck s0 s i false h.1 h.2 (fun w => by cases w) k

theorem run_csrCheck_write (h : s.csrWriteOk n) (k : Unit → P) : P.run s0 (csrCheck i n true k) s = P.run s0 (k ()) s := by
  obtain ⟨listed, writable, mode⟩ := h
  exact run_csrCheck s0 s i true listed (fun c => mode (.inr c)) (fun _ => ⟨writable, fun c => mode (.inl c)⟩) k

theorem run_csrRead (good : s.csrBad s.dev.cur n = false) (settled : s.flagsSettled n) (k : Word → P) :
    P.run s0 (csrRead n k) s = P.run s0 (k (s.csr s.dev.cur n)) s := by
  have ready : (decide (n = cFFLAGS) && (s.core (coreOf s.dev.cur)).vq.any fun e => e.ctx == s.dev.cur) = false := by
    rw [Bool.and_eq_false_iff, decide_eq_false_iff_not, or_iff_not_imp_left, not_not]
    exact settled
  simp only [csrRead, bind_apply, get_apply, run_getP, ite_apply, ready, good, Bool.false_eq_true, if_false, pure_apply]

theorem run_setCsr (v : Word) (k : Unit → P) : P.run s0 (setCsr n v k) s = P.run s0 (k ()) (s.csrWritten n v) := by
  simp only [setCsr, State.csrWritten, bind_apply, run_meCore, ite_apply]
  split
  · exact run_updMe ..
  · exact run_updMyCore ..

/-- A write of any CSR but STASHCFG, with no tile instruction before it that it waits for. -/
theorem run_csrWrite (v : Word) (stash : n ≠ 0x005) (flushes : csrFlushes n = true → s.noTiles) (k : Unit → P) :
    P.run s0 (csrWrite n v k) s = P.run s0 (k ()) (s.csrWritten n (csrMerge n (s.csr s.dev.cur n) v)) := by
  have plain : n ≠ cSTASHCFG := stash
  by_cases f : csrFlushes n = true
  · simp only [csrWrite, f, if_true, bind_apply, run_drainTiles s0 s (flushes f), plain, if_false, csrOf, get_apply, run_getP, pure_apply,
      run_setCsr]
  · simp only [csrWrite, f, if_false, bind_apply, pure_apply, plain, csrOf, get_apply, run_getP, run_setCsr, Bool.false_eq_true]

end

/-! ### The instructions -/

section
variable (rd rs1 : XReg) (csr : BitVec 12) (s : State) (good : s.csrBad s.dev.cur csr.toNat = false)
include good

theorem exec_csrr (ok : s.csrReadOk csr.toNat) (settled : s.flagsSettled csr.toNat) :
    exec (.csrr rd csr) s = .next (s.wrote rd (s.csr s.dev.cur csr.toNat)).retired := by
  show execCsrr rd csr s = _
  simp only [execCsrr, run_instr, bind_apply, pure_apply, run_csrCheck_read _ _ _ ok, run_csrRead _ _ good settled, run_wx, run_retireM,
    run_done]

/-- `csrw` with rd 0 does not read the old value, which it would discard (log 13). -/
theorem exec_csrw (ok : s.csrWriteOk csr.toNat) (h1 : s.readable rs1) (stash : csr.toNat ≠ 0x005)
    (flushes : csrFlushes csr.toNat = true → s.noTiles) : exec (.csrw rd rs1 csr) s =
      .next ((s.csrWritten csr.toNat (csrMerge csr.toNat (s.csr s.dev.cur csr.toNat) (s.x rs1))).wrote rd (s.csr s.dev.cur csr.toNat)).retired := by
  show execCsrw rd rs1 csr s = _
  by_cases h : rd = 0
  · subst h
    simp only [execCsrw, run_instr, bind_apply, pure_apply, run_csrCheck_write _ _ _ ok, run_rx _ _ h1, if_true,
      run_csrWrite _ _ _ stash flushes, run_wx, run_retireM, run_done]
    rw [State.wrote_zero]
  · simp only [execCsrw, run_instr, bind_apply, pure_apply, run_csrCheck_write _ _ _ ok, run_rx _ _ h1, h, if_false, get_apply, run_getP,
      ite_apply, good, Bool.false_eq_true, run_csrWrite _ _ _ stash flushes, run_wx, run_retireM, run_done]

variable (i : Instr) (f : Word → Word → Word) (settled : s.flagsSettled csr.toNat)
include settled

/-- `csrs` and `csrc` whose rs1 field is 0 only read. -/
theorem run_csrModify_zero (ok : s.csrReadOk csr.toNat) :
    instr (csrModify i f rd 0 csr) s = .next (s.wrote rd (s.csr s.dev.cur csr.toNat)).retired := by
  simp only [csrModify, run_instr, bind_apply, pure_apply, bne_self_eq_false, run_csrCheck_read _ _ _ ok, run_rx _ _ s.readable_zero,
    run_csrRead _ _ good settled, if_true, run_wx, run_retireM, run_done]

theorem run_csrModify (h : rs1 ≠ 0) (ok : s.csrWriteOk csr.toNat) (h1 : s.readable rs1) (stash : csr.toNat ≠ 0x005)
    (flushes : csrFlushes csr.toNat = true → s.noTiles) : instr (csrModify i f rd rs1 csr) s =
      .next ((s.csrWritten csr.toNat (csrMerge csr.toNat (s.csr s.dev.cur csr.toNat) (f (s.csr s.dev.cur csr.toNat) (s.x rs1)))).wrote rd
        (s.csr s.dev.cur csr.toNat)).retired := by
  simp only [csrModify, run_instr, bind_apply, pure_apply, bne_iff_ne.2 h, run_csrCheck_write _ _ _ ok, run_rx _ _ h1,
    run_csrRead _ _ good settled, h, if_false, run_csrWrite _ _ _ stash flushes, run_wx, run_retireM, run_done]

end

/-- Settles O6: each instruction passes its checks, reads the old value and writes the merge of the new one. -/
theorem csrAccess : Obligations.CsrAccess := by
  unfold Obligations.CsrAccess
  intro rd rs1 csr s n old good
  refine ⟨exec_csrr rd csr s good, fun ok h1 stash flushes => exec_csrw rd rs1 csr s good ok h1 stash flushes, fun h1 settled =>
    ⟨fun _ ok => ⟨?_, ?_⟩, fun h ok stash flushes => ⟨?_, ?_⟩⟩⟩
  · exact run_csrModify_zero rd csr s good _ _ settled ok
  · exact run_csrModify_zero rd csr s good _ _ settled ok
  · exact run_csrModify rd rs1 csr s good _ _ settled h ok h1 stash flushes
  · exact run_csrModify rd rs1 csr s good _ _ settled h ok h1 stash flushes

end Sys2Proof.Machine
end

section
/-!
SUPPORT. Traps that an instruction asks for and the return from one (R200 to R203, R356, R360, R449): a cause delivered to the executing
context enters its handler or parks it, and `xret` goes on from the trap CSRs.
-/

namespace Sys2Proof.Machine

open M

/-! ### What the end of an instruction leaves of the agent -/

namespace State

variable (s : State) (f : Fin)

@[simp] theorem retired_myCsr (n : Nat) : (s.retired f).myCsr n = s.myCsr n := by
  have kept := Ctx.retire_kept f s.me
  simp only [Ctx.kept, Prod.mk.injEq] at kept
  obtain ⟨-, csr, -⟩ := kept
  unfold myCsr Ctx.csrGet
  rw [retired_me, csr]
  rfl

@[simp] theorem retired_sup : (s.retired f).me.sup = s.me.sup := by
  rw [retired_me]
  exact congrArg (·.1) (Ctx.retire_kept f s.me)

theorem retired_task (c : Nat) : ((s.retired f).core c).task = (s.core c).task := by
  by_cases h : c = coreOf s.dev.cur
  · subst h
    have kept := Core.retire_kept f (1 + s.me.annulled f) (ctxOf s.dev.cur == 0) s.myCore
    simp only [Core.kept, Prod.mk.injEq] at kept
    obtain ⟨⟨-, -, -, task⟩, -⟩ := kept
    exact (congrArg Core.task (retired_myCore s f)).trans task
  · rw [retired_core_ne s f h]

@[simp] theorem retired_pnodeOf (c : Nat) : (s.retired f).pnodeOf c = s.pnodeOf c := by
  unfold pnodeOf
  rw [retired_task]
  rfl

@[simp] theorem retired_isService (id : Nat) : (s.retired f).isService id = s.isService id := by
  unfold isService serviceCore
  rw [retired_pnodeOf, firstPresent_of_pres (s := s) (t := s.retired f) rfl]

end State

theorem leads_nextSeq (s : State) : nextSeq.leads s s.arrived s.dev.seq := fun _ _ => rfl

/-! ### A cause delivered to the executing context (R42, R356, R360) -/

/-- A context parked on a fault, its trap CSRs written (R356, R357). -/
def Ctx.faulted (vent : Bool) (i : TrapInfo) (q : Nat) (c : Ctx) : Ctx :=
  { (c.writeTrap vent i).tuck with run := .parked, wait := some { cls := .fault, seq := q, acted := none, req := none } }

/-- Whether a cause parks the executing context. -/
def State.parks (s : State) (i : TrapInfo) : Bool := !s.isService s.dev.cur && (parkingClass i.code || s.myCsr cXTVEC == 0)

section
variable {s : State} {i : TrapInfo}

theorem State.parks_of_service (h : s.isService s.dev.cur = true) : s.parks i = false := by
  rw [parks, h]
  rfl

theorem State.parks_of_handler (class' : parkingClass i.code = false) (handler : s.myCsr cXTVEC ≠ 0) : s.parks i = false := by
  rw [parks, class', beq_eq_false_iff_ne.2 handler, Bool.or_self, Bool.and_false]

theorem State.parks_of_no_handler (service : s.isService s.dev.cur = false) (handler : s.myCsr cXTVEC = 0) : s.parks i = true := by
  rw [parks, service, beq_iff_eq.2 handler, Bool.or_true, Bool.not_false, Bool.and_true]

theorem leads_deliver_trap (h : s.parks i = false) (tile : Bool) :
    (deliver s.dev.cur i tile).leads s (s.withMe (Ctx.trap s.onVent i)).forgot () := by
  have entry : (!s.isService s.dev.cur && (parkingClass i.code || (s.ctx s.dev.cur).csrGet (isVent (coreOf s.dev.cur)) cXTVEC == 0)) = false := h
  refine M.leads_get_bind ?_
  dsimp only
  rw [entry, if_neg Bool.false_ne_true]
  exact M.leads_upd_bind (M.leads_upd _ _)

theorem deliver_parks (h : s.parks i = true) (tile : Bool) : (deliver s.dev.cur i tile).Reaches s fun t _ =>
    t.dev.cur = s.dev.cur ∧ t.me = s.me.faulted s.onVent i s.dev.seq ∧ t.mem = s.mem := by
  have fault : (!s.isService s.dev.cur && (parkingClass i.code || (s.ctx s.dev.cur).csrGet (isVent (coreOf s.dev.cur)) cXTVEC == 0)) = true := h
  refine .get ?_
  dsimp only
  rw [fault, if_pos rfl]
  refine .led (leads_nextSeq s) (.upd_bind (.upd_bind (.upd ?_)))
  exact ⟨rfl, State.ctx_setCtx_self .., rfl⟩

/-- `ecall` and `brk`: the step completes, and the cause is taken in front of the next instruction (R202). -/
theorem run_trapAfter {code : BitVec 8} {t : State} {u : Unit} (h : s.noTiles) (d : (deliver s.dev.cur { code := code }).leads s.retired t u) :
    instr (trapAfter code) s = .next t := by
  simp only [run_instr, trapAfter, bind_apply, run_flushWindow s s h, run_drainTiles s s h, run_retireM, run_meId, State.retired_cur, d s _,
    halt_apply, run_done]

theorem trapAfter_traps {code : BitVec 8} (tiles : s.noTiles) (class' : parkingClass code = false)
    (h : s.isService s.dev.cur = true ∨ s.myCsr cXTVEC ≠ 0) :
    instr (trapAfter code) s = .next (s.retired.withMe (Ctx.trap s.onVent { code := code, val := 0 })).forgot := by
  have entry : s.retired.parks { code := code } = false := by
    rcases h with service | handler
    · exact State.parks_of_service ((State.retired_isService ..).trans service)
    · exact State.parks_of_handler class' (by rwa [State.retired_myCsr])
  exact run_trapAfter tiles (leads_deliver_trap entry false)

end

/-- Completing exposed loads leaves everything but registers alone, and so does writing the trap CSRs. -/
theorem Ctx.faulted_queue (vent : Bool) (i : TrapInfo) (q : Nat) (c : Ctx) :
    ((c.faulted vent i q).queue, (c.faulted vent i q).sup) = (c.queue, c.sup) := by
  have landed : (c.overtaken.landAll.queue, c.overtaken.landAll.sup) = (c.queue, c.sup) :=
    c.overtaken.land_keeps c.pend (fun c => (c.queue, c.sup)) fun c r v => by simp [Ctx.queue]
  rw [← landed]
  simp only [faulted, tuck, queue, writeTrap, csrSet_pc, csrSet_q1, csrSet_q2, csrSet_a1, csrSet_a2, csrSet_sup]

theorem Ctx.faulted_csr (vent : Bool) (i : TrapInfo) (q : Nat) (c : Ctx) : ∃ d : Ctx, ∀ n, (c.faulted vent i q).csrGet vent n =
    (((d.csrSet vent cXPC0 (i.xpc0.getD c.pc)).csrSet vent cXVAL i.val).csrSet vent cXCAUSE
      (i.code.setWidth 64 ||| (i.isrc.setWidth 64 <<< 8))).csrGet vent n := ⟨_, fun _ => rfl⟩

theorem Ctx.faulted_spec (vent : Bool) (i : TrapInfo) (q : Nat) (c : Ctx) : let d := c.faulted vent i q
    d.run = .parked ∧ (d.wait.map fun w => w.cls) = some .fault ∧ d.queue = c.queue ∧ d.sup = c.sup ∧
    d.csrGet vent cXCAUSE = (i.code.setWidth 64 ||| (i.isrc.setWidth 64 <<< 8)) ∧ d.csrGet vent cXPC0 = i.xpc0.getD c.pc := by
  obtain ⟨queue, sup⟩ := Prod.mk.inj (c.faulted_queue vent i q)
  obtain ⟨d, csr⟩ := c.faulted_csr vent i q
  refine ⟨rfl, rfl, queue, sup, ?_, ?_⟩
  · rw [csr, csrGet_csrSet_self]
  · rw [csr, csrGet_csrSet_ne _ _ _ (by decide), csrGet_csrSet_ne _ _ _ (by decide), csrGet_csrSet_self]

theorem trapAfter_parks {s : State} {code : BitVec 8} (tiles : s.noTiles) (service : s.isService s.dev.cur = false)
    (handler : s.myCsr cXTVEC = 0) : ∃ t, instr (trapAfter code) s = .next t ∧ t.me.run = .parked ∧
      (t.me.wait.map fun w => w.cls) = some .fault ∧
      (t.me.pc, t.me.q1, t.me.q2) = (s.retired.me.pc, s.retired.me.q1, s.retired.me.q2) ∧ t.me.sup = s.me.sup ∧
      t.myCsr cXCAUSE = code.setWidth 64 ∧ t.myCsr cXPC0 = s.retired.me.pc ∧ t.mem = s.mem := by
  have fault : s.retired.parks { code := code } = true :=
    State.parks_of_no_handler ((State.retired_isService ..).trans service) (by rwa [State.retired_myCsr])
  obtain ⟨t, _, l, cur, me, mem⟩ := deliver_parks fault false
  obtain ⟨run, wait, queue, sup, cause, pc0⟩ := s.retired.me.faulted_spec s.retired.onVent { code := code } s.retired.dev.seq
  have csr (n : Nat) : t.myCsr n = t.me.csrGet s.retired.onVent n := by
    unfold State.myCsr State.onVent
    rw [cur]
  rw [← me] at run wait queue sup cause pc0
  rw [← csr] at cause pc0
  exact ⟨t, run_trapAfter tiles l, run, wait, congrArg (fun e => (e.1, e.2.1, e.2.2.1)) queue, sup.trans (State.retired_sup ..),
    cause.trans (by simp), pc0, mem.trans (State.retired_mem ..)⟩

/-! ### The return from a trap (R203, R449) -/

/-- The instruction at pc goes on with what is left of it: nothing but the wait changes. -/
theorem Ctx.goOn_spec (pw : Bool) (q : Nat) (c : Ctx) : (c.goOn pw q).run = (if pw then .parked else .ready) ∧
    (c.goOn pw q).queue = c.queue ∧ (c.goOn pw q).sup = c.sup ∧ (c.goOn pw q).x = c.x := by
  cases pw <;> exact ⟨rfl, rfl, rfl, rfl⟩

/-- Where the trap CSRs say that a context resumes. -/
def Ctx.resumeQueue (vent : Bool) (c : Ctx) : Word × Word × Word × Bool × Bool :=
  (c.csrGet vent cXRESUME, c.csrGet vent cXPC1, c.csrGet vent cXPC2, (c.csrGet vent cXSTAT).getLsbD 0, (c.csrGet vent cXSTAT).getLsbD 1)

/-- What a return leaves of a context c: the mode, and either IDLE or the queue, as its trap CSRs say (R203, R449). -/
def Ctx.resumesFrom (vent : Bool) (c r : Ctx) : Prop :=
  let st := c.csrGet vent cXSTAT
  r.sup = st.getLsbD 2 ∧ r.x = c.x ∧
  if st.getLsbD 3 then r.run = .idle ∧ r.recvq = []
  else r.queue = c.resumeQueue vent ∧ r.run = if st.getLsbD 14 then .parked else .ready

theorem Ctx.resumesFrom_resume (vent : Bool) (q : Nat) (c : Ctx) : c.resumesFrom vent (c.resume vent q) := by
  unfold Ctx.resumesFrom
  intro st
  by_cases idle : st.getLsbD 3 = true
  · have e : c.resume vent q = _ := if_pos idle
    rw [if_pos idle, e]
    exact ⟨rfl, rfl, rfl, rfl⟩
  · have e : c.resume vent q = _ := if_neg idle
    rw [if_neg idle, e]
    obtain ⟨run, queue, sup, x⟩ := Ctx.goOn_spec (st.getLsbD 14) q
      { c with
        sup := st.getLsbD 2, due := if c.due.isSome then c.due else c.later, later := none
        pc := c.csrGet vent cXRESUME, q1 := c.csrGet vent cXPC1, q2 := c.csrGet vent cXPC2, a1 := st.getLsbD 0, a2 := st.getLsbD 1 }
    exact ⟨sup, x, queue, run⟩

/-- The trap CSRs once the replay has been taken from them: TRN is 0 (R304, R305). -/
def Ctx.replayed (vent : Bool) (c : Ctx) : Ctx := c.csrBump vent cXSTAT (c.csrGet vent cXSTAT &&& ~~~(0x1F#64 <<< 15))

theorem Ctx.replayed_csr_ne (vent : Bool) (c : Ctx) {n : Nat} (h : n ≠ cXSTAT) : (c.replayed vent).csrGet vent n = c.csrGet vent n :=
  SMap.get_set_ne _ _ _ h

/-- Below TRN, XSTAT stands. -/
theorem Ctx.replayed_xstat (vent : Bool) (c : Ctx) {k : Nat} (h : k < 15) :
    ((c.replayed vent).csrGet vent cXSTAT).getLsbD k = (c.csrGet vent cXSTAT).getLsbD k := by
  have e : (c.replayed vent).csrGet vent cXSTAT = c.csrGet vent cXSTAT &&& ~~~(0x1F#64 <<< 15) := SMap.get_set_self ..
  rw [e, BitVec.getLsbD_and, BitVec.getLsbD_not, BitVec.getLsbD_shiftLeft]
  simp [h, show k < 64 by omega, -BitVec.getLsbD_eq_getElem]

theorem Ctx.replayed_queue (vent : Bool) (c : Ctx) : (c.replayed vent).resumeQueue vent = c.resumeQueue vent := by
  unfold Ctx.resumeQueue
  rw [replayed_xstat _ _ (by decide), replayed_xstat _ _ (by decide), replayed_csr_ne _ _ (by decide), replayed_csr_ne _ _ (by decide),
    replayed_csr_ne _ _ (by decide)]

/-- A return that replays the tile buffer resumes as one that does not. -/
theorem Ctx.resumesFrom_replayed {vent : Bool} {c r : Ctx} (h : (c.replayed vent).resumesFrom vent r) : c.resumesFrom vent r := by
  unfold Ctx.resumesFrom at h ⊢
  dsimp only at h ⊢
  rwa [replayed_xstat _ _ (by decide), replayed_xstat _ _ (by decide), replayed_xstat _ _ (by decide), replayed_queue] at h

theorem leads_resume (s : State) : (nextSeq >>= fun q => upd (.ctx s.dev.cur (Ctx.resume s.onVent q))).leads s
    (s.arrived.withMe (Ctx.resume s.onVent s.dev.seq)) () := fun _ _ => rfl

theorem resumed_me (s : State) : (s.arrived.withMe (Ctx.resume s.onVent s.dev.seq)).me = s.me.resume s.onVent s.dev.seq := State.withMe_me ..

/-- The core whose window replays n instructions of the tile buffer (R304, R305), and the context from whose XSTAT they are gone. -/
def State.replayed (s : State) (n : Nat) : State :=
  State.withMe (State.withMyCore (s.withMyCore (Core.flush false)).arrived fun k =>
    { k with win := k.win ++ k.replays s.dev.seq n ((s.myCsr cXSTAT).getLsbD 2) (s.myCsr cXPC0) }) (Ctx.replayed s.onVent)

theorem State.replayed_mem (s : State) (n : Nat) : (s.replayed n).mem = s.mem := by
  rw [replayed, withMe, setCtx_mem, withMyCore, setCore_mem]
  rfl

theorem State.replayed_me (s : State) (n : Nat) : (s.replayed n).me = s.me.replayed s.onVent := State.withMe_me ..

theorem State.replayed_onVent (s : State) (n : Nat) : (s.replayed n).onVent = s.onVent := by
  simp only [replayed, withMe, withMyCore, onVent, arrived, setCtx_dev, setCore_dev]

/-- The executing context resumes from its trap CSRs, and no other context changes. -/
theorem resumeTrap_resumes (s : State) : (resumeTrap s.dev.cur).Reaches s fun t _ => s.me.resumesFrom s.onVent t.me ∧ t.mem = s.mem ∧
    ∀ k, k ≠ s.dev.cur → t.ctx k = s.ctx k := by
  unfold resumeTrap
  refine .get ?_
  dsimp only
  split
  · generalize (if 16 < _ then 8 else _ : Nat) = n
    refine .upd_bind (.led (leads_nextSeq _) (.upd_bind (.upd_bind (.of_leads (leads_resume (s.replayed n)) ⟨?_, ?_, fun k hk => ?_⟩))))
    · rw [resumed_me, State.replayed_me, State.replayed_onVent]
      exact Ctx.resumesFrom_replayed (Ctx.resumesFrom_resume ..)
    · exact (State.setCtx_mem ..).trans (s.replayed_mem n)
    · exact (State.ctx_setCtx_ne _ _ hk).trans (State.ctx_setCtx_ne _ _ hk)
  · refine .of_leads (leads_resume s) ⟨?_, State.setCtx_mem .., fun k hk => State.ctx_setCtx_ne _ _ hk⟩
    rw [resumed_me]
    exact Ctx.resumesFrom_resume ..

theorem Ctx.tick_of_no_pend {c : Ctx} (h : c.pend = []) : c.tick = c := by
  unfold Ctx.tick
  rw [h]
  show { c with pend := [] } = c
  rw [← h]

/-- An `xret` counts as one instruction of its context and core (R39, R203). -/
def State.returning (s : State) : State :=
  let t := (s.withMe Ctx.tick).withMyCore (Core.retire {} 1 s.onControl)
  { t with dev := t.dev.forget (· == .ctx s.dev.cur) }

theorem State.returning_me {s : State} (h : s.me.pend = []) : s.returning.me = s.me :=
  (State.withMe_me s Ctx.tick).trans (Ctx.tick_of_no_pend h)

theorem State.returning_ctx_ne (s : State) {k : Nat} (h : k ≠ s.dev.cur) : s.returning.ctx k = s.ctx k := State.ctx_setCtx_ne _ _ h

theorem exec_xret {s t : State} (sup : s.me.sup = true)
    (good : ∀ n ∈ [cXSTAT, cXRESUME, cXPC1, cXPC2] ++ s.replayCsrs s.dev.cur, s.csrBad s.dev.cur n = false)
    (l : (resumeTrap s.dev.cur).leads s.returning t ()) : exec .xret s = .next t := by
  have clean : (([cXSTAT, cXRESUME, cXPC1, cXPC2] ++ s.replayCsrs s.dev.cur).any fun n => s.csrBad s.dev.cur n) = false :=
    List.any_eq_false.2 fun n hn => by rw [good n hn]; exact Bool.false_ne_true
  show execXret s = _
  simp only [execXret, run_instr, bind_apply, run_privilege s s (ok := id) sup, get_apply, run_getP, ite_apply, clean, Bool.false_eq_true,
    if_false, run_updMe]
  exact congrArg _ (l s _)

/-- Settles O9: `ecall` and `brk` retire and deliver their cause, which enters the handler or parks; `xret` resumes from the trap CSRs. -/
theorem trapsAndReturns : Obligations.TrapsAndReturns := by
  unfold Obligations.TrapsAndReturns
  refine ⟨fun s tiles h => ⟨trapAfter_traps tiles rfl h, trapAfter_traps tiles rfl h⟩, fun s tiles service handler => ?_,
    fun s sup pend good => ?_⟩
  · simp only [List.forall_mem_cons]
    exact ⟨trapAfter_parks (code := ECALL) tiles service handler, trapAfter_parks (code := BREAK) tiles service handler, List.forall_mem_nil _⟩
  · obtain ⟨t, _, l, resumes, mem, ctx⟩ := resumeTrap_resumes s.returning
    rw [State.returning_me pend] at resumes
    obtain ⟨mode, x, rest⟩ := resumes
    exact ⟨t, exec_xret sup good l, mode, mem, Ctx.rd_congr x, fun k hk => (ctx k hk).trans (s.returning_ctx_ne hk), rest⟩

end Sys2Proof.Machine
end

section
/-!
SUPPORT. Waiting for a message, fences and signals to the host (R37, R107, R205, R206, R208, R347).
-/

namespace Sys2Proof.Machine

open M

section
variable (s : State)

/-- The executing context parked on a wait, before its instruction has had any effect (R37, R449). -/
def State.parkedFor (cls : WaitClass) : State :=
  let t := s.arrived
  State.withMe { t with dev := t.dev.forget (· == .ctx s.dev.cur) } fun c =>
    { c with run := .parked, wait := some { cls := cls, seq := s.dev.seq, acted := none, req := none, ins := s.dev.ins, pc := c.pc } }

/-- Parking with no tile instruction to flush; only a wait on a link or a version keeps the answers it has. -/
theorem run_park {cls : WaitClass} (h : s.noTiles) (hc : cls ≠ .link ∧ cls ≠ .version) {α : Type} (t : State) (k : α → P) :
    P.run s (park cls none (pure ()) k) t = s.parkedFor cls := by
  have forgets : (decide (cls = .link) || decide (cls = .version)) = false := by
    rw [decide_eq_false hc.1, decide_eq_false hc.2, Bool.or_self]
  simp only [park, stop_apply, run_abort, bind_apply, forgets, Bool.false_eq_true, if_false, get_apply]
  refine (leads_nextSeq s s _).trans ?_
  rw [run_getP, run_flushWindow s s.arrived h]
  rfl

theorem exec_park_message (h : s.me.recvq ≠ []) : exec .park s = .next s.retired := by
  have some' : s.me.recvq.isEmpty = false := List.isEmpty_eq_false_iff.2 h
  show execPark s = _
  simp only [execPark, run_instr, bind_apply, run_me, some', Bool.false_eq_true, if_false, pure_apply, run_retireM, run_done]

theorem exec_park_waits (tiles : s.noTiles) (h : s.me.recvq = []) : exec .park s = .next (s.parkedFor .message) := by
  have none' : s.me.recvq.isEmpty = true := List.isEmpty_iff.2 h
  show execPark s = _
  simp only [execPark, run_instr, bind_apply, run_me, none', if_true]
  rw [run_park s tiles ⟨by decide, by decide⟩]

theorem exec_fenceI (vec : s.vecDone) (tiles : s.noTiles) : exec .fenceI s = .next s.retired := by
  have none' : s.myCore.tileStores = false := by rw [Core.tileStores, tiles, List.any_nil]
  show execFenceI s = _
  simp only [execFenceI, run_instr, bind_apply, run_drainVec s s vec, run_myCore, none', Bool.false_eq_true, if_false, pure_apply, run_retireM,
    run_done]

theorem exec_fence (h : s.fenced) (kind : FenceKind) (scope : Scope) : exec (.fence kind scope) s = .next s.retired := by
  show execFence kind scope s = _
  simp only [execFence, run_instr, bind_apply, run_fenceAll s s h, pure_apply, run_retireM, run_done]

/-- A vector in the table is signalled, and one beyond it is counted (R208, R347). -/
theorem exec_hnotify (h : s.fenced) (rs1 : XReg) (h1 : s.readable rs1) :
    let t := s.tenOf (coreOf s.dev.cur)
    let n := (s.x rs1).toNat % 2048
    exec (.hnotify rs1) s =
      .next (if n < (s.vf t).msix then s.signalled t n else s.setVf t { s.vf t with hndrop := (s.vf t).hndrop + 1 }).retired := by
  intro t n
  show execHnotify rs1 s = _
  simp only [execHnotify, run_instr, bind_apply, run_rx s s h1, run_fenceAll s s h, get_apply, run_getP, ite_apply, pure_apply]
  by_cases listed : n < (s.vf t).msix
  · rw [if_pos listed, if_pos listed, leads_sendMsix t n s, run_retireM, run_done]
  · rw [if_neg listed, if_neg listed, upd_apply, run_updP, run_retireM, run_done]
    rfl

end

/-- Settles O10: with nothing to wait for each instruction retires, and `park` without a message waits on one. -/
theorem parkFenceNotify : Obligations.ParkFenceNotify := by
  unfold Obligations.ParkFenceNotify
  refine ⟨fun s => ⟨exec_park_message s, exec_fenceI s, exec_fence s, exec_hnotify s⟩, fun s tiles h => ⟨_, exec_park_waits s tiles h, ?_⟩⟩
  have me : (s.parkedFor .message).me = _ := State.withMe_me ..
  rw [me]
  exact ⟨rfl, rfl, rfl, rfl, rfl, fun k hk => State.ctx_setCtx_ne _ _ hk⟩

end Sys2Proof.Machine
end

section
/-!
SUPPORT. A `ctxrd` of FFLAGS of a STOPPED control context whose rewrite window still holds a tile instruction (R199, R211, R212): it waits.
-/

namespace Sys2Proof.Machine

/-- A `tzero` of tile 0, committed and not yet started. -/
def committedTzero : TEnt :=
  let o : TOp := ⟨(encode (.tzero 0)).getD 0, 0, 0, 0, 0⟩
  { op := o, origs := [o], count := 0, fresh := 0, rule := none, group := 0, sup := false, st := .committed, replay := none }

/-- The control context of core 0 is STOPPED with a tile instruction in the window; helper 1, in supervisor mode, executes. -/
def tilesHeld : State :=
  { State.reset with
    ctxs := [(0, { Ctx.reset 0 with run := .stopped }), (1, { Ctx.reset 1 with run := .ready, sup := true })]
    cores := [(0, { Core.reset with task := some ⟨0, 1, 0, false⟩, win := [committedTzero] })]
    parts := [(1, { Part.reset with st := .running, ten := some 0 })]
    dev := { State.reset.dev with cur := 1 } }

/-- Whether the last entry of the executing context's queue is after an instruction what it was before. -/
def queueStands (i : Instr) (s : State) : Bool :=
  match exec i s with
  | .next t => t.me.q2 == s.me.q2
  | _ => false

theorem tilesHeld_stands : queueStands (.ctxrd 0 0 0x40) tilesHeld = true := by decide +kernel

/-- Refutes O11: FFLAGS of a STOPPED control context is read once its tile instructions have retired too, as their flags go there, and the statement
asks only for an empty vector queue: in `tilesHeld` the `ctxrd` of a helper is an interlock (R39), where the statement has it retire. -/
theorem not_contextControl : ¬ Obligations.ContextControl := by
  unfold Obligations.ContextControl
  rintro ⟨h, -⟩
  obtain ⟨⟨-, flags, -⟩, -⟩ := h 0 0 0x40 tilesHeld (by decide +kernel) (by decide +kernel) (by decide +kernel) (by decide +kernel) (by decide +kernel)
  have run := flags (by decide) (by decide) (by decide +kernel) (by decide +kernel) (by decide +kernel)
  have stands := tilesHeld_stands
  rw [queueStands, show exec (.ctxrd 0 0 0x40) tilesHeld = _ from run] at stands
  exact absurd stands (by decide +kernel)

end Sys2Proof.Machine
end

section
/-!
SUPPORT. Parts of a meaning that give up (R37, R426, R449): a cause, a wait or an interlock drops what the instruction has done, whatever would have
come after it.
-/

namespace Sys2Proof.Machine

/-- Part of a meaning that began in `s0` gives up in `s`, and the step ends in `t`. -/
def M.Quits {α : Type} (m : M α) (s0 s t : State) : Prop := ∀ k, P.run s0 (m k) s = t

theorem M.Quits.bind {α β : Type} {m : M α} {s0 s t : State} (h : m.Quits s0 s t) (f : α → M β) : (m >>= f).Quits s0 s t := fun _ => h _

theorem M.leads.quits {α β : Type} {m : M α} {f : α → M β} {s0 s u t : State} {a : α} (l : m.leads s u a) (h : (f a).Quits s0 u t) :
    (m >>= f).Quits s0 s t := fun k => (l s0 _).trans (h k)

/-- Part of a meaning does in one state what another part does in another, whatever comes after it. -/
def M.Becomes {α : Type} (m : M α) (s : State) (n : M α) (t : State) : Prop := ∀ s0 k, P.run s0 (m k) s = P.run s0 (n k) t

theorem M.Becomes.refl {α : Type} (m : M α) (s : State) : m.Becomes s m s := fun _ _ => rfl

theorem M.leads.becomes {α β : Type} {m : M α} {f : α → M β} {n : M β} {s u t : State} {a : α} (l : m.leads s u a) (h : (f a).Becomes u n t) :
    (m >>= f).Becomes s n t := fun s0 k => (l s0 _).trans (h s0 k)

theorem M.Becomes.leads {α : Type} {m n : M α} {s t u : State} {a : α} (h : m.Becomes s n t) (l : n.leads t u a) : m.leads s u a :=
  fun s0 k => (h s0 k).trans (l s0 k)

theorem M.Becomes.quits {α : Type} {m n : M α} {s0 s t u : State} (h : m.Becomes s n t) (q : n.Quits s0 t u) : m.Quits s0 s u :=
  fun k => (h s0 k).trans (q k)

theorem M.Quits.instr_eq {m : M Fin} {s t : State} (h : m.Quits s s t) : instr m s = .next t := congrArg Host.Outcome.next (h _)

theorem quits_stall {α : Type} (s0 s : State) : (M.stall : M α).Quits s0 s s0 := fun _ => rfl

/-- With no tile instruction to wait for, a cause is taken (R297). -/
theorem quits_raise {α : Type} {s : State} (h : s.noTiles) (code : BitVec 8) (val : Word) :
    (raise code val : M α).Quits s s (s.took { code := code, val := val }) := run_raise s code val h

theorem quits_park {α : Type} {s : State} (h : s.noTiles) {cls : WaitClass} (hc : cls ≠ .link ∧ cls ≠ .version) (t : State) :
    (park cls : M α).Quits s t (s.parkedFor cls) := run_park s h hc t

/-- A parked context waits as `parkedFor` says, with its queue and registers as they were (R37). -/
theorem State.parkedOn_parkedFor (s : State) (cls : WaitClass) : s.parkedOn (s.parkedFor cls) cls none := by
  have me : (s.parkedFor cls).me = _ := State.withMe_me ..
  unfold State.parkedOn
  rw [me]
  exact ⟨rfl, rfl, rfl, rfl, rfl, fun k hk => State.ctx_setCtx_ne _ _ hk⟩

end Sys2Proof.Machine
end

section
/-!
SUPPORT. The event instructions (R230 to R233): after the checks that all of them make, each changes its cluster and retires, parks, or takes a cause.
-/

namespace Sys2Proof.Machine

open M

section
variable {s : State} (compute : s.onVent = false) (tiles : s.noTiles)
include compute tiles

/-- An event instruction whose part for its cluster runs through retires. -/
theorem exec_event {i : Instr} {f : Nat × Nat × Cluster → M Fin} {t : State}
    (h : (f (s.myCluster, s.myPosition, s.cluster s.myCluster)).leads s t {}) : instr (evSetup i >>= f) s = .next t.retired :=
  M.leads.instr_eq (M.leads_bind (leads_evSetup i compute tiles) h)

/-- One whose part for its cluster gives up ends there. -/
theorem exec_event_quits {i : Instr} {f : Nat × Nat × Cluster → M Fin} {t : State}
    (h : (f (s.myCluster, s.myPosition, s.cluster s.myCluster)).Quits s s t) : instr (evSetup i >>= f) s = .next t :=
  M.Quits.instr_eq (M.leads.quits (leads_evSetup i compute tiles) h)

/-! ### Barriers (R230, R231) -/

section
variable {b : BitVec 2}

/-- A position outside PMASK may not arrive (R230). -/
theorem exec_evArrive_outside (h : ((s.cluster s.myCluster).bar b.toNat).pmask.getLsbD s.myPosition = false) :
    exec (.evArrive b) s = .next (s.took { code := ILLEGAL_OPERAND, val := b.setWidth 64 }) := by
  refine exec_event_quits compute tiles ?_
  dsimp only
  rw [h, if_pos (by decide)]
  exact quits_raise tiles _ _

/-- A position that has arrived waits for the barrier to complete (R230). -/
theorem exec_evArrive_again (member : ((s.cluster s.myCluster).bar b.toNat).pmask.getLsbD s.myPosition = true)
    (again : ((s.cluster s.myCluster).bar b.toNat).arr.getLsbD s.myPosition = true) : exec (.evArrive b) s = .next (s.parkedFor .event) := by
  refine exec_event_quits compute tiles ?_
  dsimp only
  rw [member, again, if_neg (by decide), if_pos rfl]
  exact quits_park tiles (by decide) s

theorem exec_evWait_past (h : ((s.cluster s.myCluster).bar b.toNat).gen ≠ ((s.cluster s.myCluster).bar b.toNat).joined s.myPosition) :
    exec (.evWait b) s = .next s.retired := by
  refine exec_event compute tiles ?_
  dsimp only
  rw [if_neg h]
  exact M.leads_pure _ s

theorem exec_evWait_waits (h : ((s.cluster s.myCluster).bar b.toNat).gen = ((s.cluster s.myCluster).bar b.toNat).joined s.myPosition) :
    exec (.evWait b) s = .next (s.parkedFor .event) := by
  refine exec_event_quits compute tiles ?_
  dsimp only
  rw [if_pos h]
  exact quits_park tiles (by decide) s

theorem exec_evChain (sc : ChainScope) : exec (.evChain sc b) s = .next
    (s.setCluster s.myCluster ((s.cluster s.myCluster).setBar b.toNat fun x => { x with chainReq := some (chainCode sc) })).retired :=
  exec_event compute tiles (M.leads_upd_bind (M.leads_pure _ _))

end

/-! ### Event lines (R232) -/

section
variable {l : BitVec 4}

theorem exec_evWaitE_raised (h : (s.cluster s.myCluster).lines.getLsbD l.toNat = true) : exec (.evWaitE l) s = .next
    (s.setCluster s.myCluster { s.cluster s.myCluster with lines := (s.cluster s.myCluster).lines &&& ~~~(1#16 <<< l.toNat) }).retired := by
  refine exec_event compute tiles ?_
  dsimp only
  rw [h, if_pos rfl]
  exact M.leads_upd_bind (M.leads_pure _ _)

theorem exec_evWaitE_waits (h : (s.cluster s.myCluster).lines.getLsbD l.toNat = false) :
    exec (.evWaitE l) s = .next (s.parkedFor .event) := by
  refine exec_event_quits compute tiles ?_
  dsimp only
  rw [h, if_neg (by decide)]
  exact quits_park tiles (by decide) s

theorem exec_evSignal (vec : s.vecDone) : exec (.evSignal l) s = .next
    (s.setCluster s.myCluster { s.cluster s.myCluster with lines := (s.cluster s.myCluster).lines ||| 1#16 <<< l.toNat }).retired :=
  exec_event compute tiles (M.leads_bind (leads_fenceAll ⟨tiles, vec⟩) (M.leads_upd_bind (M.leads_pure _ _)))

end

/-! ### Mutexes (R233) -/

section
variable {m : BitVec 3}

theorem exec_evLock_free (h : SMap.find (s.cluster s.myCluster).mutex m.toNat = none) : exec (.evLock m) s = .next
    (s.setCluster s.myCluster { s.cluster s.myCluster with mutex := SMap.put (s.cluster s.myCluster).mutex m.toNat s.dev.cur }).retired := by
  refine exec_event compute tiles (M.leads_bind (fun s0 k => run_meId s0 s k) ?_)
  rw [h]
  exact M.leads_upd_bind (M.leads_pure _ _)

theorem exec_evLock_own (h : SMap.find (s.cluster s.myCluster).mutex m.toNat = some s.dev.cur) :
    exec (.evLock m) s = .next (s.took { code := ILLEGAL_OPERAND, val := m.setWidth 64 }) := by
  refine exec_event_quits compute tiles (M.leads.quits (fun s0 k => run_meId s0 s k) ?_)
  simp only [h, if_true]
  exact quits_raise tiles _ _

theorem exec_evLock_waits {holder : Nat} (h : SMap.find (s.cluster s.myCluster).mutex m.toNat = some holder) (other : holder ≠ s.dev.cur) :
    exec (.evLock m) s = .next (s.parkedFor .event) := by
  refine exec_event_quits compute tiles (M.leads.quits (fun s0 k => run_meId s0 s k) ?_)
  simp only [h, if_neg other]
  exact quits_park tiles (by decide) s

theorem exec_evUnlock_own (vec : s.vecDone) (h : SMap.find (s.cluster s.myCluster).mutex m.toNat = some s.dev.cur) :
    exec (.evUnlock m) s =
      .next (s.setCluster s.myCluster { s.cluster s.myCluster with mutex := (s.cluster s.myCluster).mutex.erase m.toNat }).retired := by
  refine exec_event compute tiles (M.leads_bind (fun s0 k => run_meId s0 s k) ?_)
  rw [if_pos h]
  exact M.leads_bind (leads_fenceAll ⟨tiles, vec⟩) (M.leads_upd_bind (M.leads_pure _ _))

theorem exec_evUnlock_other (h : SMap.find (s.cluster s.myCluster).mutex m.toNat ≠ some s.dev.cur) :
    exec (.evUnlock m) s = .next (s.took { code := ILLEGAL_OPERAND, val := m.setWidth 64 }) := by
  refine exec_event_quits compute tiles (M.leads.quits (fun s0 k => run_meId s0 s k) ?_)
  rw [if_neg h]
  exact quits_raise tiles _ _

end

end

/-- What parks on an event leaves every cluster alone. -/
theorem parks_on_event {o : Outcome} {s : State} (h : o = .next (s.parkedFor .event)) :
    ∃ t, o = .next t ∧ s.parkedOn t .event none ∧ t.clusters = s.clusters := ⟨_, h, s.parkedOn_parkedFor .event, rfl⟩

/-- Settles O20: one lemma above for each instruction and each condition. -/
theorem eventInstructions : Obligations.EventInstructions := by
  unfold Obligations.EventInstructions
  refine ⟨fun b l m sc s compute ⟨tiles, vec⟩ => ⟨exec_evWait_past compute tiles, exec_evWaitE_raised compute tiles, exec_evSignal compute tiles vec,
    exec_evLock_free compute tiles, exec_evUnlock_own compute tiles vec, exec_evChain compute tiles sc⟩, fun b l m s compute ⟨tiles, vec⟩ => ?_⟩
  exact ⟨exec_evArrive_outside compute tiles, fun member again => parks_on_event (exec_evArrive_again compute tiles member again),
    fun h => parks_on_event (exec_evWait_waits compute tiles h), fun h => parks_on_event (exec_evWaitE_waits compute tiles h),
    exec_evLock_own compute tiles, fun _ h other => parks_on_event (exec_evLock_waits compute tiles h other), exec_evUnlock_other compute tiles⟩

end Sys2Proof.Machine
end

section
/-!
SUPPORT. Messages and completion records (R235 to R239, R357): a message buffer is 32 unpoisoned bytes of LOCAL; what is sent goes to the queue of its
destination or to the send slot, and what is received comes from the head of a queue.
-/

namespace Sys2Proof.Machine

open M

/-! ### Message buffers (R213, R214) -/

theorem leads_aligned {va : Word} {n : Nat} {s : State} (h : va.toNat % n = 0) : (aligned va n).leads s s () := fun s0 k => run_aligned s0 s n h k

theorem leads_rx {r : XReg} {s : State} (h : s.readable r) : (rx r).leads s s (s.x r) := fun s0 k => run_rx s0 s h k

theorem leads_s2Val {o : S2} {s : State} (h : s.s2Readable o) : (s2Val o).leads s s (s.s2 o) := fun s0 k => run_s2Val s0 s h k

theorem leads_wx (r : XReg) (v : Word) (s : State) : (wx r v).leads s (s.wrote r v) () := fun s0 k => run_wx s0 s r v k

theorem leads_me (s : State) : me.leads s s s.me := fun s0 k => run_me s0 s k

theorem leads_myCore (s : State) : myCore.leads s s s.myCore := fun s0 k => run_myCore s0 s k

theorem leads_readAhead {s : State} (h : s.noTiles) : readAhead.leads s s () := fun s0 k => run_readAhead s0 s h k

theorem leads_locate {use : Use} {va : Word} {n c o : Nat} {s : State} (h : s.localAt use va n c o) :
    (locate use va n).leads s s ⟨va, .lm c o, 0, false⟩ := by
  obtain ⟨-, window, marks, fenced, locks⟩ := h
  exact fun s0 k => run_locate s0 s fenced marks window locks k

theorem leads_msgBuffer {use : Use} {va : Word} {c o : Nat} {s : State} (own : exposed va = true) (h : s.localAt use va 32 c o) :
    (msgBuffer use va).leads s s ((Space.lm c).loc o) := by
  refine M.leads_bind (leads_aligned h.1) ?_
  rw [own, if_pos rfl]
  exact M.leads_bind (leads_locate h) (M.leads_pure _ s)

/-- The words that some bytes touch are among those that bytes around them touch. -/
theorem wordsOf_subset {a n b m : Nat} (hm : 0 < m) (lo : a ≤ b) (hi : b + m ≤ a + n) : wordsOf b m ⊆ wordsOf a n := by
  intro w hw
  rw [wordsOf, if_neg (by omega), List.mem_map] at hw ⊢
  obtain ⟨k, hk, rfl⟩ := hw
  rw [List.mem_range] at hk
  exact ⟨b / 8 + k - a / 8, List.mem_range.2 (by omega), by omega⟩

theorem State.poisoned_of_within {s : State} {a n b m : Nat} (h : s.poisoned a n = false) (hm : 0 < m) (lo : a ≤ b) (hi : b + m ≤ a + n) :
    s.poisoned b m = false := by
  rw [State.poisoned, List.any_eq_false] at h ⊢
  exact fun w hw => h w (wordsOf_subset hm lo hi hw)

/-! ### `msend` (R235) -/

/-- A message sent to a destination: in its queue if it accepts, else in the send slot. -/
def State.sentTo (s : State) (d : Nat) (m : Msg) : State :=
  if s.accepts d then s.setCtx d { s.ctx d with recvq := (s.ctx d).recvq ++ [m] } else s.withMe fun c => { c with slot := some (m, d) }

theorem State.sentTo_of_accepts {s : State} {d : Nat} (h : s.accepts d = true) (m : Msg) :
    s.sentTo d m = s.setCtx d { s.ctx d with recvq := (s.ctx d).recvq ++ [m] } := if_pos h

theorem State.sentTo_of_refuses {s : State} {d : Nat} (h : s.accepts d = false) (m : Msg) :
    s.sentTo d m = s.withMe fun c => { c with slot := some (m, d) } := if_neg (by simp [h])

theorem leads_sendMessage (d : Nat) (m : Msg) (s : State) : (sendMessage d m).leads s (s.sentTo d m) () := by
  refine M.leads_get_bind ?_
  unfold State.sentTo
  split
  · exact M.leads_upd _ s
  · exact fun _ _ => rfl

/-- A `msend` that waits for its send slot with the message it has read. -/
def State.parkedWith (s : State) (m : Msg) (d : Nat) : State :=
  s.arrived.withMe fun c =>
    { c with run := .parked, wait := some { cls := .message, seq := s.dev.seq, acted := none, req := none, ins := s.dev.ins, pc := c.pc, msg := some (m, d) } }

theorem quits_parkMsend {s : State} (tiles : s.noTiles) (m : Msg) (d : Nat) (t : State) : (parkMsend m d).Quits s t (s.parkedWith m d) := by
  intro k
  simp only [parkMsend, stop_apply, run_abort, bind_apply, get_apply]
  refine (leads_nextSeq s s _).trans ?_
  rw [run_getP, run_flushWindow s s.arrived tiles]
  rfl

theorem State.parkedOn_parkedWith (s : State) (m : Msg) (d : Nat) :
    s.parkedOn (s.parkedWith m d) .message none ∧ (s.parkedWith m d).me.wait.bind (·.msg) = some (m, d) := by
  have me : (s.parkedWith m d).me = _ := State.withMe_me ..
  unfold State.parkedOn
  rw [me]
  exact ⟨⟨rfl, rfl, rfl, rfl, rfl, fun k hk => State.ctx_setCtx_ne _ _ hk⟩, rfl⟩

/-- A destination that passes the checks of R235 is no context 15, which stands for nobody. -/
theorem State.destOk_not_nobody {s : State} {p : Nat} {w : Word} (h : s.destOk p w = true) : (bitsOf w.toNat 12 5 == 30) = false := by
  simp only [State.destOk, Bool.and_eq_true, decide_eq_true_eq] at h
  obtain ⟨⟨⟨-, -⟩, context⟩, -⟩ := h
  simp only [bitsOf] at context
  simp only [bitsOf, beq_eq_false_iff_ne]
  omega

theorem exec_msend_again {rs1 : XReg} {o : S2} {m : Msg} {d : Nat} {s : State} (held : s.me.wait.bind (·.msg) = some (m, d)) :
    (s.me.slot ≠ none → exec (.msend rs1 o) s = .next s) ∧ (s.me.slot = none → exec (.msend rs1 o) s = .next (s.sentTo d m).retired) := by
  constructor
  · intro used
    refine M.Quits.instr_eq (M.leads.quits (leads_me s) ?_)
    have used' : s.me.slot.isSome = true := Option.isSome_iff_ne_none.2 used
    simp only [held, used', if_true]
    exact (quits_stall s s).bind _
  · intro free
    refine M.leads.instr_eq (f := {}) (M.leads_bind (leads_me s) ?_)
    simp only [held, free, Option.isSome_none, Bool.false_eq_true, if_false]
    exact M.leads_bind (leads_sendMessage d m s) (M.leads_pure _ _)

/-- A `msend` in user mode, or to a context that waits for no reply, sends a message (R235, R237). -/
theorem taken_plain {sup inPart : Bool} {how : Taken} (h : sup = false ∨ how = .message) :
    (if (sup && inPart) = true then how else .message) = .message := by
  rcases h with rfl | rfl
  · rfl
  · exact ite_self _

/-- The message that a `msend` reads at a location. -/
def State.messageAt (s : State) (loc : Nat) : Msg := ⟨s.bytesAt loc 32, s.ctxIdVal s.dev.cur, []⟩

/-- No word of an unpoisoned message is marked. -/
theorem State.no_marks {s : State} {loc : Nat} (h : s.poisoned loc 32 = false) :
    ((List.range 4).filterMap fun k => if s.poisoned (loc + 8 * k) 8 then some (8 * k) else none) = [] := by
  refine List.filterMap_eq_nil_iff.2 fun k hk => ?_
  rw [List.mem_range] at hk
  rw [State.poisoned_of_within h (by decide) (by omega) (by omega)]
  rfl

/-- A `msend` sends what it has read, or waits with it while its send slot is in use (R235). -/
def sendOrWait (d : Nat) (m : Msg) : M Fin := do
  let c ← me
  if c.slot.isSome then (do let _ ← parkMsend m d; pure ()) else sendMessage d m
  return {}

section
variable {rs1 : XReg} {o : S2} {core off : Nat} {s : State}

/-- Up to its send, a `msend` of a message only reads (R235). -/
theorem msend_becomes (h1 : s.readable rs1) (h2 : s.s2Readable o)
    (new : s.me.wait.bind (·.msg) = none) (plain : s.me.sup = false ∨ s.taken (destCtx (s.s2 o)) = .message)
    (dest : s.destOk s.myPart (s.s2 o) = true) (own : exposed (s.x rs1) = true) (at' : s.localAt .load (s.x rs1) 32 core off)
    (clean : s.poisoned ((Space.lm core).loc off) 32 = false) :
    ∃ m : M Fin, execMsend rs1 o = instr m ∧ m.Becomes s (sendOrWait (destCtx (s.s2 o)) (s.messageAt ((Space.lm core).loc off))) s := by
  have tiles : s.noTiles := at'.2.2.2.1.1
  refine ⟨_, rfl, M.leads.becomes (leads_me s) ?_⟩
  rw [new]
  refine M.leads.becomes (leads_rx h1) (M.leads.becomes (leads_s2Val h2) (M.leads.becomes (leads_flushWindow tiles)
    (M.leads.becomes (leads_readAhead tiles) (M.leads.becomes (M.leads_get s) ?_))))
  dsimp only
  rw [taken_plain (show (s.ctx s.dev.cur).sup = false ∨ _ from plain)]
  simp only [State.destOk_not_nobody dest, Bool.and_false, Bool.false_eq_true, if_false]
  rw [if_pos (show s.destOk (s.pnodeOf (coreOf s.dev.cur)) (s.s2 o) = true from dest)]
  refine M.leads.becomes (M.leads_bind (leads_msgBuffer own at') (M.leads_get_bind (M.leads_pure _ s))) ?_
  rw [State.no_marks clean]
  exact .refl _ s

end

theorem leads_sendOrWait {s : State} (free : s.me.slot = none) (d : Nat) (m : Msg) : (sendOrWait d m).leads s (s.sentTo d m) {} := by
  refine M.leads_bind (leads_me s) ?_
  rw [free, if_neg (by decide)]
  exact M.leads_bind (leads_sendMessage d m s) (M.leads_pure _ _)

theorem quits_sendOrWait {s : State} (tiles : s.noTiles) (used : s.me.slot ≠ none) (d : Nat) (m : Msg) :
    (sendOrWait d m).Quits s s (s.parkedWith m d) := by
  refine M.leads.quits (leads_me s) ?_
  rw [if_pos (Option.isSome_iff_ne_none.2 used)]
  exact ((quits_parkMsend tiles m d s).bind _).bind _

/-- A message that has been sent is in its destination's queue, or in the send slot, whatever the retirement does. -/
theorem sentTo_retired {s : State} {d : Nat} (m : Msg) : ((s.sentTo d m).retired).me.run = .ready ∧ ((s.sentTo d m).retired).mem = s.mem ∧
    (s.accepts d = true → (((s.sentTo d m).retired).ctx d).recvq = (s.ctx d).recvq ++ [m]) ∧
    (s.accepts d = false → ((s.sentTo d m).retired).me.slot = some (m, d)) := by
  refine ⟨by simp, ?_, fun ok => ?_, fun full => ?_⟩
  · unfold State.sentTo
    split <;> rfl
  · rw [State.sentTo_of_accepts ok]
    by_cases self : d = s.dev.cur
    · subst self
      have kept := Ctx.retire_kept {} (s.setCtx s.dev.cur { s.ctx s.dev.cur with recvq := (s.ctx s.dev.cur).recvq ++ [m] }).me
      simp only [Ctx.kept, Prod.mk.injEq] at kept
      rw [← State.retired_me] at kept
      exact kept.2.2.1.trans (congrArg Ctx.recvq (State.ctx_setCtx_self ..))
    · exact congrArg Ctx.recvq ((State.retired_ctx_ne (s.setCtx d _) {} self).trans (State.ctx_setCtx_self ..))
  · rw [State.sentTo_of_refuses full, State.retired_me]
    have kept := Ctx.retire_kept {} (s.withMe fun c => { c with slot := some (m, d) }).me
    simp only [Ctx.kept, Prod.mk.injEq] at kept
    rw [kept.2.2.2, State.withMe_me]

/-! ### Delivery (R235, R38, R357) -/

theorem exec_messageDelivery {c d : Nat} {m : Msg} {s : State} (held : (s.ctx c).slot = some (m, d)) (other : c ≠ d) :
    (s.accepts d = true → exec (.messageDelivery c) s =
      .next ((s.setCtx d { s.ctx d with recvq := (s.ctx d).recvq ++ [m] }).setCtx c { s.ctx c with slot := none })) ∧
    (s.accepts d = false → exec (.messageDelivery c) s = .next s) := by
  constructor
  · intro ok
    refine M.leads.event_eq (M.leads_get_bind ?_)
    simp only [held, ok, if_true]
    refine M.leads_upd_bind ?_
    have l := M.leads_upd (.ctx c fun c => { c with slot := none }) (s.setCtx d { s.ctx d with recvq := (s.ctx d).recvq ++ [m] })
    rwa [Upd.apply, State.ctx_setCtx_ne _ _ other] at l
  · intro full
    refine congrArg Host.Outcome.next ?_
    show P.run s (deliverHeld c fun _ => .done) s = s
    refine (M.leads_get s s _).trans ?_
    simp only [held, full, Bool.false_eq_true, if_false]
    rfl

theorem exec_mailboxPost {p : Nat} {m : Msg} {rest : List Msg} {s : State} (posted : (s.part p).mbq = m :: rest) :
    ((s.part p).mailbox.length < 64 → exec (.mailboxPost p) s =
      .next (s.setPart p fun q => { q with mailbox := q.mailbox ++ [m], mbq := rest })) ∧
    (64 ≤ (s.part p).mailbox.length → exec (.mailboxPost p) s = .next s) := by
  constructor
  · intro room
    refine M.leads.event_eq (M.leads_get_bind ?_)
    simp only [posted, room, if_true]
    exact M.leads_upd _ s
  · intro full
    refine congrArg Host.Outcome.next ?_
    refine (M.leads_get s s _).trans ?_
    simp only [posted, if_neg (Nat.not_lt.2 full)]
    rfl

/-! ### Receiving (R236, R237, R239) -/

theorem exec_mpoll (rd : XReg) (s : State) : exec (.mpoll rd) s = .next (s.wrote rd (BitVec.ofNat 64 (s.inbox s.dev.cur).length)).retired :=
  M.leads.instr_eq (f := {}) (M.leads_get_bind (M.leads_bind (leads_wx _ _ s) (M.leads_pure _ _)))

/-- The oldest message of a partition's mailbox, or of a context's own queue, taken (R236, R237). -/
def State.popped (s : State) : State :=
  if s.onMailbox s.dev.cur then s.setPart s.myPart fun q => { q with mailbox := q.mailbox.tail }
  else s.withMe fun c => { c with recvq := c.recvq.tail }

section
variable {rd rs1 : XReg} {core off : Nat} {s : State} (tiles : s.noTiles) (h1 : s.readable rs1) (own : exposed (s.x rs1) = true)
  (at' : s.localAt .store (s.x rs1) 32 core off)
include tiles h1 own at'

theorem exec_mrecv_waits (empty : s.inbox s.dev.cur = []) : exec (.mrecv rd rs1) s = .next (s.parkedFor .message) := by
  refine M.Quits.instr_eq (M.leads.quits (leads_rx h1) (M.leads.quits (leads_flushWindow tiles) (M.leads.quits (leads_msgBuffer own at')
    (M.leads.quits (M.leads_get s) ?_))))
  dsimp only
  rw [empty]
  exact quits_park tiles (by decide) s

theorem exec_mrecv {m : Msg} {rest : List Msg} (oldest : s.inbox s.dev.cur = m :: rest) (clean : m.poison = []) : exec (.mrecv rd rs1) s =
    .next (((Upd.poke ((Space.lm core).loc off) m.payload).apply s.popped).wrote rd m.sender).retired := by
  refine M.leads.instr_eq (f := {}) (M.leads_bind (leads_rx h1) (M.leads_bind (leads_flushWindow tiles) (M.leads_bind (leads_msgBuffer own at')
    (M.leads_get_bind ?_))))
  dsimp only
  rw [oldest]
  simp only [clean, List.isEmpty_nil, Bool.not_true, Bool.false_eq_true, if_false]
  have pops : (if s.onMailbox s.dev.cur then upd (.part (s.pnodeOf (coreOf s.dev.cur)) fun q => { q with mailbox := q.mailbox.tail })
      else updMe fun c => { c with recvq := c.recvq.tail } : M Unit).leads s s.popped () := by
    unfold State.popped
    split
    · exact M.leads_upd _ s
    · exact fun _ _ => rfl
  exact M.leads_bind pops (M.leads_upd_bind (M.leads_bind (leads_wx _ _ _) (M.leads_pure _ _)))

end

section
variable {s : State} (compute : s.onVent = false) (tiles : s.noTiles) (rd : XReg)
include compute tiles

theorem exec_cqPop {w : Word} {rest : List Word} (oldest : s.myCore.cq = w :: rest) : exec (.cqPop rd) s =
    .next ((s.withMyCore fun c => { c with cq := c.cq.tail }).wrote rd w).retired := by
  refine M.leads.instr_eq (f := {}) (M.leads_bind (leads_agent _ (congrArg (!·) compute)) (M.leads_bind (leads_flushWindow tiles)
    (M.leads_bind (leads_myCore s) ?_)))
  rw [oldest]
  exact M.leads_bind (fun s0 k => run_updMyCore s0 s _ k) (M.leads_bind (leads_wx _ _ _) (M.leads_pure _ _))

theorem exec_cqPop_waits (empty : s.myCore.cq = []) : exec (.cqPop rd) s = .next (s.parkedFor .message) := by
  refine M.Quits.instr_eq (M.leads.quits (leads_agent _ (congrArg (!·) compute)) (M.leads.quits (leads_flushWindow tiles)
    (M.leads.quits (leads_myCore s) ?_)))
  rw [empty]
  exact quits_park tiles (by decide) s

end

/-- Settles O21: a `msend` reads its message and then sends it or waits; what is received is the head of a queue. -/
theorem messages : Obligations.Messages := by
  unfold Obligations.Messages
  refine ⟨⟨?send, ?again, fun s => ⟨fun c m d => exec_messageDelivery, fun p m rest => exec_mailboxPost⟩⟩, ?receive⟩
  case send =>
    intro rs1 o core off s h1 h2 d loc m new plain dest own at' clean
    have tiles : s.noTiles := at'.2.2.2.1.1
    obtain ⟨body, run, first⟩ := msend_becomes h1 h2 new plain dest own at' clean
    have run : exec (.msend rs1 o) s = instr body s := congrFun run s
    rw [run]
    refine ⟨fun free => ?_, fun used => ?_⟩
    · rw [M.leads.instr_eq (first.leads (leads_sendOrWait free d m))]
      exact ⟨fun ok => by rw [State.sentTo_of_accepts ok], fun full => by rw [State.sentTo_of_refuses full]⟩
    · obtain ⟨parked, keeps⟩ := s.parkedOn_parkedWith m d
      exact ⟨_, M.Quits.instr_eq (first.quits (quits_sendOrWait tiles used d m)), parked, rfl, keeps⟩
  case again =>
    intro rs1 o m d s held
    obtain ⟨waits, sends⟩ := exec_msend_again (rs1 := rs1) (o := o) held
    obtain ⟨run, mem, queued, slot⟩ := sentTo_retired (s := s) (d := d) m
    exact ⟨waits, fun free => ⟨fun ok => ⟨_, sends free, run, mem, queued ok⟩, fun full => ⟨_, sends free, run, mem, slot full⟩⟩⟩
  case receive =>
    intro rd rs1 core off s tiles loc
    refine ⟨exec_mpoll rd s, fun h1 own at' => ⟨fun empty => ?_, fun m rest oldest clean user => ?_, fun m rest oldest clean box => ?_⟩,
      fun compute => ⟨fun w rest => exec_cqPop compute tiles rd, fun empty => ?_⟩⟩
    · exact ⟨_, exec_mrecv_waits tiles h1 own at' empty, s.parkedOn_parkedFor .message, rfl⟩
    · rw [exec_mrecv tiles h1 own at' oldest clean, State.popped, user, if_neg (by decide)]
    · rw [exec_mrecv tiles h1 own at' oldest clean, State.popped, box, if_pos rfl]
    · exact ⟨_, exec_cqPop_waits compute tiles rd empty, s.parkedOn_parkedFor .message, rfl⟩

end Sys2Proof.Machine
end

section
/-!
SUPPORT. Loads and stores in the order of R213: the checks that every one makes, each said once, so that an access is known from where it lands and from
what its plain read or write does there; then the windows that are not translated (R73, R76, R216, R217, R229).
-/

namespace Sys2Proof.Machine

open M

/-! ### The checks of an access (R213) -/

/-- The executing context as the one that performs an access. -/
def State.byMe (s : State) : By := ⟨.ctx s.dev.cur, s.dev.cur, s.me.pc⟩

theorem leads_byMe (s : State) : Machine.byMe.leads s s s.byMe := fun _ _ => rfl

section
variable {b : By} {a : Acc} {n d : Nat} {s t : State}

/-- An access in whose way no check of R213 stands: its reuse code is known, it is made in this package, no stash frame turns it away, and no page of
it is watched for races. -/
structure State.Plain (s : State) (b : By) (a : Acc) (d : Nat) : Prop where
  code : s.codeBad (coreOf b.id) a d = false
  here : s.away (coreOf b.id) a = false
  frame : s.unstashable (coreOf b.id) a = false
  race : s.raceLoc (s.tenOf (coreOf b.id)) a = none

theorem leads_codeFail (h : s.codeBad (coreOf b.id) a d = false) : (codeFail b failMe a d).leads s s () := by
  refine M.leads_get_bind ?_
  rw [h]
  exact M.leads_pure () s

theorem leads_stashFail (h : s.unstashable (coreOf b.id) a = false) : (stashFail b failMe a).leads s s () := by
  refine M.leads_get_bind ?_
  rw [h]
  exact M.leads_pure () s

theorem leads_farFirst (h : s.unstashable (coreOf b.id) a = false) (rs : List ROp) : (farFirst b failMe a rs).leads s s () := by
  refine M.leads_get_bind ?_
  simp only [h, Bool.not_false, if_true]
  exact M.leads_pure () s

theorem leads_loadChecks (h : s.Plain b a d) : (loadChecks b failMe a n).leads s s () :=
  M.leads_bind (leads_stashFail h.frame) (M.leads_bind (fun s0 k => run_raceOf s0 s h.race n false k) (M.leads_pure () s))

/-- A load that passes its checks before and after its read gives what it reads. -/
theorem leads_loadAt {v : Nat} (hs : s.Plain b a d) (ht : t.Plain b a d) (l : (loadPlain b failMe a n d).leads s t v) :
    (loadAt b failMe a n d).leads s t (BitVec.ofNat 64 v) := by
  refine M.leads_bind (M.leads_bind (leads_codeFail hs.code) (M.leads_get_bind ?_)) (M.leads_pure _ t)
  simp only [hs.here, Bool.false_eq_true, if_false]
  exact M.leads_bind l (M.leads_bind (leads_loadChecks ht) (M.leads_pure v t))

/-- So does a store. -/
theorem leads_storeAt {v : Word} (plain : a.ver = false) (hs : s.Plain b a d) (l : (storePlain b failMe a n d v).leads s t ()) :
    (storeAt b failMe a n d v).leads s t () := by
  unfold storeAt
  rw [plain, if_neg (by decide)]
  refine M.leads_bind (leads_codeFail hs.code) (M.leads_bind (leads_farFirst hs.frame _) (M.leads_bind (leads_stashFail hs.frame)
    (M.leads_get_bind ?_)))
  simp only [hs.here, Bool.false_and, Bool.false_eq_true, if_false]
  exact M.leads_bind (fun s0 k => run_raceOf s0 s hs.race n true k) (M.leads_bind l (M.leads_pure () t))

end

section
variable {rd rs1 : XReg} {off : BitVec 8} {nu : BitVec 4} {n : Nat} {s u t : State} {a : Acc}

/-- A load is known from where it lands and what it reads there. -/
theorem run_loadOp {ext : Word → Word} {v : Word} (h1 : s.readable rs1) (straight : (eaOf (s.x rs1) off n).toNat % n = 0)
    (l : (locate .load (eaOf (s.x rs1) off n) n).leads s u a) (r : (loadAt u.byMe failMe a n nu.toNat).leads u t v) :
    instr (loadOp n ext rd rs1 off nu) s = .next ((t.loaded rd (eaOf (s.x rs1) off n) (ext v)).retired { trc := true }) := by
  refine M.leads.instr_eq (f := { trc := true }) (M.leads_bind (leads_rx h1) ?_)
  rw [addrM_eq]
  exact M.leads_bind (leads_aligned straight) (M.leads_bind l (M.leads_bind (leads_byMe u) (M.leads_bind r
    (M.leads_bind (fun s0 k => run_loadInto t rd s0 _ _ k) (M.leads_pure _ _)))))

theorem run_storeOp (h1 : s.readable rs1) (h2 : s.readable rd) (straight : (eaOf (s.x rs1) off n).toNat % n = 0)
    (l : (locate .store (eaOf (s.x rs1) off n) n).leads s u a) (w : (storeAt u.byMe failMe a n nu.toNat (s.x rd)).leads u t ()) :
    instr (storeOp n rd rs1 off nu) s = .next (t.retired { trc := true }) := by
  refine M.leads.instr_eq (f := { trc := true }) (M.leads_bind (leads_rx h1) (M.leads_bind (leads_rx h2) ?_))
  rw [addrM_eq]
  exact M.leads_bind (leads_aligned straight) (M.leads_bind l (M.leads_bind (leads_byMe u) (M.leads_bind w (M.leads_pure _ _))))

end

/-! ### The tables of loads and stores -/

theorem sext_ofNat {n : Nat} (h : n ≤ 64) (m : Nat) : sext n (BitVec.ofNat 64 m).toNat = (BitVec.ofNat n m).signExtend 64 := by
  have e : BitVec.ofNat n (m % 2 ^ 64) = BitVec.ofNat n m := BitVec.eq_of_toNat_eq (by
    rw [BitVec.toNat_ofNat, BitVec.toNat_ofNat, Nat.mod_mod_of_dvd _ (Nat.pow_dvd_pow 2 h)])
  rw [sext, BitVec.toNat_ofNat, e]

/-- Each load of the table is the common load with an extension that does to a word of its bytes what the table says. -/
theorem exec_loadTable : ∀ e ∈ loadTable, e.2.1 ∈ [1, 2, 4, 8] ∧ ∃ ext : Word → Word, (∀ m, ext (BitVec.ofNat 64 m) = e.2.2 m) ∧
    ∀ (rd rs1 : XReg) (off : BitVec 8) (nu : BitVec 4) (s : State), exec (e.1 rd rs1 off nu) s = instr (loadOp e.2.1 ext rd rs1 off nu) s := by
  simp only [loadTable, List.forall_mem_cons]
  exact ⟨⟨by decide, _, sext_ofNat (by decide), fun _ _ _ _ _ => rfl⟩, ⟨by decide, _, sext_ofNat (by decide), fun _ _ _ _ _ => rfl⟩,
    ⟨by decide, _, sext_ofNat (by decide), fun _ _ _ _ _ => rfl⟩, ⟨by decide, id, fun _ => rfl, fun _ _ _ _ _ => rfl⟩,
    ⟨by decide, id, fun _ => rfl, fun _ _ _ _ _ => rfl⟩, ⟨by decide, id, fun _ => rfl, fun _ _ _ _ _ => rfl⟩,
    ⟨by decide, id, fun _ => rfl, fun _ _ _ _ _ => rfl⟩, List.forall_mem_nil _⟩

theorem exec_storeTable : ∀ e ∈ storeTable, e.2 ∈ [1, 2, 4, 8] ∧
    ∀ (rs rs1 : XReg) (off : BitVec 8) (nu : BitVec 4) (s : State), exec (e.1 rs rs1 off nu) s = instr (storeOp e.2 rs rs1 off nu) s := by
  simp only [storeTable, List.forall_mem_cons]
  exact ⟨⟨by decide, fun _ _ _ _ _ => rfl⟩, ⟨by decide, fun _ _ _ _ _ => rfl⟩, ⟨by decide, fun _ _ _ _ _ => rfl⟩,
    ⟨by decide, fun _ _ _ _ _ => rfl⟩, List.forall_mem_nil _⟩

end Sys2Proof.Machine
end

section
/-!
SUPPORT. Loads and stores of the windows that are not translated (R73, R76, R213, R216, R217, R229), and the causes that an access takes before it is
made (R213, R390).
-/

namespace Sys2Proof.Machine

open M

/-! ### Where an access lands -/

theorem leads_vecOrder {use : Use} {s : State} (h : s.vecDone) : (vecOrder use).leads s s () := by
  unfold vecOrder
  split
  · exact M.leads_pure () s
  · exact fun s0 k => run_drainVec s0 s h k

/-- A part that changes nothing may be passed by. -/
theorem becomes_skip {α : Type} {c : Prop} [Decidable c] {m : M Unit} {f : Unit → M α} {s : State} (h : m.leads s s ()) :
    (if c then m >>= f else f () : M α).Becomes s (f ()) s := by
  split
  · exact h.becomes (.refl _ s)
  · exact .refl _ s

section
variable {use : Use} {va : Word} {n : Nat} {s : State} (fenced : s.fenced)
include fenced

/-- A marked register that decides the window is a cause before the window is looked at (R390). -/
theorem quits_locate_marked (marks : s.windowBad s.dev.cur va.toNat = true) : (locate use va n).Quits s s (s.took { code := POISON, val := 0 }) := by
  refine M.leads.quits (leads_vecOrder fenced.2) ((becomes_skip (leads_readAhead fenced.1)).quits (M.leads.quits (M.leads_get s) ?_))
  rw [marks, if_pos rfl]
  exact (quits_raise fenced.1 _ _).bind _

/-- A window that refuses an access gives its cause (R213, R214). -/
theorem quits_locate_refused {c : BitVec 8} (marks : s.windowBad s.dev.cur va.toNat = false)
    (window : s.window s.dev.cur use va.toNat n = .error c) : (locate use va n).Quits s s (s.took { code := c, val := va }) := by
  refine M.leads.quits (leads_vecOrder fenced.2) ((becomes_skip (leads_readAhead fenced.1)).quits (M.leads.quits (M.leads_get s) ?_))
  rw [marks, if_neg (by decide), window]
  exact quits_raise fenced.1 _ _

/-- An access to a register of a window lands there. -/
theorem leads_locate_register {x : Tgt} (hx : ∀ c o, x ≠ .lm c o) (marks : s.windowBad s.dev.cur va.toNat = false)
    (window : s.window s.dev.cur use va.toNat n = .ok (some x)) : (locate use va n).leads s s ⟨va, x, 0, false⟩ := by
  refine M.leads_bind (leads_vecOrder fenced.2) ((becomes_skip (leads_readAhead fenced.1)).leads (M.leads_get_bind ?_))
  rw [marks, if_neg (by decide), window]
  cases x
  case lm c o => exact absurd rfl (hx c o)
  all_goals exact M.leads_pure _ s

end

/-! ### Causes before an access is made (R213, R390) -/

theorem quits_aligned {va : Word} {n : Nat} {s : State} (tiles : s.noTiles) (h : va.toNat % n ≠ 0) :
    (aligned va n).Quits s s (s.took { code := MISALIGNED, val := va }) := by
  unfold aligned
  rw [if_neg h]
  exact quits_raise tiles _ _

section
variable {n : Nat} {ext : Word → Word} {rd rs1 : XReg} {off : BitVec 8} {nu : BitVec 4} {s t : State} (h1 : s.readable rs1)
include h1

theorem loadOp_misaligned (tiles : s.noTiles) (h : (eaOf (s.x rs1) off n).toNat % n ≠ 0) :
    instr (loadOp n ext rd rs1 off nu) s = .next (s.took { code := MISALIGNED, val := eaOf (s.x rs1) off n }) := by
  refine M.Quits.instr_eq (M.leads.quits (leads_rx h1) ?_)
  rw [addrM_eq]
  exact (quits_aligned tiles h).bind _

theorem loadOp_refused (straight : (eaOf (s.x rs1) off n).toNat % n = 0) (q : (locate .load (eaOf (s.x rs1) off n) n).Quits s s t) :
    instr (loadOp n ext rd rs1 off nu) s = .next t := by
  refine M.Quits.instr_eq (M.leads.quits (leads_rx h1) ?_)
  rw [addrM_eq]
  exact M.leads.quits (leads_aligned straight) (q.bind _)

theorem storeOp_misaligned (h2 : s.readable rd) (tiles : s.noTiles) (h : (eaOf (s.x rs1) off n).toNat % n ≠ 0) :
    instr (storeOp n rd rs1 off nu) s = .next (s.took { code := MISALIGNED, val := eaOf (s.x rs1) off n }) := by
  refine M.Quits.instr_eq (M.leads.quits (leads_rx h1) (M.leads.quits (leads_rx h2) ?_))
  rw [addrM_eq]
  exact (quits_aligned tiles h).bind _

theorem storeOp_refused (h2 : s.readable rd) (straight : (eaOf (s.x rs1) off n).toNat % n = 0)
    (q : (locate .store (eaOf (s.x rs1) off n) n).Quits s s t) : instr (storeOp n rd rs1 off nu) s = .next t := by
  refine M.Quits.instr_eq (M.leads.quits (leads_rx h1) (M.leads.quits (leads_rx h2) ?_))
  rw [addrM_eq]
  exact M.leads.quits (leads_aligned straight) (q.bind _)

end

/-- Settles O15: the alignment comes first, then the registers that decide the window, then the window. -/
theorem accessFaults : Obligations.AccessFaults := by
  unfold Obligations.AccessFaults
  intro s off nu r rs1 h1 h2 fenced
  refine ⟨fun e he => ?_, fun e he => ?_⟩
  · obtain ⟨-, ext, -, run⟩ := exec_loadTable e he
    rw [run]
    exact ⟨loadOp_misaligned h1 fenced.1, fun c straight marks window => loadOp_refused h1 straight (quits_locate_refused fenced marks window),
      fun straight marks => loadOp_refused h1 straight (quits_locate_marked fenced marks)⟩
  · obtain ⟨-, run⟩ := exec_storeTable e he
    rw [run]
    exact ⟨storeOp_misaligned h1 h2 fenced.1,
      fun c straight marks window => storeOp_refused h1 h2 straight (quits_locate_refused fenced marks window)⟩

/-! ### The EVENT and DEVICE windows (R76, R229) -/

/-- Beyond the LOCAL window no load is exposed (R39, R73). -/
theorem not_exposed {va : Word} (h : 0x100000 ≤ va.toNat % 2 ^ 52) : exposed va = false := by
  rw [exposed, decide_eq_false (Nat.not_lt.2 h), Bool.and_false]

/-- A choice whose first arm is a cause has taken the second, where an access is served. -/
theorem served_else {c : Prop} [Decidable c] {e : BitVec 8} {b : Except (BitVec 8) (Option Tgt)} {x : Tgt}
    (h : (if c then .error e else b) = .ok (some x)) : ¬c ∧ b = .ok (some x) := by
  rcases ite_eq_iff.1 h with ⟨-, h⟩ | h
  · cases h
  · exact h

theorem served_then {c : Prop} [Decidable c] {e : BitVec 8} {y x : Tgt}
    (h : (if c then Except.ok (some y) else Except.error e) = .ok (some x)) : c ∧ y = x := by
  rcases ite_eq_iff.1 h with ⟨hc, h⟩ | ⟨-, h⟩ <;> cases h
  exact ⟨hc, rfl⟩

/-- What the window of an EVENT or DEVICE register says of the address: it lies beyond the LOCAL window, and an EVENT register is one of R229. -/
theorem window_register {use : Use} {va n id : Nat} {x : Tgt} {s : State} (h : s.window id use va n = .ok (some x))
    (hx : ∀ c o, x ≠ .lm c o) : 0x100000 ≤ va % 2 ^ 52 ∧ ∀ o, x = .event o → eventReg o = true := by
  unfold State.window at h
  rcases ite_eq_iff.1 h with ⟨-, h⟩ | ⟨-, h⟩
  · cases h
  obtain ⟨-, h⟩ := served_else h
  rcases ite_eq_iff.1 h with ⟨-, h⟩ | ⟨-, h⟩
  · exact absurd (served_then (served_else (served_else h).2).2).2.symm (hx _ _)
  obtain ⟨-, h⟩ := served_else h
  rcases ite_eq_iff.1 h with ⟨-, h⟩ | ⟨-, h⟩
  · exact absurd (served_then (served_else (served_else (served_else (served_else h).2).2).2).2).2.symm (hx _ _)
  rcases ite_eq_iff.1 h with ⟨event, h⟩ | ⟨-, h⟩
  · rcases ite_eq_iff.1 h with ⟨reg, h⟩ | ⟨-, h⟩
    · obtain ⟨-, rfl⟩ := served_then h
      simp only [Bool.and_eq_true] at reg
      simp only [Bool.and_eq_true, decide_eq_true_eq] at event
      exact ⟨le_trans (by decide) event.1, fun o e => Tgt.event.inj e ▸ reg.2⟩
    · cases h
  rcases ite_eq_iff.1 h with ⟨device, h⟩ | ⟨-, h⟩
  · obtain ⟨-, rfl⟩ := served_then h
    simp only [Bool.and_eq_true, decide_eq_true_eq] at device
    exact ⟨le_trans (by decide) device.1, fun o e => Tgt.noConfusion e⟩
  · cases h

end Sys2Proof.Machine
end

section
/-!
SUPPORT. Loads and stores of local memory and of the EVENT and DEVICE windows (R73, R76, R216, R217, R229).
-/

namespace Sys2Proof.Machine

open M

/-! ### What the registers of the EVENT and DEVICE windows read (R76, R229) -/

theorem toNat_append_eq_add {m n : Nat} (x : BitVec m) (y : BitVec n) : (x ++ y).toNat = x.toNat * 2 ^ n + y.toNat := by
  rw [BitVec.toNat_append, ← Nat.shiftLeft_add_eq_or_of_lt y.isLt, Nat.shiftLeft_eq]

/-- The fields of a barrier register, as one number. -/
theorem Bar.reg_eq (b : Bar) :
    b.reg = BitVec.ofNat 64 (b.gen.toNat * 2 ^ 32 + b.chain.toNat * 2 ^ 8 + b.arr.toNat * 2 ^ 4 + b.pmask.toNat) := by
  refine BitVec.eq_of_toNat_eq ?_
  have hg := b.gen.isLt
  have hc := b.chain.isLt
  have ha := b.arr.isLt
  have hp := b.pmask.isLt
  simp only [Bar.reg, toNat_append_eq_add, BitVec.toNat_ofNat]
  omega

/-- The bits of the mutex register are the mutexes that are held, whatever stood before. -/
theorem testBit_mutexes (l : SMap Nat) (n i : Nat) :
    (l.foldl (fun n e => n ||| 2 ^ e.1) n).testBit i = (n.testBit i || l.any fun e => e.1 == i) := by
  induction l generalizing n with
  | nil => simp
  | cons e l ih => simp [ih, Nat.testBit_or, Nat.testBit_two_pow, Bool.or_assoc, Bool.beq_eq_decide_eq]

/-- R229: each register of the EVENT window reads what the cluster holds. -/
theorem eventReads_reg (u : Cluster) (o : Nat) : eventReads u o (u.reg o) := by
  refine ⟨fun i hi e => ?_, fun e => ?_, fun e i hi => ?_, fun e => ?_⟩ <;> subst e
  · rw [Cluster.reg, if_pos (by omega), Nat.mul_div_cancel_left i (by decide), Bar.reg_eq]
  · rw [BitVec.ofNat_toNat]
    rfl
  · show (BitVec.ofNat 64 _).getLsbD i = _
    rw [BitVec.getLsbD_ofNat, testBit_mutexes, Nat.zero_testBit, Bool.false_or, decide_eq_true hi, Bool.true_and]
  · rw [BitVec.ofNat_toNat]
    rfl

/-- A doubleword of a flow-table entry. -/
theorem shiftRight_doubleword (f : BitVec 512) (j : Nat) :
    (f >>> (8 * (8 * j))).setWidth 64 = BitVec.ofNat 64 (f.toNat / 2 ^ (64 * j)) := by
  refine BitVec.eq_of_toNat_eq ?_
  rw [BitVec.toNat_setWidth, BitVec.toNat_ushiftRight, BitVec.toNat_ofNat, Nat.shiftRight_eq_div_pow, ← Nat.mul_assoc]

/-- R76: each register of the DEVICE window reads what the device holds. -/
theorem deviceReads_deviceReg (s : State) (core o : Nat) : s.deviceReads core o (s.deviceReg core o) := by
  refine ⟨fun n hn e => ?_, fun d hd e => ?_, fun e => ?_, fun e => ?_, fun ca i j hi hj e => ?_⟩ <;> unfold State.deviceReg
  · rw [if_neg (by simp; omega), if_pos (by simp; omega), e, Nat.add_sub_cancel_left, Nat.mul_div_cancel_left n (by decide)]
  · rw [if_neg (by simp; omega), if_neg (by simp; omega), if_pos (by simp; omega), e, Nat.add_sub_cancel_left,
      Nat.mul_div_cancel_left d (by decide)]
  · rw [BitVec.ofNat_toNat, e]
    rfl
  · rw [e]
    rfl
  · have hc := ca.toNat_le
    have side : decide (0xC0000 ≤ o) = ca := by cases ca <;> simp at e ⊢ <;> omega
    have entry : o % 0x40000 / 64 = i := by omega
    have word : o % 0x40000 % 64 = 8 * j := by omega
    rw [if_neg (by simp; omega), if_neg (by simp; omega), if_neg (by simp; omega), if_neg (by omega), if_neg (by omega),
      if_pos (by simp; omega)]
    simp only [side, entry, word, shiftRight_doubleword]
    rfl

/-- A store to the EVENT window writes the position mask of a barrier without arrivals (R229). -/
theorem Cluster.setReg_bar {o : Nat} (ho : eventReg o = true) (u : Cluster) (v : Word) (i : Nat) :
    (u.setReg o v).bar i = if o = 8 * i ∧ i < 4 ∧ (u.bar i).arr = 0 then { u.bar i with pmask := v.setWidth 4 } else u.bar i := by
  unfold Cluster.setReg
  by_cases low : o < 0x20
  · have aligned : o % 8 = 0 := by
      simp only [eventReg, Bool.or_eq_true, Bool.and_eq_true, beq_iff_eq] at ho
      omega
    rw [if_pos low]
    by_cases hi : i = o / 8
    · subst hi
      rw [Cluster.bar_setBar_self]
      exact if_congr ⟨fun h => ⟨by omega, by omega, h⟩, fun h => h.2.2⟩ rfl rfl
    · rw [Cluster.bar_setBar_ne _ _ _ hi, if_neg (by omega)]
  · rw [if_neg low, if_neg (by omega)]

theorem Cluster.setReg_rest (u : Cluster) (o : Nat) (v : Word) :
    ((u.setReg o v).lines, (u.setReg o v).mutex, (u.setReg o v).intv) = (u.lines, u.mutex, u.intv) := by
  unfold Cluster.setReg
  split <;> rfl

/-! ### Accesses to them -/

section
variable {b : By} {a : Acc} {d n : Nat} {s : State} {use : Use}

/-- Nothing stands in the way of an access to a register. -/
theorem plain_register {x : Tgt} {va : Word} (hx : (∃ o, x = .event o) ∨ ∃ o, x = .device o)
    (window : s.window s.dev.cur use va.toNat n = .ok (some x)) : s.Plain b ⟨va, x, 0, false⟩ d := by
  have frame : s.unstashable (coreOf b.id) ⟨va, x, 0, false⟩ = false := by
    simp only [State.unstashable, not_inGlobal_of_window window, Bool.false_and]
  obtain ⟨o, rfl⟩ | ⟨o, rfl⟩ := hx <;> exact ⟨rfl, rfl, frame, ite_self _⟩

theorem leads_loadPlain_event {va : Word} {o : Nat} {l : Word} {ver : Bool} :
    (loadPlain b failMe ⟨va, .event o, l, ver⟩ n d).leads s s ((s.cluster (coreOf b.id / 4)).reg o).toNat := fun _ _ => rfl

theorem leads_loadPlain_device {va : Word} {o : Nat} {l : Word} {ver : Bool} :
    (loadPlain b failMe ⟨va, .device o, l, ver⟩ n d).leads s s (s.deviceReg (coreOf b.id) o).toNat := fun _ _ => rfl

theorem leads_storePlain_event {va v l : Word} {o : Nat} {ver : Bool} : (storePlain b failMe ⟨va, .event o, l, ver⟩ n d v).leads s
    (s.setCluster (coreOf b.id / 4) ((s.cluster (coreOf b.id / 4)).setReg o v)) () := fun _ _ => rfl

end

/-- A load of a register of a window, which is not exposed (R39). -/
theorem exec_ld_register {rd rs1 : XReg} {off : BitVec 8} {nu : BitVec 4} {s : State} {x : Tgt} {v : Word} (h1 : s.readable rs1) (fenced : s.fenced)
    (straight : (eaOf (s.x rs1) off 8).toNat % 8 = 0) (marks : s.windowBad s.dev.cur (eaOf (s.x rs1) off 8).toNat = false)
    (hx : (∃ o, x = .event o) ∨ ∃ o, x = .device o) (window : s.window s.dev.cur .load (eaOf (s.x rs1) off 8).toNat 8 = .ok (some x))
    (r : (loadPlain s.byMe failMe ⟨eaOf (s.x rs1) off 8, x, 0, false⟩ 8 nu.toNat).leads s s v.toNat) :
    exec (.ld rd rs1 off nu) s = .next ((s.wrote rd v).retired { trc := true }) := by
  have register : ∀ c o, x ≠ .lm c o := by
    obtain ⟨o, rfl⟩ | ⟨o, rfl⟩ := hx <;> exact fun _ _ => Tgt.noConfusion
  have plain : s.Plain s.byMe ⟨eaOf (s.x rs1) off 8, x, 0, false⟩ nu.toNat := plain_register hx window
  refine (run_loadOp (ext := id) h1 straight (leads_locate_register fenced register marks window) (leads_loadAt plain plain r)).trans ?_
  rw [State.loaded, not_exposed (window_register window register).1, BitVec.ofNat_toNat, BitVec.setWidth_eq]
  rfl

/-- Settles O13: the local part follows the model's own lemmas; a register of a window is read and written as its cluster or the device holds it. -/
theorem loadsAndStores : Obligations.LoadsAndStores := by
  unfold Obligations.LoadsAndStores
  refine ⟨?_, fun e he rs rs1 off nu core o s h1 h2 hl => exec_store_local rs rs1 s off nu core o h1 h2 e he hl, ?_⟩
  · intro e he rd rs1 off nu core o s va h1 hl hp
    obtain ⟨-, ext, agree, run⟩ := exec_loadTable e he
    rw [run, ← agree]
    exact run_loadOp_local s rd rs1 off nu e.2.1 ext h1 hl hp
  intro r rs1 off nu o s h1 fenced va u straight marks
  refine ⟨fun window => ?_, fun h2 window => ?_, fun window => ?_⟩
  · exact ⟨_, exec_ld_register h1 fenced straight marks (.inl ⟨o, rfl⟩) window leads_loadPlain_event, eventReads_reg u o⟩
  · have register : ∀ c a, Tgt.event o ≠ .lm c a := fun _ _ => Tgt.noConfusion
    refine ⟨_, run_storeOp h1 h2 straight (leads_locate_register fenced register marks window)
      (leads_storeAt rfl (plain_register (.inl ⟨o, rfl⟩) window) leads_storePlain_event), ?_, rfl, fun k hk => ?_, fun i => ?_, ?_⟩
    · rw [State.retired_me, Ctx.retire_run]
    · rw [State.retired_cluster]
      exact State.cluster_setCluster_ne _ _ hk
    · rw [State.retired_cluster]
      exact (congrArg (Cluster.bar · i) (State.cluster_setCluster_self s _ _)).trans
        (Cluster.setReg_bar ((window_register window register).2 o rfl) u (s.x r) i)
    · rw [State.retired_cluster]
      exact (congrArg (fun c : Cluster => (c.lines, c.mutex, c.intv)) (State.cluster_setCluster_self s _ _)).trans (Cluster.setReg_rest u o (s.x r))
  · exact ⟨_, exec_ld_register h1 fenced straight marks (.inr ⟨o, rfl⟩) window leads_loadPlain_device, deviceReads_deviceReg s _ o⟩

end Sys2Proof.Machine
end

section
/-!
SUPPORT. Atomics and reductions on local memories (R108, R221 to R223).
-/

namespace Sys2Proof.Machine

open M

/-- A change of the executing context that changes nothing leaves no trace once a register is written. -/
theorem State.withMe_wrote {s : State} {f : Ctx → Ctx} (h : f s.me = s.me) (r : XReg) (v : Word) : (s.withMe f).wrote r v = s.wrote r v := by
  have me : (s.withMe f).me = s.me := (State.withMe_me s f).trans h
  have rest (g : Ctx → Ctx) : (s.withMe f).withMe g = s.withMe g :=
    (congrArg ((s.withMe f).setCtx s.dev.cur) (congrArg g me)).trans (State.setCtx_setCtx ..)
  unfold State.wrote
  rw [me]
  split
  · exact (congrArg (State.withMyCore · (Core.overtake s.dev.cur r .passed)) (rest (Ctx.wrOver r v)) :)
  · exact rest _

/-- A choice that both of its arms go on from alike is known from the choice alone. -/
theorem leads_join {α β : Type} {c : Prop} [Decidable c] {m m' : M α} {f : α → M β} {s t u : State} {a : α} {b : β}
    (l : (if c then m else m').leads s t a) (k : (f a).leads t u b) : (if c then m >>= f else m' >>= f).leads s u b := by
  by_cases hc : c
  · rw [if_pos hc] at l ⊢
    exact M.leads_bind l k
  · rw [if_neg hc] at l ⊢
    exact M.leads_bind l k

section
variable {use : Use} {va : Word} {n core o : Nat} {s : State}

/-- Nothing stands in the way of an access to a local memory. -/
theorem plain_local {b : By} {d : Nat} (at' : s.localAt use va n core o) : s.Plain b ⟨va, .lm core o, 0, false⟩ d := by
  refine ⟨rfl, rfl, ?_, ite_self _⟩
  simp only [State.unstashable, not_inGlobal_of_window at'.2.1, Bool.false_and]

theorem leads_stashCheck {a : Acc} (h : s.unstashable (coreOf s.dev.cur) a = false) : (stashCheck a).leads s s () := by
  refine M.leads_get_bind ?_
  rw [h]
  exact M.leads_pure () s

end

/-! ### Atomics -/

/-- The bytes that an atomic writes, where it writes. -/
def State.storedIf (s : State) (loc n : Nat) : Option Nat → State
  | some v => s.stored loc n v
  | none => s

theorem State.storedIf_dev (s : State) (loc n : Nat) (v : Option Nat) : (s.storedIf loc n v).dev = s.dev := by
  cases v <;> rfl

/-- Flags are ORed into the FFLAGS of the context that began the atomic (R108). -/
theorem leads_orFlags_me {s t : State} (h : t.dev = s.dev) (fl : Flags) :
    (orFlags s.byMe.id fl).leads t (t.withMe (Ctx.orFlags s.onVent · fl)) () := by
  have me : s.byMe.id = t.dev.cur := congrArg Dev.cur h.symm
  have vent : s.onVent = isVent (coreOf t.dev.cur) := congrArg (fun d : Dev => isVent (coreOf d.cur)) h.symm
  rw [me, vent]
  exact M.leads_upd _ t

/-- An atomic reads the old word and writes the new one in one step (R221). -/
theorem leads_amoHere {keep : M Unit} {op loc b e : Nat} {w : Bool} {rm : RMode} {a : Acc} {s : State}
    (clean : s.poisoned loc (widthBytes w) = false) (frame : s.unstashable (coreOf s.dev.cur) a = false) :
    (amoHere keep op w rm a loc b e).leads s
      (s.storedIf loc (widthBytes w) (amoNew op w rm (s.peek loc (widthBytes w)) b e).1)
      (s.peek loc (widthBytes w), (amoNew op w rm (s.peek loc (widthBytes w)) b e).2) := by
  refine M.leads_get_bind ?_
  simp only [clean, Bool.false_eq_true, if_false]
  refine M.leads_bind (leads_stashCheck frame) ?_
  cases (amoNew op w rm (s.peek loc (widthBytes w)) b e).1 with
  | none => exact M.leads_pure _ s
  | some x => exact M.leads_upd_bind (M.leads_pure _ _)

section
variable {op : Nat} {w : Bool} {ord : BitVec 4} {rd rs1 rs2 : XReg} {core o : Nat} {s : State}

/-- An atomic on a local memory, from the value it compares with and the mode it rounds in. -/
theorem run_amoOp {e : Word} {rm : RMode} (h1 : s.readable rs1) (h2 : s.readable rs2) (at' : s.localAt .amo (s.x rs1) (widthBytes w) core o)
    (clean : s.poisoned ((Space.lm core).loc o) (widthBytes w) = false)
    (compared : (if op = 9 then rx rd else pure 0 : M Word).leads s s e) (rounds : (if op = 10 then readFrm else pure .rne : M RMode).leads s s rm)
    {new : Option Nat × Flags} (hnew : amoNew op w rm (s.peek ((Space.lm core).loc o) (widthBytes w)) ((s.x rs2).toNat % 2 ^ widthBits w)
      (e.toNat % 2 ^ widthBits w) = new) :
    let loc := (Space.lm core).loc o
    instr (amoOp op w ord rd rs1 rs2) s = .next ((((s.storedIf loc (widthBytes w) new.1).withMe (Ctx.orFlags s.onVent · new.2)).wrote rd
      (sext (widthBits w) (s.peek loc (widthBytes w)))).retired { trc := true }) := by
  subst hnew
  have plain : s.Plain s.byMe ⟨s.x rs1, .lm core o, 0, false⟩ 0 := plain_local at'
  obtain ⟨straight, -, -, fenced, -⟩ := id at'
  refine M.leads.instr_eq (f := { trc := true }) (M.leads_bind (leads_rx h1) (M.leads_bind (leads_rx h2) (leads_join compared
    ((becomes_skip (leads_fenceAll fenced)).leads (leads_join rounds (M.leads_bind (leads_aligned straight) (M.leads_bind (leads_locate at')
      (M.leads_bind (leads_byMe s) (M.leads_bind (leads_codeFail plain.code) (M.leads_get_bind ?_))))))))))
  exact M.leads_bind (leads_amoHere clean plain.frame) (M.leads_bind (leads_orFlags_me (s.storedIf_dev _ _ _) _)
    (M.leads_bind (leads_wx _ _ _) (M.leads_pure _ _)))

end

/-- Each atomic of the table is the common one, with the word that the table says and no flags. -/
theorem exec_amoTable : ∀ e ∈ amoTable, ∃ op, op < 9 ∧
    (∀ w rm old b x, amoNew op w rm old b x = (some (e.2 (widthBits w) old b), 0)) ∧
    ∀ (w : Bool) (ord : BitVec 4) (rd rs1 rs2 : XReg) (s : State), exec (e.1 w ord rd rs1 rs2) s = instr (amoOp op w ord rd rs1 rs2) s := by
  simp only [amoTable, List.forall_mem_cons]
  exact ⟨⟨0, by decide, fun _ _ _ _ _ => rfl, fun _ _ _ _ _ _ => rfl⟩, ⟨1, by decide, fun _ _ _ _ _ => rfl, fun _ _ _ _ _ _ => rfl⟩,
    ⟨2, by decide, fun _ _ _ _ _ => rfl, fun _ _ _ _ _ _ => rfl⟩, ⟨3, by decide, fun _ _ _ _ _ => rfl, fun _ _ _ _ _ _ => rfl⟩,
    ⟨4, by decide, fun _ _ _ _ _ => rfl, fun _ _ _ _ _ _ => rfl⟩, ⟨5, by decide, fun _ _ _ _ _ => rfl, fun _ _ _ _ _ _ => rfl⟩,
    ⟨6, by decide, fun _ _ _ _ _ => rfl, fun _ _ _ _ _ _ => rfl⟩, ⟨7, by decide, fun _ _ _ _ _ => rfl, fun _ _ _ _ _ _ => rfl⟩,
    ⟨8, by decide, fun _ _ _ _ _ => rfl, fun _ _ _ _ _ _ => rfl⟩, List.forall_mem_nil _⟩

theorem leads_readFrm {s : State} (h : s.me.cpois.contains cFRM = false) :
    readFrm.leads s s (RMode.of ((s.myCsr cFRM).setWidth 2)) := by
  refine M.leads_bind (leads_me s) (M.leads_bind (M.leads_get_bind (M.leads_pure _ s)) ?_)
  rw [h]
  exact M.leads_pure _ s

/-! ### Reductions (R223) -/

/-- Each reduction of the table is the common one, with the formula that the table says. -/
theorem exec_redTable : ∀ e ∈ redTable, ∃ kind uns, (∀ w p b, RedTag.apply ⟨kind, uns, w⟩ p b = e.2 w p b) ∧
    ∀ (w : Bool) (rs1 rs2 : XReg) (s : State), exec (e.1 w rs1 rs2) s = instr (redOp kind uns w rs1 rs2) s := by
  simp only [redTable, List.forall_mem_cons]
  exact ⟨⟨0, false, fun _ _ _ => rfl, fun _ _ _ _ => rfl⟩, ⟨4, false, fun _ _ _ => rfl, fun _ _ _ _ => rfl⟩,
    ⟨2, false, fun _ _ _ => rfl, fun _ _ _ _ => rfl⟩, ⟨2, true, fun _ _ _ => rfl, fun _ _ _ _ => rfl⟩,
    ⟨3, false, fun _ _ _ => rfl, fun _ _ _ _ => rfl⟩, ⟨3, true, fun _ _ _ => rfl, fun _ _ _ _ => rfl⟩,
    ⟨1, false, fun _ _ _ => rfl, fun _ _ _ _ => rfl⟩, List.forall_mem_nil _⟩

theorem leads_redHere {g : RedTag} {loc b : Nat} {s : State} (clean : s.poisoned loc (widthBytes g.w) = false) :
    (redHere g loc b).leads s (s.stored loc (widthBytes g.w) (g.apply (s.peek loc (widthBytes g.w)) b)) () := by
  refine M.leads_get_bind ?_
  simp only [clean, Bool.false_eq_true, if_false]
  exact M.leads_upd _ s

theorem run_redOp {kind core o : Nat} {uns w : Bool} {rs1 rs2 : XReg} {s : State} (h1 : s.readable rs1) (h2 : s.readable rs2)
    (at' : s.localAt .red (s.x rs1) (widthBytes w) core o) (clean : s.poisoned ((Space.lm core).loc o) (widthBytes w) = false) :
    let loc := (Space.lm core).loc o
    instr (redOp kind uns w rs1 rs2) s = .next ((s.stored loc (widthBytes w)
      (RedTag.apply ⟨kind, uns, w⟩ (s.peek loc (widthBytes w)) ((s.x rs2).toNat % 2 ^ widthBits w))).retired { trc := true }) := by
  have plain : s.Plain s.byMe ⟨s.x rs1, .lm core o, 0, false⟩ 0 := plain_local at'
  refine M.leads.instr_eq (f := { trc := true }) (M.leads_bind (leads_rx h1) (M.leads_bind (leads_rx h2) (M.leads_bind (leads_aligned at'.1)
    (M.leads_bind (leads_locate at') (M.leads_bind (leads_byMe s) (M.leads_bind (leads_codeFail plain.code) (M.leads_get_bind ?_)))))))
  exact M.leads_bind (leads_farFirst plain.frame _) (M.leads_bind (leads_stashCheck plain.frame)
    (M.leads_bind (leads_redHere (g := ⟨kind, uns, w⟩) clean) (M.leads_pure _ _)))

/-- Settles O16: an atomic or reduction of the tables is the common one, whose new word is the table's; only amo.fadd raises flags. -/
theorem atomicsAndReductions : Obligations.AtomicsAndReductions := by
  unfold Obligations.AtomicsAndReductions
  refine ⟨?_, ?_⟩
  · intro w ord rd rs1 rs2 core o s n loc old b answer h1 h2 hd at' clean
    have unflagged (t : State) : (.next (((t.withMe (Ctx.orFlags s.onVent · 0)).wrote rd answer).retired { trc := true }) : Outcome) =
        .next ((t.wrote rd answer).retired { trc := true }) := by rw [State.withMe_wrote rfl]
    refine ⟨fun e he => ?_, ?_, ?_⟩
    · obtain ⟨op, small, new, run⟩ := exec_amoTable e he
      have compared : (if op = 9 then rx rd else pure 0 : M Word).leads s s 0 := by rw [if_neg (by omega)]; exact M.leads_pure _ s
      have rounds : (if op = 10 then readFrm else pure .rne : M RMode).leads s s .rne := by rw [if_neg (by omega)]; exact M.leads_pure _ s
      exact (run ..).trans ((run_amoOp h1 h2 at' clean compared rounds (new ..)).trans (unflagged _))
    · have amo := run_amoOp (op := 9) (ord := ord) (rd := rd) h1 h2 at' clean (leads_rx hd) (M.leads_pure RMode.rne s) rfl
      have writes : s.storedIf loc n (if old = (s.x rd).toNat % 2 ^ widthBits w then some b else none) =
          if old = (s.x rd).toNat % 2 ^ widthBits w then s.stored loc n b else s := by split <;> rfl
      exact amo.trans ((unflagged _).trans (congrArg (fun t : State => (.next ((t.wrote rd answer).retired { trc := true }) : Outcome)) writes))
    · intro frm f rm r
      have new : amoNew 10 w rm old b ((0 : Word).toNat % 2 ^ widthBits w) = (some r.1, r.2) := rfl
      have amo := run_amoOp (op := 10) (e := 0) (ord := ord) (rd := rd) (new := (some r.1, r.2)) h1 h2 at' clean (M.leads_pure 0 s)
        (leads_readFrm frm) new
      exact amo
  · intro e he w rs1 rs2 core o s n loc h1 h2 at' clean
    obtain ⟨kind, uns, formula, run⟩ := exec_redTable e he
    rw [run, ← formula]
    exact run_redOp h1 h2 at' clean

end Sys2Proof.Machine
end

section
/-!
SUPPORT. `vent.note` and `vent.wait`, and the end of a vent operation (R239, R310 to R312, R373, R378, R379).
-/

namespace Sys2Proof.Machine

open M

/-! ### The bytes of an operation (R310, R386) -/

theorem marked_any {s : State} {loc n : Nat} (h : s.poisoned loc n = false) : (s.marked loc n).any (·.2) = false :=
  List.any_eq_false.2 fun b hb => Bool.not_eq_true _ ▸ State.marked_clean h b hb

/-- Bytes of which none is marked are written, and nothing is marked. -/
theorem leads_putMarked (loc : Nat) (bs : List PByte) (s : State) :
    ∃ t, (putMarked loc bs).leads s t () ∧ t.mem = Memory.writes s.mem loc (bs.map (·.1)) :=
  ⟨_, M.leads_upd_bind (M.Keeps.leads (keepsMem_marks loc _) _), (keepsMem_marks loc _).rel _⟩

section
variable {who : Who} {o : VOp} {a x n : Nat} {s : State} (at' : s.vopTgt o a = .ok (.hbm x, false)) (alone : s.holders (x / 64) = [])

/-- An access at a home that nobody holds changes the slice's tags alone (R88). -/
theorem leads_vopHome (who : Who) (o : VOp) (wr : Bool) (alone : s.holders (x / 64) = []) :
    ∃ t, (vopHome who o x wr).leads s t () ∧ t.mem = s.mem ∧ t.pois = s.pois := by
  have looks (u : Upd) (h : (u.apply s).holders (x / 64) = []) :
      (if wr then homeWrite who (x / 64) none else homeRead who (x / 64) none).leads (u.apply s) (u.apply s) () := by
    split
    · exact homeWrite_none who _ none h
    · exact homeRead_none who _ none h
  exact ⟨_, M.leads_get_bind (M.leads_bind (M.leads_get_bind (M.leads_upd _ s)) (looks _ alone)), rfl, rfl⟩

include at' alone

theorem leads_vopRead (n : Nat) : ∃ t, (vopRead who o a n).leads s t (some (s.marked x n)) ∧ t.mem = s.mem := by
  obtain ⟨t, home, mem, pois⟩ := leads_vopHome who o false alone
  refine ⟨t, M.leads_get_bind ?_, mem⟩
  dsimp only
  rw [at']
  refine M.leads_bind home (M.leads_get_bind ?_)
  have same : t.marked (Space.hbm.loc x) n = s.marked x n := by
    unfold State.marked State.byte
    rw [mem, pois]
    rfl
  rw [same]
  exact M.leads_pure _ t

theorem leads_vopWrite (bs : List PByte) : ∃ t, (vopWrite who o a bs).leads s t (some true) ∧ t.mem = Memory.writes s.mem x (bs.map (·.1)) := by
  obtain ⟨u, home, mem, -⟩ := leads_vopHome who o true alone
  obtain ⟨t, put, writes⟩ := leads_putMarked (Space.hbm.loc x) bs u
  refine ⟨t, M.leads_get_bind ?_, writes.trans (by rw [mem]; rfl)⟩
  rw [at']
  exact M.leads_bind home (M.leads_bind put (M.leads_pure _ t))

/-- The next beat of an operation that fills the near side (R373). -/
theorem leads_moveNext_in (way : vIn o.func.toNat = true)
    (hn : n = min (32 - (vdOFF o.desc.toNat + o.moved) % 32) (vdBytes o.func.toNat false o.desc.toNat - o.moved))
    (near : nearSources (vdRows o.func.toNat o.desc.toNat) (vdOFF o.desc.toNat + o.moved) n = [(a, n)]) (clean : s.poisoned x n = false) :
    ∃ t, (moveNext who o).leads s t (some (n, o.sofar)) ∧ t.mem = Memory.writes s.mem (o.nearLoc (vdOFF o.desc.toNat + o.moved)) (s.bytesAt x n) := by
  obtain ⟨u, read, mem⟩ := leads_vopRead (who := who) at' alone n
  obtain ⟨t, put, writes⟩ := leads_putMarked (o.nearLoc (vdOFF o.desc.toNat + o.moved)) (s.marked x n) u
  have bytes : (vopBytes who o [(a, n)]).leads s u (some (s.marked x n ++ [])) :=
    M.leads_bind read (M.leads_bind (M.leads_pure (some []) u) (M.leads_pure _ u))
  rw [List.append_nil] at bytes
  refine ⟨t, ?_, writes.trans (by rw [mem, State.map_fst_marked]; rfl)⟩
  unfold moveNext
  simp only [way, if_true, ← hn, near]
  refine M.leads_bind bytes (M.leads_bind put ?_)
  rw [marked_any clean]
  exact M.leads_pure _ t

/-- The next beat of an operation that writes the global side, whole ranges of joined rows at a time (R386; log 18). -/
theorem leads_moveNext_out {src : List (Nat × Nat)} (way : vIn o.func.toNat = false)
    (beat : beatAt (joinRows (vdRows o.func.toNat o.desc.toNat)) o.moved = some (a, n, src))
    (clean : ∀ e ∈ src, s.poisoned (o.nearLoc e.1) e.2 = false) :
    ∃ t, (moveNext who o).leads s t (some (n, o.sofar)) ∧
      t.mem = Memory.writes s.mem x (src.flatMap fun e => s.bytesAt (o.nearLoc e.1) e.2) := by
  obtain ⟨t, put, writes⟩ := leads_vopWrite (who := who) at' alone (src.flatMap fun e => s.marked (o.nearLoc e.1) e.2)
  have unmarked : (src.flatMap fun e => s.marked (o.nearLoc e.1) e.2).any (·.2) = false := by
    rw [List.any_flatMap]
    exact List.any_eq_false.2 fun e he => by rw [marked_any (clean e he)]; decide
  have bytes : (src.flatMap fun e => s.marked (o.nearLoc e.1) e.2).map (·.1) = src.flatMap fun e => s.bytesAt (o.nearLoc e.1) e.2 := by
    rw [List.map_flatMap]
    exact List.flatMap_congr fun e _ => State.map_fst_marked ..
  refine ⟨t, ?_, writes.trans (by rw [bytes])⟩
  unfold moveNext
  simp only [way, Bool.false_eq_true, if_false, beat]
  refine M.leads_get_bind (M.leads_bind put ?_)
  rw [unmarked]
  exact M.leads_pure _ t

end

/-! ### The end of an operation (R239, R310) -/

/-- An operation has finished: its record is in the target's queue, its lock is gone and its entry, where it stays, has the record. -/
structure State.Finished (u t : State) (o : VOp) (st : BitVec 8) : Prop where
  mem : t.mem = u.mem
  cq : (t.core o.core).cq = if o.nocq then (u.core o.core).cq else (u.core o.core).cq ++ [o.record st]
  locks : ∀ l ∈ (t.core o.core).locks, l.op ≠ o.id
  entry : ∀ x ∈ t.dev.vops, x.id = o.id → x.done = some (o.record st)

theorem leads_finishVop (o : VOp) (st : BitVec 8) (u : State) : ∃ t, (finishVop o st).leads u t () ∧ u.Finished t o st := by
  refine ⟨_, M.leads_get_bind (M.leads_upd_bind (M.leads_upd_bind (M.leads_upd _ _))), rfl, ?_, ?_, ?_⟩
  · exact congrArg Core.cq (State.core_setCore_self ..)
  · intro l hl
    have same := congrArg Core.locks (State.core_setCore_self u o.core
      { u.core o.core with cq := if o.nocq then (u.core o.core).cq else (u.core o.core).cq ++ [o.record st],
                           locks := (u.core o.core).locks.filter fun l => l.op != o.id })
    have kept := List.mem_filter.1 (same ▸ hl)
    simpa using kept.2
  · intro x hx hid
    obtain ⟨y, -, hy⟩ := List.mem_filterMap.1 hx
    split_ifs at hy with mine keep
    · cases hy
      rfl
    · cases hy
      exact absurd hid mine

/-- The entry of an operation replaced by a later form of it. -/
def State.withVop (u : State) (o : VOp) : State :=
  { u with dev := { u.dev with vops := u.dev.vops.map fun x => if x.id = o.id then o else x } }

/-- An earlier operation of the same context, for the same core, whose record comes first (R310). -/
def VOp.after (o x : VOp) : Bool := decide (x.id < o.id) && x.ctx == o.ctx && x.core == o.core && x.done.isNone

theorem State.canFinish_eq (u : State) (o : VOp) :
    u.canFinish o = (o.nocq || (decide ((u.core o.core).cq.length < 16) && !u.dev.vops.any o.after)) := rfl

/-- Whether an operation may finish is decided by the others (R310). -/
theorem State.canFinish_withVop {o o' : VOp} (h : o'.id = o.id) (u : State) : (u.withVop o').canFinish o = u.canFinish o := by
  have itself (x : VOp) (hx : x.id = o.id) : o.after x = false := by simp [VOp.after, hx]
  have same (x : VOp) : o.after (if x.id = o'.id then o' else x) = o.after x := by
    split_ifs with hx
    · rw [itself o' h, itself x (hx.trans h)]
    · rfl
  have others : (u.withVop o').dev.vops.any o.after = u.dev.vops.any o.after := List.any_map.trans (congrArg u.dev.vops.any (funext same))
  rw [State.canFinish_eq, State.canFinish_eq, others]
  rfl

/-- An operation that has its STATUS finishes where its record may be appended. -/
theorem leads_settleVop {o : VOp} {st : BitVec 8} {u : State} (may : u.canFinish o = true) :
    ∃ t, (settleVop o st).leads u t () ∧ u.Finished t o st := by
  obtain ⟨t, finish, mem, cq, locks, entry⟩ := leads_finishVop o st (u.withVop { o with status := some st })
  refine ⟨t, M.leads_upd_bind (M.leads_get_bind ?_), mem, cq, locks, entry⟩
  have may' : (u.withVop { o with status := some st }).canFinish o = true := (State.canFinish_withVop (o' := { o with status := some st }) rfl u).trans may
  exact (congrArg (M.leads · (u.withVop { o with status := some st }) t ()) (if_pos may')).mpr finish

/-! ### VENT_OP_COMPLETE -/

section
variable {op : Nat} {o : VOp} {s : State} (found : s.dev.vops.find? (fun o => o.id == op) = some o)
include found

/-- While its tenant is paused an operation waits (R373). -/
theorem exec_ventOpComplete_paused (paused : s.pausedTen o.ten = true) : exec (.ventOpComplete op) s = .next s := by
  refine congrArg Host.Outcome.next (M.leads.quits (M.leads_get s) ?_ _)
  simp only [found, paused, Bool.or_true, if_true]
  exact quits_stall s s

variable (live : o.done = none) (runs : s.pausedTen o.ten = false)
include live runs

/-- An operation whose STATUS is known finishes, or waits for its record's turn (R239, R310). -/
theorem exec_ventOpComplete_status {st : BitVec 8} (known : o.status = some st) :
    (s.canFinish o = true → ∃ t, exec (.ventOpComplete op) s = .next t ∧ s.Finished t o st) ∧
    (s.canFinish o = false → exec (.ventOpComplete op) s = .next s) := by
  refine ⟨fun may => ?_, fun may => ?_⟩
  · obtain ⟨t, finish, fin⟩ := leads_finishVop o st s
    refine ⟨t, M.leads.event_eq (M.leads_get_bind ?_), fin⟩
    simp only [found, live, runs, known, may, Option.isSome_none, Bool.or_self, Bool.false_eq_true, if_false, if_true]
    exact finish
  · refine congrArg Host.Outcome.next (M.leads.quits (M.leads_get s) ?_ _)
    simp only [found, live, runs, known, may, Option.isSome_none, Bool.or_self, Bool.false_eq_true, if_false]
    exact quits_stall s s

variable (unknown : o.status = none)
include unknown

section
variable (plain : o.dec = false)
include plain

theorem exec_ventOpComplete_lost {u : State} (lost : (moveNext (.vop op) o).leads s u none) (may : u.canFinish o = true) :
    ∃ t, exec (.ventOpComplete op) s = .next t ∧ u.Finished t o CALDERA_LOST := by
  obtain rfl : o.id = op := by simpa using List.find?_some found
  obtain ⟨t, settle, fin⟩ := leads_settleVop (st := CALDERA_LOST) may
  refine ⟨t, M.leads.event_eq (M.leads_get_bind ?_), fin⟩
  simp only [found, live, runs, unknown, plain, Option.isSome_none, Bool.or_self, Bool.false_eq_true, if_false]
  exact M.leads_bind lost settle

variable {u : State} {n : Nat} {st : BitVec 8} (moved : (moveNext (.vop op) o).leads s u (some (n, st)))
include moved

theorem exec_ventOpComplete_last (last : vdBytes o.func.toNat false o.desc.toNat ≤ o.moved + n) (may : u.canFinish o = true) :
    ∃ t, exec (.ventOpComplete op) s = .next t ∧ u.Finished t o st := by
  obtain rfl : o.id = op := by simpa using List.find?_some found
  obtain ⟨t, settle, fin⟩ := leads_settleVop (o := { o with moved := o.moved + n, sofar := st }) (st := st) may
  refine ⟨t, M.leads.event_eq (M.leads_get_bind ?_), ⟨fin.mem, fin.cq, fin.locks, fin.entry⟩⟩
  simp only [found, live, runs, unknown, plain, Option.isSome_none, Bool.or_self, Bool.false_eq_true, if_false]
  refine M.leads_bind moved ?_
  simp only [last, if_true]
  simp only [live, unknown, plain] at settle
  exact settle

theorem exec_ventOpComplete_more (more : o.moved + n < vdBytes o.func.toNat false o.desc.toNat) :
    ∃ t, exec (.ventOpComplete op) s = .next t ∧ t.mem = u.mem ∧ t.cores = u.cores ∧
      t.dev.vops = u.dev.vops.map fun x => if x.id = op then { o with moved := o.moved + n, sofar := st } else x := by
  obtain rfl : o.id = op := by simpa using List.find?_some found
  simp only [live, unknown, plain]
  refine ⟨(Upd.dev fun d => { d.forget (· == .vop o.id) with ord := 0 }).apply
    (u.withVop { o with dec := false, status := none, done := none, moved := o.moved + n, sofar := st }),
    M.leads.event_eq (M.leads_get_bind ?_), rfl, rfl, rfl⟩
  simp only [found, live, runs, unknown, plain, Option.isSome_none, Bool.or_self, Bool.false_eq_true, if_false]
  refine M.leads_bind moved ?_
  simp only [Nat.not_le.2 more, if_false]
  exact M.leads_upd_bind (M.leads_upd _ _)

end

variable (dec : o.dec = true)
include dec

/-- The decoder of a core serves the pushes in the order of their locks (R309). -/
theorem exec_ventOpComplete_behind (behind : ∃ x ∈ s.dev.vops, x.dec = true ∧ x.core = o.core ∧ x.id < o.id ∧ x.status = none) :
    exec (.ventOpComplete op) s = .next s := by
  have waits : (s.dev.vops.any fun x => x.dec && x.core == o.core && decide (x.id < o.id) && x.status.isNone) = true := by
    simpa [and_assoc] using behind
  refine congrArg Host.Outcome.next (M.leads.quits (M.leads_get s) ?_ _)
  simp only [found, live, runs, unknown, dec, waits, Option.isSome_none, Bool.or_self, Bool.false_eq_true, if_false, if_true]
  exact quits_stall s s

theorem exec_ventOpComplete_decoded {u : State} {st : BitVec 8} (decoded : (decodePush o).leads s u st)
    (first : ¬∃ x ∈ s.dev.vops, x.dec = true ∧ x.core = o.core ∧ x.id < o.id ∧ x.status = none) (may : u.canFinish o = true) :
    ∃ t, exec (.ventOpComplete op) s = .next t ∧ u.Finished t o st := by
  have goes : (s.dev.vops.any fun x => x.dec && x.core == o.core && decide (x.id < o.id) && x.status.isNone) = false := by
    rw [← Bool.not_eq_true]
    simpa [and_assoc] using first
  obtain ⟨t, settle, fin⟩ := leads_settleVop (st := st) may
  refine ⟨t, M.leads.event_eq (M.leads_get_bind ?_), fin⟩
  simp only [found, live, runs, unknown, dec, goes, Option.isSome_none, Bool.or_self, Bool.false_eq_true, if_false, if_true]
  exact M.leads_bind decoded settle

end

/-! ### vent.note and vent.wait (R310 to R312) -/

/-- A vent core has no tile instruction to flush. -/
theorem leads_flushWindow_onVent {s : State} (vent : s.onVent = true) : flushWindow.leads s s () := by
  have vent : isVent (coreOf s.dev.cur) = true := vent
  refine M.leads_get_bind ?_
  simp only [vent, Bool.not_true, Bool.and_false, Bool.false_and, Bool.false_eq_true, if_false]
  exact M.leads_pure () s

theorem quits_park_onVent {α : Type} {s : State} (vent : s.onVent = true) (t : State) :
    (park .message : M α).Quits s t (s.parkedFor .message) := by
  intro k
  have forgets : (decide (WaitClass.message = .link) || decide (WaitClass.message = .version)) = false := by decide
  simp only [park, stop_apply, run_abort, bind_apply, forgets, Bool.false_eq_true, if_false, get_apply]
  refine (leads_nextSeq s s _).trans ?_
  rw [run_getP, leads_flushWindow_onVent (s := s.arrived) vent]
  rfl

theorem leads_entryFree {s : State} (h : s.myOps.length < 8) : entryFree.leads s s () := by
  refine M.leads_get_bind ?_
  have free : ¬8 ≤ (s.dev.vops.filter fun o => o.ctx == s.dev.cur).length := Nat.not_le.2 h
  rw [if_neg free]
  exact M.leads_pure () s

section
variable {rs1 rs2 : XReg} {s : State} (vent : s.onVent = true) (h1 : s.readable rs1)
include vent h1

section
variable (h2 : s.readable rs2) (fenced : s.fenced) (free : s.myOps.length < 8)
include h2 fenced free

/-- An operation without bytes, which has its STATUS at once (R312). -/
def State.noted (s : State) (tag : BitVec 32) (core : Nat) : State :=
  { s.arrived with dev := { s.arrived.dev with vops := s.dev.vops ++
    [{ id := s.dev.seq, ctx := s.dev.cur, ten := s.myTen, pnode := s.myPart, func := 5, dec := false, nocq := false, nu := 0, desc := 0,
       tag := tag, core := core, pages := [], dir := 0, dirBad := false, status := some 0, done := none }] } }

theorem exec_ventNote (mine : (s.nodeCores s.myPart).contains ((s.x rs1).toNat % 4096) = true) :
    exec (.ventNote rs1 rs2) s = .next ((s.noted ((s.x rs2).setWidth 32) ((s.x rs1).toNat % 4096)).retired { trc := true }) := by
  refine M.leads.instr_eq (f := { trc := true }) (M.leads_bind (leads_agent _ vent) (M.leads_bind (leads_rx h1) (M.leads_bind (leads_rx h2)
    (M.leads_bind (leads_entryFree free) (M.leads_get_bind ?_)))))
  simp only [show (s.nodeCores (s.pnodeOf (coreOf s.dev.cur))).contains ((s.x rs1).toNat % 4096) = true from mine, if_true]
  exact M.leads_bind (leads_fenceAll fenced) (M.leads_bind (leads_nextSeq s) (M.leads_upd_bind (M.leads_pure _ _)))

theorem exec_ventNote_refused (other : (s.nodeCores s.myPart).contains ((s.x rs1).toNat % 4096) = false) :
    exec (.ventNote rs1 rs2) s = .next (s.took { code := ILLEGAL_OPERAND, val := BitVec.ofNat 64 ((s.x rs1).toNat % 4096) }) := by
  refine M.Quits.instr_eq (M.leads.quits (leads_agent _ vent) (M.leads.quits (leads_rx h1) (M.leads.quits (leads_rx h2)
    (M.leads.quits (leads_entryFree free) (M.leads.quits (M.leads_get s) ?_)))))
  simp only [show (s.nodeCores (s.pnodeOf (coreOf s.dev.cur))).contains ((s.x rs1).toNat % 4096) = false from other, Bool.false_eq_true, if_false]
  exact (quits_raise fenced.1 _ _).bind _

end

/-- What vent.wait looks for: the tag in rs1, or any operation with x0 (R311). -/
def State.waited (s : State) (rs1 : XReg) : Option VOp := s.ventEntry s.dev.cur (if rs1 = 0 then none else some ((s.x rs1).setWidth 32))

theorem exec_ventWait_none (entry : s.waited rs1 = none) :
    exec (.ventWait rs1 rs2) s = .next ((s.wrote rs2 (BitVec.allOnes 64)).retired { trc := true }) := by
  refine M.leads.instr_eq (f := { trc := true }) (M.leads_bind (leads_agent _ vent) (M.leads_bind (leads_rx h1) (M.leads_get_bind ?_)))
  rw [show s.ventEntry _ _ = none from entry]
  exact M.leads_bind (leads_wx _ _ s) (M.leads_pure _ _)

theorem exec_ventWait_pending {o : VOp} (entry : s.waited rs1 = some o) (pending : o.done = none) :
    exec (.ventWait rs1 rs2) s = .next (s.parkedFor .message) := by
  refine M.Quits.instr_eq (M.leads.quits (leads_agent _ vent) (M.leads.quits (leads_rx h1) (M.leads.quits (M.leads_get s) ?_)))
  rw [show s.ventEntry _ _ = some o from entry]
  dsimp only
  rw [pending]
  exact (quits_park_onVent vent s).bind _

theorem exec_ventWait_done {o : VOp} {r : Word} (entry : s.waited rs1 = some o) (done : o.done = some r) :
    exec (.ventWait rs1 rs2) s = .next (((Upd.dev fun d => { d with vops := d.vops.filter fun x => x.id != o.id }).apply
      (s.wrote rs2 r)).retired { trc := true }) := by
  refine M.leads.instr_eq (f := { trc := true }) (M.leads_bind (leads_agent _ vent) (M.leads_bind (leads_rx h1) (M.leads_get_bind ?_)))
  rw [show s.ventEntry _ _ = some o from entry]
  dsimp only
  rw [done]
  exact M.leads_bind (leads_wx _ _ s) (M.leads_upd_bind (M.leads_pure _ _))

end

/-- Settles O38: each branch of `vent.note`, `vent.wait` and VENT_OP_COMPLETE by its own lemma, and the two beats of a transfer. -/
theorem ventCompletion : Obligations.VentCompletion := by
  unfold Obligations.VentCompletion
  refine ⟨?_, ?_, ?_⟩
  · intro rs1 rs2 s vent h1 core
    refine ⟨fun h2 fenced free => ⟨exec_ventNote vent h1 h2 fenced free, exec_ventNote_refused vent h1 h2 fenced free⟩, exec_ventWait_none vent h1,
      fun o entry pending => ⟨_, exec_ventWait_pending vent h1 entry pending, s.parkedOn_parkedFor _, rfl⟩,
      fun o r entry done => exec_ventWait_done vent h1 entry done⟩
  · intro op o s found live finished ends all behind
    obtain same : o.id = op := by simpa using List.find?_some found
    have ended (u : State) (st : BitVec 8) (h : u.canFinish o = true → ∃ t, exec (.ventOpComplete op) s = .next t ∧ u.Finished t o st) : ends u st := by
      intro may
      obtain ⟨t, run, mem, cq, locks, entry⟩ := h may
      exact ⟨t, run, mem, cq, locks, fun x hx hid => entry x hx (hid.trans same.symm)⟩
    refine ⟨exec_ventOpComplete_paused found, fun runs => ⟨fun st known => ?_,
      fun unknown plain => ⟨fun u n st moved => ⟨fun last => ?_, ?_⟩, fun u lost => ?_⟩,
      fun unknown dec => ⟨?_, fun u st first decoded => ?_⟩⟩⟩
    · obtain ⟨finishes, waits⟩ := exec_ventOpComplete_status found live runs known
      exact ⟨ended s st finishes, waits⟩
    · exact ended u st (exec_ventOpComplete_last found live runs unknown plain moved last)
    · exact exec_ventOpComplete_more found live runs unknown plain moved
    · exact ended u _ (exec_ventOpComplete_lost found live runs unknown plain lost)
    · exact exec_ventOpComplete_behind found live runs unknown dec
    · exact ended u st (exec_ventOpComplete_decoded found live runs unknown dec decoded first)
  · intro who o a n x src s at' alone hx rows off
    exact ⟨leads_moveNext_in at' alone, leads_moveNext_out at' alone⟩

end Sys2Proof.Machine
end

section
/-!
SUPPORT. Loads and stores of the package's own HBM (R80, R84, R87, R91, R93, R216, R217): what resolves them, what they do to the caches and the
directory, and that the bytes at the home are read and written (log 3).
-/

namespace Sys2Proof.Machine

open M

/-! ### What an access to HBM leaves as it was -/

/-- Between two states an access has moved no byte and no mark, no context, and of a core only its lines. -/
structure State.OnlyLines (s t : State) : Prop where
  mem : t.mem = s.mem
  pois : t.pois = s.pois
  ctxs : t.ctxs = s.ctxs
  cur : t.dev.cur = s.dev.cur
  cores : ∀ c, (t.core c).stash = (s.core c).stash ∧ (t.core c).cpois = (s.core c).cpois

namespace State.OnlyLines

theorem refl (s : State) : s.OnlyLines s := ⟨rfl, rfl, rfl, rfl, fun _ => ⟨rfl, rfl⟩⟩

theorem trans {s t u : State} (h : s.OnlyLines t) (k : t.OnlyLines u) : s.OnlyLines u where
  mem := k.mem.trans h.mem
  pois := k.pois.trans h.pois
  ctxs := k.ctxs.trans h.ctxs
  cur := k.cur.trans h.cur
  cores c := ⟨(k.cores c).1.trans (h.cores c).1, (k.cores c).2.trans (h.cores c).2⟩

theorem me {s t : State} (h : s.OnlyLines t) : t.me = s.me := by
  show t.ctx t.dev.cur = s.ctx s.dev.cur
  rw [h.cur]
  unfold State.ctx
  rw [h.ctxs]

/-- A change of a core's lines. -/
theorem upd_core (s : State) (core : Nat) (f : Core → Core) (h : ∀ c, (f c).stash = c.stash ∧ (f c).cpois = c.cpois) :
    s.OnlyLines ((Upd.core core f).apply s) := by
  refine ⟨rfl, rfl, rfl, rfl, fun c => ?_⟩
  by_cases hc : c = core
  · subst hc
    rw [show ((Upd.core c f).apply s).core c = f (s.core c) from State.core_setCore_self ..]
    exact h _
  · rw [show ((Upd.core core f).apply s).core c = s.core c from State.core_setCore_ne _ _ hc]
    exact ⟨rfl, rfl⟩

end State.OnlyLines

section
variable {α : Type} {c : Prop} [Decidable c] {m : M Unit} {f : Unit → M α} {s t u : State} {a : α} (k : (f ()).leads t u a)
include k

/-- A part that is passed by under a condition, or without it. -/
theorem leads_unless (l : (if c then pure () else m).leads s t ()) : (if c then f () else m >>= f).leads s u a := by
  by_cases hc : c
  · rw [if_pos hc] at l ⊢
    exact fun s0 g => (l s0 fun _ => f () g).trans (k s0 g)
  · rw [if_neg hc] at l ⊢
    exact M.leads_bind l k

theorem leads_when (l : (if c then m else pure ()).leads s t ()) : (if c then m >>= f else f ()).leads s u a := by
  rw [← ite_not]
  exact leads_unless k (by rwa [ite_not])

end

/-! ### The core's L1 and stash (R84, R87) -/

section
variable {b : By} {va loc code line : Nat} {leaf : Word} {wr : Bool} {s u v : State} {core : Nat}

/-- Part of a meaning changes the lines of a core alone. -/
def M.Fills (m : M Unit) (v : State) : Prop := ∃ t, m.leads v t () ∧ v.OnlyLines t ∧ t.dev = v.dev

theorem M.Fills.get {f : State → M Unit} (h : (f v).Fills v) : (get >>= f).Fills v := by
  obtain ⟨t, l, only, dev⟩ := h
  exact ⟨t, M.leads_get_bind l, only, dev⟩

theorem M.Fills.upd_core (f : Core → Core) (h : ∀ c, (f c).stash = c.stash ∧ (f c).cpois = c.cpois) : (upd (.core core f)).Fills v :=
  ⟨_, M.leads_upd _ v, .upd_core v core f h, rfl⟩

/-- Where the core holds the line, or no line at all, a fill drops no other line. -/
theorem fills_fillL1 (room : ((v.core core).l1Find va).isSome = true ∨ (v.core core).l1 = []) : (fillL1 core va loc leaf code).Fills v := by
  refine .get ?_
  cases found : (v.core core).l1Find va with
  | some e =>
    simp only [found]
    exact .upd_core _ fun _ => ⟨rfl, rfl⟩
  | none =>
    have empty : (v.core core).l1 = [] := room.resolve_left (by simp [found])
    simp only [found, empty, SMap.find]
    exact .upd_core _ fun _ => ⟨rfl, rfl⟩

/-- An access through the stash or the L1, from what it does at the home and what it does to the holder's state. -/
theorem leads_touchCore {below : M Unit} (hcore : coreOf b.id = core) (hline : loc / 64 = line)
    (under : (if s.hits core va line then pure () else below).leads s u ())
    (home : (if wr then homeWrite b.who line (some (s.coreHolder core)) else homeRead b.who line (some (s.coreHolder core))).leads u u ())
    (hold : (if wr then holdWrite core line else holdRead core line).leads u v ())
    (room : (s.core core).frameOf va = none → ((v.core core).l1Find va).isSome = true ∨ (v.core core).l1 = []) :
    ∃ t, (touchCore b va leaf loc code wr below).leads s t () ∧ v.OnlyLines t ∧ t.dev = v.dev := by
  subst hcore
  subst hline
  have fill : (match (s.core (coreOf b.id)).frameOf va with
      | some f => upd (.core (coreOf b.id) fun c =>
          { c with sect := SMap.put c.sect (sectKey f va) ⟨va / 64, leaf, loc / 64 * 64, code, 0, 0⟩ })
      | none => fillL1 (coreOf b.id) va (loc / 64 * 64) leaf code : M Unit).Fills v := by
    split
    · exact .upd_core _ fun _ => ⟨rfl, rfl⟩
    · next h => exact fills_fillL1 (room h)
  obtain ⟨t, l, only, dev⟩ := fill
  exact ⟨t, M.leads_get_bind (leads_unless (leads_join home (leads_join hold l)) under), only, dev⟩

/-! ### The holder's state (R80) -/

theorem State.OnlyLines.withHolder (u : State) (line h : Nat) (st : LSt) : u.OnlyLines (u.withHolder line h (some st)) :=
  ⟨rfl, rfl, rfl, rfl, fun _ => ⟨rfl, rfl⟩⟩

theorem State.stateIn_withHolder (u : State) (line h : Nat) (st : LSt) : (u.withHolder line h (some st)).stateIn line h = some st := by
  rw [State.stateIn, State.holders_withHolder]
  exact SMap.find_put_self ..

/-- The state that an access leaves a line in which nobody else holds. -/
def heldSt (wr : Bool) : LSt := if wr then .m else .e

/-- A line that nobody holds is then held in E by its reader and in M by its writer. -/
theorem leads_hold (empty : u.holders line = []) :
    (if wr then holdWrite core line else holdRead core line).leads u (u.withHolder line (u.coreHolder core) (some (heldSt wr))) () := by
  cases wr with
  | true => exact M.leads_get_bind (leads_setHolder _ _ _ _)
  | false =>
    have out : u.stateIn line (u.coreHolder core) = none := by rw [State.stateIn, empty]; rfl
    refine M.leads_get_bind ?_
    simp only [out, empty, List.any_nil, Bool.false_eq_true, if_false]
    exact leads_setHolder _ _ _ _

theorem leads_home_none {who : Who} {me : Option Nat} (empty : u.holders line = []) :
    (if wr then homeWrite who line me else homeRead who line me).leads u u () := by
  cases wr with
  | true => exact homeWrite_none _ _ _ empty
  | false => exact homeRead_none _ _ _ empty

/-! ### An access that the core's own copy serves (R84) -/

section
variable {h : Nat} (sole : u.holders line = [(h, .m)])
include sole

theorem hasU_sole : u.hasU line = false := by
  rw [State.hasU, sole]
  rfl

/-- The home asks of the sole holder what it asks of each. -/
theorem leads_home_each {f : State → Nat × LSt → M Unit} (asks : (f u (h, .m)).leads u u ()) : (do
    let s ← get
    if s.hasU line then collect line else pure ()
    let s ← get
    each (f s) (s.holders line) : M Unit).leads u u () := by
  refine M.leads_get_bind ?_
  simp only [hasU_sole sole, Bool.false_eq_true, if_false]
  refine M.leads_get_bind ?_
  rw [sole]
  exact M.leads_bind asks (M.leads_pure () u)

/-- The accessing core itself is asked nothing. -/
theorem leads_home_sole {who : Who} : (if wr then homeWrite who line (some h) else homeRead who line (some h)).leads u u () := by
  have itself (m : M Unit) : (if some h = some h || u.isOwnPlc h then pure () else m : M Unit).leads u u () := by
    rw [decide_eq_true rfl, Bool.true_or, if_pos rfl]
    exact M.leads_pure () u
  cases wr with
  | true => exact leads_home_each sole (itself _)
  | false => exact leads_home_each sole (itself _)

end

end

/-! ### An access to HBM makes its home ready (R80, R88) -/

section
variable {b : By} {a : Acc} {phys d : Nat} {wr : Bool} {s : State}

/-- What `touchHbm` does, by what caches the page. -/
theorem touchHbm_cached {t : State} (caches : cacheable (coreOf b.id) a.leaf = true)
    (l : (touchCore b a.va.toNat a.leaf (Space.hbm.loc phys) (s.effCode (coreOf b.id) d) wr
      (touchL2 phys (s.effCode (coreOf b.id) d) (s.tenOf (coreOf b.id)) (slotOf b.id))).leads s t ()) : (touchHbm b a phys d wr).leads s t () := by
  refine M.leads_get_bind ?_
  simp only [caches, if_true]
  exact l

/-- Nobody holds the line and the core has no copy: it then holds it alone, where its page is cached. -/
theorem leads_touchHbm_miss (l1 : (s.core (coreOf b.id)).l1 = []) (stash : (s.core (coreOf b.id)).stash = [])
    (empty : s.holders (phys / 64) = []) : ∃ t, (touchHbm b a phys d wr).leads s t () ∧ s.OnlyLines t ∧
      if cacheable (coreOf b.id) a.leaf then t.stateIn (phys / 64) (s.coreHolder (coreOf b.id)) = some (heldSt wr)
      else t.holders (phys / 64) = [] := by
  have frameless : (s.core (coreOf b.id)).frameOf a.va.toNat = none := by rw [Core.frameOf, stash]; rfl
  have lookup (code : Nat) (wr : Bool) : ∃ u, (touchL2 phys code (s.tenOf (coreOf b.id)) (slotOf b.id) wr).leads s u () ∧ s.OnlyLines u ∧
      u.dev = s.dev ∧ u.cores = s.cores ∧ u.pres = s.pres :=
    ⟨_, M.leads_get_bind (M.leads_upd _ s), ⟨rfl, rfl, rfl, rfl, fun _ => ⟨rfl, rfl⟩⟩, rfl, rfl, rfl⟩
  by_cases caches : cacheable (coreOf b.id) a.leaf = true
  · obtain ⟨u, look, only, dev, cores, pres⟩ := lookup (s.effCode (coreOf b.id) d) false
    have misses : s.hits (coreOf b.id) a.va.toNat (phys / 64) = false := by simp [State.hits, frameless, Core.l1Find, l1]
    have under : (if s.hits (coreOf b.id) a.va.toNat (phys / 64) then pure () else
        touchL2 phys (s.effCode (coreOf b.id) d) (s.tenOf (coreOf b.id)) (slotOf b.id) false).leads s u () := by
      rw [misses, if_neg (by decide)]
      exact look
    have empty' : u.holders (phys / 64) = [] := by rw [State.holders, dev]; exact empty
    have l1' : (u.core (coreOf b.id)).l1 = [] := by rw [State.core, cores]; exact l1
    obtain ⟨t, touch, fill, dev'⟩ := leads_touchCore (leaf := a.leaf) (code := s.effCode (coreOf b.id) d) rfl rfl under (leads_home_none empty')
      (leads_hold (core := coreOf b.id) (wr := wr) empty') fun _ => .inr l1'
    refine ⟨t, touchHbm_cached caches touch, only.trans ((State.OnlyLines.withHolder ..).trans fill), ?_⟩
    have me : u.coreHolder (coreOf b.id) = s.coreHolder (coreOf b.id) := by rw [State.coreHolder, pres]; rfl
    have held : t.stateIn (phys / 64) (u.coreHolder (coreOf b.id)) = some (heldSt wr) := by
      rw [State.stateIn, State.holders, dev']
      exact State.stateIn_withHolder ..
    rw [if_pos caches, ← me]
    exact held
  · have looks : ∃ u, (if lfCM a.leaf && isVent (coreOf b.id) then
        touchL2 phys (s.effCode (coreOf b.id) d) (s.tenOf (coreOf b.id)) (slotOf b.id) wr else pure ()).leads s u () ∧
        s.OnlyLines u ∧ u.dev = s.dev := by
      split
      · obtain ⟨u, look, only, dev, -⟩ := lookup (s.effCode (coreOf b.id) d) wr
        exact ⟨u, look, only, dev⟩
      · exact ⟨s, M.leads_pure () s, .refl s, rfl⟩
    obtain ⟨u, look, only, dev⟩ := looks
    have empty' : u.holders (phys / 64) = [] := by rw [State.holders, dev]; exact empty
    refine ⟨u, M.leads_get_bind ?_, only, by rw [if_neg caches]; exact empty'⟩
    simp only [caches, Bool.false_eq_true, if_false]
    exact leads_when (leads_home_none empty') look

/-- The core's own copy serves the access. -/
theorem leads_touchHbm_hit (caches : cacheable (coreOf b.id) a.leaf = true) (hit : s.hits (coreOf b.id) a.va.toNat (phys / 64) = true)
    (room : (s.core (coreOf b.id)).frameOf a.va.toNat = none → ((s.core (coreOf b.id)).l1Find a.va.toNat).isSome = true)
    (sole : s.holders (phys / 64) = [(s.coreHolder (coreOf b.id), .m)]) :
    ∃ t, (touchHbm b a phys d wr).leads s t () ∧ s.OnlyLines t := by
  have under (below : M Unit) : (if s.hits (coreOf b.id) a.va.toNat (phys / 64) then pure () else below).leads s s () := by
    rw [hit, if_pos rfl]
    exact M.leads_pure () s
  have holds : ∃ v, (if wr then holdWrite (coreOf b.id) (phys / 64) else holdRead (coreOf b.id) (phys / 64)).leads s v () ∧ s.OnlyLines v ∧
      v.cores = s.cores := by
    cases wr with
    | true => exact ⟨_, M.leads_get_bind (leads_setHolder _ _ _ _), .withHolder .., rfl⟩
    | false =>
      refine ⟨s, M.leads_get_bind ?_, .refl s, rfl⟩
      have held : s.stateIn (phys / 64) (s.coreHolder (coreOf b.id)) = some .m := by
        rw [State.stateIn, sole]
        simp [SMap.find]
      simp only [held]
      exact M.leads_pure () s
  obtain ⟨v, hold, only, cores⟩ := holds
  obtain ⟨t, touch, fill, -⟩ := leads_touchCore (leaf := a.leaf) (code := s.effCode (coreOf b.id) d) rfl rfl (under _) (leads_home_sole sole) hold
    fun h => .inl (by rw [State.core, cores]; exact room h)
  exact ⟨t, touchHbm_cached caches touch, only.trans fill⟩

end

/-! ### The bytes at the home (R216, R217; log 3) -/

section
variable {b : By} {va : Word} {leaf : Word} {phys n d : Nat} {s t : State}

/-- What stands in the way of an access to a plain page of HBM: nothing, where the reuse code is known and no frame turns the page away. -/
theorem plain_hbm (code : d = 0 → (s.core (coreOf b.id)).cpois.contains cRDEF = false) (unwatched : lfRD leaf = false)
    (frame : stashable leaf = true ∨ (s.core (coreOf b.id)).stash = []) : s.Plain b ⟨va, .hbm phys, leaf, false⟩ d := by
  refine ⟨?_, rfl, ?_, by simp [State.raceLoc, unwatched]⟩
  · by_cases hd : d = 0
    · simp only [State.codeBad, code hd, Bool.and_false]
    · simp [State.codeBad, hd]
  · rcases frame with page | stash
    · simp [State.unstashable, page]
    · simp [State.unstashable, Core.frameOf, stash]

variable (only : s.OnlyLines t)
include only

/-- What an access has done to lines puts nothing in its way. -/
theorem State.Plain.onlyLines (plain : s.Plain b ⟨va, .hbm phys, leaf, false⟩ d) (unwatched : lfRD leaf = false) :
    t.Plain b ⟨va, .hbm phys, leaf, false⟩ d := by
  obtain ⟨stash, cpois⟩ := only.cores (coreOf b.id)
  refine ⟨?_, rfl, ?_, by simp [State.raceLoc, unwatched]⟩
  · have code := plain.code
    unfold State.codeBad at code ⊢
    rw [cpois]
    exact code
  · have frame := plain.frame
    unfold State.unstashable Core.frameOf at frame ⊢
    rw [stash]
    exact frame

theorem leads_loadPlain_hbm (touch : (touchHbm b ⟨va, .hbm phys, leaf, false⟩ phys d false).leads s t ()) (clean : s.poisoned phys n = false) :
    (loadPlain b failMe ⟨va, .hbm phys, leaf, false⟩ n d).leads s t (s.peek phys n) := by
  have clean' : t.poisoned phys n = false := by rw [State.poisoned, only.pois]; exact clean
  have same : t.peek phys n = s.peek phys n := by rw [State.peek, only.mem]; rfl
  refine M.leads_get_bind (M.leads_bind touch (M.leads_get_bind ?_))
  simp only [Space.loc, clean', Bool.false_eq_true, if_false]
  rw [same]
  exact M.leads_pure _ t

omit only in
theorem leads_storePlain_hbm {v : Word} (touch : (touchHbm b ⟨va, .hbm phys, leaf, false⟩ phys d true).leads s t ()) :
    (storePlain b failMe ⟨va, .hbm phys, leaf, false⟩ n d v).leads s (t.stored phys n v.toNat) () :=
  M.leads_get_bind (M.leads_bind touch (M.leads_upd _ t))

end

/-! ### Resolution (R93) -/

section
variable {use : Use} {va : Word} {n : Nat} {s u : State} {a : Acc}

/-- A load or store of a global address goes where its page lies. -/
theorem leads_locate_global (uses : use = .load ∨ use = .store) (global : va.toNat < 2 ^ 52) (fenced : s.fenced)
    (l : (resolve use.akind va).leads s u a) : (locate use va n).leads s u a := by
  have page : va.toNat / 2 ^ 52 = 0 := Nat.div_eq_of_lt global
  have marks : s.windowBad s.dev.cur va.toNat = false := by simp only [State.windowBad, page]; rfl
  have window : s.window s.dev.cur use va.toNat n = .ok none := by
    unfold State.window
    rw [if_pos page]
  refine M.leads_bind (leads_vecOrder fenced.2) ((becomes_skip (leads_readAhead fenced.1)).leads (M.leads_get_bind ?_))
  rw [marks, if_neg (by decide), window]
  refine M.leads_bind l ?_
  rcases uses with rfl | rfl <;> exact M.leads_pure a u

/-- Keeping a translation changes the interfaces' translations alone. -/
theorem leads_keepLeaf (core t p va : Nat) (l : Word) (s : State) :
    ∃ tlb, (keepLeaf core t p va l).leads s { s with dev := { s.dev with tlb := tlb } } () := by
  by_cases h : s.dev.tlb.contains ⟨interfaceOf (s.core core).pmap core va, t, p, va / 2 ^ entLog l, entLog l, l⟩ = true
  · refine ⟨s.dev.tlb, M.leads_get_bind ?_⟩
    simp only [h, if_true]
    exact M.leads_pure () s
  · refine ⟨⟨interfaceOf (s.core core).pmap core va, t, p, va / 2 ^ entLog l, entLog l, l⟩ :: s.dev.tlb.filter fun x =>
      !(x.ni == interfaceOf (s.core core).pmap core va && x.ten == t && x.pnode == p && va / 2 ^ x.lg == x.va), M.leads_get_bind ?_⟩
    simp only [h, Bool.false_eq_true, if_false]
    exact M.leads_upd _ s

/-- A translation that serves needs no walk (R93). -/
theorem leads_readyWalk {core t p va : Nat} {k : AKind} {user : Bool} {te : TlbEnt}
    (cached : s.cached (interfaceOf (s.core core).pmap core va) t p va = some te) (allowed : judge k user te.leaf = .ok te.leaf) :
    (readyWalk core t p va k user).leads s s () := by
  refine M.leads_get_bind ?_
  simp only [cached, allowed]
  exact M.leads_pure () s

theorem stage1_cached {core t p va : Nat} {k : AKind} {user : Bool} {te : TlbEnt}
    (cached : s.cached (interfaceOf (s.core core).pmap core va) t p va = some te) (allowed : judge k user te.leaf = .ok te.leaf) :
    s.stage1 core t p va k user = .ok te.leaf := by
  simp only [State.stage1, cached, allowed]

theorem leads_routeMe {l : Word} {x : Tgt} {v : Bool} (route : s.route (s.tenOf (coreOf s.dev.cur)) l va.toNat = .ok (x, v)) :
    (routeMe l va).leads s s ⟨va, x, l, v⟩ := by
  refine M.leads_get_bind ?_
  dsimp only
  rw [route]
  exact M.leads_pure _ s

variable (plain : inCaldera va.toNat = false)
include plain

/-- A copy that the core holds serves the access. -/
theorem leads_resolve_held {l : Line} {k : AKind} (held : s.heldLeaf (coreOf s.dev.cur) va.toNat k (!s.me.sup) = some l) :
    (resolve k va).leads s s ⟨va, l.tgt va.toNat, l.leaf, false⟩ := by
  have held : s.heldLeaf (coreOf s.dev.cur) va.toNat k (!(s.ctx s.dev.cur).sup) = some l := held
  refine M.leads_get_bind ?_
  rw [plain, if_neg (by decide), held]
  exact M.leads_pure _ s

/-- Otherwise the translation that the interface has serves it, where the page allows the access and is not being migrated (R91). -/
theorem leads_resolve_cached {k : AKind} {te : TlbEnt} {phys : Nat}
    (held : s.heldLeaf (coreOf s.dev.cur) va.toNat k (!s.me.sup) = none)
    (cached : s.cached (interfaceOf s.myCore.pmap (coreOf s.dev.cur) va.toNat) s.myTen s.myPart va.toNat = some te)
    (allowed : judge k (!s.me.sup) te.leaf = .ok te.leaf) (apt : lfAPT te.leaf = 0) (ver : lfVER te.leaf = false)
    (maps : s.stage2 s.myTen (gpaOf te.leaf va.toNat) = some phys) :
    ∃ u, (resolve k va).leads s u ⟨va, .hbm phys, te.leaf, false⟩ ∧ s.OnlyLines u ∧
      u.dev.dir = s.dev.dir ∧ u.cores = s.cores ∧ u.pres = s.pres := by
  have held : s.heldLeaf (coreOf s.dev.cur) va.toNat k (!(s.ctx s.dev.cur).sup) = none := held
  have cached : s.cached (interfaceOf (s.core (coreOf s.dev.cur)).pmap (coreOf s.dev.cur) va.toNat) (s.tenOf (coreOf s.dev.cur))
    (s.pnodeOf (coreOf s.dev.cur)) va.toNat = some te := cached
  have allowed : judge k (!(s.ctx s.dev.cur).sup) te.leaf = .ok te.leaf := allowed
  obtain ⟨tlb, keep⟩ := leads_keepLeaf (coreOf s.dev.cur) (s.tenOf (coreOf s.dev.cur)) (s.pnodeOf (coreOf s.dev.cur)) va.toNat te.leaf s
  have route : State.route { s with dev := { s.dev with tlb := tlb } } (s.tenOf (coreOf s.dev.cur)) te.leaf va.toNat = .ok (.hbm phys, false) :=
    State.route_hbm.2 ⟨apt, maps, ver⟩
  have walks := leads_readyWalk (s := s) cached allowed
  have finds : (xlate k va).leads s { s with dev := { s.dev with tlb := tlb } } te.leaf := by
    refine M.leads_get_bind (M.leads_bind walks (M.leads_get_bind ?_))
    rw [stage1_cached cached allowed]
    exact M.leads_bind keep (M.leads_pure _ _)
  have goes : (routeMe te.leaf va).leads { s with dev := { s.dev with tlb := tlb } } { s with dev := { s.dev with tlb := tlb } }
      ⟨va, .hbm phys, te.leaf, false⟩ := leads_routeMe route
  refine ⟨{ s with dev := { s.dev with tlb := tlb } }, M.leads_get_bind ?_, ⟨rfl, rfl, rfl, rfl, fun _ => ⟨rfl, rfl⟩⟩, rfl, rfl, rfl⟩
  rw [plain, if_neg (by decide), held]
  exact M.leads_bind finds goes

end

/-! ### Loads and stores at the home -/

/-- No global address is exposed (R39, R73). -/
theorem not_exposed_global {va : Word} (h : va.toNat < 2 ^ 52) : exposed va = false := by
  rw [exposed, Nat.div_eq_of_lt h]
  rfl

theorem State.wrote_rd (s : State) (rd r : XReg) (v : Word) : (s.wrote rd v).me.rd r = if r = rd ∧ r ≠ 0 then v else s.me.rd r := by
  unfold State.wrote
  split
  · rw [State.withMe_me]
    exact Ctx.rd_wr _ rd r v
  · rw [State.withMe_me, Ctx.rd_wr]

theorem State.wrote_dev (s : State) (rd : XReg) (v : Word) : (s.wrote rd v).dev = s.dev := by
  unfold State.wrote
  split <;> rfl

theorem State.retired_dir (s : State) (f : Fin) : (s.retired f).dev.dir = s.dev.dir := rfl

/-- An access of the executing context lands on bytes of HBM: it is resolved in `u`, its caches and its home end in `t`, and no check stands
in its way. -/
structure State.LandsAt (s u t : State) (use : Use) (va : Word) (n phys d : Nat) (leaf : Word) : Prop where
  straight : va.toNat % n = 0
  global : va.toNat < 2 ^ 52
  located : (locate use va n).leads s u ⟨va, .hbm phys, leaf, false⟩
  found : s.OnlyLines u
  plain : u.Plain u.byMe ⟨va, .hbm phys, leaf, false⟩ d
  unwatched : lfRD leaf = false
  touched : (touchHbm u.byMe ⟨va, .hbm phys, leaf, false⟩ phys d use.writes).leads u t ()
  made : u.OnlyLines t

section
variable {rd rs1 : XReg} {off : BitVec 8} {nu : BitVec 4} {phys : Nat} {leaf : Word} {s u t : State} (h1 : s.readable rs1) (settled : s.me.pend = [])
include h1 settled

theorem exec_load_hbm {e : (XReg → XReg → BitVec 8 → BitVec 4 → Instr) × Nat × (Nat → Word)} (he : e ∈ loadTable)
    (lands : s.LandsAt u t .load (eaOf (s.x rs1) off e.2.1) e.2.1 phys nu.toNat leaf) (clean : s.poisoned phys e.2.1 = false) :
    ∃ t', exec (e.1 rd rs1 off nu) s = .next t' ∧ t'.mem = s.mem ∧ t'.pois = s.pois ∧ t'.me.run = .ready ∧ t'.dev.dir = t.dev.dir ∧
      ∀ r, t'.me.rd r = if r = rd ∧ r ≠ 0 then e.2.2 (s.peek phys e.2.1) else s.me.rd r := by
  obtain ⟨straight, global, located, found, plain, unwatched, touched, made⟩ := lands
  obtain ⟨-, ext, agree, run⟩ := exec_loadTable e he
  have clean' : u.poisoned phys e.2.1 = false := by rw [State.poisoned, found.pois]; exact clean
  have same : u.peek phys e.2.1 = s.peek phys e.2.1 := by rw [State.peek, found.mem]; rfl
  have all := found.trans made
  have load := run_loadOp (ext := ext) (rd := rd) h1 straight located
    (leads_loadAt plain (plain.onlyLines made unwatched) (leads_loadPlain_hbm made touched clean'))
  rw [State.loaded, not_exposed_global global, if_neg (by decide), agree, same] at load
  have still : (t.wrote rd (e.2.2 (s.peek phys e.2.1))).me.pend = [] := by rw [State.wrote_pend, all.me]; exact settled
  refine ⟨_, (run ..).trans load, ?_, ?_, ?_, ?_, fun r => ?_⟩
  · exact (State.wrote_mem ..).trans all.mem
  · exact (State.wrote_pois ..).trans all.pois
  · rw [State.retired_me, Ctx.retire_run]
  · exact (State.retired_dir _ _).trans (congrArg Dev.dir (State.wrote_dev ..))
  · rw [State.retired_me, Ctx.retire_rd _ fun p hp => absurd hp (by simp [still]), ← all.me]
    exact State.wrote_rd ..

theorem exec_store_hbm {e : (XReg → XReg → BitVec 8 → BitVec 4 → Instr) × Nat} (he : e ∈ storeTable) (h2 : s.readable rd)
    (lands : s.LandsAt u t .store (eaOf (s.x rs1) off e.2) e.2 phys nu.toNat leaf) :
    ∃ t', exec (e.1 rd rs1 off nu) s = .next t' ∧ t'.mem = Memory.writes s.mem phys (leBytes e.2 (s.x rd).toNat) ∧ t'.me.run = .ready ∧
      t'.dev.dir = t.dev.dir ∧ ∀ r, t'.me.rd r = s.me.rd r := by
  obtain ⟨straight, global, located, found, plain, unwatched, touched, made⟩ := lands
  obtain ⟨-, run⟩ := exec_storeTable e he
  have all := found.trans made
  have store := run_storeOp h1 h2 straight located (leads_storeAt rfl plain (leads_storePlain_hbm (n := e.2) (v := s.x rd) touched))
  have still : (t.stored phys e.2 (s.x rd).toNat).me.pend = [] := (congrArg Ctx.pend all.me).trans settled
  refine ⟨_, (run ..).trans store, ?_, ?_, rfl, fun r => ?_⟩
  · exact congrArg (Memory.writes · phys (leBytes e.2 (s.x rd).toNat)) all.mem
  · rw [State.retired_me, Ctx.retire_run]
  · rw [State.retired_me, Ctx.retire_rd _ fun p hp => absurd hp (by simp [still])]
    exact congrArg (Ctx.rd · r) all.me

end

/-! ### Where the own copy serves, and where every cache lacks the line -/

section
variable {use : Use} {va : Word} {n phys d : Nat} {s : State} (uses : use = .load ∨ use = .store)
  (code : d = 0 → s.myCore.cpois.contains cRDEF = false)

/-- A copy that serves an access is in the frame of its address, or in the L1. -/
theorem held_of_heldLeaf {core va : Nat} {k : AKind} {user : Bool} {l : Line} (held : s.heldLeaf core va k user = some l) :
    (match (s.core core).frameOf va with
      | some f => (SMap.find (s.core core).sect (sectKey f va)).isSome
      | none => ((s.core core).l1Find va).isSome) = true := by
  have some' := (Option.filter_eq_some_iff.1 held).1
  split
  · next f frame =>
    simp only [frame] at some'
    rw [some']
    rfl
  · next frame =>
    simp only [frame, Option.map_eq_some_iff] at some'
    obtain ⟨e, found, -⟩ := some'
    rw [found]
    rfl

include uses code

/-- An access that the own L1 or stash serves. -/
theorem landsAt_of_hitAt (h : s.hitAt use va n phys) : ∃ t leaf, s.LandsAt s t use va n phys d leaf := by
  obtain ⟨straight, global, outside, fenced, l, held, rfl, aligned, fits, apt, ver, unwatched, cm, compute, sole⟩ := h
  have home : l.tgt va.toNat = .hbm (l.loc + va.toNat % 64) := if_pos (by omega)
  have caches : cacheable (coreOf s.dev.cur) l.leaf = true := by
    have compute : isVent (coreOf s.dev.cur) = false := compute
    simp [cacheable, cm, ver, unwatched, compute]
  have copy := held_of_heldLeaf held
  have hit : s.hits (coreOf s.dev.cur) va.toNat ((l.loc + va.toNat % 64) / 64) = true := by
    simp only [State.hits, hasU_sole sole, Bool.not_false, Bool.and_true]
    exact copy
  have room (frameless : (s.core (coreOf s.dev.cur)).frameOf va.toNat = none) : ((s.core (coreOf s.dev.cur)).l1Find va.toNat).isSome = true := by
    rw [frameless] at copy
    exact copy
  obtain ⟨t, touched, made⟩ := leads_touchHbm_hit (b := s.byMe) (a := ⟨va, .hbm (l.loc + va.toNat % 64), l.leaf, false⟩) (d := d) (wr := use.writes)
    caches hit room sole
  exact ⟨t, l.leaf, straight, global, leads_locate_global uses global fenced (home ▸ leads_resolve_held outside held), .refl s,
    plain_hbm code unwatched (.inl (by simp [stashable, cm, apt, ver, unwatched])), unwatched, touched, made⟩

/-- An access of which every cache lacks the line: where the page is cached the core then holds it alone. -/
theorem landsAt_of_missAt {te : TlbEnt} (h : s.missAt use va n phys te) : ∃ u t, s.LandsAt u t use va n phys d te.leaf ∧
    if cacheable (coreOf s.dev.cur) te.leaf then t.stateIn (phys / 64) (s.coreHolder (coreOf s.dev.cur)) = some (heldSt use.writes)
    else t.holders (phys / 64) = [] := by
  obtain ⟨straight, global, outside, fenced, l1, stash, cached, permitted, still, apt, ver, unwatched, maps, empty⟩ := h
  have l1 : (s.core (coreOf s.dev.cur)).l1 = [] := l1
  have stash : (s.core (coreOf s.dev.cur)).stash = [] := stash
  have none' (k : AKind) : s.heldLeaf (coreOf s.dev.cur) va.toNat k (!s.me.sup) = none := by
    simp [State.heldLeaf, Core.frameOf, Core.l1Find, l1, stash]
  have allowed : judge use.akind (!s.me.sup) te.leaf = .ok te.leaf := by
    have ready : holdUp use.akind te.leaf = none := by
      rcases uses with rfl | rfl
      · rfl
      · simp [Use.akind, holdUp, still rfl]
    simp only [judge, permitted, ready, Bool.not_true, Bool.false_eq_true, if_false]
  obtain ⟨u, resolved, found, dir, cores, pres⟩ := leads_resolve_cached outside (none' _) cached allowed apt ver maps
  have core (c : Nat) : u.core c = s.core c := by rw [State.core, cores]; rfl
  have me : coreOf u.byMe.id = coreOf s.dev.cur := congrArg coreOf found.cur
  have empty' : u.holders (phys / 64) = [] := by rw [State.holders, dir]; exact empty
  obtain ⟨t, touched, made, held⟩ := leads_touchHbm_miss (b := u.byMe) (a := ⟨va, .hbm phys, te.leaf, false⟩) (d := d) (wr := use.writes)
    (by rw [me, core, l1]) (by rw [me, core, stash]) empty'
  rw [me] at held
  have holder : u.coreHolder (coreOf s.dev.cur) = s.coreHolder (coreOf s.dev.cur) := by rw [State.coreHolder, pres]; rfl
  rw [holder] at held
  exact ⟨u, t, ⟨straight, global, leads_locate_global uses global fenced resolved, found,
    plain_hbm (by rw [me, core]; exact code) unwatched (.inr (by rw [me, core, stash])), unwatched, touched, made⟩, held⟩

end

theorem State.holders_of_dir {s t : State} (h : s.dev.dir = t.dev.dir) (line : Nat) : s.holders line = t.holders line := by
  rw [State.holders, h]
  rfl

/-- Settles O14: the access lands on the bytes at the home, whether the own copy serves it or every cache lacks the line. -/
theorem globalHits : Obligations.GlobalHits := by
  unfold Obligations.GlobalHits
  have uncoded {nu : BitVec 4} {p : Prop} (h : nu = 0 → p) : nu.toNat = 0 → p := fun z => h (BitVec.eq_of_toNat_eq z)
  refine ⟨?_, ?_, ?_⟩
  · intro e he rd rs1 off nu phys s h1 hit clean code settled
    obtain ⟨t, leaf, lands⟩ := landsAt_of_hitAt (.inl rfl) (uncoded code) hit
    obtain ⟨t', run, mem, pois, ready, -, regs⟩ := exec_load_hbm h1 settled he lands clean
    exact ⟨t', run, mem, pois, ready, regs⟩
  · intro e he rs rs1 off nu phys s h1 h2 hit code settled
    obtain ⟨t, leaf, lands⟩ := landsAt_of_hitAt (.inr rfl) (uncoded code) hit
    obtain ⟨t', run, mem, ready, -, regs⟩ := exec_store_hbm h1 settled he h2 lands
    exact ⟨t', run, mem, ready, regs⟩
  · intro rs1 off nu phys te s h1 code settled loc held
    have kept {t t' : State} {st : LSt} (dir : t'.dev.dir = t.dev.dir) (h : held t st) : held t' st := by
      simp only [held, State.stateIn, State.holders_of_dir dir] at h ⊢
      exact h
    refine ⟨fun e he rd miss clean => ?_, fun e he rs h2 miss => ?_⟩
    · obtain ⟨u, t, lands, line⟩ := landsAt_of_missAt (.inl rfl) (uncoded code) miss
      obtain ⟨t', run, mem, pois, ready, dir, regs⟩ := exec_load_hbm h1 settled he lands clean
      exact ⟨t', run, mem, pois, ready, kept dir line, regs⟩
    · obtain ⟨u, t, lands, line⟩ := landsAt_of_missAt (.inr rfl) (uncoded code) miss
      obtain ⟨t', run, mem, ready, dir, regs⟩ := exec_store_hbm h1 settled he h2 lands
      exact ⟨t', run, mem, ready, kept dir line, regs⟩

end Sys2Proof.Machine
end

section
/-!
SUPPORT. The ends of tasks, and helpers (R37, R211, R243 to R247, R313).
-/

namespace Sys2Proof.Machine

open M

/-! ### Waiting for helpers (R37) -/

theorem leads_waitFree {ids : List Nat} {s : State} (h : ∀ i ∈ ids, (s.ctx i).run = .free) : (waitFree ids).leads s s () := by
  refine M.leads_get_bind ?_
  rw [if_pos (List.all_eq_true.2 fun i hi => beq_iff_eq.2 (h i hi))]
  exact M.leads_pure () s

theorem quits_waitFree {ids : List Nat} {s : State} (tiles : s.noTiles) (h : ¬∀ i ∈ ids, (s.ctx i).run = .free) :
    (waitFree ids).Quits s s (s.parkedFor .helper) := by
  refine M.leads.quits (M.leads_get s) ?_
  rw [if_neg fun all => h fun i hi => beq_iff_eq.1 (List.all_eq_true.1 all i hi)]
  exact quits_park tiles (by decide) s

theorem leads_drainTiles {s : State} (h : s.noTiles) : drainTiles.leads s s () := fun s0 k => run_drainTiles s0 s h k

theorem leads_retireM (f : Fin) (s : State) : (retireM f).leads s (s.retired f) () := fun _ _ => rfl

/-! ### The end of a task (R243, R244) -/

/-- The control context enters IDLE, its core has no task, and the vent operations of the task have left their entries (R243, R313). -/
def State.taskless (t : State) : State :=
  let u := (t.withMe fun c => Ctx.ended .idle c.landAll).withMyCore fun k => { k with task := none, dwell := 0 }
  { u with dev := { u.dev with vops := u.dev.vops.filter fun o => coreOf o.ctx != coreOf t.dev.cur } }

theorem State.taskless_me (t : State) : t.taskless.me = Ctx.ended .idle t.me.landAll :=
  State.withMe_me t fun c => Ctx.ended .idle c.landAll

theorem State.taskless_myCore (t : State) : t.taskless.myCore = { t.myCore with task := none, dwell := 0 } :=
  State.withMyCore_myCore (t.withMe fun c => Ctx.ended .idle c.landAll) fun k => { k with task := none, dwell := 0 }

/-- A partition whose superstep is armed where an instruction arms it (R244). -/
def State.armedIf (t : State) (arm : Bool) (p : Nat) : State := if arm then t.setPart p fun q => { q with armed := true } else t

theorem State.armedIf_dev (t : State) (arm : Bool) (p : Nat) : (t.armedIf arm p).dev = t.dev := by
  cases arm <;> rfl

/-- What an ended task leaves, as the instruction performs it. -/
def leaveTask (id : Nat) : M Fin := do
  upd (.ctx id fun c => Ctx.ended .idle c.landAll)
  upd (.core (coreOf id) fun k => { k with task := none, dwell := 0 })
  upd (.dev fun d => { d with vops := d.vops.filter fun o => coreOf o.ctx != coreOf id })
  halt

theorem quits_leaveTask (s0 t : State) : (leaveTask t.dev.cur).Quits s0 t t.taskless := fun _ => rfl

theorem leads_arm (arm : Bool) (p : Nat) (t : State) :
    (if arm then upd (.part p fun q => { q with armed := true }) else pure () : M Unit).leads t (t.armedIf arm p) () := by
  cases arm
  · exact M.leads_pure () t
  · exact M.leads_upd _ t

/-- A part that is performed under a condition is performed, or passed by. -/
theorem becomes_when {α : Type} {c : Prop} [Decidable c] {m : M Unit} {f : Unit → M α} {s t : State}
    (l : (if c then m else pure ()).leads s t ()) : (if c then m >>= f else f () : M α).Becomes s (f ()) t := by
  by_cases hc : c
  · rw [if_pos hc] at l ⊢
    exact l.becomes (.refl _ t)
  · rw [if_neg hc] at l ⊢
    exact fun s0 k => l s0 fun _ => f () k

section
variable {s : State} (tiles : s.noTiles)
include tiles

theorem quits_endOp_waits (arm : Bool) (busy : ¬s.helpersFree) : (endOp arm).Quits s s (s.parkedFor .helper) :=
  M.leads.quits (fun s0 k => run_meId s0 s k) ((quits_waitFree tiles busy).bind _)

theorem quits_endOp (arm : Bool) (queue : s.myCore.vq = []) (vops : ∀ o ∈ s.dev.vops, coreOf o.ctx ≠ coreOf s.dev.cur ∨ o.done ≠ none)
    (free : s.helpersFree) : (endOp arm).Quits s s (s.retired.armedIf arm s.myPart).taskless := by
  have none' : (s.core (coreOf s.dev.cur)).vq.isEmpty = true := List.isEmpty_iff.2 queue
  have done' : (s.dev.vops.any fun o => coreOf o.ctx == coreOf s.dev.cur && o.done.isNone) = false := by
    refine List.any_eq_false.2 fun o ho => ?_
    rcases vops o ho with other | ended
    · simp [other]
    · simp [ended]
  have cur : (s.retired.armedIf arm s.myPart).dev.cur = s.dev.cur := (congrArg Dev.cur (State.armedIf_dev ..)).trans (State.retired_cur s {})
  have leave := quits_leaveTask s (s.retired.armedIf arm s.myPart)
  rw [cur] at leave
  refine M.leads.quits (fun s0 k => run_meId s0 s k) (M.leads.quits (leads_waitFree free) (M.leads.quits (leads_flushWindow tiles)
    (M.leads.quits (leads_drainTiles tiles) (M.leads.quits (M.leads_get s) ?_))))
  rw [none', done', if_neg (by decide)]
  exact M.leads.quits (leads_retireM {} s) ((becomes_when (leads_arm arm _ _)).quits leave)

end

/-- What a task that has ended leaves alone, besides the partitions' armed flags. -/
abbrev State.tasklessFrom (s t : State) : Prop :=
  t.me.run = .idle ∧ t.me.recvq = [] ∧ t.me.wait = none ∧ t.myCore.task = none ∧ t.dev.cur = s.dev.cur ∧ t.mem = s.mem ∧
    (∀ k, k ≠ s.dev.cur → t.ctx k = s.ctx k) ∧ ∀ c, c ≠ coreOf s.dev.cur → t.core c = s.core c

theorem State.tasklessFrom_retired (s : State) (arm : Bool) (p : Nat) : s.tasklessFrom (s.retired.armedIf arm p).taskless := by
  have me := (s.retired.armedIf arm p).taskless_me
  have myCore := (s.retired.armedIf arm p).taskless_myCore
  cases arm <;>
  · refine ⟨congrArg Ctx.run me, congrArg Ctx.recvq me, congrArg Ctx.wait me, congrArg Core.task myCore, State.retired_cur s {}, ?_, ?_, ?_⟩
    · exact State.retired_mem s {}
    · exact fun k hk => (State.ctx_setCtx_ne _ _ hk).trans (State.retired_ctx_ne s {} hk)
    · exact fun c hc => (State.core_setCore_ne _ _ hc).trans (State.retired_core_ne s {} hc)

theorem exec_taskEnd (s : State) (control : s.onControl = true) {t : State} (h : (endOp false).Quits s s t) : exec .taskEnd s = .next t :=
  M.Quits.instr_eq (M.leads.quits (leads_agent _ control) h)

theorem exec_ssEnd (s : State) (control : s.onControl = true) (compute : s.onVent = false) {t : State} (h : (endOp true).Quits s s t) :
    exec .ssEnd s = .next t :=
  M.Quits.instr_eq (M.leads.quits (leads_agent _ (Bool.and_eq_true_iff.2 ⟨control, congrArg (!·) compute⟩)) h)

theorem State.taskless_parts (t : State) : t.taskless.parts = t.parts := rfl

theorem State.parkedFor_core (s : State) (cls : WaitClass) (c : Nat) : (s.parkedFor cls).core c = s.core c := rfl

/-- Settles O22: the task ends, or waits for a helper. -/
theorem taskEnd : Obligations.TaskEnd := by
  unfold Obligations.TaskEnd
  intro s control tiles queue vops ended
  refine ⟨fun free => ⟨?_, fun compute => ?_⟩, fun busy => ⟨?_, fun compute => ?_⟩⟩
  · exact ⟨_, exec_taskEnd s control (quits_endOp tiles false queue vops free), s.tasklessFrom_retired false _, State.taskless_parts _⟩
  · exact ⟨_, exec_ssEnd s control compute (quits_endOp tiles true queue vops free), s.tasklessFrom_retired true _, State.taskless_parts _⟩
  · exact ⟨_, exec_taskEnd s control (quits_endOp_waits tiles false busy), s.parkedOn_parkedFor .helper, s.parkedFor_core .helper⟩
  · exact ⟨_, exec_ssEnd s control compute (quits_endOp_waits tiles true busy), s.parkedOn_parkedFor .helper, s.parkedFor_core .helper⟩

/-! ### Helpers (R245 to R247) -/

theorem helpersOf_mem {core h : Nat} (hm : h ∈ helpersOf core) : coreOf h = core ∧ ctxOf h ≠ 0 := by
  obtain ⟨k, hk, rfl⟩ := List.mem_map.1 hm
  have few : ctxCount core ≤ 11 := by
    unfold ctxCount
    split <;> decide
  have := List.mem_range.1 hk
  unfold coreOf ctxOf ctxId
  omega

/-- What a started helper begins with, where the issuer has no load pending. -/
theorem Ctx.begun_spec (vent : Bool) {i : Ctx} (pend : i.pend = []) (rd : XReg) (n t : Word) (c : Ctx) :
    (Ctx.begun vent i rd n t c).run = .ready ∧ (Ctx.begun vent i rd n t c).sup = false ∧
    ((Ctx.begun vent i rd n t c).pc, (Ctx.begun vent i rd n t c).q1, (Ctx.begun vent i rd n t c).q2, (Ctx.begun vent i rd n t c).a1,
      (Ctx.begun vent i rd n t c).a2) = (t, t + 4, t + 8, false, false) ∧
    (∀ r, (Ctx.begun vent i rd n t c).rd r = (i.wr rd n).rd r) ∧ (Ctx.begun vent i rd n t c).csrGet vent cFFLAGS = 0 ∧
    (Ctx.begun vent i rd n t c).csrGet vent cFRM = i.csrGet vent cFRM := by
  refine ⟨rfl, rfl, rfl, fun r => Ctx.rd_congr ?_ r, ?_, ?_⟩
  · show ({ i.tick with pend := [] }.wr rd n).x = (i.wr rd n).x
    rw [Ctx.tick_of_no_pend pend, ← pend]
  · unfold Ctx.begun
    rw [Ctx.csrGet_csrSet_ne _ _ _ (by decide), Ctx.csrGet_csrSet_ne _ _ _ (by decide), Ctx.csrGet_csrSet_self]
  · unfold Ctx.begun
    rw [Ctx.csrGet_csrSet_ne _ _ _ (by decide), Ctx.csrGet_csrSet_self]

/-- The state in which a helper has been started and its number given (R245). -/
def State.startedAt (s : State) (rd : XReg) (h : Nat) (t : Word) : State :=
  let n := BitVec.ofNat 64 (ctxOf h)
  ((Upd.ctx h (Ctx.begun s.onVent s.me rd n t)).apply s).wrote rd n

section
variable {rd rs1 : XReg} {imm : BitVec 12} {s : State} {h : Nat}

theorem exec_hstart (control : s.onControl = true) (fenced : s.fenced) (base : s.readable rs1) (calm : s.me.sb = 0)
    (clean : s.me.tick.xpois = 0) (mode : s.me.cpois.contains cFRM = false)
    (found : (helpersOf (coreOf s.dev.cur)).find? (fun i => (s.ctx i).run == .free) = some h) :
    exec (.hstart rd rs1 imm) s = .next (s.startedAt rd h (s.x rs1 + BitVec.ofInt 64 (4 * imm.toInt))).retired := by
  refine M.leads.instr_eq (M.leads_bind (leads_agent _ control) (M.leads_bind (leads_rx base) (M.leads_bind (leads_fenceAll fenced)
    (M.leads_get_bind ?_))))
  have quiet : ¬(s.ctx s.dev.cur).sb ≠ 0 := not_not_intro calm
  have unmarked : ¬((s.ctx s.dev.cur).tick.xpois ≠ 0 || (s.ctx s.dev.cur).cpois.contains cFRM) = true := by
    rw [show (s.ctx s.dev.cur).tick.xpois = 0 from clean, show (s.ctx s.dev.cur).cpois.contains cFRM = false from mode]
    decide
  have start : s.x rs1 + BitVec.ofInt 64 (4 * imm.toInt) = s.x rs1 + 4 * immS imm := (target_eq ..).symm
  dsimp only
  rw [found]
  dsimp only
  rw [if_neg quiet, if_neg unmarked, start]
  exact M.leads_upd_bind (M.leads_bind (leads_wx _ _ _) (M.leads_pure _ _))

/-- Another context than the issuer has been started. -/
theorem State.startedAt_ctx (s : State) (rd : XReg) (t : Word) (other : h ≠ s.dev.cur) :
    (s.startedAt rd h t).ctx h = Ctx.begun s.onVent s.me rd (BitVec.ofNat 64 (ctxOf h)) t (s.ctx h) := by
  unfold State.startedAt State.wrote
  dsimp only
  split <;> exact (State.ctx_setCtx_ne _ _ other).trans ((State.ctx_upd_ctx ..).trans (if_pos rfl))

/-- The issuer goes on with the helper's number. -/
theorem State.startedAt_me (s : State) (rd : XReg) (t : Word) (other : h ≠ s.dev.cur) (calm : s.me.sb = 0) :
    (s.startedAt rd h t).me = s.me.wr rd (BitVec.ofNat 64 (ctxOf h)) := by
  have same : ((Upd.ctx h (Ctx.begun s.onVent s.me rd (BitVec.ofNat 64 (ctxOf h)) t)).apply s).me = s.me :=
    (State.ctx_upd_ctx ..).trans (if_neg other.symm)
  unfold State.startedAt State.wrote
  have idle : s.me.busy rd = false := by simp [Ctx.busy, calm]
  dsimp only
  rw [same, idle, if_neg (by decide), State.withMe_me, same]

theorem State.startedAt_cur (s : State) (rd : XReg) (h : Nat) (t : Word) : (s.startedAt rd h t).dev.cur = s.dev.cur :=
  congrArg Dev.cur (State.wrote_dev ..)

theorem State.startedAt_mem (s : State) (rd : XReg) (h : Nat) (t : Word) : (s.startedAt rd h t).mem = s.mem := State.wrote_mem ..

theorem exec_hjoin {mask : BitVec 10} (control : s.onControl = true) (tiles : s.noTiles) (vent : s.onVent = true → mask.toNat < 8)
    (free : ∀ h ∈ helpersOf (coreOf s.dev.cur), mask = 0 ∨ mask.getLsbD (ctxOf h - 1) = true → (s.ctx h).run = .free) :
    exec (.hjoin mask) s = .next s.retired := by
  have few : (onCompute s.dev.cur || mask.toNat < 8) = true := by
    cases on : s.onVent
    · simp [onCompute, show isVent (coreOf s.dev.cur) = false from on]
    · simp [vent on]
  refine M.leads.instr_eq (M.leads_bind (leads_agent _ control) (M.leads_bind (leads_agent _ few) (M.leads_bind (leads_flushWindow tiles)
    (M.leads_bind (fun s0 k => run_meCore s0 s k) (M.leads_bind (leads_waitFree fun h hm => ?_) (M.leads_pure _ _))))))
  obtain ⟨hm, named⟩ := List.mem_filter.1 hm
  exact free h hm (by simpa using named)

theorem exec_hexit (helper : s.onControl = false) (idle : ∀ e ∈ s.myCore.vq, e.ctx ≠ s.dev.cur) :
    exec .hexit s = .next (s.retired.withMe (Ctx.ended .free)) := by
  refine M.Quits.instr_eq (M.leads.quits (leads_agent _ (congrArg (!·) helper)) (M.leads.quits (M.leads_get s) ?_))
  have none' : ((s.core (coreOf s.dev.cur)).vq.any fun e => e.ctx == s.dev.cur) = false := List.any_eq_false.2 fun e he => by simpa using idle e he
  dsimp only
  rw [none', if_neg (by decide)]
  exact M.leads.quits (leads_retireM {} s) fun _ => rfl

end

/-- Settles O23: a helper is started, waited for, and ended. -/
theorem helpers : Obligations.Helpers := by
  unfold Obligations.Helpers
  refine fun rd rs1 imm mask s => ⟨fun control fenced base calm clean mode pend h found => ?_, exec_hjoin, fun helper idle => ?_⟩
  · obtain ⟨-, numbered⟩ := helpersOf_mem (List.mem_of_find?_eq_some found)
    have other : h ≠ s.dev.cur := fun e => numbered (e ▸ beq_iff_eq.1 control)
    have pend' : ∀ r, (s.me.wr rd (BitVec.ofNat 64 (ctxOf h))).notPending r := fun r => by simp [Ctx.notPending, pend]
    obtain ⟨run, user, queue, regs, flags, frm⟩ := Ctx.begun_spec s.onVent pend rd (BitVec.ofNat 64 (ctxOf h))
      (s.x rs1 + BitVec.ofInt 64 (4 * imm.toInt)) (s.ctx h)
    refine ⟨_, exec_hstart control fenced base calm clean mode found, ?_⟩
    rw [State.retired_me, State.startedAt_me s rd _ other calm, State.retired_ctx_ne _ _ (fun e => other (e.trans (s.startedAt_cur rd h _))),
      State.startedAt_ctx s rd _ other, Ctx.retire_run, Ctx.retire_rd _ (pend' rd), Ctx.rd_wr]
    refine ⟨rfl, ?_, run, user, queue, fun r => (regs r).trans (Ctx.retire_rd _ (pend' r)).symm, flags, frm,
      (State.retired_mem ..).trans (s.startedAt_mem rd h _)⟩
    by_cases z : rd = 0
    · rw [if_pos z, if_neg fun n => n.2 z, z, Ctx.rd_zero]
    · rw [if_neg z, if_pos ⟨rfl, z⟩]
  · have me : (s.retired.withMe (Ctx.ended .free)).me = _ := State.withMe_me ..
    refine ⟨_, exec_hexit helper idle, congrArg Ctx.run me, congrArg Ctx.recvq me, State.retired_mem s {}, fun k hk => ?_⟩
    exact (State.ctx_setCtx_ne _ _ hk).trans (State.retired_ctx_ne s {} hk)

end Sys2Proof.Machine
end

section
/-!
SUPPORT. What the port instructions share (R122, R253, R401, R449).
-/

namespace Sys2Proof.Machine

open M

/-- A cause drops what its instruction has done, wherever it is found (R426). -/
theorem quits_raise_at {α : Type} {t : State} (h : t.noTiles) (code : BitVec 8) (val : Word) (s : State) :
    (raise code val : M α).Quits s t (s.took { code := code, val := val }) :=
  (leads_drainTiles h).quits fun _ => rfl

/-- An instruction that has acted parks: what it has done stays (R449). -/
def State.parkedActed (s : State) (cls : WaitClass) (v : Nat) : State :=
  s.arrived.withMe fun c =>
    { c with run := .parked, wait := some { cls := cls, seq := s.dev.seq, acted := some v, req := none, ins := s.dev.ins, pc := c.pc } }

theorem quits_parkActed {α : Type} {s : State} (tiles : s.noTiles) (cls : WaitClass) (v : Nat) (s0 : State) :
    (parkActed cls v : M α).Quits s0 s (s.parkedActed cls v) := by
  refine M.leads.quits (leads_nextSeq s) (M.leads.quits (M.leads_get _) (M.leads.quits (leads_flushWindow (s := s.arrived) tiles) ?_))
  exact fun _ => rfl

theorem State.parkedOn_parkedActed (s : State) (cls : WaitClass) (v : Nat) : s.parkedOn (s.parkedActed cls v) cls (some v) := by
  have me : (s.parkedActed cls v).me = _ := State.withMe_me ..
  unfold State.parkedOn
  rw [me]
  exact ⟨rfl, rfl, rfl, rfl, rfl, fun k hk => State.ctx_setCtx_ne _ _ hk⟩

/-- A meaning that does what another one does has its outcome. -/
theorem M.Becomes.instr_eq {m n : M Fin} {s : State} (h : m.Becomes s n s) : instr m s = instr n s := congrArg Host.Outcome.next (h s _)

/-! ### The port and the slice of an instruction (R122, R253) -/

section
variable {rs1 : XReg} {p side k e : Nat} {q : PortLd} {s : State}

theorem leads_portNum (named : s.portNamed rs1 p) : (portNum rs1).leads s s p := by
  obtain ⟨h1, rfl, few, ten, tiles, calm⟩ := named
  refine M.leads_bind (leads_rx h1) (M.leads_bind (leads_flushWindow tiles) (M.leads_get_bind ?_))
  have calm : s.seeding (s.tenOf (coreOf s.dev.cur)) = false := calm
  have ten : (s.port (s.x rs1).toNat).ten = some (s.tenOf (coreOf s.dev.cur)) := ten
  dsimp only
  rw [calm, if_neg (by decide), ten, if_pos (by simpa using few)]
  exact M.leads_pure _ s

theorem leads_portLoaded (named : s.portNamed rs1 p) (loaded : (s.port p).ld = some q) : (portLoaded rs1).leads s s (p, q) := by
  refine M.leads_bind (leads_portNum named) (M.leads_get_bind ?_)
  rw [loaded]
  exact M.leads_pure _ s

theorem leads_mySlice (slice : s.sliceOf rs1 p q side k e) : (mySlice p q side).leads s s (k, e) := by
  obtain ⟨-, -, mine, entry, place, first⟩ := slice
  refine M.leads_get_bind ?_
  dsimp only
  generalize hw : (if side = 0 then pSPNODE q.img else pRPNODE q.img) = want at *
  generalize he : (if side = 0 then q.sl.take (pNSSL q.img) else q.sl.drop (pNSSL q.img)) = es at *
  have mine : s.pnodeOf (coreOf s.dev.cur) = want := mine
  obtain ⟨x, hx, rfl⟩ : ∃ x, es[k]? = some x ∧ x.toNat = e := by simpa using entry
  obtain ⟨hk, rfl⟩ := List.getElem?_eq_some_iff.1 hx
  have found : (((List.range es.length).zip es).find? fun x => s.pnodeOf (coreOf s.dev.cur) == want &&
      some (slCORE x.2.toNat) == (s.nodeCores (s.pnodeOf (coreOf s.dev.cur))).idxOf? (coreOf s.dev.cur)) = some (k, es[k]) := by
    refine List.find?_eq_some_iff_getElem.2 ⟨?_, k, by simpa using hk, by simp, fun j hj => ?_⟩
    · rw [show (s.nodeCores (s.pnodeOf (coreOf s.dev.cur))).idxOf? (coreOf s.dev.cur) = _ from place]
      simp [mine]
    · have hj' : j < es.length := hj.trans hk
      have other := first j es[j].toNat hj (by simp [hj'])
      rw [show (s.nodeCores (s.pnodeOf (coreOf s.dev.cur))).idxOf? (coreOf s.dev.cur) = _ from place]
      simp [other]
  rw [found]
  exact M.leads_pure _ s

theorem Core.flush_task (dwell : Bool) (c : Core) : (c.flush dwell).task = c.task := by
  unfold Core.flush
  split <;> rfl

/-- A flush of the window leaves the ports, and the tenant that the core runs for. -/
theorem leads_flushWindow_any (s : State) : ∃ t, flushWindow.leads s t () ∧ t.ports = s.ports ∧ t.myTen = s.myTen := by
  by_cases h : (ctxOf s.dev.cur == 0 && !isVent (coreOf s.dev.cur) && (s.core (coreOf s.dev.cur)).win.any (fun e => e.st == .held)) = true
  · refine ⟨s.withMyCore (Core.flush false), M.leads_get_bind ?_, rfl, ?_⟩
    · dsimp only
      rw [if_pos h]
      exact fun _ _ => rfl
    · have task : ((s.withMyCore (Core.flush false)).core (coreOf s.dev.cur)).task = (s.core (coreOf s.dev.cur)).task :=
        (congrArg Core.task (State.withMyCore_myCore ..)).trans (Core.flush_task ..)
      show (s.withMyCore (Core.flush false)).tenOf (coreOf s.dev.cur) = s.tenOf (coreOf s.dev.cur)
      unfold State.tenOf State.pnodeOf
      rw [task]
      rfl
  · refine ⟨s, M.leads_get_bind ?_, rfl, rfl⟩
    dsimp only
    rw [if_neg h]
    exact M.leads_pure _ s

/-- While a seed of the tenant's ports is being copied a port instruction is executed again later (R136). -/
theorem quits_portNum_seeding (h1 : s.readable rs1) (seeding : s.seeding s.myTen = true) : (portNum rs1).Quits s s s := by
  obtain ⟨t, flush, same, ten⟩ := leads_flushWindow_any s
  refine M.leads.quits (leads_rx h1) (M.leads.quits flush (M.leads.quits (M.leads_get t) ?_))
  have seeding : t.seeding (t.tenOf (coreOf t.dev.cur)) = true := by
    rw [show t.tenOf (coreOf t.dev.cur) = s.myTen from ten, State.seeding, same]
    exact seeding
  dsimp only
  rw [if_pos seeding]
  exact quits_stall s t

end
end Sys2Proof.Machine
end

section
/-!
SUPPORT. Closes, reads, releases and the status of ports (R128, R132, R136, R256 to R259).
-/

namespace Sys2Proof.Machine

open M

theorem State.withLoaded_port (s : State) (p : Nat) (q : PortLd) : (s.withLoaded p q).port p = { s.port p with ld := some q } :=
  SMap.get_set_self ..

theorem leads_updLd {p : Nat} {q : PortLd} {s : State} (loaded : (s.port p).ld = some q) (f : PortLd → PortLd) :
    (updLd p f).leads s (s.withLoaded p (f q)) () := by
  have same : (Upd.port p fun x => { x with ld := x.ld.map f }).apply s = s.withLoaded p (f q) := by
    rw [Upd.apply, loaded]
    rfl
  exact same ▸ M.leads_upd _ s

/-- The number of the version that a close waits for (R136, R256). -/
theorem PortLd.closedAs_eq (q : PortLd) (v : Nat) : q.closedAs v = if q.seeded = true ∧ v = 0 then 1 else v := by
  simp [PortLd.closedAs]

section
variable {rd rs1 : XReg} {o : S2} {p side k e v : Nat} {q : PortLd} {s : State}

theorem exec_pclose_fresh (slice : s.sliceOf rs1 p q 0 k e) (fresh : s.me.wait = none) (is_open : q.cl.contains k = false) :
    exec (.pclose rd rs1) s = instr (if SMap.get (fun _ => 0) q.dt k = 0 then portFault p 0x10 k
      else if 2 ^ 32 ≤ q.nextv then portFault p 0x12 0
      else do
        fenceAll
        updLd p fun q => { q with cl := nsInsert k q.cl }
        parkActed (.pclose p) q.nextv) s := by
  obtain ⟨named, loaded, -⟩ := id slice
  refine M.Becomes.instr_eq ((leads_me s).becomes ((leads_portNum named).becomes ((M.leads_get s).becomes ?_)))
  dsimp only
  rw [fresh, loaded]
  refine (leads_mySlice slice).becomes ?_
  dsimp only
  rw [is_open, if_neg (by decide)]
  exact .refl _ s

theorem exec_pclose_closes (slice : s.sliceOf rs1 p q 0 k e) (fenced : s.fenced) (fresh : s.me.wait = none) (is_open : q.cl.contains k = false)
    (filled : SMap.get (fun _ => 0) q.dt k ≠ 0) (few : q.nextv < 2 ^ 32) :
    exec (.pclose rd rs1) s = .next ((s.withLoaded p { q with cl := nsInsert k q.cl }).parkedActed (.pclose p) q.nextv) := by
  obtain ⟨-, loaded, -⟩ := id slice
  rw [exec_pclose_fresh slice fresh is_open, if_neg filled, if_neg (Nat.not_le.2 few)]
  exact M.Quits.instr_eq (M.leads.quits (leads_fenceAll fenced) (M.leads.quits (leads_updLd loaded _)
    (quits_parkActed (s := s.withLoaded p { q with cl := nsInsert k q.cl }) fenced.1 _ _ s)))

theorem exec_pclose_empty (slice : s.sliceOf rs1 p q 0 k e) (fresh : s.me.wait = none) (is_open : q.cl.contains k = false)
    (empty : SMap.get (fun _ => 0) q.dt k = 0) :
    exec (.pclose rd rs1) s = .next (s.took { code := PORT, val := portXval p 0x10 k }) := by
  obtain ⟨⟨-, -, -, -, tiles, -⟩, -⟩ := id slice
  rw [exec_pclose_fresh slice fresh is_open, if_pos empty]
  exact M.Quits.instr_eq (quits_raise tiles _ _)

theorem exec_pclose_acted (slice : s.sliceOf rs1 p q 0 k e) {w : Wait} (waits : s.me.wait = some w) (on : w.cls = .pclose p)
    (acted : w.acted = some v) : exec (.pclose rd rs1) s = instr (closeWait p v rd q) s := by
  obtain ⟨named, loaded, -⟩ := id slice
  refine M.Becomes.instr_eq ((leads_me s).becomes ((leads_portNum named).becomes ((M.leads_get s).becomes ?_)))
  dsimp only
  rw [waits, loaded]
  dsimp only
  rw [acted]
  refine (leads_mySlice slice).becomes ?_
  rw [on]
  dsimp only
  rw [beq_self_eq_true, if_pos rfl]
  exact .refl _ s

theorem exec_pclose_waits (slice : s.sliceOf rs1 p q 0 k e) {w : Wait} (waits : s.me.wait = some w) (on : w.cls = .pclose p)
    (acted : w.acted = some v) (behind : q.nextv ≤ q.closedAs v) :
    exec (.pclose rd rs1) s = .next (s.parkedActed (.pclose p) v) := by
  obtain ⟨⟨-, -, -, -, tiles, -⟩, -⟩ := id slice
  rw [exec_pclose_acted slice waits on acted, closeWait, if_pos behind]
  exact M.Quits.instr_eq (quits_parkActed tiles _ _ s)

theorem exec_pclose_done (slice : s.sliceOf rs1 p q 0 k e) {w : Wait} (waits : s.me.wait = some w) (on : w.cls = .pclose p)
    (acted : w.acted = some v) (published : q.closedAs v < q.nextv) :
    exec (.pclose rd rs1) s = .next (s.wrote rd (BitVec.ofNat 64 (q.closedAs v))).retired := by
  rw [exec_pclose_acted slice waits on acted, closeWait, if_neg (Nat.not_le.2 published)]
  exact M.leads.instr_eq (M.leads_bind (leads_wx _ _ _) (M.leads_pure _ _))

/-! ### Reads, releases and the status (R257 to R259) -/

theorem exec_pget (readable : s.s2Readable o) (slice : s.sliceOf rs1 p q 1 k e) (published : (s.s2 o).toNat % 2 ^ 32 < q.nextv) :
    exec (.pget rs1 o) s = .next s.retired := by
  obtain ⟨named, loaded, -⟩ := id slice
  refine M.leads.instr_eq (M.leads_bind (leads_s2Val readable) (M.leads_bind (leads_portLoaded named loaded)
    (M.leads_bind (leads_mySlice slice) ?_)))
  rw [if_pos published]
  exact M.leads_pure _ s

theorem exec_pget_waits (readable : s.s2Readable o) (slice : s.sliceOf rs1 p q 1 k e) (behind : q.nextv ≤ (s.s2 o).toNat % 2 ^ 32) :
    exec (.pget rs1 o) s = .next (s.parkedFor (.pget p ((s.s2 o).toNat % 2 ^ 32))) := by
  obtain ⟨named, loaded, -⟩ := id slice
  obtain ⟨-, -, -, -, tiles, -⟩ := id named
  refine M.Quits.instr_eq (M.leads.quits (leads_s2Val readable) (M.leads.quits (leads_portLoaded named loaded)
    (M.leads.quits (leads_mySlice slice) ?_)))
  rw [if_neg (Nat.not_lt.2 behind)]
  exact quits_park tiles ⟨by simp, by simp⟩ s

theorem exec_prel_refused (readable : s.s2Readable o) (slice : s.sliceOf rs1 p q 1 k e) (behind : q.nextv ≤ (s.s2 o).toNat % 2 ^ 32) :
    exec (.prel rs1 o) s = .next (s.took { code := PORT, val := portXval p 0x11 ((s.s2 o).toNat % 2 ^ 32) }) := by
  obtain ⟨named, loaded, -⟩ := id slice
  obtain ⟨-, -, -, -, tiles, -⟩ := id named
  refine M.Quits.instr_eq (M.leads.quits (leads_s2Val readable) (M.leads.quits (leads_portLoaded named loaded)
    (M.leads.quits (leads_mySlice slice) ?_)))
  dsimp only
  rw [if_pos behind]
  exact quits_raise tiles _ _

/-- The record with the release level of a receiver slice raised (R132, R258). -/
def PortLd.raised (q : PortLd) (k n : Nat) : PortLd :=
  { q with rl := SMap.set (fun _ => 0) q.rl k (max (SMap.get (fun _ => 0) q.rl k) (n + 1)) }

/-- A release with no level to reach, and one that reclaims what it can (R258). -/
theorem exec_prel (readable : s.s2Readable o) (slice : s.sliceOf rs1 p q 1 k e) (published : (s.s2 o).toNat % 2 ^ 32 < q.nextv)
    (fenced : s.fenced) {t : State} {done : Bool} (kept : (t.port p).ld = some q)
    (reclaim : (if q.rel < (q.raised k ((s.s2 o).toNat % 2 ^ 32)).minRl then
      reclaimNow q (q.raised k ((s.s2 o).toNat % 2 ^ 32)).minRl q.bufferPieces else pure true : M Bool).leads s t done) :
    exec (.prel rs1 o) s = .next (t.withLoaded p { q.raised k ((s.s2 o).toNat % 2 ^ 32) with
      rel := max q.rel (q.raised k ((s.s2 o).toNat % 2 ^ 32)).minRl, owes := q.owes || !done }).retired := by
  obtain ⟨named, loaded, -⟩ := id slice
  refine M.leads.instr_eq (M.leads_bind (leads_s2Val readable) (M.leads_bind (leads_portLoaded named loaded)
    (M.leads_bind (leads_mySlice slice) ?_)))
  dsimp only
  rw [if_neg (Nat.not_le.2 published)]
  exact M.leads_bind (leads_fenceAll fenced) (leads_join reclaim (M.leads_bind (leads_updLd kept _) (M.leads_pure _ _)))

theorem exec_prel_idle (readable : s.s2Readable o) (slice : s.sliceOf rs1 p q 1 k e) (published : (s.s2 o).toNat % 2 ^ 32 < q.nextv)
    (fenced : s.fenced) (low : (q.raised k ((s.s2 o).toNat % 2 ^ 32)).minRl ≤ q.rel) :
    exec (.prel rs1 o) s = .next (s.withLoaded p { q.raised k ((s.s2 o).toNat % 2 ^ 32) with rel := q.rel }).retired := by
  obtain ⟨-, loaded, -⟩ := id slice
  have idle := exec_prel readable slice published fenced (done := true) loaded (by
    rw [if_neg (Nat.not_lt.2 low)]
    exact M.leads_pure _ s)
  rw [idle, Nat.max_eq_left low, Bool.not_true, Bool.or_false]
  rfl

theorem exec_prel_reclaims (readable : s.s2Readable o) (slice : s.sliceOf rs1 p q 1 k e) (published : (s.s2 o).toNat % 2 ^ 32 < q.nextv)
    (fenced : s.fenced) {t : State} {done : Bool} (high : q.rel < (q.raised k ((s.s2 o).toNat % 2 ^ 32)).minRl)
    (reclaim : (reclaimNow q (q.raised k ((s.s2 o).toNat % 2 ^ 32)).minRl q.bufferPieces).leads s t done)
    (kept : (t.port p).ld = some q) :
    exec (.prel rs1 o) s = .next (t.withLoaded p { q.raised k ((s.s2 o).toNat % 2 ^ 32) with
      rel := (q.raised k ((s.s2 o).toNat % 2 ^ 32)).minRl, owes := q.owes || !done }).retired := by
  have reclaims := exec_prel readable slice published fenced (done := done) kept (by
    rw [if_pos high]
    exact reclaim)
  rw [reclaims, Nat.max_eq_right (Nat.le_of_lt high)]

theorem exec_pstat (named : s.portNamed rs1 p) :
    exec (.pstat rd rs1) s = .next (s.wrote rd (((s.port p).ld.map PortLd.stat).getD 0)).retired :=
  M.leads.instr_eq (M.leads_bind (leads_portNum named) (M.leads_get_bind (M.leads_bind (leads_wx _ _ _) (M.leads_pure _ _))))

theorem exec_pget_seeding (readable : s.s2Readable o) (h1 : s.readable rs1) (seeding : s.seeding s.myTen = true) :
    exec (.pget rs1 o) s = .next s :=
  M.Quits.instr_eq (M.leads.quits (leads_s2Val readable) (((quits_portNum_seeding h1 seeding).bind _).bind _))

theorem exec_pstat_seeding (h1 : s.readable rs1) (seeding : s.seeding s.myTen = true) : exec (.pstat rd rs1) s = .next s :=
  M.Quits.instr_eq ((quits_portNum_seeding h1 seeding).bind _)

end

/-- Settles O28: one lemma above for each instruction and each condition. -/
theorem portWaits : Obligations.PortWaits := by
  unfold Obligations.PortWaits
  refine ⟨fun rd rs1 p k e q s slice fenced => ⟨fun fresh is_open => ⟨fun filled few => ?_, exec_pclose_empty slice fresh is_open⟩,
    fun w v waits on acted => ?_⟩, fun rd rs1 o p k e q s readable => ⟨fun slice => ⟨exec_pget readable slice, fun behind => ?_,
    fun behind => ?_, fun published fenced => ?_⟩, fun named => ?_, fun h1 seeding =>
      ⟨exec_pget_seeding readable h1 seeding, exec_pstat_seeding h1 seeding⟩⟩⟩
  · have closed := State.withLoaded_port s p { q with cl := nsInsert k q.cl }
    exact ⟨_, exec_pclose_closes slice fenced fresh is_open filled few, State.parkedOn_parkedActed _ _ _, congrArg Port.ld closed⟩
  · rw [← PortLd.closedAs_eq]
    exact ⟨fun behind => ⟨_, exec_pclose_waits slice waits on acted behind, State.parkedOn_parkedActed _ _ _, rfl⟩,
      exec_pclose_done slice waits on acted⟩
  · exact ⟨_, exec_pget_waits readable slice behind, State.parkedOn_parkedFor _ _, rfl⟩
  · rw [exec_prel_refused readable slice behind, portXval, Nat.mod_mod]
    rfl
  · exact ⟨exec_prel_idle readable slice published fenced, fun t done => exec_prel_reclaims readable slice published fenced⟩
  · constructor <;>
    · intro loaded
      rw [exec_pstat named, loaded]
      rfl

end Sys2Proof.Machine
end

section
/-!
SUPPORT. Deposits (R129, R255, R428).
-/

namespace Sys2Proof.Machine

open M

/-! ### Lists of accesses that change nothing -/

theorem leads_mapL_map {α β γ : Type} {f : β → M γ} {g : α → β} {h : α → γ} {s : State} :
    ∀ l : List α, (∀ x ∈ l, (f (g x)).leads s s (h x)) → (M.mapL f (l.map g)).leads s s (l.map h)
  | [], _ => fun _ _ => rfl
  | x :: l, each => M.leads_bind (each x (List.mem_cons_self ..))
      (M.leads_bind (leads_mapL_map l fun y hy => each y (List.mem_cons_of_mem _ hy)) (M.leads_pure _ s))

theorem leads_mapL {α β : Type} {f : α → M β} {h : α → β} {s : State} (l : List α) (each : ∀ x ∈ l, (f x).leads s s (h x)) :
    (M.mapL f l).leads s s (l.map h) := by
  have same := leads_mapL_map (g := id) l each
  rwa [List.map_id] at same

/-! ### Cells in local memory (R428) -/

section
variable {s : State} {n : Nat} {va : Nat → Word} {core off : Nat → Nat} {l : List Nat}

/-- A cell in local memory, whose words have no versions. -/
def localCell (va : Word) (core off : Nat) : Cell := (⟨va, .lm core off, 0, false⟩, some false)

/-- Nothing stands in the way of cells of the local memories. -/
abbrev State.cellsAt (s : State) (n : Nat) (va : Nat → Word) (core off : Nat → Nat) (l : List Nat) : Prop :=
  ∀ i ∈ l, (va i).toNat % 2 ^ 52 < 0x200000 ∧ s.localAt .load (va i) n (core i) (off i) ∧
    s.poisoned ((Space.lm (core i)).loc (off i)) n = false

theorem leads_cellAt {va : Word} {c o : Nat} (low : va.toNat % 2 ^ 52 < 0x200000) (at' : s.localAt .load va n c o) :
    (cellAt n va).leads s s ⟨va, .lm c o, 0, false⟩ := by
  unfold cellAt
  dsimp only
  rw [if_neg (by simp only [Bool.and_eq_true, decide_eq_true_eq]; omega)]
  exact leads_locate at'

theorem leads_localCells (b : By) (me t : Nat) (cells : s.cellsAt n va core off l) :
    (M.mapL (fun i => do
      let a ← cellAt n (va i)
      let v ← versionedAt b me t a n
      return (a, v)) l).leads s s (l.map fun i => localCell (va i) (core i) (off i)) := by
  refine leads_mapL l fun i hi => ?_
  obtain ⟨low, at', -⟩ := cells i hi
  exact M.leads_bind (leads_cellAt low at') (M.leads_bind (M.leads_get_bind (M.leads_pure _ s)) (M.leads_pure _ s))

theorem leads_readCells (cells : s.cellsAt n va core off l) :
    (readCells s.byMe n (l.map fun i => localCell (va i) (core i) (off i))).leads s s
      (l.map fun i => s.peek ((Space.lm (core i)).loc (off i)) n) := by
  have plain : ∀ i ∈ l, s.Plain s.byMe (localCell (va i) (core i) (off i)).1 0 := fun i hi => plain_local (cells i hi).2.1
  refine M.leads_bind (M.leads_each _ (List.forall_mem_map.2 fun i hi => leads_codeFail (plain i hi).code)) ?_
  refine M.leads_bind (leads_mapL_map (h := fun i => s.peek ((Space.lm (core i)).loc (off i)) n) l fun i hi => ?_) ?_
  · obtain ⟨-, at', clean⟩ := cells i hi
    have here : (localCell (va i) (core i) (off i)).1.local (core i) (off i) := ⟨rfl, rfl, rfl, not_inGlobal_of_window at'.2.1⟩
    show (loadPlain s.byMe failMe (localCell (va i) (core i) (off i)).1 n 0).leads s s _
    exact fun s0 k => run_loadPlain_local s0 s s.byMe n 0 here clean k
  refine M.leads_bind (M.leads_each _ (List.forall_mem_map.2 fun i _ => M.leads_pure () s)) ?_
  refine M.leads_bind (M.leads_each _ (List.forall_mem_map.2 fun i hi => leads_stashCheck (plain i hi).frame)) ?_
  refine M.leads_bind (M.leads_each _ (List.forall_mem_map.2 fun i _ => M.leads_pure () s)) ?_
  refine M.leads_bind (leads_mapL_map (h := fun i => (va i, ((none : Option Shadow), (pure () : M Unit)))) l fun i hi => ?_) ?_
  · exact M.leads_bind (fun s0 k => run_raceOf s0 s (plain i hi).race n false k) (M.leads_pure _ s)
  have calm : (l.map fun i => (va i, ((none : Option Shadow), (pure () : M Unit)))).find? (fun r => r.2.1.isSome) = none := by
    simp
  dsimp only
  rw [calm]
  exact M.leads_bind (M.leads_each _ (List.forall_mem_map.2 fun i _ => M.leads_pure () s)) (M.leads_pure _ s)

end

/-! ### The instruction -/

section
variable {rd rs1 : XReg} {o : S2} {p k e : Nat} {q : PortLd} {s : State}

/-- The value of an operand that is an FP64 number (R255). -/
def State.f64Operand (s : State) (o : S2) : Word := match o with | .reg r => s.x r | .con c => BitVec.ofNat 64 (kF64 c)

theorem leads_s2F64 (h : s.s2Readable o) : (s2F64 o).leads s s (s.f64Operand o) := by
  cases o with
  | reg r => exact leads_rx h
  | con c => exact M.leads_pure _ s

/-- The record after a deposit of a slice's cells (R129). -/
def PortLd.putAt (q : PortLd) (k e : Nat) (dt : Word) (xs : List Nat) : PortLd :=
  (deposit (f64 dt) (slFIRST e) (xs.map (stFmt q.img).val) q).addDt k (f64 dt)

/-- What the instruction does once its operands and its slice are known. -/
def putSlice (base dt : Word) (p k e : Nat) (q : PortLd) : M Fin :=
  if q.cl.contains k then park (.pput p)
  else do
    let n := stSize q.img
    aligned base n
    let b ← byMe
    readAhead
    let s ← get
    let core := coreOf b.id
    let cs ← mapL (fun i => do
      let a ← cellAt n (base + BitVec.ofNat 64 (n * i))
      let v ← versionedAt b core (s.tenOf core) a n
      return (a, v)) (List.range (slCOUNT e))
    let xs ← readCells b n cs
    updLd p fun q => (deposit (f64 dt) (slFIRST e) (xs.map (stFmt q.img).val) q).addDt k (f64 dt)
    return {}

theorem exec_pput_eq (slice : s.sliceOf rs1 p q 0 k e) (base : s.readable rd) (readable : s.s2Readable o)
    (fine : dtOk (s.f64Operand o) = true) : exec (.pput rd rs1 o) s = instr (putSlice (s.x rd) (s.f64Operand o) p k e q) s := by
  obtain ⟨named, loaded, -⟩ := id slice
  refine M.Becomes.instr_eq ((leads_s2F64 readable).becomes ((leads_rx base).becomes ((leads_portNum named).becomes ?_)))
  rw [if_pos fine]
  refine M.leads.becomes (a := (p, q)) (M.leads_get_bind ?_) ((leads_mySlice slice).becomes (.refl _ s))
  rw [loaded]
  exact M.leads_pure _ s

theorem exec_pput_waits (slice : s.sliceOf rs1 p q 0 k e) (base : s.readable rd) (readable : s.s2Readable o)
    (fine : dtOk (s.f64Operand o) = true) (closed : q.cl.contains k = true) :
    exec (.pput rd rs1 o) s = .next (s.parkedFor (.pput p)) := by
  obtain ⟨⟨-, -, -, -, tiles, -⟩, -⟩ := id slice
  rw [exec_pput_eq slice base readable fine, putSlice, if_pos closed]
  exact M.Quits.instr_eq (quits_park tiles ⟨by simp, by simp⟩ s)

theorem exec_pput (slice : s.sliceOf rs1 p q 0 k e) (base : s.readable rd) (readable : s.s2Readable o)
    (fine : dtOk (s.f64Operand o) = true) (is_open : q.cl.contains k = false) (straight : (s.x rd).toNat % stSize q.img = 0)
    {as : List Cell} {xs : List Nat} {s1 s2 : State}
    (cells : (M.mapL (fun i => do
      let a ← cellAt (stSize q.img) (s.x rd + BitVec.ofNat 64 (stSize q.img * i))
      let v ← versionedAt s.byMe (coreOf s.dev.cur) s.myTen a (stSize q.img)
      return (a, v)) (List.range (slCOUNT e))).leads s s1 as)
    (read : (readCells s.byMe (stSize q.img) as).leads s1 s2 xs) (kept : (s2.port p).ld = some q) :
    exec (.pput rd rs1 o) s = .next (s2.withLoaded p (q.putAt k e (s.f64Operand o) xs)).retired := by
  obtain ⟨⟨-, -, -, -, tiles, -⟩, -⟩ := id slice
  rw [exec_pput_eq slice base readable fine, putSlice, is_open, if_neg (by decide)]
  exact M.leads.instr_eq (M.leads_bind (leads_aligned straight) (M.leads_bind (leads_byMe s) (M.leads_bind (leads_readAhead tiles)
    (M.leads_get_bind (M.leads_bind cells (M.leads_bind read (M.leads_bind (leads_updLd kept _) (M.leads_pure _ _))))))))

end

/-- Settles O27: a deposit into an open slice, of cells that are read, and a deposit that waits. -/
theorem portPut : Obligations.PortPut := by
  unfold Obligations.PortPut
  intro rd rs1 o p k e q s slice base readable dt n va put fine
  obtain ⟨-, loaded, -⟩ := id slice
  refine ⟨fun closed => ?_, fun core off is_open straight cells => ?_, fun as xs s1 s2 is_open straight find read kept => ?_⟩
  · exact ⟨_, exec_pput_waits slice base readable fine closed, s.parkedOn_parkedFor _, rfl⟩
  · have cells : s.cellsAt n va core off (List.range (slCOUNT e)) := fun i hi => cells i (List.mem_range.1 hi)
    refine ⟨_, exec_pput slice base readable fine is_open straight (leads_localCells s.byMe _ s.myTen cells) (leads_readCells cells) loaded,
      ?_, State.retired_mem .., State.withLoaded_port ..⟩
    exact (congrArg Ctx.run (State.retired_me ..)).trans (Ctx.retire_run ..)
  · exact exec_pput slice base readable fine is_open straight find read (kept ▸ loaded)

end Sys2Proof.Machine
end

section
/-!
SUPPORT. The load of a port (R123 to R127, R131, R254, R402).
-/

namespace Sys2Proof.Machine

open M

/-- A port's record as it is loaded: no version is published, and every cell and time is zero (R123). -/
def PortLd.fresh (v pn : Nat) (tb : PTables) : PortLd :=
  { image := BitVec.ofNat 1024 v, pnode := pn, sl := tb.sl.map (BitVec.ofNat 64), nextv := 0, rel := 0, acc := [], accPois := [],
    dt := [], cl := [], rl := [], pflags := 0, seeded := false, asked := none, owes := false }

/-- Two halves of a word of twice as many bits. -/
theorem halves_lt {lo hi n : Nat} (hl : lo < 2 ^ n) (hh : hi < 2 ^ n) : lo + hi * 2 ^ n < 2 ^ (n + n) :=
  calc lo + hi * 2 ^ n < 2 ^ n + hi * 2 ^ n := Nat.add_lt_add_right hl _
    _ = (hi + 1) * 2 ^ n := by rw [Nat.add_mul, Nat.one_mul, Nat.add_comm]
    _ ≤ 2 ^ n * 2 ^ n := Nat.mul_le_mul_right _ hh
    _ = 2 ^ (n + n) := (Nat.pow_add ..).symm

/-- A part that stands under a condition that does not hold is passed by. -/
theorem becomes_pass {α : Type} {c : Prop} [Decidable c] {m : M Unit} {f : Unit → M α} {n : M α} {s t : State} (h : ¬c)
    (k : (f ()).Becomes s n t) : (if c then m >>= f else f () : M α).Becomes s n t := by rwa [if_neg h]

/-- What the instruction does once the record has been read and its own fields are in order. -/
def State.loadPort (s : State) (p v : Nat) : M Fin :=
  match (s.port p).ld with
  | some q => if q.img = v then return {} else portFault p 0x0C 0
  | none => do
    let tb ← readTables ctxRead (fun r i => portFault p r i) v
    checkAreas ctxRead (fun r i => portFault p r i) v tb
    checkBuffer (ctxLeaf .store) (fun r i => portFault p r i) v
    seedLeaves v
    let used := (s.ports.filterMap fun e => if e.1 / 256 = p / 256 then e.2.ld.map fun q => pNEED q.img else none).sum
    if Config.accStoreBytes < used + pNEED v then portFault p 0x0B (pNEED v / 1024) else pure ()
    upd (.port p fun q => { q with ld := some (PortLd.fresh v s.myPart tb) })
    return {}

section
variable {rs1 : XReg} {p lo hi : Nat} {s s2 : State}

/-- The fields of a record that need no other word (R124, R402): its layout, the tenant and the partitions that it names, and its sizes. -/
structure State.goodRecord (s : State) (v : Nat) : Prop where
  magic : v / 2 ^ 48 % 2 ^ 16 = 0x6C3E
  reserved : pRes v = 0
  sender : pSTYPE v ≠ 3
  receiver : pRTYPE v ≠ 3
  weights : pWTAB v % 32 = 0
  slices : pSLTAB v % 8 = 0
  buffer : pRBUF v % 8 = 0
  seed : pSEEDP v % 8 = 0
  tenant : pTEN v = s.myTen
  source : ∃ x, s.part? (pSPNODE v) = some x ∧ x.ten = some s.myTen
  sink : ∃ x, s.part? (pRPNODE v) = some x ∧ x.ten = some s.myTen
  mine : s.myPart = pSPNODE v ∨ s.myPart = pRPNODE v
  senders : 0 < pNS v ∧ pNS v ≤ 2 ^ 20
  receivers : 0 < pNR v ∧ pNR v ≤ 2 ^ 20

/-- Whether a partition is the executing tenant's. -/
def State.ours (s : State) (n : Nat) : Bool := match s.part? n with | some x => x.ten == some s.myTen | none => false

theorem State.ours_of {n : Nat} (h : ∃ x, s.part? n = some x ∧ x.ten = some s.myTen) : s.ours n = true := by
  obtain ⟨x, hx, ten⟩ := h
  unfold State.ours
  rw [hx]
  exact beq_iff_eq.2 ten

namespace State.goodRecord

variable {v : Nat} (good : s.goodRecord v)
include good

theorem layout : ¬(bitsOf v 48 16 ≠ 0x6C3E || pRes v ≠ 0 || pSTYPE v = 3 || pRTYPE v = 3 || pWTAB v % 32 ≠ 0 || pSLTAB v % 8 ≠ 0 ||
    pRBUF v % 8 ≠ 0 || pSEEDP v % 8 ≠ 0) = true := by
  have magic : bitsOf v 48 16 = 0x6C3E := good.magic
  simp [magic, good.reserved, good.sender, good.receiver, good.weights, good.slices, good.buffer, good.seed]

theorem named : ¬(pTEN v ≠ s.myTen || !s.ours (pSPNODE v) || !s.ours (pRPNODE v) ||
    (s.myPart ≠ pSPNODE v && s.myPart ≠ pRPNODE v)) = true := by
  rcases good.mine with mine | mine <;>
    simp [good.tenant, State.ours_of good.source, State.ours_of good.sink, mine]

theorem sized : ¬(pNS v = 0 || 2 ^ 20 < pNS v || pNR v = 0 || 2 ^ 20 < pNR v) = true := by
  obtain ⟨s0, s1⟩ := good.senders
  obtain ⟨r0, r1⟩ := good.receivers
  simp only [Bool.or_eq_true, decide_eq_true_eq, not_or]
  omega

end State.goodRecord

theorem pload_becomes (named : s.portNamed rs1 p) (fenced : s.fenced) (base : s.myCore.cpois.contains cPORTBASE = false) {s1 : State}
    (low : (ctxRead (s.myCore.csrGet cPORTBASE + BitVec.ofNat 64 (128 * p)).toNat 64).leads s s1 lo)
    (high : (ctxRead ((s.myCore.csrGet cPORTBASE + BitVec.ofNat 64 (128 * p)).toNat + 64) 64).leads s1 s2 hi)
    (good : s.goodRecord (lo + hi * 2 ^ 512)) :
    ∃ m : M Fin, execPload rs1 = instr m ∧ m.Becomes s (s.loadPort p (lo + hi * 2 ^ 512)) s2 := by
  generalize hv : lo + hi * 2 ^ 512 = v at *
  have bad : s.csrBad s.dev.cur cPORTBASE = false := base
  refine ⟨_, rfl, (leads_portNum named).becomes (M.leads.becomes (fun s0 k => run_useCsr s0 s bad k) ((leads_fenceAll fenced).becomes
    ((M.leads_get s).becomes (low.becomes (high.becomes ?_)))))⟩
  dsimp only
  rw [hv]
  exact becomes_pass good.layout (becomes_pass good.named (becomes_pass good.sized (.refl _ s2)))

theorem leads_loadPort_loaded {q : PortLd} (loaded : (s.port p).ld = some q) : (s.loadPort p q.img).leads s2 s2 {} := by
  rw [State.loadPort, loaded]
  dsimp only
  rw [if_pos rfl]
  exact M.leads_pure _ s2

theorem quits_loadPort_other {q : PortLd} {v : Nat} (loaded : (s.port p).ld = some q) (other : q.img ≠ v) (tiles : s2.noTiles) :
    (s.loadPort p v).Quits s s2 (s.took { code := PORT, val := portXval p 0x0C 0 }) := by
  rw [State.loadPort, loaded]
  dsimp only
  rw [if_neg other]
  exact quits_raise_at tiles _ _ s

theorem leads_loadPort {v : Nat} {tb : PTables} {s3 s4 s5 s6 : State} (free : (s.port p).ld = none)
    (tables : (readTables ctxRead (fun r i => portFault p r i) v).leads s2 s3 tb)
    (areas : (checkAreas ctxRead (fun r i => portFault p r i) v tb).leads s3 s4 ())
    (buffer : (checkBuffer (ctxLeaf .store) (fun r i => portFault p r i) v).leads s4 s5 ()) (seed : (seedLeaves v).leads s5 s6 ())
    (room : (s.ports.filterMap fun e => if e.1 / 256 = p / 256 then e.2.ld.map fun q => pNEED q.img else none).sum + pNEED v
      ≤ 8 * 1024 * 1024) : (s.loadPort p v).leads s2 (s6.withLoaded p (PortLd.fresh v s.myPart tb)) {} := by
  rw [State.loadPort, free]
  refine M.leads_bind tables (M.leads_bind areas (M.leads_bind buffer (M.leads_bind seed ?_)))
  dsimp only
  exact (becomes_pass (Nat.not_lt.2 room) (.refl _ s6)).leads (M.leads_upd_bind (M.leads_pure _ _))

end

/-- Settles O26: the record in order, the port is loaded, stays as it is, or refuses another record. -/
theorem portLoad : Obligations.PortLoad := by
  unfold Obligations.PortLoad
  intro rs1 p lo hi tb s s1 s2 s3 s4 s5 s6 named fenced base a v mine low high hlo hhi magic reserved sender receiver weights slices buffer
    seed tenant source sink own ns0 ns nr0 nr
  have good : s.goodRecord v := ⟨magic, reserved, sender, receiver, weights, slices, buffer, seed, tenant, source, sink, own, ⟨ns0, ns⟩,
    ⟨nr0, nr⟩⟩
  obtain ⟨m, exec_eq, loads⟩ := pload_becomes named fenced base low high good
  have exec_eq : exec (.pload rs1) s = instr m s := congrFun exec_eq s
  rw [exec_eq]
  refine ⟨fun q loaded same => ?_, fun q loaded other tiles => ?_, fun free tables areas buffers seeds room => ?_⟩
  · exact M.leads.instr_eq (loads.leads (by
      rw [show lo + hi * 2 ^ 512 = q.img from same.symm]
      exact leads_loadPort_loaded loaded))
  · rw [M.Quits.instr_eq (loads.quits (quits_loadPort_other loaded other tiles)), portXval, Nat.zero_mod, Nat.zero_mul, Nat.zero_add]
    rfl
  · refine ⟨_, M.leads.instr_eq (loads.leads (leads_loadPort free tables areas buffers seeds room)), ?_, rfl, ?_, rfl, rfl, rfl, rfl, rfl, rfl, rfl,
      rfl, rfl⟩
    · exact (BitVec.toNat_ofNat ..).trans (Nat.mod_eq_of_lt (halves_lt hlo hhi))
    · exact List.map_map.trans (List.map_congr_left fun x _ => BitVec.toNat_ofNat x 64)

end Sys2Proof.Machine
end

section
/-!
SUPPORT. Accesses to a future table whose lines no cache holds (R33, R34, R248).
-/

namespace Sys2Proof.Machine

open M

theorem judge_ok {k : AKind} {user : Bool} {l l' : Word} (h : judge k user l = .ok l') : l' = l := by
  unfold judge at h
  split at h
  · cases h
  · split at h
    · cases h
    · exact (XRes.ok.inj h).symm

/-- A range inside one line touches that line alone. -/
theorem linesOf_one {loc n : Nat} (some' : 0 < n) (inside : loc % 64 + n ≤ 64) : linesOf loc n = [loc / 64] := by
  have last : (loc + n - 1) / 64 = loc / 64 := by omega
  unfold linesOf
  rw [last, Nat.sub_self]
  simp

/-! ### Only records have changed -/

/-- Only memory, marks, partitions, deques and the free index have changed. -/
def State.OnlyRecords (s t : State) : Prop :=
  (∃ mem pois parts cores ix, t = { s with mem := mem, pois := pois, parts := parts, cores := cores, dev := { s.dev with freeIx := ix } }) ∧
    ∀ c, ∃ l, t.core c = { s.core c with deque := l }

namespace State.OnlyRecords

variable {s t u : State}

theorem refl (s : State) : s.OnlyRecords s := ⟨⟨s.mem, s.pois, s.parts, s.cores, s.dev.freeIx, rfl⟩, fun c => ⟨(s.core c).deque, rfl⟩⟩

theorem trans (h : s.OnlyRecords t) (k : t.OnlyRecords u) : s.OnlyRecords u := by
  obtain ⟨⟨_, _, _, _, _, rfl⟩, hc⟩ := h
  obtain ⟨⟨m, p, q, c, i, rfl⟩, kc⟩ := k
  refine ⟨⟨m, p, q, c, i, rfl⟩, fun c => ?_⟩
  obtain ⟨l, hl⟩ := hc c
  obtain ⟨l', kl⟩ := kc c
  exact ⟨l', by rw [kl, hl]⟩

theorem poke (s : State) (a : Nat) (bs : List Byte) : s.OnlyRecords ((Upd.poke a bs).apply s) :=
  ⟨⟨_, _, s.parts, s.cores, s.dev.freeIx, rfl⟩, fun c => ⟨(s.core c).deque, rfl⟩⟩

theorem setPart (s : State) (p : Nat) (f : Part → Part) : s.OnlyRecords (s.setPart p f) :=
  ⟨⟨s.mem, s.pois, _, s.cores, s.dev.freeIx, rfl⟩, fun c => ⟨(s.core c).deque, rfl⟩⟩

theorem tookSlot (s : State) (p j : Nat) : s.OnlyRecords (s.tookSlot p j) :=
  ⟨⟨s.mem, s.pois, _, s.cores, _, rfl⟩, fun c => ⟨(s.core c).deque, rfl⟩⟩

theorem withQueued (s : State) (c p j r : Nat) : s.OnlyRecords (s.withQueued c p j r) :=
  ⟨⟨s.mem, s.pois, s.parts, _, s.dev.freeIx, rfl⟩, s.core_withQueued c p j r⟩

variable (h : s.OnlyRecords t)
include h

theorem pmap (c : Nat) : (t.core c).pmap = (s.core c).pmap := by
  obtain ⟨l, e⟩ := h.2 c
  rw [e]

theorem servedBy {core ten p va loc : Nat} (served : s.servedBy core ten p va loc) : t.servedBy core ten p va loc := by
  have maps := h.pmap core
  obtain ⟨⟨_, _, _, _, _, rfl⟩, -⟩ := h
  unfold State.servedBy
  rw [maps]
  exact served

theorem tableBy {core ten p va loc : Nat} (served : s.tableBy core ten p va loc) : t.tableBy core ten p va loc :=
  ⟨h.servedBy served.1, served.2⟩

theorem dequeOf (p r : Nat) : t.dequeOf p r = s.dequeOf p r := by
  refine dequeOf_congr ?_ h.pmap p r
  obtain ⟨⟨_, _, _, _, _, rfl⟩, -⟩ := h
  rfl

end State.OnlyRecords

/-! ### Words of the table -/

section
variable {tb : Tab} {va loc n i : Nat} {e : FEnt} {s : State}

theorem leads_tabLoc (served : s.servedBy tb.core tb.t tb.p va loc) : (tabLoc tb va).leads s s loc := by
  obtain ⟨low, noCal, -, te, l, cached, allowed, kept, route⟩ := served
  obtain rfl := judge_ok allowed
  have stay : (keepLeaf tb.core tb.t tb.p va te.leaf).leads s s () := by
    refine M.leads_get_bind ?_
    dsimp only
    rw [if_pos kept]
    exact M.leads_pure () s
  have loc' := tabLoc_at low noCal (stage1_cached cached allowed) route (leads_readyWalk cached allowed)
  rwa [stay.ran_eq] at loc'

theorem lines_free (served : s.servedBy tb.core tb.t tb.p va loc) (some' : 0 < n) (inside : loc % 64 + n ≤ 64) :
    ∀ k ∈ linesOf loc n, s.holders k = [] := by
  obtain ⟨-, -, free, -⟩ := served
  rw [linesOf_one some' inside]
  exact fun k hk => List.mem_singleton.1 hk ▸ free

theorem leads_tabPeek (served : s.servedBy tb.core tb.t tb.p va loc) (some' : 0 < n) (inside : loc % 64 + n ≤ 64) (low : loc < 2 ^ 60) :
    (tabPeek tb va n).leads s s (s.peek loc n, s.poisoned loc n) :=
  tabPeek_at (leads_tabLoc served) low (lines_free served some' inside) rfl

theorem leads_tabPoke (served : s.servedBy tb.core tb.t tb.p va loc) {bs : List Byte} (some' : 0 < bs.length)
    (inside : loc % 64 + bs.length ≤ 64) (low : loc < 2 ^ 60) : (tabPoke tb va bs).leads s ((Upd.poke loc bs).apply s) () :=
  tabPoke_at (leads_tabLoc served) low (lines_free served some' inside)

/-- 32 bytes of the table that lie in one line. -/
theorem leads_tabPeek32 (served : s.tableBy tb.core tb.t tb.p va loc) : (tabPeek tb va 32).leads s s (s.peek loc 32, s.poisoned loc 32) := by
  obtain ⟨served, align, low⟩ := served
  exact leads_tabPeek served (by omega) (by omega) (by omega)

theorem leads_tabPoke32 (served : s.tableBy tb.core tb.t tb.p va loc) {bs : List Byte} (len : bs.length = 32) :
    (tabPoke tb va bs).leads s ((Upd.poke loc bs).apply s) () := by
  obtain ⟨served, align, low⟩ := served
  exact leads_tabPoke served (by omega) (by omega) (by omega)

theorem FEnt.bytes_length (e : FEnt) : e.bytes.length = 32 := leBytes_length ..

theorem leads_readEntry (served : s.tableBy tb.core tb.t tb.p (tb.entryVA i) loc) (clean : s.poisoned loc 32 = false) :
    (readEntry tb i).leads s s (FEnt.of (s.peek loc 32)) := by
  refine M.leads_bind (leads_tabPeek32 served) ?_
  dsimp only
  rw [clean, Bool.false_and, if_neg (by decide)]
  exact M.leads_pure _ s

theorem leads_writeEntry (served : s.tableBy tb.core tb.t tb.p (tb.entryVA i) loc) (e : FEnt) :
    (writeEntry tb i e).leads s ((Upd.poke loc e.bytes).apply s) () := leads_tabPoke32 served e.bytes_length

end

/-! ### Bytes written and read again -/

theorem State.byte_poke_ne (s : State) {loc a : Nat} {bs : List Byte} (h : a < loc ∨ loc + bs.length ≤ a) :
    ((Upd.poke loc bs).apply s).byte a = s.byte a := Memory.read_writes_ne _ _ _ h

theorem State.peek_poke_ne (s : State) {loc b n : Nat} {bs : List Byte} (h : b + n ≤ loc ∨ loc + bs.length ≤ b) :
    ((Upd.poke loc bs).apply s).peek b n = s.peek b n := congrArg leNat (Memory.reads_writes_ne _ _ _ h)

theorem State.peek_poke_self (s : State) (loc n v : Nat) : ((Upd.poke loc (leBytes n v)).apply s).peek loc n = v % 256 ^ n := by
  have same := Memory.reads_writes s.mem loc (leBytes n v)
  rw [leBytes_length] at same
  exact (congrArg leNat same).trans (leNat_leBytes n v)

theorem State.peek_congr {s t : State} (h : t.mem = s.mem) (a n : Nat) : t.peek a n = s.peek a n := congrArg (fun m => leNat (Memory.reads m a n)) h

theorem State.byte_congr {s t : State} (h : t.mem = s.mem) (a : Nat) : t.byte a = s.byte a := congrArg (Memory.read · a) h

/-- The fields of an entry are in their ranges (R34). -/
structure FEnt.Fits (e : FEnt) : Prop where
  st : e.st < 4
  gen : e.gen < 4096
  head : e.head < 2 ^ 64
  tail : e.tail < 2 ^ 64

theorem FEnt.fits_of (v : Nat) : (FEnt.of v).Fits :=
  ⟨Nat.mod_lt _ (by decide), Nat.mod_lt _ (by decide), Nat.mod_lt _ (by decide), Nat.mod_lt _ (by decide)⟩

/-- An entry is read as it was written (R34). -/
theorem State.entry_poke (s : State) (loc : Nat) {e : FEnt} (h : e.Fits) : FEnt.of (((Upd.poke loc e.bytes).apply s).peek loc 32) = e := by
  obtain ⟨val, st, gen, head, tail⟩ := e
  obtain ⟨hst, hgen, hhead, htail⟩ := h
  dsimp only at hst hgen hhead htail
  have hval := val.isLt
  rw [FEnt.bytes, State.peek_poke_self]
  dsimp only
  generalize hw : val.toNat = w at *
  have small : (w + st * 2 ^ 64 + gen * 2 ^ 80 + head * 2 ^ 128 + tail * 2 ^ 192) % 256 ^ 32 =
      w + st * 2 ^ 64 + gen * 2 ^ 80 + head * 2 ^ 128 + tail * 2 ^ 192 := Nat.mod_eq_of_lt (by norm_num; omega)
  rw [small, FEnt.of]
  simp only [bitsOf, FEnt.mk.injEq]
  refine ⟨?_, by omega, by omega, by omega, by omega⟩
  refine BitVec.eq_of_toNat_eq ?_
  rw [BitVec.toNat_ofNat, hw]
  omega

end Sys2Proof.Machine
end

section
/-!
SUPPORT. Records that become ready, and the futures that release them (R32, R35, R145, R248 to R252, R363).
-/

namespace Sys2Proof.Machine

open M

/-! ### A record that becomes ready (R32, R46, R140, R145) -/

/-- A record more is HELD, and the superstep armed (R46). -/
def Part.holding (j : Nat) (q : Part) : Part := { q with held := q.held ++ [j], armed := true }

/-- The state in which a ready record is HELD, or QUEUED on the deque that it goes to. -/
def State.readied (s : State) (p j r : Nat) : State :=
  if rcNext r || (s.part p).st == .saved then s.setPart p (Part.holding j)
  else s.withQueued (s.dequeOf p r) p j r

theorem leads_readyRec {tb : Tab} {j r : Nat} {s : State} (placed : rcVent r = false ∨ rcNext r = true ∨ (s.part tb.p).st = .saved) :
    (readyRec tb j r).leads s (s.readied tb.p j r) () := by
  refine M.leads_get_bind ?_
  unfold State.readied
  dsimp only
  by_cases held : (rcNext r || (s.part tb.p).st == .saved) = true
  · rw [if_pos held, if_pos held]
    exact M.leads_upd _ s
  · rw [if_neg held, if_neg held]
    have plain : rcVent r = false := by
      rcases placed with plain | next | saved
      · exact plain
      · exact absurd (by rw [next, Bool.true_or]) held
      · exact absurd (by rw [saved, beq_self_eq_true, Bool.or_true]) held
    refine M.leads_get_bind ?_
    rw [plain, if_neg (by decide)]
    exact M.leads_upd _ s

/-- Records of a partition have become ready: those with NEXT, or all in a SAVED partition, are HELD, the others QUEUED, in their order. -/
structure State.Readied (s t : State) (p : Nat) (r : Nat → Nat) (js : List Nat) : Prop where
  only : s.OnlyRecords t
  mem : t.mem = s.mem
  known : (t.part? p).isSome = (s.part? p).isSome
  st : (t.part p).st = (s.part p).st
  pool : (t.part p).pool = (s.part p).pool
  held : (t.part p).held = (s.part p).held ++ js.filter fun j => rcNext (r j) || (s.part p).st == .saved
  deques : ∀ c, (t.core c).deque.map (fun x => x.slot) = (s.core c).deque.map (fun x => x.slot) ++
    js.filter fun j => !(rcNext (r j) || (s.part p).st == .saved) && s.dequeOf p (r j) == c

section
variable {s t u : State} {p : Nat} {r : Nat → Nat} {js ks : List Nat}

theorem State.Readied.refl (s : State) (p : Nat) (r : Nat → Nat) : s.Readied s p r [] :=
  ⟨.refl s, rfl, rfl, rfl, rfl, (List.append_nil _).symm, fun _ => (List.append_nil _).symm⟩

theorem State.Readied.trans (h : s.Readied t p r js) (k : t.Readied u p r ks) : s.Readied u p r (js ++ ks) := by
  refine ⟨h.only.trans k.only, k.mem.trans h.mem, k.known.trans h.known, k.st.trans h.st, k.pool.trans h.pool, ?_, fun c => ?_⟩
  · rw [k.held, h.held, h.st, List.filter_append, List.append_assoc]
  · simp only [k.deques, h.deques, h.st, h.only.dequeOf, List.filter_append, List.append_assoc]

theorem State.readied_step (known : (s.part? p).isSome = true) (r : Nat → Nat) (j : Nat) : s.Readied (s.readied p j (r j)) p r [j] := by
  unfold State.readied
  by_cases held : (rcNext (r j) || (s.part p).st == .saved) = true
  · rw [if_pos held]
    have part : (s.setPart p (Part.holding j)).part p = (s.part p).holding j := State.part_setPart_self known _
    refine ⟨.setPart s p _, rfl, State.partOpt_setPart_isSome .., by rw [part, Part.holding], by rw [part, Part.holding], ?_, fun c => ?_⟩
    · simp only [part, Part.holding, List.filter_cons, held, List.filter_nil, if_true]
    · simp only [List.filter_cons, held, List.filter_nil, Bool.not_true, Bool.false_and, Bool.false_eq_true, if_false, List.append_nil]
      rfl
  · rw [if_neg held]
    refine ⟨.withQueued s _ p j _, rfl, rfl, rfl, rfl, ?_, fun c => ?_⟩
    · simp only [List.filter_cons, held, List.filter_nil, Bool.false_eq_true, if_false, List.append_nil]
      rfl
    · rw [Bool.not_eq_true] at held
      by_cases same : c = s.dequeOf p (r j)
      · subst same
        simp only [List.filter_cons, held, Bool.not_false, Bool.true_and, beq_self_eq_true, if_true, List.filter_nil]
        simp [State.withQueued, Core.queued]
      · simp [State.withQueued, State.core_setCore_ne _ _ same, Ne.symm same]

end

/-! ### The waiters of a future that has become FULL (R35, R250) -/

section
variable {tb : Tab} {at' : Nat → Nat} {i j : Nat} {s t : State}

/-- A slot of the pool lies in two pieces of the table. -/
abbrev State.slotBy (s : State) (tb : Tab) (at' : Nat → Nat) (j : Nat) : Prop :=
  s.tableBy tb.core tb.t tb.p (tb.slotVA j) (at' (2 * j)) ∧ s.tableBy tb.core tb.t tb.p (tb.slotVA j + 32) (at' (2 * j + 1))

theorem leads_readSlot (slot : s.slotBy tb at' j) : ∃ b, (readSlot tb j).leads s s (s.slotRecord at' j, b) := by
  refine ⟨s.poisoned (at' (2 * j)) 32 || s.poisoned (at' (2 * j + 1)) 32, ?_⟩
  have read := readSlot_at (leads_tabPeek32 slot.1) (leads_tabPeek32 slot.2)
  dsimp only at read
  rw [State.slotRecord]
  exact read

theorem State.OnlyRecords.slotBy (h : s.OnlyRecords t) (slot : s.slotBy tb at' j) : t.slotBy tb at' j :=
  ⟨h.tableBy slot.1, h.tableBy slot.2⟩

theorem State.slotRecord_congr (h : t.mem = s.mem) (at' : Nat → Nat) (j : Nat) : t.slotRecord at' j = s.slotRecord at' j := by
  unfold State.slotRecord
  rw [State.peek_congr h, State.peek_congr h]

/-- A released record whose other wait names no future becomes ready. -/
theorem leads_release (slot : s.slotBy tb at' j)
    (placed : rcVent (s.slotRecord at' j) = false ∨ rcNext (s.slotRecord at' j) = true ∨ (s.part tb.p).st = .saved)
    (last : hIndex (rcWait (s.slotRecord at' j) 0) ≠ i ∨ hIndex (rcWait (s.slotRecord at' j) 1) = 0) :
    (do
      let (r, _) ← readSlot tb j
      if hIndex (rcWait r 0) = i then waitSecond tb j r else readyRec tb j r : M Unit).leads s
      (s.readied tb.p j (s.slotRecord at' j)) () := by
  obtain ⟨b, read⟩ := leads_readSlot slot
  refine M.leads_bind read ?_
  dsimp only
  by_cases first : hIndex (rcWait (s.slotRecord at' j) 0) = i
  · rw [if_pos first, waitSecond, if_pos (last.resolve_left (not_not_intro first))]
    exact leads_readyRec placed
  · rw [if_neg first]
    exact leads_readyRec placed

end

theorem leads_releaseAll {tb : Tab} {at' : Nat → Nat} {i : Nat} : ∀ (js : List Nat) {s : State}, (s.part? tb.p).isSome = true →
    (∀ j ∈ js, s.slotBy tb at' j ∧
      (rcVent (s.slotRecord at' j) = false ∨ rcNext (s.slotRecord at' j) = true ∨ (s.part tb.p).st = .saved) ∧
      (hIndex (rcWait (s.slotRecord at' j) 0) ≠ i ∨ hIndex (rcWait (s.slotRecord at' j) 1) = 0)) →
    ∃ t, (each (fun j => do
      let (r, _) ← readSlot tb j
      if hIndex (rcWait r 0) = i then waitSecond tb j r else readyRec tb j r) js).leads s t () ∧
      s.Readied t tb.p (s.slotRecord at') js
  | [], s, _, _ => ⟨s, M.leads_pure () s, .refl ..⟩
  | j :: js, s, known, h => by
    obtain ⟨slot, placed, last⟩ := h j List.mem_cons_self
    have step := State.readied_step known (s.slotRecord at') j
    have records : (s.readied tb.p j (s.slotRecord at' j)).slotRecord at' = s.slotRecord at' :=
      funext fun k => State.slotRecord_congr step.mem at' k
    obtain ⟨t, rest, released⟩ := leads_releaseAll js (step.known.trans known) fun k hk => by
      obtain ⟨slot, placed, last⟩ := h k (List.mem_cons_of_mem _ hk)
      rw [records, step.st]
      exact ⟨step.only.slotBy slot, placed, last⟩
    rw [records] at released
    exact ⟨t, M.leads_bind (leads_release slot placed last) rest, step.trans released⟩

end Sys2Proof.Machine
end

section
/-!
SUPPORT. The future instructions (R248 to R252, R363).
-/

namespace Sys2Proof.Machine

open M

/-! ### The table and the handle of an instruction (R33, R248, R436) -/

/-- The table of the executing core. -/
def State.tab (s : State) : Tab := ⟨.ctx s.dev.cur, coreOf s.dev.cur, s.myTen, s.myPart, s.futBase, s.futLog, true⟩

theorem leads_drainVec {s : State} (h : s.vecDone) : drainVec.leads s s () := fun s0 k => run_drainVec s0 s h k

theorem leads_myTab {s : State} (known : s.tableKnown) : myTab.leads s s s.tab := by
  refine M.leads_get_bind (leads_unless (M.leads_pure _ s) (m := useCsr cFUTBASE) ?_)
  by_cases vent : isVent (coreOf s.dev.cur) = true
  · rw [if_pos vent]
    exact M.leads_pure () s
  · rw [if_neg vent]
    have clean : s.csrBad s.dev.cur cFUTBASE = false := known (Bool.eq_false_iff.2 vent)
    exact fun s0 k => run_useCsr s0 s clean k

section
variable {rd rs1 : XReg} {o : S2} {i gen loc : Nat} {e : FEnt} {s : State}

/-- The handle that an instruction names. -/
def State.handle (s : State) (rs1 : XReg) : Nat := (s.x rs1).toNat % 2 ^ 32

theorem index_of_handle (h : s.handleOf rs1 i gen loc e) : hIndex (s.handle rs1) = i ∧ hGen (s.handle rs1) = gen := by
  obtain ⟨-, -, -, -, -, few, gens, named, -⟩ := h
  unfold State.handle hIndex hGen
  rw [named]
  omega

theorem becomes_handleEntry (h : s.handleOf rs1 i gen loc e) :
    (handleEntry rs1).Becomes s (if e.gen ≠ gen || e.st = 0 then raise FUTURE_STALE (BitVec.ofNat 64 (s.handle rs1))
      else return (s.tab, s.handle rs1, e)) s := by
  obtain ⟨index, gens⟩ := index_of_handle h
  obtain ⟨h1, tiles, known, pos, few, -, -, -, served, clean, rfl⟩ := h
  refine (leads_rx h1).becomes ((leads_flushWindow tiles).becomes ((M.leads_get s).becomes ?_))
  have inside : ¬(hIndex (s.handle rs1) = 0 || 2 ^ (s.part (s.pnodeOf (coreOf s.dev.cur))).futlog ≤ hIndex (s.handle rs1)) = true := by
    have few : hIndex (s.handle rs1) < 2 ^ (s.part (s.pnodeOf (coreOf s.dev.cur))).futlog := index.symm ▸ few
    simp only [Bool.or_eq_true, decide_eq_true_eq, not_or]
    omega
  rw [State.handle] at inside index gens
  rw [if_neg inside, index, gens]
  exact (leads_myTab known).becomes ((leads_readEntry (tb := s.tab) served clean).becomes (.refl _ s))

theorem leads_handleEntry (h : s.handleAt rs1 i loc e) (alive : e.st ≠ 0) : (handleEntry rs1).leads s s (s.tab, s.handle rs1, e) := by
  refine (becomes_handleEntry h).leads ?_
  rw [if_neg (by simpa using alive)]
  exact M.leads_pure _ s

theorem quits_handleEntry_stale (h : s.handleOf rs1 i gen loc e) (stale : e.st = 0 ∨ e.gen ≠ gen) :
    (handleEntry rs1).Quits s s (s.took { code := FUTURE_STALE, val := BitVec.ofNat 64 (s.handle rs1) }) := by
  obtain ⟨-, tiles, -⟩ := id h
  refine (becomes_handleEntry h).quits ?_
  rw [if_pos (by simpa [or_comm] using stale)]
  exact quits_raise tiles _ _

theorem quits_handleEntry_beyond (h1 : s.readable rs1) (tiles : s.noTiles)
    (beyond : s.handle rs1 % 2 ^ 20 = 0 ∨ 2 ^ s.futLog ≤ s.handle rs1 % 2 ^ 20) :
    (handleEntry rs1).Quits s s (s.took { code := ILLEGAL_OPERAND, val := BitVec.ofNat 64 (s.handle rs1) }) := by
  refine M.leads.quits (leads_rx h1) (M.leads.quits (leads_flushWindow tiles) (M.leads.quits (M.leads_get s) ?_))
  have outside : (hIndex (s.handle rs1) = 0 || 2 ^ (s.part (s.pnodeOf (coreOf s.dev.cur))).futlog ≤ hIndex (s.handle rs1)) = true := by
    rw [Bool.or_eq_true, decide_eq_true_eq, decide_eq_true_eq]
    exact beyond
  rw [State.handle] at outside
  rw [if_pos outside]
  exact quits_raise tiles _ _

/-- An instruction that begins with its handle takes the cause that the handle gives. -/
theorem quits_futures {t : State} (h : (handleEntry rs1).Quits s s t) : exec (.futGet rd rs1) s = .next t ∧ exec (.futChk rd rs1) s = .next t ∧
    exec (.futFree rs1) s = .next t ∧ (s.s2Readable o → exec (.futSet rs1 o) s = .next t) :=
  ⟨M.Quits.instr_eq (h.bind _), M.Quits.instr_eq (h.bind _), M.Quits.instr_eq (h.bind _),
    fun h2 => M.Quits.instr_eq (M.leads.quits (leads_s2Val h2) (h.bind _))⟩

/-! ### The instructions on a future that the handle names -/

variable (h : s.handleAt rs1 i loc e)
include h

theorem exec_futGet_full (full : e.st = 2) : exec (.futGet rd rs1) s = .next (s.wrote rd e.val).retired := by
  refine M.leads.instr_eq (M.leads_bind (leads_handleEntry h (by omega)) ?_)
  dsimp only
  rw [if_neg (by omega)]
  exact M.leads_bind (leads_wx _ _ _) (M.leads_pure _ _)

theorem exec_futGet_waits (empty : e.st = 1) : exec (.futGet rd rs1) s = .next (s.parkedFor (.fget s.myPart i)) := by
  obtain ⟨-, tiles, -⟩ := id h
  obtain ⟨index, -⟩ := index_of_handle h
  refine M.Quits.instr_eq (M.leads.quits (leads_handleEntry h (by omega)) ?_)
  dsimp only
  rw [if_pos empty, index]
  exact quits_park tiles ⟨by simp, by simp⟩ s

theorem exec_futChk (alive : e.st ≠ 0) : exec (.futChk rd rs1) s = .next (s.wrote rd (BitVec.ofNat 64 e.st)).retired :=
  M.leads.instr_eq (M.leads_bind (leads_handleEntry h alive) (M.leads_bind (leads_wx _ _ _) (M.leads_pure _ _)))

theorem exec_futFree_eq (fenced : s.fenced) (alive : e.st ≠ 0) : exec (.futFree rs1) s =
    instr (if e.st = 1 && (e.head ≠ 0 || s.getting s.myPart i) then raise FUTURE_STALE (BitVec.ofNat 64 (s.handle rs1))
      else do
        writeEntry s.tab i { e with st := 0, gen := (e.gen + 1) % 4096 }
        return {}) s := by
  obtain ⟨index, -⟩ := index_of_handle h
  refine M.Becomes.instr_eq ((leads_handleEntry h alive).becomes ((leads_drainVec fenced.2).becomes ((leads_readAhead fenced.1).becomes
    ((M.leads_get s).becomes ?_))))
  rw [index]
  exact .refl _ s

theorem exec_futFree (fenced : s.fenced) (alive : e.st ≠ 0) (idle : e.st = 1 → e.head = 0 ∧ s.getting s.myPart i = false) :
    exec (.futFree rs1) s = .next ((Upd.poke loc { e with st := 0, gen := (e.gen + 1) % 4096 }.bytes).apply s).retired := by
  obtain ⟨-, -, -, -, -, -, -, -, served, -⟩ := id h
  rw [exec_futFree_eq h fenced alive, if_neg]
  · exact M.leads.instr_eq (M.leads_bind (leads_writeEntry (tb := s.tab) served _) (M.leads_pure _ _))
  · simp only [Bool.and_eq_true, decide_eq_true_eq, Bool.or_eq_true, not_and, not_or]
    intro empty
    obtain ⟨none', nobody⟩ := idle empty
    exact ⟨not_not_intro none', Bool.eq_false_iff.1 nobody⟩

theorem exec_futFree_waited (fenced : s.fenced) (empty : e.st = 1) (waited : e.head ≠ 0 ∨ s.getting s.myPart i = true) :
    exec (.futFree rs1) s = .next (s.took { code := FUTURE_STALE, val := BitVec.ofNat 64 (s.handle rs1) }) := by
  rw [exec_futFree_eq h fenced (by omega), if_pos]
  · exact M.Quits.instr_eq (quits_raise fenced.1 _ _)
  · simp only [Bool.and_eq_true, decide_eq_true_eq, Bool.or_eq_true]
    exact ⟨empty, waited⟩

theorem exec_futSet_full (h2 : s.s2Readable o) (full : e.st = 2) :
    exec (.futSet rs1 o) s = .next (s.took { code := FUTURE_STALE, val := BitVec.ofNat 64 (s.handle rs1) }) := by
  obtain ⟨-, tiles, -⟩ := id h
  refine M.Quits.instr_eq (M.leads.quits (leads_s2Val h2) (M.leads.quits (leads_handleEntry h (by omega)) ?_))
  dsimp only
  rw [if_pos (by omega)]
  exact quits_raise tiles _ _

/-- A move to FULL is followed by the release of the waiters (R250). -/
theorem exec_futSet (h2 : s.s2Readable o) (fenced : s.fenced) (empty : e.st = 1) {t : State}
    (release : (releaseWaiters s.tab i e.head).leads
      ((Upd.poke loc { e with st := 2, val := s.s2 o, head := 0, tail := 0 }.bytes).apply s) t ()) :
    exec (.futSet rs1 o) s = .next t.retired := by
  obtain ⟨-, -, -, -, -, -, -, -, served, -⟩ := id h
  obtain ⟨index, -⟩ := index_of_handle h
  refine M.leads.instr_eq (M.leads_bind (leads_s2Val h2) (M.leads_bind (leads_handleEntry h (by omega)) ?_))
  dsimp only
  rw [if_neg (not_not_intro empty), index]
  exact M.leads_bind (leads_fenceAll fenced) (M.leads_bind (leads_writeEntry (tb := s.tab) served _) (M.leads_bind release (M.leads_pure _ _)))

end

/-- An entry without waiters releases none. -/
theorem leads_releaseWaiters_none (tb : Tab) (i : Nat) {head : Nat} (empty : head = 0) (s : State) : (releaseWaiters tb i head).leads s s () := by
  subst empty
  have none' : ∀ n, (waiters tb n 0).leads s s [] := fun n => by
    cases n
    · exact M.leads_pure _ s
    · rw [waiters, if_pos rfl]
      exact M.leads_pure _ s
  exact M.leads_get_bind (M.leads_bind (none' _) (M.leads_pure () s))

/-- The FREE entry of lowest index is found (R249). -/
theorem leads_findFree {tb : Tab} {s : State} {ent : Nat → FEnt} {i : Nat} (free : (ent i).st = 0)
    (entries : ∀ j, 1 ≤ j → j ≤ i → (readEntry tb j).leads s s (ent j)) (used : ∀ j, 1 ≤ j → j < i → (ent j).st ≠ 0) :
    ∀ f k, 1 ≤ k → k ≤ i → i < k + f → (findFree tb f k).leads s s (some (i, ent i))
  | 0, k, _, le, lt => absurd lt (by omega)
  | f + 1, k, pos, le, lt => by
    refine M.leads_bind (entries k pos le) ?_
    by_cases here : k = i
    · subst here
      rw [if_pos free]
      exact M.leads_pure _ s
    · rw [if_neg (used k pos (by omega))]
      exact leads_findFree free entries used f (k + 1) (by omega) (by omega) (by omega)

theorem exec_futNew {rd : XReg} {i : Nat} {loc : Nat → Nat} {ent : Nat → FEnt} {s : State} (fenced : s.fenced) (known : s.tableKnown)
    (pos : 0 < i) (few : i < 2 ^ s.futLog) (entries : ∀ j, 1 ≤ j → j ≤ i → s.futureAt j (loc j) (ent j))
    (used : ∀ j, 1 ≤ j → j < i → (ent j).st ≠ 0) (free : (ent i).st = 0) :
    exec (.futNew rd) s = .next (((Upd.poke (loc i) { ent i with st := 1, head := 0, tail := 0 }.bytes).apply s).wrote rd
      (BitVec.ofNat 64 ((ent i).gen * 2 ^ 20 + i))).retired := by
  have read : ∀ j, 1 ≤ j → j ≤ i → (readEntry s.tab j).leads s s (ent j) := fun j lo hi => by
    obtain ⟨served, clean, same⟩ := entries j lo hi
    exact same ▸ leads_readEntry (tb := s.tab) served clean
  have few : i < 2 ^ s.tab.log := few
  refine M.leads.instr_eq (M.leads_bind (leads_flushWindow fenced.1) (M.leads_bind (leads_drainVec fenced.2) (M.leads_bind (leads_readAhead fenced.1)
    (M.leads_bind (leads_myTab known) (M.leads_bind (leads_findFree free read used (2 ^ s.tab.log - 1) 1 (by omega) pos (by omega)) ?_)))))
  obtain ⟨served, -⟩ := entries i pos (Nat.le_refl i)
  exact M.leads_bind (leads_writeEntry (tb := s.tab) served _) (M.leads_bind (leads_wx _ _ _) (M.leads_pure _ _))

/-! ### What is left in memory -/

theorem FEnt.fits_of_futureAt {s : State} {i loc : Nat} {e : FEnt} (h : s.futureAt i loc e) : e.Fits := by
  obtain ⟨-, -, rfl⟩ := h
  exact FEnt.fits_of _

/-- An entry has been written, and 32 bytes with it. -/
theorem State.entry_of_mem {s t : State} {loc : Nat} {e : FEnt} (fits : e.Fits) (h : t.mem = ((Upd.poke loc e.bytes).apply s).mem) :
    FEnt.of (t.peek loc 32) = e ∧ ∀ a, a < loc ∨ loc + 32 ≤ a → t.byte a = s.byte a := by
  refine ⟨(congrArg FEnt.of (State.peek_congr h loc 32)).trans (s.entry_poke loc fits), fun a ha => (State.byte_congr h a).trans ?_⟩
  exact s.byte_poke_ne (e.bytes_length.symm ▸ ha)

theorem State.retired_run (s : State) (f : Fin) : (s.retired f).me.run = .ready := (congrArg Ctx.run (State.retired_me s f)).trans (Ctx.retire_run ..)

theorem State.retired_deque (s : State) (f : Fin) (c : Nat) : ((s.retired f).core c).deque = (s.core c).deque := by
  by_cases mine : c = coreOf s.dev.cur
  · subst mine
    have kept := Core.retire_kept f (1 + s.me.annulled f) (ctxOf s.dev.cur == 0) s.myCore
    simp only [Core.kept, Prod.mk.injEq] at kept
    obtain ⟨-, -, -, -, deque, -⟩ := kept
    exact (congrArg Core.deque (State.retired_myCore s f)).trans deque
  · rw [State.retired_core_ne s f mine]

theorem State.part_poke (s : State) (a : Nat) (bs : List Byte) (p : Nat) : ((Upd.poke a bs).apply s).part p = s.part p := rfl

theorem State.partOpt_poke (s : State) (a : Nat) (bs : List Byte) (p : Nat) : ((Upd.poke a bs).apply s).part? p = s.part? p := rfl

theorem State.core_poke (s : State) (a : Nat) (bs : List Byte) (c : Nat) : ((Upd.poke a bs).apply s).core c = s.core c := rfl

theorem State.me_poke (s : State) (a : Nat) (bs : List Byte) : ((Upd.poke a bs).apply s).me = s.me := rfl

/-- Registers once one has been given a value, with no load pending. -/
theorem State.rd_wrote_retired_any {s : State} (pend : s.me.pend = []) (rd r : XReg) (v : Word) :
    (s.wrote rd v).retired.me.rd r = if r = rd ∧ r ≠ 0 then v else s.me.rd r := by
  rw [State.retired_me, Ctx.retire_rd, State.wrote_rd]
  rw [Ctx.notPending, State.wrote_pend, pend]
  exact List.forall_mem_nil _

theorem State.rd_wrote_retired {s : State} (pend : s.me.pend = []) (rd : XReg) (v : Word) :
    (s.wrote rd v).retired.me.rd rd = if rd = 0 then 0 else v := by
  rw [State.rd_wrote_retired_any pend]
  by_cases z : rd = 0
  · rw [if_pos z, if_neg fun n => n.2 z, z, Ctx.rd_zero]
  · rw [if_neg z, if_pos ⟨rfl, z⟩]

/-- A slot apart from an entry that is written keeps its record. -/
theorem State.slotRecord_poke (s : State) {at' : Nat → Nat} {j loc : Nat} (e : FEnt) (lo : at' (2 * j) + 32 ≤ loc ∨ loc + 32 ≤ at' (2 * j))
    (hi : at' (2 * j + 1) + 32 ≤ loc ∨ loc + 32 ≤ at' (2 * j + 1)) :
    ((Upd.poke loc e.bytes).apply s).slotRecord at' j = s.slotRecord at' j := by
  unfold State.slotRecord
  rw [s.peek_poke_ne (e.bytes_length.symm ▸ lo), s.peek_poke_ne (e.bytes_length.symm ▸ hi)]

/-- Releasing the waiters after an entry has become FULL (R35, R250). -/
theorem leads_releaseWaiters {s set : State} {i : Nat} {e : FEnt} {at' : Nat → Nat} {js : List Nat} (known : (set.part? s.myPart).isSome = true)
    (list : (waiters s.tab (set.part s.myPart).pool.length e.head).leads set set js)
    (slots : ∀ j ∈ js, set.slotBy s.tab at' j ∧
      (rcVent (set.slotRecord at' j) = false ∨ rcNext (set.slotRecord at' j) = true ∨ (set.part s.myPart).st = .saved) ∧
      (hIndex (rcWait (set.slotRecord at' j) 0) ≠ i ∨ hIndex (rcWait (set.slotRecord at' j) 1) = 0)) :
    ∃ t, (releaseWaiters s.tab i e.head).leads set t () ∧ set.Readied t s.myPart (set.slotRecord at') js := by
  obtain ⟨t, release, released⟩ := leads_releaseAll (tb := s.tab) (i := i) js known slots
  exact ⟨t, M.leads_get_bind (M.leads_bind list release), released⟩

/-- A `fut.set` of an EMPTY future makes it FULL; its waiters, whose other waits name no future, become ready in list order (R250). -/
theorem futSet_releases {rs1 : XReg} {o : S2} {i loc : Nat} {e : FEnt} {s : State} {at' : Nat → Nat} {js : List Nat}
    (named : s.handleAt rs1 i loc e) (h2 : s.s2Readable o) (fenced : s.fenced) (empty : e.st = 1) (known : (s.part? s.myPart).isSome = true)
    (list : (waiters s.tab (s.part s.myPart).pool.length e.head).leads
      ((Upd.poke loc { e with st := 2, val := s.s2 o, head := 0, tail := 0 }.bytes).apply s)
      ((Upd.poke loc { e with st := 2, val := s.s2 o, head := 0, tail := 0 }.bytes).apply s) js)
    (slots : ∀ j ∈ js, s.slotAt at' j ∧ (at' (2 * j) + 32 ≤ loc ∨ loc + 32 ≤ at' (2 * j)) ∧
      (at' (2 * j + 1) + 32 ≤ loc ∨ loc + 32 ≤ at' (2 * j + 1)) ∧
      (rcVent (s.slotRecord at' j) = false ∨ rcNext (s.slotRecord at' j) = true ∨ (s.part s.myPart).st = .saved) ∧
      (hIndex (rcWait (s.slotRecord at' j) 0) ≠ i ∨ hIndex (rcWait (s.slotRecord at' j) 1) = 0)) :
    ∃ t, exec (.futSet rs1 o) s = .next t ∧ t.me.run = .ready ∧
      FEnt.of (t.peek loc 32) = { e with st := 2, val := s.s2 o, head := 0, tail := 0 } ∧ (∀ a, a < loc ∨ loc + 32 ≤ a → t.byte a = s.byte a) ∧
      (t.part s.myPart).held = (s.part s.myPart).held ++
        js.filter (fun j => rcNext (s.slotRecord at' j) || (s.part s.myPart).st == .saved) ∧
      (t.part s.myPart).pool = (s.part s.myPart).pool ∧
      ∀ c, (t.core c).deque.map (fun x => x.slot) = (s.core c).deque.map (fun x => x.slot) ++
        js.filter fun j => !(rcNext (s.slotRecord at' j) || (s.part s.myPart).st == .saved) &&
          s.dequeOf s.myPart (s.slotRecord at' j) == c := by
  obtain ⟨-, -, -, -, -, -, -, -, entry⟩ := id named
  obtain ⟨-, hgen, -, -⟩ := FEnt.fits_of_futureAt entry
  generalize full : { e with st := 2, val := s.s2 o, head := 0, tail := 0 } = f at *
  have fits : f.Fits := full ▸ ⟨by simp, hgen, by simp, by simp⟩
  have only := State.OnlyRecords.poke s loc f.bytes
  have same : ∀ j ∈ js, ((Upd.poke loc f.bytes).apply s).slotRecord at' j = s.slotRecord at' j := fun j hj => by
    obtain ⟨-, lo, hi, -⟩ := slots j hj
    exact s.slotRecord_poke f lo hi
  obtain ⟨t, release, released⟩ := leads_releaseWaiters (s := s) (set := (Upd.poke loc f.bytes).apply s) (i := i) (e := e) (at' := at') (js := js)
    ((congrArg Option.isSome (s.partOpt_poke ..)).trans known) (by rw [s.part_poke]; exact list) fun j hj => by
      obtain ⟨slot, -, -, placed, last⟩ := slots j hj
      rw [same j hj, s.part_poke]
      exact ⟨only.slotBy slot, placed, last⟩
  obtain ⟨memory, bytes⟩ := State.entry_of_mem (s := s) (t := t.retired) fits ((State.retired_mem ..).trans released.mem)
  have held := released.held
  have pool := released.pool
  have deques := released.deques
  rw [s.part_poke] at held pool
  have exec' := exec_futSet named h2 fenced empty (t := t) (by rw [full]; exact release)
  refine ⟨_, exec', State.retired_run .., memory, bytes, held.trans ?_, pool, fun c => ?_⟩
  · exact congrArg _ (List.filter_congr fun j hj => by rw [same j hj])
  · rw [State.retired_deque, deques, s.core_poke, s.part_poke]
    exact congrArg _ (List.filter_congr fun j hj => by rw [same j hj, only.dequeOf])

/-- Settles O24: one lemma above for each instruction and each condition. -/
theorem futures : Obligations.Futures := by
  unfold Obligations.Futures
  refine ⟨fun rd i loc ent s fenced known pend pos few _ entries used free => ?_, fun rd rs1 o i loc e s named fenced pend => ?_,
    fun rd rs1 o i gen loc e s named stale => ?_, fun rd rs1 o s h1 tiles => ?_⟩
  · obtain ⟨hst, hgen, -, -⟩ := FEnt.fits_of_futureAt (entries i pos (Nat.le_refl i))
    refine ⟨_, exec_futNew fenced known pos few entries used free, ?_, State.entry_of_mem (s := s) ⟨by simp, hgen, by simp, by simp⟩ ?_⟩
    · exact State.rd_wrote_retired ((congrArg Ctx.pend (s.me_poke ..)).trans pend) rd _
    · exact (State.retired_mem ..).trans (State.wrote_mem ..)
  · obtain ⟨-, -, -, -, -, -, -, -, entry⟩ := id named
    obtain ⟨hst, hgen, hhead, htail⟩ := FEnt.fits_of_futureAt entry
    refine ⟨fun h2 empty none' => ?_, exec_futSet_full named, exec_futGet_full named, fun empty => ?_, exec_futChk named, fun idle => ?_,
      exec_futFree_waited named fenced, fun h2 empty at' js => ?_⟩
    · refine ⟨_, exec_futSet named h2 fenced empty (leads_releaseWaiters_none _ _ none' _), State.retired_run .., ?_⟩
      exact State.entry_of_mem (s := s) ⟨by simp, hgen, by simp, by simp⟩ (State.retired_mem ..)
    · exact ⟨_, exec_futGet_waits named empty, s.parkedOn_parkedFor _, rfl⟩
    · refine ⟨_, exec_futFree named fenced (by omega) (fun empty => ?_), State.retired_run .., ?_⟩
      · rcases idle with full | ⟨-, idle⟩
        · omega
        · exact idle
      · exact State.entry_of_mem (s := s) ⟨by simp, Nat.mod_lt _ (by decide), hhead, htail⟩ (State.retired_mem ..)
    · intro tb set r q list slots known
      exact futSet_releases named h2 fenced empty known list slots
  · obtain ⟨get, chk, free, set⟩ := quits_futures (rd := rd) (o := o) (quits_handleEntry_stale named stale)
    exact ⟨set, get, chk, free⟩
  · intro h bad beyond
    obtain ⟨get, chk, free, set⟩ := quits_futures (rd := rd) (o := o) (quits_handleEntry_beyond h1 tiles beyond)
    exact ⟨set, get, chk, free⟩

end Sys2Proof.Machine
end

section
/-!
SUPPORT. The post of a record (R32, R35, R137, R145, R146, R242, R363, R365).
-/

namespace Sys2Proof.Machine

open M

/-! ### The slot of the waiter pool that is taken (R137) -/

theorem mem_of_freeFrom_mem {used : List Nat} {size : Nat} : ∀ {f i : Nat}, freeFrom used size f i ∈ used → ∀ k ≤ f, (i + k) % size ∈ used
  | 0, i, h, k, hk => by
    obtain rfl : k = 0 := by omega
    exact h
  | f + 1, i, h, k, hk => by
    rw [freeFrom] at h
    by_cases here : used.contains (i % size) = true
    · rw [if_pos here] at h
      cases k with
      | zero => exact List.contains_iff_mem.1 here
      | succ k =>
        have next := mem_of_freeFrom_mem h k (by omega)
        rwa [Nat.add_right_comm, Nat.add_assoc] at next
    · rw [if_neg here] at h
      exact absurd (List.contains_iff_mem.2 h) here

/-- With a slot free, the slot that is taken was free: a pool has no more slots in use than it has entries. -/
theorem freeFrom_not_mem {used : List Nat} {size : Nat} (room : used.length < size) (i : Nat) :
    freeFrom used size used.length i ∉ used := by
  intro taken
  have all := mem_of_freeFrom_mem taken
  have distinct : ((List.range (used.length + 1)).map fun k => (i + k) % size).Nodup := by
    refine List.Nodup.map_on (fun a ha b hb same => ?_) List.nodup_range
    rw [List.mem_range] at ha hb
    have equal : a ≡ b [MOD size] := Nat.ModEq.add_left_cancel' i same
    exact Nat.ModEq.eq_of_lt_of_lt equal (by omega) (by omega)
  have within : ((List.range (used.length + 1)).map fun k => (i + k) % size) ⊆ used := by
    intro x hx
    obtain ⟨k, hk, rfl⟩ := List.mem_map.1 hx
    exact all k (by rw [List.mem_range] at hk; omega)
  have few := (List.subperm_of_subset distinct within).length_le
  rw [List.length_map, List.length_range] at few
  omega

/-- The slot of a record that is accepted into a pool with room (R137). -/
theorem leads_takeSlot_free (tb : Tab) {s : State} (room : (s.part tb.p).pool.length < 2 ^ tb.log) :
    ∃ j < 2 ^ tb.log, j ∉ (s.part tb.p).pool ∧ (takeSlot tb).leads s (s.tookSlot tb.p j) j :=
  ⟨freeFrom (s.part tb.p).pool (2 ^ tb.log) (s.part tb.p).pool.length (Config.poolPick s.dev.freeIx), freeFrom_lt _ (Nat.two_pow_pos _) _ _,
    freeFrom_not_mem room _, fun _ _ => rfl⟩

/-- The state in which a slot has been taken and a record stored in it. -/
def State.stored2 (s : State) (p j lo hi r : Nat) : State :=
  (Upd.poke hi (leBytes 32 (r / 2 ^ 256))).apply ((Upd.poke lo (leBytes 32 r)).apply (s.tookSlot p j))

/-! ### The checks of a record in local memory (R242, R363, R428) -/

/-- What the instruction does once its record has been read and is well formed. -/
def State.postChecked (s : State) (a : Acc) (va : Word) (r : Nat) : M Fin := do
  match ← checkHandles s.tab [rcWait r 0, rcWait r 1] with
  | some .beyond => raise ILLEGAL_OPERAND va
  | some (.stale h) => raise FUTURE_STALE (BitVec.ofNat 64 h)
  | none => do
    loadChecks s.byMe failMe a 64
    if s.poolFull s.tab.p then park .future
    else do
      acceptRec s.tab r
      return {}

/-- `post` of a record of local memory, whose own contents are in order. -/
structure State.Posts (s : State) (rs1 : XReg) (imm : BitVec 12) (core off r : Nat) : Prop where
  control : s.onControl = true
  readable : s.readable rs1
  known : s.tableKnown
  at' : s.localAt .load (s.x rs1 + immS imm) 64 core off
  clean : s.poisoned ((Space.lm core).loc off) 64 = false
  noCal : inCaldera (s.x rs1 + immS imm).toNat = false
  record : s.peek ((Space.lm core).loc off) 64 = r
  ok : s.recordOk s.myTen s.myPart r = true

section
variable {rs1 : XReg} {imm : BitVec 12} {core off r : Nat} {s : State} (h : s.Posts rs1 imm core off r)
include h

theorem exec_post_eq : exec (.post rs1 imm) s =
    instr (s.postChecked ⟨s.x rs1 + immS imm, .lm core off, 0, false⟩ (s.x rs1 + immS imm) r) s := by
  obtain ⟨control, h1, known, at', clean, noCal, rfl, ok⟩ := h
  obtain ⟨straight, window, -, fenced, -⟩ := id at'
  have here : Acc.local ⟨s.x rs1 + immS imm, .lm core off, 0, false⟩ core off := ⟨rfl, rfl, rfl, not_inGlobal_of_window window⟩
  have plain : s.Plain s.byMe ⟨s.x rs1 + immS imm, .lm core off, 0, false⟩ 0 := plain_local at'
  refine M.Becomes.instr_eq ((leads_agent _ control).becomes ((leads_rx h1).becomes ((leads_fenceAll fenced).becomes
    ((leads_aligned straight).becomes (becomes_pass (Bool.eq_false_iff.1 noCal) ((leads_locate at').becomes ((leads_byMe s).becomes
      ((leads_codeFail plain.code).becomes (M.leads.becomes (fun s0 k => run_loadPlain_local s0 s s.byMe 64 0 here clean k)
        ((leads_myTab known).becomes ((M.leads_get s).becomes ?_)))))))))))
  have bad : ¬(!s.recordOk s.tab.t s.tab.p (s.peek ((Space.lm core).loc off) 64)) = true := by
    rw [show s.recordOk s.tab.t s.tab.p _ = true from ok]
    decide
  rw [if_neg bad]
  exact .refl _ s

theorem plain_record (d : Nat) : s.Plain s.byMe ⟨s.x rs1 + immS imm, .lm core off, 0, false⟩ d := plain_local h.at'

/-- With its handles in order the record is accepted when the pool has room. -/
theorem exec_post_accepts (handles : (checkHandles s.tab [rcWait r 0, rcWait r 1]).leads s s none)
    (room : (s.part s.myPart).pool.length < 2 ^ s.futLog) {t : State} (accept : (acceptRec s.tab r).leads s t ()) :
    exec (.post rs1 imm) s = .next t.retired := by
  have few : s.poolFull s.tab.p = false := decide_eq_false (Nat.not_le.2 room)
  rw [exec_post_eq h]
  refine M.leads.instr_eq (M.leads_bind handles (M.leads_bind (leads_loadChecks (plain_record h 0)) ?_))
  rw [few, if_neg (by decide)]
  exact M.leads_bind accept (M.leads_pure _ _)

theorem exec_post_waits (handles : (checkHandles s.tab [rcWait r 0, rcWait r 1]).leads s s none)
    (full : 2 ^ s.futLog ≤ (s.part s.myPart).pool.length) : exec (.post rs1 imm) s = .next (s.parkedFor .future) := by
  obtain ⟨-, -, -, fenced, -⟩ := h.at'
  have full : s.poolFull s.tab.p = true := decide_eq_true full
  rw [exec_post_eq h]
  refine M.Quits.instr_eq (M.leads.quits handles (M.leads.quits (leads_loadChecks (plain_record h 0)) ?_))
  rw [full, if_pos rfl]
  exact quits_park fenced.1 ⟨by simp, by simp⟩ s

theorem exec_post_stale {w : Nat} (handles : (checkHandles s.tab [rcWait r 0, rcWait r 1]).leads s s (some (.stale w))) :
    exec (.post rs1 imm) s = .next (s.took { code := FUTURE_STALE, val := BitVec.ofNat 64 w }) := by
  obtain ⟨-, -, -, fenced, -⟩ := h.at'
  rw [exec_post_eq h]
  exact M.Quits.instr_eq (M.leads.quits handles (quits_raise fenced.1 _ _))

end

/-! ### Handles of a record (R363) -/

theorem leads_checkHandles_none (tb : Tab) (s : State) : (checkHandles tb [0, 0]).leads s s none := fun _ _ => rfl

section
variable {i gen ent w : Nat} {e : FEnt} {s : State} (few : i < 2 ^ 20) (gens : gen < 4096) (names : w = gen * 2 ^ 20 + i)
include few gens names

theorem index_of_wait : hIndex w = i ∧ hGen w = gen := by
  unfold hIndex hGen
  omega

variable (pos : 0 < i) (small : i < 2 ^ s.futLog) (entry : s.futureAt i ent e)
include pos small entry

theorem becomes_checkHandles : (checkHandles s.tab [w, 0]).Becomes s
    (if e.st = 0 || e.gen ≠ gen then return some (.stale w) else return none) s := by
  obtain ⟨index, gens⟩ := index_of_wait few gens names
  obtain ⟨served, clean, rfl⟩ := entry
  have inside : ¬2 ^ s.tab.log ≤ i := Nat.not_le.2 small
  rw [checkHandles, if_neg (by omega), index, if_neg inside, gens]
  refine (leads_readEntry (tb := s.tab) served clean).becomes ?_
  split
  · exact .refl _ s
  · exact .refl _ s

end
end Sys2Proof.Machine
end

section
/-!
SUPPORT. The acceptance of a posted record (R32, R35, R46, R137, R145, R146).
-/

namespace Sys2Proof.Machine

open M

/-! ### The record in its slot (R137) -/

/-- A partition with a slot of its pool more in use. -/
def Part.using (j : Nat) (q : Part) : Part := { q with pool := nsInsert j q.pool }

section
variable {tb : Tab} {at' : Nat → Nat} {j r p lo hi : Nat} {s : State}

theorem State.stored2_only (s : State) (p j lo hi r : Nat) : s.OnlyRecords (s.stored2 p j lo hi r) :=
  ((State.OnlyRecords.tookSlot s p j).trans (.poke _ lo _)).trans (.poke _ hi _)

theorem State.stored2_part (known : (s.part? p).isSome = true) (j lo hi r : Nat) : (s.stored2 p j lo hi r).part p = (s.part p).using j :=
  (State.part_poke ..).trans ((State.part_poke ..).trans
    (State.part_setPart_self (s := (Upd.dev fun d => { d with freeIx := d.freeIx + 1 }).apply s) known (Part.using j)))

theorem State.stored2_known (known : (s.part? p).isSome = true) (j lo hi r : Nat) : ((s.stored2 p j lo hi r).part? p).isSome = true :=
  State.known_tookSlot known j

theorem State.stored2_core (s : State) (p j lo hi r c : Nat) : (s.stored2 p j lo hi r).core c = s.core c := rfl

theorem leads_storeSlot (slot : s.slotBy tb at' j) (r : Nat) :
    (writeSlot tb j r).leads (s.tookSlot tb.p j) (s.stored2 tb.p j (at' (2 * j)) (at' (2 * j + 1)) r) () := by
  have took := State.OnlyRecords.tookSlot s tb.p j
  have first := leads_tabPoke32 (took.tableBy slot.1) (leBytes_length 32 r)
  exact writeSlot_at first (leads_tabPoke32 ((took.trans (.poke _ _ _)).tableBy slot.2) (leBytes_length 32 _))

/-- Bytes apart from the slot stand, and marks are not set. -/
theorem State.stored2_peek {ent n : Nat} (lo_apart : lo + 32 ≤ ent ∨ ent + n ≤ lo) (hi_apart : hi + 32 ≤ ent ∨ ent + n ≤ hi) (s : State)
    (p j r : Nat) : (s.stored2 p j lo hi r).peek ent n = s.peek ent n := by
  have len : ∀ v, (leBytes 32 v).length = 32 := leBytes_length 32
  unfold State.stored2
  rw [State.peek_poke_ne _ (by rw [len]; omega), State.peek_poke_ne _ (by rw [len]; omega)]
  rfl

theorem State.poisoned_poke (s : State) {a b n : Nat} {bs : List Byte} (clean : s.poisoned b n = false) :
    ((Upd.poke a bs).apply s).poisoned b n = false := by
  rw [State.poisoned, List.any_eq_false] at clean ⊢
  intro w hw marked
  exact clean w hw (List.contains_iff_mem.2 (List.mem_filter.1 (List.contains_iff_mem.1 marked)).1)

theorem State.stored2_clean {ent n : Nat} (clean : s.poisoned ent n = false) (p j lo hi r : Nat) :
    (s.stored2 p j lo hi r).poisoned ent n = false := State.poisoned_poke _ (State.poisoned_poke _ clean)

end

/-! ### A record that is queued, on a core's deque or on a vent core's (R145, R146) -/

/-- The vent core of the channel of an address, reached through a core in an address space. -/
abbrev State.ventBy (s : State) (tb : Tab) (data d : Nat) : Prop :=
  data < 2 ^ 52 ∧ inCaldera data = false ∧ ∃ e l a v, s.cached (interfaceOf (s.core tb.core).pmap tb.core data) tb.t tb.p data = some e ∧
    judge .place false e.leaf = .ok l ∧ s.route tb.t l data = .ok (.hbm a, v) ∧ d = 4096 + s.channel a

/-- The interfaces keep other translations. -/
def State.withTlb (s : State) (tlb : List TlbEnt) : State := { s with dev := { s.dev with tlb := tlb } }

section
variable {s t : State} {tb : Tab} {r d : Nat}

theorem State.OnlyRecords.ventBy (h : s.OnlyRecords t) (vent : s.ventBy tb (rcData r) d) : t.ventBy tb (rcData r) d := by
  have maps := h.pmap tb.core
  obtain ⟨⟨_, _, _, _, _, rfl⟩, -⟩ := h
  unfold State.ventBy
  rw [maps]
  exact vent

theorem leads_placeRec_vent (vent : rcVent r = true) (at' : s.ventBy tb (rcData r) d) (j : Nat) :
    ∃ tlb, (placeRec tb j r).leads s ((s.withTlb tlb).withQueued d tb.p j r) () := by
  obtain ⟨low, noCal, e, l, a, v, cached, allowed, route, rfl⟩ := at'
  obtain rfl := judge_ok allowed
  obtain ⟨tlb, keep⟩ := leads_keepLeaf tb.core tb.t tb.p (rcData r) e.leaf s
  have tgt := engineTgt_at low noCal (stage1_cached cached allowed) route (leads_readyWalk cached allowed)
  rw [keep.ran_eq] at tgt
  refine ⟨tlb, M.leads_get_bind ?_⟩
  rw [vent, if_pos rfl]
  exact M.leads_bind tgt (M.leads_upd _ _)

theorem leads_readyRec_queued (next : rcNext r = false) (running : (s.part tb.p).st ≠ .saved)
    (place : rcVent r = false ∧ d = s.dequeOf tb.p r ∨ rcVent r = true ∧ s.ventBy tb (rcData r) d) (j : Nat) :
    ∃ tlb, (readyRec tb j r).leads s ((s.withTlb tlb).withQueued d tb.p j r) () := by
  have queued : (rcNext r || (s.part tb.p).st == .saved) = false := by simp [next, running]
  rcases place with ⟨plain, rfl⟩ | ⟨vent, at'⟩
  · have ready := leads_readyRec (tb := tb) (j := j) (s := s) (.inl plain)
    rw [State.readied, queued, if_neg (by decide)] at ready
    exact ⟨s.dev.tlb, ready⟩
  · obtain ⟨tlb, placed⟩ := leads_placeRec_vent vent at' j
    refine ⟨tlb, M.leads_get_bind ?_⟩
    dsimp only
    rw [queued, if_neg (by decide)]
    exact placed

end

/-! ### Acceptance -/

theorem waitFirst_of_none (tb : Tab) (j : Nat) {r : Nat} (h0 : rcWait r 0 = 0) (h1 : rcWait r 1 = 0) : waitFirst tb j r = readyRec tb j r := by
  unfold waitFirst waitSecond
  rw [h0, h1]
  rfl

section
variable {tb : Tab} {at' : Nat → Nat} {r : Nat} {s : State} (known : (s.part? tb.p).isSome = true)
  (room : (s.part tb.p).pool.length < 2 ^ tb.log) (slots : ∀ j, j < 2 ^ tb.log → s.slotBy tb at' j)
include room slots

/-- A record is accepted: it takes a free slot, is stored there, and waits or becomes ready. -/
theorem leads_acceptRec {good : Nat → State → Prop}
    (wait : ∀ j, j < 2 ^ tb.log → ∃ t, (waitFirst tb j r).leads (s.stored2 tb.p j (at' (2 * j)) (at' (2 * j + 1)) r) t () ∧ good j t) :
    ∃ j t, j ∉ (s.part tb.p).pool ∧ (acceptRec tb r).leads s t () ∧ good j t := by
  obtain ⟨j, hj, fresh, take⟩ := leads_takeSlot_free tb room
  obtain ⟨t, waits, ht⟩ := wait j hj
  exact ⟨j, t, fresh, M.leads_bind take (M.leads_bind (leads_storeSlot (slots j hj) r) waits), ht⟩

end

/-! ### Records that wait on nothing -/

section
variable {tb : Tab} {at' : Nat → Nat} {r : Nat} {s : State} (known : (s.part? tb.p).isSome = true)
  (room : (s.part tb.p).pool.length < 2 ^ tb.log) (slots : ∀ j, j < 2 ^ tb.log → s.slotBy tb at' j)
  (h1 : rcWait r 1 = 0)
include known room slots h1

theorem leads_acceptRec_queued (h0 : rcWait r 0 = 0) {d : Nat} (next : rcNext r = false) (running : (s.part tb.p).st ≠ .saved)
    (place : rcVent r = false ∧ d = s.dequeOf tb.p r ∨ rcVent r = true ∧ s.ventBy tb (rcData r) d) :
    ∃ j t, j ∉ (s.part tb.p).pool ∧ (acceptRec tb r).leads s t () ∧ t.part tb.p = (s.part tb.p).using j ∧
      t.core d = (s.core d).queued tb.p j r (dieOf d) := by
  refine leads_acceptRec room slots (good := fun j t => t.part tb.p = (s.part tb.p).using j ∧ t.core d = (s.core d).queued tb.p j r (dieOf d))
    fun j hj => ?_
  have only := s.stored2_only tb.p j (at' (2 * j)) (at' (2 * j + 1)) r
  have part := State.stored2_part known j (at' (2 * j)) (at' (2 * j + 1)) r
  rw [waitFirst_of_none tb j h0 h1]
  obtain ⟨tlb, ready⟩ := leads_readyRec_queued (s := s.stored2 tb.p j (at' (2 * j)) (at' (2 * j + 1)) r) (tb := tb) (d := d) next
    (by rw [part]; exact running) (place.imp (And.imp_right fun e => e.trans (only.dequeOf ..).symm) (And.imp_right only.ventBy)) j
  exact ⟨_, ready, part, State.core_setCore_self ..⟩

theorem leads_acceptRec_held (h0 : rcWait r 0 = 0) (held : rcNext r = true ∨ (s.part tb.p).st = .saved) :
    ∃ j t, j ∉ (s.part tb.p).pool ∧ (acceptRec tb r).leads s t () ∧ t.part tb.p = ((s.part tb.p).using j).holding j ∧
      ∀ c, t.core c = s.core c := by
  refine leads_acceptRec room slots
    (good := fun j t => t.part tb.p = ((s.part tb.p).using j).holding j ∧ ∀ c, t.core c = s.core c) fun j hj => ?_
  have known' := State.stored2_known known j (at' (2 * j)) (at' (2 * j + 1)) r
  have part := State.stored2_part known j (at' (2 * j)) (at' (2 * j + 1)) r
  have core := s.stored2_core tb.p j (at' (2 * j)) (at' (2 * j + 1)) r
  generalize s.stored2 tb.p j (at' (2 * j)) (at' (2 * j + 1)) r = w at *
  have saved : (w.part tb.p).st = (s.part tb.p).st := by rw [part, Part.using]
  have ready := leads_readyRec (tb := tb) (j := j) (r := r) (s := w) (.inr (saved ▸ held))
  rw [State.readied, saved, if_pos (by simpa using held)] at ready
  rw [waitFirst_of_none tb j h0 h1]
  exact ⟨_, ready, (State.part_setPart_self known' _).trans (congrArg _ part), core⟩

end

/-! ### A record that waits on an EMPTY future (R35) -/

/-- The link of a slot of the pool lies in the table. -/
abbrev State.linkBy (s : State) (tb : Tab) (j loc : Nat) : Prop :=
  s.servedBy tb.core tb.t tb.p (tb.linkVA j) loc ∧ loc % 8 = 0 ∧ loc + 8 ≤ 2 ^ 60

/-- The state in which a record has become the waiter list of an entry: its link ends the list, and the entry names its slot. -/
def State.listed (s : State) (tb : Tab) (link ent j : Nat) (e : FEnt) : State :=
  (Upd.poke ent { e with head := tb.slotVA j, tail := tb.slotVA j }.bytes).apply ((Upd.poke link (leBytes 8 0)).apply s)

theorem leads_appendWaiter_first {tb : Tab} {s : State} {i j link ent : Nat} {e : FEnt} (empty : e.head = 0) (at' : s.linkBy tb j link)
    (entry : s.tableBy tb.core tb.t tb.p (tb.entryVA i) ent) : (appendWaiter tb i e j).leads s (s.listed tb link ent j e) () := by
  obtain ⟨served, align, low⟩ := at'
  have len : (leBytes 8 0).length = 8 := leBytes_length ..
  refine M.leads_bind (leads_tabPoke served (by rw [len]; decide) (by rw [len]; omega) (by omega)) ?_
  rw [if_pos empty]
  exact leads_writeEntry ((State.OnlyRecords.poke s link _).tableBy entry) _

theorem State.listed_part (s : State) (tb : Tab) (link ent j : Nat) (e : FEnt) (p : Nat) : (s.listed tb link ent j e).part p = s.part p :=
  (State.part_poke ..).trans (State.part_poke ..)

theorem State.listed_core (s : State) (tb : Tab) (link ent j : Nat) (e : FEnt) (c : Nat) : (s.listed tb link ent j e).core c = s.core c :=
  (State.core_poke ..).trans (State.core_poke ..)

theorem State.listed_entry {tb : Tab} {e : FEnt} (fits : e.Fits) {j : Nat} (small : tb.slotVA j < 2 ^ 64) (s : State) (link ent : Nat) :
    FEnt.of ((s.listed tb link ent j e).peek ent 32) = { e with head := tb.slotVA j, tail := tb.slotVA j } :=
  State.entry_poke _ _ ⟨fits.st, fits.gen, small, small⟩

theorem State.listed_link (s : State) (tb : Tab) {link ent j : Nat} (e : FEnt) (apart : link + 8 ≤ ent ∨ ent + 32 ≤ link) :
    (s.listed tb link ent j e).peek link 8 = 0 := by
  unfold State.listed
  rw [State.peek_poke_ne _ (by rwa [FEnt.bytes_length]), State.peek_poke_self]
  rfl

/-- A record whose first wait names an EMPTY future without waiters becomes its waiter list (R32, R35). -/
theorem leads_acceptRec_listed {tb : Tab} {at' link : Nat → Nat} {r i ent : Nat} {e : FEnt} {s : State} (known : (s.part? tb.p).isSome = true)
    (room : (s.part tb.p).pool.length < 2 ^ tb.log) (names : hIndex (rcWait r 0) = i) (pos : 0 < i)
    (entry : s.tableBy tb.core tb.t tb.p (tb.entryVA i) ent) (clean : s.poisoned ent 32 = false) (value : FEnt.of (s.peek ent 32) = e)
    (empty : e.st = 1) (none' : e.head = 0) (slots : ∀ j, j < 2 ^ tb.log → s.slotBy tb at' j ∧ s.linkBy tb j (link j) ∧
      (link j + 8 ≤ ent ∨ ent + 32 ≤ link j) ∧ (at' (2 * j) + 32 ≤ ent ∨ ent + 32 ≤ at' (2 * j)) ∧
      (at' (2 * j + 1) + 32 ≤ ent ∨ ent + 32 ≤ at' (2 * j + 1))) (small : tb.base + 104 * 2 ^ tb.log < 2 ^ 52) :
    ∃ j t, j ∉ (s.part tb.p).pool ∧ (acceptRec tb r).leads s t () ∧ t.part tb.p = (s.part tb.p).using j ∧ (∀ c, t.core c = s.core c) ∧
      FEnt.of (t.peek ent 32) = { e with head := tb.slotVA j, tail := tb.slotVA j } ∧ t.peek (link j) 8 = 0 := by
  refine leads_acceptRec room (fun j hj => (slots j hj).1) (good := fun j t => t.part tb.p = (s.part tb.p).using j ∧ (∀ c, t.core c = s.core c) ∧
    FEnt.of (t.peek ent 32) = { e with head := tb.slotVA j, tail := tb.slotVA j } ∧ t.peek (link j) 8 = 0) fun j hj => ?_
  obtain ⟨-, at_link, apart, lo, hi⟩ := slots j hj
  obtain ⟨served, align, low⟩ := at_link
  have only := s.stored2_only tb.p j (at' (2 * j)) (at' (2 * j + 1)) r
  have part := State.stored2_part known j (at' (2 * j)) (at' (2 * j + 1)) r
  have core := s.stored2_core tb.p j (at' (2 * j)) (at' (2 * j + 1)) r
  have stands := State.stored2_peek lo hi s tb.p j r
  have clean := State.stored2_clean clean tb.p j (at' (2 * j)) (at' (2 * j + 1)) r
  generalize s.stored2 tb.p j (at' (2 * j)) (at' (2 * j + 1)) r = w at *
  have read := leads_readEntry (i := i) (only.tableBy entry) clean
  rw [stands, value] at read
  have inside : tb.slotVA j < 2 ^ 64 := by
    unfold Tab.slotVA
    omega
  refine ⟨w.listed tb (link j) ent j e, ?_, (w.listed_part ..).trans part, fun c => (w.listed_core ..).trans (core c),
    State.listed_entry (value ▸ FEnt.fits_of _) inside w (link j) ent, w.listed_link tb e apart⟩
  rw [waitFirst, names, if_neg (by omega)]
  refine M.leads_bind read ?_
  rw [if_pos empty]
  exact leads_appendWaiter_first none' ⟨only.servedBy served, align, low⟩ (only.tableBy entry)

/-- Settles O25: a record that waits on nothing is queued or held, one that waits on an EMPTY future becomes its waiter list, a stale handle is a
cause, and with a full pool the instruction parks. -/
theorem postRecord : Obligations.PostRecord := by
  unfold Obligations.PostRecord
  intro rs1 imm core off s control h1 pend known va r p q at' clean noCal ok part
  have posts : s.Posts rs1 imm core off r := ⟨control, h1, known, at', clean, noCal, rfl, ok⟩
  have no_handles : rcWait r 0 = 0 → rcWait r 1 = 0 → (checkHandles s.tab [rcWait r 0, rcWait r 1]).leads s s none := fun w0 w1 => by
    rw [w0, w1]
    exact leads_checkHandles_none s.tab s
  refine ⟨fun loc w0 w1 room slots => ⟨fun d next running place => ?_, fun held => ?_⟩, fun loc link i ent e w0 w1 pos few small gens entry
    empty none' room slots low => ?_, fun i gen ent e w0 w1 pos few small gens entry stale => ?_, fun w0 w1 full => ?_⟩
  · obtain ⟨j, t, fresh, accept, hpart, hcore⟩ := leads_acceptRec_queued (tb := s.tab) part room slots w1 w0 next running place
    refine ⟨_, j, exec_post_accepts posts (no_handles w0 w1) room accept, State.retired_run .., congrArg Part.pool hpart, fresh,
      ⟨p, j, max (rcPrio r) (((s.core d).csrGet cPRIO).toNat % 4), rcAff r, dieOf d, BitVec.ofNat 64 (rcData r), 0⟩, ?_, rfl, rfl, rfl, rfl⟩
    rw [State.retired_deque, hcore]
    rfl
  · obtain ⟨j, t, fresh, accept, hpart, hcore⟩ := leads_acceptRec_held (tb := s.tab) part room slots w1 w0 held
    refine ⟨_, j, exec_post_accepts posts (no_handles w0 w1) room accept, State.retired_run .., congrArg Part.pool hpart, fresh,
      congrArg Part.held hpart, congrArg Part.armed hpart, fun c => ?_⟩
    rw [State.retired_deque, hcore]
  · obtain ⟨index, -⟩ := index_of_wait small gens w0
    obtain ⟨served, clean', value⟩ := id entry
    have handles : (checkHandles s.tab [rcWait r 0, rcWait r 1]).leads s s none := by
      rw [w1]
      refine (becomes_checkHandles small gens w0 pos few entry).leads ?_
      rw [if_neg (by simp [empty])]
      exact M.leads_pure _ s
    obtain ⟨j, t, fresh, accept, hpart, hcore, hent, hlink⟩ := leads_acceptRec_listed (tb := s.tab) part room index pos served clean' value empty
      none' slots low
    have held : (t.part p).held = ((s.part p).using j).held := congrArg Part.held hpart
    refine ⟨_, j, exec_post_accepts posts handles room accept, State.retired_run .., congrArg Part.pool hpart, fresh, hent, hlink, held,
      fun c => ?_⟩
    rw [State.retired_deque, hcore]
  · refine exec_post_stale posts ?_
    rw [w1]
    refine (becomes_checkHandles small gens w0 pos few entry).leads ?_
    rw [if_pos (by simpa using stale)]
    exact M.leads_pure _ s
  · exact ⟨_, exec_post_waits posts (no_handles w0 w1) full, s.parkedOn_parkedFor _, rfl, rfl⟩

end Sys2Proof.Machine
end

section
/-!
SUPPORT. Runs of granules of a caldera die (R97, R98, R261).
-/

namespace Sys2Proof.Machine

/-! ### The free runs of a die -/

/-- A run of granules that nobody holds. -/
abbrev SMap.freeAt (m : SMap Gran) (g n : Nat) : Prop := g + n ≤ 32768 ∧ ∀ k < n, SMap.find m (g + k) = none

theorem SMap.find_of_rising {α : Type} {m : SMap α} {lo x : Nat} (h : SMap.rising lo m = true) (below : x < lo) : SMap.find m x = none := by
  induction m generalizing lo with
  | nil => rfl
  | cons e m ih =>
    obtain ⟨j, v⟩ := e
    simp only [SMap.rising, Bool.and_eq_true, decide_eq_true_eq] at h
    obtain ⟨le, rest⟩ := h
    rw [SMap.find, if_neg (by omega)]
    exact ih rest (by omega)

/-- A run of the list is free, and lies in the window. -/
theorem freeRuns_free {m : SMap Gran} {lo : Nat} (h : SMap.rising lo m = true) (keys : ∀ e ∈ m, e.1 < 32768) (small : lo ≤ 32768)
    {r : Nat × Nat} (hr : r ∈ freeRuns lo m) : lo ≤ r.1 ∧ m.freeAt r.1 r.2 := by
  induction m generalizing lo with
  | nil =>
    obtain rfl := List.mem_singleton.1 hr
    exact ⟨Nat.le_refl _, Nat.le_of_eq (Nat.add_sub_cancel' small), fun _ _ => rfl⟩
  | cons e m ih =>
    obtain ⟨j, v⟩ := e
    simp only [SMap.rising, Bool.and_eq_true, decide_eq_true_eq] at h
    obtain ⟨le, rest⟩ := h
    have inside : j < 32768 := keys (j, v) List.mem_cons_self
    rcases List.mem_cons.1 hr with rfl | hr
    · refine ⟨Nat.le_refl _, by dsimp only; omega, fun k hk => ?_⟩
      dsimp only at hk ⊢
      rw [SMap.find, if_neg (by omega)]
      exact SMap.find_of_rising rest (by omega)
    · obtain ⟨above, room, free⟩ := ih rest (fun e he => keys e (List.mem_cons_of_mem _ he)) inside hr
      refine ⟨by omega, room, fun k hk => ?_⟩
      rw [SMap.find, if_neg (by omega)]
      exact free k hk

/-- Every run of free granules lies in a run of the list. -/
theorem exists_freeRun {m : SMap Gran} {lo g n : Nat} (h : SMap.rising lo m = true) (pos : 0 < n) (above : lo ≤ g) (free : m.freeAt g n) :
    ∃ r ∈ freeRuns lo m, r.1 ≤ g ∧ g + n ≤ r.1 + r.2 := by
  induction m generalizing lo with
  | nil =>
    obtain ⟨room, -⟩ := free
    exact ⟨_, List.mem_singleton_self _, above, by unfold calGranules; omega⟩
  | cons e m ih =>
    obtain ⟨j, v⟩ := e
    simp only [SMap.rising, Bool.and_eq_true, decide_eq_true_eq] at h
    obtain ⟨le, rest⟩ := h
    obtain ⟨room, free⟩ := free
    have other : ∀ k < n, g + k ≠ j := fun k hk same => by
      have none' := free k hk
      rw [SMap.find, if_pos same.symm] at none'
      cases none'
    by_cases before : g < j
    · refine ⟨(lo, j - lo), List.mem_cons_self, above, ?_⟩
      have apart : g + n ≤ j := by
        by_contra beyond
        exact other (j - g) (by omega) (by omega)
      dsimp only
      omega
    · have past : j + 1 ≤ g := by
        have := other 0 pos
        omega
      obtain ⟨r, hr, start, stop⟩ := ih rest past ⟨room, fun k hk => by
        have none' := free k hk
        rwa [SMap.find, if_neg (Ne.symm (other k hk))] at none'⟩
      exact ⟨r, List.mem_cons_of_mem _ hr, start, stop⟩

/-- The places at which a number of granules fit, in a list of runs. -/
def placesIn (n : Nat) (runs : List (Nat × Nat)) : Nat := (runs.map fun r => r.2 + 1 - n).sum

/-- The place that is picked lies in a run. -/
theorem nthStart_of_lt {n : Nat} : ∀ {runs : List (Nat × Nat)} {i : Nat}, i < placesIn n runs →
    ∃ r ∈ runs, ∃ g, nthStart n i runs = some g ∧ r.1 ≤ g ∧ g + n ≤ r.1 + r.2
  | [], i, h => absurd h (Nat.not_lt_zero i)
  | (lo, len) :: m, i, h => by
    have total : placesIn n ((lo, len) :: m) = len + 1 - n + placesIn n m := by simp [placesIn]
    unfold nthStart
    dsimp only
    by_cases here : i < len + 1 - n
    · rw [if_pos here]
      exact ⟨_, List.mem_cons_self, _, rfl, Nat.le_add_right .., by dsimp only; omega⟩
    · rw [if_neg here]
      obtain ⟨r, hr, g, found, start, stop⟩ := nthStart_of_lt (n := n) (runs := m) (i := i - (len + 1 - n)) (by omega)
      exact ⟨r, List.mem_cons_of_mem _ hr, g, found, start, stop⟩

theorem placesIn_pos {n : Nat} {runs : List (Nat × Nat)} {r : Nat × Nat} (hr : r ∈ runs) (fits : n ≤ r.2) : 0 < placesIn n runs := by
  refine Nat.lt_of_lt_of_le ?_ (List.single_le_sum (fun _ _ => Nat.zero_le _) _ (List.mem_map.2 ⟨r, hr, rfl⟩))
  omega

/-! ### Granules that are given to a tenant -/

/-- A run of granules given to a tenant. -/
def SMap.giveRun (m : SMap Gran) (g n : Nat) (x : Gran) : SMap Gran := (List.range n).foldl (fun m k => SMap.put m (g + k) x) m

theorem SMap.giveRun_succ (m : SMap Gran) (g n : Nat) (x : Gran) : m.giveRun g (n + 1) x = (m.giveRun g n x).put (g + n) x := by
  rw [SMap.giveRun, List.range_succ, List.foldl_append]
  rfl

theorem SMap.find_giveRun (m : SMap Gran) (g n : Nat) (x : Gran) (j : Nat) :
    SMap.find (m.giveRun g n x) j = if g ≤ j ∧ j < g + n then some x else SMap.find m j := by
  induction n with
  | zero =>
    rw [if_neg (by omega)]
    rfl
  | succ n ih =>
    rw [SMap.giveRun_succ]
    by_cases last : j = g + n
    · subst last
      rw [SMap.find_put_self, if_pos (by omega)]
    · rw [SMap.find_put_ne last, ih]
      exact if_congr (by omega) rfl rfl

/-- The granules stay in their canonical form. -/
theorem SMap.giveRun_ok {m : SMap Gran} (h : SMap.rising 0 m = true ∧ ∀ e ∈ m, e.1 < 32768) {g n : Nat} (room : g + n ≤ 32768) (x : Gran) :
    SMap.rising 0 (m.giveRun g n x) = true ∧ ∀ e ∈ m.giveRun g n x, e.1 < 32768 := by
  induction n with
  | zero => exact h
  | succ n ih =>
    obtain ⟨rising, keys⟩ := ih (by omega)
    rw [SMap.giveRun_succ]
    refine ⟨SMap.rising_put _ _ _ rising, fun e he => ?_⟩
    rcases SMap.mem_put he with rfl | ⟨old, -⟩
    · dsimp only
      omega
    · exact keys e old

/-! ### The allocation at a die (R261, R420) -/

section
variable {c : Cal} {ten pkg n pick : Nat} {vers : Bool}

theorem Cal.alloc_over (beyond : c.limitOf ten < c.usedBy ten + n * granCost vers) :
    c.alloc ten pkg n vers pick = .error (n * granCost vers) := by
  unfold Cal.alloc
  exact if_pos beyond

variable (within : c.usedBy ten + n * granCost vers ≤ c.limitOf ten) (ok : c.granOk)
include within ok

theorem Cal.alloc_none (short : 32768 < c.inUse + n * granCost vers ∨ ¬∃ g, c.gran.freeAt g n) :
    c.alloc ten pkg n vers pick = .ok none := by
  have full : (placesIn n (freeRuns 0 c.gran) = 0 || 32768 < c.inUse + n * granCost vers) = true := by
    rw [Bool.or_eq_true, decide_eq_true_eq, decide_eq_true_eq]
    refine short.symm.imp_left fun nowhere => ?_
    by_contra some'
    obtain ⟨r, hr, g, -, start, stop⟩ := nthStart_of_lt (n := n) (Nat.pos_of_ne_zero some')
    obtain ⟨-, room, free⟩ := freeRuns_free ok.1 ok.2 (Nat.zero_le _) hr
    refine nowhere ⟨g, by omega, fun k hk => ?_⟩
    have inside := free (g - r.1 + k) (by omega)
    rwa [← Nat.add_assoc, Nat.add_sub_cancel' start] at inside
  unfold Cal.alloc
  dsimp only
  rw [if_neg (Nat.not_lt.2 within)]
  exact if_pos full

theorem Cal.alloc_some (pos : 0 < n) (room : c.inUse + n * granCost vers ≤ 32768) (somewhere : ∃ g, c.gran.freeAt g n) :
    ∃ g, c.gran.freeAt g n ∧ c.alloc ten pkg n vers pick = .ok (some (g, { c with gran := c.gran.giveRun g n ⟨ten, pkg, vers⟩ })) := by
  obtain ⟨g, free⟩ := somewhere
  obtain ⟨r, hr, start, stop⟩ := exists_freeRun ok.1 pos (Nat.zero_le _) free
  have places : 0 < placesIn n (freeRuns 0 c.gran) := placesIn_pos hr (by omega)
  obtain ⟨r, hr, g, found, start, stop⟩ := nthStart_of_lt (Nat.mod_lt pick places)
  obtain ⟨-, room', free⟩ := freeRuns_free ok.1 ok.2 (Nat.zero_le _) hr
  refine ⟨g, ⟨by omega, fun k hk => ?_⟩, ?_⟩
  · have inside := free (g - r.1 + k) (by omega)
    rwa [← Nat.add_assoc, Nat.add_sub_cancel' start] at inside
  · have enough : ¬(placesIn n (freeRuns 0 c.gran) = 0 || 32768 < c.inUse + n * granCost vers) = true := by
      rw [Bool.or_eq_true, decide_eq_true_eq, decide_eq_true_eq]
      omega
    unfold Cal.alloc
    dsimp only
    rw [if_neg (Nat.not_lt.2 within)]
    refine (if_neg enough).trans ?_
    rw [placesIn] at found
    rw [found]
    rfl

end
end Sys2Proof.Machine
end

section
/-!
SUPPORT. Allocation and release of caldera memory, and the end of a scrub (R95, R97, R98, R261 to R263, R391, R420, R436).
-/

namespace Sys2Proof.Machine

open M

/-! ### The selector (R260, R414) -/

/-- A selector that names a die of this package, which answers. -/
structure State.ownDie (s : State) (v : Word) : Prop where
  small : v.toNat < 2 ^ 9
  reserved : v.toNat / 32 % 8 = 0
  pkg : v.toNat / 2 % 16 = s.pres.pkg.toNat
  group : s.pres.pkg.toNat < s.pres.group
  answers : s.calLost s.pres.pkg.toNat (v.toNat.testBit 0) = false

theorem leads_selector {s : State} {v : Word} (die : s.ownDie v) {versOk : Bool} (vers : v.toNat.testBit 8 = true → versOk = true) (xval : Word) :
    (selector v versOk xval).leads s s (s.pres.pkg.toNat, v.toNat.testBit 0, v.toNat.testBit 8) := by
  obtain ⟨small, reserved, pkg, group, answers⟩ := die
  have pkg : bitsOf v.toNat 1 4 = s.pres.pkg.toNat := pkg
  have reserved : bitsOf v.toNat 5 3 = 0 := reserved
  refine M.leads_get_bind ?_
  dsimp only
  rw [pkg, reserved, answers]
  have fine : ¬(2 ^ 9 ≤ v.toNat || (0 : Nat) ≠ 0 || s.pres.group ≤ s.pres.pkg.toNat ||
      (s.pres.pkg.toNat ≠ s.pres.pkg.toNat && (SMap.get (fun _ => Peer.reset) s.dev.peers s.pres.pkg.toNat).gone) ||
      (v.toNat.testBit 8 && !versOk)) = true := by
    have old : (v.toNat.testBit 8 && !versOk) = false := by
      cases bit : v.toNat.testBit 8
      · rfl
      · rw [vers bit]
        rfl
    rw [old]
    simp [Nat.not_le.2 group]
    omega
  rw [if_neg fine, if_neg (by decide)]
  exact M.leads_pure _ s

/-! ### `cm.alloc` and `cm.query` -/

/-- A choice of the machine's has been made (log 7). -/
def State.chosen (s : State) : State := (Upd.dev fun d => { d with freeIx := d.freeIx + 1 }).apply s

/-- A run of granules of a die has been given to a tenant. -/
def State.allocated (s : State) (ca : Bool) (g n : Nat) (x : Gran) : State :=
  s.chosen.setCal ca { s.cal ca with gran := (s.cal ca).gran.giveRun g n x }

section
variable {rd rs1 : XReg} {o : S2} {s : State} (h1 : s.readable rs1) (h2 : s.s2Readable o) (die : s.ownDie (s.s2 o))
include h1 h2 die

theorem exec_cmAlloc_none (none' : (s.x rs1).toNat = 0 ∨ 32768 < (s.x rs1).toNat) : exec (.cmAlloc rd rs1 o) s = .next (s.wrote rd 0).retired := by
  refine M.leads.instr_eq (M.leads_bind (leads_rx h1) (M.leads_bind (leads_s2Val h2) (M.leads_bind (leads_selector die (fun _ => rfl) 0)
    (M.leads_get_bind (M.leads_bind (t := s) (a := 0) ?_ (M.leads_bind (leads_wx _ _ _) (M.leads_pure _ _)))))))
  rw [if_pos (by simpa using none')]
  exact M.leads_pure _ s

/-- What the instruction does at a die of this package with a count that can be asked for. -/
theorem exec_cmAlloc_eq (pos : 0 < (s.x rs1).toNat) (most : (s.x rs1).toNat ≤ 32768) : exec (.cmAlloc rd rs1 o) s = instr (do
    let v ← (do
      match ← allocHere ((s.s2 o).toNat.testBit 0) s.myTen s.pres.pkg.toNat (s.x rs1).toNat ((s.s2 o).toNat.testBit 8) with
      | .ok v => return v
      | .error cost => raise QUOTA (BitVec.ofNat 64 cost) : M Word)
    wx rd v
    return {}) s := by
  refine M.Becomes.instr_eq ((leads_rx h1).becomes ((leads_s2Val h2).becomes ((leads_selector die (fun _ => rfl) 0).becomes
    ((M.leads_get s).becomes ?_))))
  dsimp only
  rw [if_neg (by simp; omega), if_pos rfl]
  exact .refl _ s

theorem exec_cmAlloc_over (pos : 0 < (s.x rs1).toNat) (most : (s.x rs1).toNat ≤ 32768) (tiles : s.noTiles)
    (beyond : (s.cal ((s.s2 o).toNat.testBit 0)).limitOf s.myTen <
      (s.cal ((s.s2 o).toNat.testBit 0)).usedBy s.myTen + (s.x rs1).toNat * granCost ((s.s2 o).toNat.testBit 8)) :
    exec (.cmAlloc rd rs1 o) s =
      .next (s.took { code := QUOTA, val := BitVec.ofNat 64 ((s.x rs1).toNat * granCost ((s.s2 o).toNat.testBit 8)) }) := by
  rw [exec_cmAlloc_eq h1 h2 die pos most]
  refine M.Quits.instr_eq (M.Quits.bind ?_ _)
  have answer : (allocHere ((s.s2 o).toNat.testBit 0) s.myTen s.pres.pkg.toNat (s.x rs1).toNat ((s.s2 o).toNat.testBit 8)).leads s s.chosen
      (.error ((s.x rs1).toNat * granCost ((s.s2 o).toNat.testBit 8))) := by
    refine M.leads_bind (t := s.chosen) (fun _ _ => rfl) (M.leads_get_bind ?_)
    rw [show s.chosen.cal _ = s.cal _ from rfl, Cal.alloc_over beyond]
    exact M.leads_pure _ _
  exact answer.quits (quits_raise_at (t := s.chosen) tiles _ _ s)

/-- Without a run or storage for it the answer is 0. -/
theorem exec_cmAlloc_short (pos : 0 < (s.x rs1).toNat) (most : (s.x rs1).toNat ≤ 32768) (ok : (s.cal ((s.s2 o).toNat.testBit 0)).granOk)
    (within : (s.cal ((s.s2 o).toNat.testBit 0)).usedBy s.myTen + (s.x rs1).toNat * granCost ((s.s2 o).toNat.testBit 8) ≤
      (s.cal ((s.s2 o).toNat.testBit 0)).limitOf s.myTen)
    (short : 32768 < (s.cal ((s.s2 o).toNat.testBit 0)).inUse + (s.x rs1).toNat * granCost ((s.s2 o).toNat.testBit 8) ∨
      ¬∃ g, (s.cal ((s.s2 o).toNat.testBit 0)).gran.freeAt g (s.x rs1).toNat) :
    exec (.cmAlloc rd rs1 o) s = .next (s.chosen.wrote rd 0).retired := by
  rw [exec_cmAlloc_eq h1 h2 die pos most]
  refine M.leads.instr_eq (M.leads_bind (t := s.chosen) (a := 0) (M.leads_bind (t := s.chosen) (a := .ok 0) ?_ (M.leads_pure _ _))
    (M.leads_bind (leads_wx _ _ _) (M.leads_pure _ _)))
  refine M.leads_bind (t := s.chosen) (fun _ _ => rfl) (M.leads_get_bind ?_)
  rw [show s.chosen.cal _ = s.cal _ from rfl, Cal.alloc_none within ok short]
  exact M.leads_pure _ _

/-- With a run and storage for it the tenant holds a free run from then on, whose base is the answer. -/
theorem exec_cmAlloc (pos : 0 < (s.x rs1).toNat) (most : (s.x rs1).toNat ≤ 32768) (ok : (s.cal ((s.s2 o).toNat.testBit 0)).granOk)
    (within : (s.cal ((s.s2 o).toNat.testBit 0)).usedBy s.myTen + (s.x rs1).toNat * granCost ((s.s2 o).toNat.testBit 8) ≤
      (s.cal ((s.s2 o).toNat.testBit 0)).limitOf s.myTen)
    (room : (s.cal ((s.s2 o).toNat.testBit 0)).inUse + (s.x rs1).toNat * granCost ((s.s2 o).toNat.testBit 8) ≤ 32768)
    (somewhere : ∃ g, (s.cal ((s.s2 o).toNat.testBit 0)).gran.freeAt g (s.x rs1).toNat) :
    ∃ g, (s.cal ((s.s2 o).toNat.testBit 0)).gran.freeAt g (s.x rs1).toNat ∧
      exec (.cmAlloc rd rs1 o) s = .next ((s.allocated ((s.s2 o).toNat.testBit 0) g (s.x rs1).toNat
        ⟨s.myTen, s.pres.pkg.toNat, (s.s2 o).toNat.testBit 8⟩).wrote rd (granVA s.pres.pkg.toNat ((s.s2 o).toNat.testBit 0) g)).retired := by
  obtain ⟨g, free, found⟩ := Cal.alloc_some (ten := s.myTen) (pkg := s.pres.pkg.toNat) (pick := Config.granPick s.dev.freeIx) within ok pos room
    somewhere
  refine ⟨g, free, ?_⟩
  rw [exec_cmAlloc_eq h1 h2 die pos most]
  refine M.leads.instr_eq (M.leads_bind (M.leads_bind (a := .ok (granVA s.pres.pkg.toNat ((s.s2 o).toNat.testBit 0) g)) ?_ (M.leads_pure _ _))
    (M.leads_bind (leads_wx _ _ _) (M.leads_pure _ _)))
  refine M.leads_bind (t := s.chosen) (a := s.dev.freeIx) (fun _ _ => rfl) (M.leads_get_bind ?_)
  rw [show s.chosen.cal _ = s.cal _ from rfl, found]
  exact M.leads_upd_bind (M.leads_pure _ _)

omit h1 in
theorem exec_cmQuery (plain : (s.s2 o).toNat.testBit 8 = false) : exec (.cmQuery rd o) s =
    .next (s.wrote rd ((s.cal ((s.s2 o).toNat.testBit 0)).quota s.myTen)).retired := by
  refine M.leads.instr_eq (M.leads_bind (leads_s2Val h2) (M.leads_bind (leads_selector die (fun bit => absurd bit (by rw [plain]; decide)) 0)
    (M.leads_get_bind (M.leads_bind (t := s) (a := (s.cal ((s.s2 o).toNat.testBit 0)).quota s.myTen) ?_
      (M.leads_bind (leads_wx _ _ _) (M.leads_pure _ _))))))
  rw [if_pos rfl]
  exact M.leads_pure _ s

end
end Sys2Proof.Machine
end

section
/-!
SUPPORT. The release of granules and the end of a scrub (R95, R98, R262, R391, R436).
-/

namespace Sys2Proof.Machine

open M

/-! ### The address of a granule (R97) -/

/-- The parts of a granule's address. -/
theorem granVA_parts {pkg g : Nat} (hp : pkg < 16) (hg : g < 32768) (ca : Bool) :
    inCaldera (granVA pkg ca g).toNat = true ∧ calOk ((granVA pkg ca g).toNat % 2 ^ 40) = true ∧
    (granVA pkg ca g).toNat % 2 ^ 40 % 2 ^ 16 = 0 ∧ calPkg ((granVA pkg ca g).toNat % 2 ^ 40) = pkg ∧
    calCa ((granVA pkg ca g).toNat % 2 ^ 40) = ca ∧ calOff ((granVA pkg ca g).toNat % 2 ^ 40) / 65536 = g := by
  have value : (granVA pkg ca g).toNat = 0xF_FF00_0000_0000 + pkg * 2 ^ 36 + ca.toNat * 2 ^ 35 + g * 2 ^ 16 := by
    have bit : ca.toNat ≤ 1 := Bool.toNat_le ca
    rw [granVA, BitVec.toNat_ofNat]
    omega
  rw [value]
  simp only [inCaldera, calOk, calPkg, calCa, calOff, bitsOf, Bool.and_eq_true, beq_iff_eq, decide_eq_true_eq]
  cases ca <;> simp only [Bool.toNat_false, Bool.toNat_true, beq_eq_false_iff_ne, beq_iff_eq, ne_eq] <;> omega

/-! ### A run of granules released (R95) -/

/-- Only the records of the device have changed. -/
def State.OnlyDev (s t : State) : Prop := ∃ d, t = { s with dev := d }

/-- Granules are being scrubbed, and their translations are gone from the interfaces. -/
structure State.Released (s t : State) (xs : List ScrubOf) : Prop where
  only : s.OnlyDev t
  scrubs : t.dev.scrubs.map (·.of) = s.dev.scrubs.map (·.of) ++ xs
  tlb : t.dev.tlb = s.dev.tlb

theorem State.Released.mem {s t : State} {xs : List ScrubOf} (h : s.Released t xs) : t.mem = s.mem := by
  obtain ⟨⟨d, rfl⟩, -⟩ := h
  rfl

theorem State.Released.cals {s t : State} {xs : List ScrubOf} (h : s.Released t xs) : t.cals = s.cals := by
  obtain ⟨⟨d, rfl⟩, -⟩ := h
  rfl

theorem State.retired_tlb (s : State) (f : Fin) : (s.retired f).dev.tlb = s.dev.tlb := rfl

theorem State.Released.refl (s : State) : s.Released s [] := ⟨⟨s.dev, rfl⟩, (List.append_nil _).symm, rfl⟩

theorem State.Released.trans {s t u : State} {xs ys : List ScrubOf} (h : s.Released t xs) (k : t.Released u ys) : s.Released u (xs ++ ys) := by
  obtain ⟨⟨d, rfl⟩, scrubs, tlb⟩ := h
  obtain ⟨⟨e, rfl⟩, scrubs', tlb'⟩ := k
  exact ⟨⟨e, rfl⟩, by rw [scrubs', scrubs, List.append_assoc], tlb'.trans tlb⟩

theorem State.released_begin (s : State) (x : ScrubOf) (cause : BitVec 8) : s.Released ((Upd.dev (Dev.scrubbing x cause)).apply s) [x] :=
  ⟨⟨_, rfl⟩, List.map_append, rfl⟩

theorem leads_beginScrubs (f : Nat → ScrubOf) (cause : BitVec 8) : ∀ (l : List Nat) (s : State),
    ∃ t ids, (M.mapL (fun k => beginScrub (f k) cause) l).leads s t ids ∧ s.Released t (l.map f)
  | [], s => ⟨s, [], M.leads_pure _ s, .refl s⟩
  | k :: l, s => by
    obtain ⟨t, ids, rest, released⟩ := leads_beginScrubs f cause l ((Upd.dev (Dev.scrubbing (f k) cause)).apply s)
    exact ⟨t, _, M.leads_bind (leads_beginScrub (f k) cause s) (M.leads_bind rest (M.leads_pure _ _)), (s.released_begin (f k) cause).trans released⟩

theorem State.released_acks (s : State) (l : List (Nat × Nat)) : s.Released ((Upd.dev fun d => { d with acks := d.acks ++ l }).apply s) [] :=
  ⟨⟨{ s.dev with acks := s.dev.acks ++ l }, rfl⟩, (List.append_nil _).symm, rfl⟩

theorem stable_released : Stable fun s t : State => s.Released t [] := ⟨.refl, fun h k => h.trans k⟩

theorem released_sendPacket (ca : Bool) (p : Packet) : (sendPacket ca p).Keeps fun s t => s.Released t [] :=
  (keepsLinks_sendPacket ca p).mono fun s t ⟨l, e⟩ => by
    subst e
    exact ⟨⟨_, rfl⟩, (List.append_nil _).symm, rfl⟩

theorem released_tellScrub (ids : List Nat) (t addr : Nat) : (tellScrub ids t addr).Keeps fun s u => s.Released u [] :=
  .get fun _ => .each stable_released (fun _ => .get fun _ => .ite (.pure stable_released)
    (.seq stable_released (.upd fun s => s.released_acks _) (released_sendPacket _ _))) _

/-- The translations over a run of window offsets dropped. -/
def State.undropped (s : State) (lo hi : Nat) : State :=
  (Upd.dev fun d => { d with tlb := d.tlb.filter fun e => !e.overWindow lo hi }).apply s

theorem leads_releaseRun (ca : Bool) (t g n : Nat) (s : State) :
    let lo := s.pres.pkg.toNat * 2 ^ 36 + ca.toNat * 2 ^ 35 + g * 2 ^ 16
    ∃ u, (releaseRun ca t g n).leads s u () ∧
      (s.undropped lo (lo + n * 2 ^ 16)).Released u ((List.range n).map fun k => .gran ca (g + k)) := by
  intro lo
  obtain ⟨v, ids, begins, released⟩ := leads_beginScrubs (fun k => .gran ca (g + k)) ILLEGAL_OPERAND (List.range n) (s.undropped lo (lo + n * 2 ^ 16))
  have told := released_tellScrub ids t (2 ^ 55 + lo + (n - 1))
  refine ⟨_, M.leads_get_bind (M.leads_upd_bind (M.leads_bind begins (told.leads v))), ?_⟩
  have all := released.trans (told.rel v)
  rwa [List.append_nil] at all

/-! ### `cm.free` -/

section
variable {rs1 : XReg} {o : S2} {s : State} (h1 : s.readable rs1) (h2 : s.s2Readable o) (fenced : s.fenced)
include h1 h2 fenced

theorem exec_cmFree_none (none' : (s.s2 o).toNat = 0) : exec (.cmFree rs1 o) s = .next s.retired := by
  refine M.leads.instr_eq (M.leads_bind (leads_rx h1) (M.leads_bind (leads_s2Val h2) (M.leads_bind (leads_fenceAll fenced) (M.leads_get_bind ?_))))
  dsimp only
  rw [if_pos none']
  exact M.leads_pure _ s

variable {ca : Bool} {g : Nat} (inside : g < 32768) (base : s.x rs1 = granVA s.pres.pkg.toNat ca g) (group : s.pres.pkg.toNat < s.pres.group)
  (answers : s.calLost s.pres.pkg.toNat ca = false) (pos : 0 < (s.s2 o).toNat)
include inside base group answers pos

theorem exec_cmFree_eq : exec (.cmFree rs1 o) s = instr (do
    if ← freeHere ca s.myTen g (s.s2 o).toNat then return {} else raise ILLEGAL_OPERAND (s.x rs1)) s := by
  obtain ⟨window, fine, straight, pkg, die, off⟩ := granVA_parts s.pres.pkg.isLt inside ca
  rw [← base] at window fine straight pkg die off
  refine M.Becomes.instr_eq ((leads_rx h1).becomes ((leads_s2Val h2).becomes ((leads_fenceAll fenced).becomes ((M.leads_get s).becomes ?_))))
  have good : ¬(!inCaldera (s.x rs1).toNat || !calOk ((s.x rs1).toNat % 2 ^ 40) || (s.x rs1).toNat % 2 ^ 40 % 2 ^ 16 ≠ 0 ||
      s.pres.group ≤ s.pres.pkg.toNat) = true := by
    rw [window, fine, straight]
    simp [Nat.not_le.2 group]
  dsimp only
  rw [if_neg (by omega), pkg, die, off, if_neg good, answers, if_neg (by decide), if_pos rfl]
  exact .refl _ s

theorem exec_cmFree_refused (other : s.holds ca s.myTen g (s.s2 o).toNat = false) :
    exec (.cmFree rs1 o) s = .next (s.took { code := ILLEGAL_OPERAND, val := s.x rs1 }) := by
  rw [exec_cmFree_eq h1 h2 fenced inside base group answers pos]
  refine M.Quits.instr_eq (M.leads.quits (u := s) (a := false) (M.leads_get_bind ?_) ?_)
  · rw [other, if_neg (by decide)]
    exact M.leads_pure _ s
  · rw [if_neg (by decide)]
    exact quits_raise fenced.1 _ _

theorem exec_cmFree (holds : s.holds ca s.myTen g (s.s2 o).toNat = true) {t : State}
    (release : (releaseRun ca s.myTen g (s.s2 o).toNat).leads s t ()) : exec (.cmFree rs1 o) s = .next t.retired := by
  rw [exec_cmFree_eq h1 h2 fenced inside base group answers pos]
  refine M.leads.instr_eq (M.leads_bind (t := t) (a := true) (M.leads_get_bind ?_) ?_)
  · rw [holds, if_pos rfl]
    exact M.leads_bind release (M.leads_pure _ t)
  · rw [if_pos rfl]
    exact M.leads_pure _ t

end

/-! ### The end of a scrub (R95, R98, R391) -/

/-- A granule that has been scrubbed is free. -/
def State.scrubbed (s : State) (id g : Nat) (ca : Bool) : State :=
  let t := (Upd.scrub ((Space.cal ca).loc (g * 65536)) ((Space.cal ca).loc ((g + 1) * 65536))).apply s
  let u := (Upd.cal ca fun c => { c with gran := c.gran.erase g }).apply t
  { u with dev := { u.dev with scrubs := u.dev.scrubs.filter fun y => y.id != id } }

theorem exec_scrubComplete {id g : Nat} {ca : Bool} {s : State} (found : s.dev.scrubs.find? (fun x => x.id == id) = some ⟨id, .gran ca g⟩)
    (acked : (s.dev.acks.any fun a => a.1 == id) = false) : exec (.scrubComplete id) s = .next (s.scrubbed id g ca) := by
  refine M.leads.event_eq (M.leads_get_bind ?_)
  rw [found]
  dsimp only
  rw [acked, if_neg (by decide)]
  exact M.leads_upd_bind (M.leads_upd_bind (M.leads_upd _ _))

theorem calLoc_succ (ca : Bool) (g : Nat) : (Space.cal ca).loc ((g + 1) * 65536) = (Space.cal ca).loc (g * 65536) + 65536 := by
  simp only [Space.loc]
  omega

theorem State.scrubbed_byte (s : State) (id g : Nat) (ca : Bool) (a : Nat) : (s.scrubbed id g ca).byte a =
    if (Space.cal ca).loc (g * 65536) ≤ a ∧ a < (Space.cal ca).loc (g * 65536) + 65536 then 0 else s.byte a := by
  refine (State.byte_scrub s ((Space.cal ca).loc (g * 65536)) ((Space.cal ca).loc ((g + 1) * 65536)) a).trans ?_
  rw [calLoc_succ]
  by_cases inside : (Space.cal ca).loc (g * 65536) ≤ a ∧ a < (Space.cal ca).loc (g * 65536) + 65536
  · rw [if_pos inside, if_neg (by omega)]
  · rw [if_neg inside, if_pos (by omega)]

theorem State.scrubbed_clean (s : State) (id g : Nat) (ca : Bool) {a : Nat} (lo : (Space.cal ca).loc (g * 65536) ≤ a)
    (hi : a < (Space.cal ca).loc (g * 65536) + 65536) :
    a ∉ (s.scrubbed id g ca).pois ∧ SMap.find (s.scrubbed id g ca).vers a = none := by
  have hi : a < (Space.cal ca).loc ((g + 1) * 65536) := by rwa [calLoc_succ]
  refine ⟨fun marked => ?_, find_eraseRange s.vers lo hi⟩
  have outside := (List.mem_filter.1 marked).2
  simp only [Bool.or_eq_true, decide_eq_true_eq] at outside
  omega

theorem State.scrubbed_free (s : State) (id g : Nat) (ca : Bool) : SMap.find ((s.scrubbed id g ca).cal ca).gran g = none := by
  have cal : (s.scrubbed id g ca).cal ca = { s.cal ca with gran := (s.cal ca).gran.erase g } := State.cal_setCal_self ..
  rw [cal]
  exact SMap.find_erase_self ..

theorem State.scrubbed_done (s : State) (id g : Nat) (ca : Bool) : ∀ x ∈ (s.scrubbed id g ca).dev.scrubs, x.id ≠ id := fun x hx => by
  simpa using (List.mem_filter.1 hx).2

/-! ### What `cm.alloc` leaves -/

theorem State.wrote_cals (s : State) (rd : XReg) (v : Word) : (s.wrote rd v).cals = s.cals := by
  unfold State.wrote
  split <;> rfl

theorem State.retired_cals (s : State) (f : Fin) : (s.retired f).cals = s.cals := rfl

theorem State.cal_congr {s t : State} (h : t.cals = s.cals) (ca : Bool) : t.cal ca = s.cal ca :=
  congrArg (SMap.get (fun _ => Cal.reset) · ca.toNat) h

theorem State.allocated_cal (s : State) (ca : Bool) (g n : Nat) (x : Gran) (rd : XReg) (v : Word) :
    ((s.allocated ca g n x).wrote rd v).retired.cal ca = { s.cal ca with gran := (s.cal ca).gran.giveRun g n x } := by
  rw [State.cal_congr (State.retired_cals ..), State.cal_congr (State.wrote_cals ..), State.allocated, State.cal_setCal_self]

/-- A register given 0, with no load pending. -/
theorem State.rd_zeroed {s : State} (pend : s.me.pend = []) (rd r : XReg) :
    (s.wrote rd 0).retired.me.rd r = if r = rd then 0 else s.me.rd r := by
  rw [State.rd_wrote_retired_any pend]
  by_cases same : r = rd
  · by_cases zero : r = 0
    · rw [if_neg fun n => n.2 zero, if_pos same, zero, Ctx.rd_zero]
    · rw [if_pos ⟨same, zero⟩, if_pos same]
  · rw [if_neg fun n => same n.1, if_neg same]

/-- Settles O30: one lemma above for each instruction and each condition, and for the end of a scrub. -/
theorem calderaOps : Obligations.CalderaOps := by
  unfold Obligations.CalderaOps
  refine ⟨fun rd rs1 o s h1 h2 fenced pend => ?_, fun id g ca s found acked => ?_⟩
  · intro sel ca vers c n
    refine ⟨fun small reserved pkg group answers => ?_, fun ca g inside base group answers => ?_⟩
    · have die : s.ownDie (s.s2 o) := ⟨small, reserved, pkg, group, answers⟩
      refine ⟨exec_cmAlloc_none h1 h2 die, fun pos most beyond => exec_cmAlloc_over h1 h2 die pos most fenced.1 beyond,
        fun pos most within room ok somewhere => ?_, fun pos most within ok short => ?_, fun plain => exec_cmQuery h2 die plain⟩
      · obtain ⟨g, ⟨fits, free⟩, done⟩ := exec_cmAlloc h1 h2 die pos most ok within room somewhere
        have cal := s.allocated_cal ca g n ⟨s.myTen, s.pres.pkg.toNat, vers⟩ rd (granVA s.pres.pkg.toNat ca g)
        refine ⟨_, g, done, State.rd_wrote_retired (s := s.allocated ca g n _) pend rd _, fits, ?_, fun j => ?_, free⟩
        · rw [cal]
          exact SMap.giveRun_ok ok fits _
        · rw [cal]
          exact SMap.find_giveRun ..
      · exact ⟨_, exec_cmAlloc_short h1 h2 die pos most ok within short, State.rd_zeroed (s := s.chosen) pend rd, s.chosen.wrote_cals rd 0,
          s.chosen.wrote_mem rd 0, State.retired_run ..⟩
    · refine ⟨exec_cmFree_none h1 h2 fenced, fun pos holds => ?_, exec_cmFree_refused h1 h2 fenced inside base group answers⟩
      obtain ⟨u, release, released⟩ := leads_releaseRun ca s.myTen g sel s
      refine ⟨_, exec_cmFree h1 h2 fenced inside base group answers pos holds release, State.retired_run .., released.mem, released.cals,
        released.scrubs, fun e he => ?_⟩
      rw [State.retired_tlb, released.tlb] at he
      obtain ⟨old, apart⟩ := List.mem_filter.1 he
      exact ⟨old, fun crosses => by rw [(overWindow_iff ..).2 crosses] at apart; cases apart⟩
  · exact ⟨_, exec_scrubComplete found acked, s.scrubbed_byte id g ca, fun a lo hi => s.scrubbed_clean id g ca lo hi, s.scrubbed_free id g ca,
      s.scrubbed_done id g ca⟩

end Sys2Proof.Machine
end
